-- ==== Sys2Proof/Word.lean ====
section
/-! DEFINITION. The word types of the ADM-4800 and their plainest arithmetic (spec/00_scope.md R5, R6). -/

namespace Sys2Proof

/-- A 64-bit scalar register or dword. -/
abbrev Word := BitVec 64

/-- The smallest addressable unit of every memory. -/
abbrev Byte := BitVec 8

/-- A 7-bit register field of an instruction word (spec/02_encoding.md R49). -/
abbrev Fld := BitVec 7

/-- Bits [hi:lo] of a natural number, both ends included (R5). -/
def bitsOf (n hi lo : Nat) : Nat := n / 2 ^ lo % 2 ^ (hi + 1 - lo)

/-- One bit of a natural number. -/
def bitOf (n i : Nat) : Bool := n / 2 ^ i % 2 == 1

/-- `n` rounded up to a whole number of `k`s, in units of `k`. -/
def ceilDiv (n k : Nat) : Nat := (n + k - 1) / k

end Sys2Proof
end

