-- ==== Sys2Proof/Syntax.lean ====
section
/-! DEFINITION. The instructions and device events of the opcode table: one constructor a row of
spec/opcode_table.json (spec/02_encoding.md R49 to R55; spec/95_what_each_step_holds.md names the steps). -/

namespace Sys2Proof

/-- The scope field of formats Q and F (R50). -/
inductive Scope where
  | ctx | gang | cluster | die | dev | sys
deriving DecidableEq, Repr

/-- Access widths of format Q: W = 0 to 3 (R49). -/
inductive QWidth where
  | w8 | w16 | w32 | w64
deriving DecidableEq, Repr

/-- Element width codes 0 to 5 (R102). -/
inductive Ew where
  | e2 | e4 | e8 | e16 | e32 | e64
deriving DecidableEq, Repr

/-- Format classes 0 to 9 (R67, R71). -/
inductive Cls where
  | i | n | fp32 | bf16 | fp16 | e4m3 | e5m2 | e3m2 | e2m3 | e2m1
deriving DecidableEq, Repr

/-- The target of `vcvt`: the legal values of its B field (R138). -/
inductive CvtTarget where
  /-- A floating-point class, 2 to 9. -/
  | fp (cls : Cls) (sat : Bool)
  /-- An integer of class N (`unsigned`) or I, by width. -/
  | int (unsigned : Bool) (ew : Ew) (sat : Bool)
deriving DecidableEq, Repr

/-- Replacement class named by `thint` (R243). -/
inductive Rcl where
  | stream | normal | keep
deriving DecidableEq, Repr

/-- Kinds of `flimm` (R97). -/
inductive FlimmKind where
  | fp16 | bf16 | i16
deriving DecidableEq, Repr

/-- The writing `ctl` forms (R111). -/
inductive CtlOp where
  | wr | set | clr
deriving DecidableEq, Repr

/-- The supply rails of R387 step 1, in the order in which they rise. -/
inductive Rail where
  | vppHbm | vddqHbm | vddCore | vddIo
deriving DecidableEq, Repr

/-- A page the host writes (R381). -/
inductive HostPage where
  | queue (q : Nat) | device | dieCtl (d : Nat) | sched (d : Nat) | hansom (d : Nat) | debug (d : Nat)
  | bootBuf (d : Nat)
deriving DecidableEq, Repr

/-- One 64-byte command: dword 0 without its opcode, and dwords 1 to 7 (R385). -/
structure Cmd where
  /-- Bits [63:32] and [15:9] of dword 0, all reserved. -/
  rsv : Nat
  irq : Bool
  tag : BitVec 16
  d1 : Word
  d2 : Word
  d3 : Word
  d4 : Word
  d5 : Word
  d6 : Word
  d7 : Word
deriving DecidableEq, Repr

/-- Where an uncorrectable error lies (R375). -/
inductive HwError where
  /-- A word of the row of a name of a VLC; with a strip, of its private row of the name (R149, R153). -/
  | regWord (core slot name word : Nat) (strip : Option Nat)
  | lsWord (core word : Nat)
  | sector (pa : Nat)
  | accElem (core row col : Nat)
  /-- A parity error in a byte of a line of an L1 (R199). -/
  | l1Byte (core line byte : Nat)
  /-- A fenceable function, by die, kind and unit index (R386). -/
  | unit (die kind idx : Nat)
deriving DecidableEq, Repr

/-- What the debug page does to a VLC (R396). -/
inductive DebugOp where
  | halt | step | release
deriving DecidableEq, Repr

/-- The accesses of R211. -/
inductive Acc where
  | read | write | execute | atomic
deriving DecidableEq, Repr

/-- Every row of spec/opcode_table.json.  Fields a, b and d are the 7-bit register fields; `pg` is the guard
or mask triple; `k` is the K bit where both values are legal. -/
inductive Instr where
  -- major 0x01: scalar R format
  | add (d a b : Fld) | sub (d a b : Fld) | and (d a b : Fld) | or (d a b : Fld) | xor (d a b : Fld)
  | shl (d a b : Fld) | shr (d a b : Fld) | sar (d a b : Fld) | cmplt (d a b : Fld) | cmpltn (d a b : Fld)
  | mul (d a b : Fld) | mulh (d a b : Fld) | mulhn (d a b : Fld) | div (d a b : Fld) | divn (d a b : Fld)
  | rem (d a b : Fld) | remn (d a b : Fld) | min (d a b : Fld) | max (d a b : Fld) | minn (d a b : Fld)
  | maxn (d a b : Fld) | clz (d a : Fld) | ctz (d a : Fld) | popc (d a : Fld)
  -- majors 0x02 to 0x09, 0x38
  | addi (d a : Fld) (imm : BitVec 12) | andi (d a : Fld) (imm : BitVec 12) | ori (d a : Fld) (imm : BitVec 12)
  | xori (d a : Fld) (imm : BitVec 12) | shli (d a : Fld) (sh : BitVec 6) | shri (d a : Fld) (sh : BitVec 6)
  | sari (d a : Fld) (sh : BitVec 6) | cmplti (d a : Fld) (imm : BitVec 12)
  | lui (d : Fld) (imm : BitVec 19) | auipc (d : Fld) (imm : BitVec 19)
  | flimm (kind : FlimmKind) (d : Fld) (imm : BitVec 16)
  -- majors 0x0A to 0x11
  | jal (imm : BitVec 26) | jalr (d a : Fld) (imm : BitVec 12)
  | beq (a b : Fld) (imm : BitVec 12) | bne (a b : Fld) (imm : BitVec 12) | blt (a b : Fld) (imm : BitVec 12)
  | bge (a b : Fld) (imm : BitVec 12) | bltn (a b : Fld) (imm : BitVec 12) | bgen (a b : Fld) (imm : BitVec 12)
  -- majors 0x12, 0x13
  | ldI8 (d a : Fld) (imm : BitVec 9) | ldN8 (d a : Fld) (imm : BitVec 9) | ldI16 (d a : Fld) (imm : BitVec 9)
  | ldN16 (d a : Fld) (imm : BitVec 9) | ldI32 (d a : Fld) (imm : BitVec 9) | ldN32 (d a : Fld) (imm : BitVec 9)
  | ld64 (d a : Fld) (imm : BitVec 9)
  | st8 (b a : Fld) (imm : BitVec 10) | st16 (b a : Fld) (imm : BitVec 10) | st32 (b a : Fld) (imm : BitVec 10)
  | st64 (b a : Fld) (imm : BitVec 10)
  -- major 0x14; `w32` is FN[4]
  | amoAdd (w32 : Bool) (d a b : Fld) | amoAnd (w32 : Bool) (d a b : Fld) | amoOr (w32 : Bool) (d a b : Fld)
  | amoXor (w32 : Bool) (d a b : Fld) | amoMin (w32 : Bool) (d a b : Fld) | amoMax (w32 : Bool) (d a b : Fld)
  | amoMinn (w32 : Bool) (d a b : Fld) | amoMaxn (w32 : Bool) (d a b : Fld) | amoSwap (w32 : Bool) (d a b : Fld)
  | amoCas (w32 : Bool) (d a b : Fld) | amoFadd (d a b : Fld) | amoFmax (d a b : Fld) | amoFmin (d a b : Fld)
  -- majors 0x15, 0x16
  | ldAcq (sc : Scope) (w : QWidth) (x a : Fld) (imm : BitVec 6)
  | stRel (sc : Scope) (w : QWidth) (x a : Fld) (imm : BitVec 6)
  | fenceAcq (sc : Scope) | fenceRel (sc : Scope) | fenceFull (sc : Scope) | fenceSv | fenceVs
  -- majors 0x17, 0x18; `handlerReturn` is a ctl write of HANDLER (number 0x058)
  | ctlRd (d : Fld) (ctl : BitVec 10) | ctlWr (d a : Fld) (ctl : BitVec 10) | ctlSet (d a : Fld) (ctl : BitVec 10)
  | ctlClr (d a : Fld) (ctl : BitVec 10) | handlerReturn (op : CtlOp) (d a : Fld)
  | trap (a : Fld) | ebreak | featq (d a : Fld) | wbase (s v : Fld) | heartbeat | yield | vexit | eret
  | cyc (d : Fld) | ctxid (d : Fld)
  -- majors 0x19 to 0x1B
  | vcfgi (d a : Fld) (imm : BitVec 12) | vcfg (d a b : Fld)
  | mmode (d a : Fld) | mexit | tshape (d a : Fld)
  | vloop (p : Bool) (imm : BitVec 16) (a : Fld) | vloopw (p : Bool) (imm : BitVec 16) (a : Fld)
  -- majors 0x1C to 0x22
  | vadd (pg : BitVec 2) (k : Bool) (d a b : Fld) | vsub (pg : BitVec 2) (k : Bool) (d a b : Fld)
  | vrsub (pg : BitVec 2) (k : Bool) (d a b : Fld) | vmul (pg : BitVec 2) (k : Bool) (d a b : Fld)
  | vmin (pg : BitVec 2) (k : Bool) (d a b : Fld) | vmax (pg : BitVec 2) (k : Bool) (d a b : Fld)
  | vmulh (pg : BitVec 2) (k : Bool) (d a b : Fld) | vdiv (pg : BitVec 2) (k : Bool) (d a b : Fld)
  | vand (pg : BitVec 2) (k : Bool) (d a b : Fld) | vor (pg : BitVec 2) (k : Bool) (d a b : Fld)
  | vxor (pg : BitVec 2) (k : Bool) (d a b : Fld) | vshl (pg : BitVec 2) (k : Bool) (d a b : Fld)
  | vshr (pg : BitVec 2) (k : Bool) (d a b : Fld) | vsar (pg : BitVec 2) (k : Bool) (d a b : Fld)
  | vmacc (pg : BitVec 2) (k : Bool) (d a b : Fld) | vnmsac (pg : BitVec 2) (k : Bool) (d a b : Fld)
  | vwmacc (pg : BitVec 2) (k : Bool) (d a b : Fld) | vwadd (pg : BitVec 2) (k : Bool) (d a b : Fld)
  | vwmul (pg : BitVec 2) (k : Bool) (d a b : Fld) | vnclip (pg : BitVec 2) (k : Bool) (d a b : Fld)
  | vcmpeq (pg : BitVec 2) (k : Bool) (d a b : Fld) | vcmpne (pg : BitVec 2) (k : Bool) (d a b : Fld)
  | vcmplt (pg : BitVec 2) (k : Bool) (d a b : Fld) | vcmple (pg : BitVec 2) (k : Bool) (d a b : Fld)
  | vmerge (pg : BitVec 2) (k : Bool) (d a b : Fld)
  | vmvV (pg : BitVec 2) (d a : Fld) | vmvVx (pg : BitVec 2) (d b : Fld) | vmvXv (d a : Fld)
  | vsadd (pg : BitVec 2) (k : Bool) (d a b : Fld) | vssub (pg : BitVec 2) (k : Bool) (d a b : Fld)
  -- majors 0x23 to 0x26
  | vsqrt (pg : BitVec 2) (d a : Fld) | vrsqrte (pg : BitVec 2) (d a : Fld) | vrece (pg : BitVec 2) (d a : Fld)
  | vexp2e (pg : BitVec 2) (d a : Fld)
  | vredsum (pg : BitVec 2) (k : Bool) (d a b : Fld) | vredmax (pg : BitVec 2) (k : Bool) (d a b : Fld)
  | vredmin (pg : BitVec 2) (k : Bool) (d a b : Fld) | vdot (pg : BitVec 2) (d a b : Fld)
  | vxchg (pg : BitVec 2) (d a b : Fld) | vslup (pg : BitVec 2) (d a b : Fld) | vsldn (pg : BitVec 2) (d a b : Fld)
  | vperm (pg : BitVec 2) (d a b : Fld)
  | vcvt (pg : BitVec 2) (t : CvtTarget) (d a : Fld) | vbscale (pg : BitVec 2) (k : Bool) (d a b : Fld)
  | vrot (pg : BitVec 2) (d a : Fld) | vid (pg : BitVec 2) (k : Bool) (d b : Fld)
  -- majors 0x27 to 0x29
  | pand (pg : BitVec 2) (d a b : Fld) | por (pg : BitVec 2) (d a b : Fld) | pxor (pg : BitVec 2) (d a b : Fld)
  | pandn (pg : BitVec 2) (d a b : Fld)
  | psbf (pg : BitVec 2) (d a : Fld) | psif (pg : BitVec 2) (d a : Fld) | pcnt (pg : BitVec 2) (d a : Fld)
  | pfirst (pg : BitVec 2) (d a : Fld)
  | vcompress (d a b : Fld) | vcidx (d a b : Fld) | vtop (pg : BitVec 2) (d a b : Fld) | pexp (d a b : Fld)
  -- majors 0x2A to 0x2C; `nf` is nf - 1
  | vld (pg : BitVec 2) (d a : Fld) | vldS (pg : BitVec 2) (d a b : Fld) | vldFf (pg : BitVec 2) (d a b : Fld)
  | vldNc (pg : BitVec 2) (d a : Fld) | vldSeg (pg : BitVec 2) (nf : BitVec 3) (d a : Fld)
  | vldFe (pg : BitVec 2) (d a : Fld) | vldFec (pg : BitVec 2) (d a : Fld)
  | vst (pg : BitVec 2) (d a : Fld) | vstS (pg : BitVec 2) (d a b : Fld) | vstNtf (pg : BitVec 2) (d a b : Fld)
  | vstNc (pg : BitVec 2) (d a : Fld) | vstSeg (pg : BitVec 2) (nf : BitVec 3) (d a : Fld)
  | vstFe (pg : BitVec 2) (d a : Fld) | vstMd (pg : BitVec 2) (tv : Bool) (d a : Fld)
  | vldSc (pg : BitVec 2) (d a : Fld) | vstSc (pg : BitVec 2) (d a : Fld) | vldAcq (pg : BitVec 2) (d a : Fld)
  | vstRel (pg : BitVec 2) (d a : Fld)
  -- majors 0x2D to 0x30
  | planMk (pg : BitVec 2) (d a b : Fld) | planMkm (pg : BitVec 2) (d a b : Fld) | planInv (d a : Fld)
  | planCmp (d a b : Fld)
  | pga (pg : BitVec 2) (d a b : Fld) | psc (pg : BitVec 2) (d a b : Fld) | pscAdd (pg : BitVec 2) (d a b : Fld)
  | pscMax (pg : BitVec 2) (d a b : Fld)
  | planLd (d a : Fld) | planSt (d a : Fld) | planRel (d : Fld) | planQ (d a b : Fld)
  | tidLd (d a : Fld) | tidSt (d a : Fld) | tidSet (d a b : Fld) | tidQ (d a b : Fld)
  -- majors 0x31 to 0x33; `pg` is a mask triple
  | mxa (pg : BitVec 2) (d a b : Fld) | mxs (pg : BitVec 2) (d a b : Fld) | mxw (pg : BitVec 2) (d a b : Fld)
  | mclr (pg : BitVec 2) (d : Fld)
  | mma (pg : BitVec 2) (d a b : Fld) | mmaG (pg : BitVec 2) (d a b : Fld) | mmav (pg : BitVec 2) (d a b : Fld)
  | mst (pg : BitVec 2) (d b : Fld) | mld (pg : BitVec 2) (d b : Fld) | mrd (pg : BitVec 2) (d a b : Fld)
  | mwr (pg : BitVec 2) (d a b : Fld)
  -- majors 0x34 to 0x37; `sc` of the waits is the raw D field, `id` of gbar the raw A field
  | spawn (d a b : Fld) | gbar (id : Fld) | tend | tyield
  | copy (d a : Fld) | copyp (d a : Fld) | coll (d a b : Fld) | gate (d a b : Fld)
  | cinc (d a b : Fld) | cwait (sc a b : Fld) | cset (d a b : Fld) | cread (d a : Fld) | pwait (sc a b : Fld)
  | dcDiscard (d a b : Fld) | dcFlush (a b : Fld) | dcInval (a b : Fld) | thint (cls : Rcl) (a b : Fld)
  | feSet (a b : Fld) | feClr (a b : Fld)
  -- a fetched word that is no instruction (R56)
  | illegalWord (w : BitVec 32)
  -- host actions: queue pages (R315 to R317)
  | launch (q : Nat) (whole : Bool) (rec : BitVec 512) | enSet (q : Nat) | enClear (q : Nat) | preempt (q : Nat)
  | registerWrite (page : HostPage) (off : Nat) (val : Word)
  -- commands of the die control page (R385)
  | boot (die : Nat) (c : Cmd) | fmode (die : Nat) (c : Cmd) | pool (die : Nat) (c : Cmd) | dplist (die : Nat) (c : Cmd)
  | pmset (die : Nat) (c : Cmd) | inval (die : Nat) (c : Cmd) | fence (die : Nat) (c : Cmd) | reset (die : Nat) (c : Cmd)
  | keyreg (die : Nat) (c : Cmd) | load (die : Nat) (c : Cmd) | ckpt (die : Nat) (c : Cmd) | restore (die : Nat) (c : Cmd)
  | quote (die : Nat) (c : Cmd)
  -- other host writes (R370, R384, R395), CXL.mem (R380)
  | evtailWrite (die : Nat) (val : Word) | resume (die q seq : Nat) | kill (die q seq : Nat) | cancel (die q seq : Nat)
  | place (die slot cluster mask : Nat) | postread (die : Nat) (val : Word)
  | postRingConfig (die : Nat) (base : Bool) (val : Word) | hdone (die step stepNo tiles : Nat)
  | cxlMemWrite (pa : Nat) (bytes : List Byte) | cxlMemRead (pa n : Nat)
  -- the board and the links (R387, R393, R397)
  | powerRail (die : Nat) (rail : Rail) (up : Bool) | cdResetN (die : Nat) (released : Bool)
  | flitReceive (port : Nat) (flit : BitVec 2048) | thermalThrottle (die : Nat) (on : Bool) | thermalTrip (die : Nat)
  | uncorrectableError (e : HwError)
  -- events inside the device
  | watchdog (gang : Nat) | aging (die : Nat) | lend (die : Nat) | pageModeEpoch (die : Nat) | roundAutoClose (core : Nat)
  | dispatch (die : Nat) | nodeRecordRead (die : Nat) | descriptorBlockLoad (gang : Nat) | gangHalt (gang : Nat)
  | gangSave (gang : Nat) | contextRestore (gang : Nat) | gangRetirement (gang : Nat) | taskCompletion (die slot : Nat)
  | graphCompletion (graph : Nat) | overflowReturn (q : Nat) | engineCompletion (die eng : Nat)
  | engineFault (die eng : Nat) | gateRecordTake (die step : Nat) | reservationRequest (die : Nat)
  | closingCount (die src : Nat) | capacityGrant (die step : Nat) | recordPost (q : Nat) | loStoreArrival (i : Nat)
  | writeBackArrival (core line : Nat) | releaseQuery (core round unit : Nat) | releaseCompletion (core round : Nat)
  | pageWalk (die q va : Nat) (acc : Acc) | waitWake (core slot : Nat) | checkpointCopy
  | debugHaltStep (die core slot : Nat) (op : DebugOp)
deriving DecidableEq, Repr

end Sys2Proof
end

