-- ==== Sys2Proof/Config.lean ====
section
/-! DEFINITION. What one implementation fixes and the values the spec leaves open.  An `opaque` constant here has no
body: nothing can be proved of its value, so a statement holds whatever it is. -/

namespace Sys2Proof.Config

/-- Cycles of the clock of a die that the step numbered `n` takes: the spec gives bounds on some events and no cycle count
of a step (R4, R14, R19; assumption 4, DESIGN CHOICE). -/
opaque stepCycles : Nat → Nat → Nat

/-- The schedule of the vector half of a new VLC, by a counter (R19, R31, R44, R148; assumption 8, DESIGN CHOICE). -/
opaque schedule : Nat → List (Nat × Nat × Nat)

/-- The line that a full set of an L1 evicts (R193; assumption 10, DESIGN CHOICE), and the victims of the L1 TLBs, of the
last-level TLB and of the walk cache (R213; assumption 53, DESIGN CHOICE), by a counter. -/
opaque l1Victim : Nat → Nat
opaque tlbVictim : Nat → Nat
opaque lastTlbVictim : Nat → Nat
opaque walkVictim : Nat → Nat

/-- Which update of an SO line in transit arrives at a step (R284; assumption 57, DEDUCED). -/
opaque snoopDelivered : Nat → Nat

/-- Whether a halt that is delivered in the cycle of a fault comes before it (R32; assumption 34, DESIGN CHOICE). -/
opaque haltWins : Nat → Bool

/-- Single-bit corrections of a die, and of them those in resources of a queue, by a counter (R199, R355, R356; assumption 58, DESIGN CHOICE). -/
opaque corrections : Nat → Nat → Nat
opaque queueCorrections : Nat → Nat → Nat → Nat

/-- SHA-256 of a byte string (R389, R398): named by the spec, not given by it (assumption 6, DESIGN CHOICE). -/
opaque sha256 : List Byte → List Byte

/-- HSS signature verification of RFC 8554 (R389): message, signature, public key (assumption 6, DESIGN CHOICE). -/
opaque hssVerify : List Byte → List Byte → List Byte → Bool

/-- LMS signature verification of RFC 8554 (R398): message, signature, public key (assumption 6, DESIGN CHOICE). -/
opaque lmsVerify : List Byte → List Byte → List Byte → Bool

/-- The LMS signature by the identity key at a leaf index, and the per-boot HSS public key and signature at a
signature index (R390, R391; assumption 6, DESIGN CHOICE). -/
opaque identitySign : Nat → List Byte → List Byte
opaque bootKey : Nat → List Byte
opaque bootSign : Nat → Nat → List Byte → List Byte

/-- The root hash and the identity public key fused in a die (R389, R391; assumption 6, DESIGN CHOICE). -/
opaque fusedRootHash : List Byte
opaque identityKey : List Byte

/-- The HSS public key that the signature of a firmware image names (R389; assumption 6, DESIGN CHOICE). -/
opaque hssSigningKey : List Byte → List Byte

/-- The native text that the translator writes for the Druros code of a section (R399, R400): the spec gives its
effect and not its words (assumption 7, DESIGN CHOICE). -/
opaque druros : List Byte → List Byte

/-- The value of a symbol of a Druros section for the word at a place, for a branch, a jump or a loop its distance in bytes from that word
(R400): the spec gives no symbol table (assumption 7, DESIGN CHOICE). -/
opaque symbolValue : List Byte → Nat → Nat → Int

/-- The bytes that symbol references change, by their places in the text region, for a text and the parts behind it (R399): the spec
gives no symbol table (assumption 7, DESIGN CHOICE). -/
opaque symbolBytes : List Byte → List (List Byte) → List (Nat × Byte)

/-- Whether a signed field of a firmware image asks for its version to become the fused minimum (R389: the spec names no such field;
assumption 40, DESIGN CHOICE). -/
opaque raisesMinimum : List Byte → Bool

/-- Whether a failing slice could not read a dirty sector, by a counter and the sector (R375; assumption 41, DESIGN CHOICE). -/
opaque unreadable : Nat → Nat → Bool

/-- Which tests fail at bring-up, by a counter and the step of R387; a core's or a coupling's test, by a counter and the
unit; the die that each seam port of a die leads to, and the stacks that a die reports, in step 9 (R387, R388; assumption 21, DESIGN
CHOICE). -/
opaque bringUpFails : Nat → Nat → Bool
opaque coreTestFails : Nat → Nat → Bool
opaque couplingTrains : Nat → Nat → Bool
opaque meshPort : Nat → Nat → Nat
opaque stackCount : Nat → Nat → Nat

/-- The 64 bytes that a kept vector-queue entry takes in a context record: R373 lists what they hold and gives no
layout (assumption 16, DESIGN CHOICE).  The arguments are the entry's word, three register numbers, strip number, and captured values. -/
opaque keptEntryImage : List Nat → List Byte

/-- Whether a racing `dc.discard` keeps a byte's value, by a counter (R245; assumption 13, DESIGN CHOICE). -/
opaque discardKeeps : Nat → Bool

/-- Lines or granules after which the halt of its gang stops a range instruction (R248; assumption 8, DESIGN CHOICE). -/
opaque rangeCut : Nat → Nat

/-- Temperature and power readings of a die (R383), by a counter (assumption 22, DESIGN CHOICE). -/
opaque sensor : Nat → BitVec 16

/-- A firmware register of a VLC of a firmware queue, by its number and a counter (R57, R100: the spec names the range
and no register in it; assumption 20, DESIGN CHOICE). -/
opaque firmwareRegister : Nat → Nat → BitVec 64

/-- Whether a queue is a firmware queue (R116; assumption 20, DESIGN CHOICE). -/
opaque firmwareQueue : Nat → Bool

/-- IW in the header of a composed plan, by IW of its sources: the spec gives none (R308; assumption 18, DESIGN CHOICE). -/
opaque composedIw : Nat → Nat → Nat

end Sys2Proof.Config
end

