-- ==== Sys2Proof/WellFormed.lean ====
section
/-! DEFINITION. Which instructions are well formed: the values of operands that an instruction word can hold and that
R50, R53, R138 and R146 of spec/ accept.  A device event has no word (`Instr.hasWord`). -/

namespace Sys2Proof

/-- The legal targets of `vcvt`: B[3:0] of a floating-point target is 2 to 9 (R138). -/
def CvtTarget.wf : CvtTarget → Bool
  | .fp .i _ => false
  | .fp .n _ => false
  | _ => true

/-- The number of HANDLER: a ctl write of it is the constructor `handlerReturn` (R100, R366). -/
def ctlHandler : BitVec 10 := 0x058

/-- The checks that the syntax leaves to a predicate. -/
def Instr.wf : Instr → Bool
  | .ctlWr _ _ ctl | .ctlSet _ _ ctl | .ctlClr _ _ ctl => ctl != ctlHandler
  | .vloop _ imm _ | .vloopw _ imm _ => imm != 0
  | .vcvt _ t _ _ => t.wf
  | .vid _ k _ b => k || b == 0
  | _ => true

end Sys2Proof
end

