-- ==== Sys2Proof/Decode.lean ====
section
/-! DEFINITION. The decoder and the encoder of the 32-bit instruction words (spec/02_encoding.md R47 to R56).
Every word decodes to an instruction or is refused by name; a refused word raises ILLEGAL (R56). -/

namespace Sys2Proof

/-- Why a word is no instruction (R56). -/
inductive DecodeErr where
  /-- Major 0x00, 0x3F, or 0x39 to 0x3E. -/
  | major
  /-- A minor selector value that R54 does not name. -/
  | minor
  /-- A field of R50, R138 or R146 with a value that is not listed. -/
  | value
  /-- A reserved bit or an unused field that is not zero (R53). -/
  | unused
deriving DecidableEq, Repr

/-- The word cut at the bit positions that every format shares: [31:26], [25:21], [20:14], [13:7], [6:0]. -/
structure Parts where
  op : BitVec 6
  f : BitVec 5
  b : Fld
  a : Fld
  d : Fld
deriving DecidableEq, Repr

def Parts.pack (p : Parts) : BitVec 32 := p.op ++ p.f ++ p.b ++ p.a ++ p.d

def Parts.unpack (w : BitVec 32) : Parts :=
  ⟨w.extractLsb' 26 6, w.extractLsb' 21 5, w.extractLsb' 14 7, w.extractLsb' 7 7, w.extractLsb' 0 7⟩

/-- Refuse unless the unused field is zero. -/
def zero7 (x : Fld) (r : Except DecodeErr Instr) : Except DecodeErr Instr :=
  if x = 0 then r else .error .unused

def scopeOf : Nat → Option Scope
  | 0 => some .ctx | 1 => some .gang | 2 => some .cluster | 3 => some .die | 4 => some .dev | 5 => some .sys
  | _ => none

def scopeCode : Scope → Nat
  | .ctx => 0 | .gang => 1 | .cluster => 2 | .die => 3 | .dev => 4 | .sys => 5

def qwidthOf : Nat → QWidth
  | 0 => .w8 | 1 => .w16 | 2 => .w32 | _ => .w64

def qwidthCode : QWidth → Nat
  | .w8 => 0 | .w16 => 1 | .w32 => 2 | .w64 => 3

def ewOf : Nat → Option Ew
  | 0 => some .e2 | 1 => some .e4 | 2 => some .e8 | 3 => some .e16 | 4 => some .e32 | 5 => some .e64
  | _ => none

def ewCode : Ew → Nat
  | .e2 => 0 | .e4 => 1 | .e8 => 2 | .e16 => 3 | .e32 => 4 | .e64 => 5

def clsOf : Nat → Option Cls
  | 0 => some .i | 1 => some .n | 2 => some .fp32 | 3 => some .bf16 | 4 => some .fp16 | 5 => some .e4m3
  | 6 => some .e5m2 | 7 => some .e3m2 | 8 => some .e2m3 | 9 => some .e2m1 | _ => none

def clsCode : Cls → Nat
  | .i => 0 | .n => 1 | .fp32 => 2 | .bf16 => 3 | .fp16 => 4 | .e4m3 => 5 | .e5m2 => 6 | .e3m2 => 7 | .e2m3 => 8
  | .e2m1 => 9

/-- The B field of `vcvt` (R138). -/
def cvtOf (b : Fld) : Option CvtTarget :=
  let n := b.toNat
  let sat := bitOf n 6
  if bitOf n 5 then
    if bitOf n 3 then none else (ewOf (n % 8)).map fun e => .int (bitOf n 4) e sat
  else if bitOf n 4 then none
  else if n % 16 < 2 then none
  else (clsOf (n % 16)).map fun c => .fp c sat

def cvtCode : CvtTarget → Fld
  | .fp c sat => BitVec.ofNat 7 (clsCode c + 64 * sat.toNat)
  | .int u e sat => BitVec.ofNat 7 (ewCode e + 16 * u.toNat + 32 + 64 * sat.toNat)

/-- Major 0x01, scalar R format (R94). -/
def decodeScalarR (f : BitVec 5) (b a d : Fld) : Except DecodeErr Instr :=
  match f.toNat with
  | 0 => .ok (.add d a b) | 1 => .ok (.sub d a b) | 2 => .ok (.and d a b) | 3 => .ok (.or d a b)
  | 4 => .ok (.xor d a b) | 5 => .ok (.shl d a b) | 6 => .ok (.shr d a b) | 7 => .ok (.sar d a b)
  | 8 => .ok (.cmplt d a b) | 9 => .ok (.cmpltn d a b) | 10 => .ok (.mul d a b) | 11 => .ok (.mulh d a b)
  | 12 => .ok (.mulhn d a b) | 13 => .ok (.div d a b) | 14 => .ok (.divn d a b) | 15 => .ok (.rem d a b)
  | 16 => .ok (.remn d a b) | 17 => .ok (.min d a b) | 18 => .ok (.max d a b) | 19 => .ok (.minn d a b)
  | 20 => .ok (.maxn d a b)
  | 21 => zero7 b (.ok (.clz d a)) | 22 => zero7 b (.ok (.ctz d a)) | 23 => zero7 b (.ok (.popc d a))
  | _ => .error .minor

/-- Major 0x06: the shift immediates (R95). -/
def decodeShiftImm (f : BitVec 5) (b a d : Fld) : Except DecodeErr Instr :=
  if (f ++ b).extractLsb' 6 4 = (0 : BitVec 4) then
    match f.toNat / 8 with
    | 0 => .ok (.shli d a (b.extractLsb' 0 6))
    | 1 => .ok (.shri d a (b.extractLsb' 0 6))
    | 2 => .ok (.sari d a (b.extractLsb' 0 6))
    | _ => .error .minor
  else .error .unused

/-- Major 0x12, L format (R223). -/
def decodeLoad (f : BitVec 5) (b a d : Fld) : Except DecodeErr Instr :=
  let imm : BitVec 9 := f.extractLsb' 0 2 ++ b
  match f.toNat / 4 with
  | 0 => .ok (.ldI8 d a imm) | 1 => .ok (.ldN8 d a imm) | 2 => .ok (.ldI16 d a imm) | 3 => .ok (.ldN16 d a imm)
  | 4 => .ok (.ldI32 d a imm) | 5 => .ok (.ldN32 d a imm) | 6 => .ok (.ld64 d a imm)
  | _ => .error .value

/-- Major 0x13, S format (R223). -/
def decodeStore (f : BitVec 5) (b a d : Fld) : Except DecodeErr Instr :=
  let imm : BitVec 10 := f.extractLsb' 0 3 ++ d
  match f.toNat / 8 with
  | 0 => .ok (.st8 b a imm) | 1 => .ok (.st16 b a imm) | 2 => .ok (.st32 b a imm) | _ => .ok (.st64 b a imm)

/-- Major 0x14: scalar atomics (R241). -/
def decodeAmo (f : BitVec 5) (b a d : Fld) : Except DecodeErr Instr :=
  let w := bitOf f.toNat 4
  match f.toNat % 16 with
  | 0 => .ok (.amoAdd w d a b) | 1 => .ok (.amoAnd w d a b) | 2 => .ok (.amoOr w d a b) | 3 => .ok (.amoXor w d a b)
  | 4 => .ok (.amoMin w d a b) | 5 => .ok (.amoMax w d a b) | 6 => .ok (.amoMinn w d a b)
  | 7 => .ok (.amoMaxn w d a b) | 8 => .ok (.amoSwap w d a b) | 9 => .ok (.amoCas w d a b)
  | 10 => if w then .ok (.amoFadd d a b) else .error .minor
  | 11 => if w then .ok (.amoFmax d a b) else .error .minor
  | 12 => if w then .ok (.amoFmin d a b) else .error .minor
  | _ => .error .minor

/-- Major 0x15, Q format (R49, R225). -/
def decodeQ (f : BitVec 5) (b a d : Fld) : Except DecodeErr Instr :=
  match scopeOf (f.toNat / 2 % 8) with
  | none => .error .value
  | some sc =>
    let w := qwidthOf (f.toNat % 2 * 2 + b.toNat / 64)
    let imm : BitVec 6 := b.extractLsb' 0 6
    if bitOf f.toNat 4 then .ok (.stRel sc w d a imm) else .ok (.ldAcq sc w d a imm)

/-- Major 0x16, F format (R256). -/
def decodeFence (f : BitVec 5) (b a d : Fld) : Except DecodeErr Instr :=
  if b.toNat % 16 = 0 ∧ a = 0 ∧ d = 0 then
    match f.toNat, scopeOf (b.toNat / 16) with
    | 0, some sc => .ok (.fenceAcq sc)
    | 1, some sc => .ok (.fenceRel sc)
    | 2, some sc => .ok (.fenceFull sc)
    | 3, some .ctx => .ok .fenceSv
    | 4, some .ctx => .ok .fenceVs
    | _, _ => .error .value
  else .error .unused

/-- Major 0x17, C format (R111); a write of HANDLER is `handlerReturn`. -/
def decodeCtl (f : BitVec 5) (b a d : Fld) : Except DecodeErr Instr :=
  let ctl : BitVec 10 := f.extractLsb' 0 3 ++ b
  match f.toNat / 8 with
  | 0 => zero7 a (.ok (.ctlRd d ctl))
  | 1 => .ok (if ctl = ctlHandler then .handlerReturn .wr d a else .ctlWr d a ctl)
  | 2 => .ok (if ctl = ctlHandler then .handlerReturn .set d a else .ctlSet d a ctl)
  | _ => .ok (if ctl = ctlHandler then .handlerReturn .clr d a else .ctlClr d a ctl)

/-- Major 0x18: system instructions (R115). -/
def decodeSystem (f : BitVec 5) (b a d : Fld) : Except DecodeErr Instr :=
  match f.toNat with
  | 0 => zero7 b (zero7 d (.ok (.trap a)))
  | 1 => zero7 b (zero7 a (zero7 d (.ok .ebreak)))
  | 2 => zero7 b (.ok (.featq d a))
  | 3 => zero7 d (.ok (.wbase a b))
  | 4 => zero7 b (zero7 a (zero7 d (.ok .heartbeat)))
  | 5 => zero7 b (zero7 a (zero7 d (.ok .yield)))
  | 6 => zero7 b (zero7 a (zero7 d (.ok .vexit)))
  | 7 => zero7 b (zero7 a (zero7 d (.ok .eret)))
  | 8 => zero7 b (zero7 a (.ok (.cyc d)))
  | 9 => zero7 b (zero7 a (.ok (.ctxid d)))
  | _ => .error .minor

/-- Major 0x1A (R121, R158). -/
def decodeConfig (f : BitVec 5) (b a d : Fld) : Except DecodeErr Instr :=
  match f.toNat with
  | 0 => .ok (.vcfg d a b)
  | 1 => zero7 b (.ok (.mmode d a))
  | 2 => zero7 b (zero7 a (zero7 d (.ok .mexit)))
  | 3 => zero7 b (.ok (.tshape d a))
  | _ => .error .minor

/-- Major 0x1B, P format (R49, R146). -/
def decodeLoop (f : BitVec 5) (b a d : Fld) : Except DecodeErr Instr :=
  let imm : BitVec 16 := f.extractLsb' 0 2 ++ b ++ a
  let p := bitOf f.toNat 4
  if imm = 0 then .error .value
  else match f.toNat / 4 % 4 with
  | 0 => .ok (.vloop p imm d)
  | 1 => .ok (.vloopw p imm d)
  | _ => .error .value

/-- Majors 0x1C to 0x22, whose B is a vector or a scalar register by K (R55, R130 to R133). -/
def decodeVArith (op : Nat) (fn : Nat) (pg : BitVec 2) (k : Bool) (b a d : Fld) : Except DecodeErr Instr :=
  match op, fn with
  | 0x1C, 0 => .ok (.vadd pg k d a b) | 0x1C, 1 => .ok (.vsub pg k d a b) | 0x1C, 2 => .ok (.vrsub pg k d a b)
  | 0x1C, 3 => .ok (.vmul pg k d a b)
  | 0x1D, 0 => .ok (.vmin pg k d a b) | 0x1D, 1 => .ok (.vmax pg k d a b) | 0x1D, 2 => .ok (.vmulh pg k d a b)
  | 0x1D, 3 => .ok (.vdiv pg k d a b)
  | 0x1E, 0 => .ok (.vand pg k d a b) | 0x1E, 1 => .ok (.vor pg k d a b) | 0x1E, 2 => .ok (.vxor pg k d a b)
  | 0x1E, 3 => .ok (.vshl pg k d a b)
  | 0x1F, 0 => .ok (.vshr pg k d a b) | 0x1F, 1 => .ok (.vsar pg k d a b) | 0x1F, 2 => .ok (.vmacc pg k d a b)
  | 0x1F, 3 => .ok (.vnmsac pg k d a b)
  | 0x20, 0 => .ok (.vwmacc pg k d a b) | 0x20, 1 => .ok (.vwadd pg k d a b) | 0x20, 2 => .ok (.vwmul pg k d a b)
  | 0x20, 3 => .ok (.vnclip pg k d a b)
  | 0x21, 0 => .ok (.vcmpeq pg k d a b) | 0x21, 1 => .ok (.vcmpne pg k d a b) | 0x21, 2 => .ok (.vcmplt pg k d a b)
  | 0x21, 3 => .ok (.vcmple pg k d a b)
  | 0x22, 0 => .ok (.vmerge pg k d a b)
  | 0x22, 1 =>
    if k then zero7 a (.ok (.vmvVx pg d b))
    else if b = 0 then .ok (.vmvV pg d a)
    else if b = 1 ∧ pg = 0 then .ok (.vmvXv d a) else .error .value
  | 0x22, 2 => .ok (.vsadd pg k d a b) | 0x22, 3 => .ok (.vssub pg k d a b)
  | _, _ => .error .minor

/-- Majors 0x23 to 0x26 (R134 to R142). -/
def decodeVMisc (op : Nat) (fn : Nat) (pg : BitVec 2) (k : Bool) (b a d : Fld) : Except DecodeErr Instr :=
  let vv (r : Instr) : Except DecodeErr Instr := if k then .error .value else .ok r
  let vx (r : Instr) : Except DecodeErr Instr := if k then .ok r else .error .value
  match op, fn with
  | 0x23, 0 => zero7 b (vv (.vsqrt pg d a)) | 0x23, 1 => zero7 b (vv (.vrsqrte pg d a))
  | 0x23, 2 => zero7 b (vv (.vrece pg d a)) | 0x23, 3 => zero7 b (vv (.vexp2e pg d a))
  | 0x24, 0 => .ok (.vredsum pg k d a b) | 0x24, 1 => .ok (.vredmax pg k d a b) | 0x24, 2 => .ok (.vredmin pg k d a b)
  | 0x24, 3 => vv (.vdot pg d a b)
  | 0x25, 0 => vx (.vxchg pg d a b) | 0x25, 1 => vx (.vslup pg d a b) | 0x25, 2 => vx (.vsldn pg d a b)
  | 0x25, 3 => vv (.vperm pg d a b)
  | 0x26, 0 =>
    match cvtOf b with
    | some t => vv (.vcvt pg t d a)
    | none => .error .value
  | 0x26, 1 => .ok (.vbscale pg k d a b)
  | 0x26, 2 => zero7 b (vv (.vrot pg d a))
  | 0x26, 3 => zero7 a (if k then .ok (.vid pg true d b) else zero7 b (.ok (.vid pg false d 0)))
  | _, _ => .error .minor

/-- Majors 0x27 to 0x29 and 0x2D to 0x33, where K is 0 (R54, R143 to R145, R293, R306, R158). -/
def decodeVZero (op : Nat) (fn : Nat) (pg : BitVec 2) (b a d : Fld) : Except DecodeErr Instr :=
  let g0 (r : Except DecodeErr Instr) : Except DecodeErr Instr := if pg = 0 then r else .error .unused
  match op, fn with
  | 0x27, 0 => .ok (.pand pg d a b) | 0x27, 1 => .ok (.por pg d a b) | 0x27, 2 => .ok (.pxor pg d a b)
  | 0x27, 3 => .ok (.pandn pg d a b)
  | 0x28, 0 => zero7 b (.ok (.psbf pg d a)) | 0x28, 1 => zero7 b (.ok (.psif pg d a))
  | 0x28, 2 => zero7 b (.ok (.pcnt pg d a)) | 0x28, 3 => zero7 b (.ok (.pfirst pg d a))
  | 0x29, 0 => g0 (.ok (.vcompress d a b)) | 0x29, 1 => g0 (.ok (.vcidx d a b)) | 0x29, 2 => .ok (.vtop pg d a b)
  | 0x29, 3 => g0 (.ok (.pexp d a b))
  | 0x2D, 0 => .ok (.planMk pg d a b) | 0x2D, 1 => .ok (.planMkm pg d a b) | 0x2D, 2 => g0 (zero7 b (.ok (.planInv d a)))
  | 0x2D, 3 => g0 (.ok (.planCmp d a b))
  | 0x2E, 0 => .ok (.pga pg d a b) | 0x2E, 1 => .ok (.psc pg d a b) | 0x2E, 2 => .ok (.pscAdd pg d a b)
  | 0x2E, 3 => .ok (.pscMax pg d a b)
  | 0x2F, 0 => g0 (zero7 b (.ok (.planLd d a))) | 0x2F, 1 => g0 (zero7 b (.ok (.planSt d a)))
  | 0x2F, 2 => g0 (zero7 b (zero7 a (.ok (.planRel d)))) | 0x2F, 3 => g0 (.ok (.planQ d a b))
  | 0x30, 0 => g0 (zero7 b (.ok (.tidLd d a))) | 0x30, 1 => g0 (zero7 b (.ok (.tidSt d a)))
  | 0x30, 2 => g0 (.ok (.tidSet d a b)) | 0x30, 3 => g0 (.ok (.tidQ d a b))
  | 0x31, 0 => .ok (.mxa pg d a b) | 0x31, 1 => .ok (.mxs pg d a b) | 0x31, 2 => .ok (.mxw pg d a b)
  | 0x31, 3 => zero7 b (zero7 a (.ok (.mclr pg d)))
  | 0x32, 0 => .ok (.mma pg d a b) | 0x32, 1 => .ok (.mmaG pg d a b) | 0x32, 2 => .ok (.mmav pg d a b)
  | 0x33, 0 => zero7 a (.ok (.mst pg d b)) | 0x33, 1 => zero7 a (.ok (.mld pg d b)) | 0x33, 2 => .ok (.mrd pg d a b)
  | 0x33, 3 => .ok (.mwr pg d a b)
  | _, _ => .error .minor

/-- Majors 0x2A to 0x2C, vector memory format (R226, R238). -/
def decodeVMem (op : Nat) (m : Nat) (pg : BitVec 2) (b a d : Fld) : Except DecodeErr Instr :=
  let seg (r : Instr) : Except DecodeErr Instr := if b.toNat % 16 = 0 then .ok r else .error .unused
  match op, m with
  | 0x2A, 0 => zero7 b (.ok (.vld pg d a)) | 0x2A, 1 => .ok (.vldS pg d a b) | 0x2A, 2 => .ok (.vldFf pg d a b)
  | 0x2A, 3 => zero7 b (.ok (.vldNc pg d a)) | 0x2A, 4 => seg (.vldSeg pg (b.extractLsb' 4 3) d a)
  | 0x2A, 5 => zero7 b (.ok (.vldFe pg d a)) | 0x2A, 6 => zero7 b (.ok (.vldFec pg d a))
  | 0x2B, 0 => zero7 b (.ok (.vst pg d a)) | 0x2B, 1 => .ok (.vstS pg d a b) | 0x2B, 2 => .ok (.vstNtf pg d a b)
  | 0x2B, 3 => zero7 b (.ok (.vstNc pg d a)) | 0x2B, 4 => seg (.vstSeg pg (b.extractLsb' 4 3) d a)
  | 0x2B, 5 => zero7 b (.ok (.vstFe pg d a))
  | 0x2B, 6 => if b.toNat / 2 = 0 then .ok (.vstMd pg (bitOf b.toNat 0) d a) else .error .unused
  | 0x2C, 0 => zero7 b (.ok (.vldSc pg d a)) | 0x2C, 1 => zero7 b (.ok (.vstSc pg d a))
  | 0x2C, 2 => zero7 b (.ok (.vldAcq pg d a)) | 0x2C, 3 => zero7 b (.ok (.vstRel pg d a))
  | _, _ => .error .minor

/-- Majors 0x34 to 0x37 (R243, R327, R331, R344). -/
def decodeTask (op : Nat) (fn : Nat) (b a d : Fld) : Except DecodeErr Instr :=
  match op, fn with
  | 0x34, 0 => .ok (.spawn d a b) | 0x34, 1 => zero7 b (zero7 d (.ok (.gbar a)))
  | 0x34, 2 => zero7 b (zero7 a (zero7 d (.ok .tend))) | 0x34, 3 => zero7 b (zero7 a (zero7 d (.ok .tyield)))
  | 0x35, 0 => zero7 b (.ok (.copy d a)) | 0x35, 1 => zero7 b (.ok (.copyp d a)) | 0x35, 2 => .ok (.coll d a b)
  | 0x35, 3 => .ok (.gate d a b)
  | 0x36, 0 => .ok (.cinc d a b) | 0x36, 1 => .ok (.cwait d a b) | 0x36, 2 => .ok (.cset d a b)
  | 0x36, 3 => zero7 b (.ok (.cread d a)) | 0x36, 4 => .ok (.pwait d a b)
  | 0x37, 0 => .ok (.dcDiscard d a b) | 0x37, 1 => zero7 d (.ok (.dcFlush a b)) | 0x37, 2 => zero7 d (.ok (.dcInval a b))
  | 0x37, 3 =>
    match d.toNat with
    | 0 => .ok (.thint .stream a b) | 1 => .ok (.thint .normal a b) | 2 => .ok (.thint .keep a b)
    | _ => .error .value
  | 0x37, 4 => zero7 d (.ok (.feSet a b)) | 0x37, 5 => zero7 d (.ok (.feClr a b))
  | _, _ => .error .minor

/-- Major 0x38: `flimm` (R54, R97). -/
def decodeFlimm (f : BitVec 5) (b a d : Fld) : Except DecodeErr Instr :=
  if bitOf f.toNat 2 then .error .unused
  else
    let imm : BitVec 16 := f.extractLsb' 0 2 ++ b ++ a
    match f.toNat / 8 with
    | 0 => .ok (.flimm .fp16 d imm) | 1 => .ok (.flimm .bf16 d imm) | 2 => .ok (.flimm .i16 d imm)
    | _ => .error .minor

/-- The opcode map (R54). -/
def decodeParts (p : Parts) : Except DecodeErr Instr :=
  let op := p.op.toNat
  let pg : BitVec 2 := p.f.extractLsb' 3 2
  let k := bitOf p.f.toNat 2
  let fn := p.f.toNat % 4
  match op with
  | 0x01 => decodeScalarR p.f p.b p.a p.d
  | 0x02 => .ok (.addi p.d p.a (p.f ++ p.b))
  | 0x03 => .ok (.andi p.d p.a (p.f ++ p.b))
  | 0x04 => .ok (.ori p.d p.a (p.f ++ p.b))
  | 0x05 => .ok (.xori p.d p.a (p.f ++ p.b))
  | 0x06 => decodeShiftImm p.f p.b p.a p.d
  | 0x07 => .ok (.cmplti p.d p.a (p.f ++ p.b))
  | 0x08 => .ok (.lui p.d (p.f ++ p.b ++ p.a))
  | 0x09 => .ok (.auipc p.d (p.f ++ p.b ++ p.a))
  | 0x0A => .ok (.jal (p.f ++ p.b ++ p.a ++ p.d))
  | 0x0B => .ok (.jalr p.d p.a (p.f ++ p.b))
  | 0x0C => .ok (.beq p.a p.b (p.f ++ p.d))
  | 0x0D => .ok (.bne p.a p.b (p.f ++ p.d))
  | 0x0E => .ok (.blt p.a p.b (p.f ++ p.d))
  | 0x0F => .ok (.bge p.a p.b (p.f ++ p.d))
  | 0x10 => .ok (.bltn p.a p.b (p.f ++ p.d))
  | 0x11 => .ok (.bgen p.a p.b (p.f ++ p.d))
  | 0x12 => decodeLoad p.f p.b p.a p.d
  | 0x13 => decodeStore p.f p.b p.a p.d
  | 0x14 => decodeAmo p.f p.b p.a p.d
  | 0x15 => decodeQ p.f p.b p.a p.d
  | 0x16 => decodeFence p.f p.b p.a p.d
  | 0x17 => decodeCtl p.f p.b p.a p.d
  | 0x18 => decodeSystem p.f p.b p.a p.d
  | 0x19 => .ok (.vcfgi p.d p.a (p.f ++ p.b))
  | 0x1A => decodeConfig p.f p.b p.a p.d
  | 0x1B => decodeLoop p.f p.b p.a p.d
  | 0x1C | 0x1D | 0x1E | 0x1F | 0x20 | 0x21 | 0x22 => decodeVArith op fn pg k p.b p.a p.d
  | 0x23 | 0x24 | 0x25 | 0x26 => decodeVMisc op fn pg k p.b p.a p.d
  | 0x27 | 0x28 | 0x29 | 0x2D | 0x2E | 0x2F | 0x30 | 0x31 | 0x32 | 0x33 =>
    if k then .error .value else decodeVZero op fn pg p.b p.a p.d
  | 0x2A | 0x2B | 0x2C => decodeVMem op (p.f.toNat % 8) pg p.b p.a p.d
  | 0x34 | 0x35 | 0x36 | 0x37 => decodeTask op p.f.toNat p.b p.a p.d
  | 0x38 => decodeFlimm p.f p.b p.a p.d
  | _ => .error .major

/-- Decode one instruction word. -/
def decode (w : BitVec 32) : Except DecodeErr Instr := decodeParts (Parts.unpack w)

/-! ### The encoder, from the same tables -/

/-- Scalar R format. -/
def encR (op fn : Nat) (d a b : Fld) : Parts := ⟨BitVec.ofNat 6 op, BitVec.ofNat 5 fn, b, a, d⟩

/-- I format. -/
def encI (op : Nat) (d a : Fld) (imm : BitVec 12) : Parts :=
  ⟨BitVec.ofNat 6 op, imm.extractLsb' 7 5, imm.extractLsb' 0 7, a, d⟩

/-- Major 0x06. -/
def encSh (kind : Nat) (d a : Fld) (sh : BitVec 6) : Parts :=
  ⟨0x06, BitVec.ofNat 5 (8 * kind), (0 : BitVec 1) ++ sh, a, d⟩

/-- U layout. -/
def encU (op : Nat) (d : Fld) (imm : BitVec 19) : Parts :=
  ⟨BitVec.ofNat 6 op, imm.extractLsb' 14 5, imm.extractLsb' 7 7, imm.extractLsb' 0 7, d⟩

/-- Branch format. -/
def encB (op : Nat) (a b : Fld) (imm : BitVec 12) : Parts :=
  ⟨BitVec.ofNat 6 op, imm.extractLsb' 7 5, b, a, imm.extractLsb' 0 7⟩

/-- L format. -/
def encL (w : Nat) (d a : Fld) (imm : BitVec 9) : Parts :=
  ⟨0x12, BitVec.ofNat 3 w ++ imm.extractLsb' 7 2, imm.extractLsb' 0 7, a, d⟩

/-- S format. -/
def encS (w : Nat) (b a : Fld) (imm : BitVec 10) : Parts :=
  ⟨0x13, BitVec.ofNat 2 w ++ imm.extractLsb' 7 3, b, a, imm.extractLsb' 0 7⟩

/-- Q format. -/
def encQ (k : Bool) (sc : Scope) (w : QWidth) (x a : Fld) (imm : BitVec 6) : Parts :=
  ⟨0x15, BitVec.ofNat 5 (16 * k.toNat + 2 * scopeCode sc + qwidthCode w / 2), BitVec.ofNat 1 (qwidthCode w % 2) ++ imm, a, x⟩

/-- F format. -/
def encF (kind : Nat) (sc : Scope) : Parts := ⟨0x16, BitVec.ofNat 5 kind, BitVec.ofNat 7 (16 * scopeCode sc), 0, 0⟩

/-- C format. -/
def encC (fn : Nat) (d a : Fld) (ctl : BitVec 10) : Parts :=
  ⟨0x17, BitVec.ofNat 2 fn ++ ctl.extractLsb' 7 3, ctl.extractLsb' 0 7, a, d⟩

/-- P format. -/
def encP (f : Nat) (p : Bool) (imm : BitVec 16) (a : Fld) : Parts :=
  ⟨0x1B, BitVec.ofNat 3 (4 * p.toNat + f) ++ imm.extractLsb' 14 2, imm.extractLsb' 7 7, imm.extractLsb' 0 7, a⟩

/-- V format. -/
def encV (op fn : Nat) (pg : BitVec 2) (k : Bool) (d a b : Fld) : Parts :=
  ⟨BitVec.ofNat 6 op, pg ++ BitVec.ofNat 3 (4 * k.toNat + fn), b, a, d⟩

/-- Vector memory format. -/
def encM (op m : Nat) (pg : BitVec 2) (d a b : Fld) : Parts :=
  ⟨BitVec.ofNat 6 op, pg ++ BitVec.ofNat 3 m, b, a, d⟩

/-- U layout of `flimm`. -/
def encFl (kind : Nat) (d : Fld) (imm : BitVec 16) : Parts :=
  ⟨0x38, BitVec.ofNat 3 (2 * kind) ++ imm.extractLsb' 14 2, imm.extractLsb' 7 7, imm.extractLsb' 0 7, d⟩

def rclCode : Rcl → Fld
  | .stream => 0 | .normal => 1 | .keep => 2

def segCode (nf : BitVec 3) : Fld := nf ++ (0 : BitVec 4)

/-- The word of an instruction, cut in parts; `none` for a device event, which has no word. -/
def encodeParts : Instr → Option Parts
  | .add d a b => some (encR 0x01 0 d a b) | .sub d a b => some (encR 0x01 1 d a b)
  | .and d a b => some (encR 0x01 2 d a b) | .or d a b => some (encR 0x01 3 d a b)
  | .xor d a b => some (encR 0x01 4 d a b) | .shl d a b => some (encR 0x01 5 d a b)
  | .shr d a b => some (encR 0x01 6 d a b) | .sar d a b => some (encR 0x01 7 d a b)
  | .cmplt d a b => some (encR 0x01 8 d a b) | .cmpltn d a b => some (encR 0x01 9 d a b)
  | .mul d a b => some (encR 0x01 10 d a b) | .mulh d a b => some (encR 0x01 11 d a b)
  | .mulhn d a b => some (encR 0x01 12 d a b) | .div d a b => some (encR 0x01 13 d a b)
  | .divn d a b => some (encR 0x01 14 d a b) | .rem d a b => some (encR 0x01 15 d a b)
  | .remn d a b => some (encR 0x01 16 d a b) | .min d a b => some (encR 0x01 17 d a b)
  | .max d a b => some (encR 0x01 18 d a b) | .minn d a b => some (encR 0x01 19 d a b)
  | .maxn d a b => some (encR 0x01 20 d a b) | .clz d a => some (encR 0x01 21 d a 0)
  | .ctz d a => some (encR 0x01 22 d a 0) | .popc d a => some (encR 0x01 23 d a 0)
  | .addi d a i => some (encI 0x02 d a i) | .andi d a i => some (encI 0x03 d a i)
  | .ori d a i => some (encI 0x04 d a i) | .xori d a i => some (encI 0x05 d a i)
  | .shli d a s => some (encSh 0 d a s) | .shri d a s => some (encSh 1 d a s) | .sari d a s => some (encSh 2 d a s)
  | .cmplti d a i => some (encI 0x07 d a i)
  | .lui d i => some (encU 0x08 d i) | .auipc d i => some (encU 0x09 d i)
  | .flimm .fp16 d i => some (encFl 0 d i) | .flimm .bf16 d i => some (encFl 1 d i) | .flimm .i16 d i => some (encFl 2 d i)
  | .jal i => some ⟨0x0A, i.extractLsb' 21 5, i.extractLsb' 14 7, i.extractLsb' 7 7, i.extractLsb' 0 7⟩
  | .jalr d a i => some (encI 0x0B d a i)
  | .beq a b i => some (encB 0x0C a b i) | .bne a b i => some (encB 0x0D a b i) | .blt a b i => some (encB 0x0E a b i)
  | .bge a b i => some (encB 0x0F a b i) | .bltn a b i => some (encB 0x10 a b i) | .bgen a b i => some (encB 0x11 a b i)
  | .ldI8 d a i => some (encL 0 d a i) | .ldN8 d a i => some (encL 1 d a i) | .ldI16 d a i => some (encL 2 d a i)
  | .ldN16 d a i => some (encL 3 d a i) | .ldI32 d a i => some (encL 4 d a i) | .ldN32 d a i => some (encL 5 d a i)
  | .ld64 d a i => some (encL 6 d a i)
  | .st8 b a i => some (encS 0 b a i) | .st16 b a i => some (encS 1 b a i) | .st32 b a i => some (encS 2 b a i)
  | .st64 b a i => some (encS 3 b a i)
  | .amoAdd w d a b => some (encR 0x14 (16 * w.toNat + 0) d a b) | .amoAnd w d a b => some (encR 0x14 (16 * w.toNat + 1) d a b)
  | .amoOr w d a b => some (encR 0x14 (16 * w.toNat + 2) d a b) | .amoXor w d a b => some (encR 0x14 (16 * w.toNat + 3) d a b)
  | .amoMin w d a b => some (encR 0x14 (16 * w.toNat + 4) d a b) | .amoMax w d a b => some (encR 0x14 (16 * w.toNat + 5) d a b)
  | .amoMinn w d a b => some (encR 0x14 (16 * w.toNat + 6) d a b) | .amoMaxn w d a b => some (encR 0x14 (16 * w.toNat + 7) d a b)
  | .amoSwap w d a b => some (encR 0x14 (16 * w.toNat + 8) d a b) | .amoCas w d a b => some (encR 0x14 (16 * w.toNat + 9) d a b)
  | .amoFadd d a b => some (encR 0x14 26 d a b) | .amoFmax d a b => some (encR 0x14 27 d a b)
  | .amoFmin d a b => some (encR 0x14 28 d a b)
  | .ldAcq sc w x a i => some (encQ false sc w x a i) | .stRel sc w x a i => some (encQ true sc w x a i)
  | .fenceAcq sc => some (encF 0 sc) | .fenceRel sc => some (encF 1 sc) | .fenceFull sc => some (encF 2 sc)
  | .fenceSv => some (encF 3 .ctx) | .fenceVs => some (encF 4 .ctx)
  | .ctlRd d c => some (encC 0 d 0 c) | .ctlWr d a c => some (encC 1 d a c) | .ctlSet d a c => some (encC 2 d a c)
  | .ctlClr d a c => some (encC 3 d a c)
  | .handlerReturn .wr d a => some (encC 1 d a ctlHandler) | .handlerReturn .set d a => some (encC 2 d a ctlHandler)
  | .handlerReturn .clr d a => some (encC 3 d a ctlHandler)
  | .trap a => some (encR 0x18 0 0 a 0) | .ebreak => some (encR 0x18 1 0 0 0) | .featq d a => some (encR 0x18 2 d a 0)
  | .wbase s v => some (encR 0x18 3 0 s v) | .heartbeat => some (encR 0x18 4 0 0 0) | .yield => some (encR 0x18 5 0 0 0)
  | .vexit => some (encR 0x18 6 0 0 0) | .eret => some (encR 0x18 7 0 0 0) | .cyc d => some (encR 0x18 8 d 0 0)
  | .ctxid d => some (encR 0x18 9 d 0 0)
  | .vcfgi d a i => some (encI 0x19 d a i) | .vcfg d a b => some (encR 0x1A 0 d a b)
  | .mmode d a => some (encR 0x1A 1 d a 0) | .mexit => some (encR 0x1A 2 0 0 0) | .tshape d a => some (encR 0x1A 3 d a 0)
  | .vloop p i a => some (encP 0 p i a) | .vloopw p i a => some (encP 1 p i a)
  | .vadd pg k d a b => some (encV 0x1C 0 pg k d a b) | .vsub pg k d a b => some (encV 0x1C 1 pg k d a b)
  | .vrsub pg k d a b => some (encV 0x1C 2 pg k d a b) | .vmul pg k d a b => some (encV 0x1C 3 pg k d a b)
  | .vmin pg k d a b => some (encV 0x1D 0 pg k d a b) | .vmax pg k d a b => some (encV 0x1D 1 pg k d a b)
  | .vmulh pg k d a b => some (encV 0x1D 2 pg k d a b) | .vdiv pg k d a b => some (encV 0x1D 3 pg k d a b)
  | .vand pg k d a b => some (encV 0x1E 0 pg k d a b) | .vor pg k d a b => some (encV 0x1E 1 pg k d a b)
  | .vxor pg k d a b => some (encV 0x1E 2 pg k d a b) | .vshl pg k d a b => some (encV 0x1E 3 pg k d a b)
  | .vshr pg k d a b => some (encV 0x1F 0 pg k d a b) | .vsar pg k d a b => some (encV 0x1F 1 pg k d a b)
  | .vmacc pg k d a b => some (encV 0x1F 2 pg k d a b) | .vnmsac pg k d a b => some (encV 0x1F 3 pg k d a b)
  | .vwmacc pg k d a b => some (encV 0x20 0 pg k d a b) | .vwadd pg k d a b => some (encV 0x20 1 pg k d a b)
  | .vwmul pg k d a b => some (encV 0x20 2 pg k d a b) | .vnclip pg k d a b => some (encV 0x20 3 pg k d a b)
  | .vcmpeq pg k d a b => some (encV 0x21 0 pg k d a b) | .vcmpne pg k d a b => some (encV 0x21 1 pg k d a b)
  | .vcmplt pg k d a b => some (encV 0x21 2 pg k d a b) | .vcmple pg k d a b => some (encV 0x21 3 pg k d a b)
  | .vmerge pg k d a b => some (encV 0x22 0 pg k d a b)
  | .vmvV pg d a => some (encV 0x22 1 pg false d a 0) | .vmvVx pg d b => some (encV 0x22 1 pg true d 0 b)
  | .vmvXv d a => some (encV 0x22 1 0 false d a 1)
  | .vsadd pg k d a b => some (encV 0x22 2 pg k d a b) | .vssub pg k d a b => some (encV 0x22 3 pg k d a b)
  | .vsqrt pg d a => some (encV 0x23 0 pg false d a 0) | .vrsqrte pg d a => some (encV 0x23 1 pg false d a 0)
  | .vrece pg d a => some (encV 0x23 2 pg false d a 0) | .vexp2e pg d a => some (encV 0x23 3 pg false d a 0)
  | .vredsum pg k d a b => some (encV 0x24 0 pg k d a b) | .vredmax pg k d a b => some (encV 0x24 1 pg k d a b)
  | .vredmin pg k d a b => some (encV 0x24 2 pg k d a b) | .vdot pg d a b => some (encV 0x24 3 pg false d a b)
  | .vxchg pg d a b => some (encV 0x25 0 pg true d a b) | .vslup pg d a b => some (encV 0x25 1 pg true d a b)
  | .vsldn pg d a b => some (encV 0x25 2 pg true d a b) | .vperm pg d a b => some (encV 0x25 3 pg false d a b)
  | .vcvt pg t d a => some (encV 0x26 0 pg false d a (cvtCode t)) | .vbscale pg k d a b => some (encV 0x26 1 pg k d a b)
  | .vrot pg d a => some (encV 0x26 2 pg false d a 0) | .vid pg k d b => some (encV 0x26 3 pg k d 0 b)
  | .pand pg d a b => some (encV 0x27 0 pg false d a b) | .por pg d a b => some (encV 0x27 1 pg false d a b)
  | .pxor pg d a b => some (encV 0x27 2 pg false d a b) | .pandn pg d a b => some (encV 0x27 3 pg false d a b)
  | .psbf pg d a => some (encV 0x28 0 pg false d a 0) | .psif pg d a => some (encV 0x28 1 pg false d a 0)
  | .pcnt pg d a => some (encV 0x28 2 pg false d a 0) | .pfirst pg d a => some (encV 0x28 3 pg false d a 0)
  | .vcompress d a b => some (encV 0x29 0 0 false d a b) | .vcidx d a b => some (encV 0x29 1 0 false d a b)
  | .vtop pg d a b => some (encV 0x29 2 pg false d a b) | .pexp d a b => some (encV 0x29 3 0 false d a b)
  | .vld pg d a => some (encM 0x2A 0 pg d a 0) | .vldS pg d a b => some (encM 0x2A 1 pg d a b)
  | .vldFf pg d a b => some (encM 0x2A 2 pg d a b) | .vldNc pg d a => some (encM 0x2A 3 pg d a 0)
  | .vldSeg pg nf d a => some (encM 0x2A 4 pg d a (segCode nf)) | .vldFe pg d a => some (encM 0x2A 5 pg d a 0)
  | .vldFec pg d a => some (encM 0x2A 6 pg d a 0)
  | .vst pg d a => some (encM 0x2B 0 pg d a 0) | .vstS pg d a b => some (encM 0x2B 1 pg d a b)
  | .vstNtf pg d a b => some (encM 0x2B 2 pg d a b) | .vstNc pg d a => some (encM 0x2B 3 pg d a 0)
  | .vstSeg pg nf d a => some (encM 0x2B 4 pg d a (segCode nf)) | .vstFe pg d a => some (encM 0x2B 5 pg d a 0)
  | .vstMd pg tv d a => some (encM 0x2B 6 pg d a (BitVec.ofNat 7 tv.toNat))
  | .vldSc pg d a => some (encM 0x2C 0 pg d a 0) | .vstSc pg d a => some (encM 0x2C 1 pg d a 0)
  | .vldAcq pg d a => some (encM 0x2C 2 pg d a 0) | .vstRel pg d a => some (encM 0x2C 3 pg d a 0)
  | .planMk pg d a b => some (encV 0x2D 0 pg false d a b) | .planMkm pg d a b => some (encV 0x2D 1 pg false d a b)
  | .planInv d a => some (encV 0x2D 2 0 false d a 0) | .planCmp d a b => some (encV 0x2D 3 0 false d a b)
  | .pga pg d a b => some (encV 0x2E 0 pg false d a b) | .psc pg d a b => some (encV 0x2E 1 pg false d a b)
  | .pscAdd pg d a b => some (encV 0x2E 2 pg false d a b) | .pscMax pg d a b => some (encV 0x2E 3 pg false d a b)
  | .planLd d a => some (encV 0x2F 0 0 false d a 0) | .planSt d a => some (encV 0x2F 1 0 false d a 0)
  | .planRel d => some (encV 0x2F 2 0 false d 0 0) | .planQ d a b => some (encV 0x2F 3 0 false d a b)
  | .tidLd d a => some (encV 0x30 0 0 false d a 0) | .tidSt d a => some (encV 0x30 1 0 false d a 0)
  | .tidSet d a b => some (encV 0x30 2 0 false d a b) | .tidQ d a b => some (encV 0x30 3 0 false d a b)
  | .mxa pg d a b => some (encV 0x31 0 pg false d a b) | .mxs pg d a b => some (encV 0x31 1 pg false d a b)
  | .mxw pg d a b => some (encV 0x31 2 pg false d a b) | .mclr pg d => some (encV 0x31 3 pg false d 0 0)
  | .mma pg d a b => some (encV 0x32 0 pg false d a b) | .mmaG pg d a b => some (encV 0x32 1 pg false d a b)
  | .mmav pg d a b => some (encV 0x32 2 pg false d a b)
  | .mst pg d b => some (encV 0x33 0 pg false d 0 b) | .mld pg d b => some (encV 0x33 1 pg false d 0 b)
  | .mrd pg d a b => some (encV 0x33 2 pg false d a b) | .mwr pg d a b => some (encV 0x33 3 pg false d a b)
  | .spawn d a b => some (encR 0x34 0 d a b) | .gbar i => some (encR 0x34 1 0 i 0) | .tend => some (encR 0x34 2 0 0 0)
  | .tyield => some (encR 0x34 3 0 0 0)
  | .copy d a => some (encR 0x35 0 d a 0) | .copyp d a => some (encR 0x35 1 d a 0) | .coll d a b => some (encR 0x35 2 d a b)
  | .gate d a b => some (encR 0x35 3 d a b)
  | .cinc d a b => some (encR 0x36 0 d a b) | .cwait s a b => some (encR 0x36 1 s a b) | .cset d a b => some (encR 0x36 2 d a b)
  | .cread d a => some (encR 0x36 3 d a 0) | .pwait s a b => some (encR 0x36 4 s a b)
  | .dcDiscard d a b => some (encR 0x37 0 d a b) | .dcFlush a b => some (encR 0x37 1 0 a b)
  | .dcInval a b => some (encR 0x37 2 0 a b) | .thint c a b => some (encR 0x37 3 (rclCode c) a b)
  | .feSet a b => some (encR 0x37 4 0 a b) | .feClr a b => some (encR 0x37 5 0 a b)
  | .illegalWord w => some (Parts.unpack w)
  | .launch .. | .enSet .. | .enClear .. | .preempt .. | .registerWrite .. | .boot .. | .fmode .. | .pool .. | .dplist ..
  | .pmset .. | .inval .. | .fence .. | .reset .. | .keyreg .. | .load .. | .ckpt .. | .restore .. | .quote ..
  | .evtailWrite .. | .resume .. | .kill .. | .cancel .. | .place .. | .postread .. | .postRingConfig .. | .hdone ..
  | .cxlMemWrite .. | .cxlMemRead .. | .powerRail .. | .cdResetN .. | .flitReceive .. | .thermalThrottle .. | .thermalTrip ..
  | .uncorrectableError .. | .watchdog .. | .aging .. | .lend .. | .pageModeEpoch .. | .roundAutoClose .. | .dispatch ..
  | .nodeRecordRead .. | .descriptorBlockLoad .. | .gangHalt .. | .gangSave .. | .contextRestore .. | .gangRetirement ..
  | .taskCompletion .. | .graphCompletion .. | .overflowReturn .. | .engineCompletion .. | .engineFault .. | .gateRecordTake ..
  | .reservationRequest .. | .closingCount .. | .capacityGrant .. | .recordPost .. | .loStoreArrival .. | .writeBackArrival ..
  | .releaseQuery .. | .releaseCompletion .. | .pageWalk .. | .waitWake .. | .checkpointCopy | .debugHaltStep .. => none

/-- The word of an instruction; 0 for a device event. -/
def encode (i : Instr) : BitVec 32 :=
  match encodeParts i with
  | some p => p.pack
  | none => 0

/-- Whether a constructor stands for a row of 32-bit words that the decoder yields. -/
def Instr.hasWord (i : Instr) : Bool :=
  match i with
  | .illegalWord _ => false
  | _ => (encodeParts i).isSome

/-- The instruction that the decoder reads from a table row's bits (one 32-bit word, R47). -/
def decodeTableWord (nbits w : Nat) : Option Instr :=
  if nbits ≤ 32 then
    match decode (BitVec.ofNat 32 w) with
    | .ok i => some i
    | .error _ => none
  else none

end Sys2Proof
end

