-- ==== Sys2Proof/Machine/State.lean ====
section
/-! DEFINITION. The state of the whole device as plain data, the two reasons a step can stop, and the state right
after reset (spec/01 to spec/14; INVENTORY.md names the rule of every field).  Sparse tables are lists of pairs of a key
and a value in rising order of keys, with no entry equal to the table's default. -/

namespace Sys2Proof.Machine

/-- Why the machine stops. -/
inductive Fault where
  /-- A host or board action names a die, queue, core or port that the device does not have (R13, R315, R381): raised by
  the device events.  Safe: no such action exists. -/
  | noSuchUnit
deriving DecidableEq, Repr

/-- Why an instruction has no meaning. -/
inductive Refusal where
  /-- The instruction is not modelled yet: raised by an arm of `exec` only.  Safe: nothing is claimed of it. -/
  | notModelled (mnemonic : String)
deriving DecidableEq, Repr

/-- A sparse table. -/
abbrev Tab (α : Type) := List (Nat × α)

/-- What tail elements of a destination receive (R102, R124). -/
inductive Tail where
  | undisturbed | agnostic | dead
deriving DecidableEq, Repr

/-- VTYPE (R102).  `grp` codes a group of `2 ^ grp` names; `mz` is zeroing mask policy. -/
structure Vtype where
  mew : Ew
  sew : Ew
  grp : Fin 4
  tp : Tail
  mz : Bool
  cls : Cls
deriving DecidableEq, Repr

/-- A fault as the fault registers hold it (R108, R362). -/
structure FaultInfo where
  code : BitVec 8
  vec : Bool
  va : BitVec 56
  pc : Word
  info : Word
deriving DecidableEq, Repr

/-- The fault registers (R108). -/
structure FaultRegs where
  c : BitVec 9
  a : BitVec 56
  pc : BitVec 56
  e : Word
deriving DecidableEq, Repr

/-- An entry of the vector instruction queue with every value captured at enqueue (R36, R52, R72, R105, R162). -/
structure VEntry where
  i : Instr
  word : BitVec 32
  pc : Word
  /-- Absolute register numbers of D, A and B (R52). -/
  d : Nat
  a : Nat
  b : Nat
  /-- The values of x[D], x[A] and x[B] at enqueue, for the fields that name scalar registers. -/
  xd : Word
  xa : Word
  xb : Word
  vl : Nat
  vt : Vtype
  frm : Nat
  rot : BitVec 6
  vscope : Nat
  mvl : Nat
  tsm : Nat
  tsn : Nat
  tsk : Nat
  vidx : Word
  /-- Whether the entry was enqueued in a strip-loop body, for the position of an apply (R309). -/
  inLoop : Bool
  /-- Loop serial and strip number in a P = 1 body (R148). -/
  strip : Option (Nat × Nat)
  /-- The sequence number of an LO store that has started (R349). -/
  seq : Option (BitVec 32)
  /-- Whether an `mexit` entry was cancelled by a later `mmode` (R160). -/
  cancelled : Bool
  /-- Elements that the entry has performed as a chained consumer of the entry before it (R44, R46). -/
  ahead : Nat
deriving DecidableEq, Repr

/-- The vector names, the name map, the tags and the predicates of a VLC (R118, R127, R128). -/
structure VFile where
  v : Vector (BitVec 2048) 256
  dead : BitVec 256
  tag : Vector (BitVec 6) 256
  p : Vector (BitVec 4096) 16
  /-- The model's own note of the names and predicates written since the strip began (R149). -/
  wrote : BitVec 256
  wroteP : BitVec 16
deriving DecidableEq, Repr

/-- A name written by an ended strip, with the strip's number, its value and the poisoned words of its row (R149, R153). -/
structure StripWrite where
  strip : Nat
  name : Nat
  poison : List Nat
  row : BitVec 2048
  dead : Bool
  tag : BitVec 6
deriving DecidableEq, Repr

/-- A strip in flight: its number, its private register file and poisoned words, and the element at which its issued entry
has stopped (R148, R149, R152). -/
structure Strip where
  k : Nat
  vf : VFile
  poison : List (Nat × Nat)
  at_ : Option (BitVec 13)
deriving DecidableEq, Repr

/-- A predicate written by an ended strip, with the strip's number (R149). -/
structure StripPred where
  strip : Nat
  name : Nat
  bits : BitVec 4096
deriving DecidableEq, Repr

/-- The strips of a P = 1 loop: those in flight in ascending order, and what the ended strips leave.  The register file of the
VLC holds the values at the loop instruction (R149).  A VSTART that software has written, and that no strip has taken, stands apart
(R103). -/
structure Fan where
  serial : Nat
  strips : List Strip
  left : List StripWrite
  leftP : List StripPred
  loose : BitVec 13
deriving DecidableEq, Repr

/-- A hardware strip loop (R146). -/
structure Loop where
  start : Word
  len : Nat
  p : Bool
  balanced : Bool
  strip : Nat
  /-- The length handed out to this strip (R147). -/
  handed : Nat
  serial : Nat
deriving DecidableEq, Repr

/-- An access plan: header (R297), entries (target, first position, size) and positions in order (R298), and the granule
of the gang region where its body starts (R296). -/
structure Plan where
  oobn : Nat
  wseed : Nat
  blen : Nat
  baddr : BitVec 56
  bound : Nat
  waves : Nat
  count : Nat
  iw : Nat
  ls : Bool
  inverse : Bool
  /-- 1 unbound, 2 bound, 3 stale. -/
  st : Nat
  entries : List (Nat × Nat × Nat)
  positions : List Nat
  granule : Nat
deriving DecidableEq, Repr

/-- An architectural wait (R17, R20). -/
inductive Wait where
  | counter (pa : Nat) (thr : Word) (sc : Scope)
  | progress (pa : Nat) (thr : Word) (sc : Scope)
  | barrier (id : Nat)
deriving DecidableEq, Repr

/-- The wait of the vector half: an element of an entry waits for full-empty granules (R192). -/
inductive VWait where
  | no
  /-- The entry at an index of the queue waits for granules. -/
  | waits (k : Nat) (gs : List Nat)
  /-- The granules are full; the wait completes at WAIT_WAKE. -/
  | served (k : Nat)
deriving DecidableEq, Repr

/-- What a VLC is doing (R17, R20, R31, R370). -/
inductive VStatus where
  /-- No VLC is placed here. -/
  | absent
  | running
  | waiting (w : Wait)
  /-- The satisfying event has reached the core; the wait completes at WAIT_WAKE. -/
  | satisfied (w : Wait)
  /-- Faulted to the host; the gang is halting or halted (R378). -/
  | suspended
  /-- Stopped at an instruction boundary by a halt. -/
  | halted
  /-- Stopped by the debug page (R396). -/
  | debug
  | retired
deriving DecidableEq, Repr

/-- What the vector half does in a turn (R19, R31, R44, R148; assumption 8, DESIGN CHOICE). -/
inductive VMove where
  /-- It lets the scalar half go first. -/
  | hold
  /-- It runs one of the entries that may run, counted from the oldest: whole, or for so many elements, rows or entries. -/
  | run (which : Nat) (steps : Option Nat)
  /-- It runs the head for so many elements, and the entry behind it chains up to the same element. -/
  | chain (steps : Nat)
deriving DecidableEq, Repr

/-- The run of an entry of the vector queue: the elements, rows or entries that it may still do, where its turn is cut short, and the
sequence number that it has taken (R31, R349). -/
structure Running where
  left : Option Nat
  seq : Option (BitVec 32)
deriving DecidableEq, Repr

/-- A vector loop context (R15, R18). -/
structure Vlc where
  core : Nat
  slot : Nat
  gang : Nat
  member : Nat
  status : VStatus
  pc : Word
  x : Vector Word 256
  vf : VFile
  poison : List (Nat × Nat)
  vl : Nat
  vt : Vtype
  vstart : BitVec 13
  vidx : Word
  vrem : Word
  vscope : BitVec 3
  mvl : Nat
  tsm : Nat
  tsn : Nat
  tsk : Nat
  /-- 0, 32, 64, 96 or 128 as a multiple of 32 (R52). -/
  wins : Fin 5
  /-- 0, 64 or 128 as a multiple of 64. -/
  winv : Fin 3
  fflags : BitVec 7
  frm : BitVec 3
  rot : BitVec 6
  pseq : BitVec 32
  faultRegs : FaultRegs
  handlerPc : BitVec 54
  handlerEn : Bool
  inHandler : Bool
  dvec : Bool
  dcode : BitVec 8
  rpc : Word
  vq : List VEntry
  loop : Option Loop
  loopSerial : Nat
  fan : Option Fan
  plans : Tab Plan
  /-- A wait that was queued because its condition was false counts as progress when it completes (R358). -/
  queuedWait : Bool
  /-- The wait of the vector half. -/
  vwait : VWait
  /-- A fault met while the gang was halting, delivered when the VLC resumes (R32, R182). -/
  pendFault : Option FaultInfo
  /-- The entry that runs, within a step. -/
  run : Option Running
  /-- A barrier at which the VLC was halted while it waited there, and whether it has completed since (R32, R333). -/
  barrier : Option (Nat × Bool)
  yielded : Bool
  /-- The debug page asked for one instruction (R396). -/
  stepping : Bool
  /-- The model's schedule of the vector half (assumption 8, DESIGN CHOICE). -/
  sched : List VMove
deriving DecidableEq, Repr

/-- Why a gang halts (R30, R378). -/
inductive HaltWhy where
  | priority | host | tyield | fault
deriving DecidableEq, Repr

/-- The life of a gang (R25, R30, R320, R372). -/
inductive GangState where
  /-- Placed; its descriptor block is not loaded yet. -/
  | loading
  | resident
  | halting (why : HaltWhy)
  | halted (why : HaltWhy)
  /-- Saved in a pool record of a die. -/
  | saved (die pool : Nat)
  /-- Chosen by Landau for a new place; the restore has not run yet. -/
  | restoring (die pool : Nat)
  /-- Its last VLC has retired; the release of R25 is running.  `failed`: its node completes as failed. -/
  | releasing (failed : Bool)
deriving DecidableEq, Repr

/-- A gang (R21 to R25, R288). -/
structure Gang where
  id : Nat
  node : Nat
  queue : Nat
  die : Nat
  cluster : Nat
  cores : List Nat
  lsBase : List Nat
  tenant : BitVec 12
  gangid : Word
  shape : BitVec 18
  firmware : Bool
  ss : Vector (BitVec 128) 8
  ssv : Vector (BitVec 16) 8
  hbwin : BitVec 6
  wdog : Nat
  arrive : Vector (BitVec 32) 8
  exited : BitVec 32
  members : Nat
  tids : Tab (BitVec 512)
  st : GangState
  /-- Sequence numbers of its records that await an answer (R370). -/
  awaits : List Nat
  /-- The pool record taken for its save (R371). -/
  pool : Option Nat
  /-- A KILL arrived while its save was in progress (R378). -/
  killed : Bool
  /-- The host's PREEMPT still waits for its save (R316, R371). -/
  wantSave : Bool
  /-- The VLCs of a saved gang, and the bytes and full granules of its LS regions. -/
  savedVlcs : List Vlc
  savedLs : List (List Host.Cell)
  savedFe : List (List Nat)
  /-- The member that owns an accumulator array, and the array. -/
  savedAcc : List (Nat × Tab (BitVec 2048))
deriving DecidableEq, Repr

/-- A line of an L1 (R193).  Only RC, UO and SO lines are held. -/
structure L1Line where
  line : Nat
  valid : BitVec 128
  dirty : BitVec 128
  data : BitVec 1024
  uo : Bool
  so : Bool
  /-- The queue on whose behalf the line was brought in. -/
  queue : Nat
  /-- The replacement class that its write-back carries to the L2 slice (R197). -/
  cls : Rcl
  /-- Dirty bytes whose cell has a parity error (R199). -/
  bad : BitVec 128
deriving DecidableEq, Repr

/-- A write-back in transit from a core's L1 to the home of its line (R257, R260): the round that it is counted in and the bytes
that it carries. -/
structure WriteBack where
  core : Nat
  round : BitVec 8
  held : L1Line
deriving DecidableEq, Repr

/-- The update of another die's L1 by an SO store, in transit (R193, R284): the core that stored, the core to be updated, the
address and the bytes. -/
structure Snoop where
  src : Nat
  core : Nat
  pa : Nat
  bytes : List Byte
deriving DecidableEq, Repr

/-- A release that waits for its addressees (R260): its round and the counts not yet reported. -/
structure Release where
  round : BitVec 8
  counts : Tab Nat
  /-- The gang whose retirement this release is. -/
  gang : Nat
deriving DecidableEq, Repr

/-- A leaf of a translation: page kind code and permissions (R209). -/
structure Leaf where
  page : Nat
  level : Nat
  kind : Nat
  rd : Bool
  wr : Bool
  ex : Bool
deriving DecidableEq, Repr

/-- A cached combined translation of a die (R213): the virtual page of the smaller size, and both leaves. -/
structure TlbEntry where
  die : Nat
  tenant : BitVec 12
  s1root : Word
  s2root : Word
  vpage : Nat
  level : Nat
  pa : Nat
  s1 : Leaf
  s2 : Leaf
deriving DecidableEq, Repr

/-- A core (R15). -/
structure CoreSt where
  l1 : List L1Line
  fe : List Nat
  lsPoison : List Nat
  acc : Tab (BitVec 2048)
  accOwner : Option Nat
  accGang : Option Nat
  accPoison : List (Nat × Nat)
  q : BitVec 32
  round : BitVec 8
  sent : Tab Nat
  outs : List Release
  plain : Bool
  tenant : Option (BitVec 12)
  /-- Full-empty reads waiting at the LS: granule and slot, in order of arrival (R192). -/
  feq : List (Nat × Nat)
  issue : Nat
  vcomp : Nat
  chain : Nat
  l1miss : Nat
  /-- The L1 TLB, at most 64 entries (R213). -/
  tlb : List TlbEntry
deriving DecidableEq, Repr

/-- An LO cell's tag and arrival count (R262, R353). -/
structure LoTag where
  seq : BitVec 32
  prod : BitVec 12
  arrivals : BitVec 32
deriving DecidableEq, Repr

/-- The queue an LO store in transit stands in (R263). -/
inductive LoPlace where
  | xbar (die cluster : Nat)
  | seam (src dst : Nat)
  | coupling (port : Nat)
  | home
deriving DecidableEq, Repr

/-- An LO store in transit. -/
structure LoStore where
  pa : Nat
  val : Word
  seq : BitVec 32
  prod : BitVec 12
  cover : Nat
  md : Bool
  queue : Nat
  place : LoPlace
deriving DecidableEq, Repr

/-- A watch of a slice's directory (R301). -/
structure Watch where
  line : Nat
  core : Nat
  slot : Nat
  plan : Nat
deriving DecidableEq, Repr

/-- A pin of a line by an instruction of a VLC (R176): the VLC, the address from which the instruction reads the line, and
whether it reads B there. -/
structure Pin where
  core : Nat
  slot : Nat
  va : Nat
  b : Bool
deriving DecidableEq, Repr

/-- A line held by an L2 slice of a die: its way, class, pins and last use (R196, R197).  A line of another die's memory is a
replica.  `dirty` and `under` are the bytes merged since memory was last written, and the bytes that memory holds below them
(R196, R245). -/
structure L2Line where
  die : Nat
  line : Nat
  way : Nat
  cls : Rcl
  pins : List Pin
  stamp : Nat
  dirty : BitVec 128
  under : BitVec 1024
deriving DecidableEq, Repr

/-- Mode and counters of a page (R205 to R207). -/
structure PageMode where
  replicated : Bool
  rr : Nat
  rw : Nat
  /-- The queue of the latest remote access (R354; assumption 17, DEDUCED). -/
  queue : Nat
  /-- An SO or LO page, as its accesses have shown: it stays memory-side (R205). -/
  so : Bool
deriving DecidableEq, Repr

/-- An entry of a die's walk cache: a table that a table entry of an upper level names (R213). -/
structure WalkEntry where
  die : Nat
  /-- The tenant of a stage-1 entry; 0 in stage 2. -/
  tenant : BitVec 12
  stage1 : Bool
  root : Nat
  /-- The stage-2 root through which a stage-1 entry was read. -/
  under : Nat
  level : Nat
  index : Nat
  table : Nat
deriving DecidableEq, Repr

/-- A queue page (R315, R316). -/
structure QueuePage where
  en : Bool
  preempt : Bool
  prio : Word
  cfg : Word
  s1root : Word
  s2root : Word
  ovfbase : Word
  ovfcnt : Word
  frbase : Word
  frsize : Word
  dropped : BitVec 16
  colltab : Word
  mask : BitVec 576
  /-- The next record sequence number (R368). -/
  seq : Nat
  /-- Node records written to the overflow region so far, for their order. -/
  ovfIn : Nat
deriving DecidableEq, Repr

/-- A node's progress (R321, R322). -/
inductive NodeSt where
  | waiting | ready | running | saved
  /-- Its task has ended; TASK_COMPLETION decrements its successors. -/
  | done (failed : Bool)
deriving DecidableEq, Repr

/-- A node of a graph (R318).  `slot` is none in the overflow region. -/
structure Node where
  id : Nat
  graph : Nat
  queue : Nat
  die : Nat
  slot : Option Nat
  idx : Nat
  image : BitVec 512
  deps : Nat
  st : NodeSt
  /-- Effective priority (R323). -/
  level : Nat
  /-- The cycle count of the origin die at the last rise or arrival, for aging. -/
  since : Nat
  /-- Order of becoming ready: 2^64 and a rising number; 2^64 less a rising number for a node back at the head (R33). -/
  order : Nat
  /-- The cycle since which no cluster could hold its shape (R325). -/
  noPlace : Option Nat
  /-- The gang halted to give it a place (R325). -/
  claim : Option Nat
  /-- The release of its `spawn` that still waits for vector entries of the spawner (R34, R259). -/
  hold : Option Nat
  /-- Became ready in host-assisted scheduling, and whether it has been posted (R341, R377). -/
  assisted : Bool
  posted : Bool
  /-- The gang that issued or spawned it, whose watchdog its completion resets (R358). -/
  spawner : Option Nat
deriving DecidableEq, Repr

/-- A graph in flight (R317).  `left` counts its nodes not yet complete; `next` is the next record to read. -/
structure Graph where
  id : Nat
  queue : Nat
  die : Nat
  base : Word
  arg : Word
  nodes : Nat
  ord : Bool
  done : Word
  irq : Bool
  vec : Nat
  left : Nat
  next : Nat
  /-- Decrements of records not yet read (R321). -/
  due : List Nat
  /-- The overflow region was full: no further record is read (R324). -/
  stopped : Bool
deriving DecidableEq, Repr

/-- Landau of a die (R323, R384). -/
structure Landau where
  serial : BitVec 32
  deficits : Tab Nat
  /-- The queue visited last, and whether its visit goes on (R323). -/
  visit : Option Nat
  visiting : Bool
  postBase : Word
  postEntries : BitVec 16
  /-- Posts written since the ring was configured, of which the register shows 16 bits. -/
  postWritten : Nat
  postRead : BitVec 16
  depsel : BitVec 12
deriving DecidableEq, Repr

/-- Counters of one queue on one die (R353, R356). -/
structure QueuePerf where
  l2miss : Nat
  walks : Nat
  /-- LO stores dropped in the die's crossbar, seam, coupling and home write queues (R353, R422). -/
  dropXbar : Nat
  dropSeam : Nat
  dropCoupling : Nat
  dropHome : Nat
  loarr : Nat
  latent : Nat
  corr : Nat
  pmchg : Nat
deriving DecidableEq, Repr

/-- Progress of an engine operation (R326, R328). -/
inductive EngSt where
  | queued
  /-- Every byte for a peer is sent, or a collective's own elements are. -/
  | sent
  /-- Every byte performed; the completion is signalled in arrival order. -/
  | moved
  /-- Suspended on the record of this sequence number. -/
  | suspended (seq : Nat)
deriving DecidableEq, Repr

/-- A run of a peer copy: the coupling that it crosses, the index of its first byte in the operation, and its bytes (R394). -/
structure SentRun where
  port : Nat
  first : Nat
  count : Nat
deriving DecidableEq, Repr

/-- An engine operation (R327). -/
structure EngOp where
  id : Nat
  die : Nat
  eng : Nat
  efn : Nat
  queue : Nat
  dst : Word
  src : Word
  len : Word
  ctr : Word
  opt : Word
  /-- Member words of a collective's group (R330). -/
  members : List Nat
  off : Nat
  st : EngSt
  node : Option Nat
  /-- Index in the graph image of the engine node, or of the issuing gang's node. -/
  nodeIdx : Nat
  gang : Option Nat
  /-- Core and VLC of the issuer, and its gang's LS region there; an engine node has none. -/
  core : Nat
  slot : Nat
  lsBase : Nat
  lsLen : Nat
  /-- The operation tag of a peer copy (R394). -/
  tag : Nat
  /-- The runs of a peer copy that the peer has not counted yet, in the order in which they were sent (R394). -/
  sent : List SentRun
  /-- The release of its issue that still waits for vector entries of the issuer (R34, R259). -/
  hold : Option Nat
deriving DecidableEq, Repr

/-- Collective data of a rank (R394). -/
structure CollData where
  die : Nat
  tenant : BitVec 12
  group : Nat
  seq : Nat
  rank : Nat
  off : Nat
  data : List Word
  /-- The coupling port that received it and the number of its flit, whose buffer it holds. -/
  port : Option (Nat × Nat)
deriving DecidableEq, Repr

/-- A gate record (R337). -/
structure GateRec where
  token : BitVec 32
  step : BitVec 16
  logits : List (BitVec 32)
  queue : Nat
  /-- The release of its `gate` that still waits for vector entries of the issuer (R34, R259). -/
  hold : Option Nat
deriving DecidableEq, Repr

/-- A reservation request (R339). -/
structure Reserve where
  home : Nat
  src : Nat
  step : Nat
  token : Nat
  expert : Nat
  round : Nat
  /-- The granted slot, `none` until granted or when refused. -/
  slot : Option Nat
  decided : Bool
deriving DecidableEq, Repr

/-- A routed token of a step: its picks as (expert, weight) in selection order, the experts that take part in rank order,
every expert's weight, and its second-round requests as (pick, expert) (R338, R339). -/
structure Routed where
  token : Nat
  picks : List (Nat × BitVec 32)
  rank : List Nat
  weights : List (BitVec 32)
  retry : List (Nat × Nat)
deriving DecidableEq, Repr

/-- A Hansom step (R335 to R340). -/
structure HStep where
  die : Nat
  lane : Nat
  node : Nat
  queue : Nat
  stepNo : Nat
  block : BitVec 512
  /-- Layer header and entries. -/
  layer : BitVec 512
  entries : List Word
  bias : List (BitVec 32)
  /-- Host-assisted routing, as it stood when the step started (R377). -/
  route : Bool
  taken : Nat
  routed : List Routed
  /-- The taken records of a step in host-assisted routing, and the indices of the tokens taken. -/
  records : List GateRec
  badPosted : Bool
  latePosted : Bool
  /-- Rounds whose closing count has been sent, and rounds granted as home. -/
  closed : Nat
  granted : Nat
  rowsDone : Bool
  recordsDone : Bool
  waitsHost : Bool
deriving DecidableEq, Repr

/-- A closing count in transit to a home Hansom (R339): `rnd` is the round of the step that it closes. -/
structure CloseMsg where
  src : Nat
  home : Nat
  tag : Nat
  rnd : Nat
  count : Nat
  cover : Nat
  queue : Nat
  /-- The queue in which it stands (R263, R339). -/
  place : LoPlace
deriving DecidableEq, Repr

/-- What a home Hansom keeps for a sending die: the closing-count cell, and the requests received and sent (R339). -/
structure CloseCell where
  count : Nat
  tag : Nat
  rnd : Nat
  received : Nat
  sent : Nat
deriving DecidableEq, Repr

/-- A coupling port (R392, R393). -/
structure Port where
  ibase : Word
  ilimit : Word
  txSeq : BitVec 12
  rxNext : BitVec 12
  taken : Bool
  nak : Bool
  /-- A flit with requests has been taken since the last one sent. -/
  ackDue : Bool
  replay : List (BitVec 2048)
  credits : Vector Nat 3
  freed : Vector Nat 3
  /-- Packed requests waiting for a flit: class, and dwords. -/
  outq : List (Nat × List Word)
  /-- Flits sent, in order: an output. -/
  out : List (BitVec 2048)
deriving DecidableEq, Repr

/-- A record for the host that waits for a slot (R368): queue, sequence number and the record, SEQ and VALID included. -/
structure PendRec where
  queue : Nat
  seq : Nat
  image : BitVec 1024
  /-- The party that stays suspended: a VLC's or gang's gang, or an engine operation. -/
  gang : Option Nat
  op : Option Nat
deriving DecidableEq, Repr

/-- A record of which the answer is awaited (R370). -/
structure OpenRec where
  queue : Nat
  seq : Nat
  gang : Option Nat
  op : Option Nat
  answered : Bool
deriving DecidableEq, Repr

/-- A die's controller, pages and counters (R383 to R397). -/
structure Die where
  rails : List Rail
  resetReleased : Bool
  phase : Nat
  stop : BitVec 8
  detail : BitVec 16
  bootbuf : List Host.Cell
  measure : List Byte
  minSv : Nat
  cmdDone : BitVec 32
  cmdTag : BitVec 16
  cmdStatus : BitVec 8
  evHead : Nat
  evTail : Nat
  evOver : Bool
  ring : List (BitVec 256)
  temp : BitVec 16
  pwr : BitVec 16
  lpthr : BitVec 32
  loadReason : Nat
  poolBase : Nat
  poolCount : Nat
  poolUsed : List Nat
  /-- POOL and FMODE have been given since bring-up (R387 step 12). -/
  pooled : Bool
  moded : Bool
  corrected : Nat
  latent : Nat
  uncorrectable : Nat
  fencedCount : Nat
  /-- LO stores dropped at the ingress check (R392). -/
  ingressDrops : Nat
  /-- Records of queues with no record area (R368). -/
  log : List (BitVec 1024)
  qsel : Nat
  throttle : Bool
  trip : Bool
  cycles : Nat
  epoch : Nat
deriving DecidableEq, Repr

/-- A checkpoint being copied (R401). -/
structure Ckpt where
  sink : Nat
  page : Nat
  /-- Pages copied ahead of their turn, before a write to them. -/
  early : List Nat
  cmdTag : BitVec 16
  irq : Bool
deriving DecidableEq, Repr

/-- The device. -/
structure State where
  /-- The VLC whose turn it is, and the others in the order of their turns (R19). -/
  vlc : Vlc
  others : List Vlc
  gangs : List Gang
  cores : Tab CoreSt
  mem : List Host.Cell
  poison : List Nat
  lo : Tab LoTag
  loTransit : List LoStore
  writeBacks : List WriteBack
  snoops : List Snoop
  arrivals : Tab Nat
  seqCounter : BitVec 64
  watches : List Watch
  l2 : List L2Line
  modes : Tab PageMode
  tlb : List TlbEntry
  walkCache : List WalkEntry
  queues : Tab QueuePage
  nodes : List Node
  graphs : List Graph
  landau : Vector Landau 4
  perf : Tab QueuePerf
  engines : List EngOp
  rx : List CollData
  gateQ : Vector (List GateRec) 4
  steps : List HStep
  reserves : List Reserve
  closing : Tab CloseCell
  closeTransit : List CloseMsg
  /-- Reservation requests in transit, and the steps of a die that have failed (R340). -/
  reqTransit : List Reserve
  hansomFailed : List (Nat × Nat)
  ports : Vector Port 16
  dies : Vector Die 4
  funcmode : BitVec 6
  bootCount : Nat
  quoteCount : Nat
  cert : List Byte
  keys : Tab (List Byte)
  fenced : List (Nat × Nat × Nat)
  demand : Tab (List Nat)
  pendRecs : List PendRec
  openRecs : List OpenRec
  ckpt : Option Ckpt
  ckptTable : Option (Nat × List Word)
  /-- Outputs: MSI-X messages (die and vector) and data returned to the host, in order. -/
  msix : List (Nat × Nat)
  hostData : List (List Byte)
  /-- Events the outside world and the device's own units are scheduled to perform (assumption 3, DESIGN CHOICE). -/
  inputs : List Instr
  /-- Fresh identifiers for gangs, nodes, graphs and operations, and the count of steps for free values. -/
  fresh : Nat
  tick : Nat
deriving DecidableEq, Repr

/-! ### The values at reset -/

/-- VTYPE at creation: SEW 32, MEW 32, GRP 1, undisturbed, CLS 0 (R18, R102). -/
def Vtype.reset : Vtype := ⟨.e32, .e32, 0, .undisturbed, false, .i⟩

def VFile.reset : VFile :=
  ⟨Vector.replicate 256 0, 0, Vector.replicate 256 0, Vector.replicate 16 0, 0, 0⟩

/-- A VLC as R18 and R100 create it, with no place and no gang. -/
def Vlc.reset : Vlc where
  core := 0
  slot := 0
  gang := 0
  member := 0
  status := .absent
  pc := 0
  x := Vector.replicate 256 0
  vf := VFile.reset
  poison := []
  vl := 0
  vt := Vtype.reset
  vstart := 0
  vidx := 0
  vrem := 0
  vscope := 4
  mvl := 0
  tsm := 0
  tsn := 0
  tsk := 0
  wins := 0
  winv := 0
  fflags := 0
  frm := 0
  rot := 0
  pseq := 0
  faultRegs := ⟨0, 0, 0, 0⟩
  handlerPc := 0
  handlerEn := false
  inHandler := false
  dvec := false
  dcode := 0
  rpc := 0
  vq := []
  loop := none
  loopSerial := 0
  fan := none
  plans := []
  queuedWait := false
  vwait := .no
  pendFault := none
  run := none
  barrier := none
  yielded := false
  stepping := false
  sched := []

/-- A core at die reset (R349, R351, R189). -/
def CoreSt.reset : CoreSt := ⟨[], [], [], [], none, none, [], 0, 0, [], [], false, none, [], 0, 0, 0, 0, []⟩

def LoTag.reset : LoTag := ⟨0, 0, 0⟩

def PageMode.reset : PageMode := ⟨false, 0, 0, 0, false⟩

/-- A queue page at reset (R315, R316). -/
def QueuePage.reset : QueuePage :=
  ⟨false, false, 0x00140100, 0x00007000, 0, 0, 0, 0, 0, 0, 0, 0, 0, 1, 0⟩

def Landau.reset : Landau := ⟨0, [], none, false, 0, 0, 0, 0, 0⟩

def QueuePerf.reset : QueuePerf := ⟨0, 0, 0, 0, 0, 0, 0, 0, 0, 0⟩

def CloseCell.reset : CloseCell := ⟨0, 0, 0, 0, 0⟩

/-- A coupling port before training (R392, R393). -/
def Port.reset : Port :=
  ⟨0, 0, 0, 0, false, false, false, [], Vector.replicate 3 256, Vector.replicate 3 0, [], []⟩

/-- A die before power-up (R383, R387, R388). -/
def Die.reset : Die where
  rails := []
  resetReleased := false
  phase := 0
  stop := 0
  detail := 0
  bootbuf := []
  measure := []
  minSv := 0
  cmdDone := 0
  cmdTag := 0
  cmdStatus := 0
  evHead := 0
  evTail := 0
  evOver := false
  ring := []
  temp := 0
  pwr := 0
  lpthr := 0
  loadReason := 0
  poolBase := 0
  poolCount := 0
  poolUsed := []
  pooled := false
  moded := false
  corrected := 0
  latent := 0
  uncorrectable := 0
  fencedCount := 0
  ingressDrops := 0
  log := []
  qsel := 0
  throttle := false
  trip := false
  cycles := 0
  epoch := 0

/-- The coupling ports of a die are out of service until they have trained (R387). -/
def untrained (d : Nat) : List (Nat × Nat × Nat) := (List.range 4).map fun p => (d, 5, p)

/-- The device right after reset: no VLC is placed, no queue is enabled, memory lists nothing. -/
def State.reset : State where
  vlc := Vlc.reset
  others := []
  gangs := []
  cores := []
  mem := []
  poison := []
  lo := []
  loTransit := []
  writeBacks := []
  snoops := []
  arrivals := []
  seqCounter := 0
  watches := []
  l2 := []
  modes := []
  tlb := []
  walkCache := []
  queues := []
  nodes := []
  graphs := []
  landau := Vector.replicate 4 Landau.reset
  perf := []
  engines := []
  rx := []
  gateQ := Vector.replicate 4 []
  steps := []
  reserves := []
  closing := []
  closeTransit := []
  reqTransit := []
  hansomFailed := []
  ports := Vector.replicate 16 Port.reset
  dies := Vector.replicate 4 Die.reset
  funcmode := 0
  bootCount := 0
  quoteCount := 0
  cert := []
  keys := []
  fenced := (List.range 4).flatMap untrained
  demand := []
  pendRecs := []
  openRecs := []
  ckpt := none
  ckptTable := none
  msix := []
  hostData := []
  inputs := []
  fresh := 0
  tick := 0

end Sys2Proof.Machine
end

