-- ==== Sys2Proof/Machine/Store.lean ====
section
/-! DEFINITION. Operations over sparse tables and over the one memory list (spec/07_memories.md R185 to R188;
little-endian order of R6).  An unlisted byte of memory reads 0 (R387 step 10, R25; assumption 1, DESIGN CHOICE). -/

namespace Sys2Proof

/-- Bits of a width code (R102). -/
def Ew.bits : Ew → Nat
  | .e2 => 2 | .e4 => 4 | .e8 => 8 | .e16 => 16 | .e32 => 32 | .e64 => 64

end Sys2Proof

namespace Sys2Proof.Machine

/-- The value of a sparse table at a key: its default where nothing is listed. -/
def Tab.get {α : Type} (d : α) : Tab α → Nat → α
  | [], _ => d
  | (k, v) :: t, a => if a = k then v else if a < k then d else Tab.get d t a

/-- A sparse table with a new value at a key, in canonical form. -/
def Tab.set {α : Type} [DecidableEq α] (d : α) : Tab α → Nat → α → Tab α
  | [], a, x => if x = d then [] else [(a, x)]
  | (k, v) :: t, a, x =>
    if a < k then (if x = d then (k, v) :: t else (a, x) :: (k, v) :: t)
    else if a = k then (if x = d then t else (a, x) :: t)
    else (k, v) :: Tab.set d t a x

/-- Change the value at a key. -/
def Tab.mod {α : Type} [DecidableEq α] (d : α) (t : Tab α) (a : Nat) (f : α → α) : Tab α :=
  Tab.set d t a (f (Tab.get d t a))

/-- Change every listed value; one that becomes the default leaves the table. -/
def Tab.mapAll {α : Type} [DecidableEq α] (d : α) (t : Tab α) (f : Nat → α → α) : Tab α :=
  (t.map fun x => (x.1, f x.1 x.2)).filter fun x => x.2 != d

/-- Keys from `lo` up are strictly rising and no entry is the default. -/
def Tab.wfFrom {α : Type} [DecidableEq α] (d : α) : Nat → Tab α → Bool
  | _, [] => true
  | lo, (k, v) :: t => decide (lo ≤ k) && decide (v ≠ d) && Tab.wfFrom d (k + 1) t

/-- The canonical form of a sparse table. -/
def Tab.wf {α : Type} [DecidableEq α] (d : α) (t : Tab α) : Bool := Tab.wfFrom d 0 t

/-- What a byte of memory that nothing has written reads as (assumption 1, DESIGN CHOICE). -/
def unlistedByte : Byte := 0

/-- The canonical form of memory. -/
def Memory.wf (m : List Host.Cell) : Bool := Tab.wf unlistedByte m

def memByte (m : List Host.Cell) (a : Nat) : Byte := Tab.get unlistedByte m a

def memSetByte (m : List Host.Cell) (a : Nat) (b : Byte) : List Host.Cell := Tab.set unlistedByte m a b

/-- The `n` bytes at `a` as a little-endian number (R6). -/
def memRead (m : List Host.Cell) (a : Nat) : Nat → Nat
  | 0 => 0
  | n + 1 => (memByte m a).toNat + 256 * memRead m (a + 1) n

/-- Write the low `n` bytes of `v` at `a`, little-endian. -/
def memWrite (m : List Host.Cell) (a : Nat) : Nat → Nat → List Host.Cell
  | 0, _ => m
  | n + 1, v => memWrite (memSetByte m a (BitVec.ofNat 8 v)) (a + 1) n (v / 256)

/-- Write a list of bytes. -/
def memWriteBytes (m : List Host.Cell) (a : Nat) : List Byte → List Host.Cell
  | [] => m
  | b :: bs => memWriteBytes (memSetByte m a b) (a + 1) bs

/-- Read `n` bytes as a list. -/
def memReadBytes (m : List Host.Cell) (a : Nat) : Nat → List Byte
  | 0 => []
  | n + 1 => memByte m a :: memReadBytes m (a + 1) n

/-- A little-endian number of a byte list. -/
def bytesNat : List Byte → Nat
  | [] => 0
  | b :: bs => b.toNat + 256 * bytesNat bs

/-- The low `n` bytes of a number. -/
def natBytes (v : Nat) : Nat → List Byte
  | 0 => []
  | n + 1 => BitVec.ofNat 8 v :: natBytes (v / 256) n

/-- Bits [lo + len - 1 : lo] of a number. -/
def field (n lo len : Nat) : Nat := n / 2 ^ lo % 2 ^ len

/-- A number with bits [lo + len - 1 : lo] replaced. -/
def setField (n lo len v : Nat) : Nat := n - field n lo len * 2 ^ lo + v % 2 ^ len * 2 ^ lo

/-- The signed value of the low `w` bits. -/
def sgn (w n : Nat) : Int :=
  let m := n % 2 ^ w
  if 2 * m ≥ 2 ^ w ∧ w ≠ 0 then (m : Int) - (2 ^ w : Nat) else m

/-- The low `w` bits of an integer. -/
def wrapI (w : Nat) (z : Int) : Nat := (z % ((2 ^ w : Nat) : Int)).toNat

/-! ### The address of each place in the one memory list -/

/-- Bytes of one LS (R188). -/
def lsBytes : Nat := 524288

/-- Where the LS of a core lies in the memory list: above every physical address (R185). -/
def lsAddr (core off : Nat) : Nat := 2 ^ 52 + core * lsBytes + off

/-- The end of device memory: 356 GiB (R185). -/
def deviceEnd : Nat := 0x5900000000

/-- The physical address of an offset in the host window of 2^50 bytes (R185; assumption 23, DEDUCED). -/
def hostAddr (off : Nat) : Nat := 2 ^ 51 + off % 2 ^ 50

/-- The places of a physical address (R185). -/
inductive Place where
  | device | host | peer (coupling : Nat) | unassigned
deriving DecidableEq, Repr

/-- The fate of a physical address (R185). -/
def placeOf (pa : Nat) : Place :=
  if pa < deviceEnd then .device
  else if 2 ^ 51 ≤ pa ∧ pa < 0xC000000000000 then .host
  else if pa / 2 ^ 48 = 0xC then .peer (pa / 2 ^ 44 % 16)
  else .unassigned

/-- The home die of a device-memory address (R186). -/
def homeDie (pa : Nat) : Nat := pa / 65536 % 4

/-- The home slice of a line on its home die (R187). -/
def homeSlice (pa : Nat) : Nat := pa / 128 % 61

/-- The set of the slice that a line occupies (R187). -/
def homeSet (pa : Nat) : Nat := pa / 128 / 61 % 2048

/-- The HBM channel of a device-memory address on its home die (R186). -/
def hbmChannel (pa : Nat) : Nat :=
  let off := pa / 65536 / 4 * 65536 + pa % 65536
  off / 128 % 64 ^^^ off / 8192 % 64

/-- The die of a core index (R9). -/
def coreDie (core : Nat) : Nat := core / 144

def coreCluster (core : Nat) : Nat := core / 8 % 18

/-- The core identifier of a core index (R9). -/
def coreIdent (core : Nat) : Nat := coreDie core * 256 + coreCluster core * 8 + core % 8

/-- The core index of a core identifier, where it names a core (R9). -/
def coreOfIdent (n : Nat) : Option Nat :=
  if n < 1024 ∧ n / 8 % 32 < 18 then some (n / 256 * 144 + n / 8 % 32 * 8 + n % 8) else none

/-- Producer identifiers (R10). -/
def engineProducer (die eng : Nat) : BitVec 12 := BitVec.ofNat 12 (576 + die * 16 + eng)

def hansomProducer (die : Nat) : BitVec 12 := BitVec.ofNat 12 (640 + die)

def controllerProducer (die : Nat) : BitVec 12 := BitVec.ofNat 12 (644 + die)

def landauProducer (die : Nat) : BitVec 12 := BitVec.ofNat 12 (648 + die)

/-- The code of a scope (R50). -/
def scopeRank : Scope → Nat
  | .ctx => 0 | .gang => 1 | .cluster => 2 | .die => 3 | .dev => 4 | .sys => 5

/-- The scope of a code below 6. -/
def scopeOfCode (n : Nat) : Scope :=
  match n with
  | 0 => .ctx | 1 => .gang | 2 => .cluster | 3 => .die | 4 => .dev | _ => .sys

/-- The class of a code below 10 (R67, R71). -/
def clsOfCode (n : Nat) : Cls :=
  match n with
  | 0 => .i | 1 => .n | 2 => .fp32 | 3 => .bf16 | 4 => .fp16 | 5 => .e4m3 | 6 => .e5m2 | 7 => .e3m2 | 8 => .e2m3
  | _ => .e2m1

def clsNum : Cls → Nat
  | .i => 0 | .n => 1 | .fp32 => 2 | .bf16 => 3 | .fp16 => 4 | .e4m3 => 5 | .e5m2 => 6 | .e3m2 => 7 | .e2m3 => 8
  | .e2m1 => 9

def ewNum : Ew → Nat
  | .e2 => 0 | .e4 => 1 | .e8 => 2 | .e16 => 3 | .e32 => 4 | .e64 => 5

def ewOfCode (n : Nat) : Ew :=
  match n with
  | 0 => .e2 | 1 => .e4 | 2 => .e8 | 3 => .e16 | 4 => .e32 | _ => .e64

end Sys2Proof.Machine
end

