-- ==== Sys2Proof/Machine/Num.lean ====
section
/-! DEFINITION. Number formats, exact values and the one rounding of every floating-point result
(spec/03_numbers.md R67 to R78). -/

namespace Sys2Proof.Machine

/-! ### Flags (R89) -/

abbrev Fl := BitVec 7

def flNX : Fl := 1
def flUF : Fl := 2
def flOF : Fl := 4
def flDZ : Fl := 8
def flNV : Fl := 16
def flSQ : Fl := 32
def flSAT : Fl := 64

/-- A flag when a condition holds. -/
def flIf (c : Bool) (f : Fl) : Fl := if c then f else 0

end Sys2Proof.Machine

namespace Sys2Proof

/-! ### Formats (R67) -/

/-- Exponent bits, fraction bits, bias, and whether the top exponent holds infinity and NaN. -/
structure Fmt where
  eb : Nat
  fb : Nat
  bias : Nat
  ieee : Bool
deriving DecidableEq, Repr

def Cls.fmt : Cls → Fmt
  | .fp32 => ⟨8, 23, 127, true⟩
  | .bf16 => ⟨8, 7, 127, true⟩
  | .fp16 => ⟨5, 10, 15, true⟩
  | .e4m3 => ⟨4, 3, 7, false⟩
  | .e5m2 => ⟨5, 2, 15, true⟩
  | .e3m2 => ⟨3, 2, 3, false⟩
  | .e2m3 => ⟨2, 3, 1, false⟩
  | .e2m1 => ⟨2, 1, 1, false⟩
  | .i | .n => ⟨0, 0, 0, false⟩

/-- Classes 2 to 9. -/
def Cls.isFp : Cls → Bool
  | .i | .n => false
  | _ => true

/-- Classes 5 to 9, whose results always round by RNE (R73). -/
def Cls.isNarrow : Cls → Bool
  | .e4m3 | .e5m2 | .e3m2 | .e2m3 | .e2m1 => true
  | _ => false

/-- The container width of a floating-point class (R67). -/
def Cls.container : Cls → Nat
  | .fp32 => 32
  | .bf16 | .fp16 => 16
  | .e4m3 | .e5m2 | .e3m2 | .e2m3 => 8
  | .e2m1 => 4
  | .i | .n => 0

def Cls.hasNan : Cls → Bool
  | .e3m2 | .e2m3 | .e2m1 => false
  | _ => true

/-- The canonical quiet NaN (R75); formats without NaN give +0. -/
def Cls.canonNan : Cls → Nat
  | .fp32 => 0x7FC00000
  | .bf16 => 0x7FC0
  | .fp16 => 0x7E00
  | .e5m2 => 0x7E
  | .e4m3 => 0x7F
  | _ => 0

/-- The magnitude code of the largest finite value (R67). -/
def Cls.maxCode (c : Cls) : Nat :=
  let f := c.fmt
  if f.ieee then (2 ^ f.eb - 1) * 2 ^ f.fb - 1
  else if c = .e4m3 then 0x7E else 2 ^ (f.eb + f.fb) - 1

/-- The magnitude code of infinity, for the formats that have it. -/
def Cls.infCode (c : Cls) : Nat := (2 ^ c.fmt.eb - 1) * 2 ^ c.fmt.fb

end Sys2Proof

namespace Sys2Proof.Machine

/-- The code with a sign. -/
def signed (c : Cls) (neg : Bool) (mag : Nat) : Nat := mag + (if neg then 2 ^ (c.fmt.eb + c.fmt.fb) else 0)

/-! ### Values -/

/-- An exact finite value: (-1)^neg × num / den × 2^e. -/
structure Exact where
  neg : Bool
  num : Nat
  den : Nat
  e : Int
deriving DecidableEq, Repr

/-- A floating-point value (R68). -/
inductive FV where
  | nan (signalling : Bool)
  | inf (neg : Bool)
  | fin (x : Exact)
deriving DecidableEq, Repr

def FV.isNan : FV → Bool
  | .nan _ => true
  | _ => false

def FV.isSnan : FV → Bool
  | .nan b => b
  | _ => false

def FV.isZero : FV → Bool
  | .fin x => x.num == 0
  | _ => false

/-- The value of a code (R68). -/
def fpVal (c : Cls) (code : Nat) : FV :=
  let f := c.fmt
  let neg := bitOf code (f.eb + f.fb)
  let ef := field code f.fb f.eb
  let fr := field code 0 f.fb
  if f.ieee ∧ ef = 2 ^ f.eb - 1 then
    if fr = 0 then .inf neg else .nan (fr < 2 ^ (f.fb - 1))
  else if c = .e4m3 ∧ ef = 15 ∧ fr = 7 then .nan false
  else if ef = 0 then .fin ⟨neg, fr, 1, 1 - (f.bias : Int) - f.fb⟩
  else .fin ⟨neg, 2 ^ f.fb + fr, 1, (ef : Int) - f.bias - f.fb⟩

/-- The value of an integer element (R71). -/
def intVal (isSigned : Bool) (w n : Nat) : Int := if isSigned then sgn w n else (n % 2 ^ w : Nat)

/-- An integer as an exact value; zero is +0. -/
def exactI (z : Int) : Exact := ⟨decide (z < 0), z.natAbs, 1, 0⟩

/-- `num / den × 2^(e - q)` as a quotient of naturals. -/
def scaled (x : Exact) (q : Int) : Nat × Nat :=
  if x.e ≥ q then (x.num * 2 ^ (x.e - q).toNat, x.den) else (x.num, x.den * 2 ^ (q - x.e).toNat)

/-- Round the quotient `n / d` of a value of sign `neg` to an integer: the integer and whether it is inexact (R72). -/
def roundQ (rm : Nat) (neg : Bool) (n d : Nat) : Nat × Bool :=
  let q := n / d
  let r := n % d
  if r = 0 then (q, false)
  else
    let up : Bool :=
      match rm with
      | 0 => decide (2 * r > d) || (decide (2 * r = d) && q % 2 == 1)
      | 1 => false
      | 2 => !neg
      | 3 => neg
      | _ => decide (2 * r ≥ d)
    (if up then q + 1 else q, true)

/-- floor(log2 x) of a positive exact value. -/
def floorLog2 (x : Exact) : Int :=
  let g := (Nat.log2 x.num : Int) - Nat.log2 x.den
  let ge : Bool := if g ≥ 0 then decide (x.num ≥ x.den * 2 ^ g.toNat) else decide (x.num * 2 ^ (-g).toNat ≥ x.den)
  (if ge then g else g - 1) + x.e

/-- The rounding mode of results in a class (R73). -/
def rmFor (c : Cls) (frm : Nat) : Nat := if c.isNarrow then 0 else frm

/-- The result on overflow: a magnitude code (R74). -/
def overflowCode (c : Cls) (rm : Nat) (neg : Bool) : Nat :=
  if c.fmt.ieee then
    match rm with
    | 1 => c.maxCode
    | 2 => if neg then c.maxCode else c.infCode
    | 3 => if neg then c.infCode else c.maxCode
    | _ => c.infCode
  else c.maxCode

/-- Round an exact value once to a class, at `p` significant bits (R73, R74; `p` is less than the format's precision for
the estimates of R134 only).  With `sat`, an overflow gives the largest finite value with SAT (R76). -/
def roundFpP (c : Cls) (rm p : Nat) (sat : Bool) (x : Exact) : Nat × Fl :=
  if x.num = 0 then (signed c x.neg 0, 0)
  else
    let f := c.fmt
    let emin : Int := 1 - (f.bias : Int)
    let e0 := floorLog2 x
    let qu := e0 - ((p : Int) - 1)
    let (nu, du) := scaled x qu
    let (ru, _) := roundQ rm x.neg nu du
    let qmin := emin - f.fb
    let q := max qu qmin
    let (nq, dq) := scaled x q
    let (r, inexact) := roundQ rm x.neg nq dq
    -- the code counts quanta of the smallest subnormal at exponent field 1, and normal steps above
    let lift := f.fb + 1 - p
    let code :=
      if q - lift ≤ qmin then r * 2 ^ (q - qmin).toNat
      else (q - lift - qmin).toNat * 2 ^ f.fb + r * 2 ^ lift
    if code > c.maxCode then
      if sat then (signed c x.neg c.maxCode, flSAT ||| flNX)
      else (signed c x.neg (overflowCode c rm x.neg), flOF ||| flNX)
    else
      -- tiny: the unbounded rounding lies below the smallest normal
      let tiny := decide (qu + (Nat.log2 ru : Int) < emin)
      (signed c x.neg code, flIf inexact flNX ||| flIf (tiny && inexact) flUF)

/-- Round an exact value once to a class (R73, R74). -/
def roundFp (c : Cls) (rm : Nat) (sat : Bool) (x : Exact) : Nat × Fl := roundFpP c rm (c.fmt.fb + 1) sat x

/-- The NaN result of a class: the canonical NaN, or +0 with SQ where the format has none (R75). -/
def nanOf (c : Cls) : Nat × Fl := if c.hasNan then (c.canonNan, 0) else (0, flNV ||| flSQ)

/-- An infinity result: the infinity, or the largest finite with OF (R75). -/
def infOf (c : Cls) (neg : Bool) : Nat × Fl :=
  if c.fmt.ieee then (signed c neg c.infCode, 0) else (signed c neg c.maxCode, flOF)

/-- A value rounded once to a class, NaN and infinity by R75. -/
def roundVal (c : Cls) (rm : Nat) (sat : Bool) : FV → Nat × Fl
  | .nan s => let (v, f) := nanOf c; (v, f ||| flIf s flNV)
  | .inf n => infOf c n
  | .fin x => roundFp c rm sat x

/-! ### Exact arithmetic on values.  `none` is an invalid operation or a NaN operand; sums of zeros follow IEEE. -/

/-- The quotient form with one exponent: a signed numerator over `den` at exponent `e`. -/
def Exact.toInt (x : Exact) : Int := if x.neg then -(x.num : Int) else x.num

/-- The exact sum of two finite values; the sign of an exact zero follows the rounding mode (R79). -/
def addExact (rm : Nat) (x y : Exact) : Exact :=
  if x.num = 0 ∧ y.num = 0 then
    ⟨if x.neg = y.neg then x.neg else rm == 3, 0, 1, 0⟩
  else if x.num = 0 then y
  else if y.num = 0 then x
  else
    let e := min x.e y.e
    let a := x.toInt * (2 ^ (x.e - e).toNat * y.den : Nat)
    let b := y.toInt * (2 ^ (y.e - e).toNat * x.den : Nat)
    let s := a + b
    if s = 0 then ⟨rm == 3, 0, 1, 0⟩ else ⟨decide (s < 0), s.natAbs, x.den * y.den, e⟩

/-- The exact product. -/
def mulExact (x y : Exact) : Exact := ⟨x.neg != y.neg, x.num * y.num, x.den * y.den, x.e + y.e⟩

/-- The exact quotient by a non-zero value. -/
def divExact (x y : Exact) : Exact := ⟨x.neg != y.neg, x.num * y.den, x.den * y.num, x.e - y.e⟩

def negExact (x : Exact) : Exact := { x with neg := !x.neg }

/-- Multiply by a power of two, exactly. -/
def shiftExact (x : Exact) (k : Int) : Exact := { x with e := x.e + k }

/-- The sum of two values: `.nan false` where it is invalid (R75); the second part is NV. -/
def addVal (rm : Nat) : FV → FV → FV × Fl
  | .nan a, y => (.nan false, flIf (a || y.isSnan) flNV)
  | .inf _, .nan b => (.nan false, flIf b flNV)
  | .fin _, .nan b => (.nan false, flIf b flNV)
  | .inf a, .inf b => if a = b then (.inf a, 0) else (.nan false, flNV)
  | .inf a, .fin _ => (.inf a, 0)
  | .fin _, .inf b => (.inf b, 0)
  | .fin x, .fin y => (.fin (addExact rm x y), 0)

/-- The sign of a value that is no NaN. -/
def FV.neg : FV → Bool
  | .nan _ => false
  | .inf n => n
  | .fin x => x.neg

def negVal : FV → FV
  | .nan s => .nan s
  | .inf n => .inf (!n)
  | .fin x => .fin (negExact x)

/-- The exact product of two values (R75). -/
def mulVal (x y : FV) : FV × Fl :=
  if x.isNan || y.isNan then (.nan false, flIf (x.isSnan || y.isSnan) flNV)
  else match x, y with
  | .fin a, .fin b => (.fin (mulExact a b), 0)
  | a, b => if a.isZero || b.isZero then (.nan false, flNV) else (.inf (a.neg != b.neg), 0)

/-- The exact quotient of two values, with NV or DZ (R75). -/
def divVal (x y : FV) : FV × Fl :=
  if x.isNan || y.isNan then (.nan false, flIf (x.isSnan || y.isSnan) flNV)
  else match x, y with
  | .inf _, .inf _ => (.nan false, flNV)
  | .inf a, b => (.inf (a != b.neg), 0)
  | a, .inf b => (.fin ⟨a.neg != b, 0, 1, 0⟩, 0)
  | .fin a, .fin b =>
    if b.num = 0 then
      if a.num = 0 then (.nan false, flNV) else (.inf (a.neg != b.neg), flDZ)
    else (.fin (divExact a b), 0)
  | _, _ => (.nan false, 0)

/-- Round a value with the flags of the operation that made it. -/
def finish (c : Cls) (rm : Nat) (r : FV × Fl) : Nat × Fl :=
  let (v, f) := roundVal c rm false r.1
  (v, f ||| r.2)

/-- The order of two exact values: their difference's sign, with -0 equal to +0. -/
def cmpExact (x y : Exact) : Ordering :=
  let e := min x.e y.e
  let a := x.toInt * (2 ^ (x.e - e).toNat * y.den : Nat)
  let b := y.toInt * (2 ^ (y.e - e).toNat * x.den : Nat)
  compare a b

/-- The order of two values that are no NaN. -/
def cmpVal : FV → FV → Ordering
  | .inf a, .inf b => if a = b then .eq else if a then .lt else .gt
  | .inf a, _ => if a then .lt else .gt
  | _, .inf b => if b then .gt else .lt
  | .fin x, .fin y => cmpExact x y
  | _, _ => .eq

/-- The minimum or maximum of two codes of a class under R75: -0 is smaller than +0. -/
def minMaxFp (c : Cls) (isMax : Bool) (x y : Nat) : Nat × Fl :=
  let a := fpVal c x
  let b := fpVal c y
  let nv := flIf (a.isSnan || b.isSnan) flNV
  if a.isNan && b.isNan then (c.canonNan, nv)
  else if a.isNan then (y, nv)
  else if b.isNan then (x, nv)
  else
    let xSmaller : Bool :=
      match cmpVal a b with
      | .lt => true
      | .gt => false
      | .eq => a.neg || !b.neg
    (if xSmaller != isMax then x else y, nv)

/-! ### Roots and powers for R134 -/

/-- The integer square root, bit by bit from `2^k`. -/
def isqrtFrom (n : Nat) : Nat → Nat → Nat
  | 0, r => if (r + 1) * (r + 1) ≤ n then r + 1 else r
  | k + 1, r => let r' := r + 2 ^ (k + 1); isqrtFrom n k (if r' * r' ≤ n then r' else r)

def isqrt (n : Nat) : Nat := isqrtFrom n (Nat.log2 n / 2 + 1) 0

/-- An exact value with a sticky bit: `2r + 1` when the remainder is not zero, so that every rounding to fewer bits agrees
with that of the true value. -/
def sticky (neg : Bool) (r : Nat) (exact : Bool) (e : Int) : Exact := ⟨neg, if exact then 2 * r else 2 * r + 1, 1, e - 1⟩

/-- The square root of a non-negative exact value with `den = 1`, to 64 bits and sticky. -/
def sqrtExact (x : Exact) : Exact :=
  if x.num = 0 then x
  else
    let odd := x.e % 2 != 0
    let n0 := if odd then 2 * x.num else x.num
    let e0 := if odd then x.e - 1 else x.e
    let n := n0 * 2 ^ 128
    let r := isqrt n
    sticky false r (r * r == n) (e0 / 2 - 64)

/-- 1/√x of a positive exact value with `den = 1`, to at least 64 bits and sticky. -/
def rsqrtExact (x : Exact) : Exact :=
  let odd := x.e % 2 != 0
  let n0 := if odd then 2 * x.num else x.num
  let e0 := if odd then x.e - 1 else x.e
  let k := 128 + Nat.log2 n0
  let s := 2 ^ (2 * k) / n0
  let r := isqrt s
  sticky false r (r * r == s && 2 ^ (2 * k) % n0 == 0) (-(e0 / 2) - k)

/-- Fixed-point precision of `exp2Exact`. -/
def expBits : Nat := 256

/-- ln 2 × 2^256, from the series of 1 / (k 2^k). -/
def ln2Fixed : Nat → Nat
  | 0 => 0
  | k + 1 => ln2Fixed k + 2 ^ expBits / ((k + 1) * 2 ^ (k + 1))

/-- The terms t^k / k! of the exponential series. -/
def expSeries (t : Nat) : Nat → Nat → Nat → Nat
  | 0, _, _ => 0
  | n + 1, k, term => term + expSeries t n (k + 1) (term * t / (2 ^ expBits * (k + 1)))

/-- 2^x of an exact value with `den = 1`: exact for an integer, else sticky (no rational power is a midpoint). -/
def exp2Exact (x : Exact) : Exact :=
  let z := x.toInt
  let n : Int := if x.e ≥ 0 then z * (2 ^ (min x.e 16).toNat : Nat) else z / (2 ^ (-x.e).toNat : Nat)
  let n := max (-1000) (min 1000 n)
  let frac : Nat := if x.e ≥ 0 then 0 else (z % (2 ^ (-x.e).toNat : Nat)).toNat
  if frac = 0 then ⟨false, 1, 1, n⟩
  else
    let f := frac * 2 ^ expBits / 2 ^ (-x.e).toNat
    let t := f * ln2Fixed 264 / 2 ^ expBits
    sticky false (expSeries t 80 0 (2 ^ expBits)) false (n - expBits)

/-! ### Conversions (R76) -/

/-- Floating point to floating point. -/
def cvtFpFp (s t : Cls) (frm : Nat) (sat : Bool) (code : Nat) : Nat × Fl :=
  match fpVal s code with
  | .nan sn =>
    if (s = .fp16 ∨ s = .bf16) ∧ t = .fp32 then
      let fr := field code 0 s.fmt.fb * 2 ^ (23 - s.fmt.fb)
      let quiet := if bitOf fr 22 then fr else fr + 2 ^ 22
      (signed .fp32 (bitOf code 15) (0x7F800000 + quiet), flIf sn flNV)
    else let (v, f) := nanOf t; (v, f ||| flIf sn flNV)
  | .inf n => infOf t n
  | .fin x => roundFp t (rmFor t frm) sat x

/-- The bounds of an integer format (R71). -/
def intMin (isSigned : Bool) (w : Nat) : Int := if isSigned then -((2 ^ (w - 1) : Nat) : Int) else 0

def intMax (isSigned : Bool) (w : Nat) : Int := if isSigned then (2 ^ (w - 1) : Nat) - 1 else (2 ^ w : Nat) - 1

/-- Floating point to an integer format. -/
def cvtFpInt (s : Cls) (isSigned : Bool) (w frm : Nat) (code : Nat) : Nat × Fl :=
  match fpVal s code with
  | .nan _ => (0, flNV)
  | .inf n => (wrapI w (if n then intMin isSigned w else intMax isSigned w), flNV)
  | .fin x =>
    let (n, d) := scaled x 0
    let (q, inexact) := roundQ frm x.neg n d
    let z : Int := if x.neg then -(q : Int) else q
    if z < intMin isSigned w then (wrapI w (intMin isSigned w), flNV)
    else if z > intMax isSigned w then (wrapI w (intMax isSigned w), flNV)
    else (wrapI w z, flIf inexact flNX)

/-- An integer to floating point. -/
def cvtIntFp (t : Cls) (frm : Nat) (sat : Bool) (z : Int) : Nat × Fl := roundFp t (rmFor t frm) sat (exactI z)

/-- Clamp to the range of an integer format, with SAT when it changes the value (R71). -/
def clampInt (isSigned : Bool) (w : Nat) (z : Int) : Nat × Fl :=
  if z < intMin isSigned w then (wrapI w (intMin isSigned w), flSAT)
  else if z > intMax isSigned w then (wrapI w (intMax isSigned w), flSAT)
  else (wrapI w z, 0)

/-- An integer to an integer format. -/
def cvtIntInt (isSigned : Bool) (w : Nat) (sat : Bool) (z : Int) : Nat × Fl :=
  if sat then clampInt isSigned w z else (wrapI w z, 0)

end Sys2Proof.Machine
end

