-- ==== Sys2Proof/Machine/Ops.lean ====
section
/-! DEFINITION. Named operations over registers, VLCs, gangs and cores; the flow of the pc through strip loops
(spec/05 R146, R147); taking a fault and returning from one (spec/13 R363 to R367). -/

namespace Sys2Proof.Machine

abbrev Out := Host.Outcome State Fault Refusal

/-- A fault before it is tied to an instruction: code, address and FAULTE (R362). -/
structure Trap where
  code : BitVec 8
  va : Word
  info : Word
deriving DecidableEq, Repr

/-! ### Fault codes (R362) -/

def fcILLEGAL : BitVec 8 := 0x01
def fcPRIV : BitVec 8 := 0x02
def fcFIELD : BitVec 8 := 0x03
def fcOVERLAP : BitVec 8 := 0x04
def fcGROUP_ALIGN : BitVec 8 := 0x05
def fcVTYPE : BitVec 8 := 0x06
def fcXLATE : BitVec 8 := 0x10
def fcPROT : BitVec 8 := 0x11
def fcALIGN : BitVec 8 := 0x12
def fcORDMIX : BitVec 8 := 0x13
def fcPOISON : BitVec 8 := 0x14
def fcBUS : BitVec 8 := 0x15
def fcSTALE_PLAN : BitVec 8 := 0x20
def fcPLAN_SLOT : BitVec 8 := 0x21
def fcPLAN_FORM : BitVec 8 := 0x22
def fcPLAN_LIMIT : BitVec 8 := 0x23
def fcROT_TAG : BitVec 8 := 0x30
def fcSEED_VER : BitVec 8 := 0x31
def fcTID : BitVec 8 := 0x32
def fcSHAPE : BitVec 8 := 0x33
def fcSPAWN_OVF : BitVec 8 := 0x40
def fcQUEUE : BitVec 8 := 0x41
def fcWATCHDOG : BitVec 8 := 0x50
def fcTRAP : BitVec 8 := 0x60
def fcBREAK : BitVec 8 := 0x61

/-- A trap with no address. -/
def trapInfo (code : BitVec 8) (info : Nat) : Trap := ⟨code, 0, BitVec.ofNat 64 info⟩

/-- A trap with an address and FAULTE. -/
def trapAt (code : BitVec 8) (va : Word) (info : Nat) : Trap := ⟨code, va, BitVec.ofNat 64 info⟩

/-! ### Scalar registers (R51, R92) -/

/-- The absolute scalar register of a field under a WINS code (R51). -/
def xNum (wins : Fin 5) (f : Fld) : Nat := if f.toNat < 32 then f.toNat else f.toNat + 32 * wins.val

/-- The absolute vector name of a field under a WINV code (R51). -/
def vNum (winv : Fin 3) (f : Fld) : Nat := f.toNat + 64 * winv.val

/-- Read an absolute scalar register: x0 reads as zero. -/
def Vlc.getX (v : Vlc) (n : Nat) : Word := if n = 0 then 0 else v.x[n]?.getD 0

/-- Write an absolute scalar register: a write to x0 is discarded. -/
def Vlc.setX (v : Vlc) (n : Nat) (w : Word) : Vlc :=
  if n = 0 then v else { v with x := v.x.setIfInBounds n w }

/-- Read through a field. -/
def Vlc.rx (v : Vlc) (f : Fld) : Word := v.getX (xNum v.wins f)

/-- Write through a field. -/
def Vlc.wx (v : Vlc) (f : Fld) (w : Word) : Vlc := v.setX (xNum v.wins f) w

/-! ### Cores, gangs, queues, dies -/

def State.core (s : State) (c : Nat) : CoreSt := Tab.get CoreSt.reset s.cores c

def State.setCore (s : State) (c : Nat) (k : CoreSt) : State := { s with cores := Tab.set CoreSt.reset s.cores c k }

def State.modCore (s : State) (c : Nat) (f : CoreSt → CoreSt) : State := s.setCore c (f (s.core c))

/-- Change every core. -/
def State.mapCores (s : State) (f : Nat → CoreSt → CoreSt) : State := { s with cores := Tab.mapAll CoreSt.reset s.cores f }

/-- A gang with nothing placed, for a VLC that no gang holds. -/
def Gang.blank : Gang where
  id := 0
  node := 0
  queue := 0
  die := 0
  cluster := 0
  cores := []
  lsBase := []
  tenant := 0
  gangid := 0
  shape := 0
  firmware := false
  ss := Vector.replicate 8 0
  ssv := Vector.replicate 8 0
  hbwin := 31
  wdog := 0
  arrive := Vector.replicate 8 0
  exited := 0
  members := 0
  tids := []
  st := .resident
  awaits := []
  pool := none
  killed := false
  wantSave := false
  savedVlcs := []
  savedLs := []
  savedFe := []
  savedAcc := []

def State.findGang (s : State) (g : Nat) : Option Gang := s.gangs.find? fun x => x.id == g

/-- The gang of an identifier, blank where there is none. -/
def State.gangOf (s : State) (g : Nat) : Gang := (s.findGang g).getD Gang.blank

/-- The gang of the VLC whose turn it is. -/
def State.gang (s : State) : Gang := s.gangOf s.vlc.gang

def State.modGang (s : State) (g : Nat) (f : Gang → Gang) : State :=
  { s with gangs := s.gangs.map fun x => if x.id = g then f x else x }

def State.queue (s : State) (q : Nat) : QueuePage := Tab.get QueuePage.reset s.queues q

def State.setQueue (s : State) (q : Nat) (p : QueuePage) : State := { s with queues := Tab.set QueuePage.reset s.queues q p }

def State.modQueue (s : State) (q : Nat) (f : QueuePage → QueuePage) : State := s.setQueue q (f (s.queue q))

def State.die (s : State) (d : Nat) : Die := s.dies[d]?.getD Die.reset

def State.modDie (s : State) (d : Nat) (f : Die → Die) : State := { s with dies := s.dies.setIfInBounds d (f (s.die d)) }

def State.landauOf (s : State) (d : Nat) : Landau := s.landau[d]?.getD Landau.reset

def State.modLandau (s : State) (d : Nat) (f : Landau → Landau) : State :=
  { s with landau := s.landau.setIfInBounds d (f (s.landauOf d)) }

/-- The counters of a queue on a die (R356). -/
def State.perfOf (s : State) (d q : Nat) : QueuePerf := Tab.get QueuePerf.reset s.perf (q * 4 + d)

def State.modPerf (s : State) (d q : Nat) (f : QueuePerf → QueuePerf) : State :=
  { s with perf := Tab.mod QueuePerf.reset s.perf (q * 4 + d) f }

/-- LO stores of a queue that the queues of a die dropped (R353). -/
def QueuePerf.lodrop (p : QueuePerf) : Nat := p.dropXbar + p.dropSeam + p.dropCoupling + p.dropHome

/-- A transit queue dropped an LO store: the counts tell the kinds of queue apart (R263, R422). -/
def countDrop (place : LoPlace) (p : QueuePerf) : QueuePerf :=
  match place with
  | .xbar _ _ => { p with dropXbar := p.dropXbar + 1 }
  | .seam _ _ => { p with dropSeam := p.dropSeam + 1 }
  | .coupling _ => { p with dropCoupling := p.dropCoupling + 1 }
  | .home => { p with dropHome := p.dropHome + 1 }

/-- A fenced function (R386). -/
def State.isFenced (s : State) (d kind idx : Nat) : Bool := s.fenced.contains (d, kind, idx)

/-- Fields of a queue's PRIO and CFG (R316). -/
def QueuePage.pri (q : QueuePage) : Nat := field q.prio.toNat 0 3
def QueuePage.weight (q : QueuePage) : Nat := field q.prio.toNat 8 8
def QueuePage.age (q : QueuePage) : Nat := field q.prio.toNat 16 6
def QueuePage.tenant (q : QueuePage) : BitVec 12 := BitVec.ofNat 12 (field q.cfg.toNat 0 12)
def QueuePage.ways (q : QueuePage) : Nat := field q.cfg.toNat 12 3
def QueuePage.origin (q : QueuePage) : Nat := field q.cfg.toNat 16 2

/-- Fields of a gang shape (R319). -/
def shapeCores (sh : BitVec 18) : Nat := field sh.toNat 0 4
def shapeContexts (sh : BitVec 18) : Nat := field sh.toNat 4 3
def shapeLs (sh : BitVec 18) : Nat := field sh.toNat 8 6 * 16384
def shapeFused (sh : BitVec 18) : Bool := sh.getLsbD 16
def shapeMatrix (sh : BitVec 18) : Bool := sh.getLsbD 17

/-! ### VLCs -/

def State.vlcs (s : State) : List Vlc := s.vlc :: s.others

/-- Change every VLC. -/
def State.mapVlcs (s : State) (f : Vlc → Vlc) : State := { s with vlc := f s.vlc, others := s.others.map f }

/-- Change the VLC whose turn it is. -/
def State.modVlc (s : State) (f : Vlc → Vlc) : State := { s with vlc := f s.vlc }

/-- Change the VLC in a slot of a core. -/
def State.modVlcAt (s : State) (core slot : Nat) (f : Vlc → Vlc) : State :=
  s.mapVlcs fun v => if v.core = core ∧ v.slot = slot ∧ v.status ≠ .absent then f v else v

def State.findVlc (s : State) (core slot : Nat) : Option Vlc :=
  s.vlcs.find? fun v => v.core == core && v.slot == slot && v.status != .absent

/-- The VLCs of a gang. -/
def State.gangVlcs (s : State) (g : Nat) : List Vlc := s.vlcs.filter fun v => v.gang == g && v.status != .absent

/-! ### The pc and strip loops (R146, R147) -/

/-- VLMAX under a VTYPE (R121). -/
def vlmaxOf (t : Vtype) : Nat := min 4096 (2 ^ t.grp.val * 2048 / t.sew.bits)

/-- Hand out the next strip, or leave the loop at the word after the body. -/
def handOut (v : Vlc) (l : Loop) : Vlc :=
  let rem := v.vrem.toNat
  if rem = 0 then { v with loop := none, pc := l.start + BitVec.ofNat 64 (4 * l.len) }
  else
    let m := vlmaxOf v.vt
    let vl := if l.balanced then ceilDiv rem (ceilDiv rem m) else min rem m
    { v with vl := vl, pc := l.start, loop := some { l with handed := vl } }

/-- A strip ends: VIDX and VREM advance by the length handed out. -/
def stripEnd (v : Vlc) (l : Loop) : Vlc :=
  handOut { v with vidx := v.vidx + BitVec.ofNat 64 l.handed, vrem := v.vrem - BitVec.ofNat 64 l.handed }
    { l with strip := l.strip + 1 }

/-- Continue at a target: in a strip loop, outside handler state, the word after the body ends the strip and any other
address outside the body ends the loop (R147, R367). -/
def Vlc.goto (v : Vlc) (t : Word) : Vlc :=
  match v.loop, v.inHandler with
  | some l, false =>
    let stop := l.start + BitVec.ofNat 64 (4 * l.len)
    if t = stop then stripEnd v l
    else if (t - l.start).toNat < 4 * l.len then { v with pc := t }
    else { v with pc := t, loop := none }
  | _, _ => { v with pc := t }

/-- A PC from a value that may have bits [1:0] set: the PC is always a multiple of 4, so they are cleared (R47; assumption 60,
DESIGN CHOICE). -/
def alignPc (w : Word) : Word := w &&& ~~~3

/-- Continue at the next word. -/
def Vlc.next (v : Vlc) : Vlc := v.goto (v.pc + 4)

/-! ### Records for the host (R368, R369) -/

/-- A fault record without SEQ, VALID and context fields (R369). -/
def faultRecord (f : FaultInfo) (vstart : Nat) (gangid : Word) (tenant : BitVec 12) (core slot : Nat)
    (producer : BitVec 12) (node src : Nat) (hs : Bool) (body : BitVec 512) : BitVec 1024 :=
  BitVec.ofNat 1024 (
    (f.code.toNat + if f.vec then 256 else 0) * 2 ^ 32 + (if hs then 2 ^ 59 else 0) + src * 2 ^ 60
    + node % 65536 * 2 ^ 64 + producer.toNat * 2 ^ 80 + slot % 4 * 2 ^ 92 + coreIdent core * 2 ^ 94
    + tenant.toNat * 2 ^ 104 + gangid.toNat * 2 ^ 128 + vstart % 8192 * 2 ^ 192 + field f.pc.toNat 0 56 * 2 ^ 256
    + f.va.toNat * 2 ^ 320 + f.info.toNat * 2 ^ 384 + body.toNat * 2 ^ 512)

/-- Queue a record for posting: it takes the queue's next sequence number (R368). -/
def State.addRecord (s : State) (q : Nat) (image : BitVec 1024) (gang op : Option Nat) : State × Nat :=
  let n := (s.queue q).seq
  let image := image ||| BitVec.ofNat 1024 (n % 2 ^ 32 + 2 ^ 63)
  ({ (s.modQueue q fun p => { p with seq := p.seq + 1 }) with
      pendRecs := s.pendRecs ++ [⟨q, n, image, gang, op⟩] }, n)

/-- The node of an identifier. -/
def State.findNode (s : State) (n : Nat) : Option Node := s.nodes.find? fun x => x.id == n

/-! ### Taking a fault (R363, R364, R378) -/

/-- Whether a fault goes to the host: a stage-2 translation fault, or HANDLER.EN = 0 (R363). -/
def goesToHost (v : Vlc) (f : FaultInfo) : Bool :=
  !v.handlerEn || ((f.code == fcXLATE || f.code == fcPROT) && field f.info.toNat 2 2 == 2)

/-- The fault registers a fault writes (R108). -/
def faultRegsOf (f : FaultInfo) : FaultRegs :=
  ⟨BitVec.ofNat 9 (f.code.toNat + if f.vec then 256 else 0), f.va, BitVec.ofNat 56 f.pc.toNat, f.info⟩

/-- Whether execution continues after the instruction once the fault is served (R117). -/
def afterCode (c : BitVec 8) : Bool := c == fcTRAP || c == fcBREAK

/-- Delivery to the handler of the VLC (R364). -/
def enterHandler (v : Vlc) (f : FaultInfo) : Vlc :=
  { v with
    faultRegs := faultRegsOf f
    handlerEn := false
    inHandler := true
    status := .running
    queuedWait := false
    dvec := f.vec
    dcode := f.code
    rpc := if f.vec then v.pc else f.pc + (if afterCode f.code then 4 else 0)
    pc := v.handlerPc.zeroExtend 64 <<< 2 }

/-- A fault to the host: the VLC is suspended and its gang halts (R363, R378).  After TRAP and BREAK the VLC continues
behind the instruction (R117). -/
def suspendToHost (s : State) (f : FaultInfo) : State :=
  let v := s.vlc
  let g := s.gang
  let node := ((s.findNode g.node).map (·.idx)).getD 0xFFFF
  let image := faultRecord f v.vstart.toNat g.gangid g.tenant v.core v.slot (BitVec.ofNat 12 v.core) node 0 v.inHandler 0
  let v := { v with faultRegs := faultRegsOf f, status := .suspended }
  let v := if afterCode f.code && !f.vec then v.next else v
  let (s, n) := ({ s with vlc := v } : State).addRecord g.queue image (some v.gang) none
  s.modGang v.gang fun g => { g with
    awaits := g.awaits ++ [n]
    st := match g.st with
      | .resident => .halting .fault
      | st => st }

/-- A POISON fault is counted by the die of the core that raises it (R355). -/
def countPoisonFault (s : State) (code : BitVec 8) (die : Nat) : State :=
  if code = fcPOISON then s.modDie die fun x => { x with uncorrectable := x.uncorrectable + 1 } else s

/-- The halt of a gang comes before a fault of this step: the fault is recorded and delivered on resume (R32; assumption 34). -/
def haltFirst (s : State) : Bool :=
  match s.gang.st with
  | .halting _ => Config.haltWins s.tick
  | _ => false

/-- Deliver a fault to the VLC whose turn it is. -/
def deliverFault (s : State) (f : FaultInfo) : State :=
  let s := countPoisonFault s f.code (coreDie s.vlc.core)
  if goesToHost s.vlc f then suspendToHost s f else { s with vlc := enterHandler s.vlc f }

/-- Take a fault at the VLC whose turn it is. -/
def takeFault (s : State) (f : FaultInfo) : State :=
  if haltFirst s then s.modVlc fun v => { v with pendFault := some f } else deliverFault s f

/-- A fault of the scalar unit at the pc, VEC = 0. -/
def scalarFault (s : State) (t : Trap) : State :=
  takeFault s ⟨t.code, false, BitVec.ofNat 56 t.va.toNat, s.vlc.pc, t.info⟩

/-- A fault of an entry of the vector half (R41). -/
def vectorFault (s : State) (e : VEntry) (t : Trap) : State :=
  takeFault s ⟨t.code, true, BitVec.ofNat 56 t.va.toNat, e.pc, t.info⟩

/-- The return from handler state: the frozen entries go on, and the pc is that of R366. -/
def leaveHandler (v : Vlc) : Vlc :=
  let t := if v.dvec then v.rpc
    else alignPc (v.faultRegs.pc.zeroExtend 64) + (if afterCode v.dcode then 4 else 0)
  ({ v with inHandler := false } : Vlc).goto t

/-! ### Endings of an instruction of the scalar unit -/

/-- The result of a scalar instruction: the new state, or a fault at the pc. -/
abbrev Res := Except Trap State

/-- The state after a scalar instruction. -/
def finishScalar (s : State) : Res → Out
  | .ok t => .next t
  | .error e => .next (scalarFault s e)

/-- Write x[D] and go on to the next word. -/
def State.retire (s : State) (d : Fld) (w : Word) : State := s.modVlc fun v => (v.wx d w).next

/-- Go on to the next word. -/
def State.pass (s : State) : State := s.modVlc Vlc.next

/-! ### Sequence numbers of LO stores (R349) -/

/-- Take the next sequence number of a VLC of a core. -/
def takeSeq (s : State) : State × BitVec 32 :=
  let q := (s.core s.vlc.core).q
  let n := min (max q.toNat s.vlc.pseq.toNat + 1) 0xFFFFFFFF
  let w := BitVec.ofNat 32 n
  ((s.modVlc fun v => { v with pseq := w }).modCore s.vlc.core fun c => { c with q := w }, w)

/-- A progress event of a gang sets its watchdog count to 0 (R358). -/
def State.progress (s : State) (g : Nat) : State := s.modGang g fun x => { x with wdog := 0 }

/-! ### Events to the host (R382, R395) -/

/-- Send an MSI-X message over the module of a die. -/
def State.sendMsix (s : State) (d vec : Nat) : State := { s with msix := s.msix ++ [(d, vec)] }

/-- Write an event record, and send vector 2,047 (R395). -/
def State.postEvent (s : State) (d kind fkind idx : Nat) : State :=
  let r : BitVec 256 := BitVec.ofNat 256 (kind + fkind * 2 ^ 8 + idx * 2 ^ 16 + (s.die d).cycles % 2 ^ 64 * 2 ^ 64)
  (s.modDie d fun x => { x with
    ring := (x.ring ++ [r]).drop (x.ring.length + 1 - 64)
    evOver := x.evOver || x.evHead - x.evTail ≥ 64
    evHead := x.evHead + 1 }).sendMsix d 2047

/-- Count newly poisoned words of a die, and post the threshold event of R395. -/
def State.countLatent (s : State) (d q fkind idx : Nat) : State :=
  let s := (s.modDie d fun x => { x with latent := x.latent + 1 }).modPerf d q fun p => { p with latent := p.latent + 1 }
  let thr := (s.die d).lpthr.toNat
  if thr ≠ 0 ∧ (s.die d).latent % thr = 0 then s.postEvent d 5 fkind idx else s

end Sys2Proof.Machine
end

