-- ==== Sys2Proof/Machine/Home.lean ====
section
/-! DEFINITION. The homes of memory: writes performed at a home and what they wake and mark (spec/07 R196, R199;
spec/10 R302; spec/12 R346, R348), the L1s (R193, R194, R221, R222), releases and acquires (spec/09 R260, R261), and
latest-only stores (R262 to R265). -/

namespace Sys2Proof.Machine

/-! ### L2 lines (R197, R198) -/

/-- The ways that a queue may fill. -/
def wayAllowed (ways w : Nat) : Bool := bitOf ways (w / 4)

def rclRank : Rcl → Nat
  | .stream => 0 | .normal => 1 | .keep => 2

/-- A held line lies in the set that a line has at its slice of a die.  A replica lies in the slice and the set of its address
(R187, R205; assumption 54, DEDUCED). -/
def inSet (die line : Nat) (l : L2Line) : Bool :=
  l.die == die && homeSlice (l.line * 128) == homeSlice (line * 128) && homeSet (l.line * 128) == homeSet (line * 128)

/-- The way groups of a queue as ways. -/
def queueWays (ways : Nat) : List Nat := (List.range 12).filter (wayAllowed ways)

/-- The line that was used least recently. -/
def leastRecent (ls : List L2Line) : Option L2Line :=
  ls.foldl (fun (b : Option L2Line) l =>
    match b with
    | none => some l
    | some x => if l.stamp < x.stamp then some l else some x) none

/-- The victim way of a fill: an invalid way, else the least recently used line of the lowest class (R197). -/
def victimWay (ls : List L2Line) (ways : Nat) : Option Nat :=
  match (queueWays ways).find? fun w => ls.all fun l => l.way != w with
  | some w => some w
  | none =>
    let cands := ls.filter fun l => wayAllowed ways l.way && l.pins.isEmpty
    let pick (c : Rcl) : Option L2Line := leastRecent (cands.filter fun l => l.cls == c)
    (((pick .stream).or (pick .normal)).or (pick .keep)).map (·.way)

/-- At most half of the ways a queue may fill hold class keep: of the lines in those ways demote the least recently used keep line (R197;
assumption 92, DEDUCED). -/
def demoteKeep (ls : List L2Line) (die line ways : Nat) : List L2Line :=
  let keeps := ls.filter fun l => inSet die line l && wayAllowed ways l.way && l.cls == .keep
  if keeps.length < (queueWays ways).length / 2 then ls
  else
    match leastRecent keeps with
    | none => ls
    | some k => ls.map fun l => if l = k then { l with cls := .normal } else l

/-- The slice of a die holds the line of an address. -/
def l2Holds (s : State) (die pa : Nat) : Bool := s.l2.any fun l => l.die == die && l.line == pa / 128

/-- Touch the line of an address at its slice of a die: a hit keeps its class; a miss is counted and, but for the accesses that do
not allocate and where every way is pinned, fills a way (R197, R198, R221, R356). -/
def touchL2 (s : State) (die pa q : Nat) (cls : Rcl) (alloc : Bool) : State :=
  let line := pa / 128
  if l2Holds s die pa then
    { s with l2 := s.l2.map fun l => if l.die = die ∧ l.line = line then { l with stamp := s.tick } else l }
  else
    let s := s.modPerf die q fun p => { p with l2miss := p.l2miss + 1 }
    if !alloc || s.isFenced die 2 (homeSlice pa) then s
    else
      let ways := (s.queue q).ways
      let l2 := if cls = .keep then demoteKeep s.l2 die line ways else s.l2
      match victimWay (l2.filter (inSet die line)) ways with
      | none => s
      | some w => { s with
          l2 := (l2.filter fun l => !(inSet die line l && l.way == w)) ++ [⟨die, line, w, cls, [], s.tick, 0, 0⟩] }

/-! ### Page modes (R205 to R207, R354) -/

/-- Count a remote access to a line of a page that reaches its home. -/
def countRemote (s : State) (pa die q : Nat) (write : Bool) : State :=
  if homeDie pa = die then s
  else { s with modes := Tab.mod PageMode.reset s.modes (pa / 65536) fun m =>
    if write then { m with rw := min (m.rw + 1) 0xFFFF, queue := q }
    else { m with rr := min (m.rr + 1) 0xFFFF, queue := q } }

/-- The replicas of a page are invalidated (R207). -/
def dropReplicas (s : State) (page : Nat) : State :=
  { s with l2 := s.l2.filter fun l => l.line / 512 != page || l.die == homeDie (l.line * 128) }

/-- The home die gives a page a mode: a change counts for the queue of its latest remote access, and a page that turns memory-side
loses its replicas (R207, R354). -/
def changeMode (s : State) (page : Nat) (m : PageMode) : State :=
  let old := Tab.get PageMode.reset s.modes page
  let s := { s with modes := Tab.set PageMode.reset s.modes page m }
  if m.replicated = old.replicated then s
  else
    let s := s.modPerf (page % 4) old.queue fun p => { p with pmchg := p.pmchg + 1 }
    if m.replicated then s else dropReplicas s page

/-- An SO or LO access to a page: the page is memory-side from then on (R205). -/
def noteSo (s : State) (pa : Nat) (so : Bool) : State :=
  if so then
    changeMode s (pa / 65536) { Tab.get PageMode.reset s.modes (pa / 65536) with so := true, replicated := false }
  else s

/-- An access of a party of a die to a line reaches the home slice; `so`: an SO or LO access. -/
def reachHome (s : State) (pa die q : Nat) (write so alloc : Bool) (cls : Rcl) : State :=
  if placeOf pa = .device then countRemote (touchL2 (noteSo s pa so) (homeDie pa) pa q cls alloc) pa die q write else s

/-- A read of a line by a party of a die: a replica held by the die serves it, else the home slice does, and the die keeps a
replica of a line in a replicated page (R205, R206). -/
def readReach (s : State) (pa die q : Nat) (so : Bool) (cls : Rcl) : State :=
  let rep := !so && placeOf pa == .device && homeDie pa != die && (Tab.get PageMode.reset s.modes (pa / 65536)).replicated
  if rep && l2Holds s die pa then touchL2 s die pa q cls true
  else
    let s := reachHome s pa die q false so true cls
    if rep then touchL2 s die pa q cls true else s

/-! ### Writes performed at a home -/

/-- Copy a page to the checkpoint sink, once (R401). -/
def copyPage (s : State) (c : Ckpt) (page : Nat) : State :=
  let dst := hostAddr c.sink + page * 65536
  let cells := s.mem.filter fun x => x.1 / 65536 == page
  let cleared := s.mem.filter fun x => decide (x.1 < dst) || decide (dst + 65536 ≤ x.1)
  { s with mem := cells.foldl (fun m x => memSetByte m (dst + x.1 % 65536) x.2) cleared }

/-- A write to a page not yet copied waits until the page is copied first (R401). -/
def copyFirst (s : State) (pa : Nat) : State :=
  match s.ckpt with
  | none => s
  | some c =>
    let page := pa / 65536
    if page < c.page ∨ c.early.contains page ∨ placeOf pa ≠ .device then s
    else { copyPage s c page with ckpt := some { c with early := page :: c.early } }

/-- Copy the pages of a range of bytes first. -/
def copyPages (s : State) (pa n : Nat) : State :=
  (List.range (if n = 0 then 0 else (pa + n - 1) / 65536 - pa / 65536 + 1)).foldl (fun s k => copyFirst s ((pa / 65536 + k) * 65536)) s

/-- A 32-byte sector is wholly covered by a write. -/
def coversSector (pa n sec : Nat) : Bool := decide (pa ≤ sec * 32) && decide (sec * 32 + 32 ≤ pa + n)

/-- Mark the plans that watch a line stale (R302). -/
def markStale (s : State) (core slot plan : Nat) : State :=
  s.modVlcAt core slot fun v =>
    match (v.plans.find? fun x => x.1 == plan).map (·.2) with
    | some p => if p.st = 2 then { v with plans := v.plans.map fun x => if x.1 = plan then (x.1, { p with st := 3 }) else x }
      else v
    | none => v

def markWatched (s : State) (pa n : Nat) : State :=
  (s.watches.filter fun w => decide (pa < w.line * 128 + 128) && decide (w.line * 128 < pa + n)).foldl
    (fun s w => markStale s w.core w.slot w.plan) s

/-- Whether a counter wait is satisfied by memory. -/
def waitMet (m : List Host.Cell) : Wait → Bool
  | .counter pa thr _ => decide (thr.toNat ≤ memRead m pa 8)
  | .progress pa thr _ => decide (thr.toNat ≤ memRead m pa 8)
  | _ => false

/-- Evaluate the counter waits queued on the dwords of a write (R346). -/
def wakeCounters (s : State) (pa n : Nat) : State :=
  s.mapVlcs fun v =>
    match v.status with
    | .waiting (.counter p t sc) =>
      if pa < p + 8 ∧ p < pa + n ∧ waitMet s.mem (.counter p t sc) then { v with status := .satisfied (.counter p t sc) } else v
    | _ => v

/-- The mask of `n` bytes from offset `o` of a line. -/
def lineMask (o n : Nat) : BitVec 128 := BitVec.ofNat 128 ((2 ^ n - 1) * 2 ^ o)

/-- A line of the L2 that newly merged bytes make dirty: what memory held below them (R196, R245). -/
def keepUnder (m : List Host.Cell) (l : L2Line) (mask : BitVec 128) : L2Line :=
  { l with
    dirty := l.dirty ||| mask
    under := BitVec.ofNat 1024 ((List.range 128).foldl (fun (u : Nat) k =>
      if mask.getLsbD k && !l.dirty.getLsbD k then setField u (8 * k) 8 (memByte m (l.line * 128 + k)).toNat else u) l.under.toNat) }

/-- Bytes are about to merge into a line at its home: its replicas are invalidated first (R206). -/
def mergeL2 (s : State) (line : Nat) (mask : BitVec 128) : State :=
  if s.l2.any fun l => l.line == line then
    { s with l2 := (s.l2.filter fun l => l.line != line || l.die == homeDie (line * 128)).map fun l =>
        if l.line = line then keepUnder s.mem l mask else l }
  else s

/-- The lines of a range of bytes, each with the mask of the bytes that lie in the range. -/
def rangeMasks (pa n : Nat) : List (Nat × BitVec 128) :=
  (List.range (if n = 0 then 0 else (pa + n - 1) / 128 - pa / 128 + 1)).map fun k =>
    let line := pa / 128 + k
    let lo := max pa (line * 128)
    (line, lineMask (lo - line * 128) (min (pa + n) (line * 128 + 128) - lo))

/-- A write of bytes performed at the home of a device or host address (R254, R302, R346, R199). -/
def homeWrite (s : State) (pa : Nat) (bs : List Byte) : State :=
  let s := copyPages s pa bs.length
  let s := if placeOf pa = .device then (rangeMasks pa bs.length).foldl (fun s x => mergeL2 s x.1 x.2) s else s
  let s := { s with
    mem := memWriteBytes s.mem pa bs
    poison := s.poison.filter fun sec => !coversSector pa bs.length sec }
  wakeCounters (markWatched s pa bs.length) pa bs.length

/-- The addressee of a write: a slice of the device, or a die's UCIe module for the host window (R260). -/
def addressee (pa die : Nat) : Nat := if placeOf pa = .device then homeDie pa * 61 + homeSlice pa else 244 + die

/-- The key of an arrival counter (R351). -/
def arrivalKey (core round unit : Nat) : Nat := (core * 256 + round) * 256 + unit

/-- Homes keep the counts of the four latest rounds of a core, and those of releases that are outstanding (R260, R351). -/
def keepRounds (s : State) (core : Nat) : State :=
  let r := (s.core core).round.toNat
  let kept (n : Nat) : Bool := (r + 256 - n) % 256 < 4 || (s.core core).outs.any fun x => x.round.toNat == n
  { s with arrivals := s.arrivals.filter fun x => x.1 / 65536 != core || kept (x.1 / 256 % 256) }

/-- Close the open round of a core: the next write carries the next round (R260, R351). -/
def closeRound (s : State) (core : Nat) : State :=
  keepRounds (s.modCore core fun c => { c with round := c.round + 1, sent := [] }) core

/-- A core sends a write to a home: it is counted in the open round, which the core closes first before a count reaches
2^32 - 1 (R260, R351). -/
def countSent (s : State) (core pa : Nat) : State :=
  let u := addressee pa (coreDie core)
  let s := if Tab.get 0 (s.core core).sent u + 1 < 2 ^ 32 - 1 then s else closeRound s core
  s.modCore core fun c => { c with sent := Tab.mod 0 c.sent u (· + 1) }

/-- A write of a core's round arrives at its home (R260). -/
def countArrived (s : State) (core : Nat) (round : BitVec 8) (pa : Nat) : State :=
  { s with arrivals := Tab.mod 0 s.arrivals (arrivalKey core round.toNat (addressee pa (coreDie core))) (· + 1) }

/-- A write that is sent and arrives in one step. -/
def countSend (s : State) (core pa : Nat) : State :=
  let s := countSent s core pa
  countArrived s core (s.core core).round pa

/-! ### The L1 (R193) -/

/-- Whether a cluster runs with a fused L1: a gang placed there declared it, and the fusion is not fenced (R194). -/
def isFused (s : State) (die cluster : Nat) : Bool :=
  !s.isFenced die 1 cluster && s.gangs.any fun g => g.die == die && g.cluster == cluster && shapeFused g.shape &&
    (match g.st with
     | .saved _ _ | .restoring _ _ => false
     | _ => true)

/-- The core whose L1 holds a line for accesses of a core (R194). -/
def l1Core (s : State) (core pa : Nat) : Nat :=
  if isFused s (coreDie core) (coreCluster core) then core / 8 * 8 + pa / 128 % 8 else core

def findLine (s : State) (core pa : Nat) : Option L1Line :=
  (s.core (l1Core s core pa)).l1.find? fun l => l.line == pa / 128

/-- A line with nothing valid. -/
def blankLine (line q : Nat) (uo so : Bool) (cls : Rcl) : L1Line := ⟨line, 0, 0, 0, uo, so, q, cls, 0⟩

/-- The bytes of a line under a mask, as (offset, byte). -/
def maskedBytes (l : L1Line) (m : BitVec 128) : List (Nat × Byte) :=
  (List.range 128).filterMap fun k => if m.getLsbD k then some (k, l.data.extractLsb' (8 * k) 8) else none

/-- Sectors of a line that a mask touches at all, and those that it covers (R199). -/
def sectorsTouched (line : Nat) (m : BitVec 128) : List Nat :=
  ((List.range 4).filter fun k => m.extractLsb' (32 * k) 32 != 0).map (line * 4 + ·)

def sectorsCovered (line : Nat) (m : BitVec 128) : List Nat :=
  ((List.range 4).filter fun k => m.extractLsb' (32 * k) 32 == BitVec.allOnes 32).map (line * 4 + ·)

/-- Poison sectors by a write-back of a byte with a parity error, each counted (R199, R355). -/
def poisonSectors (s : State) (secs : List Nat) : State :=
  secs.foldl (fun s sec =>
    if s.poison.contains sec then s
    else ({ s with poison := s.poison ++ [sec] } : State).modDie (homeDie (sec * 32)) fun x =>
      { x with uncorrectable := x.uncorrectable + 1 }) s

/-- A write-back arrives at the home of its line: its bytes merge by mask (R193, R254). -/
def arrive (s : State) (w : WriteBack) : State :=
  let l := w.held
  let pa := l.line * 128
  let s := copyFirst s pa
  let s := mergeL2 (reachHome s pa (coreDie w.core) l.queue true false true l.cls) l.line l.dirty
  let s := { s with
    mem := (maskedBytes l l.dirty).foldl (fun m x => memSetByte m (pa + x.1) x.2) s.mem
    poison := s.poison.filter fun sec => !(sectorsCovered l.line l.dirty).contains sec }
  let s := poisonSectors s (sectorsTouched l.line (l.dirty &&& l.bad))
  let s := if l.uo then s else countArrived s w.core w.round pa
  wakeCounters (markWatched s pa 128) pa 128

/-- Send the dirty bytes of a line of a core towards its home (R193, R260). -/
def depart (s : State) (core : Nat) (l : L1Line) : State :=
  if l.dirty = 0 then s
  else
    let s := if l.uo then s else countSent s core (l.line * 128)
    { s with writeBacks := s.writeBacks ++ [⟨core, (s.core core).round, l⟩] }

/-- The write-backs in transit that a test picks arrive, in the order in which they were sent. -/
def deliverWhere (s : State) (f : WriteBack → Bool) : State :=
  if s.writeBacks.any f then
    (s.writeBacks.filter f).foldl arrive { s with writeBacks := s.writeBacks.filter fun w => !f w }
  else s

/-- The write-backs of a core's L1 for a line arrive. -/
def deliverLine (s : State) (core line : Nat) : State := deliverWhere s fun w => w.core == core && w.held.line == line

/-- Send the dirty bytes of a line to its home, where they arrive in this step. -/
def writeBack (s : State) (core : Nat) (l : L1Line) : State := deliverLine (depart s core l) core l.line

/-- The set of an L1 in which a line lies: 128 sets of 8 ways (R193; assumption 10, DESIGN CHOICE). -/
def l1Set (fused : Bool) (line : Nat) : Nat := if fused then line / 8 % 128 else line % 128

/-- Make room for a line in an L1: a full set evicts one of its lines, of the model's free choice (R193; assumption 10). -/
def makeRoom (s : State) (core line : Nat) : State :=
  let fused := isFused s (coreDie core) (coreCluster core)
  let set := (s.core core).l1.filter fun l => l1Set fused l.line == l1Set fused line
  if set.length < 8 then s
  else
    match set[Config.l1Victim s.tick % 8]? with
    | none => s
    | some l => (depart s core l).modCore core fun c => { c with l1 := c.l1.filter fun x => x.line != l.line }

/-- Hold a line in the L1 that serves a core. -/
def putLine (s : State) (core pa : Nat) (l : L1Line) : State :=
  let c := l1Core s core pa
  if (s.core c).l1.any fun x => x.line == pa / 128 then
    s.modCore c fun k => { k with l1 := k.l1.map fun x => if x.line = pa / 128 then l else x }
  else (makeRoom s c (pa / 128)).modCore c fun k => { k with l1 := k.l1 ++ [l] }

/-- Drop the line of an address from the L1 that serves a core. -/
def dropLine (s : State) (core pa : Nat) : State :=
  s.modCore (l1Core s core pa) fun c => { c with l1 := c.l1.filter fun x => x.line != pa / 128 }

/-- Write back a line of a core and keep it clean. -/
def cleanLine (s : State) (core : Nat) (l : L1Line) : State :=
  (writeBack s core l).modCore core fun c => { c with
    l1 := c.l1.map fun x => if x.line = l.line then { x with dirty := 0, bad := 0 } else x }

/-! #### Updates of SO lines (R193, R284) -/

/-- Update a core's copy of an SO line. -/
def snoopCore (pa : Nat) (bs : List Byte) (c : CoreSt) : CoreSt :=
  { c with l1 := c.l1.map fun l =>
      if l.line = pa / 128 ∧ l.so then
        { l with data := BitVec.ofNat 1024 (setField l.data.toNat (8 * (pa % 128)) (8 * bs.length) (bytesNat bs)) }
      else l }

/-- The cores whose L1s serve a core. -/
def l1Cores (s : State) (core : Nat) : List Nat :=
  if isFused s (coreDie core) (coreCluster core) then (List.range 8).map (core / 8 * 8 + ·) else [core]

/-- Two updates in transit arrive in the order in which their stores were performed: they go to one L1, or to parts of one fused L1, and
have one line or one source (R274). -/
def snoopOrdered (s : State) (x y : Snoop) : Bool :=
  (l1Cores s y.core).contains x.core && (x.pa / 128 == y.pa / 128 || x.src == y.src)

/-- Of the updates in transit, those that a test picks with those that arrive before them, and the others. -/
def snoopSplit (s : State) (f : Snoop → Bool) : List Snoop → List Snoop × List Snoop
  | [] => ([], [])
  | x :: xs =>
    let (go, stay) := snoopSplit s f xs
    if f x || go.any (snoopOrdered s x) then (x :: go, stay) else (go, x :: stay)

/-- The updates in transit that a test picks arrive, in the order in which their stores were performed, each after those that come
before it. -/
def snoopWhere (s : State) (f : Snoop → Bool) : State :=
  if s.snoops.any f then
    let (go, stay) := snoopSplit s f s.snoops
    go.foldl (fun s x => s.modCore x.core (snoopCore x.pa x.bytes)) { s with snoops := stay }
  else s

/-- The updates in transit to a core's L1, or to its fused L1, arrive. -/
def snoopAt (s : State) (core : Nat) : State := snoopWhere s fun x => (l1Cores s core).contains x.core

/-- An update in transit arrives, after those that come before it. -/
def snoopArrives (s : State) (i : Nat) : State :=
  match s.snoops[i]? with
  | none => s
  | some x =>
    let late := s.snoops.drop (i + 1)
    let s := snoopWhere { s with snoops := s.snoops.take (i + 1) } (· == x)
    { s with snoops := s.snoops ++ late }

/-- A write of a party that is no core updates every L1 copy of an SO line. -/
def snoopAll (s : State) (pa : Nat) (bs : List Byte) : State :=
  let s := snoopWhere s fun x => x.pa / 128 == pa / 128
  s.mapCores fun _ c => snoopCore pa bs c

/-- An SO store updates the L1 copies on the core's own die at once, and sends updates to those of the other dies (R193, R284;
assumption 57, DEDUCED). -/
def snoopStore (s : State) (core pa : Nat) (bs : List Byte) : State :=
  let s := snoopWhere s fun x => x.pa / 128 == pa / 128 && coreDie x.core == coreDie core
  let holders := (s.cores.filter fun x => x.2.l1.any fun l => l.line == pa / 128 && l.so).map (·.1)
  let far := (holders.filter fun c => coreDie c != coreDie core).map fun c => (⟨core, c, pa, bs⟩ : Snoop)
  { (s.mapCores fun c x => if coreDie c = coreDie core then snoopCore pa bs x else x) with snoops := s.snoops ++ far }

/-! #### The core's own lines -/

/-- Write back and drop the line of an address in the issuing core's L1 (R222).  The core sees the updates of SO lines sent to it before
(R274). -/
def bypass (s : State) (core pa : Nat) : State :=
  let s := deliverLine (snoopAt s core) (l1Core s core pa) (pa / 128)
  match findLine s core pa with
  | none => s
  | some l => dropLine (writeBack s (l1Core s core pa) l) core pa

/-- The line of an address as the core's own accesses see it: the bytes of its L1, and below them those of its write-backs in
transit. -/
def ownLine (s : State) (core pa : Nat) (l : L1Line) : L1Line :=
  (s.writeBacks.filter fun w => w.core == l1Core s core pa && w.held.line == pa / 128).reverse.foldl (fun l w =>
    let m := w.held.dirty &&& ~~~l.valid
    if m = 0 then l
    else { l with
      valid := l.valid ||| m
      data := BitVec.ofNat 1024 ((maskedBytes w.held m).foldl (fun (d : Nat) x => setField d (8 * x.1) 8 x.2.toNat) l.data.toNat) }) l

/-- The bytes of a line that no poisoned sector of its home holds (R199). -/
def cleanBytes (s : State) (line : Nat) : BitVec 128 :=
  BitVec.ofNat 128 ((List.range 4).foldl (fun m k =>
    if s.poison.contains (line * 4 + k) then m else m + (2 ^ 32 - 1) * 2 ^ (32 * k)) 0)

/-! #### Loads and stores -/

/-- Fetch a line: fill the bytes that are not valid from its home (R193); no byte of a poisoned sector is filled.  A core that fetches an
SO line sees the updates sent to it before (R274). -/
def fillLine (s : State) (core pa q : Nat) (uo so : Bool) (cls : Rcl) : State :=
  let c := l1Core s core pa
  let s := if so then snoopAt s core else snoopWhere s fun x => x.core == c && x.pa / 128 == pa / 128
  let s := (readReach s pa (coreDie core) q so cls).modCore core fun k => { k with l1miss := k.l1miss + 1 }
  let l := ownLine s core pa ((findLine s core pa).getD (blankLine (pa / 128) q uo so cls))
  let m := cleanBytes s (pa / 128) &&& ~~~l.valid
  let base := pa / 128 * 128
  let data := (List.range 128).foldl (fun (d : Nat) k =>
    if m.getLsbD k then setField d (8 * k) 8 (memByte s.mem (base + k)).toNat else d) l.data.toNat
  putLine s core pa { l with valid := l.valid ||| m, data := BitVec.ofNat 1024 data }

/-- The bytes of a load are all valid in the L1. -/
def l1Hit (s : State) (core pa n : Nat) : Bool :=
  match findLine s core pa with
  | some l => (l.valid &&& lineMask (pa % 128) n) == lineMask (pa % 128) n
  | none => false

/-- The bytes of a load are all the core's own: valid in its L1, or in transit. -/
def ownBytes (s : State) (core pa n : Nat) : Bool :=
  l1Hit s core pa n ||
    (!s.writeBacks.isEmpty &&
      ((ownLine s core pa ((findLine s core pa).getD (blankLine 0 0 false false .normal))).valid &&& lineMask (pa % 128) n)
        == lineMask (pa % 128) n)

/-- A load through the L1: hit, or fetch the line first. -/
def l1Load (s : State) (core pa n q : Nat) (uo so : Bool) (cls : Rcl) : State × Nat :=
  let s := if l1Hit s core pa n then s else fillLine s core pa q uo so cls
  match findLine s core pa with
  | some l => (s, field l.data.toNat (8 * (pa % 128)) (8 * n))
  | none => (s, memRead s.mem pa n)

/-- A store of an RC or UO line: allocate without a read; the written bytes become valid and dirty (R193). -/
def l1Store (s : State) (core pa n v q : Nat) (uo : Bool) (cls : Rcl) : State :=
  let l := (findLine s core pa).getD (blankLine (pa / 128) q uo false cls)
  let m := lineMask (pa % 128) n
  putLine s core pa { l with
    valid := l.valid ||| m
    dirty := l.dirty ||| m
    bad := l.bad &&& ~~~m
    data := BitVec.ofNat 1024 (setField l.data.toNat (8 * (pa % 128)) (8 * n) v)
    cls := cls }

/-- A store of an SO line that has reached its home: the L1 copies are updated by the snoop mesh (R193). -/
def soPut (s : State) (core pa n v : Nat) : State :=
  let bs := natBytes v n
  snoopStore (countSend (homeWrite s pa bs) core pa) core pa bs

/-- A store of an SO line: performed at the home, whose line takes the class of the access (R193, R197, R221). -/
def soStore (s : State) (core pa n v q : Nat) (cls : Rcl) : State :=
  soPut (reachHome s pa (coreDie core) q true true true cls) core pa n v

/-- Write back every dirty byte and drop every line of a core's L1 (R194, R195, R372). -/
def flushCore (s : State) (core : Nat) : State :=
  let s := deliverWhere s fun w => w.core == core
  let s := (s.core core).l1.foldl (fun s l => writeBack s core l) s
  s.modCore core fun c => { c with l1 := [] }

/-! ### Releases and acquires (R260, R261) -/

/-- Write back the dirty RC lines of a core's L1, or of its fused L1; the write-backs of RC lines in transit arrive. -/
def writeBackRc (s : State) (core : Nat) : State :=
  (l1Cores s core).foldl (fun s c =>
    (s.core c).l1.foldl (fun s l => if l.uo || l.so then s else cleanLine s c l)
      (deliverWhere s fun w => w.core == c && !w.held.uo)) s

/-- Begin the release of a retiring gang on a core: it completes when every addressee has reported (R25, R260). -/
def beginRelease (s : State) (core g : Nat) : State :=
  let s := snoopWhere (writeBackRc s core) fun x => x.src == core
  closeRound (s.modCore core fun c => { c with outs := c.outs ++ [⟨c.round, c.sent, g⟩] }) core

/-- Evict the dirty UO lines of a core's L1; those in transit arrive.  An eviction may come at any time (R193). -/
def evictUo (s : State) (core : Nat) : State :=
  (s.core core).l1.foldl (fun s l =>
      if l.uo && l.dirty != 0 then
        (writeBack s core l).modCore core fun c => { c with l1 := c.l1.filter fun x => x.line != l.line }
      else s)
    (deliverWhere s fun w => w.core == core && w.held.uo)

/-- Begin the release of a gang on all its cores; on a fused cluster every part of the fused L1 takes part (R194).  UO bytes carry no round;
the L1s evict them at this moment, so that what the gang wrote is at its home when its task completes (R25, R407; assumption 73, DEDUCED). -/
def beginGangRelease (s : State) (g : Gang) : State :=
  let cores := if isFused s g.die g.cluster then (List.range 8).map (g.die * 144 + g.cluster * 8 + ·) else g.cores
  cores.foldl (fun s c => beginRelease s c g.id) (cores.foldl evictUo s)

/-- A release of a core at a scope: every write it sends has arrived when this step ends (R260; assumption 9, DEDUCED). -/
def releaseAt (s : State) (core : Nat) (sc : Scope) : State :=
  let whole := closeRound (snoopWhere (writeBackRc s core) fun x => x.src == core) core
  match sc with
  | .ctx => s
  | .gang | .cluster => if isFused s (coreDie core) (coreCluster core) then s else whole
  | _ => whole

/-- The acquire step: valid bytes of RC and UO lines that are not dirty are invalidated (R261), and the updates of SO lines sent
to the core arrive. -/
def acquireAt (s : State) (core : Nat) (sc : Scope) : State :=
  let fused := isFused s (coreDie core) (coreCluster core)
  if sc = .ctx then s
  else
    let s := snoopAt s core
    if fused ∧ (sc = .gang ∨ sc = .cluster) then s
    else (l1Cores s core).foldl (fun s c => s.modCore c fun k => { k with
      l1 := (k.l1.map fun l => if l.so then l else { l with valid := l.dirty }).filter fun l => l.valid != 0 }) s

/-! ### Latest-only stores (R262 to R265) -/

/-- Tags order by sequence number, then by producer. -/
def tagLe (s1 : BitVec 32) (p1 : BitVec 12) (s2 : BitVec 32) (p2 : BitVec 12) : Bool :=
  decide (s1.toNat < s2.toNat) || (s1 == s2 && decide (p1.toNat ≤ p2.toNat))

/-- The die that holds a queue of LO stores (R263). -/
def placeDie (pa : Nat) : LoPlace → Nat
  | .xbar d _ => d
  | .seam d _ => d
  | .coupling p => p / 4
  | .home => homeDie pa

/-- An LO store enters a queue: two ordinary stores to one cell combine there (R263, R394). -/
def loEnter (s : State) (x : LoStore) : State :=
  let peer (y : LoStore) : Bool := !x.md && !y.md && y.pa == x.pa && y.place == x.place &&
    !((match x.place with
       | .coupling _ => true
       | _ => false) && decide (x.cover + y.cover ≥ 2 ^ 20))
  match s.loTransit.find? peer with
  | none => { s with loTransit := s.loTransit ++ [x] }
  | some y =>
    let newer := tagLe y.seq y.prod x.seq x.prod
    let s := s.modPerf (placeDie x.pa x.place) (if newer then y else x).queue (countDrop x.place)
    let sum := x.cover + y.cover
    if newer then { s with loTransit := (s.loTransit.erase y) ++ [{ x with cover := sum }] }
    else { s with loTransit := s.loTransit.map fun z => if z = y then { y with cover := sum } else z }

/-- Issue an LO store of a core (R224, R234 to R236). -/
def loIssue (s : State) (core pa : Nat) (val : Word) (seq : BitVec 32) (prod : BitVec 12) (md : Bool) (q : Nat) : State :=
  loEnter s ⟨pa, val, seq, prod, 1, md, q, .xbar (coreDie core) (coreCluster core)⟩

/-- Wake the progress waits of a cell (R265, R348). -/
def wakeProgress (s : State) (pa : Nat) (all : Bool) : State :=
  s.mapVlcs fun v =>
    match v.status with
    | .waiting (.progress p t sc) =>
      if p = pa ∧ (all ∨ waitMet s.mem (.progress p t sc)) then { v with status := .satisfied (.progress p t sc) } else v
    | _ => v

/-- The die of a producer (R10). -/
def producerDie (p : BitVec 12) : Nat :=
  let n := p.toNat
  if n < 576 then coreDie n else if n < 640 then (n - 576) / 16 else n % 4

/-- An LO store reaches the home of its cell (R262, R264, R265). -/
def loPerform (s : State) (x : LoStore) : State :=
  let s := reachHome s x.pa (producerDie x.prod) x.queue true true true .normal
  let key := x.pa / 8
  let t := Tab.get LoTag.reset s.lo key
  let takes := tagLe t.seq t.prod x.seq x.prod
  let s := if takes then homeWrite s x.pa (natBytes x.val.toNat 8) else s
  let t := Tab.get LoTag.reset s.lo key
  let t' : LoTag := ⟨if takes then x.seq else t.seq, if takes then x.prod else t.prod, t.arrivals + BitVec.ofNat 32 x.cover⟩
  let s := { s with lo := Tab.set LoTag.reset s.lo key t' }
  let s := s.modPerf (homeDie x.pa) x.queue fun p => { p with loarr := p.loarr + x.cover }
  if takes || x.md then wakeProgress s x.pa x.md else s

/-- The next queue of an LO store, or its arrival. -/
def loNext (x : LoStore) : Option LoPlace :=
  match placeOf x.pa, x.place with
  | .peer c, .xbar d _ => some (if c / 4 = d then .coupling c else .seam d (c / 4))
  | .peer c, .seam _ _ => some (.coupling c)
  | _, .xbar d _ => some (if homeDie x.pa = d then .home else .seam d (homeDie x.pa))
  | _, .seam _ _ => some .home
  | _, _ => none

/-! ### Full-empty granules (R191, R192) -/

/-- The full-empty bit of a granule of a core's LS. -/
def feFull (s : State) (core g : Nat) : Bool := (s.core core).fe.contains g

def insertSorted (g : Nat) : List Nat → List Nat
  | [] => [g]
  | x :: xs => if g < x then g :: x :: xs else if g = x then x :: xs else x :: insertSorted g xs

/-- Make a granule empty. -/
def feEmpty (s : State) (core g : Nat) : State := s.modCore core fun c => { c with fe := c.fe.filter (· != g) }

/-- The head of each granule's queue whose granules are all full may go on (R192). -/
def feWake (s : State) (core : Nat) : State :=
  s.mapVlcs fun v =>
    match v.vwait with
    | .waits k gs =>
      if v.core = core ∧ gs.all fun g => feFull s core g &&
          ((s.core core).feq.find? fun x => x.1 == g).map (·.2) == some v.slot
      then { v with vwait := .served k } else v
    | _ => v

/-- A VLC waits for no granule any more: its reads leave the queues, and those behind them are served (R192). -/
def feLeave (s : State) (core slot : Nat) : State :=
  if (s.core core).feq.any fun x => x.2 == slot then
    feWake (s.modCore core fun k => { k with feq := k.feq.filter fun x => x.2 != slot }) core
  else s

/-- Fill a granule, and serve its waiting reads. -/
def feFill (s : State) (core g : Nat) : State :=
  feWake (s.modCore core fun c => { c with fe := insertSorted g c.fe }) core

end Sys2Proof.Machine
end

