-- ==== Sys2Proof/Machine/Xlat.lean ====
section
/-! DEFINITION. Two-stage translation (spec/07_memories.md R184, R208 to R215) and the LS window (R188). -/

namespace Sys2Proof.Machine

/-- Who makes an access: its die and core, the queue whose stages translate, and its gang's region of the core's LS. -/
structure Party where
  die : Nat
  core : Nat
  queue : Nat
  lsBase : Nat
  lsLen : Nat
  /-- Granules of live plan bodies in the region, as first granule and length (R188, R296). -/
  bodies : List (Nat × Nat)
deriving DecidableEq, Repr

/-- Codes of an access in FAULTE (R211). -/
def accCode : Acc → Nat
  | .read => 0 | .write => 1 | .execute => 2 | .atomic => 3

/-- FAULTE of XLATE and PROT (R211). -/
def xlateInfo (acc : Acc) (level stage cause : Nat) : Nat := accCode acc * 64 + level * 16 + stage * 4 + cause

/-- Granules of a plan body (R296). -/
def bodyGranules (p : Plan) : Nat := ceilDiv (8 * p.entries.length + 2 * p.count) 16

/-- The live plan bodies of a gang on a core, but for one plan slot of one VLC. -/
def liveBodies (s : State) (g core : Nat) : List (Nat × Nat) :=
  (s.vlcs.filter fun v => v.gang == g && v.core == core && v.status != .absent).flatMap fun v =>
    v.plans.map fun x => (x.2.granule, bodyGranules x.2)

/-- The gang's region of a core's LS: base and length (R21, R188). -/
def regionOf (g : Gang) (core : Nat) : Option (Nat × Nat) :=
  ((g.cores.zip g.lsBase).find? fun x => x.1 == core).map fun x => (x.2, shapeLs g.shape)

/-- A VLC as the party of its accesses. -/
def partyOf (s : State) (v : Vlc) : Party :=
  let g := s.gangOf v.gang
  let r := (regionOf g v.core).getD (0, 0)
  ⟨coreDie v.core, v.core, g.queue, r.1, r.2, liveBodies s v.gang v.core⟩

/-- The VLC whose turn it is, as a party. -/
def State.me (s : State) : Party := partyOf s s.vlc

/-- The own-core LS window (R184). -/
def lsWindow : Nat := 0x00FFFF8000000000

/-- A page-table entry (R209), or why it is none. -/
inductive Pte where
  | invalid (leaf : Bool)
  | malformed
  | table (pa : Nat)
  | leaf (l : Leaf)
deriving DecidableEq, Repr

/-- Bytes of address below a leaf of a level (R208). -/
def levelBits (level : Nat) : Nat := 16 + 10 * level

/-- An entry of a page table at a level (R209).  With V = 0 it is not valid, whatever its reserved bits hold (assumption 91, DESIGN CHOICE). -/
def decodePte (e level : Nat) : Pte :=
  if !bitOf e 0 then .invalid (bitOf e 1)
  else if field e 52 12 ≠ 0 ∨ field e 7 6 ≠ 0 then .malformed
  else
    let a := field e 13 39 * 2 ^ 13
    if bitOf e 1 then
      if level = 3 ∨ a % 2 ^ levelBits level ≠ 0 then .malformed
      else .leaf ⟨a, level, field e 5 2, bitOf e 2, bitOf e 3, bitOf e 4⟩
    else if field e 2 5 ≠ 0 ∨ level = 0 then .malformed
    else .table a

/-- The result of a walk of one stage. -/
inductive WalkR (α : Type) where
  | ok (x : α)
  | trap (t : Trap)
  /-- A stage-2 demand page: the physical address of its entry and its level (R212). -/
  | demand (pte level : Nat)

/-- The seam port of a die that leads to another die (R386). -/
def seamPort (d e : Nat) : Nat := (e + 3 - d) % 4

def seamFenced (s : State) (d e : Nat) : Bool :=
  d != e && (s.isFenced d 4 (seamPort d e) || s.isFenced e 4 (seamPort e d))

/-- A walk: the addresses of the entries that it read at their homes, each with whether its page is SO, and its result. -/
abbrev Walked (α : Type) := List (Nat × Bool) × WalkR α

/-- Go on with a walk that has read these entries. -/
def Walked.andThen {α β : Type} (r : Walked α) (f : α → Walked β) : Walked β :=
  match r with
  | (as, .ok x) => (as ++ (f x).1, (f x).2)
  | (as, .trap t) => (as, .trap t)
  | (as, .demand p n) => (as, .demand p n)

/-- Read a page-table entry at its home, for a walker of a die (R213). -/
def readPte (s : State) (die : Nat) (va : Word) (pa : Nat) (so : Bool) : Walked Nat :=
  match placeOf pa with
  | .host => ([], .trap (trapAt fcBUS va 5))
  | .peer _ => ([], .trap (trapAt fcBUS va 5))
  | .unassigned => ([], .trap (trapAt fcBUS va 0))
  | .device =>
    if s.isFenced (homeDie pa) 3 (hbmChannel pa) then ([], .trap (trapAt fcBUS va 1))
    else if seamFenced s die (homeDie pa) then ([], .trap (trapAt fcBUS va 2))
    else if s.isFenced (homeDie pa) 8 0 then ([], .trap (trapAt fcBUS va 4))
    else if s.poison.contains (pa / 32) then ([(pa, so)], .trap (trapAt fcPOISON va 4))
    else ([(pa, so)], .ok (memRead s.mem pa 8))

/-- The index of an address at a level (R208). -/
def levelIndex (a level : Nat) : Nat := a / 2 ^ levelBits level % 1024

/-- Who walks: the walker's die, the tenant, and the stage-2 root. -/
structure Walker where
  die : Nat
  tenant : BitVec 12
  s2 : Nat

/-- The walk-cache entry of a level of a walk. -/
def Walker.entry (w : Walker) (stage1 : Bool) (root a level table : Nat) : WalkEntry :=
  ⟨w.die, if stage1 then w.tenant else 0, stage1, root, if stage1 then w.s2 else 0, level, a / 2 ^ levelBits level, table⟩

/-- The table that the walk cache of the die holds for a level of a walk (R213). -/
def walkCached (s : State) (e : WalkEntry) : Option Nat :=
  (s.walkCache.find? fun x => { x with table := e.table } == e).map (·.table)

/-- Walk stage 2 from a level down, with the upper-level entries it used: `n` is the level plus one. -/
def walk2 (s : State) (w : Walker) (va : Word) (acc : Acc) (ipa : Nat) : Nat → Nat → Walked (Leaf × List WalkEntry)
  | 0, _ => ([], .trap (trapAt fcXLATE va (xlateInfo acc 0 2 1)))
  | n + 1, table =>
    let at_ := table + 8 * levelIndex ipa n
    let down (t : Nat) : Walked (Leaf × List WalkEntry) :=
      (walk2 s w va acc ipa n t).andThen fun (l, es) => ([], .ok (l, w.entry false w.s2 ipa n t :: es))
    match walkCached s (w.entry false w.s2 ipa n 0) with
    | some t => down t
    | none =>
      (readPte s w.die va at_ false).andThen fun e =>
        match decodePte e n with
        | .invalid leaf => ([], if leaf then .demand at_ n else .trap (trapAt fcXLATE va (xlateInfo acc n 2 0)))
        | .malformed => ([], .trap (trapAt fcXLATE va (xlateInfo acc n 2 1)))
        | .leaf l => ([], .ok (l, []))
        | .table t => down t

/-- The physical address of an intermediate address under a leaf. -/
def leafAddr (l : Leaf) (a : Nat) : Nat := l.page + a % 2 ^ levelBits l.level

/-- The physical address of a stage-1 table entry, and whether its stage-2 leaf is of kind SO (R205, R208). -/
def tableAddr (s : State) (w : Walker) (va : Word) (acc : Acc) (ipa : Nat) : Walked (Nat × Bool × List WalkEntry) :=
  (walk2 s w va acc ipa 4 w.s2).andThen fun (l, es) =>
    if !l.rd then ([], .trap (trapAt fcPROT va (xlateInfo acc l.level 2 0)))
    else if l.kind = 3 then ([], .trap (trapAt fcPROT va (xlateInfo acc l.level 2 1)))
    else ([], .ok (leafAddr l ipa, l.kind == 0, es))

/-- Walk stage 1 from a level down, with the upper-level entries of both stages that it used. -/
def walk1 (s : State) (w : Walker) (va : Word) (acc : Acc) (s1 : Nat) : Nat → Nat → Walked (Leaf × List WalkEntry)
  | 0, _ => ([], .trap (trapAt fcXLATE va (xlateInfo acc 0 1 1)))
  | n + 1, table =>
    let down (t : Nat) (used : List WalkEntry) : Walked (Leaf × List WalkEntry) :=
      (walk1 s w va acc s1 n t).andThen fun (l, es) => ([], .ok (l, used ++ w.entry true s1 va.toNat n t :: es))
    match walkCached s (w.entry true s1 va.toNat n 0) with
    | some t => down t []
    | none =>
      (tableAddr s w va acc (table + 8 * levelIndex va.toNat n)).andThen fun (pa, so, used) =>
        (readPte s w.die va pa so).andThen fun e =>
          match decodePte e n with
          | .invalid _ => ([], .trap (trapAt fcXLATE va (xlateInfo acc n 1 0)))
          | .malformed => ([], .trap (trapAt fcXLATE va (xlateInfo acc n 1 1)))
          | .leaf l => ([], .ok (l, used))
          | .table t => down t used

/-- A walk of both stages: both leaves, and the upper-level entries that it used. -/
def walkBoth (s : State) (w : Walker) (va : Word) (acc : Acc) (s1 : Nat) : Walked (Leaf × Leaf × List WalkEntry) :=
  (walk1 s w va acc s1 4 s1).andThen fun (l1, es1) =>
    (walk2 s w va acc (leafAddr l1 va.toNat) 4 w.s2).andThen fun (l2, es2) => ([], .ok (l1, l2, es1 ++ es2))

/-- The kind of the combined translation (R210). -/
def combinedKind (l1 l2 : Leaf) : Nat := if l2.kind = 1 then l1.kind else l2.kind

def kindConflict (l1 l2 : Leaf) : Bool := l2.kind != 1 && l1.kind != 1 && l1.kind != l2.kind

def leafAllows (l : Leaf) : Acc → Bool
  | .read => l.rd
  | .write => l.wr
  | .execute => l.ex
  | .atomic => l.rd && l.wr

/-- The checks of R210 on the combined translation. -/
def checkLeaves (va : Word) (acc : Acc) (l1 l2 : Leaf) : Option Trap :=
  if kindConflict l1 l2 then some (trapAt fcPROT va (xlateInfo acc l1.level 1 1))
  else if !leafAllows l1 acc then some (trapAt fcPROT va (xlateInfo acc l1.level 1 0))
  else if !leafAllows l2 acc then some (trapAt fcPROT va (xlateInfo acc l2.level 2 0))
  else none

/-- The cached combined translation of an address for a party: of its core's L1 TLB, else of its die's last-level TLB (R213). -/
def tlbFind (s : State) (p : Party) (va : Nat) : Option TlbEntry :=
  let q := s.queue p.queue
  let hit (e : TlbEntry) : Bool := e.die == p.die && e.tenant == q.tenant && e.s1root == q.s1root && e.s2root == q.s2root
    && e.vpage == va / 2 ^ levelBits e.level
  ((s.core p.core).tlb.find? hit).or (s.tlb.find? hit)

/-- An entry enters a cache of `cap` entries; a full one replaces the entry of the model's free choice (R213; assumption 53,
DESIGN CHOICE). -/
def cacheIn {α : Type} [DecidableEq α] (cap victim : Nat) (l : List α) (x : α) : List α :=
  if x ∈ l then l else if l.length < cap then l ++ [x] else l.eraseIdx (victim % cap) ++ [x]

/-- The result of a walk enters the core's L1 TLB, of 64 entries, and the die's last-level TLB, of 1,024 sets of 16 ways; its
upper-level entries enter the die's walk cache, of 1,024 entries (R213). -/
def keepWalk (s : State) (p : Party) (e : TlbEntry) (es : List WalkEntry) : State :=
  let mine (x : TlbEntry) : Bool := x.die == e.die && x.vpage % 1024 == e.vpage % 1024
  let walks := s.walkCache.filter fun x => x.die == p.die
  let s := { s with
    tlb := (s.tlb.filter fun x => !mine x) ++ cacheIn 16 (Config.lastTlbVictim s.tick) (s.tlb.filter mine) e
    walkCache := (s.walkCache.filter fun x => x.die != p.die) ++ es.foldl (cacheIn 1024 (Config.walkVictim s.tick)) walks }
  if p.core < 576 then s.modCore p.core fun c => { c with tlb := cacheIn 64 (Config.tlbVictim s.tick) c.tlb e } else s

/-- The cached translation of an address: the page of the smaller size (R213). -/
def walkEntry (s : State) (die q va : Nat) (l1 l2 : Leaf) (pa : Nat) : TlbEntry :=
  let p := s.queue q
  let level := min l1.level l2.level
  ⟨die, p.tenant, p.s1root, p.s2root, va / 2 ^ levelBits level, level, pa / 2 ^ levelBits level * 2 ^ levelBits level, l1, l2⟩

/-- Serve a demand page: take a page from the end of the queue's list, zero it and write its leaf (R212, R216, R267, R302). -/
def serveDemand (s : State) (q pte : Nat) : Option State :=
  match (Tab.get [] s.demand q).reverse with
  | [] => none
  | pg :: rest =>
    if s.funcmode.getLsbD 4 then none
    else
      let page := pg / 65536
      let s := copyFirst s (page * 65536)
      let s := { s with
        demand := Tab.set [] s.demand q rest.reverse
        mem := s.mem.filter fun x => x.1 / 65536 != page
        poison := s.poison.filter fun x => x / 2048 != page
        lo := s.lo.filter fun x => x.1 / 8192 != page
        l2 := s.l2.filter fun l => l.line / 512 != page }
      some (homeWrite (markWatched s (page * 65536) 65536) pte (natBytes (page * 65536 + 0x3F) 8))

/-- A walk reads page-table entries at their home slices: each is an access of the queue (R205, R213, R354, R356).  A stage-2 table
stands at a physical address of no kind (assumption 83, DESIGN CHOICE). -/
def countWalk (s : State) (p : Party) (as : List (Nat × Bool)) : State :=
  as.foldl (fun s x => reachHome s x.1 p.die p.queue false x.2 true .normal) s

/-- Both leaves of an address that no cache holds: a walk, whose demand pages are served before it goes on (R212, R214). -/
def walkLeaves (s : State) (p : Party) (va : Word) (acc : Acc) : Nat → State × Except Trap (Leaf × Leaf × Nat)
  | 0 => (s, .error (trapAt fcXLATE va (xlateInfo acc 0 2 0)))
  | n + 1 =>
    let q := s.queue p.queue
    let (as, r) := walkBoth s ⟨p.die, q.tenant, q.s2root.toNat⟩ va acc q.s1root.toNat
    let s := countWalk s p as
    match r with
    | .ok (l1, l2, es) =>
      let pa := leafAddr l2 (leafAddr l1 va.toNat)
      (keepWalk s p (walkEntry s p.die p.queue va.toNat l1 l2 pa) es, .ok (l1, l2, pa))
    | .trap t => (s, .error t)
    | .demand pte level =>
      match serveDemand s p.queue pte with
      | some s' => walkLeaves s' p va acc n
      | none => (s, .error (trapAt fcXLATE va (xlateInfo acc level 2 0)))

/-- Both leaves of an address: a cached translation, else a walk, which counts once (R213, R214, R356). -/
def leavesOf (s : State) (p : Party) (va : Word) (acc : Acc) : State × Except Trap (Leaf × Leaf × Nat) :=
  match tlbFind s p va.toNat with
  | some e => (s, .ok (e.s1, e.s2, e.pa + va.toNat % 2 ^ levelBits e.level))
  | none => walkLeaves (s.modPerf p.die p.queue fun x => { x with walks := x.walks + 1 }) p va acc 12

/-- A place an access reaches after translation. -/
inductive Dest where
  | ls (core off : Nat)
  | phys (pa kind : Nat)
deriving DecidableEq, Repr

/-- Translate an address for an access of `n` bytes (R184, R188, R210). -/
def translate (s : State) (p : Party) (va : Word) (n : Nat) (acc : Acc) : State × Except Trap Dest :=
  let a := va.toNat
  if a ≥ 2 ^ 56 then (s, .error (trapAt fcXLATE va (xlateInfo acc 0 0 2)))
  else if a ≥ lsWindow + lsBytes then (s, .error (trapAt fcXLATE va (xlateInfo acc 0 0 2)))
  else if a ≥ lsWindow then
    let off := a - lsWindow
    if acc = .execute then (s, .error (trapAt fcPROT va (xlateInfo acc 0 0 2)))
    else if off + n > p.lsLen then (s, .error (trapAt fcPROT va (xlateInfo acc 0 0 2)))
    else if p.bodies.any fun b => decide (off / 16 < b.1 + b.2) && decide (b.1 ≤ (off + n - 1) / 16) then
      (s, .error (trapAt fcPROT va (xlateInfo acc 0 0 2)))
    else (s, .ok (.ls p.core (p.lsBase + off)))
  else
    match leavesOf s p va acc with
    | (s, .error t) => (s, .error t)
    | (s, .ok (l1, l2, pa)) =>
      match checkLeaves va acc l1 l2 with
      | some t => (s, .error t)
      | none => (s, .ok (.phys pa (combinedKind l1 l2)))

end Sys2Proof.Machine
end

