-- ==== Sys2Proof/Machine/Access.lean ====
section
/-! DEFINITION. The rules of every access: alignment, translation, places and kinds, BUS and POISON
(spec/08_memory_access.md R218 to R222; spec/12 R343, R348), and the loads and stores that follow them. -/

namespace Sys2Proof.Machine

/-- The rows of R220, of R343 and R348, and of R175, R245 and R307. -/
inductive AccRule where
  | load | store | atomic | fe | md | sc | counter | cread | pwait | tensorRead | tensorWrite | planArray
deriving DecidableEq, Repr

def protLs (va : Word) (acc : Acc) : Option Trap := some (trapAt fcPROT va (xlateInfo acc 0 0 2))

def protWindow (va : Word) (acc : Acc) : Option Trap := some (trapAt fcPROT va (xlateInfo acc 0 0 3))

def ordmix (va : Word) (why : Nat) : Option Trap := some (trapAt fcORDMIX va why)

/-- Whether the LS window is accepted by a row. -/
def lsRule : AccRule → Bool
  | .load | .store | .atomic | .fe | .tensorRead | .tensorWrite => true
  | .md | .sc | .counter | .cread | .pwait | .planArray => false

/-- An LO page under a row, for an access of `n` bytes. -/
def loRule (va : Word) (n : Nat) : AccRule → Option Trap
  | .load | .store => if n = 8 then none else ordmix va 1
  | .md | .cread | .pwait => none
  | .atomic | .sc | .counter | .tensorRead | .tensorWrite | .planArray => ordmix va 2
  | .fe => protLs va .read

/-- The place and kind rules of R220 (with R203, R204, R343, R348, R175 and R307).  A matrix operand or tile element on an LO page
of the host or a peer window meets the window rule first, PROT with CAUSE 3 (assumption 59, DESIGN CHOICE). -/
def placeRule (rule : AccRule) (va : Word) (n : Nat) (acc : Acc) : Dest → Option Trap
  | .ls _ _ => if lsRule rule then none else protLs va acc
  | .phys pa kind =>
    if rule = .fe then protLs va acc
    else
      match placeOf pa with
      | .host =>
        match rule with
        | .load | .store | .tensorRead | .tensorWrite => if kind = 1 ∨ kind = 2 then none else protWindow va acc
        | _ => protWindow va acc
      | .peer _ =>
        match rule with
        | .store => if kind = 3 ∧ n = 8 then none else protWindow va acc
        | .md => if kind = 3 then none else protWindow va acc
        | .pwait => if kind = 3 then none else ordmix va 3
        | _ => protWindow va acc
      | _ =>
        if kind = 3 then loRule va n rule
        else match rule with
          | .md | .pwait => ordmix va 3
          | _ => none

/-- BUS of a physical address for a party of a die (R185, R200, R375). -/
def busRule (s : State) (die : Nat) (va : Word) (pa : Nat) : Option Trap :=
  match placeOf pa with
  | .unassigned => some (trapAt fcBUS va 0)
  | .host => none
  | .peer c =>
    if s.isFenced (c / 4) 5 (c % 4) ∨ seamFenced s die (c / 4) then some (trapAt fcBUS va 2) else none
  | .device =>
    if s.isFenced (homeDie pa) 3 (hbmChannel pa) then some (trapAt fcBUS va 1)
    else if seamFenced s die (homeDie pa) then some (trapAt fcBUS va 2)
    else if s.isFenced (homeDie pa) 8 0 then some (trapAt fcBUS va 4)
    else none

/-- How an access treats the issuing core's L1 (R221, R222). -/
inductive Mode where
  | plain | bypass
deriving DecidableEq, Repr

/-- A sector of a range is poisoned at its home. -/
def poisonedAt (s : State) (pa n : Nat) : Bool := s.poison.any fun sec => decide (pa < sec * 32 + 32) && decide (sec * 32 < pa + n)

/-- POISON of a read (R199): a sector of the home, when the bytes are not the core's own, or an LS word.  A read that bypasses the L1
finds the home after the write-back of its line (R222). -/
def poisonRule (s : State) (p : Party) (m : Mode) (va : Word) (n : Nat) : Dest → Option Trap
  | .ls c off =>
    if (s.core c).lsPoison.any fun w => decide (off < w * 4 + 4) && decide (w * 4 < off + n) then
      some (trapAt fcPOISON va 1) else none
  | .phys pa kind =>
    if !poisonedAt s pa n then none
    else if kind ≠ 3 ∧ m = .plain ∧ ownBytes s p.core pa n then none
    else if kind ≠ 3 ∧ m = .bypass ∧ !poisonedAt (bypass s p.core pa) pa n then none
    else some (trapAt fcPOISON va 0)

/-- Whether an access reads. -/
def readsMem : Acc → Bool
  | .write => false
  | _ => true

/-- Which accesses read at the home whatever the L1 holds (R222, R241). -/
def modeOf (rule : AccRule) : Acc → Mode
  | .atomic => .bypass
  | _ => match rule with
    | .sc | .cread | .planArray | .counter | .pwait => .bypass
    | _ => .plain

/-- The checks of one access of `n` bytes in the order of R219. -/
def accessIn (m : Mode) (s : State) (p : Party) (rule : AccRule) (va : Word) (n : Nat) (acc : Acc) : State × Except Trap Dest :=
  if va.toNat % n ≠ 0 then (s, .error (trapAt fcALIGN va 0))
  else
    match translate s p va n acc with
    | (s, .error t) => (s, .error t)
    | (s, .ok d) =>
      match placeRule rule va n acc d with
      | some t => (s, .error t)
      | none =>
        let bus := match d with
          | .phys pa _ => busRule s p.die va pa
          | .ls _ _ => none
        match bus with
        | some t => (s, .error t)
        | none =>
          match (if readsMem acc then poisonRule s p m va n d else none) with
          | some t => (s, .error t)
          | none => (s, .ok d)

def access (s : State) (p : Party) (rule : AccRule) (va : Word) (n : Nat) (acc : Acc) : State × Except Trap Dest :=
  accessIn (modeOf rule acc) s p rule va n acc

/-! ### Performing an access -/

/-- Whether a page kind keeps its page memory-side: SO and LO (R205). -/
def staysHome (kind : Nat) : Bool := kind == 0 || kind == 3

/-- Read `n` bytes at a place; `cls` is the replacement class of a line that it brings in. -/
def loadAt (s : State) (p : Party) (d : Dest) (n : Nat) (m : Mode) (cls : Rcl := .normal) : State × Nat :=
  match d with
  | .ls c off => (s, memRead s.mem (lsAddr c off) n)
  | .phys pa kind =>
    if placeOf pa ≠ .device ∨ kind = 3 then
      let s := reachHome s pa p.die p.queue false true true cls
      (s, memRead s.mem pa n)
    else match m with
      | .plain => l1Load s p.core pa n p.queue (kind == 2) (kind == 0) cls
      | .bypass =>
        let s := reachHome (bypass s p.core pa) pa p.die p.queue false (staysHome kind) false cls
        (s, memRead s.mem pa n)

/-- The write of an access that bypassed the L1 and has reached its home (R221). -/
def bypassPut (s : State) (p : Party) (pa n v kind : Nat) : State :=
  if kind = 0 then soPut s p.core pa n v
  else
    let s := homeWrite s pa (natBytes v n)
    if kind = 2 then s else countSend s p.core pa

/-- A write at a home that bypasses the L1 and allocates no line (R221, R222, R232). -/
def bypassStore (s : State) (p : Party) (pa n v kind : Nat) : State :=
  bypassPut (reachHome (bypass s p.core pa) pa p.die p.queue true (staysHome kind) false .normal) p pa n v kind

/-- Write the low `n` bytes of `v` at a place that is no LO cell.  A write of any byte of a poisoned LS word clears its poison (R153,
R199). -/
def storeAt (s : State) (p : Party) (d : Dest) (n v : Nat) (m : Mode) (cls : Rcl := .normal) : State :=
  match d with
  | .ls c off => { (s.modCore c fun k => { k with
      lsPoison := k.lsPoison.filter fun w => !(decide (off < w * 4 + 4) && decide (w * 4 < off + n)) }) with
      mem := memWrite s.mem (lsAddr c off) n v }
  | .phys pa kind =>
    if placeOf pa = .host then
      let s := { s with mem := memWrite s.mem pa n v }
      if kind = 2 then s else countSend s p.core pa
    else match m with
      | .bypass => bypassStore s p pa n v kind
      | .plain => if kind = 0 then soStore s p.core pa n v p.queue cls else l1Store s p.core pa n v p.queue (kind == 2) cls

/-- Whether a place is an LO cell. -/
def Dest.isLo : Dest → Bool
  | .phys _ kind => kind == 3
  | .ls _ _ => false

def Dest.pa : Dest → Nat
  | .phys pa _ => pa
  | .ls c off => lsAddr c off

/-- A read-modify-write of `n` bytes at a home in one indivisible step (R241): the old value.  It reaches the home once (R356), as a read
and as a write of the line (R354). -/
def rmwAt (s : State) (p : Party) (d : Dest) (n : Nat) (f : Nat → Nat) : State × Nat :=
  match d with
  | .ls c off =>
    let old := memRead s.mem (lsAddr c off) n
    (storeAt s p d n (f old) .plain, old)
  | .phys pa kind =>
    let s := reachHome (bypass s p.core pa) pa p.die p.queue false (staysHome kind) false .normal
    let s := if placeOf pa = .device then countRemote s pa p.die p.queue true else s
    let old := memRead s.mem pa n
    (bypassPut s p pa n (f old) kind, old)

/-- Check and read one scalar value. -/
def readMem (s : State) (p : Party) (rule : AccRule) (va : Word) (n : Nat) (m : Mode) : State × Except Trap Nat :=
  match accessIn m s p rule va n .read with
  | (s, .error t) => (s, .error t)
  | (s, .ok d) => let (s, v) := loadAt s p d n m; (s, .ok v)

/-- Check and write one value that is no LO store. -/
def writeMem (s : State) (p : Party) (rule : AccRule) (va : Word) (n v : Nat) (m : Mode) : State × Except Trap Unit :=
  match access s p rule va n .write with
  | (s, .error t) => (s, .error t)
  | (s, .ok d) => (storeAt s p d n v m, .ok ())

/-- Read `k` dwords in ascending order: the dwords, or the first fault. -/
def readDwords (s : State) (p : Party) (rule : AccRule) (va : Word) : Nat → State × Except Trap (List Word)
  | 0 => (s, .ok [])
  | k + 1 =>
    match readMem s p rule va 8 .plain with
    | (s, .error t) => (s, .error t)
    | (s, .ok v) =>
      match readDwords s p rule (va + 8) k with
      | (s, .error t) => (s, .error t)
      | (s, .ok vs) => (s, .ok (BitVec.ofNat 64 v :: vs))

/-- Dwords as one little-endian number. -/
def dwordsNat : List Word → Nat
  | [] => 0
  | w :: ws => w.toNat + 2 ^ 64 * dwordsNat ws

/-- The party of an engine, Landau or a Hansom on behalf of a queue: no LS window. -/
def queueParty (die q : Nat) : Party := ⟨die, 576, q, 0, 0, []⟩

/-- The read of a line by a party that has no L1. -/
def Dest.reach (d : Dest) (s : State) (p : Party) (cls : Rcl) : State :=
  match d with
  | .ls _ _ => s
  | .phys pa kind => readReach s pa p.die p.queue (staysHome kind) cls

/-- A read of a device party at the homes: no L1 is involved. -/
def readHome (s : State) (p : Party) (va : Word) (n : Nat) : State × Except Trap Nat :=
  match access s p .load va n .read with
  | (s, .error t) => (s, .error t)
  | (s, .ok d) => (d.reach s p .normal, .ok (memRead s.mem d.pa n))

/-- Read dwords of a device party. -/
def readHomeDwords (s : State) (p : Party) (va : Word) : Nat → State × Except Trap (List Word)
  | 0 => (s, .ok [])
  | k + 1 =>
    match readHome s p va 8 with
    | (s, .error t) => (s, .error t)
    | (s, .ok v) =>
      match readHomeDwords s p (va + 8) k with
      | (s, .error t) => (s, .error t)
      | (s, .ok vs) => (s, .ok (BitVec.ofNat 64 v :: vs))

end Sys2Proof.Machine
end

