-- ==== Sys2Proof/Machine/Flags.lean ====
section
/-! DEFINITION. The arithmetic of one element with its flags (spec/03_numbers.md R71 to R77, R81 to R84;
spec/05_vector_registers.md R130 to R136, R140): every result comes with the FFLAGS bits it sets. -/

namespace Sys2Proof.Machine

/-- The two-operand element operations (R130, R133). -/
inductive VOp where
  | add | sub | rsub | mul | min | max | mulh | div | and | or | xor | shl | shr | sar | macc | nmsac | sadd | ssub
deriving DecidableEq, Repr

/-- Signed division truncated toward zero with the edge results of R94, at width w. -/
def divI (isSigned : Bool) (w a b : Nat) : Nat :=
  if b % 2 ^ w = 0 then 2 ^ w - 1
  else wrapI w ((intVal isSigned w a).tdiv (intVal isSigned w b))

/-- The remainder of R94 at width w. -/
def remI (isSigned : Bool) (w a b : Nat) : Nat :=
  if b % 2 ^ w = 0 then a % 2 ^ w
  else wrapI w ((intVal isSigned w a).tmod (intVal isSigned w b))

/-- An integer element operation at width w: D is the old destination element (R130). -/
def aluI (op : VOp) (sg : Bool) (w a b d : Nat) : Nat × Fl :=
  let x := intVal sg w a
  let y := intVal sg w b
  match op with
  | .add => (wrapI w (x + y), 0)
  | .sub => (wrapI w (x - y), 0)
  | .rsub => (wrapI w (y - x), 0)
  | .mul => (wrapI w (x * y), 0)
  | .min => (wrapI w (Min.min x y), 0)
  | .max => (wrapI w (Max.max x y), 0)
  | .mulh => (wrapI w (x * y / ((2 ^ w : Nat) : Int)), 0)
  | .div => (divI sg w a b, 0)
  | .and => (a &&& b, 0)
  | .or => (a ||| b, 0)
  | .xor => (a ^^^ b, 0)
  | .shl => (a * 2 ^ (b % w) % 2 ^ w, 0)
  | .shr => (a / 2 ^ (b % w), 0)
  | .sar => (wrapI w (sgn w a / ((2 ^ (b % w) : Nat) : Int)), 0)
  | .macc => (wrapI w (x * y + intVal sg w d), 0)
  | .nmsac => (wrapI w (intVal sg w d - x * y), 0)
  | .sadd => clampInt sg w (x + y)
  | .ssub => clampInt sg w (x - y)

/-- A fused multiply-add of values: a × b + c, rounded once to a class. -/
def fmaVal (c : Cls) (frm : Nat) (a b d : FV) : Nat × Fl :=
  let (p, f1) := mulVal a b
  let (r, f2) := addVal frm p d
  finish c (rmFor c frm) (r, f1 ||| f2)

/-- Bits [7:6] of an E3M2 or E2M3 element are zero when written (R70). -/
def fpMask (c : Cls) (n : Nat) : Nat := if c = .e3m2 ∨ c = .e2m3 then n % 64 else n

/-- A floating-point element operation (R130). -/
def aluF (op : VOp) (c : Cls) (frm a b d : Nat) : Nat × Fl :=
  let x := fpVal c a
  let y := fpVal c b
  let rm := rmFor c frm
  match op with
  | .add | .sadd => finish c rm (addVal rm x y)
  | .sub | .ssub => finish c rm (addVal rm x (negVal y))
  | .rsub => finish c rm (addVal rm y (negVal x))
  | .mul | .mulh => finish c rm (mulVal x y)
  | .min => minMaxFp c false a b
  | .max => minMaxFp c true a b
  | .div => finish c rm (divVal x y)
  | .and => (fpMask c (a &&& b), 0)
  | .or => (fpMask c (a ||| b), 0)
  | .xor => (fpMask c (a ^^^ b), 0)
  | .shl | .shr | .sar => (a, 0)
  | .macc => fmaVal c frm x y (fpVal c d)
  | .nmsac => fmaVal c frm (negVal x) y (fpVal c d)

/-- An element operation under a class and width. -/
def alu (op : VOp) (c : Cls) (w frm a b d : Nat) : Nat × Fl :=
  match c with
  | .i => aluI op true w a b d
  | .n => aluI op false w a b d
  | c => aluF op c frm a b d

/-- The compares (R132). -/
inductive VCmp where
  | eq | ne | lt | le
deriving DecidableEq, Repr

def cmpElem (op : VCmp) (c : Cls) (w a b : Nat) : Bool × Fl :=
  if c.isFp then
    let x := fpVal c a
    let y := fpVal c b
    let nan := x.isNan || y.isNan
    let nv := flIf (match op with
      | .eq | .ne => x.isSnan || y.isSnan
      | .lt | .le => nan) flNV
    if nan then (op == .ne, nv)
    else
      let o := cmpVal x y
      (match op with
       | .eq => o == .eq
       | .ne => o != .eq
       | .lt => o == .lt
       | .le => o != .gt, nv)
  else
    let x := intVal (c == .i) w a
    let y := intVal (c == .i) w b
    (match op with
     | .eq => x == y
     | .ne => x != y
     | .lt => decide (x < y)
     | .le => decide (x ≤ y), 0)

/-- The widening operations to 2w (R133). -/
inductive VWide where
  | macc | add | mul
deriving DecidableEq, Repr

def wideElem (op : VWide) (c : Cls) (w frm a b d : Nat) : Nat × Fl :=
  if c.isFp then
    let x := fpVal c a
    let y := fpVal c b
    match op with
    | .macc => fmaVal .fp32 frm x y (fpVal .fp32 d)
    | .add => finish .fp32 frm (addVal frm x y)
    | .mul => finish .fp32 frm (mulVal x y)
  else
    let sg := c == .i
    let x := intVal sg w a
    let y := intVal sg w b
    (wrapI (2 * w) (match op with
      | .macc => x * y + intVal sg (2 * w) d
      | .add => x + y
      | .mul => x * y), 0)

/-- `vnclip`: divide by a power of two to nearest even, and clamp (R133). -/
def nclipElem (sg : Bool) (w a b : Nat) : Nat × Fl :=
  let t := intVal sg (2 * w) a
  let (q, _) := roundQ 0 (decide (t < 0)) t.natAbs (2 ^ (b % (2 * w)))
  clampInt sg w (if t < 0 then -(q : Int) else q)

/-- The unary operations (R134). -/
inductive VUn where
  | sqrt | rsqrte | rece | exp2e
deriving DecidableEq, Repr

/-- Significant bits of an estimate: min(12, p) (R134). -/
def estBits (c : Cls) : Nat := min 12 (c.fmt.fb + 1)

def unElem (op : VUn) (c : Cls) (frm a : Nat) : Nat × Fl :=
  let est := roundFpP c 0 (estBits c) false
  match op, fpVal c a with
  | _, .nan s => (c.canonNan, flIf s flNV)
  | .sqrt, .inf n => if n then (c.canonNan, flNV) else (signed c false c.infCode, 0)
  | .sqrt, .fin x =>
    if x.num = 0 then (a, 0) else if x.neg then (c.canonNan, flNV) else roundFp c frm false (sqrtExact x)
  | .rsqrte, .inf n => if n then (c.canonNan, flNV) else (0, 0)
  | .rsqrte, .fin x =>
    if x.num = 0 then (signed c x.neg c.infCode, flDZ)
    else if x.neg then (c.canonNan, flNV) else est (rsqrtExact x)
  | .rece, .inf n => (signed c n 0, 0)
  | .rece, .fin x =>
    if x.num = 0 then (signed c x.neg c.infCode, flDZ) else est (divExact ⟨false, 1, 1, 0⟩ x)
  | .exp2e, .inf n => if n then (0, 0) else (signed c false c.infCode, 0)
  | .exp2e, .fin x => est (exp2Exact x)

/-- A scalar operand converted for an element (R77). -/
def scalarElem (c : Cls) (w : Nat) (x : Word) : Nat × Fl :=
  if c.isFp then cvtFpFp .fp32 c 0 false (x.toNat % 2 ^ 32) else (x.toNat % 2 ^ w, 0)

/-- `vbscale`: A × 2^e, rounded once (R140). -/
def bscaleElem (c : Cls) (frm a : Nat) (e : Int) : Nat × Fl :=
  match fpVal c a with
  | .fin x => roundFp c frm false (shiftExact x e)
  | v => roundVal c frm false v

/-- One conversion of `vcvt` from a class and width to a target (R76, R139); a wider integer target never clamps. -/
def cvtElem (c : Cls) (w frm : Nat) (t : CvtTarget) (a : Nat) : Nat × Fl :=
  match t with
  | .fp tc sat => if c.isFp then cvtFpFp c tc frm sat a else cvtIntFp tc frm sat (intVal (c == .i) w a)
  | .int un ew sat =>
    if c.isFp then cvtFpInt c (!un) ew.bits frm a else cvtIntInt (!un) ew.bits (sat && decide (ew.bits ≤ w)) (intVal (c == .i) w a)

/-! ### Reductions (R84, R135) -/

/-- What a reduction combines with. -/
inductive VRed where
  | sum | max | min
deriving DecidableEq, Repr

def redOp (op : VRed) (c : Cls) (w frm : Nat) (a b : Nat) : Nat × Fl :=
  alu (match op with
    | .sum => .add
    | .max => .max
    | .min => .min) c w frm a b 0

/-- Combine two tree positions; an empty child passes the other (R84). -/
def redPair (f : Nat → Nat → Nat × Fl) : Option Nat → Option Nat → Option Nat × Fl
  | some a, some b => let (v, fl) := f a b; (some v, fl)
  | some a, none => (some a, 0)
  | none, b => (b, 0)

/-- One level of the tree. -/
def redLevel (f : Nat → Nat → Nat × Fl) : List (Option Nat) → List (Option Nat) × Fl
  | a :: b :: t =>
    let (v, f1) := redPair f a b
    let (r, f2) := redLevel f t
    (v :: r, f1 ||| f2)
  | [a] => ([a], 0)
  | [] => ([], 0)

/-- The root of the tree: `n` bounds the levels. -/
def redTree (f : Nat → Nat → Nat × Fl) : Nat → List (Option Nat) → Option Nat × Fl
  | 0, l => (l.headD none, 0)
  | n + 1, l =>
    if l.length ≤ 1 then (l.headD none, 0)
    else
      let (l', f1) := redLevel f l
      let (r, f2) := redTree f n l'
      (r, f1 ||| f2)

/-! ### Exact sums of products (R79 to R83) -/

/-- The exact sum of products of values, in order; zero sums follow IEEE addition (R79). -/
def dotVal (rm : Nat) : List (FV × FV) → FV → FV × Fl
  | [], acc => (acc, 0)
  | (a, b) :: t, acc =>
    let (p, f1) := mulVal a b
    let (r, f2) := addVal rm acc p
    let (z, f3) := dotVal rm t r
    (z, f1 ||| f2 ||| f3)

/-- A product of a non-empty list of values, started with its first term so that the sign of a zero is that of the terms. -/
def dotSum (rm : Nat) : List (FV × FV) → FV × Fl
  | [] => (.fin ⟨false, 0, 1, 0⟩, 0)
  | (a, b) :: t =>
    let (p, f1) := mulVal a b
    let (z, f2) := dotVal rm t p
    (z, f1 ||| f2)

/-- NaN in an exact sum gives NV (R79, R136). -/
def dotFlags (r : FV × Fl) : Fl := if r.1.isNan then flNV else r.2

/-- An integer accumulation modulo 2^32 with OF when the exact value differs (R81). -/
def accInt (sg : Bool) (old : Nat) (sum : Int) : Nat × Fl :=
  let z := intVal sg 32 old + sum
  let r := wrapI 32 z
  (r, flIf (intVal sg 32 r != z) flOF)

end Sys2Proof.Machine
end

