-- ==== Sys2Proof/Machine/Operands.lean ====
section
/-! DEFINITION. Vector operands: elements of groups in named rows, guards, tails, rotation tags and poison
(spec/05_vector_registers.md R118 to R128, R149, R153); capture into the vector instruction queue, the checks before it,
and the run of an entry at its head (spec/01 R36 to R41; spec/02 R58, R59; spec/05 R125; spec/04 R103). -/

namespace Sys2Proof.Machine

/-! ### Elements (R118, R120) -/

/-- The row of a name; a dead name reads as zeros. -/
def VFile.row (f : VFile) (n : Nat) : Nat := if f.dead.getLsbD n then 0 else (f.v[n]?.getD 0).toNat

/-- Element `i` of width `w` of the group that starts at a name. -/
def VFile.elem (f : VFile) (base w i : Nat) : Nat := field (f.row (base + i * w / 2048)) (i * w % 2048) w

/-- Write an element; a dead name first binds a zero row. -/
def VFile.setElem (f : VFile) (base w i x : Nat) : VFile :=
  let n := base + i * w / 2048
  { f with
    v := f.v.setIfInBounds n (BitVec.ofNat 2048 (setField (f.row n) (i * w % 2048) w x))
    dead := f.dead &&& ~~~ BitVec.ofNat 256 (2 ^ n)
    wrote := f.wrote ||| BitVec.ofNat 256 (2 ^ n) }

/-- Release the row of a name (R120). -/
def VFile.kill (f : VFile) (n : Nat) : VFile :=
  { f with
    v := f.v.setIfInBounds n 0
    dead := f.dead ||| BitVec.ofNat 256 (2 ^ n)
    wrote := f.wrote ||| BitVec.ofNat 256 (2 ^ n) }

/-- Set the tag of every name of a group (R128). -/
def VFile.setTag (f : VFile) (base names : Nat) (t : BitVec 6) : VFile :=
  { f with tag := (List.range names).foldl (fun g k => g.setIfInBounds (base + k) t) f.tag }

/-- The tag of a name.  A group is read as carrying the tag of its first name (R128; assumption 67, DESIGN CHOICE). -/
def VFile.tagOf (f : VFile) (n : Nat) : BitVec 6 := f.tag[n]?.getD 0

/-- Bit i of a predicate; p0 reads as all ones (R127). -/
def VFile.pbit (f : VFile) (n i : Nat) : Bool := if n = 0 then true else (f.p[n]?.getD 0).getLsbD i

/-- Write a bit of a predicate; a write to p0 is discarded. -/
def VFile.setPbit (f : VFile) (n i : Nat) (b : Bool) : VFile :=
  if n = 0 then f
  else { f with
    p := f.p.setIfInBounds n (if b then (f.p[n]?.getD 0) ||| BitVec.ofNat 4096 (2 ^ i)
      else (f.p[n]?.getD 0) &&& ~~~ BitVec.ofNat 4096 (2 ^ i))
    wroteP := f.wroteP ||| BitVec.ofNat 16 (2 ^ n) }

/-- Whether element i is active under a guard (R124). -/
def Vlc.active (v : Vlc) (pg : BitVec 2) (i : Nat) : Bool := v.vf.pbit pg.toNat i

/-! ### The tail (R124) -/

/-- Names of a group of `2 ^ grp` (R123). -/
def grpNames (t : Vtype) : Nat := 2 ^ t.grp.val

/-- All ones in an element, but for bits [7:6] of an E3M2 or E2M3 element (R70, R124). -/
def onesElem (c : Cls) (w : Nat) : Nat := fpMask c (2 ^ w - 1)

/-- Write the tail of a group of `names` names of width `w` from element `c` up. -/
def VFile.tail (f : VFile) (t : Vtype) (cls : Cls) (base names w c : Nat) : VFile :=
  let n := min 4096 (names * 2048 / w)
  match t.tp with
  | .undisturbed => f
  | .agnostic => (List.range (n - c)).foldl (fun f k => f.setElem base w (c + k) (onesElem cls w)) f
  | .dead => (List.range names).foldl (fun f k =>
      if k * 2048 ≥ c * w then f.kill (base + k)
      else (List.range (min (n - c) (2048 / w))).foldl (fun f j =>
        let i := k * (2048 / w) + (2048 / w - 1 - j)
        if i ≥ c then f.setElem base w i 0 else f) f) f

/-- Write the tail of a predicate destination from bit `c` to VLMAX - 1 (R124). -/
def VFile.ptail (f : VFile) (t : Vtype) (n c : Nat) : VFile :=
  match t.tp with
  | .undisturbed => f
  | .agnostic => (List.range (vlmaxOf t - c)).foldl (fun f k => f.setPbit n (c + k) true) f
  | .dead => (List.range (vlmaxOf t - c)).foldl (fun f k => f.setPbit n (c + k) false) f

/-! ### Poisoned register words (R153) -/

/-- The 32-bit words of a name that an element touches. -/
def poisonIn (v : Vlc) (base w i : Nat) : Option Nat :=
  let n := base + i * w / 2048
  let lo := i * w % 2048
  if v.poison.any fun x => x.1 == n && decide (lo < x.2 * 32 + 32) && decide (x.2 * 32 < lo + w) then some n else none

/-- Read an active element: POISON where its word is poisoned (R153). -/
def Vlc.readElem (v : Vlc) (base w i : Nat) : Except Trap Nat :=
  match poisonIn v base w i with
  | some n => .error (trapInfo fcPOISON (2 + n * 256))
  | none => .ok (v.vf.elem base w i)

/-- Write an active element, clearing the poison of its words. -/
def Vlc.writeElem (v : Vlc) (base w i x : Nat) : Vlc :=
  let n := base + i * w / 2048
  let lo := i * w % 2048
  { v with
    vf := v.vf.setElem base w i x
    poison := v.poison.filter fun y => !(y.1 == n && decide (lo < y.2 * 32 + 32) && decide (y.2 * 32 < lo + w)) }

/-- A new register file: a name whose row has been released holds no poisoned word (R120, R153). -/
def Vlc.setFile (v : Vlc) (f : VFile) : Vlc :=
  { v with vf := f, poison := v.poison.filter fun x => !f.dead.getLsbD x.1 }

def Vlc.orFlags (v : Vlc) (f : Fl) : Vlc := { v with fflags := v.fflags ||| f }

/-! ### How an entry of the queue ends -/

inductive VEnd where
  | done
  | fault (t : Trap)
  | wait (gs : List Nat)
  /-- The turn of the entry is over before its last element, row or entry (R31). -/
  | pause
deriving DecidableEq, Repr

/-- What an instruction does at the head of the queue: the state with what is committed, and how it ended. -/
abbrev VBody := VEntry → State → State × VEnd

/-- Nothing is left of the turn of the running entry. -/
def Vlc.spent (v : Vlc) : Bool :=
  match v.run with
  | some r => r.left == some 0
  | none => false

/-- One element, row or entry of the turn is done. -/
def Vlc.spend (v : Vlc) : Vlc := { v with run := v.run.map fun r => { r with left := r.left.map (· - 1) } }

/-- Leave VSTART at an index. -/
def State.stopAt (s : State) (i : Nat) : State := s.modVlc fun v => { v with vstart := BitVec.ofNat 13 i }

/-- Run `f` for `n` steps from index `i`, stopping at the first that does not end well, or where the turn ends: VSTART is
left there. -/
def iterate (f : Nat → State → State × VEnd) : Nat → Nat → State → State × VEnd
  | 0, _, s => (s, .done)
  | n + 1, i, s =>
    if s.vlc.spent then (s.stopAt i, .pause)
    else
      match f i s with
      | (s, .done) => iterate f n (i + 1) (s.modVlc Vlc.spend)
      | (s, r) => (s.stopAt i, r)

/-- Set VSTART to 0 at completion. -/
def State.clearVstart (s : State) : State := s.modVlc fun v => { v with vstart := 0 }

/-- Elements from VSTART to VL - 1 in ascending order (R129). -/
def elements (e : VEntry) (f : Nat → State → State × VEnd) (s : State) : State × VEnd :=
  iterate f (e.vl - s.vlc.vstart.toNat) s.vlc.vstart.toNat s

/-- End a body that ran to its end: a last change, and VSTART := 0. -/
def thenDone (r : State × VEnd) (f : State → State) : State × VEnd :=
  match r with
  | (s, .done) => ((f s).clearVstart, .done)
  | r => r

/-- The reads of one element: group base, width and index. -/
abbrev Reads := List (Nat × Nat × Nat)

def readAll (v : Vlc) : Reads → Except Trap (List Nat)
  | [] => .ok []
  | (b, w, i) :: t =>
    match v.readElem b w i with
    | .error e => .error e
    | .ok x =>
      match readAll v t with
      | .error e => .error e
      | .ok xs => .ok (x :: xs)

/-- An element-wise instruction over registers (R129): destination group, width and names; the reads of element i; and
the result, `none` where the element is not written. -/
structure Elementwise where
  base : Nat
  w : Nat
  names : Nat
  cls : Cls
  reads : Nat → Reads
  op : Nat → List Nat → Option Nat × Fl

/-- The step of one element.  Under the zeroing mask policy an inactive element is written as zero, for `vslup` also below x[B]
(R129, R137; assumption 65, DESIGN CHOICE). -/
def elementStep (e : VEntry) (pg : BitVec 2) (x : Elementwise) (i : Nat) (s : State) : State × VEnd :=
  let v := s.vlc
  if v.active pg i then
    match readAll v (x.reads i) with
    | .error t => (s, .fault t)
    | .ok xs =>
      let (r, fl) := x.op i xs
      match r with
      | some y => ({ s with vlc := (v.writeElem x.base x.w i (fpMask x.cls y)).orFlags fl }, .done)
      | none => ({ s with vlc := v.orFlags fl }, .done)
  else if e.vt.mz then ({ s with vlc := { v with vf := v.vf.setElem x.base x.w i 0 } }, .done)
  else (s, .done)

/-- Write the tail of a destination group and its tag; nothing with VL = 0 (R124, R128). -/
def closeGroup (e : VEntry) (x : Elementwise) (tag : BitVec 6) (s : State) : State :=
  if e.vl = 0 then s
  else s.modVlc fun v => v.setFile ((v.vf.tail e.vt x.cls x.base x.names x.w e.vl).setTag x.base x.names tag)

/-- The instruction with the flags of its scalar operand's conversion. -/
def Elementwise.withScalar (x : Elementwise) (sfl : Fl) : Elementwise :=
  { x with op := fun i xs => ((x.op i xs).1, (x.op i xs).2 ||| sfl) }

/-- Run an element-wise instruction whose scalar conversion sets `sfl`: the flags enter with those of each active element, at its commit
(R77, R91; assumption 64, DESIGN CHOICE). -/
def runElementwise (e : VEntry) (pg : BitVec 2) (x : Elementwise) (tag : BitVec 6) (sfl : Fl) (s : State) : State × VEnd :=
  thenDone (elements e (elementStep e pg (x.withScalar sfl)) s) (closeGroup e x tag)

/-! ### Capture and the checks before the queue -/

/-- What the scalar unit checks before it enqueues an instruction (R58, R125, R149). -/
structure VSpec where
  /-- 0, or the field that is out of range: 1 D, 2 A, 3 B. -/
  fieldBad : Nat := 0
  /-- The format class and widths are not accepted. -/
  vtBad : Bool := false
  /-- Groups that must be aligned: first name and size. -/
  groups : List (Nat × Nat) := []
  segBad : Bool := false
  overlap : Bool := false
  /-- Not allowed in a P = 1 body (R149). -/
  noFan : Bool := false

/-- The word of an instruction, 0 for an event. -/
def wordOf (i : Instr) : BitVec 32 := encode i

/-- FAULTE of a decode fault: the word and the field (R59). -/
def decodeTrap (code : BitVec 8) (w : BitVec 32) (fld : Nat) : Trap := trapInfo code (w.toNat + fld * 2 ^ 32)

/-- The first failing check of a vector-queue instruction, in the order of R58 and R125. -/
def specTrap (w : BitVec 32) (sp : VSpec) (v : Vlc) : Option Trap :=
  if sp.noFan && (match v.loop with
      | some l => l.p && !v.inHandler
      | none => false) then some (decodeTrap fcILLEGAL w 0)
  else if v.inHandler then some (decodeTrap fcPRIV w 0)
  else if sp.fieldBad ≠ 0 then some (decodeTrap fcFIELD w sp.fieldBad)
  else if sp.vtBad then some (decodeTrap fcVTYPE w 0)
  else if sp.groups.any fun g => g.1 % g.2 != 0 then some (decodeTrap fcGROUP_ALIGN w 0)
  else if sp.segBad then some (decodeTrap fcFIELD w 1)
  else if sp.overlap then some (decodeTrap fcOVERLAP w 0)
  else none

/-- Capture an instruction with its absolute registers and scalar operands (R36, R52, R72, R105, R162). -/
def capture (v : Vlc) (i : Instr) (d a b : Nat) (xd xa xb : Word) : VEntry where
  i := i
  word := wordOf i
  pc := v.pc
  d := d
  a := a
  b := b
  xd := xd
  xa := xa
  xb := xb
  vl := v.vl
  vt := v.vt
  frm := v.frm.toNat
  rot := v.rot
  vscope := v.vscope.toNat
  mvl := v.mvl
  tsm := v.tsm
  tsn := v.tsn
  tsk := v.tsk
  vidx := v.vidx
  inLoop := v.loop.isSome
  strip := match v.loop with
    | some l => if l.p then some (l.serial, l.strip) else none
    | none => none
  seq := none
  cancelled := false
  ahead := 0

/-! ### Fanned-out strips (R148, R149, R152) -/

def VFile.fresh (f : VFile) : VFile := { f with wrote := 0, wroteP := 0 }

/-- What a strip has written.  A name of a destination group in which the strip wrote no element leaves nothing, its tag neither (R128;
assumption 74, DESIGN CHOICE). -/
def Strip.writes (x : Strip) : List StripWrite :=
  ((List.range 256).filter x.vf.wrote.getLsbD).map fun n =>
    ⟨x.k, n, (x.poison.filter fun y => y.1 == n).map (·.2), x.vf.v[n]?.getD 0, x.vf.dead.getLsbD n, x.vf.tagOf n⟩

def Strip.preds (x : Strip) : List StripPred :=
  ((List.range 16).filter x.vf.wroteP.getLsbD).map fun n => ⟨x.k, n, x.vf.p[n]?.getD 0⟩

/-- The release that an instruction of the scalar unit left in the queue (R259): it takes no place of R15's queues. -/
def isMarker : Instr → Bool
  | .spawn .. | .copy .. | .copyp .. | .coll .. | .gate .. => true
  | _ => false

/-- A control access of the queue path is performed in order with every entry (R91, R112). -/
def isCtl : Instr → Bool
  | .ctlRd .. | .ctlWr .. | .ctlSet .. | .ctlClr .. => true
  | _ => false

/-- Whether an entry obeys VSTART: control accesses, release entries and the move to a scalar do not (R103, R131). -/
def obeysVstart : Instr → Bool
  | .ctlRd .. | .ctlWr .. | .ctlSet .. | .ctlClr .. | .mexit | .vmvXv .. => false
  | i => !isMarker i

/-- The lowest-numbered strip that stands at an element: VSTART shows where (R152). -/
def Fan.lowest (f : Fan) : Option Strip := f.strips.find? fun x => x.at_.isSome

/-- The strips of a loop before the first of them starts. -/
def Fan.opened (n : Nat) (vstart : BitVec 13) : Fan := { serial := n, strips := [], left := [], leftP := [], loose := vstart }

/-- The element at which the lowest-numbered stopped strip stands, which VSTART shows (R152); with none, the VSTART that no strip has
taken. -/
def Fan.shown (f : Fan) : BitVec 13 := (f.lowest.bind (·.at_)).getD f.loose

/-- A strip ends: for each name and predicate the value of the highest-numbered strip stays. -/
def Fan.endStrip (f : Fan) (x : Strip) : Fan :=
  let ws := x.writes.filter fun w => !f.left.any fun y => y.name == w.name && decide (w.strip < y.strip)
  let ps := x.preds.filter fun w => !f.leftP.any fun y => y.name == w.name && decide (w.strip < y.strip)
  { f with
    strips := f.strips.filter fun y => y.k != x.k
    left := (f.left.filter fun y => !ws.any fun w => w.name == y.name) ++ ws
    leftP := (f.leftP.filter fun y => !ps.any fun w => w.name == y.name) ++ ps }

/-- A strip has ended: no entry of it is left, and the scalar unit is past it. -/
def stripOver (v : Vlc) (n k : Nat) : Bool :=
  v.vq.all (fun e => e.strip != some (n, k)) &&
    (match v.loop with
     | some l => l.serial != n || l.strip != k
     | none => true)

/-- A strip that has no entry left to take the VSTART at which it stands: software wrote it. -/
def leavesVstart (v : Vlc) (n : Nat) (x : Strip) : Bool :=
  x.at_.isSome && v.vq.all fun e => e.strip != some (n, x.k) || isMarker e.i

/-- A VSTART that the entries of a strip have not taken is for the next instruction, of whatever strip (R103; assumption 95, DEDUCED). -/
def freeVstart (v : Vlc) (f : Fan) : Fan :=
  match f.strips.find? (leavesVstart v f.serial) with
  | none => f
  | some l => { f with loose := l.at_.getD 0, strips := f.strips.map fun x => if x.k = l.k then { x with at_ := none } else x }

/-- The strips that have ended leave their values. -/
def endStrips (v : Vlc) : Vlc :=
  match v.fan with
  | none => v
  | some f =>
    let f := freeVstart v f
    { v with fan := some ((f.strips.filter fun x => stripOver v f.serial x.k).foldl Fan.endStrip f) }

/-- The register file after the loop (R149). -/
def fanMerge (v : Vlc) : Vlc :=
  match v.fan with
  | none => { v with vf := v.vf.fresh }
  | some f =>
    let f := f.strips.foldl Fan.endStrip f
    let b := f.left.foldl (fun (b : VFile) x => { b with
      v := b.v.setIfInBounds x.name x.row
      dead := if x.dead then b.dead ||| BitVec.ofNat 256 (2 ^ x.name) else b.dead &&& ~~~ BitVec.ofNat 256 (2 ^ x.name)
      tag := b.tag.setIfInBounds x.name x.tag }) v.vf
    { v with
      vf := { b with p := f.leftP.foldl (fun p (x : StripPred) => p.setIfInBounds x.name x.bits) b.p }.fresh
      poison := (v.poison.filter fun y => !f.left.any fun (x : StripWrite) => x.name == y.1) ++
        f.left.flatMap fun (x : StripWrite) => x.poison.map fun w => (x.name, w)
      fan := none }

/-- The loop of the strips is over: none of them is in flight, and no entry of one is still to start. -/
def fanOver (v : Vlc) (f : Fan) : Bool :=
  f.strips.isEmpty && v.vq.all (fun e => e.strip.map (·.1) != some f.serial) &&
    (match v.loop with
     | some l => l.serial != f.serial
     | none => true)

/-- The strips that have ended are in flight no more, and after the loop the names and predicates take their values (R149, R152). -/
def settleFan (v : Vlc) : Vlc :=
  let v := endStrips v
  match v.fan with
  | none => v
  | some f => if fanOver v f then fanMerge v else v

def State.settle (s : State) : State := s.modVlc settleFan

/-- VSTART as it now stands belongs to the lowest-numbered stopped strip, or to none (R103, R152). -/
def Fan.sync (f : Fan) (vstart : BitVec 13) : Fan :=
  match f.lowest with
  | none => { f with loose := vstart }
  | some l => { f with strips := f.strips.map fun x => if x.k = l.k then { x with at_ := some vstart } else x }

def insertStrip (x : Strip) : List Strip → List Strip
  | [] => [x]
  | y :: ys => if x.k < y.k then x :: y :: ys else y :: insertStrip x ys

/-- The strips of a loop, up to a number, that have an entry in the queue and are not in flight. -/
def newStrips (v : Vlc) (n k : Nat) : List Nat :=
  let held : List Nat := match v.fan with
    | some f => if f.serial = n then f.strips.map (·.k) else []
    | none => []
  ((v.vq.filterMap fun e => e.strip.bind fun x => if x.1 = n ∧ x.2 ≤ k ∧ !held.contains x.2 then some x.2 else none).eraseDups)

/-- Strips start in their order: with an entry of a strip, the strips before it that have entries are in flight too (R148). -/
def startStrips (v : Vlc) (n k : Nat) (f : Fan) : Fan :=
  (newStrips { v with fan := some f } n k ++ [k]).foldl (fun (f : Fan) j =>
    if f.strips.any fun x => x.k == j then f
    else { f with strips := insertStrip ⟨j, v.vf.fresh, v.poison, none⟩ f.strips }) f

/-- A VSTART that no strip has taken is for the strip of the oldest entry: each but a release entry obeys it, or at the least reads, writes
or clears it (R103; assumption 95, DEDUCED). -/
def takeVstart (v : Vlc) (f : Fan) : Fan :=
  if f.loose = 0 then f
  else
    match (v.vq.find? fun e => !isMarker e.i).bind (·.strip) with
    | none => f
    | some (n, j) =>
      if n = f.serial ∧ f.strips.any fun x => x.k == j then
        { f with loose := 0, strips := f.strips.map fun x => if x.k = j then { x with at_ := some f.loose } else x }
      else f

/-- Make ready for an entry: outside the loop the strips merge; inside it the entry's strip is in flight, and the VSTART that a loop
finds, or that is left between its strips, is taken. -/
def fanReady (strip : Option (Nat × Nat)) (v : Vlc) : Vlc :=
  match strip with
  | none => fanMerge v
  | some (n, k) =>
    let v := match v.fan with
      | some f => if f.serial = n then endStrips { v with fan := some (f.sync v.vstart) } else fanMerge v
      | none => fanMerge v
    { v with fan := some (takeVstart v (startStrips v n k (v.fan.getD (Fan.opened n v.vstart)))) }

/-- Bring the private file of an entry's strip into the place of the VLC's. -/
def stripIn (strip : Option (Nat × Nat)) (v : Vlc) : Vlc :=
  match strip, v.fan with
  | some (_, k), some f =>
    match f.strips.find? fun x => x.k == k with
    | some x => { v with vf := x.vf, poison := x.poison, vstart := x.at_.getD 0 }
    | none => v
  | _, _ => v

/-- Put the private file of an entry's strip back; `v` is the VLC as it stood before.  VSTART shows the lowest-numbered stopped
strip. -/
def stripOut (strip : Option (Nat × Nat)) (done : Bool) (v w : Vlc) : Vlc :=
  match strip, w.fan with
  | some (_, k), some f =>
    let f := { f with strips := f.strips.map fun x =>
      if x.k = k then { x with vf := w.vf, poison := w.poison, at_ := if done && w.vstart == 0 then none else some w.vstart } else x }
    { w with vf := v.vf, poison := v.poison, fan := some f, vstart := f.shown }
  | _, _ => w

/-- A word is marked poisoned once. -/
def addPoison (x : Nat × Nat) (xs : List (Nat × Nat)) : List (Nat × Nat) := if xs.contains x then xs else x :: xs

/-- A word of the row of a name of the VLC: a strip that has not written the name reads it too (R149, R153). -/
def poisonRow (v : Vlc) (x : Nat × Nat) : Vlc :=
  { v with
    poison := addPoison x v.poison
    fan := v.fan.map fun f => { f with
      strips := f.strips.map fun y => if y.vf.wrote.getLsbD x.1 then y else { y with poison := addPoison x y.poison } } }

/-- A strip in flight has a private row of a name. -/
def hasPrivate (k n : Nat) (y : Strip) : Bool := y.k == k && y.vf.wrote.getLsbD n && !y.vf.dead.getLsbD n

/-- A word of a private row: of a strip in flight, or of one that has ended (R149, R153). -/
def poisonPrivate (v : Vlc) (k : Nat) (x : Nat × Nat) : Vlc :=
  { v with fan := v.fan.map fun f => { f with
      strips := f.strips.map fun y => if hasPrivate k x.1 y then { y with poison := addPoison x y.poison } else y
      left := f.left.map fun (y : StripWrite) =>
        if y.strip = k ∧ y.name = x.1 ∧ !y.dead ∧ !y.poison.contains x.2 then { y with poison := x.2 :: y.poison } else y } }

/-- The row of a name that is not dead, or a private row, exists (R120, R149). -/
def rowExists (v : Vlc) (n : Nat) : Option Nat → Bool
  | none => !v.vf.dead.getLsbD n
  | some k => match v.fan with
    | none => false
    | some f => f.strips.any (hasPrivate k n) || f.left.any fun y => y.strip == k && y.name == n && !y.dead

/-- An uncorrectable error in a word of a row. -/
def poisonWord (strip : Option Nat) (x : Nat × Nat) (v : Vlc) : Vlc :=
  match strip with
  | none => poisonRow v x
  | some k => poisonPrivate v k x

/-- Rows that a strip holds: written names that are not dead (R149). -/
def borrowed (f : VFile) : Nat := ((List.range 256).filter fun n => f.wrote.getLsbD n && !f.dead.getLsbD n).length

/-- Rows of the pool and free rows of a VLC's own slot (R119, R120). -/
def ownRows (v : Vlc) : Nat := 128 + ((List.range 256).filter v.vf.dead.getLsbD).length

/-- Rows that a VLC's strips may hold with so many in flight: 128 for each, and at the least those that ended strips leave, which pass to
the strips after them (R119, R149; assumption 56, DESIGN CHOICE). -/
def rowsWith (f : Fan) (n : Nat) : Nat := max (f.left.filter fun x => !x.dead).length (128 * n)

/-- Rows that a VLC's strips may hold. -/
def stripRows (v : Vlc) : Nat :=
  match v.fan with
  | none => 0
  | some f => rowsWith f f.strips.length

/-- Rows that the VLCs of a core borrow from slots with no VLC (R119). -/
def lentRows (s : State) (core : Nat) : Nat :=
  ((s.vlcs.filter fun v => v.core == core && v.status != .absent).map fun v => stripRows v - ownRows v).sum

/-- Slots of a core on which no VLC stands or is placed (R119). -/
def emptySlots (s : State) (core : Nat) : Nat := 4 - (s.vlcs.filter fun v => v.core == core && v.status != .absent).length

/-- A strip of the VLC at the front may start with those before it: it needs no lent rows beyond those that the VLC has, or they are free
(R119).  The strip of the oldest entry always may: when it is not in flight, none is. -/
def stripRoom (s : State) (n k : Nat) : Bool :=
  let v := endStrips s.vlc
  let f := v.fan.getD (Fan.opened n v.vstart)
  let has := stripRows s.vlc - ownRows s.vlc
  let need := rowsWith f (f.strips.length + (newStrips v n k).length) - ownRows v
  decide (need ≤ has) || decide (lentRows s v.core - has + need ≤ 384 * emptySlots s v.core)

/-- An entry that runs only at the head: a notify store and a release wait for every entry before them (R234, R259), and so does a control
access (R112). -/
def headOnly : Instr → Bool
  | .vstNtf .. => true
  | i => isMarker i || isCtl i

/-- The entries of the queue that may run: in a P = 1 loop the oldest entry of each of up to four strips (R148, R150), but none that runs
only at the head, and none behind a control access. -/
def eligible (s : State) : List Nat :=
  let v := s.vlc
  (List.range v.vq.length).filter fun k =>
    k == 0 ||
    (match v.vq[k]? with
     | none => false
     | some e =>
       match e.strip with
       | none => false
       | some (n, j) =>
         !headOnly e.i &&
         (v.vq.take k).all (fun b => !isCtl b.i &&
           match b.strip with
           | some (m, i) => m == n && i != j && decide (j < i + 4)
           | none => false) &&
         ((match v.fan with
           | some f => f.serial == n && f.strips.any fun x => x.k == j
           | none => false) || stripRoom s n j))

/-! ### The head of the queue -/

/-- The count that VSTART is compared with (R103). -/
def entryCount (v : Vlc) (e : VEntry) : Nat :=
  match e.i with
  | .mxa .. | .mxs .. | .mxw .. => e.mvl
  | .mma .. | .mmaG .. | .mmav .. | .mst .. | .mld .. => e.tsm
  | .pga .. | .psc .. | .pscAdd .. | .pscMax .. =>
    (((v.plans.find? fun x => x.1 == e.a).map fun x => x.2.entries.length)).getD 0
  | .vredsum .. | .vredmax .. | .vredmin .. | .vcompress .. | .vcidx .. | .vtop .. | .pexp ..
  | .pand .. | .por .. | .pxor .. | .pandn .. | .psbf .. | .psif .. | .pcnt .. | .pfirst ..
  | .mclr .. | .mrd .. | .mwr .. | .planMk .. | .planMkm .. | .planInv .. | .planCmp .. | .planLd .. | .planSt ..
  | .planRel .. | .planQ .. | .tidLd .. | .tidSt .. | .tidSet .. | .tidQ .. => 1
  | _ => e.vl

/-- Whether VCOMP counts an entry: a vector instruction, and neither a control access nor a release entry (R356). -/
def countsVcomp : Instr → Bool
  | .ctlRd .. | .ctlWr .. | .ctlSet .. | .ctlClr .. | .mexit => false
  | i => !isMarker i

/-- Run a body over an entry: it is abandoned when VSTART stands at or above its count (R103).  A strip that would hold more than 128
rows has written nothing (R149; assumption 68, DESIGN CHOICE: the fault is one of the vector half, VEC = 1). -/
def runBody (body : VBody) (steps : Option Nat) (e : VEntry) (s : State) : State × VEnd :=
  let s := s.modVlc (fanReady e.strip)
  let u := s.modVlc fun v =>
    let v := stripIn e.strip v
    { v with
      run := some ⟨steps, e.seq⟩
      vstart := if e.ahead ≠ 0 ∧ v.vstart = 0 then BitVec.ofNat 13 e.ahead else v.vstart }
  let vs := u.vlc.vstart.toNat
  let out (r : State × VEnd) : State × VEnd :=
    (r.1.modVlc fun w => stripOut e.strip (r.2 == .done) s.vlc w, r.2)
  if vs ≠ 0 ∧ vs ≥ entryCount u.vlc e ∧ obeysVstart e.i then out (u.clearVstart, .done)
  else
    let r := body e u
    if e.strip.isSome ∧ borrowed r.1.vlc.vf > 128 then out (u, .fault (decodeTrap fcFIELD e.word 1)) else out r

/-- A strip with a lower number has an issued entry that has neither completed nor faulted: its fault would come first (R152). -/
def lowerStrip (v : Vlc) (e : VEntry) : Bool :=
  match e.strip, v.fan with
  | some (_, k), some f => f.strips.any fun x => decide (x.k < k) && x.at_.isSome
  | _, _ => false

/-- An entry that stays in the queue keeps the sequence number it took, and a chained consumer the elements it has done. -/
def keepEntry (k ahead : Nat) (v : Vlc) : Vlc :=
  { v with vq := v.vq.mapIdx fun j e => if j = k then { e with seq := (v.run.map (·.seq)).getD e.seq, ahead := ahead } else e }

/-- The end of a run of the entry at an index: it leaves the queue when it has completed; a fault, a wait or the end of its turn
leaves it there (R31, R41). -/
def endRun (k : Nat) (e : VEntry) : State × VEnd → State
  | (t, .done) =>
    let t := t.modVlc fun v => { v with vq := v.vq.eraseIdx k, run := none }
    if countsVcomp e.i then t.modCore t.vlc.core fun c => { c with vcomp := c.vcomp + 1 } else t
  | (t, .fault tr) =>
    let t := (feLeave t t.vlc.core t.vlc.slot).modVlc fun v => { keepEntry k 0 v with run := none }
    if lowerStrip t.vlc e then t else vectorFault t e tr
  | (t, .wait gs) => t.modVlc fun v => { keepEntry k 0 v with run := none, vwait := .waits k gs }
  | (t, .pause) => t.modVlc fun v => { keepEntry k 0 v with run := none }

/-- Run the entry at an index of the queue: whole, or for so many elements, rows or entries. -/
def runEntry (body : VBody) (k : Nat) (steps : Option Nat) (e : VEntry) (s : State) : State :=
  endRun k e (runBody body steps e s)

/-- Run the entry at the head of the queue. -/
def runHead (body : VBody) (e : VEntry) (s : State) : State := runEntry body 0 none e s

/-- Stall: nothing changes until the vector half has moved. -/
def stall (s : State) : Out := .next s

/-- A fault of the scalar unit: the entries already enqueued complete first; in handler state they are frozen (R59, R363, R365). -/
def scalarStop (s : State) (t : Trap) : Out :=
  if s.vlc.vq ≠ [] ∧ !s.vlc.inHandler then stall s else .next (scalarFault s t)

/-- A fault of an instruction of the scalar unit that has done a part of its range: where entries are queued, nothing of it happens before
they complete (R59, R248). -/
def rangeStop (s t : State) (tr : Trap) : Out :=
  if s.vlc.vq ≠ [] ∧ !s.vlc.inHandler then stall s else .next (scalarFault t tr)

/-- Whether an entry of the queue accesses memory: its accesses are those of the vector stream (R40, R251). -/
def accessesMemory : Instr → Bool
  | .vld .. | .vldS .. | .vldFf .. | .vldNc .. | .vldSeg .. | .vldFe .. | .vldFec .. | .vldSc .. | .vldAcq .. | .vst .. | .vstS ..
  | .vstNtf .. | .vstNc .. | .vstSeg .. | .vstFe .. | .vstMd .. | .vstSc .. | .vstRel .. | .planMkm .. | .pga .. | .psc ..
  | .pscAdd .. | .pscMax .. | .planLd .. | .planSt .. | .tidLd .. | .tidSt .. | .mma .. | .mmaG .. | .mmav .. | .mst .. | .mld .. => true
  | _ => false

/-- Scalar operands that an instruction takes into the scalar-operand queue, of 64 bits each (R15, R36). -/
def operandSlots (i : Instr) : Nat :=
  match i with
  | .vadd _ k .. | .vsub _ k .. | .vrsub _ k .. | .vmul _ k .. | .vmin _ k .. | .vmax _ k .. | .vmulh _ k .. | .vdiv _ k ..
  | .vand _ k .. | .vor _ k .. | .vxor _ k .. | .vshl _ k .. | .vshr _ k .. | .vsar _ k .. | .vmacc _ k .. | .vnmsac _ k ..
  | .vwmacc _ k .. | .vwadd _ k .. | .vwmul _ k .. | .vnclip _ k .. | .vcmpeq _ k .. | .vcmpne _ k .. | .vcmplt _ k ..
  | .vcmple _ k .. | .vmerge _ k .. | .vsadd _ k .. | .vssub _ k .. | .vredsum _ k .. | .vredmax _ k .. | .vredmin _ k ..
  | .vbscale _ k .. | .vid _ k .. => if k then 1 else 0
  | .vmvVx .. | .vxchg .. | .vslup .. | .vsldn .. | .vtop .. | .vcidx .. | .planMk .. | .pga .. | .psc .. | .pscAdd .. | .pscMax ..
  | .mst .. | .mld .. | .mrd .. | .mwr .. | .vld .. | .vldNc .. | .vldSeg .. | .vldFe .. | .vldFec .. | .vst .. | .vstNc ..
  | .vstSeg .. | .vstFe .. | .vstMd .. | .vldSc .. | .vstSc .. | .vldAcq .. | .vstRel .. | .vldFf .. | .planLd .. | .planSt ..
  | .tidLd .. | .tidSt .. | .planQ .. | .tidQ .. | .ctlWr .. | .ctlSet .. | .ctlClr .. => 1
  | .vldS .. | .vstS .. | .vstNtf .. | .planMkm .. | .tidSet .. | .mma .. | .mmaG .. | .mmav .. => 2
  | _ => 0

/-- Both queues have room for an entry (R15, R36). -/
def queueRoom (v : Vlc) (i : Instr) : Bool :=
  let q := v.vq.filter fun e => !isMarker e.i
  decide (q.length < 64) && decide ((q.map fun e => operandSlots e.i).sum + operandSlots i ≤ 64)

/-- Enqueue an instruction; an empty queue runs it at once, as the schedule of the vector half says (assumption 8, DESIGN CHOICE). -/
def issue (sp : VSpec) (body : VBody) (e : VEntry) (s : State) : Out :=
  match specTrap e.word sp s.vlc with
  | some t => scalarStop s t
  | none =>
    if !queueRoom s.vlc e.i then stall s
    else
      let s' := s.modVlc fun v => { v.next with vq := v.vq ++ [e] }
      if s.vlc.vq ≠ [] then .next s'
      else
        match s.vlc.sched with
        | [] => .next (runHead body e s')
        | _ :: rest => .next (s'.modVlc fun v => { v with sched := rest })

/-! ### Common specs -/

/-- Two groups overlap. -/
def overlaps (a an b bn : Nat) : Bool := decide (a < b + bn) && decide (b < a + an)

/-- A predicate field is in range (R51). -/
def pBad (f : Fld) (which : Nat) : Nat := if f.toNat > 15 then which else 0

def slotBad (f : Fld) (which : Nat) : Nat := if f.toNat > 31 then which else 0

/-- A tile field against the tile count of MVL (R51). -/
def tileBad (mvl : Nat) (f : Fld) (which : Nat) : Nat :=
  if f.toNat ≥ (if mvl = 0 then 0 else (64 / mvl) * (64 / mvl)) then which else 0

/-- The first field out of range among D, A, B. -/
def firstBad (a b c : Nat) : Nat := if a ≠ 0 then a else if b ≠ 0 then b else c

def clsIn (c : Cls) (lo hi : Nat) : Bool := decide (lo ≤ clsNum c) && decide (clsNum c ≤ hi)

end Sys2Proof.Machine
end

