-- ==== Sys2Proof/Machine/Scalar.lean ====
section
/-! DEFINITION. The scalar arithmetic, immediates, branches, jumps, loads, stores and atomics
(spec/04_scalar_registers.md R94 to R99; spec/08_memory_access.md R223 to R225, R241). -/

namespace Sys2Proof.Machine

/-! ### Shared operations -/

def flag64 (b : Bool) : Word := if b then 1 else 0

/-- Write f(A, B) to x[D] (R94). -/
def aluR (f : Word → Word → Word) (d a b : Fld) (s : State) : Out := .next (s.retire d (f (s.vlc.rx a) (s.vlc.rx b)))

/-- Write f(A) to x[D]. -/
def aluU (f : Word → Word) (d a : Fld) (s : State) : Out := .next (s.retire d (f (s.vlc.rx a)))

/-- Division at 64 bits with the edge results of R94. -/
def div64 (isSigned : Bool) (a b : Word) : Word := BitVec.ofNat 64 (divI isSigned 64 a.toNat b.toNat)

def rem64 (isSigned : Bool) (a b : Word) : Word := BitVec.ofNat 64 (remI isSigned 64 a.toNat b.toNat)

def mulhS (a b : Word) : Word := BitVec.ofInt 64 (a.toInt * b.toInt / 2 ^ 64)

def mulhU (a b : Word) : Word := BitVec.ofNat 64 (a.toNat * b.toNat / 2 ^ 64)

/-- Number of leading zero bits of the low `n` bits. -/
def clzFrom (w : Word) : Nat → Nat
  | 0 => 0
  | n + 1 => if w.getLsbD n then 0 else clzFrom w n + 1

/-- Number of zero bits from bit `i` up to the first one, among `n` bits. -/
def ctzFrom (w : Word) : Nat → Nat → Nat
  | 0, _ => 0
  | n + 1, i => if w.getLsbD i then 0 else ctzFrom w n (i + 1) + 1

/-- Number of one bits of the low `n`. -/
def popFrom (w : Word) : Nat → Nat
  | 0 => 0
  | n + 1 => popFrom w n + (w.getLsbD n).toNat

def sext12 (imm : BitVec 12) : Word := imm.signExtend 64

def zext12 (imm : BitVec 12) : Word := imm.zeroExtend 64

def minS (a b : Word) : Word := if a.toInt ≤ b.toInt then a else b
def maxS (a b : Word) : Word := if a.toInt ≤ b.toInt then b else a
def minU (a b : Word) : Word := if a.toNat ≤ b.toNat then a else b
def maxU (a b : Word) : Word := if a.toNat ≤ b.toNat then b else a

/-- Branch to PC + sext(imm) × 4 when the condition holds (R98). -/
def branch (c : Word → Word → Bool) (a b : Fld) (imm : BitVec 12) (s : State) : Out :=
  if c (s.vlc.rx a) (s.vlc.rx b) then .next (s.modVlc fun v => v.goto (v.pc + sext12 imm * 4))
  else .next s.pass

/-! ### Meanings: major 0x01 (R94) -/

def execAdd (d a b : Fld) (s : State) : Out := aluR (· + ·) d a b s
def execSub (d a b : Fld) (s : State) : Out := aluR (· - ·) d a b s
def execAnd (d a b : Fld) (s : State) : Out := aluR (· &&& ·) d a b s
def execOr (d a b : Fld) (s : State) : Out := aluR (· ||| ·) d a b s
def execXor (d a b : Fld) (s : State) : Out := aluR (· ^^^ ·) d a b s
def execShl (d a b : Fld) (s : State) : Out := aluR (fun x y => x <<< (y.toNat % 64)) d a b s
def execShr (d a b : Fld) (s : State) : Out := aluR (fun x y => x >>> (y.toNat % 64)) d a b s
def execSar (d a b : Fld) (s : State) : Out := aluR (fun x y => x.sshiftRight (y.toNat % 64)) d a b s
def execCmplt (d a b : Fld) (s : State) : Out := aluR (fun x y => flag64 (decide (x.toInt < y.toInt))) d a b s
def execCmpltn (d a b : Fld) (s : State) : Out := aluR (fun x y => flag64 (decide (x.toNat < y.toNat))) d a b s
def execMul (d a b : Fld) (s : State) : Out := aluR (· * ·) d a b s
def execMulh (d a b : Fld) (s : State) : Out := aluR mulhS d a b s
def execMulhn (d a b : Fld) (s : State) : Out := aluR mulhU d a b s
def execDiv (d a b : Fld) (s : State) : Out := aluR (div64 true) d a b s
def execDivn (d a b : Fld) (s : State) : Out := aluR (div64 false) d a b s
def execRem (d a b : Fld) (s : State) : Out := aluR (rem64 true) d a b s
def execRemn (d a b : Fld) (s : State) : Out := aluR (rem64 false) d a b s
def execMin (d a b : Fld) (s : State) : Out := aluR minS d a b s
def execMax (d a b : Fld) (s : State) : Out := aluR maxS d a b s
def execMinn (d a b : Fld) (s : State) : Out := aluR minU d a b s
def execMaxn (d a b : Fld) (s : State) : Out := aluR maxU d a b s
def execClz (d a : Fld) (s : State) : Out := aluU (fun x => BitVec.ofNat 64 (clzFrom x 64)) d a s
def execCtz (d a : Fld) (s : State) : Out := aluU (fun x => BitVec.ofNat 64 (ctzFrom x 64 0)) d a s
def execPopc (d a : Fld) (s : State) : Out := aluU (fun x => BitVec.ofNat 64 (popFrom x 64)) d a s

/-! ### Immediates (R95 to R97) -/

def execAddi (d a : Fld) (imm : BitVec 12) (s : State) : Out := aluU (· + sext12 imm) d a s
def execAndi (d a : Fld) (imm : BitVec 12) (s : State) : Out := aluU (· &&& zext12 imm) d a s
def execOri (d a : Fld) (imm : BitVec 12) (s : State) : Out := aluU (· ||| zext12 imm) d a s
def execXori (d a : Fld) (imm : BitVec 12) (s : State) : Out := aluU (· ^^^ zext12 imm) d a s
def execShli (d a : Fld) (sh : BitVec 6) (s : State) : Out := aluU (· <<< sh.toNat) d a s
def execShri (d a : Fld) (sh : BitVec 6) (s : State) : Out := aluU (· >>> sh.toNat) d a s
def execSari (d a : Fld) (sh : BitVec 6) (s : State) : Out := aluU (·.sshiftRight sh.toNat) d a s
def execCmplti (d a : Fld) (imm : BitVec 12) (s : State) : Out :=
  aluU (fun x => flag64 (decide (x.toInt < (sext12 imm).toInt))) d a s

/-- sext64(IMM19 << 12) (R96). -/
def upper (imm : BitVec 19) : Word := imm.signExtend 64 <<< 12

def execLui (d : Fld) (imm : BitVec 19) (s : State) : Out := .next (s.retire d (upper imm))
def execAuipc (d : Fld) (imm : BitVec 19) (s : State) : Out := .next (s.retire d (s.vlc.pc + upper imm))

/-- The value of `flimm` (R97). -/
def flimmValue (k : FlimmKind) (imm : BitVec 16) : Word :=
  match k with
  | .fp16 => BitVec.ofNat 64 (cvtFpFp .fp16 .fp32 0 false imm.toNat).1
  | .bf16 => BitVec.ofNat 64 (cvtFpFp .bf16 .fp32 0 false imm.toNat).1
  | .i16 => imm.signExtend 64

def execFlimm (k : FlimmKind) (d : Fld) (imm : BitVec 16) (s : State) : Out := .next (s.retire d (flimmValue k imm))

/-! ### Jumps and branches (R98, R99) -/

def execJal (imm : BitVec 26) (s : State) : Out :=
  .next (s.modVlc fun v => (v.setX 1 (v.pc + 4)).goto (v.pc + imm.signExtend 64 * 4))

def execJalr (d a : Fld) (imm : BitVec 12) (s : State) : Out :=
  let t := s.vlc.rx a + sext12 imm * 4
  if t.toNat % 4 ≠ 0 then scalarStop s (trapAt fcALIGN t 0)
  else .next (s.modVlc fun v => (v.wx d (v.pc + 4)).goto t)

def execBeq (a b : Fld) (imm : BitVec 12) (s : State) : Out := branch (fun x y => x == y) a b imm s
def execBne (a b : Fld) (imm : BitVec 12) (s : State) : Out := branch (fun x y => x != y) a b imm s
def execBlt (a b : Fld) (imm : BitVec 12) (s : State) : Out := branch (fun x y => decide (x.toInt < y.toInt)) a b imm s
def execBge (a b : Fld) (imm : BitVec 12) (s : State) : Out := branch (fun x y => decide (y.toInt ≤ x.toInt)) a b imm s
def execBltn (a b : Fld) (imm : BitVec 12) (s : State) : Out := branch (fun x y => decide (x.toNat < y.toNat)) a b imm s
def execBgen (a b : Fld) (imm : BitVec 12) (s : State) : Out := branch (fun x y => decide (y.toNat ≤ x.toNat)) a b imm s

/-! ### Loads and stores (R223, R224) -/

/-- A scalar load of `n` bytes at x[A] + sext(imm) × n. -/
def scalarLoad (n : Nat) (ext : Nat → Word) (d a : Fld) (imm : BitVec 9) (s : State) : Out :=
  let va := s.vlc.rx a + imm.signExtend 64 * BitVec.ofNat 64 n
  match readMem s s.me .load va n .plain with
  | (t, .error e) => scalarStop t e
  | (t, .ok v) => .next (t.retire d (ext v))

def signExt (n : Nat) (v : Nat) : Word := BitVec.ofInt 64 (sgn (8 * n) v)

def zeroExt (v : Nat) : Word := BitVec.ofNat 64 v

def execLdI8 (d a : Fld) (imm : BitVec 9) (s : State) : Out := scalarLoad 1 (signExt 1) d a imm s
def execLdN8 (d a : Fld) (imm : BitVec 9) (s : State) : Out := scalarLoad 1 zeroExt d a imm s
def execLdI16 (d a : Fld) (imm : BitVec 9) (s : State) : Out := scalarLoad 2 (signExt 2) d a imm s
def execLdN16 (d a : Fld) (imm : BitVec 9) (s : State) : Out := scalarLoad 2 zeroExt d a imm s
def execLdI32 (d a : Fld) (imm : BitVec 9) (s : State) : Out := scalarLoad 4 (signExt 4) d a imm s
def execLdN32 (d a : Fld) (imm : BitVec 9) (s : State) : Out := scalarLoad 4 zeroExt d a imm s
def execLd64 (d a : Fld) (imm : BitVec 9) (s : State) : Out := scalarLoad 8 zeroExt d a imm s

/-- Perform a checked scalar store: an LO cell takes an LO store with the next sequence number (R224). -/
def scalarStoreAt (s : State) (d : Dest) (n : Nat) (w : Word) (m : Mode) : State :=
  if d.isLo then
    let (s, q) := takeSeq s
    loIssue s s.vlc.core d.pa w q (BitVec.ofNat 12 s.vlc.core) false s.gang.queue
  else storeAt s s.me d n (w.toNat % 2 ^ (8 * n)) m

/-- A scalar store of the low `n` bytes of x[B] at x[A] + sext(imm) × n. -/
def scalarStore (n : Nat) (b a : Fld) (imm : BitVec 10) (s : State) : Out :=
  let va := s.vlc.rx a + imm.signExtend 64 * BitVec.ofNat 64 n
  match access s s.me .store va n .write with
  | (t, .error e) => scalarStop t e
  | (t, .ok d) => .next (scalarStoreAt t d n (s.vlc.rx b) .plain).pass

def execSt8 (b a : Fld) (imm : BitVec 10) (s : State) : Out := scalarStore 1 b a imm s
def execSt16 (b a : Fld) (imm : BitVec 10) (s : State) : Out := scalarStore 2 b a imm s
def execSt32 (b a : Fld) (imm : BitVec 10) (s : State) : Out := scalarStore 4 b a imm s
def execSt64 (b a : Fld) (imm : BitVec 10) (s : State) : Out := scalarStore 8 b a imm s

/-! ### Acquire loads and release stores (R225, R259 to R261) -/

def QWidth.bytes' : QWidth → Nat
  | .w8 => 1 | .w16 => 2 | .w32 => 4 | .w64 => 8

/-- Acquire loads at a scope other than ctx are served at the home (R261). -/
def homeMode (sc : Scope) : Mode := if sc = .ctx then .plain else .bypass

def execLdAcq (sc : Scope) (w : QWidth) (x a : Fld) (imm : BitVec 6) (s : State) : Out :=
  let n := QWidth.bytes' w
  let va := s.vlc.rx a + imm.signExtend 64 * BitVec.ofNat 64 n
  match readMem s s.me .load va n (homeMode sc) with
  | (t, .error e) => scalarStop t e
  | (t, .ok v) => .next ((acquireAt t t.vlc.core sc).retire x (zeroExt v))

def execStRel (sc : Scope) (w : QWidth) (x a : Fld) (imm : BitVec 6) (s : State) : Out :=
  let n := QWidth.bytes' w
  let va := s.vlc.rx a + imm.signExtend 64 * BitVec.ofNat 64 n
  match access s s.me .store va n .write with
  | (t, .error e) => scalarStop t e
  | (t, .ok d) => .next (scalarStoreAt (releaseAt t t.vlc.core sc) d n (s.vlc.rx x) .plain).pass

/-! ### Atomics (R241) -/

/-- A scalar atomic of `n` bytes: `f old operand expected` is the new value, and `ext` widens the old one. -/
def amo (n : Nat) (ext : Nat → Word) (f : Nat → Nat → Nat → Nat) (d a b : Fld) (s : State) : Out :=
  let va := s.vlc.rx a
  let m := 2 ^ (8 * n)
  let opnd := (s.vlc.rx b).toNat % m
  let expected := (s.vlc.rx d).toNat % m
  match access s s.me .atomic va n .atomic with
  | (t, .error e) => scalarStop t e
  | (t, .ok dst) =>
    let (t, old) := rmwAt t t.me dst n fun o => f o opnd expected % m
    .next (t.retire d (ext old))

def amoBytes (w32 : Bool) : Nat := if w32 then 4 else 8

def amoSignExt (w32 : Bool) : Nat → Word := if w32 then signExt 4 else zeroExt

/-- A two-operand integer atomic through the element operations at its width. -/
def amoAlu (op : VOp) (sg w32 : Bool) (o b _e : Nat) : Nat := (aluI op sg (8 * amoBytes w32) o b 0).1

def execAmoAdd (w32 : Bool) (d a b : Fld) (s : State) : Out := amo (amoBytes w32) (amoSignExt w32) (amoAlu .add true w32) d a b s
def execAmoAnd (w32 : Bool) (d a b : Fld) (s : State) : Out := amo (amoBytes w32) (amoSignExt w32) (amoAlu .and true w32) d a b s
def execAmoOr (w32 : Bool) (d a b : Fld) (s : State) : Out := amo (amoBytes w32) (amoSignExt w32) (amoAlu .or true w32) d a b s
def execAmoXor (w32 : Bool) (d a b : Fld) (s : State) : Out := amo (amoBytes w32) (amoSignExt w32) (amoAlu .xor true w32) d a b s
def execAmoMin (w32 : Bool) (d a b : Fld) (s : State) : Out := amo (amoBytes w32) (amoSignExt w32) (amoAlu .min true w32) d a b s
def execAmoMax (w32 : Bool) (d a b : Fld) (s : State) : Out := amo (amoBytes w32) (amoSignExt w32) (amoAlu .max true w32) d a b s
def execAmoMinn (w32 : Bool) (d a b : Fld) (s : State) : Out := amo (amoBytes w32) zeroExt (amoAlu .min false w32) d a b s
def execAmoMaxn (w32 : Bool) (d a b : Fld) (s : State) : Out := amo (amoBytes w32) zeroExt (amoAlu .max false w32) d a b s
def execAmoSwap (w32 : Bool) (d a b : Fld) (s : State) : Out := amo (amoBytes w32) (amoSignExt w32) (fun _ x _ => x) d a b s
def execAmoCas (w32 : Bool) (d a b : Fld) (s : State) : Out :=
  amo (amoBytes w32) (amoSignExt w32) (fun o x e => if o = e then x else o) d a b s
def execAmoFadd (d a b : Fld) (s : State) : Out := amo 4 zeroExt (fun o x _ => (aluF .add .fp32 0 o x 0).1) d a b s
def execAmoFmax (d a b : Fld) (s : State) : Out := amo 4 zeroExt (fun o x _ => (aluF .max .fp32 0 o x 0).1) d a b s
def execAmoFmin (d a b : Fld) (s : State) : Out := amo 4 zeroExt (fun o x _ => (aluF .min .fp32 0 o x 0).1) d a b s

end Sys2Proof.Machine
end

