-- ==== Sys2Proof/Machine/Sync.lean ====
section
/-! DEFINITION. Fences (spec/09 R256 to R261), counters and progress waits (spec/12 R343 to R348), and the range
instructions (spec/08 R243 to R248). -/

namespace Sys2Proof.Machine

/-! ### Fences (R257; assumption 9, DEDUCED) -/

/-- A fence that waits until every vector access enqueued before it is performed (R38, R257); in handler state it does not wait for frozen
entries (R365). -/
def afterVector (s : State) (f : State → State) : Out :=
  if (s.vlc.vq.any fun e => accessesMemory e.i) ∧ !s.vlc.inHandler then stall s else .next (f s).pass

def execFenceAcq (sc : Scope) (s : State) : Out := afterVector s fun s => acquireAt s s.vlc.core sc

def execFenceRel (sc : Scope) (s : State) : Out := afterVector s fun s => releaseAt s s.vlc.core sc

def execFenceFull (sc : Scope) (s : State) : Out :=
  afterVector s fun s => acquireAt (releaseAt s s.vlc.core sc) s.vlc.core sc

/-- Every earlier scalar access is performed when it executes. -/
def execFenceSv (s : State) : Out := .next s.pass

def execFenceVs (s : State) : Out := afterVector s id

/-! ### Counters (R343 to R345) -/

/-- An indivisible update of the counter at x[A]; x[D] takes the old value. -/
def counterUpdate (f : Word → Word) (d a : Fld) (s : State) : Out :=
  match access s s.me .counter (s.vlc.rx a) 8 .atomic with
  | (t, .error e) => scalarStop t e
  | (t, .ok dst) =>
    let (t, old) := rmwAt t t.me dst 8 fun o => (f (BitVec.ofNat 64 o)).toNat
    .next (t.retire d (BitVec.ofNat 64 old))

def execCinc (d a b : Fld) (s : State) : Out := counterUpdate (· + s.vlc.rx b) d a s

def execCset (d a b : Fld) (s : State) : Out := counterUpdate (fun _ => s.vlc.rx b) d a s

/-- The value of a counter at its home, or the arrival count of an LO cell. -/
def counterRead (s : State) (p : Party) (dst : Dest) : State × Nat :=
  if dst.isLo then
    (reachHome s dst.pa p.die p.queue false true true .normal, (Tab.get LoTag.reset s.lo (dst.pa / 8)).arrivals.toNat)
  else loadAt s p dst 8 .bypass

def execCread (d a : Fld) (s : State) : Out :=
  match access s s.me .cread (s.vlc.rx a) 8 .read with
  | (t, .error e) => scalarStop t e
  | (t, .ok dst) => let (t, v) := counterRead t t.me dst; .next (t.retire d (BitVec.ofNat 64 v))

/-- A wait at a home: complete at once, or enter an architectural wait (R346, R348). -/
def homeWait (s : State) (w : Wait) (sc : Scope) : State :=
  if waitMet s.mem w then (acquireAt s s.vlc.core sc).pass
  else s.modVlc fun v => { v with status := .waiting w, queuedWait := true }

/-- `cwait` and `pwait`: `mk` forms the wait at a physical address. -/
def waitAt (i : Instr) (rule : AccRule) (mk : Nat → Word → Scope → Wait) (sc a b : Fld) (s : State) : Out :=
  if 6 ≤ sc.toNat then scalarStop s (decodeTrap fcFIELD (wordOf i) 1)
  else
    match access s s.me rule (s.vlc.rx a) 8 .read with
    | (t, .error e) => scalarStop t e
    | (t, .ok dst) =>
      let t := match dst with
        | .phys pa kind => reachHome (if kind = 3 then t else bypass t t.vlc.core pa) pa t.me.die t.me.queue false (staysHome kind)
            (kind == 3) .normal
        | .ls _ _ => t
      let scope := scopeOfCode sc.toNat
      .next (homeWait t (mk dst.pa (t.vlc.rx b) scope) scope)

def execCwait (sc a b : Fld) (s : State) : Out := waitAt (.cwait sc a b) .counter .counter sc a b s

def execPwait (sc a b : Fld) (s : State) : Out := waitAt (.pwait sc a b) .pwait .progress sc a b s

/-! ### Ranges (R243) -/

/-- The longest range. -/
def maxRange : Nat := 2 ^ 24

/-- The checks of a range instruction: ALIGN at x[A], then FIELD for its length (assumption 75, DESIGN CHOICE: the order of the two). -/
def rangeTrap (i : Instr) (unit : Nat) (a n : Word) : Option Trap :=
  if a.toNat % unit ≠ 0 ∨ n.toNat % unit ≠ 0 then some (trapAt fcALIGN a 0)
  else if maxRange < n.toNat then some (decodeTrap fcFIELD (wordOf i) 3)
  else none

/-- The parts of a range in its 64 KiB pages, as first address and length; `fuel` bounds the pages. -/
def pageParts : Nat → Nat → Nat → List (Nat × Nat)
  | 0, _, _ => []
  | fuel + 1, a, n =>
    if n = 0 then []
    else
      let k := min n (65536 - a % 65536)
      (a, k) :: pageParts fuel (a + k) (n - k)

def rangeParts (a n : Word) : List (Nat × Nat) := pageParts 258 a.toNat (min n.toNat maxRange)

/-- What a range instruction does of its `n` bytes in a step, in units of lines or granules: all of them, or fewer where the halt of
the gang stops it; a run that was stopped is made again over the whole range (R248; assumption 8, DESIGN CHOICE). -/
def rangeRun (s : State) (unit : Nat) (n : Word) : Word × Bool :=
  match s.gang.st with
  | .halting _ => let k := unit * Config.rangeCut s.tick; if k < n.toNat then (BitVec.ofNat 64 k, true) else (n, false)
  | _ => (n, false)

/-- The end of a range instruction: it goes on to the next word unless it was stopped. -/
def endRange (cut : Bool) (s : State) (f : State → State) : Out := .next (if cut then s else f s)

/-- An address of the LS window. -/
def inLsWindow (a : Nat) : Bool := decide (lsWindow ≤ a) && decide (a < lsWindow + lsBytes)

/-- The lines of a physical part. -/
def partLines (pa n : Nat) : List Nat := (List.range (ceilDiv (pa % 128 + n) 128)).map (pa / 128 + ·)

/-! ### Flush and invalidate (R244) -/

/-- Write back, and with `inval` drop, the lines of a part that a core's L1s hold.  A line of an SO page holds no dirty byte (R244). -/
def flushPart (inval : Bool) (s : State) (pa n : Nat) : State :=
  (l1Cores s s.vlc.core).foldl (fun s c =>
    let s := deliverWhere s fun w => w.core == c && (partLines pa n).contains w.held.line
    (s.core c).l1.foldl (fun s l =>
      if !(partLines pa n).contains l.line then s
      else
        let s := cleanLine s c l
        if inval then s.modCore c fun k => { k with l1 := k.l1.filter fun x => x.line != l.line } else s) s) s

/-- Flush the pages of a range in order; a page that fails translation faults at the first byte that the range has in it, and a page of
whatever kind needs RD (R244; assumption 93, DEDUCED). -/
def flushParts (inval : Bool) : List (Nat × Nat) → State → State × Option Trap
  | [], s => (s, none)
  | (a, n) :: t, s =>
    if inLsWindow a then flushParts inval t s
    else
      match translate s s.me (BitVec.ofNat 64 a) 1 .read with
      | (s, .error e) => (s, some e)
      | (s, .ok (.ls _ _)) => flushParts inval t s
      | (s, .ok (.phys pa kind)) =>
        flushParts inval t (if kind = 3 ∨ placeOf pa ≠ .device then s else flushPart inval s pa n)

def flushRange (inval : Bool) (i : Instr) (a b : Fld) (s : State) : Out :=
  match rangeTrap i 128 (s.vlc.rx a) (s.vlc.rx b) with
  | some t => scalarStop s t
  | none =>
    let (n, cut) := rangeRun s 128 (s.vlc.rx b)
    match flushParts inval (rangeParts (s.vlc.rx a) n) s with
    | (t, some e) => rangeStop s t e
    | (t, none) => endRange cut t State.pass

def execDcFlush (a b : Fld) (s : State) : Out := flushRange false (.dcFlush a b) a b s

def execDcInval (a b : Fld) (s : State) : Out := flushRange true (.dcInval a b) a b s

/-! ### Discard (R245; assumption 13, DESIGN CHOICE) -/

/-- The bytes of a mask that reach their home before the discard does. -/
def racedBytes (key : Nat) (m : BitVec 128) : BitVec 128 :=
  BitVec.ofNat 128 (((List.range 128).filter fun k => m.getLsbD k && Config.discardKeeps (key * 128 + k)).foldl (fun m k => m + 2 ^ k) 0)

/-- A write-back that a discard meets in transit: of its bytes those arrive that reach their home first, and it counts as arrived
(R245, R274). -/
def raceWriteBack (key : Nat) (s : State) (w : WriteBack) : State :=
  arrive s { w with held := { w.held with dirty := racedBytes key w.held.dirty } }

/-- An L2 line leaves its slice: of its dirty bytes those that memory does not hold yet go back to what memory holds (R245). -/
def dropL2 (key : Nat) (s : State) (l : L2Line) : State :=
  let lost := l.dirty &&& ~~~racedBytes key l.dirty
  { s with mem := ((List.range 128).filter lost.getLsbD).foldl (fun m k =>
      memSetByte m (l.line * 128 + k) (l.under.extractLsb' (8 * k) 8)) s.mem }

/-- Drop one line: its write-backs in transit, the core's own copy, and the lines and replicas at the L2 slices.  Answers whether it was
found; a plan that watches it turns stale (R302). -/
def discardLine (s : State) (line key : Nat) : State × Bool :=
  let pa := line * 128
  let s := copyFirst (markWatched s pa 128) pa
  let due := s.writeBacks.filter fun w => w.held.line == line
  let own := findLine s s.vlc.core pa
  let found := !due.isEmpty || own.isSome || s.l2.any fun l => l.line == line
  let s := (due.zipIdx).foldl (fun s x => raceWriteBack (key * 1024 + 2 + x.2) s x.1)
    { s with writeBacks := s.writeBacks.filter fun w => w.held.line != line }
  let s := match own with
    | none => s
    | some l => dropLine (writeBack s (l1Core s s.vlc.core pa) { l with dirty := racedBytes (key * 1024) l.dirty }) s.vlc.core pa
  let s := (s.l2.filter fun l => l.line == line).foldl (dropL2 (key * 1024 + 1)) s
  ({ s with l2 := s.l2.filter fun l => l.line != line }, found)

def discardLines (key : Nat) : List Nat → State × Nat → State × Nat
  | [], r => r
  | l :: t, (s, n) =>
    let (s, found) := discardLine s l key
    discardLines (key + 1) t (s, if found then n + 1 else n)

/-- Discard the pages of a range in order; a page that fails faults at the first byte that the range has in it (R245; assumption 93,
DEDUCED). -/
def discardParts : Nat → List (Nat × Nat) → State × Nat → State × Except Trap Nat
  | _, [], (s, n) => (s, .ok n)
  | key, (a, k) :: t, (s, n) =>
    if inLsWindow a then discardParts key t (s, n)
    else
      let va := BitVec.ofNat 64 a
      match translate s s.me va 1 .write with
      | (s, .error e) => (s, .error e)
      | (s, .ok (.ls _ _)) => discardParts key t (s, n)
      | (s, .ok (.phys pa kind)) =>
        if placeOf pa ≠ .device then discardParts key t (s, n)
        else if kind = 3 ∨ kind = 0 then (s, .error (trapAt fcORDMIX va 2))
        else discardParts (key + 512) t (discardLines key (partLines pa k) (s, n))

def execDcDiscard (d a b : Fld) (s : State) : Out :=
  match rangeTrap (.dcDiscard d a b) 128 (s.vlc.rx a) (s.vlc.rx b) with
  | some t => scalarStop s t
  | none =>
    let (n, cut) := rangeRun s 128 (s.vlc.rx b)
    match discardParts (s.tick * 2 ^ 18) (rangeParts (s.vlc.rx a) n) (s, 0) with
    | (t, .error e) => rangeStop s t e
    | (t, .ok n) => endRange cut t fun s => s.retire d (BitVec.ofNat 64 n)

/-! ### Replacement hints (R246) -/

/-- Give a line a class at its home slice; a line that is not resident is fetched.  A line that becomes keep beyond the limit demotes
another (R197). -/
def hintLine (s : State) (line q : Nat) (cls : Rcl) : State :=
  let pa := line * 128
  let mine (l : L2Line) : Bool := l.die == homeDie pa && l.line == line
  match s.l2.find? mine with
  | none => touchL2 s (homeDie pa) pa q cls true
  | some l =>
    let l2 := if cls = .keep ∧ l.cls ≠ .keep then demoteKeep s.l2 l.die line (s.queue q).ways else s.l2
    { s with l2 := l2.map fun l => if mine l then { l with cls := cls } else l }

/-- Hint the device-memory lines of the pages that translate and may be read. -/
def hintParts (cls : Rcl) : List (Nat × Nat) → State → State
  | [], s => s
  | (a, n) :: t, s =>
    match translate s s.me (BitVec.ofNat 64 a) 1 .read with
    | (s, .ok (.phys pa _)) =>
      hintParts cls t (if placeOf pa = .device then
        (partLines pa n).foldl (fun s l => hintLine s l s.gang.queue cls) s else s)
    | (s, _) => hintParts cls t s

def execThint (cls : Rcl) (a b : Fld) (s : State) : Out :=
  let (n, cut) := rangeRun s 128 (s.vlc.rx b)
  endRange cut (hintParts cls (rangeParts (s.vlc.rx a) n) s) State.pass

/-! ### Full-empty bits (R247) -/

/-- Set or clear granules in ascending order, up to the first that is not the gang's, whose PROT names a write (R247; assumption 94, DESIGN
CHOICE: ACC). -/
def feGranules (full : Bool) : Nat → Nat → State → State × Option Trap
  | 0, _, s => (s, none)
  | n + 1, a, s =>
    let va := BitVec.ofNat 64 a
    match (if inLsWindow a then translate s s.me va 16 .write else (s, .error (trapAt fcPROT va (xlateInfo .write 0 0 2)))) with
    | (s, .ok (.ls c off)) => feGranules full n (a + 16) (if full then feFill s c (off / 16) else feEmpty s c (off / 16))
    | (s, .ok (.phys _ _)) => (s, some (trapAt fcPROT va (xlateInfo .write 0 0 2)))
    | (s, .error e) => (s, some e)

def feRange (full : Bool) (i : Instr) (a b : Fld) (s : State) : Out :=
  match rangeTrap i 16 (s.vlc.rx a) (s.vlc.rx b) with
  | some t => scalarStop s t
  | none =>
    let (n, cut) := rangeRun s 16 (s.vlc.rx b)
    match feGranules full (n.toNat / 16) (s.vlc.rx a).toNat s with
    | (t, some e) => rangeStop s t e
    | (t, none) => endRange cut t State.pass

def execFeSet (a b : Fld) (s : State) : Out := feRange true (.feSet a b) a b s

def execFeClr (a b : Fld) (s : State) : Out := feRange false (.feClr a b) a b s

end Sys2Proof.Machine
end

