-- ==== Sys2Proof/Machine/Posts.lean ====
section
/-! DEFINITION. The fields of a node record, and the posts of ready nodes to the host in host-assisted scheduling (spec/11_queues.md R318,
R319, R341; spec/14 R384). -/

namespace Sys2Proof.Machine

/-! ### Node records (R318, R319) -/

def recKind (r : BitVec 512) : Nat := field r.toNat 0 2
def recEfn (r : BitVec 512) : Nat := field r.toNat 2 2
def recDeps (r : BitVec 512) : Nat := field r.toNat 32 16
def recSucc (r : BitVec 512) (j : Nat) : Nat := field r.toNat (448 + 16 * j) 16
def recOpt (r : BitVec 512) : Nat := field r.toNat 384 64
def recArg (r : BitVec 512) : Nat := field r.toNat 320 64
def recP (r : BitVec 512) (k : Nat) : Nat := field r.toNat (64 + 64 * k) 64

/-- The shape of a gang node. -/
def recShape (r : BitVec 512) : BitVec 18 := BitVec.ofNat 18 (recP r 1)

/-! ### Functional modes (R110) -/

def State.schedAssisted (s : State) : Bool := s.funcmode.getLsbD 1

def State.modNode (s : State) (n : Nat) (f : Node → Node) : State :=
  { s with nodes := s.nodes.map fun x => if x.id = n then f x else x }

/-! ### Posts to the host (R384) -/

/-- The order of two ready nodes: earlier first. -/
def minOrder : List Node → Option Node
  | [] => none
  | n :: t =>
    match minOrder t with
    | none => some n
    | some m => if n.order ≤ m.order then some n else some m

/-- Post one ready node, when the ring has room. -/
def postOne (s : State) (n : Node) (slot : Nat) : State :=
  let l := s.landauOf n.die
  let shape := if recKind n.image = 0 then (recShape n.image).toNat else 0
  let img := slot + n.queue * 2 ^ 16 + n.idx * 2 ^ 32 + recKind n.image * 2 ^ 64 + shape * 2 ^ 66
  let pa := hostAddr l.postBase.toNat + 32 * (l.postWritten % l.postEntries.toNat)
  let s := { s with mem := memWrite s.mem pa 32 img }
  let s := s.modLandau n.die fun l => { l with postWritten := l.postWritten + 1 }
  (s.modNode n.id fun n => { n with posted := true }).sendMsix n.die 2046

/-- The ring has room for a post: entries written less entries read is below the ring's size. -/
def ringRoom (l : Landau) : Bool :=
  (BitVec.ofNat 16 l.postWritten - l.postRead) != l.postEntries

/-- Post the held nodes of a die in the order in which they became ready; one whose release is still to come waits for it (R259). -/
def postHeld (d : Nat) : Nat → State → State
  | 0, s => s
  | k + 1, s =>
    let held := s.nodes.filter fun n => n.die == d && n.st == .ready && n.assisted && !n.posted && n.slot.isSome && n.hold.isNone
    match minOrder held with
    | none => s
    | some n => if ringRoom (s.landauOf d) then postHeld d k (postOne s n (n.slot.getD 0)) else s

def postAll (s : State) (d : Nat) : State := postHeld d s.nodes.length s

end Sys2Proof.Machine
end

