-- ==== Sys2Proof/Machine/System.lean ====
section
/-! DEFINITION. The members of a gang and its barriers (spec/01 R25; spec/11 R333), the control registers
(spec/04 R100 to R114; spec/12 R356) and the system instructions (spec/04 R115 to R117; spec/02 R57, R62). -/

namespace Sys2Proof.Machine

/-! ### Members of a gang -/

def memberBit (m : Nat) : BitVec 32 := BitVec.ofNat 32 (2 ^ m)

/-- Every member has retired or has arrived at a barrier id. -/
def barrierDone (g : Gang) (id : Nat) : Bool :=
  let a := g.exited ||| (g.arrive[id]?.getD 0)
  (List.range g.members).all fun m => a.getLsbD m

/-- A barrier completes: its arrivals are forgotten and its waiting members may go on; a member that was halted in the wait finds it
satisfied (R32, R333). -/
def completeBarrier (s : State) (g id : Nat) : State :=
  (s.modGang g fun x => { x with arrive := x.arrive.setIfInBounds id 0 }).mapVlcs fun v =>
    if v.gang ≠ g then v
    else if v.status = .waiting (.barrier id) then { v with status := .satisfied (.barrier id) }
    else if v.barrier = some (id, false) then { v with barrier := some (id, true) }
    else v

/-- Complete the barriers that a retired member was the last to hold up. -/
def checkBarriers (s : State) (g : Nat) : State :=
  (List.range 8).foldl (fun s id =>
    let x := s.gangOf g
    if (x.arrive[id]?.getD 0) ≠ 0 ∧ barrierDone x id then completeBarrier s g id else s) s

/-- Whether every member has retired. -/
def allExited (g : Gang) : Bool := (List.range g.members).all fun m => g.exited.getLsbD m

/-- A gang whose last VLC has retired begins its release; a halt under way is dropped (R25, R32). -/
def endIfLast (s : State) (g : Nat) : State :=
  let x := s.gangOf g
  let s' := beginGangRelease (s.modGang g fun x => { x with st := .releasing false }) x
  if allExited x then
    match x.st with
    | .resident => s'
    | .halting _ => s'
    | .loading => s'
    | _ => s
  else s

/-- A VLC gives up the accumulator array of its core (R156). -/
def dropAccumulator (s : State) (core slot : Nat) : State :=
  s.modCore core fun c => if c.accOwner = some slot then { c with accOwner := none } else c

/-- The release that an instruction left in a vector queue is done: what it held goes on (R34, R259). -/
def freeHold (s : State) (h : Nat) : State :=
  let s := { s with
    nodes := s.nodes.map fun n => if n.hold = some h then { n with hold := none } else n
    engines := s.engines.map fun o => if o.hold = some h then { o with hold := none } else o
    gateQ := s.gateQ.map fun q => q.map fun r => if r.hold = some h then { r with hold := none } else r }
  if s.schedAssisted then (List.range 4).foldl postAll s else s

/-- The releases in a queue that is dropped hold nothing any more. -/
def dropHolds (s : State) (q : List VEntry) : State :=
  (q.filter fun e => isMarker e.i).foldl (fun s e => freeHold s e.xd.toNat) s

/-- The release of an instruction of the scalar unit at the head of the vector queue. -/
def markerBody : VBody := fun e s =>
  (freeHold (releaseAt s s.vlc.core (scopeOfCode e.vscope)) e.xd.toNat, .done)

/-- A release that covers both streams (R259).  What the vector half still has in its queue is covered when it has left it: the release
then stands behind it, and holds up what the instruction started; the scalar unit does not wait (R34, R38; assumption 19, DEDUCED). -/
def releaseBoth (s : State) (i : Instr) (sc : Scope) : State × Option Nat :=
  if s.vlc.vq = [] ∨ s.vlc.inHandler then (releaseAt s s.vlc.core sc, none)
  else
    let e := { capture s.vlc i 0 0 0 (BitVec.ofNat 64 s.fresh) 0 0 with vscope := scopeRank sc }
    ({ (s.modVlc fun v => { v with vq := v.vq ++ [e] }) with fresh := s.fresh + 1 }, some s.fresh)

/-- A VLC that retires: its queue, its wait and its loop are gone. -/
def Vlc.retired (v : Vlc) : Vlc :=
  { v with status := .retired, vq := [], vwait := .no, loop := none, fan := none, pendFault := none, barrier := none }

/-- The VLC whose turn it is retires (R25). -/
def retireMember (s : State) : State :=
  let v := s.vlc
  let s := (dropHolds s v.vq).modVlc Vlc.retired
  let s := feLeave (dropAccumulator s v.core v.slot) v.core v.slot
  let s := s.modGang v.gang fun g => { g with exited := g.exited ||| memberBit v.member }
  endIfLast (checkBarriers s v.gang) v.gang

/-! ### The control register map (R100) -/

/-- Registers with a number below 0x100 that R100 assigns. -/
def ctlAssigned (n : Nat) : Bool :=
  n ≤ 5 || (8 ≤ n && n ≤ 0xB) || n == 0x10 || n == 0x11 || (0x18 ≤ n && n ≤ 0x1A) || (0x20 ≤ n && n ≤ 0x37) ||
  n == 0x40 || (0x48 ≤ n && n ≤ 0x4B) || n == 0x50 || n == 0x51 || n == 0x58 || n == 0x60 || n == 0x61 || n == 0x70

/-- Read-only registers, the performance counters among them (R57, R100). -/
def ctlReadOnly (n : Nat) : Bool :=
  n ≤ 1 || n == 3 || n == 4 || (8 ≤ n && n ≤ 0xB) || (0x30 ≤ n && n ≤ 0x37) || n == 0x50 || n == 0x51 || n == 0x60 ||
  n == 0x70 || (0x100 ≤ n && n < 0x200)

/-- Registers on the queue path (R100). -/
def ctlQueued (n : Nat) : Bool := n == 2 || n == 0x18 || (0x20 ≤ n && n ≤ 0x37) || n == 0x40

/-- VTYPE as a value (R102). -/
def Vtype.word (t : Vtype) : Word :=
  BitVec.ofNat 64 (clsNum t.cls + (if t.mz then 16 else 0)
    + (match t.tp with
       | .undisturbed => 0
       | .agnostic => 1
       | .dead => 2) * 32 + t.grp.val * 128 + ewNum t.sew * 512 + ewNum t.mew * 4096)

/-- A performance counter (R356). -/
def perfRead (s : State) (n : Nat) : Nat :=
  let c := s.core s.vlc.core
  let p := s.perfOf (coreDie s.vlc.core) s.gang.queue
  match n with
  | 0x100 => c.issue
  | 0x101 => c.vcomp
  | 0x102 => c.chain
  | 0x103 => c.l1miss
  | 0x104 => p.l2miss
  | 0x105 => p.walks
  | 0x106 => p.lodrop
  | 0x107 => p.loarr
  | 0x108 => p.latent
  | 0x109 => p.corr
  | 0x10A => p.pmchg
  | 0x10B => s.gang.wdog
  | _ => 0

/-- The value of a control register as the VLC whose turn it is reads it (R100 to R110); of a register of the gang the value after every
write so far (R113; assumption 86, DESIGN CHOICE). -/
def ctlGet (s : State) (n : Nat) : Word :=
  let v := s.vlc
  let g := s.gang
  let nat (k : Nat) : Word := BitVec.ofNat 64 k
  if 0x20 ≤ n ∧ n ≤ 0x2F then nat (field (g.ss[(n - 0x20) / 2]?.getD 0).toNat (64 * (n % 2)) 64)
  else if 0x30 ≤ n ∧ n ≤ 0x37 then nat (g.ssv[n - 0x30]?.getD 0).toNat
  else if 0x100 ≤ n ∧ n < 0x200 then nat (perfRead s n)
  else if 0x300 ≤ n then Config.firmwareRegister n s.tick
  else match n with
    | 0x00 => nat v.vl
    | 0x01 => v.vt.word
    | 0x02 => nat v.vstart.toNat
    | 0x03 => v.vidx
    | 0x04 => v.vrem
    | 0x05 => nat v.vscope.toNat
    | 0x08 => nat v.mvl
    | 0x09 => nat v.tsm
    | 0x0A => nat v.tsn
    | 0x0B => nat v.tsk
    | 0x10 => nat (32 * v.wins.val)
    | 0x11 => nat (64 * v.winv.val)
    | 0x18 => nat v.fflags.toNat
    | 0x19 => nat v.frm.toNat
    | 0x1A => nat v.rot.toNat
    | 0x40 => nat v.pseq.toNat
    | 0x48 => nat v.faultRegs.c.toNat
    | 0x49 => nat v.faultRegs.a.toNat
    | 0x4A => nat v.faultRegs.pc.toNat
    | 0x4B => v.faultRegs.e
    | 0x50 => g.gangid
    | 0x51 => nat g.tenant.toNat
    | 0x58 => nat (4 * v.handlerPc.toNat + if v.handlerEn then 1 else 0)
    | 0x60 => nat (s.die (coreDie v.core)).cycles
    | 0x61 => nat g.hbwin.toNat
    | 0x70 => nat s.funcmode.toNat
    | _ => 0

/-- The codes of WINS and WINV (R104). -/
def winsCode (n : Nat) : Option (Fin 5) :=
  match n with
  | 0 => some 0 | 32 => some 1 | 64 => some 2 | 96 => some 3 | 128 => some 4 | _ => none

def winvCode (n : Nat) : Option (Fin 3) :=
  match n with
  | 0 => some 0 | 64 => some 1 | 128 => some 2 | _ => none

/-- Whether a new value breaks a field rule (R52, R72, R104, R107, R110). -/
def ctlBad (s : State) (n : Nat) (w : Word) : Bool :=
  let x := w.toNat
  match n with
  | 0x05 => 6 ≤ x % 8
  | 0x10 => (winsCode (x % 256)).isNone
  | 0x11 => (winvCode (x % 256)).isNone
  | 0x19 => 5 ≤ x % 8
  | 0x40 => x % 2 ^ 32 < s.vlc.pseq.toNat
  | 0x61 => x % 64 < 20 || 40 < x % 64
  | _ => false

/-- Write half `h` of a seed register of a gang: its version advances (R106). -/
def writeSeed (s : State) (g k h : Nat) (w : Word) : State :=
  s.modGang g fun x => { x with
    ss := x.ss.setIfInBounds k (BitVec.ofNat 128 (setField (x.ss[k]?.getD 0).toNat (64 * h) 64 w.toNat))
    ssv := x.ssv.setIfInBounds k ((x.ssv[k]?.getD 0) + 1) }

/-- Write an accepted value to a control register: reserved and read-only fields are kept (R101 to R110). -/
def ctlPut (s : State) (n : Nat) (w : Word) : State :=
  let x := w.toNat
  if 0x20 ≤ n ∧ n ≤ 0x2F then writeSeed s s.vlc.gang ((n - 0x20) / 2) (n % 2) w
  else match n with
    | 0x02 => s.modVlc fun v => { v with vstart := BitVec.ofNat 13 x }
    | 0x05 => s.modVlc fun v => { v with vscope := BitVec.ofNat 3 x }
    | 0x10 => s.modVlc fun v => { v with wins := (winsCode (x % 256)).getD v.wins }
    | 0x11 => s.modVlc fun v => { v with winv := (winvCode (x % 256)).getD v.winv }
    | 0x18 => s.modVlc fun v => { v with fflags := BitVec.ofNat 7 x }
    | 0x19 => s.modVlc fun v => { v with frm := BitVec.ofNat 3 x }
    | 0x1A => s.modVlc fun v => { v with rot := BitVec.ofNat 6 x }
    | 0x40 => (s.modVlc fun v => { v with pseq := BitVec.ofNat 32 x }).modCore s.vlc.core fun c =>
        { c with q := BitVec.ofNat 32 (max c.q.toNat (x % 2 ^ 32)) }
    | 0x48 => s.modVlc fun v => { v with faultRegs := { v.faultRegs with c := BitVec.ofNat 9 x } }
    | 0x49 => s.modVlc fun v => { v with faultRegs := { v.faultRegs with a := BitVec.ofNat 56 x } }
    | 0x4A => s.modVlc fun v => { v with faultRegs := { v.faultRegs with pc := BitVec.ofNat 56 x } }
    | 0x4B => s.modVlc fun v => { v with faultRegs := { v.faultRegs with e := w } }
    | 0x58 => s.modVlc fun v => { v with handlerPc := BitVec.ofNat 54 (x / 4), handlerEn := bitOf x 0 }
    | 0x61 => s.modGang s.vlc.gang fun g => { g with hbwin := BitVec.ofNat 6 x }
    | _ => s

/-- The forms of `ctl` (R111). -/
inductive CtlForm where
  | rd | wr | set | clr
deriving DecidableEq, Repr

def CtlOp.form' : CtlOp → CtlForm
  | .wr => .wr | .set => .set | .clr => .clr

/-- The new value of a form (R111). -/
def ctlNew (f : CtlForm) (old a : Word) : Word :=
  match f with
  | .rd => old
  | .wr => a
  | .set => old ||| a
  | .clr => old &&& ~~~ a

/-- Perform a `ctl` access: the old value and the state after the write, or FIELD (R111). -/
def ctlAccess (s : State) (f : CtlForm) (n : Nat) (a : Word) : Option (Word × State) :=
  let old := ctlGet s n
  let new := ctlNew f old a
  if ctlReadOnly n ∨ f = .rd ∨ 0x300 ≤ n then some (old, s)
  else if ctlBad s n new then none
  else some (old, ctlPut s n new)

/-- The decode fault of a `ctl` number (R57, R58). -/
def ctlDecode (s : State) (i : Instr) (n : Nat) : Option Trap :=
  if n < 0x100 ∧ !ctlAssigned n ∨ 0x200 ≤ n ∧ n < 0x300 then some (decodeTrap fcILLEGAL (wordOf i) 0)
  else if 0x300 ≤ n ∧ !s.gang.firmware then some (decodeTrap fcPRIV (wordOf i) 0)
  else none

/-- A queue-path access at the head of the queue. -/
def ctlBody (f : CtlForm) (n : Nat) : VBody := fun e s =>
  match ctlAccess s f n e.xa with
  | none => (s, .fault (decodeTrap fcFIELD e.word 2))
  | some (old, t) => (t.modVlc fun v => v.setX e.d old, .done)

/-- A `ctl` instruction: on the queue path it enters the queue, but for handler state (R112, R365). -/
def ctlInstr (i : Instr) (f : CtlForm) (d a : Fld) (n : Nat) (s : State) : Out :=
  match ctlDecode s i n with
  | some t => scalarStop s t
  | none =>
    let v := s.vlc
    if ctlQueued n ∧ !v.inHandler then
      issue {} (ctlBody f n) (capture v i (xNum v.wins d) (xNum v.wins a) 0 0 (v.rx a) 0) s
    else
      match ctlAccess s f n (v.rx a) with
      | none => scalarStop s (decodeTrap fcFIELD (wordOf i) 2)
      | some (old, t) => .next (t.modVlc fun w => (w.setX (xNum v.wins d) old).next)

def execCtlRd (d : Fld) (ctl : BitVec 10) (s : State) : Out := ctlInstr (.ctlRd d ctl) .rd d 0 ctl.toNat s

def execCtlWr (d a : Fld) (ctl : BitVec 10) (s : State) : Out := ctlInstr (.ctlWr d a ctl) .wr d a ctl.toNat s

def execCtlSet (d a : Fld) (ctl : BitVec 10) (s : State) : Out := ctlInstr (.ctlSet d a ctl) .set d a ctl.toNat s

def execCtlClr (d a : Fld) (ctl : BitVec 10) (s : State) : Out := ctlInstr (.ctlClr d a ctl) .clr d a ctl.toNat s

/-- A write of HANDLER; in handler state one that leaves EN = 1 is the return (R366). -/
def execHandlerReturn (op : CtlOp) (d a : Fld) (s : State) : Out :=
  let v := s.vlc
  let old := ctlGet s 0x58
  let t := (ctlPut s 0x58 (ctlNew (CtlOp.form' op) old (v.rx a))).modVlc fun w => w.wx d old
  if v.inHandler ∧ t.vlc.handlerEn then .next (t.modVlc leaveHandler) else .next t.pass

/-! ### The system instructions (R115, R116) -/

def execTrap (a : Fld) (s : State) : Out := scalarStop s ⟨fcTRAP, 0, s.vlc.rx a⟩

def execEbreak (s : State) : Out := scalarStop s ⟨fcBREAK, 0, 0⟩

/-- The feature words of R62; word 3 counts the cores of the calling queue's mask. -/
def featureWord (s : State) (n : Nat) : Nat :=
  match n with
  | 0 => 0x0000000100010001
  | 1 => 0x0200010004400800
  | 2 => 0x0000401000080000
  | 3 => 0x0000024004081204 + 2 ^ 48 * (((List.range 576).filter fun c => (s.queue s.gang.queue).mask.getLsbD c).length)
  | 4 => 0x0000000F03FB03FF
  | 5 => 0x00000000401F0707
  | 6 => 0x0000008040201000
  | 7 => 0x0000070800080100
  | _ => 0

def execFeatq (d a : Fld) (s : State) : Out :=
  .next (s.retire d (BitVec.ofNat 64 (featureWord s (s.vlc.rx a).toNat)))

/-- WINS := 32 × A and WINV := 64 × B; A above 4 or B above 2 raises FIELD (R115). -/
def execWbase (a b : Fld) (s : State) : Out :=
  let w := wordOf (.wbase a b)
  match winsCode (32 * a.toNat), winvCode (64 * b.toNat) with
  | none, _ => scalarStop s (decodeTrap fcFIELD w 2)
  | some _, none => scalarStop s (decodeTrap fcFIELD w 3)
  | some x, some y => .next (s.modVlc fun v => ({ v with wins := x, winv := y } : Vlc).next)

def execHeartbeat (s : State) : Out := .next (s.progress s.vlc.gang).pass

def execYield (s : State) : Out := .next (s.modVlc fun v => ({ v with yielded := true } : Vlc).next)

/-- `vexit` waits for the queued vector instructions, then the VLC retires. -/
def execVexit (s : State) : Out :=
  if s.vlc.inHandler then scalarStop s (decodeTrap fcPRIV (wordOf .vexit) 0)
  else if s.vlc.vq ≠ [] then stall s
  else .next (retireMember s)

/-- `eret` in a VLC of a firmware queue in handler state. -/
def execEret (s : State) : Out :=
  if s.gang.firmware ∧ s.vlc.inHandler then .next (s.modVlc fun v => leaveHandler { v with handlerEn := true })
  else scalarStop s (decodeTrap fcPRIV (wordOf .eret) 0)

def execCyc (d : Fld) (s : State) : Out := .next (s.retire d (ctlGet s 0x60))

/-- The identity of the VLC: core index, core identifier and VLC number. -/
def ctxidValue (v : Vlc) : Word := BitVec.ofNat 64 (v.core * 2 ^ 12 + coreIdent v.core * 4 + v.slot)

def execCtxid (d : Fld) (s : State) : Out := .next (s.retire d (ctxidValue s.vlc))

/-- A fetched word that is no instruction (R56). -/
def execIllegalWord (w : BitVec 32) (s : State) : Out := scalarStop s (decodeTrap fcILLEGAL w 0)

end Sys2Proof.Machine
end

