-- ==== Sys2Proof/Machine/Nodes.lean ====
section
/-! DEFINITION. Node records, node slots, dependence counts and the arrival of nodes at Landau (spec/11_queues.md R318, R319, R321, R322, R324,
R341; spec/12 R350; spec/14 R384; spec/01 R27, R28). -/

namespace Sys2Proof.Machine

/-! ### Node records (R318, R319) -/

/-- A record with another ARG. -/
def recWithArg (r : BitVec 512) (a : Word) : BitVec 512 := BitVec.ofNat 512 (setField r.toNat 320 64 a.toNat)

/-- A shape word breaks R319, or no cluster can ever hold it (R21). -/
def shapeBad (p : Nat) : Bool :=
  bitOf p 7 || field p 14 2 != 0 || field p 18 46 != 0 ||
  field p 0 4 == 0 || decide (field p 0 4 > 8) || field p 4 3 == 0 || decide (field p 4 3 > 4) || decide (field p 8 6 > 32)

/-- Why a record is refused (R321). -/
inductive Refused where
  | queue | shape
deriving DecidableEq, Repr

/-- The checks of R321 on a record of a graph of `n` nodes. -/
def recordRefused (r : BitVec 512) (n : Nat) : Option Refused :=
  let k := recKind r
  let zero (x : Nat) : Bool := x == 0
  let succBad := (List.range 4).any fun j => decide (recSucc r j ≥ n) && recSucc r j != 0xFFFF
  if field r.toNat 48 16 ≠ 0 ∨ field r.toNat 4 28 ≠ 0 ∨ k = 3 ∨ recEfn r = 3 ∨ succBad ∨ recDeps r = 65535 then some .queue
  else if k = 0 then
    if !zero (recP r 2) || !zero (recP r 3) || !zero (recEfn r) || decide (field (recOpt r) 56 8 > 128) then some .queue
    else if shapeBad (recP r 1) then some .shape
    else none
  else if k = 1 then
    if !zero (recArg r) || (recEfn r != 2 && !zero (recOpt r)) then some .queue else none
  else
    if !zero (recOpt r) || !zero (recEfn r) || (List.range 4).any fun j => recP r j != 0 then some .queue else none

/-! ### Landau's records to the host (R321, R369) -/

/-- Post a fault record of no VLC for a queue: SRC, producer, node index, code, FAULTE and address. -/
def postRecord (s : State) (q src : Nat) (producer : BitVec 12) (idx : Nat) (code : BitVec 8) (info : Nat) (va : Word) :
    State :=
  let f : FaultInfo := ⟨code, false, BitVec.ofNat 56 va.toNat, 0, BitVec.ofNat 64 info⟩
  (s.addRecord q (faultRecord f 0 0 (s.queue q).tenant 0 0 producer idx src false 0) none none).1

/-- The record of a refused or failed node. -/
def postNode (s : State) (n : Node) (code : BitVec 8) (info : Nat) (va : Word) : State :=
  postRecord s n.queue 2 (landauProducer n.die) n.idx code info va

/-! ### Dies -/

/-- A die that has finished bring-up: Landau, Hansom and the engines of another die do nothing yet (R387). -/
def State.booted (s : State) (d : Nat) : Bool := decide ((s.die d).phase ≥ 11) && !(s.die d).trip

/-! ### Fresh numbers, nodes and graphs -/

/-- Take a fresh number. -/
def State.takeFresh (s : State) : State × Nat := ({ s with fresh := s.fresh + 1 }, s.fresh)

def State.findGraph (s : State) (g : Nat) : Option Graph := s.graphs.find? fun x => x.id == g

def State.modGraph (s : State) (g : Nat) (f : Graph → Graph) : State :=
  { s with graphs := s.graphs.map fun x => if x.id = g then f x else x }

/-- The node in a slot of a die. -/
def State.nodeAt (s : State) (die slot : Nat) : Option Node :=
  s.nodes.find? fun n => n.die == die && n.slot == some slot

/-! ### Becoming ready (R27, R28, R323) -/

/-- Whether an ordered graph waits for an earlier graph of its queue. -/
def heldByOrder (s : State) (n : Node) : Bool :=
  match s.findGraph n.graph with
  | none => false
  | some g => g.ord && recDeps n.image == 0 && n.idx != 0xFFFF && s.graphs.any fun h => h.queue == g.queue && decide (h.id < g.id)

/-- A node becomes ready: it stands at its queue's priority, behind the nodes that became ready before it. -/
def makeReady (s : State) (n : Node) : State :=
  let (s, k) := s.takeFresh
  let s := s.modNode n.id fun x => { x with
    st := .ready
    level := (s.queue n.queue).pri
    since := (s.die n.die).cycles
    order := 2 ^ 64 + k
    noPlace := none
    claim := none
    assisted := s.schedAssisted
    posted := false }
  if s.schedAssisted then postAll s n.die else s

/-- A saved node returns to the head of the level at which it ran (R33). -/
def reenter (s : State) (n : Node) : State :=
  let (s, k) := s.takeFresh
  let s := s.modNode n.id fun x => { x with
    st := .ready
    since := (s.die n.die).cycles
    order := 2 ^ 64 - k
    noPlace := none
    claim := none
    assisted := s.schedAssisted
    posted := false }
  if s.schedAssisted then postAll s n.die else s

/-- A node whose count is zero becomes ready. -/
def readyIfFree (s : State) (id : Nat) : State :=
  match s.findNode id with
  | some n => if n.st = .waiting ∧ n.deps = 0 ∧ !heldByOrder s n then makeReady s n else s
  | none => s

/-! ### Slots and the overflow region (R322, R324) -/

def slotTaken (s : State) (d k : Nat) : Bool := s.nodes.any fun n => n.die == d && n.slot == some k

/-- The lowest free slot from `lo`, among `n` (assumption 80, DESIGN CHOICE: the lowest). -/
def firstFree (s : State) (d : Nat) : Nat → Nat → Option Nat
  | 0, _ => none
  | n + 1, lo => if slotTaken s d lo then firstFree s d n (lo + 1) else some lo

/-- A free slot that a node may take: an ordinary slot, and for a spawned node the reserved band last. -/
def freeSlot (s : State) (d : Nat) (spawned : Bool) : Option Nat :=
  match firstFree s d 3840 0 with
  | some k => some k
  | none => if spawned then firstFree s d 256 3840 else none

def overflowed (s : State) (d q : Nat) : List Node := s.nodes.filter fun n => n.die == d && n.queue == q && n.slot == none

/-- Return overflowed nodes of a queue to slots of a die, in order, while the first finds one. -/
def returnNodes (d q : Nat) : Nat → State → State
  | 0, s => s
  | k + 1, s =>
    match overflowed s d q with
    | [] => s
    | n :: _ =>
      match freeSlot s d (n.idx == 0xFFFF) with
      | none => s
      | some slot => returnNodes d q k (s.modNode n.id fun x => { x with slot := some slot })

/-- OVERFLOW_RETURN on one die, with the posts that wait for a slot. -/
def returnAll (s : State) (d q : Nat) : State :=
  postAll (returnNodes d q (overflowed s d q).length s) d

/-- The slot for an arriving node, behind the overflowed nodes of its queue; a spawned node goes past overflowed launch nodes into the
band, which they cannot take (R322, R324; assumption 80, DESIGN CHOICE). -/
def arrivalSlot (s : State) (d q : Nat) (spawned : Bool) : Option Nat :=
  let waiting := overflowed s d q
  if waiting.isEmpty then freeSlot s d spawned
  else if spawned && waiting.all fun n => n.idx != 0xFFFF then firstFree s d 256 3840
  else none

/-- Nodes of a queue in its overflow region. -/
def overflowCount (s : State) (q : Nat) : Nat := (s.nodes.filter fun n => n.queue == q && n.slot == none).length

/-- Where an arriving node went. -/
inductive Arrival where
  | slot | overflow | full
deriving DecidableEq, Repr

/-- A node arrives: it takes a slot, or its record goes to the overflow region, or nothing is added.  The place in the region is the number
of the arrival modulo OVFCNT (assumption 80, DESIGN CHOICE). -/
def arriveNode (s : State) (n : Node) : State × Arrival :=
  let spawned := n.idx == 0xFFFF
  let s := returnAll s n.die n.queue
  match arrivalSlot s n.die n.queue spawned with
  | some k => ({ s with nodes := s.nodes ++ [{ n with slot := some k }] }, .slot)
  | none =>
    let q := s.queue n.queue
    if overflowCount s n.queue ≥ q.ovfcnt.toNat then (s, .full)
    else
      let pa := q.ovfbase.toNat + 64 * (q.ovfIn % q.ovfcnt.toNat)
      let s := homeWrite (reachHome s pa n.die n.queue true false true .normal) pa (natBytes n.image.toNat 64)
      let s := s.modQueue n.queue fun q => { q with ovfIn := q.ovfIn + 1 }
      ({ s with nodes := s.nodes ++ [{ n with slot := none }] }, .overflow)

/-! ### Completion (R27, R321, R350) -/

/-- One decrement of a node of a graph, by index. -/
def decrement (s : State) (graph idx : Nat) : State :=
  match s.findGraph graph with
  | none => s
  | some g =>
    if idx ≥ g.next then
      if g.stopped then s else s.modGraph graph fun g => { g with due := g.due ++ [idx] }
    else
      match s.nodes.find? fun n => n.graph == graph && n.idx == idx with
      | none => s
      | some n =>
        if n.st = .waiting ∧ n.deps ≠ 0 then readyIfFree (s.modNode n.id fun x => { x with deps := x.deps - 1 }) n.id
        else s

/-- Decrement every successor that a record names. -/
def decrementAll (s : State) (graph : Nat) (image : BitVec 512) : State :=
  (List.range 4).foldl (fun s j => if recSucc image j = 0xFFFF then s else decrement s graph (recSucc image j)) s

/-- A node of a graph has completed: one fewer is left. -/
def countDone (s : State) (graph : Nat) : State := s.modGraph graph fun g => { g with left := g.left - 1 }

/-- A node completes, as done or as failed: it leaves its slot, and its successors are decremented. -/
def completeNode (s : State) (n : Node) : State :=
  let s := { s with nodes := s.nodes.filter fun x => x.id != n.id }
  let s := match n.spawner with
    | some g => s.progress g
    | none => s
  countDone (decrementAll s n.graph n.image) n.graph

/-- A node's task has ended. -/
def markDone (s : State) (id : Nat) (failed : Bool) : State := s.modNode id fun n => { n with st := .done failed }

/-- TASK_COMPLETION: the node in a slot whose task has ended completes. -/
def execTaskCompletion (die slot : Nat) (s : State) : Out :=
  if die ≥ 4 then .fault .noSuchUnit
  else
    match s.nodeAt die slot with
    | none => .next s
    | some n =>
      match n.st with
      | .done _ => .next (completeNode s n)
      | _ => .next s

/-- OVERFLOW_RETURN: overflowed nodes of a queue return to slots on every die. -/
def execOverflowReturn (q : Nat) (s : State) : Out :=
  if q ≥ 1024 then .fault .noSuchUnit else .next ((List.range 4).foldl (fun s d => returnAll s d q) s)

/-! ### Spawning (R332) -/

/-- A node of a record. -/
def newNode (s : State) (id graph q die idx : Nat) (image : BitVec 512) (deps : Nat) (spawner hold : Option Nat) :
    Node where
  id := id
  graph := graph
  queue := q
  die := die
  slot := none
  idx := idx
  image := image
  deps := deps
  st := .waiting
  level := (s.queue q).pri
  since := 0
  order := 0
  noPlace := none
  claim := none
  hold := hold
  assisted := false
  posted := false
  spawner := spawner

/-- Check a spawned record: QUEUE or SHAPE with FAULTE 5. -/
def spawnTrap (s : State) (graph : Nat) (image : BitVec 512) : Option Trap :=
  let n := ((s.findGraph graph).map (·.nodes)).getD 0
  match recordRefused image n with
  | some .queue => some (trapInfo fcQUEUE 5)
  | some .shape => some (trapInfo fcSHAPE 5)
  | none => if recDeps image ≠ 0 then some (trapInfo fcQUEUE 5) else none

/-- Add a spawned node of a graph on a die: the state and where it went.  `hold`: a release that it waits for. -/
def spawnNode (s : State) (graph q die : Nat) (image : BitVec 512) (spawner hold : Option Nat) : State × Arrival :=
  let (t, id) := s.takeFresh
  match arriveNode t (newNode t id graph q die 0xFFFF image 0 spawner hold) with
  | (_, .full) => (s, .full)
  | (t, a) => (readyIfFree (t.modGraph graph fun g => { g with left := g.left + 1 }) id, a)

/-- The `n` dwords as one 512-bit record. -/
def record512 (ws : List Word) : BitVec 512 := BitVec.ofNat 512 (dwordsNat ws)

/-- The record of a spawn: ARG is x[B] unless that is 0 (R332). -/
def spawnImage (img : BitVec 512) (b : Word) : BitVec 512 := if b ≠ 0 then recWithArg img b else img

/-- `spawn` (R332): it never waits for the vector half (R34); the child is held until the release of both streams has been made (R259;
assumption 19, DEDUCED). -/
def execSpawn (d a b : Fld) (s : State) : Out :=
  let va := s.vlc.rx a
  if va.toNat % 64 ≠ 0 then scalarStop s (trapAt fcALIGN va 0)
  else
    match readDwords s s.me .load va 8 with
    | (t, .error e) => scalarStop t e
    | (t, .ok ws) =>
      let img := spawnImage (record512 ws) (t.vlc.rx b)
      let g := t.gang
      let die := coreDie t.vlc.core
      let graph := ((t.findNode g.node).map (·.graph)).getD t.fresh
      if t.isFenced die 7 0 then scalarStop t (trapInfo fcQUEUE 7)
      else
        match spawnTrap t graph img with
        | some e => scalarStop t e
        | none =>
          let (u, hold) := releaseBoth t (.spawn d a b) .dev
          match spawnNode u graph g.queue die img (some t.vlc.gang) hold with
          | (_, .full) => scalarStop t (trapInfo fcSPAWN_OVF 0)
          | (w, .slot) => .next (w.retire d 1)
          | (w, .overflow) => .next (w.retire d 2)

end Sys2Proof.Machine
end

