-- ==== Sys2Proof/Machine/Flits.lean ====
section
/-! DEFINITION. The sending side of a coupling port: the CRC, flits, credits and the replay buffer
(spec/14_outside.md R392 to R394). -/

namespace Sys2Proof.Machine

/-! ### The CRC (R393) -/

/-- The polynomial of ECMA-182. -/
def crcPoly : BitVec 64 := 0x42F0E1EBA9EA3693

/-- One bit enters the register. -/
def crcBit (r : BitVec 64) (b : Bool) : BitVec 64 := if r.msb != b then (r <<< 1) ^^^ crcPoly else r <<< 1

/-- One byte enters, least significant bit first. -/
def crcByte (r : BitVec 64) (b : Byte) : BitVec 64 := (List.range 8).foldl (fun r k => crcBit r (b.getLsbD k)) r

/-- The CRC-64 of a list of bytes. -/
def crc64 (bs : List Byte) : BitVec 64 := ~~~ (bs.foldl crcByte (BitVec.allOnes 64)).reverse

/-- The CRC of a flit: bytes 0 to 247. -/
def flitCrc (flit : Nat) : BitVec 64 := crc64 (natBytes flit 248)

/-! ### Ports -/

def State.port (s : State) (c : Nat) : Port := s.ports[c]?.getD Port.reset

def State.modPort (s : State) (c : Nat) (f : Port → Port) : State :=
  { s with ports := s.ports.setIfInBounds c (f (s.port c)) }

/-- Credits of a class; classes 3 and 4 spend none (R393). -/
def creditOf (v : Vector Nat 3) (cls : Nat) : Nat := v[cls]?.getD 1

/-- The requests of one class at the head of the queue that fit a payload of 30 dwords, and the rest. -/
def takeRequests (cls : Nat) : Nat → List (Nat × List Word) → List Word × List (Nat × List Word)
  | _, [] => ([], [])
  | room, (c, r) :: t =>
    if c = cls ∧ r.length ≤ room then
      let (a, b) := takeRequests cls (room - r.length) t
      (r ++ a, b)
    else if c = cls then ([], (c, r) :: t)
    else
      let (a, b) := takeRequests cls room t
      (a, (c, r) :: b)

/-- A flit of a class with a payload: it carries the acknowledgement, the NAK and the credits due (R392, R393). -/
def makeFlit (p : Port) (cls : Nat) (payload : List Word) : BitVec 2048 :=
  let header := p.txSeq.toNat + cls * 2 ^ 12 + (p.rxNext - 1).toNat * 2 ^ 16 + (if p.taken then 2 ^ 28 else 0)
    + (if p.nak then 2 ^ 29 else 0) + creditOf p.freed 0 % 1024 * 2 ^ 32 + creditOf p.freed 1 % 1024 * 2 ^ 42
    + creditOf p.freed 2 % 1024 * 2 ^ 52
  let body := header + dwordsNat payload % 2 ^ 1920 * 2 ^ 64
  BitVec.ofNat 2048 (body + (flitCrc body).toNat * 2 ^ 1984)

/-- Send a flit: it stays in the replay buffer until an acknowledgement covers it. -/
def sendFlit (p : Port) (cls : Nat) (payload : List Word) : Port :=
  { p with
    replay := p.replay ++ [makeFlit p cls payload]
    out := p.out ++ [makeFlit p cls payload]
    txSeq := p.txSeq + 1
    nak := false
    ackDue := false
    freed := Vector.replicate 3 0
    credits := p.credits.setIfInBounds cls (creditOf p.credits cls - 1) }

/-- Send what can be sent: requests of a class with credits, in order, while the replay buffer has room. -/
def pump : Nat → Port → Port
  | 0, p => p
  | n + 1, p =>
    if p.replay.length ≥ 1024 then p
    else
      match p.outq.find? fun r => creditOf p.credits r.1 != 0 with
      | some (cls, _) =>
        let (payload, rest) := takeRequests cls 30 p.outq
        pump n (sendFlit { p with outq := rest } cls payload)
      | none =>
        if p.nak || p.ackDue || p.freed.toList.any (· != 0) then sendFlit p 3 [] else p

/-- A coupling is fenced. -/
def couplingFenced (s : State) (c : Nat) : Bool := s.isFenced (c / 4) 5 (c % 4)

/-- Send what a port holds; nothing crosses a fenced coupling (R375). -/
def State.pumpPort (s : State) (c : Nat) : State :=
  if couplingFenced s c then s else s.modPort c fun p => pump (p.outq.length + 1) p

/-- A request for a peer joins the port's queue. -/
def State.sendRequest (s : State) (c cls : Nat) (r : List Word) : State :=
  (s.modPort c fun p => { p with outq := p.outq ++ [(cls, r)] }).pumpPort c

/-- The header dwords of a request (R394). -/
def requestHead (target dw kind h1 : Nat) : List Word :=
  [BitVec.ofNat 64 (target % 2 ^ 52 + dw % 64 * 2 ^ 52 + kind % 16 * 2 ^ 58), BitVec.ofNat 64 h1]

end Sys2Proof.Machine
end

