-- ==== Sys2Proof/Machine/Engine.lean ====
section
/-! DEFINITION. The copy engines and the collective engine (spec/11_queues.md R326 to R330; spec/12 R347; spec/13 R368 to R370;
spec/14 R394). -/

namespace Sys2Proof.Machine

/-! ### Operands of an operation -/

/-- The operands of an operation and the party that issues it. -/
structure EngArgs where
  efn : Nat
  dst : Word
  src : Word
  len : Word
  ctr : Word
  opt : Word
deriving DecidableEq, Repr

/-- The party of an operation: the queue's stages, and the issuer's LS region. -/
def engParty (s : State) (op : EngOp) : Party :=
  ⟨op.die, op.core, op.queue, op.lsBase, op.lsLen,
    match op.gang with
    | some g => liveBodies s g op.core
    | none => []⟩

/-- Two virtual ranges overlap. -/
def rangesOverlap (a b n : Nat) : Bool := decide (a < b + n) && decide (b < a + n)

/-- Whether a place is in a peer window, and in the host window. -/
def Dest.isPeer : Dest → Bool
  | .phys pa _ => match placeOf pa with
    | .peer _ => true
    | _ => false
  | .ls _ _ => false

def Dest.isHost : Dest → Bool
  | .phys pa _ => placeOf pa == .host
  | .ls _ _ => false

/-- The place of the first byte of a destination, and PROT CAUSE 3 where the form does not accept it (R328). -/
def firstDest (s : State) (p : Party) (peer : Bool) (va : Word) : State × Except Trap Dest :=
  match translate s p va 1 .write with
  | (s, .error t) => (s, .error t)
  | (s, .ok d) =>
    if d.isPeer != peer then (s, .error (trapAt fcPROT va (xlateInfo .write 0 0 3))) else (s, .ok d)

/-- The counter of an operation under the checks of R343 (R347); none where it names no counter. -/
def checkCounter (s : State) (p : Party) (ctr : Word) : State × Except Trap (Option Dest) :=
  if ctr = 0 then (s, .ok none)
  else
    match access s p .counter ctr 8 .atomic with
    | (s, .error t) => (s, .error t)
    | (s, .ok d) => (s, .ok (some d))

/-- What the issue checks found: the members of a collective, and whether a range lies in the host window. -/
structure Issued where
  members : List Nat
  host : Bool
deriving DecidableEq, Repr

/-- Whether a source's first byte lies in the host window; a fault there is left for the move (R328). -/
def touchesHost (s : State) (p : Party) (va : Word) : Bool :=
  match translate s p va 1 .read with
  | (_, .ok d) => d.isHost
  | _ => false

/-- The checks of `copy` and `copyp` at issue, in order (R328, R347). -/
def copyChecks (s : State) (p : Party) (x : EngArgs) : State × Except Trap Issued :=
  let n := x.len.toNat
  let last (s : State) (host : Bool) : State × Except Trap Issued :=
    match checkCounter s p x.ctr with
    | (s, .error t) => (s, .error t)
    | (s, .ok _) => (s, .ok ⟨[], host⟩)
  if n = 0 then last s false
  else if 2 ^ 32 < n then (s, .error (trapInfo fcQUEUE 1))
  else if rangesOverlap x.dst.toNat x.src.toNat n then (s, .error (trapInfo fcQUEUE 2))
  else
    match firstDest s p (x.efn == 1) x.dst with
    | (s, .error t) => (s, .error t)
    | (s, .ok d) => last s (d.isHost || touchesHost s p x.src)

/-! ### The options and the group of a collective (R329, R330) -/

def optOp (o : Word) : Nat := field o.toNat 0 4
def optCls (o : Word) : Nat := field o.toNat 4 4
def optSew (o : Word) : Nat := field o.toNat 8 3
def optGroup (o : Word) : Nat := field o.toNat 16 4
def optRank (o : Word) : Nat := field o.toNat 32 8
def optRoot (o : Word) : Nat := field o.toNat 40 8
def optSeq (o : Word) : Nat := field o.toNat 48 16

/-- The width in bits of an element of a collective. -/
def optBits (o : Word) : Nat := (ewOfCode (optSew o)).bits

/-- The operations that reduce. -/
def reduces (o : Word) : Bool := optOp o ≤ 2 || optOp o == 5

/-- A reserved field or an unlisted value of the options word. -/
def optBad (o : Word) : Bool :=
  let c := clsOfCode (optCls o)
  field o.toNat 20 12 != 0 || field o.toNat 11 5 != 0 || decide (optOp o > 5) || decide (optSew o > 5) || decide (optCls o > 9)
  || (reduces o && (decide (optCls o > 4) || (c.isFp && c.container != optBits o)))

/-- A member word of the group table. -/
def memberBad (w : Nat) : Bool :=
  field w 13 3 != 0 || field w 2 6 != 0 || (bitOf w 12 && field w 8 4 != 0)

/-- The member words of a group entry, or none where it is malformed. -/
def groupMembers (e : Nat) : Option (List Nat) :=
  let n := field e 0 8
  let ms := (List.range n).map fun r => field e (64 + 16 * r) 16
  if n = 0 ∨ n > 28 ∨ field e 8 56 ≠ 0 ∨ ms.any memberBad then none else some ms

/-- The checks of `coll` at issue (R329, R330, R347). -/
def collChecks (s : State) (p : Party) (x : EngArgs) : State × Except Trap Issued :=
  if optBad x.opt then (s, .error (trapInfo fcQUEUE 3))
  else
    match readHomeDwords s p ((s.queue p.queue).colltab + BitVec.ofNat 64 (64 * optGroup x.opt)) 8 with
    | (s, .error t) => (s, .error t)
    | (s, .ok ws) =>
      match groupMembers (dwordsNat ws) with
      | none => (s, .error (trapInfo fcQUEUE 4))
      | some ms =>
        if optRank x.opt ≥ ms.length ∨ optOp x.opt = 4 ∧ optRoot x.opt ≥ ms.length then (s, .error (trapInfo fcQUEUE 3))
        else
          match checkCounter s p x.ctr with
          | (s, .error t) => (s, .error t)
          | (s, .ok _) => (s, .ok ⟨ms, touchesHost s p x.dst || touchesHost s p x.src⟩)

/-- The issue checks of an operation. -/
def engChecks (s : State) (p : Party) (x : EngArgs) : State × Except Trap Issued :=
  if x.efn = 2 then collChecks s p x else copyChecks s p x

/-! ### The command queues (R326) -/

def engineOps (s : State) (die eng : Nat) : List EngOp := s.engines.filter fun o => o.die == die && o.eng == eng

/-- The copy engine of a die with the fewest queued operations, the lowest on a tie. -/
def leastEngine (s : State) (die : Nat) : Nat :=
  (List.range 8).foldl (fun best e =>
    if (engineOps s die e).length < (engineOps s die best).length then e else best) 0

def modOp (s : State) (id : Nat) (f : EngOp → EngOp) : State :=
  { s with engines := s.engines.map fun o => if o.id = id then f o else o }

/-- Where an operation comes from. -/
structure EngFrom where
  die : Nat
  eng : Nat
  queue : Nat
  node : Option Nat
  nodeIdx : Nat
  gang : Option Nat
  core : Nat
  slot : Nat
  lsBase : Nat
  lsLen : Nat
deriving DecidableEq, Repr

/-- An operation tag that no live peer copy has: the first free one from a number on (R394; assumption 84, DESIGN CHOICE). -/
def freeTag (s : State) (k : Nat) : Nat :=
  let held := (s.engines.filter fun o => o.efn == 1).map (·.tag)
  (((List.range (held.length + 1)).map fun j => (k + j) % 65536).find? fun t => !held.contains t).getD 0

/-- A new operation; `hold`: a release that it waits for (R259).  A copy of no bytes has nothing to move. -/
def mkOp (id tag : Nat) (f : EngFrom) (x : EngArgs) (i : Issued) (hold : Option Nat) : EngOp where
  id := id
  die := f.die
  eng := f.eng
  efn := x.efn
  queue := f.queue
  dst := x.dst
  src := x.src
  len := x.len
  ctr := x.ctr
  opt := x.opt
  members := i.members
  off := 0
  st := if x.efn ≠ 2 ∧ x.len = 0 then .moved else .queued
  node := f.node
  nodeIdx := f.nodeIdx
  gang := f.gang
  core := f.core
  slot := f.slot
  lsBase := f.lsBase
  lsLen := f.lsLen
  tag := tag
  sent := []
  hold := hold

/-! ### Records of an operation (R369) -/

/-- The engine record. -/
def engineBody (op : EngOp) (off : Nat) : BitVec 512 :=
  BitVec.ofNat 512 (op.efn + op.eng * 2 ^ 128 + off % 2 ^ 32 * 2 ^ 160 + op.opt.toNat * 2 ^ 192 + op.ctr.toNat * 2 ^ 256
    + op.len.toNat * 2 ^ 320 + op.src.toNat * 2 ^ 384 + op.dst.toNat * 2 ^ 448)

/-- Queue the record of an operation stopped by a fault; with `wait` its party waits for the answer. -/
def engineRecord (s : State) (op : EngOp) (t : Trap) (off : Nat) (wait : Bool) : State × Nat :=
  let f : FaultInfo := ⟨t.code, false, BitVec.ofNat 56 t.va.toNat, 0, t.info⟩
  let image := faultRecord f 0 0 (s.queue op.queue).tenant
    (if op.node.isSome then 0 else op.core) op.slot (engineProducer op.die op.eng) op.nodeIdx 1 false
    (engineBody op off)
  s.addRecord op.queue image none (if wait then some op.id else none)

/-- The bytes of an operation below this offset are performed: all that it has moved, but for what a peer has not counted (R369). -/
def performed (op : EngOp) : Nat := op.sent.foldl (fun n r => min n r.first) op.off

/-- An operation stops at a byte offset and waits for the host (R328, R370).  A collective runs again from its start, or tries its counter
again (assumption 55, DESIGN CHOICE).  What a peer copy has sent and not seen counted it sends again with a new tag, so that late answers
count nothing. -/
def suspendOp (s : State) (op : EngOp) (t : Trap) (off : Nat) : State :=
  let off := if op.efn = 2 ∧ op.st ≠ .moved then 0 else off
  let s := countPoisonFault s t.code op.die
  let (s, n) := engineRecord s op t (if op.efn = 2 then 0 else off) true
  let (s, tag) :=
    if op.sent.isEmpty then (s, op.tag)
    else
      let (s, k) := s.takeFresh
      (s, freeTag s k)
  modOp s op.id fun o => { o with off := off, tag := tag, sent := [], st := .suspended n }

/-- A peer copy stops with BUS at the first byte of a run that will not be counted; every byte below its offset has been performed
(R328, R369, R370). -/
def stopPeer (s : State) (op : EngOp) (r : SentRun) (why : Nat) : State :=
  suspendOp s op (trapAt fcBUS (op.dst + BitVec.ofNat 64 r.first) why) (performed op)

/-! ### Moving bytes -/

/-- A write performed at a home by a party that is no core: SO copies in the L1s follow. -/
def homeStore (s : State) (die q pa n v kind : Nat) : State :=
  let bs := natBytes v n
  let s := homeWrite (reachHome s pa die q true (staysHome kind) true .normal) pa bs
  if kind = 0 then snoopAll s pa bs else s

/-- Whether a byte is the first of its line that a run from index `start` reaches. -/
def firstOfLine (start i pa : Nat) : Bool := i == start || pa % 128 == 0

/-- Whether a byte at index `i` of a run from `start` is the last of a unit of `n` bytes that the run has covered. -/
def lastOfUnit (n start i pa : Nat) : Bool := pa % n == n - 1 && decide (start + (n - 1) ≤ i)

/-- The class of the L2 lines that an operation fills: stream for a copy (R328), normal for a collective (R197). -/
def engClass (op : EngOp) : Rcl := if op.efn = 2 then .normal else .stream

/-- One byte of a run that an engine writes at a home: each line is one access to it (R354), and a sector that the run has covered is
no longer poisoned (R199). -/
def engStore (s : State) (op : EngOp) (i pa b kind : Nat) : State :=
  let bs := natBytes b 1
  let s := if firstOfLine op.off i pa then reachHome s pa op.die op.queue true (staysHome kind) true (engClass op) else s
  let s := homeWrite s pa bs
  let s := if kind = 0 then snoopAll s pa bs else s
  if lastOfUnit 32 op.off i pa then { s with poison := s.poison.filter (· != pa / 32) } else s

/-- One byte of a run that an engine writes into an LS: its word is no longer poisoned (R153, R199), and a granule that a copy engine writes
is full once its last byte is performed (R191). -/
def lsStore (s : State) (op : EngOp) (core off v : Nat) (granuleDone : Bool) : State :=
  let s := s.modCore core fun k => { k with lsPoison := k.lsPoison.filter fun w => w != off / 4 }
  let s := { s with mem := memSetByte s.mem (lsAddr core off) (BitVec.ofNat 8 v) }
  if granuleDone && op.efn != 2 then feFill s core (off / 16) else s

/-- The first queue of an LO store made by a unit of a die. -/
def unitPlace (die pa : Nat) : LoPlace :=
  match placeOf pa with
  | .peer c => if c / 4 = die then .coupling c else .seam die (c / 4)
  | _ => if homeDie pa = die then .home else .seam die (homeDie pa)

/-- Translate one byte for an engine and check its place, for a load or store of the vector stream (R220, R328). -/
def engByte (s : State) (p : Party) (va : Word) (acc : Acc) (peer : Bool) : State × Except Trap Dest :=
  match translate s p va 1 acc with
  | (s, .error t) => (s, .error t)
  | (s, .ok d) =>
    let bad :=
      if acc = .write ∧ d.isPeer ≠ peer then protWindow va acc
      else if d.isPeer && acc == .write then none
      else placeRule (if acc = .write then .store else .load) va 8 acc d
    match bad with
    | some t => (s, .error t)
    | none =>
      match (match d with
        | .phys pa _ => busRule s p.die va pa
        | .ls _ _ => none) with
      | some t => (s, .error t)
      | none => (s, .ok d)

/-- What a unit of a move writes: a byte, and the seq of its tag when it goes to an LO cell. -/
abbrev ByteSource := State → Nat → State × Except Trap (Nat × BitVec 32)

/-- The source of a copy: byte `i` at src + i. -/
def copySource (p : Party) (op : EngOp) : ByteSource := fun s i =>
  let va := op.src + BitVec.ofNat 64 i
  match engByte s p va .read false with
  | (s, .error t) => (s, .error t)
  | (s, .ok d) =>
    if d.isLo ∧ (op.src.toNat % 8 ≠ 0 ∨ op.len.toNat % 8 ≠ 0) then (s, .error (trapAt fcORDMIX va 1))
    else
      match poisonRule s { p with core := 576 } .bypass va 1 d with
      | some t => (s, .error t)
      | none =>
        let s := if firstOfLine op.off i d.pa then d.reach s p (engClass op) else s
        let seq := if d.isLo then (Tab.get LoTag.reset s.lo (d.pa / 8)).seq else 0
        (s, .ok ((memByte s.mem d.pa).toNat, seq))

/-- Bytes that go to a peer: index in the operation, coupling, offset in its window, byte. -/
abbrev PeerBytes := List (Nat × Nat × Nat × Nat)

/-- Eight bytes of a source. -/
def cellOf (f : ByteSource) (i : Nat) : Nat → State → State × Except Trap (Nat × BitVec 32)
  | 0, s => (s, .ok (0, 0))
  | n + 1, s =>
    match f s i with
    | (s, .error t) => (s, .error t)
    | (s, .ok (b, q)) =>
      match cellOf f (i + 1) n s with
      | (s, .error t) => (s, .error t)
      | (s, .ok (v, _)) => (s, .ok (b + 256 * v, q))

/-- Write `n` bytes from offset `i` of a destination of `len` bytes: the offset reached, and the fault there. The last byte
keeps the memory bits above `tailBits` when that is not 0. -/
def moveBytes (p : Party) (op : EngOp) (f : ByteSource) (len tailBits : Nat) :
    Nat → Nat → State → PeerBytes → State × PeerBytes × Nat × Option Trap
  | 0, i, s, out => (s, out, i, none)
  | fuel + 1, i, s, out =>
    if i ≥ len then (s, out, i, none)
    else
      let va := op.dst + BitVec.ofNat 64 i
      match engByte s p va .write (op.efn == 1) with
      | (s, .error t) => (s, out, i, some t)
      | (s, .ok d) =>
        if d.isLo then
          if op.dst.toNat % 8 ≠ 0 ∨ len % 8 ≠ 0 ∨ op.efn = 2 ∧ optSew op.opt ≠ 5 then (s, out, i, some (trapAt fcORDMIX va 1))
          else
            match cellOf f i 8 s with
            | (s, .error t) => (s, out, i, some t)
            | (s, .ok (v, seq)) =>
              let x : LoStore := ⟨d.pa, BitVec.ofNat 64 v, seq, engineProducer op.die op.eng, 1, false, op.queue,
                unitPlace op.die d.pa⟩
              moveBytes p op f len tailBits fuel (i + 8) (loEnter s x) out
        else if d.isPeer then
          match f s i with
          | (s, .error t) => (s, out, i, some t)
          | (s, .ok (b, _)) => moveBytes p op f len tailBits fuel (i + 1) s (out ++ [(i, d.pa / 2 ^ 44 % 16, d.pa % 2 ^ 44, b)])
        else
          match f s i with
          | (s, .error t) => (s, out, i, some t)
          | (s, .ok (b, _)) =>
            let b := if i + 1 = len ∧ tailBits ≠ 0 then setField (memByte s.mem d.pa).toNat 0 tailBits b else b
            let s := match d with
              | .ls c off => lsStore s op c off b (off % 16 == 15 || i + 1 == len)
              | .phys pa kind =>
                if placeOf pa = .host then { s with mem := memSetByte s.mem pa (BitVec.ofNat 8 b) }
                else engStore s op i pa b kind
            moveBytes p op f len tailBits fuel (i + 1) s out

/-! ### Peer copies (R394) -/

/-- Pack a run of bytes that starts at a target into dwords: the bytes before the target's dword are zero. -/
def packRun (target : Nat) (bs : List Nat) : List Word :=
  let n := ceilDiv (target % 8 + bs.length) 8
  let v := bs.foldr (fun b acc => b + 256 * acc) 0 * 256 ^ (target % 8)
  (List.range n).map fun k => BitVec.ofNat 64 (field v (64 * k) 64)

/-- The copy-write request of a run. -/
def copyRequest (op : EngOp) (target : Nat) (bs : List Nat) : List Word :=
  let ds := packRun target bs
  let first := (2 ^ (min 8 (target % 8 + bs.length)) - 1) / 2 ^ (target % 8) * 2 ^ (target % 8)
  let endByte := (target + bs.length - 1) % 8 + 1
  let last := if ds.length = 1 then first else 2 ^ endByte - 1
  let h1 := (engineProducer op.die op.eng).toNat + op.tag * 2 ^ 16 + first % 256 * 2 ^ 32 + last % 256 * 2 ^ 40
  requestHead (target / 8 * 8) ds.length 0 h1 ++ ds

/-- Consecutive bytes of an operation for one peer, at rising targets. -/
structure PeerRun where
  first : Nat
  port : Nat
  target : Nat
  bytes : List Nat
deriving DecidableEq, Repr

/-- Send a run; the peer has not counted it yet. -/
def sendRun (op : EngOp) (r : PeerRun) (s : State) : State :=
  modOp (s.sendRequest r.port 0 (copyRequest op r.target r.bytes)) op.id fun o =>
    { o with sent := o.sent ++ [⟨r.port, r.first, r.bytes.length⟩] }

/-- Split the bytes for peers into runs of one coupling and rising targets within 28 dwords, and send them. -/
def sendRuns (op : EngOp) : PeerBytes → Option PeerRun → State → State
  | [], none, s => s
  | [], some r, s => sendRun op r s
  | (i, c, o, b) :: rest, none, s => sendRuns op rest (some ⟨i, c, o, [b]⟩) s
  | (i, c, o, b) :: rest, some r, s =>
    let n := r.bytes.length
    if i = r.first + n ∧ c = r.port ∧ o = r.target + n ∧ o / 8 < r.target / 8 + 28 then
      sendRuns op rest (some { r with bytes := r.bytes ++ [b] }) s
    else sendRuns op rest (some ⟨i, c, o, [b]⟩) (sendRun op r s)

/-! ### Collectives (R329) -/

/-- The elements of its source that a rank contributes. -/
def ownCount (op : EngOp) : Nat :=
  match optOp op.opt with
  | 4 => if optRank op.opt = optRoot op.opt then op.len.toNat else 0
  | 5 => op.len.toNat * op.members.length
  | _ => op.len.toNat

/-- The elements of its contribution that a rank sends to another: first and number. -/
def shareFor (op : EngOp) (rank : Nat) : Nat × Nat :=
  if optOp op.opt = 5 then (rank * op.len.toNat, op.len.toNat) else (0, ownCount op)

/-- Read the bytes of a source in order. -/
def readRun (f : ByteSource) : Nat → Nat → State → State × Except Trap Nat
  | 0, _, s => (s, .ok 0)
  | n + 1, i, s =>
    match f s i with
    | (s, .error t) => (s, .error t)
    | (s, .ok (b, _)) =>
      match readRun f n (i + 1) s with
      | (s, .error t) => (s, .error t)
      | (s, .ok v) => (s, .ok (b + 256 * v))

/-- A bit string as dwords. -/
def dwordsOf (v bits : Nat) : List Word := (List.range (ceilDiv bits 64)).map fun k => BitVec.ofNat 64 (field v (64 * k) 64)

/-- Send one rank's share, in requests of at most 28 dwords, or place it with a collective engine of this device. -/
def sendShare (s : State) (op : EngOp) (data rank : Nat) : State :=
  let (lo, n) := shareFor op rank
  let w := optBits op.opt
  let m := op.members[rank]?.getD 0
  let tenant := (s.queue op.queue).tenant
  let own := rank == optRank op.opt
  if n = 0 then s
  else if own || bitOf m 12 then
    let die := if own then op.die else field m 0 2
    { s with rx := s.rx ++ [⟨die, tenant, optGroup op.opt, optSeq op.opt, optRank op.opt, lo,
      dwordsOf (field data (lo * w) (n * w)) (n * w), none⟩] }
  else
    let per := 28 * 64 / w
    (List.range (ceilDiv n per)).foldl (fun s k =>
      let a := lo + k * per
      let c := min per (n - k * per)
      let ds := dwordsOf (field data (a * w) (c * w)) (c * w)
      let h1 := optSeq op.opt + optRank op.opt * 2 ^ 16 + optGroup op.opt * 2 ^ 24 + tenant.toNat * 2 ^ 28
      s.sendRequest (field m 8 4) 2 (requestHead a ds.length 0 h1 ++ ds)) s

/-- The data of one rank for an operation. -/
def rankData (s : State) (op : EngOp) (rank : Nat) : List CollData :=
  s.rx.filter fun x => x.die == op.die && x.tenant == (s.queue op.queue).tenant && x.group == optGroup op.opt
    && x.seq == optSeq op.opt && x.rank == rank

/-- Element `j` of a rank's contribution, where it has arrived. -/
def rankElem (xs : List CollData) (w j : Nat) : Option Nat :=
  (xs.find? fun x => decide (x.off ≤ j) && decide (j < x.off + x.data.length * 64 / w)).map fun x =>
    field (dwordsNat x.data) ((j - x.off) * w) w

/-- The elements that an operation expects of a rank: first and number. -/
def expected (op : EngOp) (rank : Nat) : Nat × Nat :=
  match optOp op.opt with
  | 4 => (0, if rank = optRoot op.opt then op.len.toNat else 0)
  | 5 => (optRank op.opt * op.len.toNat, op.len.toNat)
  | _ => (0, op.len.toNat)

/-- Every element of every rank has arrived. -/
def allArrived (s : State) (op : EngOp) : Bool :=
  (List.range op.members.length).all fun r =>
    let (lo, n) := expected op r
    let xs := rankData s op r
    (List.range n).all fun j => (rankElem xs (optBits op.opt) (lo + j)).isSome

/-- The elements of the result in order.  Bits [7:6] of an E3M2 or E2M3 element in an 8-bit container are neither read nor written (R70). -/
def collResult (s : State) (op : EngOp) : List Nat :=
  let w := optBits op.opt
  let c := clsOfCode (optCls op.opt)
  let elem (r j : Nat) : Nat :=
    let x := (rankElem (rankData s op r) w ((expected op r).1 + j)).getD 0
    if w = 8 then fpMask c x else x
  let size := op.members.length
  let n := op.len.toNat
  let fold (o : VRed) (j : Nat) : Nat :=
    (List.range (size - 1)).foldl (fun acc r => (redOp o c w 0 acc (elem (r + 1) j)).1) (elem 0 j)
  match optOp op.opt with
  | 0 => (List.range n).map (fold .sum)
  | 1 => (List.range n).map (fold .max)
  | 2 => (List.range n).map (fold .min)
  | 3 => (List.range (n * size)).map fun j => elem (j / n) (j % n)
  | 4 => (List.range n).map (elem (optRoot op.opt))
  | _ => (List.range n).map (fold .sum)

/-- Elements packed lowest first. -/
def packElems (w : Nat) (xs : List Nat) : Nat := xs.foldr (fun x acc => x + 2 ^ w * acc) 0

/-- Bytes of a number as the source of a collective's writes, with the matching number as their seq. -/
def numberSource (v seq : Nat) : ByteSource := fun s i => (s, .ok (field v (8 * i) 8, BitVec.ofNat 32 seq))

/-! ### Progress of an operation -/

/-- What a try to make an operation progress finds. -/
inductive EngTry where
  | blocked
  | moved (s : State)
  /-- The state with what is performed, and the fault at a byte offset. -/
  | fault (s : State) (t : Trap) (off : Nat)
deriving DecidableEq, Repr

/-- The coupling, or a seam on the way to it, that a unit of a die must cross is fenced (R375). -/
def portFenced (s : State) (die c : Nat) : Bool := couplingFenced s c || seamFenced s die (c / 4)

/-- A peer copy waits until the peer has counted every run: a run behind a fence is not counted (R375). -/
def waitPeer (s : State) (op : EngOp) (counted : EngTry) : EngTry :=
  if op.sent = [] then counted
  else
    match op.sent.find? fun r => portFenced s op.die r.port with
    | some r => .fault s (trapAt fcBUS (op.dst + BitVec.ofNat 64 r.first) 2) (performed op)
    | none => .blocked

/-- A copy moves its bytes.  A peer copy then waits until the peer has counted them; where a byte of it faults, the bytes below it are counted
first. -/
def tryCopy (s : State) (op : EngOp) : EngTry :=
  let p := engParty s op
  let n := op.len.toNat
  match moveBytes p op (copySource p op) n 0 (n - op.off) op.off s [] with
  | (t, out, off, some tr) =>
    if op.efn ≠ 1 then .fault t tr off
    else if off ≠ op.off then .moved (modOp (sendRuns op out none t) op.id fun o => { o with off := off })
    else waitPeer s op (.fault t tr off)
  | (t, out, _, none) =>
    .moved (modOp (sendRuns op out none t) op.id fun o => { o with off := n, st := if op.efn = 1 then .sent else .moved })

/-- A coupling that a member's data must cross is fenced. -/
def collFenced (s : State) (op : EngOp) : Bool :=
  op.members.any fun m =>
    if bitOf m 12 then seamFenced s op.die (field m 0 2) else portFenced s op.die (field m 8 4)

/-- A collective reads its source and sends every rank its share; one that has stopped at its end only signals. -/
def tryGive (s : State) (op : EngOp) : EngTry :=
  let p := engParty s op
  let bits := ownCount op * optBits op.opt
  if op.off ≠ 0 then .moved (modOp s op.id fun o => { o with st := .moved })
  else if collFenced s op then .fault s (trapInfo fcBUS 2) 0
  else
    match readRun (copySource p { op with len := BitVec.ofNat 64 (ceilDiv bits 8) }) (ceilDiv bits 8) 0 s with
    | (s, .error t) => .fault s t 0
    | (s, .ok data) =>
      let s := (List.range op.members.length).foldl (fun s r => sendShare s op data r) s
      .moved (modOp s op.id fun o => { o with st := .sent })

/-- The data belongs to operations of one tenant, GROUP and SEQ on a die (R394). -/
def matchesOp (s : State) (op : EngOp) (x : CollData) : Bool :=
  x.die == op.die && x.tenant == (s.queue op.queue).tenant && x.group == optGroup op.opt && x.seq == optSeq op.opt

/-- Data that an operation takes: it holds an expected element that no data taken before it holds. -/
def needs (op : EngOp) (used : List CollData) (x : CollData) : Bool :=
  let (lo, n) := expected op x.rank
  let w := optBits op.opt
  (List.range n).any fun j =>
    (rankElem [x] w (lo + j)).isSome && (rankElem (used.filter fun y => y.rank == x.rank) w (lo + j)).isNone

/-- The data that an operation takes, in the order of arrival, and what stays. -/
def takeData (s : State) (op : EngOp) (used : List CollData) : List CollData → List CollData × List CollData
  | [] => (used, [])
  | x :: xs =>
    if matchesOp s op x && needs op used x then takeData s op (used ++ [x]) xs
    else
      let (u, rest) := takeData s op used xs
      (u, x :: rest)

/-- Another rank of the group lies on the die of an operation: it has data of its own there (R330). -/
def sharesDie (op : EngOp) : Bool :=
  (List.range op.members.length).any fun r =>
    let m := op.members[r]?.getD 0
    r != optRank op.opt && bitOf m 12 && field m 0 2 == op.die

/-- The data that stays when an operation has taken its own: that of the other ranks of its die, where the group has any. -/
def dataLeft (s : State) (op : EngOp) : List CollData :=
  if sharesDie op then (takeData s op [] s.rx).2 else s.rx.filter fun x => !matchesOp s op x

/-- A collective whose data has arrived writes its destination and frees the buffers; the data of a member behind a fence
does not arrive (R375). -/
def tryTake (s : State) (op : EngOp) : EngTry :=
  if !allArrived s op then (if collFenced s op then .fault s (trapInfo fcBUS 2) 0 else .blocked)
  else
    let xs := collResult s op
    let w := optBits op.opt
    let v := packElems w xs
    let bits := xs.length * w
    match moveBytes (engParty s op) op (numberSource v (optSeq op.opt)) (ceilDiv bits 8) (bits % 8) (ceilDiv bits 8) 0 s [] with
    | (s, _, off, some t) => .fault s t off
    | (s, _, _, none) =>
      let left := dataLeft s op
      let held := left.filterMap (·.port)
      let freed := ((s.rx.filterMap (·.port)).eraseDups).filter fun x => !held.contains x
      let s := freed.foldl (fun s c => (s.modPort c.1 fun p => { p with
        freed := p.freed.setIfInBounds 2 (creditOf p.freed 2 + 1) }).pumpPort c.1) { s with rx := left }
      .moved (modOp s op.id fun o => { o with st := .moved })

/-- An operation ends: its gang has made progress, and its node is done. -/
def endOp (s : State) (op : EngOp) : State :=
  let s := { s with engines := s.engines.filter fun o => o.id != op.id }
  let s := match op.gang with
    | some g => s.progress g
    | none => s
  match op.node with
  | some n => markDone s n false
  | none => s

/-- The increment of a counter by a party that is no core (R347): one access to its line, a read and a write of it (R354), that allocates
nothing, as the atomic of a core does (R221). -/
def moveCounter (s : State) (die q : Nat) (d : Dest) : State :=
  match d with
  | .phys pa kind =>
    let s := countRemote (reachHome s pa die q false (staysHome kind) false .normal) pa die q true
    let bs := natBytes (memRead s.mem pa 8 + 1) 8
    let s := homeWrite s pa bs
    if kind = 0 then snoopAll s pa bs else s
  | .ls _ _ => s

/-- Signal the completion of an operation: a release at sys, then one increment of its counter, whose address translates as it does now
(R215, R328, R347); where it no longer translates the operation stops at its end (assumption 55, DESIGN CHOICE). -/
def signalOp (s : State) (op : EngOp) : EngTry :=
  match checkCounter s (engParty s op) op.ctr with
  | (s, .error t) => .fault s t op.len.toNat
  | (s, .ok none) => .moved (endOp s op)
  | (s, .ok (some d)) => .moved (endOp (moveCounter s op.die op.queue d) op)

/-- An operation of no bytes signals at once, unless a release holds it. -/
def signalNow (s : State) (op : EngOp) : State :=
  if op.efn = 2 ∨ op.len ≠ 0 ∨ op.hold.isSome then s
  else
    match signalOp s op with
    | .moved u => u
    | _ => s

/-- Try an operation: the head of its engine signals when all its bytes are performed. -/
def tryOp (s : State) (op : EngOp) : EngTry :=
  if op.hold.isSome then .blocked
  else
    match op.st with
    | .queued => if op.efn = 2 then tryGive s op else tryCopy s op
    | .sent =>
      if op.efn = 2 then tryTake s op
      else waitPeer s op (.moved (modOp s op.id fun o => { o with st := .moved }))
    | .moved =>
      if ((engineOps s op.die op.eng).head?.map (·.id)) = some op.id then signalOp s op else .blocked
    | .suspended _ => .blocked

/-- The first operation that can progress, or that faults. -/
def firstMoved (s : State) : List EngOp → Option State
  | [] => none
  | o :: t => match tryOp s o with
    | .moved u => some u
    | _ => firstMoved s t

def firstFault (s : State) : List EngOp → Option State
  | [] => none
  | o :: t =>
    match tryOp s o with
    | .fault u tr off => some (suspendOp u o tr off)
    | _ => firstFault s t

/-- ENGINE_COMPLETION: the oldest operation of an engine that can move does, and the oldest of all signals once its last byte
is performed. -/
def execEngineCompletion (die eng : Nat) (s : State) : Out :=
  if die ≥ 4 ∨ eng ≥ 9 then .fault .noSuchUnit
  else .next ((firstMoved s (engineOps s die eng)).getD s)

/-- ENGINE_FAULT: an operation stops at the byte that faults, and posts its record. -/
def execEngineFault (die eng : Nat) (s : State) : Out :=
  if die ≥ 4 ∨ eng ≥ 9 then .fault .noSuchUnit
  else .next ((firstFault s (engineOps s die eng)).getD s)

/-! ### The instructions (R327) -/

/-- The four registers of a block, from an absolute number of 3 to 252. -/
def regBlockBad (a : Nat) : Bool := decide (a < 3) || decide (a > 252)

/-- Issue an engine operation from a core: x[D] takes 1. -/
def engInstr (i : Instr) (efn : Nat) (d a : Fld) (opt : Word) (s : State) : Out :=
  let n := xNum s.vlc.wins a
  if regBlockBad n then scalarStop s (decodeTrap fcFIELD (wordOf i) 2)
  else
    let v := s.vlc
    let x : EngArgs := ⟨efn, v.getX n, v.getX (n + 1), v.getX (n + 2), v.getX (n + 3), opt⟩
    let g := s.gang
    let me := s.me
    let idx := ((s.findNode g.node).map (·.idx)).getD 0xFFFF
    let eng := if efn = 2 then 8 else coreCluster v.core % 8
    let src : EngFrom := ⟨coreDie v.core, eng, g.queue, none, idx, some v.gang, v.core, v.slot, me.lsBase, me.lsLen⟩
    match engChecks s me x with
    | (t, .error e) => scalarStop t e
    | (t, .ok is) =>
      if (engineOps s src.die eng).length ≥ 32 then stall s
      else
        let (t, hold) := releaseBoth t i (if is.host then .sys else .dev)
        let (t, id) := t.takeFresh
        let op := mkOp id (freeTag t id) src x is hold
        .next ((signalNow { t with engines := t.engines ++ [op] } op).retire d 1)

def execCopy (d a : Fld) (s : State) : Out := engInstr (.copy d a) 0 d a 0 s

def execCopyp (d a : Fld) (s : State) : Out := engInstr (.copyp d a) 1 d a 0 s

def execColl (d a b : Fld) (s : State) : Out := engInstr (.coll d a b) 2 d a (s.vlc.rx b) s

/-! ### Engine nodes (R326) -/

/-- Start the operation of an engine node on its die: it fails at once when a check of its issue fails. -/
def startEngineNode (s : State) (n : Node) : State :=
  let efn := recEfn n.image
  let w (k : Nat) : Word := BitVec.ofNat 64 (recP n.image k)
  let x : EngArgs := ⟨efn, w 0, w 1, w 2, w 3, BitVec.ofNat 64 (if efn = 2 then recOpt n.image else 0)⟩
  let eng := if efn = 2 then 8 else leastEngine s n.die
  let src : EngFrom := ⟨n.die, eng, n.queue, some n.id, n.idx, n.spawner, 576, 0, 0, 0⟩
  let (t, r) := engChecks s (queueParty n.die n.queue) x
  let (t, id) := t.takeFresh
  match r with
  | .error e =>
    let op := mkOp id 0 src x ⟨[], false⟩ none
    completeNode (engineRecord (countPoisonFault t e.code n.die) op e 0 false).1 n
  | .ok is =>
    let op := mkOp id (freeTag t id) src x is none
    let t := t.modNode n.id fun n => { n with st := .running }
    signalNow { t with engines := t.engines ++ [op] } op

/-- Whether an engine of the node's die has room for it. -/
def engineRoom (s : State) (n : Node) : Bool :=
  let eng := if recEfn n.image = 2 then 8 else leastEngine s n.die
  decide ((engineOps s n.die eng).length < 32)

/-- A peer has counted so many bytes: the oldest of those that were sent over its coupling. -/
def countRuns (c : Nat) : Nat → List SentRun → List SentRun
  | _, [] => []
  | n, r :: t =>
    if r.port ≠ c then r :: countRuns c n t
    else if r.count ≤ n then countRuns c (n - r.count) t
    else { r with first := r.first + n, count := r.count - n } :: t

/-- The acknowledgement of a peer over a coupling: bytes performed (R394). -/
def countAck (s : State) (c tag n : Nat) : State :=
  { s with engines := s.engines.map fun o => if o.efn = 1 ∧ o.tag = tag then { o with sent := countRuns c n o.sent } else o }

/-- H1 of the answer to collective data that is refused: its SEQ as the tag, and in place of a count of bytes its GROUP, tenant and rank,
and a bit that no copy's answer has (R394; assumption 43, DESIGN CHOICE). -/
def collRefusal (seq group tenant rank : Nat) : Nat :=
  seq % 65536 * 2 ^ 16 + group % 16 * 2 ^ 32 + tenant % 4096 * 2 ^ 36 + rank % 256 * 2 ^ 48 + 2 ^ 63

/-- The operation whose request a peer refuses: a peer copy by its tag, a collective by its tenant, GROUP, SEQ and rank, with a member beyond
the port. -/
def refusedOp (s : State) (c h1 : Nat) : Option EngOp :=
  let tag := field h1 16 16
  s.engines.find? fun o =>
    if bitOf h1 63 then
      o.efn == 2 && o.st == .sent && collRefusal (optSeq o.opt) (optGroup o.opt) (s.queue o.queue).tenant.toNat (optRank o.opt) == h1 &&
        o.members.any fun m => !bitOf m 12 && field m 8 4 == c
    else o.efn == 1 && o.tag == tag

/-- The refusal of a peer stops the operation, a peer copy at the oldest run that it sent over the coupling (R392, R394). -/
def refuseAck (s : State) (c h1 : Nat) : State :=
  match refusedOp s c h1 with
  | none => s
  | some o =>
    if o.efn = 2 then suspendOp s o (trapInfo fcBUS 0) 0
    else
      match o.sent.find? fun r => r.port == c with
      | none => s
      | some r => stopPeer s o r 0

end Sys2Proof.Machine
end

