-- ==== Sys2Proof/Machine/Cloak.lean ====
section
/-! DEFINITION. The Cloak rotation of one block, forward and inverse (spec/03_numbers.md R85 to R87, R78). -/

namespace Sys2Proof.Machine

/-- A scale word is valid: finite, positive and normal (R78). -/
def sigmaOk (bits : Nat) : Bool := !bitOf bits 31 && decide (1 ≤ field bits 23 8) && decide (field bits 23 8 ≤ 254)

/-- The value of a scale word. -/
def sigmaVal (bits : Nat) : Exact :=
  match fpVal .fp32 bits with
  | .fin x => x
  | _ => ⟨false, 1, 1, 0⟩

/-- The block size of a tag (R85). -/
def tagBlock (t : BitVec 6) : Nat := 2 ^ (field t.toNat 3 2 + 4)

/-- The seed register of a tag. -/
def tagSeed (t : BitVec 6) : Nat := field t.toNat 0 3

def tagOn (t : BitVec 6) : Bool := t.getLsbD 5

/-- `Lg` of a block of `2 ^ Lg` elements. -/
def tagLog (t : BitVec 6) : Nat := field t.toNat 3 2 + 4

/-- The values of a block; an element that takes no part enters as +0. -/
def blockVals (c : Cls) (w : Nat) (xs : List (Option Nat)) : List FV :=
  xs.map fun x =>
    match x with
    | some b => if c.isFp then fpVal c b else .fin (exactI (intVal (c == .i) w b))
    | none => .fin ⟨false, 0, 1, 0⟩

def blockBad (vs : List FV) : Bool := vs.any fun v =>
  match v with
  | .fin _ => false
  | _ => true

/-- The exact values of a block with no NaN and no infinity. -/
def blockFin (vs : List FV) : List Exact := vs.map fun v =>
  match v with
  | .fin x => x
  | _ => ⟨false, 0, 1, 0⟩

/-- floor(log2(max |x|)) of a block that is not all zero. -/
def blockEmax (xs : List Exact) : Int :=
  ((xs.filter fun x => x.num != 0).map floorLog2).foldl
    (fun (b : Option Int) x =>
      match b with
      | none => some x
      | some y => some (max x y)) none |>.getD 0

/-- Truncation toward zero of x × 2^(30 - emax), and whether it lost a bit. -/
def alignElem (emax : Int) (x : Exact) : Int × Bool :=
  let (n, d) := scaled x (emax - 30)
  let q : Int := (n / d : Nat)
  (if x.neg then -q else q, n % d != 0)

/-- Apply the signs of a seed (R85). -/
def applySigns (seed : BitVec 128) (qs : List Int) : List Int :=
  qs.mapIdx fun i q => if seed.getLsbD i then -q else q

/-- One stage: pairs at distance h. -/
def butterflyStage (h : Nat) (qs : List Int) : List Int :=
  qs.mapIdx fun j q => if j / h % 2 = 0 then q + qs.getD (j + h) 0 else qs.getD (j - h) 0 - q

/-- Stages 1 to L. -/
def butterfly : Nat → List Int → List Int
  | 0, qs => qs
  | k + 1, qs => butterflyStage (2 ^ k) (butterfly k qs)

/-- Round q × 2^e, divided by a scale, by RNE to the target; +0 when q is 0, NaN under an invalid scale (R78). -/
def emitElem (t : Cls) (sat : Bool) (e : Int) (sigma : Option Nat) (q : Int) : Nat × Fl :=
  let x : Exact := ⟨decide (q < 0), q.natAbs, 1, e⟩
  match sigma with
  | none => if q = 0 then (0, 0) else roundFp t 0 sat x
  | some b =>
    if !sigmaOk b then let (v, f) := nanOf t; (v, f ||| flNV)
    else if q = 0 then (0, 0) else roundFp t 0 sat (divExact x (sigmaVal b))

/-- Emit the elements that take part, each under its own scale. -/
def emitBlock (t : Cls) (sat : Bool) (e : Int) : List (Option Nat) → List (Option Nat) → List Int → List Nat × Fl
  | sigmas, x :: xs, q :: qs =>
    let (r, f) := if x.isSome then emitElem t sat e (sigmas.headD none) q else (0, 0)
    let (rs, fs) := emitBlock t sat e sigmas.tail xs qs
    (r :: rs, f ||| fs)
  | _, _, _ => ([], 0)

/-- The NaN block of R86. -/
def nanBlock (t : Cls) (xs : List (Option Nat)) : List Nat × Fl :=
  let (v, f) := nanOf t
  (xs.map fun _ => v, f ||| flNV)

/-- A rotation: signs before the stages when forward, after them when inverse.  `sigmas` holds the scale of each element,
or nothing.  An invalid scale gives NaN, also to an element of a block that is all zero, where R86 returns +0 before it looks at the scale
(R78; assumption 62, DESIGN CHOICE). -/
def rotateBlock (forward : Bool) (c : Cls) (w : Nat) (t : Cls) (lg : Nat) (seed : BitVec 128) (sigmas : List (Option Nat))
    (sat : Bool) (xs : List (Option Nat)) : List Nat × Fl :=
  let vs := blockVals c w xs
  if blockBad vs then nanBlock t xs
  else
    let es := blockFin vs
    if es.all fun x => x.num == 0 then emitBlock t sat 0 sigmas xs (xs.map fun _ => 0)
    else
      let emax := blockEmax es
      let al := es.map (alignElem emax)
      let q0 := al.map Prod.fst
      let qs := if forward then butterfly lg (applySigns seed q0) else applySigns seed (butterfly lg q0)
      let e := emax - 30 - (if forward then 0 else (lg : Int))
      let (rs, f) := emitBlock t sat e sigmas xs qs
      (rs, f ||| flIf (al.any Prod.snd) flNX)

end Sys2Proof.Machine
end

