-- ==== Sys2Proof/Machine/VecArith.lean ====
section
/-! DEFINITION. What the vector arithmetic, compare, merge, move, reduction and dot-product instructions do at the head
of the queue (spec/05_vector_registers.md R128 to R136). -/

namespace Sys2Proof.Machine

/-- Rotation tags of source groups that differ (R128). -/
def tagsDiffer (f : VFile) : List Nat → Bool
  | [] => false
  | n :: t => t.any fun m => f.tagOf m != f.tagOf n

/-- Run `k` when the tags of the source groups agree, else ROT_TAG before any element. -/
def withTags (s : State) (groups : List Nat) (k : State × VEnd) : State × VEnd :=
  if tagsDiffer s.vlc.vf groups then (s, .fault (trapInfo fcROT_TAG 0)) else k

/-- The scalar operand of an entry, converted once, where the instruction has one (R77). -/
def scalarOf (k : Bool) (c : Cls) (w : Nat) (x : Word) : Nat × Fl := if k then scalarElem c w x else (0, 0)

/-- The vector sources of a two-operand entry. -/
def sources (e : VEntry) (k : Bool) : List Nat := if k then [e.a] else [e.a, e.b]

def isAcc : VOp → Bool
  | .macc | .nmsac => true
  | _ => false

/-- An element-wise two-operand instruction (R129, R130); `keep` says that D takes the sources' tag (R128). -/
def binBody (op : VOp) (keep : Bool) (pg : BitVec 2) (k : Bool) : VBody := fun e s =>
  let w := e.vt.sew.bits
  let c := e.vt.cls
  let acc := isAcc op
  let (x, fl) := scalarOf k c w e.xb
  withTags s (sources e k ++ if acc then [e.d] else []) <|
    runElementwise e pg {
      base := e.d
      w := w
      names := grpNames e.vt
      cls := c
      reads := fun i => (sources e k ++ if acc then [e.d] else []).map fun b => (b, w, i)
      op := fun _ xs =>
        let a := xs.getD 0 0
        let (b, d) := if k then (x, xs.getD 1 0) else (xs.getD 1 0, xs.getD 2 0)
        let (r, f) := alu op c w e.frm a b d
        (some r, f) } (if keep then s.vlc.vf.tagOf e.a else 0) fl s

/-- A compare into a predicate (R132). -/
def cmpBody (op : VCmp) (pg : BitVec 2) (k : Bool) : VBody := fun e s =>
  let w := e.vt.sew.bits
  let c := e.vt.cls
  let (x, fl) := scalarOf k c w e.xb
  withTags s (sources e k) <|
    thenDone (elements e (fun i s =>
      let v := s.vlc
      if v.active pg i then
        match readAll v ((sources e k).map fun b => (b, w, i)) with
        | .error t => (s, .fault t)
        | .ok xs =>
          let (r, f) := cmpElem op c w (xs.getD 0 0) (if k then x else xs.getD 1 0)
          ({ s with vlc := ({ v with vf := v.vf.setPbit e.d i r } : Vlc).orFlags (f ||| fl) }, .done)
      else if e.vt.mz then ({ s with vlc := { v with vf := v.vf.setPbit e.d i false } }, .done)
      else (s, .done)) s)
    fun s => if e.vl = 0 then s else s.modVlc fun v => { v with vf := v.vf.ptail e.vt e.d e.vl }

/-- The class of a widened result: FP32 for floating point, the class itself for integers. -/
def wideCls (c : Cls) : Cls := if c.isFp then .fp32 else c

/-- A widening instruction: the destination has elements of 2w in twice the names (R133). -/
def wideBody (op : VWide) (pg : BitVec 2) (k : Bool) : VBody := fun e s =>
  let w := e.vt.sew.bits
  let c := e.vt.cls
  let acc := op == .macc
  let (x, fl) := scalarOf k c w e.xb
  withTags s (sources e k ++ if acc then [e.d] else []) <|
    runElementwise e pg {
      base := e.d
      w := 2 * w
      names := 2 * grpNames e.vt
      cls := wideCls c
      reads := fun i => ((sources e k).map fun b => (b, w, i)) ++ if acc then [(e.d, 2 * w, i)] else []
      op := fun _ xs =>
        let a := xs.getD 0 0
        let (b, d) := if k then (x, xs.getD 1 0) else (xs.getD 1 0, xs.getD 2 0)
        let (r, f) := wideElem op c w e.frm a b d
        (some r, f) } 0 fl s

/-- `vnclip` (R133). -/
def nclipBody (pg : BitVec 2) (k : Bool) : VBody := fun e s =>
  let w := e.vt.sew.bits
  let c := e.vt.cls
  let (x, fl) := scalarOf k c w e.xb
  withTags s (sources e k) <|
    runElementwise e pg {
      base := e.d
      w := w
      names := grpNames e.vt
      cls := c
      reads := fun i => (e.a, 2 * w, i) :: if k then [] else [(e.b, w, i)]
      op := fun _ xs =>
        let (r, f) := nclipElem (c == .i) w (xs.getD 0 0) (if k then x else xs.getD 1 0)
        (some r, f) } 0 fl s

/-- `vmerge`: the guard selects the source, and every element below VL is written.  The flags of the scalar's conversion are set with each
element that is active, that is selected (R77, R124, R131; assumption 66, DEDUCED). -/
def mergeBody (pg : BitVec 2) (k : Bool) : VBody := fun e s =>
  let w := e.vt.sew.bits
  let (x, fl) := scalarOf k e.vt.cls w e.xb
  let sel := fun i => s.vlc.active pg i
  withTags s (sources e k) <|
    runElementwise e 0 {
      base := e.d
      w := w
      names := grpNames e.vt
      cls := e.vt.cls
      reads := fun i => if sel i then (if k then [] else [(e.b, w, i)]) else [(e.a, w, i)]
      op := fun i xs => (some (if sel i && k then x else xs.getD 0 0), if sel i then fl else 0) }
      (if k then 0 else s.vlc.vf.tagOf e.a) 0 s

/-- `vmv vD, vA` (R131). -/
def mvBody (pg : BitVec 2) : VBody := fun e s =>
  let w := e.vt.sew.bits
  runElementwise e pg {
    base := e.d
    w := w
    names := grpNames e.vt
    cls := e.vt.cls
    reads := fun i => [(e.a, w, i)]
    op := fun _ xs => (some (xs.getD 0 0), 0) } (s.vlc.vf.tagOf e.a) 0 s

/-- `vmv vD, xB` (R131). -/
def splatBody (pg : BitVec 2) : VBody := fun e s =>
  let w := e.vt.sew.bits
  let (x, fl) := scalarElem e.vt.cls w e.xb
  runElementwise e pg {
    base := e.d
    w := w
    names := grpNames e.vt
    cls := e.vt.cls
    reads := fun _ => []
    op := fun _ _ => (some x, 0) } 0 fl s

/-- `vmv xD, vA`: element 0, whatever VL, VSTART and the guard hold (R131). -/
def moveOutBody : VBody := fun e s =>
  let w := e.vt.sew.bits
  match s.vlc.readElem e.a w 0 with
  | .error t => (s.stopAt 0, .fault t)
  | .ok x =>
    let y : Word := if e.vt.cls = .i then BitVec.ofInt 64 (sgn w x) else BitVec.ofNat 64 (fpMask e.vt.cls x)
    ((s.modVlc fun v => v.setX e.d y).clearVstart, .done)

/-- A unary operation (R134). -/
def unBody (op : VUn) (pg : BitVec 2) : VBody := fun e s =>
  let w := e.vt.sew.bits
  runElementwise e pg {
    base := e.d
    w := w
    names := grpNames e.vt
    cls := e.vt.cls
    reads := fun i => [(e.a, w, i)]
    op := fun _ xs => let (r, f) := unElem op e.vt.cls e.frm (xs.getD 0 0); (some r, f) } 0 0 s

/-- Write `xs` to elements 0, 1, … of D, then the tail from their count up; the tag becomes 0 (R135, R145).  Under TP = dead the names that
hold none of `xs` become dead (R120; assumption 87, DESIGN CHOICE). -/
def writeFirst (e : VEntry) (xs : List Nat) (s : State) : State :=
  let w := e.vt.sew.bits
  let v := (xs.zipIdx).foldl (fun v x => v.writeElem e.d w x.2 (fpMask e.vt.cls x.1)) s.vlc
  ({ s with vlc :=
    v.setFile ((v.vf.tail e.vt e.vt.cls e.d (grpNames e.vt) w xs.length).setTag e.d (grpNames e.vt) 0) } : State).clearVstart

/-- The active elements below VL of group A, in positions; `none` where inactive. -/
def activeElems (e : VEntry) (pg : BitVec 2) (v : Vlc) : Nat → Nat → Except Trap (List (Option Nat))
  | 0, _ => .ok []
  | n + 1, i =>
    match (if v.active pg i then (v.readElem e.a e.vt.sew.bits i).map some else .ok none) with
    | .error t => .error t
    | .ok x =>
      match activeElems e pg v n (i + 1) with
      | .error t => .error t
      | .ok xs => .ok (x :: xs)

/-- A reduction (R84, R135). -/
def redBody (op : VRed) (pg : BitVec 2) (k : Bool) : VBody := fun e s =>
  let w := e.vt.sew.bits
  let c := e.vt.cls
  let (x, fl) := scalarOf k c w e.xb
  withTags s (sources e k) <|
    if e.vl = 0 then (s.clearVstart, .done)
    else
      match (if k then .ok x else s.vlc.readElem e.b w 0) with
      | .error t => (s, .fault t)
      | .ok init =>
        match activeElems e pg s.vlc e.vl 0 with
        | .error t => (s, .fault t)
        | .ok xs =>
          let f := redOp op c w e.frm
          match redTree f 13 xs with
          | (none, _) => (writeFirst e [init] s, .done)
          | (some r, f1) =>
            let (y, f2) := f init r
            ((writeFirst e [y] s).modVlc fun v => v.orFlags (fl ||| f1 ||| f2), .done)

/-- The result of one group of `vdot`: the old D32 element, and the pairs of its active members (R136).  A quiet NaN in the old element sets
no flag (assumption 15, DEDUCED). -/
def dotGroup (c : Cls) (w frm old : Nat) (ps : List (Nat × Nat)) : Nat × Fl :=
  if c.isFp then
    let sum := dotSum frm (ps.map fun p => (fpVal c p.1, fpVal c p.2))
    let (r, f) := finish .fp32 frm (addVal frm (fpVal .fp32 old) sum.1)
    (r, f ||| dotFlags sum)
  else
    let sg := c == .i
    accInt sg old ((ps.map fun p => intVal sg w p.1 * intVal sg w p.2).foldl (· + ·) 0)

/-- Pair up reads that came in turns. -/
def pairUp : List Nat → List (Nat × Nat)
  | a :: b :: t => (a, b) :: pairUp t
  | _ => []

/-- Run steps over the groups of `q` elements that start at VSTART or above: VSTART counts elements (R136, R151). -/
def iterateBy (q : Nat) (e : VEntry) (f : Nat → State → State × VEnd) (s : State) : State × VEnd :=
  let g0 := ceilDiv s.vlc.vstart.toNat q
  match iterate f (ceilDiv e.vl q - g0) g0 s with
  | (s, .done) => (s, .done)
  | (s, r) => (s.modVlc fun v => { v with vstart := BitVec.ofNat 13 (v.vstart.toNat * q) }, r)

/-- `vdot` (R136); D, which it reads, is a source of the tag rule (R128; assumption 67, DESIGN CHOICE). -/
def dotBody (pg : BitVec 2) : VBody := fun e s =>
  let w := e.vt.sew.bits
  let c := e.vt.cls
  let q := 32 / w
  withTags s [e.a, e.b, e.d] <|
    thenDone (iterateBy q e (fun g s =>
      let v := s.vlc
      let idx := ((List.range q).map (q * g + ·)).filter fun i => decide (i < e.vl) && v.active pg i
      if idx = [] then
        (if e.vt.mz then { s with vlc := { v with vf := v.vf.setElem e.d 32 g 0 } } else s, .done)
      else
        match readAll v ((e.d, 32, g) :: idx.flatMap fun i => [(e.a, w, i), (e.b, w, i)]) with
        | .error t => (s, .fault t)
        | .ok [] => (s, .done)
        | .ok (d :: xs) =>
          let (r, f) := dotGroup c w e.frm d (pairUp xs)
          ({ s with vlc := (v.writeElem e.d 32 g r).orFlags f }, .done)) s)
    fun s =>
      if e.vl = 0 then s
      else
        let names := if e.vt.tp = .dead then grpNames e.vt else min (grpNames e.vt) (ceilDiv (vlmaxOf e.vt * w) 2048)
        s.modVlc fun v => v.setFile ((v.vf.tail e.vt (wideCls c) e.d names 32 (ceilDiv e.vl q)).setTag e.d (grpNames e.vt) 0)

end Sys2Proof.Machine
end

