-- ==== Sys2Proof/Machine/VecPerm.lean ====
section
/-! DEFINITION. What the permutations, conversions, rotations, predicate instructions and the compress family do at the
head of the queue (spec/05_vector_registers.md R137 to R145). -/

namespace Sys2Proof.Machine

/-! ### Permutations (R137) -/

/-- The forms of R137. -/
inductive PermOp where
  | xchg | slup | sldn | perm
deriving DecidableEq, Repr

/-- Where element `i` of D comes from: not written, zero, or element `j` of A. -/
inductive From where
  | keep | zero | elem (j : Nat)
deriving DecidableEq, Repr

def permFrom (op : PermOp) (x vl vlmax b i : Nat) : From :=
  match op with
  | .xchg => .elem (i ^^^ (x % vlmax))
  | .slup => if i < x then .keep else .elem (i - x)
  | .sldn => if i + x ≥ vl then .zero else .elem (i + x)
  | .perm => if b ≥ vlmax then .zero else .elem b

def permBody (op : PermOp) (pg : BitVec 2) : VBody := fun e s =>
  let w := e.vt.sew.bits
  let byName := op == .perm
  let src (i : Nat) := permFrom op e.xb.toNat e.vl (vlmaxOf e.vt) (if byName then s.vlc.vf.elem e.b w i else 0) i
  withTags s (if byName then [e.a, e.b] else [e.a]) <|
    runElementwise e pg {
      base := e.d
      w := w
      names := grpNames e.vt
      cls := e.vt.cls
      reads := fun i => (if byName then [(e.b, w, i)] else []) ++
        match src i with
        | .elem j => [(e.a, w, j)]
        | _ => []
      op := fun i xs =>
        match src i with
        | .keep => (none, 0)
        | .zero => (some 0, 0)
        | .elem _ => (some (xs.getD (if byName then 1 else 0) 0), 0) } 0 0 s

/-! ### Conversions and rotations (R138 to R141) -/

/-- The class and width of a `vcvt` target. -/
def targetCls : CvtTarget → Cls
  | .fp c _ => c
  | .int un _ _ => if un then .n else .i

def targetBits : CvtTarget → Nat
  | .fp c _ => c.container
  | .int _ ew _ => ew.bits

def targetSat : CvtTarget → Bool
  | .fp _ s => s
  | .int _ _ s => s

/-- The names of a `vcvt` destination: GRP × t / SEW, at least one (R139). -/
def cvtNames (t : Vtype) (tg : CvtTarget) : Nat := max 1 (grpNames t * targetBits tg / t.sew.bits)

/-- Element `i` of a block: its code, or `none` where it takes no part (R85). -/
def blockElem (e : VEntry) (pg : BitVec 2) (v : Vlc) (i : Nat) : Except Trap (Option Nat) :=
  if i < e.vl ∧ v.active pg i then (v.readElem e.a e.vt.sew.bits i).map some else .ok none

def blockElems (e : VEntry) (pg : BitVec 2) (v : Vlc) : Nat → Nat → Except Trap (List (Option Nat))
  | 0, _ => .ok []
  | n + 1, i =>
    match blockElem e pg v i with
    | .error t => .error t
    | .ok x =>
      match blockElems e pg v n (i + 1) with
      | .error t => .error t
      | .ok xs => .ok (x :: xs)

/-- Write the results of a block: elements that took part, and zeros under the zeroing mask policy. -/
def writeBlock (e : VEntry) (base w i0 : Nat) (xs : List (Option Nat)) (rs : List Nat) (v : Vlc) : Vlc :=
  ((xs.zip rs).zipIdx).foldl (fun v x =>
    let i := i0 + x.2
    if x.1.1.isSome then v.writeElem base w i x.1.2
    else if i < e.vl ∧ e.vt.mz then { v with vf := v.vf.setElem base w i 0 } else v) v

/-- A rotation over whole blocks (R139, R141): `tag` names the block size and seed, `out` is the tag D takes. -/
def rotBody (forward : Bool) (t : Cls) (tw names : Nat) (tag out : BitVec 6) (sat : Bool) (pg : BitVec 2) (e : VEntry)
    (s : State) : State × VEnd :=
  let n := tagBlock tag
  let seed := s.gang.ss[tagSeed tag]?.getD 0
  thenDone (iterateBy n e (fun b s =>
    let v := s.vlc
    match blockElems e pg v n (n * b) with
    | .error tr => (s, .fault tr)
    | .ok xs =>
      let (rs, f) := rotateBlock forward e.vt.cls e.vt.sew.bits t (tagLog tag) seed [] sat xs
      let f := if xs.any Option.isSome then f else 0
      ({ s with vlc := (writeBlock e e.d tw (n * b) xs rs v).orFlags f }, .done)) s)
  fun s => if e.vl = 0 then s
    else s.modVlc fun v => v.setFile ((v.vf.tail e.vt t e.d names tw e.vl).setTag e.d names out)

/-- `vcvt` (R139). -/
def cvtBody (pg : BitVec 2) (tg : CvtTarget) : VBody := fun e s =>
  let w := e.vt.sew.bits
  let c := e.vt.cls
  let t := targetCls tg
  let tw := targetBits tg
  let names := cvtNames e.vt tg
  let tag := s.vlc.vf.tagOf e.a
  if tagOn tag then
    if t.isFp ∧ w < tw then rotBody false t tw names tag 0 (targetSat tg) pg e s
    else (s, .fault (trapInfo fcROT_TAG 3))
  else if c.isFp ∧ t.isFp ∧ tw < w ∧ tagOn e.rot then rotBody true t tw names e.rot e.rot (targetSat tg) pg e s
  else
    runElementwise e pg {
      base := e.d
      w := tw
      names := names
      cls := t
      reads := fun i => [(e.a, w, i)]
      op := fun _ xs => let (r, f) := cvtElem c w e.frm tg (xs.getD 0 0); (some r, f) } 0 0 s

/-- `vrot` (R141). -/
def vrotBody (pg : BitVec 2) : VBody := fun e s =>
  let w := e.vt.sew.bits
  let tag := s.vlc.vf.tagOf e.a
  if tagOn tag then rotBody false e.vt.cls w (grpNames e.vt) tag 0 false pg e s
  else if tagOn e.rot then rotBody true e.vt.cls w (grpNames e.vt) e.rot e.rot false pg e s
  else (s, .fault (trapInfo fcROT_TAG 4))

/-- `vbscale` (R140): the exponents of B are those at the start. -/
def bscaleBody (pg : BitVec 2) (k : Bool) : VBody := fun e s =>
  let w := e.vt.sew.bits
  let f0 := s.vlc.vf
  let ex (i : Nat) : Int := if k then sgn 16 e.xb.toNat else sgn 16 (f0.elem e.b w (i / 128))
  withTags s (sources e k) <|
    runElementwise e pg {
      base := e.d
      w := w
      names := grpNames e.vt
      cls := e.vt.cls
      reads := fun i => (e.a, w, i) :: if k then [] else [(e.b, w, i / 128)]
      op := fun i xs => let (r, f) := bscaleElem e.vt.cls e.frm (xs.getD 0 0) (ex i); (some r, f) } 0 0 s

/-- `vid` (R142). -/
def vidBody (pg : BitVec 2) (k : Bool) : VBody := fun e s =>
  let w := e.vt.sew.bits
  runElementwise e pg {
    base := e.d
    w := w
    names := grpNames e.vt
    cls := e.vt.cls
    reads := fun _ => []
    op := fun i _ => (some (((if k then e.xb.toNat else 0) + i) % 2 ^ w), 0) } 0 0 s

/-! ### Predicates (R143, R144) -/

/-- A predicate as a whole; p0 is all ones. -/
def VFile.pred (f : VFile) (n : Nat) : BitVec 4096 := if n = 0 then BitVec.allOnes 4096 else f.p[n]?.getD 0

/-- Write a whole predicate; a write to p0 is discarded. -/
def VFile.setPred (f : VFile) (n : Nat) (b : BitVec 4096) : VFile :=
  if n = 0 then f else { f with p := f.p.setIfInBounds n b, wroteP := f.wroteP ||| BitVec.ofNat 16 (2 ^ n) }

/-- The bits below VL. -/
def lowBits (vl : Nat) : BitVec 4096 := BitVec.ofNat 4096 (2 ^ vl - 1)

/-- Write a predicate result under the guard, the mask policy and the tail policy. -/
def writePred (e : VEntry) (pg : BitVec 2) (r : BitVec 4096) (s : State) : State :=
  if e.vl = 0 then s.clearVstart
  else
    (s.modVlc fun v =>
      let low := lowBits e.vl
      let act := v.vf.pred pg.toNat &&& low
      let kept := v.vf.pred e.d &&& ~~~ act
      let kept := if e.vt.mz then kept &&& ~~~ low else kept
      { v with vf := (v.vf.setPred e.d (kept ||| (r &&& act))).ptail e.vt e.d e.vl }).clearVstart

/-- `pand`, `por`, `pxor` and `pandn` (R143). -/
def predBody (f : BitVec 4096 → BitVec 4096 → BitVec 4096) (pg : BitVec 2) : VBody := fun e s =>
  (writePred e pg (f (s.vlc.vf.pred e.a) (s.vlc.vf.pred e.b)) s, .done)

/-- The active set bits of p[A] below VL, as positions. -/
def predHits (e : VEntry) (pg : BitVec 2) (v : Vlc) : List Nat :=
  let m := v.vf.pred pg.toNat &&& v.vf.pred e.a
  (List.range e.vl).filter m.getLsbD

/-- `psbf` and `psif` (R144). -/
def scanBody (incl : Bool) (pg : BitVec 2) : VBody := fun e s =>
  let f := (predHits e pg s.vlc).headD e.vl
  (writePred e pg (lowBits (if incl then f + 1 else f)) s, .done)

/-- `pcnt` (R144). -/
def pcntBody (pg : BitVec 2) : VBody := fun e s =>
  ((s.modVlc fun v => v.setX e.d (BitVec.ofNat 64 (predHits e pg v).length)).clearVstart, .done)

/-- `pfirst` (R144). -/
def pfirstBody (pg : BitVec 2) : VBody := fun e s =>
  ((s.modVlc fun v => v.setX e.d (match predHits e pg v with
    | [] => BitVec.allOnes 64
    | i :: _ => BitVec.ofNat 64 i)).clearVstart, .done)

/-! ### The compress family (R145) -/

/-- Read elements of A at positions. -/
def readAt (e : VEntry) (v : Vlc) (is : List Nat) : Except Trap (List Nat) :=
  readAll v (is.map fun i => (e.a, e.vt.sew.bits, i))

/-- The positions below VL whose bit of p[B] is set. -/
def picked (e : VEntry) (v : Vlc) : List Nat := (List.range e.vl).filter (v.vf.pred e.b).getLsbD

def compressBody : VBody := fun e s =>
  if e.vl = 0 then (s.clearVstart, .done)
  else
    match readAt e s.vlc (picked e s.vlc) with
    | .error t => (s, .fault t)
    | .ok xs => (writeFirst e xs s, .done)

def cidxBody : VBody := fun e s =>
  if e.vl = 0 then (s.clearVstart, .done)
  else (writeFirst e ((picked e s.vlc).map fun i => (e.xa.toNat + i) % 2 ^ e.vt.sew.bits) s, .done)

/-- Whether a code ranks below another: NaN below every other value, -0 equal to +0 (R145). -/
def ranksBelow (c : Cls) (w a b : Nat) : Bool :=
  if c.isFp then
    let x := fpVal c a
    let y := fpVal c b
    if x.isNan then !y.isNan else if y.isNan then false else cmpVal x y == .lt
  else decide (intVal (c == .i) w a < intVal (c == .i) w b)

/-- Insert into a list from the largest down, after equals. -/
def insertRank (c : Cls) (w : Nat) (x : Nat × Nat) : List (Nat × Nat) → List (Nat × Nat)
  | [] => [x]
  | y :: ys => if ranksBelow c w y.2 x.2 then x :: y :: ys else y :: insertRank c w x ys

/-- Positions with their codes, largest first, equal codes by position. -/
def rankAll (c : Cls) (w : Nat) (xs : List (Nat × Nat)) : List (Nat × Nat) :=
  xs.foldl (fun l x => insertRank c w x l) []

def topBody (pg : BitVec 2) : VBody := fun e s =>
  if e.vl = 0 then (s.clearVstart, .done)
  else
    let c := e.vt.cls
    let w := e.vt.sew.bits
    let act := (List.range e.vl).filter fun i => s.vlc.active pg i
    match readAt e s.vlc act with
    | .error t => (s, .fault t)
    | .ok xs =>
      let fl := flIf (c.isFp && xs.any fun x => (fpVal c x).isSnan) flNV
      let best := (rankAll c w (act.zip xs)).take (min e.xb.toNat act.length)
      ((writeFirst e (best.map Prod.fst) s).modVlc fun v => v.orFlags fl, .done)

/-- `pexp`: the j-th set position takes A[j]. -/
def pexpBody : VBody := fun e s =>
  if e.vl = 0 then (s.clearVstart, .done)
  else
    let w := e.vt.sew.bits
    let ps := picked e s.vlc
    match readAt e s.vlc (List.range ps.length) with
    | .error t => (s, .fault t)
    | .ok xs =>
      let v := s.vlc
      let v := if e.vt.mz then
          ((List.range e.vl).filter fun i => !ps.contains i).foldl
            (fun v i => { v with vf := v.vf.setElem e.d w i 0 }) v
        else v
      let v := (ps.zip xs).foldl (fun v x => v.writeElem e.d w x.1 (fpMask e.vt.cls x.2)) v
      (({ s with vlc :=
        v.setFile ((v.vf.tail e.vt e.vt.cls e.d (grpNames e.vt) w e.vl).setTag e.d (grpNames e.vt) 0) } : State).clearVstart, .done)

end Sys2Proof.Machine
end

