-- ==== Sys2Proof/Machine/Hansom.lean ====
section
/-! DEFINITION. Hansom: gate records, routing scores, capacity reservations and tile tasks (spec/11_queues.md R335 to R340). -/

namespace Sys2Proof.Machine

/-! ### The step block and the layer table (R335, R336) -/

def blkLayer (b : BitVec 512) : Word := BitVec.ofNat 64 (field b.toNat 0 64)
def blkStep (b : BitVec 512) : Nat := field b.toNat 64 16
def blkDies (b : BitVec 512) : Nat := field b.toNat 80 4
def blkTok (b : BitVec 512) : Nat := field b.toNat 128 32
def blkFirst (b : BitVec 512) : Nat := field b.toNat 160 32
def blkRrec (b : BitVec 512) : Word := BitVec.ofNat 64 (field b.toNat 192 64)
def blkRows (b : BitVec 512) : Word := BitVec.ofNat 64 (field b.toNat 256 64)
def blkTags (b : BitVec 512) : Word := BitVec.ofNat 64 (field b.toNat 320 64)
def blkTmpl (b : BitVec 512) : Word := BitVec.ofNat 64 (field b.toNat 384 64)
def blkXbuf (b : BitVec 512) : Word := BitVec.ofNat 64 (field b.toNat 448 64)

def layExperts (h : BitVec 512) : Nat := field h.toNat 0 9
def layTop (h : BitVec 512) : Nat := field h.toNat 9 3 + 1
def layPolicy (h : BitVec 512) : Nat := field h.toNat 12 2
def layRenorm (h : BitVec 512) : Bool := bitOf h.toNat 14
def layRetry (h : BitVec 512) : Bool := bitOf h.toNat 15
def layGroups (h : BitVec 512) : Nat := field h.toNat 16 8
def layPicked (h : BitVec 512) : Nat := field h.toNat 24 8
def layBias (h : BitVec 512) : Word := BitVec.ofNat 64 (field h.toNat 64 56)

/-- The header breaks a rule of R336. -/
def layerBad (h : BitVec 512) : Bool :=
  let e := layExperts h
  e == 0 || decide (e > 256) || decide (layTop h > e) || layPolicy h == 3 || field h.toNat 32 32 != 0 || field h.toNat 120 392 != 0
  || (layPolicy h == 2 && (layGroups h == 0 || e % layGroups h != 0 || layPicked h == 0 || decide (layPicked h > layGroups h)))

def entHome (w : Word) : Nat := field w.toNat 0 2
def entCap (w : Word) : Nat := field w.toNat 16 16

/-- A reserved bit of a layer entry is set. -/
def entryBad (w : Word) : Bool := field w.toNat 2 14 != 0 || field w.toNat 39 25 != 0

/-- Rounds of requests of a step. -/
def rounds (st : HStep) : Nat := if layRetry st.layer then 2 else 1

/-- The dies of a step. -/
def stepDies (st : HStep) : List Nat := (List.range 4).filter fun d => bitOf (blkDies st.block) d

/-! ### Scores (R338) -/

/-- FP32 operations with one rounding by RNE each. -/
def fAdd (a b : Nat) : Nat := (alu .add .fp32 32 0 a b 0).1
def fSub (a b : Nat) : Nat := (alu .sub .fp32 32 0 a b 0).1
def fMul (a b : Nat) : Nat := (alu .mul .fp32 32 0 a b 0).1
def fRece (a : Nat) : Nat := (unElem .rece .fp32 0 a).1
def fExp2 (a : Nat) : Nat := (unElem .exp2e .fp32 0 a).1
def fNeg (a : Nat) : Nat := a ^^^ 2 ^ 31

/-- λ. -/
def routeScale : Nat := 0x3FB8AA3B

/-- p_e of policies 0 and 2. -/
def softmaxScores (ls : List Nat) : List Nat :=
  let m := ls.foldl (fun m l => (minMaxFp .fp32 true m l).1) (ls.headD 0)
  let us := ls.map fun l => fExp2 (fMul (fSub l m) routeScale)
  let sum := (redTree (redOp .sum .fp32 32 0) us.length (us.map some)).1.getD 0
  us.map fun u => fMul u (fRece sum)

/-- σ_e of policy 1. -/
def sigmoidScores (ls : List Nat) : List Nat := ls.map fun l => fRece (fAdd 0x3F800000 (fExp2 (fMul (fNeg l) routeScale)))

/-- The experts of the groups that take part under policy 2. -/
def groupExperts (h : BitVec 512) (ps : List Nat) : List Nat :=
  let n := layExperts h / layGroups h
  let best (g : Nat) : Nat :=
    let xs := (ps.drop (g * n)).take n
    xs.foldl (fun m x => (minMaxFp .fp32 true m x).1) (xs.headD 0)
  let gs := ((rankAll .fp32 32 ((List.range (layGroups h)).map fun g => (g, best g))).take (layPicked h)).map (·.1)
  (List.range ps.length).filter fun e => gs.contains (e / n)

/-- Scores for selection, weights, and the experts that take part. -/
def routeScores (st : HStep) (ls : List Nat) : List Nat × List Nat × List Nat :=
  let all := List.range ls.length
  match layPolicy st.layer with
  | 1 =>
    let ws := sigmoidScores ls
    ((ws.zip (st.bias.map (·.toNat))).map fun x => fAdd x.1 x.2, ws, all)
  | 2 => let ps := softmaxScores ls; (ps, ps, groupExperts st.layer ps)
  | _ => let ps := softmaxScores ls; (ps, ps, all)

/-- Route a token: its picks in selection order, and its experts in rank order. -/
def routeToken (st : HStep) (token : Nat) (ls : List Nat) : Routed :=
  let (scores, ws, part) := routeScores st ls
  let rank := (rankAll .fp32 32 (part.map fun e => (e, scores[e]?.getD 0))).map (·.1)
  let ws := ws.map (BitVec.ofNat 32)
  ⟨token, (rank.take (layTop st.layer)).map fun e => (e, ws[e]?.getD 0), rank, ws, []⟩

/-! ### Requests and closing counts (R339) -/

/-- The key of what home Hansom `home` keeps for die `src`. -/
def cellKey (home src : Nat) : Nat := home * 4 + src

def State.closeCell (s : State) (home src : Nat) : CloseCell := Tab.get CloseCell.reset s.closing (cellKey home src)

def State.modCell (s : State) (home src : Nat) (f : CloseCell → CloseCell) : State :=
  { s with closing := Tab.mod CloseCell.reset s.closing (cellKey home src) f }

/-- The home die of an expert of a step. -/
def expertHome (st : HStep) (e : Nat) : Nat := entHome (st.entries[e]?.getD 0)

def expertCap (st : HStep) (e : Nat) : Nat := entCap (st.entries[e]?.getD 0)

/-- Send one request of a step. -/
def sendReserve (s : State) (st : HStep) (token e round : Nat) : State :=
  let home := expertHome st e
  ({ s with reqTransit := s.reqTransit ++ [⟨home, st.die, st.stepNo, token, e, round, none, false⟩] } : State).modCell
    home st.die fun c => { c with sent := c.sent + 1 }

/-- A closing count enters a queue, where it meets an older one to the same cell as R263 gives: the kept one keeps its place. -/
def closeEnter (s : State) (x : CloseMsg) : State :=
  match s.closeTransit.find? fun y => y.src == x.src && y.home == x.home && y.place == x.place with
  | none => { s with closeTransit := s.closeTransit ++ [x] }
  | some y =>
    let newer := decide (y.tag ≤ x.tag)
    let sum := x.cover + y.cover
    let s := s.modPerf (placeDie (x.home * 65536) x.place) (if newer then y else x).queue (countDrop x.place)
    if newer then { s with closeTransit := s.closeTransit.erase y ++ [{ x with cover := sum }] }
    else { s with closeTransit := s.closeTransit.map fun z => if z = y then { y with cover := sum } else z }

/-- The crossbar queue of a die's Hansom. -/
def hansomQueue : Nat := 18

/-- Send the closing count of a round to a home: by the crossbar queue to the seam port, the seam queue and the home's inbound queue, or
by the last alone on the own die (R339). -/
def sendClose (s : State) (st : HStep) (rnd home : Nat) : State :=
  closeEnter s ⟨st.die, home, st.stepNo, rnd, (s.closeCell home st.die).sent, 1, st.queue,
    if home = st.die then .home else .xbar st.die hansomQueue⟩

/-! ### Failing and ending (R340) -/

def State.modStep (s : State) (die lane : Nat) (f : HStep → HStep) : State :=
  { s with steps := s.steps.map fun x => if x.die = die ∧ x.lane = lane then f x else x }

/-- A step leaves its lane.  A decided request is forgotten when neither the step that sent it nor the step at its home runs any more. -/
def State.dropStep (s : State) (st : HStep) : State :=
  let steps := s.steps.filter fun x => !(x.die == st.die && x.lane == st.lane)
  let runs (d : Nat) : Bool := steps.any fun x => x.die == d && x.stepNo == st.stepNo
  { s with
    steps := steps
    reserves := s.reserves.filter fun (r : Reserve) => r.step != st.stepNo || !r.decided || runs r.src || runs r.home }

def State.findStep (s : State) (die lane : Nat) : Option HStep := s.steps.find? fun x => x.die == die && x.lane == lane

/-- The record of a step. -/
def postStep (s : State) (st : HStep) (t : Trap) : State :=
  postRecord (countPoisonFault s t.code st.die) st.queue 3 (hansomProducer st.die)
    (((s.findNode st.node).map (·.idx)).getD 0xFFFF) t.code t.info.toNat t.va

/-- A step that ends after closing drops the records of its STEP that have arrived since, and posts the first of them (R338). -/
def dropLate (s : State) (st : HStep) : State :=
  let late (r : GateRec) : Bool := r.step.toNat == st.stepNo && r.hold.isNone
  let q := s.gateQ[st.die]?.getD []
  if st.closed = 0 ∨ !q.any late then s
  else
    let s := { s with gateQ := s.gateQ.setIfInBounds st.die (q.filter fun r => !late r) }
    if st.latePosted then s else postStep s st (trapInfo fcQUEUE 9)

/-- A step whose block was not read fails: it has no STEP and no DIES (R340). -/
def failUnread (s : State) (st : HStep) (t : Trap) : State := markDone (postStep s st t) st.node true

/-- A step fails: its record, its closing counts, the refusal of the requests at its experts, and its node. -/
def failStep (s : State) (st : HStep) (t : Trap) : State :=
  let s := dropLate (postStep s st t) st
  let s := ((stepDies st).filter (· != st.die)).foldl (fun s d => sendClose s st 2 d) s
  let s := { s with
    reserves := s.reserves.map fun (r : Reserve) =>
      if r.home = st.die ∧ r.step = st.stepNo ∧ !r.decided then { r with decided := true } else r
    hansomFailed := (st.die, st.stepNo) :: s.hansomFailed }
  markDone (s.dropStep st) st.node true

/-- A step completes. -/
def completeStep (s : State) (st : HStep) : State := markDone ((dropLate s st).dropStep st) st.node false

/-! ### A step's own accesses -/

/-- A write of a device party at the homes. -/
def writeHome (s : State) (p : Party) (producer : BitVec 12) (va : Word) (n v : Nat) : State × Except Trap Unit :=
  match access s p .store va n .write with
  | (s, .error t) => (s, .error t)
  | (s, .ok d) =>
    match d with
    | .ls _ _ => (s, .error (trapAt fcPROT va (xlateInfo .write 0 0 2)))
    | .phys pa kind =>
      if kind = 3 then
        (loEnter s ⟨pa, BitVec.ofNat 64 v, 0, producer, 1, false, p.queue, unitPlace p.die pa⟩, .ok ())
      else if placeOf pa = .host then ({ s with mem := memWrite s.mem pa n v }, .ok ())
      else (homeStore s p.die p.queue pa n v kind, .ok ())

/-- Write a list of values at addresses in order. -/
def writeList (p : Party) (producer : BitVec 12) : List (Word × Nat × Nat) → State → State × Option Trap
  | [], s => (s, none)
  | (va, n, v) :: t, s =>
    match writeHome s p producer va n v with
    | (s, .error e) => (s, some e)
    | (s, .ok ()) => writeList p producer t s

/-- Spawn the tiles from `t` on, `n` of them (R332, R340). -/
def spawnTiles (st : HStep) : Nat → Nat → State → State × Option Trap
  | 0, _, s => (s, none)
  | n + 1, t, s =>
    match (if (blkTmpl st.block).toNat % 64 ≠ 0 then (s, .error (trapAt fcALIGN (blkTmpl st.block) 0))
      else readHomeDwords s (queueParty st.die st.queue) (blkTmpl st.block) 8) with
    | (s, .error e) => (s, some e)
    | (s, .ok ws) =>
      let img := recWithArg (record512 ws) (blkRows st.block + BitVec.ofNat 64 (256 * t))
      let graph := ((s.findNode st.node).map (·.graph)).getD s.fresh
      if s.isFenced st.die 7 0 then (s, some (trapInfo fcQUEUE 7))
      else
        match spawnTrap s graph img with
        | some e => (s, some e)
        | none =>
          match spawnNode s graph st.queue st.die img none none with
          | (s, .full) => (s, some (trapInfo fcSPAWN_OVF 0))
          | (s, _) => spawnTiles st n (t + 1) s

/-! ### Starting a step (R335, R336) -/

/-- Read 32-bit words of a device party. -/
def readHomeWords (s : State) (p : Party) (va : Word) : Nat → State × Except Trap (List (BitVec 32))
  | 0 => (s, .ok [])
  | k + 1 =>
    match readHome s p va 4 with
    | (s, .error t) => (s, .error t)
    | (s, .ok v) =>
      match readHomeWords s p (va + 4) k with
      | (s, .error t) => (s, .error t)
      | (s, .ok vs) => (s, .ok (BitVec.ofNat 32 v :: vs))

/-- Read the layer table into a step, and check it. -/
def loadLayer (s : State) (st : HStep) : State × Except Trap HStep :=
  let p := queueParty st.die st.queue
  let bad : Trap := trapInfo fcQUEUE 10
  match readHomeDwords s p (blkLayer st.block) 8 with
  | (s, .error t) => (s, .error t)
  | (s, .ok hs) =>
    let st := { st with layer := record512 hs }
    if layerBad st.layer then (s, .error bad)
    else
      match readHomeDwords s p (blkLayer st.block + 64) (layExperts st.layer) with
      | (s, .error t) => (s, .error t)
      | (s, .ok es) =>
        let st := { st with entries := es }
        if es.any entryBad || !bitOf (blkDies st.block) st.die || es.any fun e => !bitOf (blkDies st.block) (entHome e) then
          (s, .error bad)
        else if layPolicy st.layer = 1 then
          match readHomeWords s p (layBias st.layer) (layExperts st.layer) with
          | (s, .error t) => (s, .error t)
          | (s, .ok bs) => (s, .ok { st with bias := bs })
        else (s, .ok st)

/-- The address and bytes of the gate records of a step in host-assisted routing. -/
def xbufWrites (va : Word) : List GateRec → List (Word × Nat × Nat)
  | [] => []
  | r :: t =>
    let n := ceilDiv (8 + 4 * r.logits.length) 8
    let v := r.token.toNat + r.step.toNat * 2 ^ 32 + r.logits.length * 2 ^ 48
      + packElems 32 (r.logits.map (·.toNat)) * 2 ^ 64
    ((List.range n).map fun k => (va + BitVec.ofNat 64 (8 * k), 8, field v (64 * k) 64))
      ++ xbufWrites (va + BitVec.ofNat 64 (8 * n)) t

/-- A step that has taken its records closes: closing counts, or the copy of its records for the host. -/
def closeTaking (s : State) (st : HStep) : State :=
  if st.route then
    match writeList (queueParty st.die st.queue) (hansomProducer st.die) (xbufWrites (blkXbuf st.block) st.records) s with
    | (s, some t) => failStep s st t
    | (s, none) => (s.modStep st.die st.lane fun x => { x with waitsHost := true, closed := 1 }).sendMsix
        (s.queue st.queue).origin st.queue
  else (stepDies st).foldl (fun s d => sendClose s st 1 d) (s.modStep st.die st.lane fun x => { x with closed := 1 })

/-- A seam between two dies of a step is fenced (R375). -/
def stepSeamFenced (s : State) (st : HStep) : Bool := (stepDies st).any fun a => (stepDies st).any (seamFenced s a)

/-- The lowest lane of a die that runs no step (R323; assumption 80, DESIGN CHOICE). -/
def freeLane (s : State) (d : Nat) : Option Nat := (List.range 4).find? fun l => (s.findStep d l).isNone

/-- A Hansom node starts its step (R335, R336). -/
def startHansom (s : State) (n : Node) (lane : Nat) : State :=
  let s := s.modNode n.id fun x => { x with st := .running }
  let st : HStep := ⟨n.die, lane, n.id, n.queue, 0, 0, 0, [], [], s.funcmode.getLsbD 0, 0, [], [], false, false, 0, 0, false,
    false, false⟩
  if s.isFenced n.die 6 0 then failUnread s st (trapInfo fcQUEUE 10)
  else
    match readHomeDwords s (queueParty n.die n.queue) (BitVec.ofNat 64 (recArg n.image)) 8 with
    | (s, .error t) => failUnread s st t
    | (s, .ok ws) =>
      let st := { st with block := record512 ws }
      let st := { st with stepNo := blkStep st.block }
      match loadLayer s st with
      | (s, .error t) => failStep s st t
      | (s, .ok st) =>
        if stepSeamFenced s st then failStep s st (trapInfo fcQUEUE 10)
        else
        let s := { s with
          hansomFailed := s.hansomFailed.filter fun x => !(x.1 == st.die && x.2 == st.stepNo)
          steps := s.steps ++ [st] }
        if blkTok st.block = 0 then closeTaking s st else s

/-! ### Taking gate records (R338) -/

/-- The first record of a step in a gate queue, and the rest: none while the release of its `gate` is still to come (R259). -/
def takeFirst (stepNo : Nat) : List GateRec → Option (GateRec × List GateRec)
  | [] => none
  | r :: t => if r.step.toNat = stepNo then (if r.hold.isSome then none else some (r, t)) else (takeFirst stepNo t).map fun x => (x.1, r :: x.2)

/-- A record that routes no token. -/
def malformed (st : HStep) (r : GateRec) : Bool :=
  let t := r.token.toNat
  let f := blkFirst st.block
  r.logits.length != layExperts st.layer || decide (t < f) || decide (t ≥ f + blkTok st.block) || st.routed.any (·.token == t)

/-- Take one record: route its token and send its requests, or note it as malformed. -/
def takeRecord (s : State) (st : HStep) (r : GateRec) : State :=
  let bad := malformed st r
  let s := if bad && !st.badPosted then postStep s st (trapInfo fcQUEUE 11) else s
  let st := { st with
    taken := st.taken + 1
    badPosted := st.badPosted || bad
    records := if st.route then st.records ++ [r] else st.records
    routed := if bad then st.routed else st.routed ++ [routeToken st r.token.toNat (r.logits.map (·.toNat))] }
  let s := s.modStep st.die st.lane fun _ => st
  let s := if bad || st.route then s
    else match st.routed.getLast? with
      | some t => t.picks.foldl (fun s p => sendReserve s st t.token p.1 1) s
      | none => s
  if st.taken = blkTok st.block then closeTaking s st else s

def execGateRecordTake (die step : Nat) (s : State) : Out :=
  if die ≥ 4 ∨ step ≥ 4 then .fault .noSuchUnit
  else
    match s.findStep die step with
    | none => .next s
    | some st =>
      match takeFirst st.stepNo (s.gateQ[die]?.getD []) with
      | none => .next s
      | some (r, rest) =>
        let s := { s with gateQ := s.gateQ.setIfInBounds die rest }
        if st.taken < blkTok st.block then .next (takeRecord s st r)
        else if st.latePosted then .next s
        else .next ((postStep s st (trapInfo fcQUEUE 9)).modStep die step fun x => { x with latePosted := true })

/-! ### Requests and counts arrive (R339) -/

/-- The first request on its way to a home Hansom arrives there. -/
def execReservationRequest (die : Nat) (s : State) : Out :=
  if die ≥ 4 then .fault .noSuchUnit
  else
    match s.reqTransit.find? fun r => r.home == die with
    | none => .next s
    | some r =>
      let refused := s.hansomFailed.contains (die, r.step)
      .next (({ s with
        reqTransit := s.reqTransit.erase r
        reserves := s.reserves ++ [{ r with decided := refused }] } : State).modCell die r.src fun c =>
          { c with received := c.received + 1 })

/-- The next queue of a closing count, or its arrival at the home's cell. -/
def closeNext (x : CloseMsg) : Option LoPlace :=
  match x.place with
  | .xbar d _ => some (.seam d x.home)
  | .seam _ _ => some .home
  | _ => none

/-- A closing count of a die moves on towards a home Hansom: to its next queue, or to the cell (R263, R339). -/
def execClosingCount (die src : Nat) (s : State) : Out :=
  if die ≥ 4 ∨ src ≥ 4 then .fault .noSuchUnit
  else
    match s.closeTransit.find? fun x => x.home == die && x.src == src with
    | none => .next s
    | some x =>
      let s := { s with closeTransit := s.closeTransit.erase x }
      match closeNext x with
      | some place => .next (closeEnter s { x with place := place })
      | none =>
        let s := s.modPerf die x.queue fun p => { p with loarr := p.loarr + x.cover }
        .next (s.modCell die src fun c =>
          if x.tag < c.tag then c else { c with count := x.count, tag := x.tag, rnd := x.rnd })

/-! ### Grants (R339, R340) -/

/-- A home has closed a round of a step for a die. -/
def closedFor (s : State) (home src stepNo rnd : Nat) : Bool :=
  let c := s.closeCell home src
  (decide (c.tag > stepNo) || c.tag == stepNo && decide (c.rnd ≥ rnd)) && decide (c.received ≥ c.count)

/-- Requests in ascending token index. -/
def insertToken (r : Reserve) : List Reserve → List Reserve
  | [] => [r]
  | x :: t => if r.token < x.token then r :: x :: t else x :: insertToken r t

def byToken (rs : List Reserve) : List Reserve := rs.foldl (fun acc r => insertToken r acc) []

/-- Requests granted so far at an expert. -/
def grantedCount (rs : List Reserve) (home stepNo e : Nat) : Nat :=
  (rs.filter fun r => r.home == home && r.step == stepNo && r.expert == e && r.slot.isSome).length

/-- Decide one request. -/
def grantOne (st : HStep) (rs : List Reserve) (r : Reserve) : List Reserve :=
  let n := grantedCount rs st.die st.stepNo r.expert
  let slot := if n < expertCap st r.expert then some n else none
  rs.map fun x => if x = r then { x with decided := true, slot := slot } else x

/-- Grant a round at a home: ascending token index. -/
def grantRound (s : State) (st : HStep) (rnd : Nat) : State :=
  let asked := s.reserves.filter fun r => r.home == st.die && r.step == st.stepNo && r.round == rnd && !r.decided
  ({ s with reserves := (byToken asked).foldl (grantOne st) s.reserves } : State).modStep st.die st.lane fun x =>
    { x with granted := rnd }

/-- The requests of a step, in transit or at their homes. -/
def requestsOf (s : State) (st : HStep) (rnd : Nat) : List Reserve :=
  (s.reqTransit ++ s.reserves).filter fun r => r.src == st.die && r.step == st.stepNo && r.round == rnd

def decidedAll (s : State) (st : HStep) (rnd : Nat) : Bool := (requestsOf s st rnd).all (·.decided)

/-- The slot granted to a token at an expert in a round. -/
def slotOf (s : State) (st : HStep) (token e rnd : Nat) : Option Nat :=
  ((requestsOf s st rnd).find? fun r => r.token == token && r.expert == e).bind (·.slot)

/-- The second-round requests of a token: each refused pick, in selection order, asks the next expert in rank order. -/
def retriesOf (s : State) (st : HStep) (t : Routed) : List (Nat × Nat) :=
  let refused := (List.range t.picks.length).filter fun j => (slotOf s st t.token ((t.picks[j]?.getD (0, 0)).1) 1).isNone
  refused.zip (t.rank.drop t.picks.length)

/-- Start the second round of a step. -/
def startRetry (s : State) (st : HStep) : State :=
  let st := { st with routed := st.routed.map fun t => { t with retry := retriesOf s st t }, closed := 2 }
  let s := s.modStep st.die st.lane fun _ => st
  let s := st.routed.foldl (fun s t => t.retry.foldl (fun s r => sendReserve s st t.token r.2 2) s) s
  (stepDies st).foldl (fun s d => sendClose s st 2 d) s

/-- A pick after the rounds: expert, weight and slot. -/
def finalPick (s : State) (st : HStep) (t : Routed) (j : Nat) : Nat × Nat × Option Nat :=
  let (e, w) := t.picks[j]?.getD (0, 0)
  match slotOf s st t.token e 1 with
  | some k => (e, w.toNat, some k)
  | none =>
    match t.retry.find? fun r => r.1 == j with
    | some (_, e2) =>
      match slotOf s st t.token e2 2 with
      | some k => (e2, (t.weights[e2]?.getD 0).toNat, some k)
      | none => (e, w.toNat, none)
    | none => (e, w.toNat, none)

/-- The picks of a token with renormalised weights (R338). -/
def finalPicks (s : State) (st : HStep) (t : Routed) : List (Nat × Nat × Option Nat) :=
  let ps := (List.range t.picks.length).map (finalPick s st t)
  if !layRenorm st.layer then ps
  else
    let kept := (List.range (layExperts st.layer)).filterMap fun e =>
      (ps.find? fun p => p.1 == e && p.2.2.isSome).map (·.2.1)
    let sum := match kept with
      | [] => 0
      | w :: ws => ws.foldl fAdd w
    ps.map fun p => if p.2.2.isSome then (p.1, fMul p.2.1 (fRece sum), p.2.2) else p

/-- One entry of a routing record. -/
def recordEntry (p : Nat × Nat × Option Nat) : Nat := p.2.1 + (p.2.2.getD 0xFFFF) % 65536 * 2 ^ 32 + p.1 % 256 * 2 ^ 48

/-- The writes of the routing record of a token (R340). -/
def routingWrites (s : State) (st : HStep) (i : Nat) : List (Word × Nat × Nat) :=
  let k := layTop st.layer
  let token := blkFirst st.block + i
  let va := blkRrec st.block + BitVec.ofNat 64 ((8 + 8 * k) * i)
  let entries := match st.routed.find? (·.token == token) with
    | some t => (finalPicks s st t).map recordEntry
    | none => List.replicate k (recordEntry (0xFF, 0, none))
  (va, 8, token % 2 ^ 32 + k * 2 ^ 32) ::
    (entries.zip (List.range k)).map fun x => (va + BitVec.ofNat 64 (8 + 8 * x.2), 8, x.1)

/-- The granted rows of a home in ascending expert, then ascending slot. -/
def grantedRows (s : State) (st : HStep) : List (Nat × Nat) :=
  (List.range (layExperts st.layer)).flatMap fun e =>
    (List.range (expertCap st e)).filterMap fun k =>
      (s.reserves.find? fun r => r.home == st.die && r.step == st.stepNo && r.expert == e && r.slot == some k).map fun r =>
        (r.token, e)

/-- The writes of the rows and tags, the last tile padded to 64 rows. -/
def rowWrites (st : HStep) (rows : List (Nat × Nat)) : List (Word × Nat × Nat) :=
  let n := ceilDiv rows.length 64 * 64
  (List.range n).flatMap fun r =>
    let x := rows[r]?.getD (0xFFFFFFFF, 0xFF)
    [(blkRows st.block + BitVec.ofNat 64 (4 * r), 4, x.1), (blkTags st.block + BitVec.ofNat 64 r, 1, x.2)]

/-- The home writes its rows and spawns its tiles. -/
def writeRows (s : State) (st : HStep) : State :=
  let rows := grantedRows s st
  match writeList (queueParty st.die st.queue) (hansomProducer st.die) (rowWrites st rows) s with
  | (s, some t) => failStep s st t
  | (s, none) =>
    match spawnTiles st (ceilDiv rows.length 64) 0 s with
    | (s, some t) => failStep s st t
    | (s, none) => s.modStep st.die st.lane fun x => { x with rowsDone := true }

/-- The gating die writes its routing records. -/
def writeRouting (s : State) (st : HStep) : State :=
  let ws := (List.range (blkTok st.block)).flatMap (routingWrites s st)
  match writeList (queueParty st.die st.queue) (hansomProducer st.die) ws s with
  | (s, some t) => failStep s st t
  | (s, none) => s.modStep st.die st.lane fun x => { x with recordsDone := true }

/-- What a step can do next, if anything (R339, R340). -/
def advanceStep (s : State) (st : HStep) : Option State :=
  let n := rounds st
  let next := st.granted + 1
  if st.waitsHost || st.closed == 0 then none
  else if st.granted < n ∧ (stepDies st).all fun d => closedFor s st.die d st.stepNo next then some (grantRound s st next)
  else if st.closed < n ∧ decidedAll s st 1 then some (startRetry s st)
  else if st.granted = n ∧ !st.rowsDone then some (writeRows s st)
  else if st.closed = n ∧ !st.recordsDone ∧ (decidedAll s st 1 && decidedAll s st 2) then some (writeRouting s st)
  else if st.rowsDone ∧ st.recordsDone then some (completeStep s st)
  else none

/-- CAPACITY_GRANT: a step whose dies are closed grants, writes its rows and records, spawns its tiles, and completes. -/
def execCapacityGrant (die step : Nat) (s : State) : Out :=
  if die ≥ 4 ∨ step ≥ 4 then .fault .noSuchUnit
  else
    match s.findStep die step with
    | none => .next s
    | some st => .next ((advanceStep s st).getD s)

/-- HDONE: the host ends the wait of a step, which then spawns its tiles (R340, R384). -/
def execHdone (die step stepNo tiles : Nat) (s : State) : Out :=
  if die ≥ 4 ∨ step ≥ 4 then .fault .noSuchUnit
  else
    match s.findStep die step with
    | none => .next s
    | some st =>
      if !st.waitsHost || st.stepNo != stepNo % 65536 then .next s
      else
        match spawnTiles st (tiles % 65536) 0 s with
        | (s, some t) => .next (failStep s st t)
        | (s, none) => .next (completeStep s st)

/-! ### `gate` (R337) -/

/-- Read one gate record at an address, and the bytes it takes. -/
def readGate (s : State) (va : Word) : State × Except Trap (GateRec × Nat) :=
  match readMem s s.me .load va 8 .plain with
  | (s, .error t) => (s, .error t)
  | (s, .ok h) =>
    let e := field h 48 16
    let n := ceilDiv (8 + 4 * e) 8
    match readDwords s s.me .load (va + 8) (n - 1) with
    | (s, .error t) => (s, .error t)
    | (s, .ok ws) =>
      let x := dwordsNat ws
      (s, .ok (⟨BitVec.ofNat 32 h, BitVec.ofNat 16 (field h 32 16),
        (List.range e).map fun k => BitVec.ofNat 32 (field x (32 * k) 32), s.gang.queue, none⟩, 8 * n))

/-- Read `n` records in order. -/
def readGates : Nat → Word → State → State × Except Trap (List GateRec)
  | 0, _, s => (s, .ok [])
  | n + 1, va, s =>
    match readGate s va with
    | (s, .error t) => (s, .error t)
    | (s, .ok (r, k)) =>
      match readGates n (va + BitVec.ofNat 64 k) s with
      | (s, .error t) => (s, .error t)
      | (s, .ok rs) => (s, .ok (r :: rs))

/-- `gate`: the longest prefix that fits enters the gate queue of the die's Hansom; x[D] takes its number.  It never waits: the records
are held until the release of both streams has been made (R259, R337; assumption 19, DEDUCED). -/
def execGate (d a b : Fld) (s : State) : Out :=
  let va := s.vlc.rx a
  let n := (s.vlc.rx b).toNat
  let die := coreDie s.vlc.core
  if va.toNat % 8 ≠ 0 then scalarStop s (trapAt fcALIGN va 0)
  else if n = 0 ∨ n > 64 then scalarStop s (trapInfo fcQUEUE 6)
  else if s.isFenced die 6 0 then scalarStop s (trapInfo fcBUS 4)
  else
    let held := s.gateQ[die]?.getD []
    let k := min n (2048 - held.length)
    match readGates k va s with
    | (t, .error e) => scalarStop t e
    | (t, .ok rs) =>
      let (t, hold) := releaseBoth t (.gate d a b) .dev
      let rs := rs.map fun r => { r with hold := hold }
      .next (({ t with gateQ := t.gateQ.setIfInBounds die (held ++ rs) } : State).retire d (BitVec.ofNat 64 k))

end Sys2Proof.Machine
end

