-- ==== Sys2Proof/Machine/VecMem.lean ====
section
/-! DEFINITION. What the vector loads and stores do at the head of the queue (spec/08_memory_access.md R226 to R240;
spec/07_memories.md R191, R192; spec/12_counters.md R349). -/

namespace Sys2Proof.Machine

/-- Where element `i`, field `f` lies (R227). -/
inductive VAddr where
  | unit | strided | seg (nf : Nat)
deriving DecidableEq, Repr

def VAddr.fields : VAddr → Nat
  | .seg nf => nf
  | _ => 1

def elemVa (m : VAddr) (e : VEntry) (i f : Nat) : Word :=
  match m with
  | .unit => e.xa + BitVec.ofNat 64 (i * e.vt.mew.bits / 8)
  | .strided => e.xa + BitVec.ofNat 64 i * e.xb
  | .seg nf => e.xa + BitVec.ofNat 64 ((i * nf + f) * e.vt.mew.bits / 8)

/-- Bytes that an element's access takes, and its first bit in them. -/
def elemBytes (e : VEntry) : Nat := max 1 (e.vt.mew.bits / 8)

def elemBit (e : VEntry) (i : Nat) : Nat := i * e.vt.mew.bits % 8

/-- A memory element as a register element (R228); bits [7:6] of an E3M2 or E2M3 element are written as zero (R70; assumption 70,
DEDUCED). -/
def memToReg (e : VEntry) (x : Nat) : Nat :=
  if e.vt.cls = .i then wrapI e.vt.sew.bits (sgn e.vt.mew.bits x) 
  else fpMask e.vt.cls (x % 2 ^ e.vt.mew.bits % 2 ^ e.vt.sew.bits)

/-- A register element as a memory element (R70, R228). -/
def regToMem (e : VEntry) (x : Nat) : Nat :=
  if e.vt.cls = .i then wrapI e.vt.mew.bits (sgn e.vt.sew.bits x) 
  else fpMask e.vt.cls (x % 2 ^ e.vt.sew.bits % 2 ^ e.vt.mew.bits)

/-- Check the fields of an element in order, before any is accessed (R229, R231). -/
def checkFields (h : Mode) (p : Party) (rule : AccRule) (acc : Acc) (m : VAddr) (e : VEntry) (i : Nat) :
    Nat → Nat → State → State × Except Trap (List (Word × Dest))
  | 0, _, s => (s, .ok [])
  | n + 1, f, s =>
    let va := elemVa m e i f
    match accessIn h s p rule va (elemBytes e) acc with
    | (s, .error t) => (s, .error t)
    | (s, .ok d) =>
      match checkFields h p rule acc m e i n (f + 1) s with
      | (s, .error t) => (s, .error t)
      | (s, .ok ds) => (s, .ok ((va, d) :: ds))

/-- The BUS of `sc` elements while the ordering unit of CD0 is fenced (R352). -/
def ticketBus (s : State) (va : Word) : Option Trap := if s.isFenced 0 8 0 then some (trapAt fcBUS va 3) else none

/-- Draw a ticket (R268, R352). -/
def drawTicket (s : State) : State := { s with seqCounter := s.seqCounter + 1 }

/-! ### Loads -/

inductive LdKind where
  | plain | nc | acq | sc
  | fe (consume : Bool)
deriving DecidableEq, Repr

/-- A full-empty read is served when its granule is full and no earlier read waits on it (R192). -/
def feServed (s : State) (c slot g : Nat) : Bool :=
  feFull s c g &&
    match (s.core c).feq.find? fun x => x.1 == g with
    | none => true
    | some x => x.2 == slot

/-- Read one element at its place. -/
def loadOne (kind : LdKind) (p : Party) (e : VEntry) (i : Nat) (va : Word) (d : Dest) (s : State) :
    State × Except VEnd Nat :=
  let n := elemBytes e
  let sc := scopeOfCode e.vscope
  let cut (x : Nat) : Nat := field x (elemBit e i) e.vt.mew.bits
  match kind with
  | .plain => let (s, x) := loadAt s p d n .plain; (s, .ok (cut x))
  | .nc => let (s, x) := loadAt s p d n .bypass; (s, .ok (cut x))
  | .acq => let (s, x) := loadAt s p d n (homeMode sc); (acquireAt s p.core sc, .ok (cut x))
  | .sc =>
    match ticketBus s va with
    | some t => (s, .error (.fault t))
    | none => let (s, x) := loadAt (drawTicket s) p d n .bypass; (acquireAt s p.core sc, .ok (cut x))
  | .fe consume =>
    match d with
    | .phys _ _ => (s, .error (.fault (trapAt fcPROT va (xlateInfo .read 0 0 2))))
    | .ls c off =>
      let g := off / 16
      let slot := s.vlc.slot
      if feServed s c slot g then
        let (s, x) := loadAt s p d n .plain
        let s := s.modCore c fun k => { k with feq := k.feq.filter (· != (g, slot)) }
        (feWake (if consume then feEmpty s c g else s) c, .ok (cut x))
      else
        let s := s.modCore c fun k => { k with feq := if k.feq.contains (g, slot) then k.feq else k.feq ++ [(g, slot)] }
        (s, .error (.wait [g]))

def loadAll (kind : LdKind) (p : Party) (e : VEntry) (i : Nat) : List (Word × Dest) → State → State × Except VEnd (List Nat)
  | [], s => (s, .ok [])
  | (va, d) :: t, s =>
    match loadOne kind p e i va d s with
    | (s, .error r) => (s, .error r)
    | (s, .ok x) =>
      match loadAll kind p e i t s with
      | (s, .error r) => (s, .error r)
      | (s, .ok xs) => (s, .ok (x :: xs))

/-- The group of a field (R229). -/
def fieldGroup (e : VEntry) (f : Nat) : Nat := e.d + f * grpNames e.vt

/-- Where a load reads: the L1 first, or the home (R221, R222, R261). -/
def loadMode (kind : LdKind) (e : VEntry) : Mode :=
  match kind with
  | .plain | .fe _ => .plain
  | .nc | .sc => .bypass
  | .acq => homeMode (scopeOfCode e.vscope)

/-- One element of a load. -/
def loadStep (kind : LdKind) (rule : AccRule) (m : VAddr) (p : Party) (pg : BitVec 2) (e : VEntry) (i : Nat) (s : State) :
    State × VEnd :=
  let w := e.vt.sew.bits
  if s.vlc.active pg i then
    match checkFields (loadMode kind e) p rule .read m e i m.fields 0 s with
    | (s, .error t) => (s, .fault t)
    | (s, .ok ds) =>
      match loadAll kind p e i ds s with
      | (s, .error r) => (s, r)
      | (s, .ok xs) =>
        (s.modVlc fun v => (xs.zipIdx).foldl (fun v x => v.writeElem (fieldGroup e x.2) w i (memToReg e x.1)) v, .done)
  else if e.vt.mz then
    (s.modVlc fun v => (List.range m.fields).foldl (fun v f =>
      { v with vf := v.vf.setElem (fieldGroup e f) w i 0 }) v, .done)
  else (s, .done)

/-- Set the tags of the destination groups of a load to 0, after their tails. -/
def closeLoad (m : VAddr) (withTail : Bool) (e : VEntry) (s : State) : State :=
  if e.vl = 0 then s
  else s.modVlc fun v => (List.range m.fields).foldl (fun v f =>
    let f1 := if withTail then v.vf.tail e.vt e.vt.cls (fieldGroup e f) (grpNames e.vt) e.vt.sew.bits e.vl else v.vf
    v.setFile (f1.setTag (fieldGroup e f) (grpNames e.vt) 0)) v

/-- A vector load (R229). -/
def loadBody (kind : LdKind) (rule : AccRule) (m : VAddr) (pg : BitVec 2) : VBody := fun e s =>
  let p := s.me
  thenDone (elements e (loadStep kind rule m p pg e) s) (closeLoad m true e)

/-- The loop of `vld.ff`: a fault after the first active element ends it at that element (R230); a halt stops it at an element. -/
def ffLoop (p : Party) (pg : BitVec 2) (e : VEntry) : Nat → Nat → Bool → State → State × VEnd × Nat
  | 0, i, _, s => (s, .done, i)
  | n + 1, i, seen, s =>
    if s.vlc.spent then (s.stopAt i, .pause, i)
    else
      match loadStep .plain .load .unit p pg e i s with
      | (t, .done) => ffLoop p pg e n (i + 1) (seen || s.vlc.active pg i) (t.modVlc Vlc.spend)
      | (t, r) => if seen then (t, .done, i) else (t.stopAt i, r, i)

/-- `vld.ff` (R230). -/
def ffBody (pg : BitVec 2) : VBody := fun e s =>
  let p := s.me
  let v0 := s.vlc.vstart.toNat
  match ffLoop p pg e (e.vl - v0) v0 false s with
  | (s, .done, i) =>
    let s := closeLoad .unit (i ≥ e.vl) e s
    ((s.modVlc fun v => v.setX e.b (BitVec.ofNat 64 (min i e.vl))).clearVstart, .done)
  | (s, r, _) => (s, r)

/-! ### Stores -/

inductive StKind where
  | plain | nc | fe | rel | sc
  | md (tv : Bool)
deriving DecidableEq, Repr

/-- The sequence number of the running entry: taken once, kept through restarts (R349). -/
def entrySeq (s : State) : State × BitVec 32 :=
  match s.vlc.run.bind (·.seq) with
  | some q => (s, q)
  | none =>
    let (s, q) := takeSeq s
    (s.modVlc fun v => { v with run := v.run.map fun r => { r with seq := some q } }, q)

/-- An address lies in an LO page, or in a page that does not translate now (assumption 76, DESIGN CHOICE). -/
def mayBeLo (s : State) (p : Party) (va : Word) : Bool :=
  decide (va.toNat < lsWindow) &&
    (match (leavesOf s p va .write).2 with
     | .ok (l1, l2, _) => combinedKind l1 l2 == 3
     | .error _ => true)

/-- A store has an element left to write that is an LO store, or may be one: LO stores are of 64 bits (R220). -/
def storesLo (s : State) (p : Party) (m : VAddr) (pg : BitVec 2) (e : VEntry) : Bool :=
  e.vt.mew.bits == 64 &&
    (List.range e.vl).any fun i => decide (s.vlc.vstart.toNat ≤ i) && s.vlc.active pg i && (List.range m.fields).any fun f =>
      mayBeLo s p (elemVa m e i f)

/-- A vector store to LO cells takes its sequence number when its entry first starts, whether or not an element faults then (R236,
R349). -/
def startSeq (s : State) (p : Party) (m : VAddr) (pg : BitVec 2) (e : VEntry) : State :=
  if storesLo s p m pg e then (entrySeq s).1 else s

/-- Issue the LO store of an element (R235, R236). -/
def loElem (kind : StKind) (p : Party) (pa x : Nat) (s : State) : State :=
  let prod := BitVec.ofNat 12 p.core
  let w := BitVec.ofNat 64 x
  match kind with
  | .md true => (loIssue s p.core pa w (BitVec.ofNat 32 x) prod true p.queue).progress s.vlc.gang
  | .md false => let (s, q) := entrySeq s; loIssue s p.core pa w q prod true p.queue
  | _ => let (s, q) := entrySeq s; loIssue s p.core pa w q prod false p.queue

/-- Write one element at its place; below 8 bits the home merges the bits in one step (R179, R227). -/
def storeOne (kind : StKind) (p : Party) (e : VEntry) (i : Nat) (va : Word) (d : Dest) (x : Nat) (s : State) :
    State × VEnd :=
  let n := elemBytes e
  if d.isLo then (loElem kind p d.pa x s, .done)
  else if e.vt.mew.bits < 8 then
    ((rmwAt s p d 1 fun o => setField o (elemBit e i) e.vt.mew.bits x).1, .done)
  else match kind with
    | .plain | .rel | .md _ => (storeAt s p d n x .plain, .done)
    | .nc => (storeAt s p d n x .bypass, .done)
    | .sc =>
      match ticketBus s va with
      | some t => (s, .fault t)
      | none => (storeAt (drawTicket s) p d n x .bypass, .done)
    | .fe =>
      let s := storeAt s p d n x .plain
      match d with
      | .ls c off => (feFill s c (off / 16), .done)
      | .phys _ _ => (s, .done)

/-- The fields of an element of the data groups, each read once (R229). -/
def readFields (e : VEntry) (i n : Nat) (v : Vlc) : Except Trap (List Nat) :=
  readAll v ((List.range n).map fun f => (fieldGroup e f, e.vt.sew.bits, i))

/-- Store the fields of an element. -/
def storeAll (kind : StKind) (p : Party) (e : VEntry) (i : Nat) : List ((Word × Dest) × Nat) → State → State × VEnd
  | [], s => (s, .done)
  | ((va, d), x) :: t, s =>
    match storeOne kind p e i va d (regToMem e x) s with
    | (s, .done) => storeAll kind p e i t s
    | r => r

/-- Each element of `vst.rel` and of `vst.sc` is a release (R240, R259). -/
def StKind.releases : StKind → Bool
  | .rel | .sc => true
  | _ => false

/-- One element of a store: every field is checked and read before any is written. -/
def storeStep (kind : StKind) (rule : AccRule) (m : VAddr) (p : Party) (pg : BitVec 2) (e : VEntry) (i : Nat) (s : State) :
    State × VEnd :=
  if s.vlc.active pg i then
    match checkFields .plain p rule .write m e i m.fields 0 s with
    | (s, .error t) => (s, .fault t)
    | (s, .ok ds) =>
      match readFields e i m.fields s.vlc with
      | .error t => (s, .fault t)
      | .ok xs =>
        let s := if kind.releases then releaseAt s p.core (scopeOfCode e.vscope) else s
        storeAll kind p e i (ds.zip xs) s
  else (s, .done)

/-- Whether the LO stores of a form take their sequence number from PSEQ (R235, R236); a `vst.sc` and a `vst.fe` store to no LO cell
(R220). -/
def StKind.usesPseq : StKind → Bool
  | .md tv => !tv
  | .plain | .nc | .rel => true
  | .fe | .sc => false

/-- A vector store (R229). -/
def storeBody (kind : StKind) (rule : AccRule) (m : VAddr) (pg : BitVec 2) : VBody := fun e s =>
  let p := s.me
  let s := if kind.usesPseq then startSeq s p m pg e else s
  thenDone (elements e (storeStep kind rule m p pg e) s) id

/-- `vst.ntf`: the last element commits with the release and the progress store (R234). -/
def ntfBody (pg : BitVec 2) : VBody := fun e s =>
  let p := s.me
  let s := startSeq s p .unit pg e
  match access s p .md e.xb 8 .write with
  | (s, .error t) => (s, .fault t)
  | (s, .ok d) =>
    let count := (e.vidx.toNat + e.vl) % 2 ^ 32
    thenDone (elements e (fun i s =>
      match storeStep .plain .store .unit p pg e i s with
      | (s, .done) =>
        if i + 1 = e.vl then
          let s := releaseAt s p.core (scopeOfCode e.vscope)
          let s := loIssue s p.core d.pa (BitVec.ofNat 64 count) (BitVec.ofNat 32 count) (BitVec.ofNat 12 p.core) false p.queue
          (s.progress s.vlc.gang, .done)
        else (s, .done)
      | r => r) s) id

end Sys2Proof.Machine
end

