-- ==== Sys2Proof/Machine/Tid.lean ====
section
/-! DEFINITION. Tensor descriptors (spec/10_tables.md R289 to R292) and what the `tid` instructions do at the head of the
queue (R293 to R295). -/

namespace Sys2Proof.Machine

/-- A descriptor with its fields (R289). -/
structure Desc where
  base : Nat
  cls : Cls
  ew : Ew
  p6 : Bool
  /-- Dimensions minus 1. -/
  ndim : Nat
  rcl : Rcl
  sck : Nat
  ren : Bool
  rblk : Nat
  raxis : Nat
  rseed : Nat
  rver : Nat
  ext : List Nat
  strd : List Int
  sbase : Nat
  tg : Bool
  tagbase : Nat
deriving DecidableEq, Repr

/-- Reserved bits of an entry, as pairs of first bit and length (R289). -/
def descReserved : List (Nat × Nat) :=
  [(505, 7), (440, 8), (98, 6), (90, 6), (86, 2), (81, 3), (76, 4), (68, 5), (56, 7)]

def rclOfCode (n : Nat) : Rcl :=
  match n with
  | 0 => .stream | 1 => .normal | _ => .keep

/-- The fields of an entry. -/
def descOf (n : Nat) : Desc where
  base := field n 0 56
  cls := clsOfCode (field n 64 4)
  ew := ewOfCode (field n 73 3)
  p6 := bitOf n 80
  ndim := field n 84 2
  rcl := rclOfCode (field n 88 2)
  sck := field n 96 2
  ren := bitOf n 104
  rblk := field n 105 2
  raxis := field n 107 2
  rseed := field n 109 3
  rver := field n 112 16
  ext := (List.range 4).map fun d => field n (128 + 32 * d) 32
  strd := (List.range 4).map fun d => sgn 32 (field n (256 + 32 * d) 32)
  sbase := field n 384 56
  tg := bitOf n 504
  tagbase := field n 448 56

/-- Checks 1 to 7 of R292 on an entry with V = 1: the number of the first that fails. -/
def descFails (n : Nat) : Option Nat :=
  let x := descOf n
  let cls := field n 64 4
  let ew := field n 73 3
  if descReserved.any fun r => field n r.1 r.2 != 0 then some 1
  else if 10 ≤ cls ∨ field n 88 2 = 3 ∨ x.sck = 3 then some 2
  else if (if x.cls.isFp then 6 ≤ ew || x.ew.bits != x.cls.container else decide (6 ≤ ew)) then some 3
  else if x.p6 ∧ x.cls ≠ .e3m2 ∧ x.cls ≠ .e2m3 then some 4
  else if (List.range 4).any fun d =>
      if d ≤ x.ndim then x.ext.getD d 0 == 0 else x.ext.getD d 0 != 0 || x.strd.getD d 0 != 0 then some 5
  else if x.sck ≠ 0 ∧ (!x.cls.isFp ∨ x.ndim = 0) then some 6
  else if x.ren ∧ x.ndim < x.raxis then some 7
  else none

/-- The entry that 64 bytes become: an all-zero entry with V = 0, themselves after the checks, or the failing check. -/
def descResult (n : Nat) : Except Nat (BitVec 512) :=
  if !bitOf n 63 then .ok 0
  else
    match descFails n with
    | some k => .error k
    | none => .ok (BitVec.ofNat 512 n)

/-- TID with its check and identifier (R292). -/
def tidTrap (check tid : Nat) : Trap := trapInfo fcTID (check + tid * 256)

def Gang.tid (g : Gang) (t : Nat) : BitVec 512 := Tab.get 0 g.tids t

def setTid (s : State) (t : Nat) (x : BitVec 512) : State :=
  s.modGang s.vlc.gang fun g => { g with tids := Tab.set 0 g.tids t x }

/-- Store dwords in ascending order as vector-stream stores. -/
def storeDwords (p : Party) (va : Word) : List Word → State → State × VEnd
  | [], s => (s, .done)
  | w :: ws, s =>
    match access s p .store va 8 .write with
    | (s, .error t) => (s, .fault t)
    | (s, .ok d) =>
      let s := if d.isLo then loElem .plain p d.pa w.toNat s else storeAt s p d 8 w.toNat .plain
      storeDwords p (va + 8) ws s

/-- The dwords of a number. -/
def natDwords (n : Nat) : Nat → List Word
  | 0 => []
  | k + 1 => BitVec.ofNat 64 n :: natDwords (n / 2 ^ 64) k

/-- Install checked bytes as an entry. -/
def installTid (t n : Nat) (s : State) : State × VEnd :=
  match descResult n with
  | .error k => (s, .fault (tidTrap k t))
  | .ok x => ((setTid s t x).clearVstart, .done)

/-- `tid.ld` (R294). -/
def tidLdBody : VBody := fun e s =>
  if e.xa.toNat % 64 ≠ 0 then (s, .fault (trapAt fcALIGN e.xa 0))
  else
    match readDwords s s.me .load e.xa 8 with
    | (s, .error t) => (s, .fault t)
    | (s, .ok ws) => installTid e.d (dwordsNat ws) s

/-- `tid.st` (R294). -/
def tidStBody : VBody := fun e s =>
  if e.xa.toNat % 64 ≠ 0 then (s, .fault (trapAt fcALIGN e.xa 0))
  else thenDone (storeDwords s.me e.xa (natDwords (s.gang.tid e.d).toNat 8) s) id

/-- `tid.set` (R294). -/
def tidSetBody : VBody := fun e s =>
  if 7 < e.xb.toNat then (s, .fault (tidTrap 0 e.d))
  else installTid e.d (setField (s.gang.tid e.d).toNat (64 * e.xb.toNat) 64 e.xa.toNat) s

/-- `tid.q` (R294). -/
def tidQBody : VBody := fun e s =>
  let x := if e.xb.toNat ≤ 7 then field (s.gang.tid e.a).toNat (64 * e.xb.toNat) 64 else 0
  ((s.modVlc fun v => v.setX e.d (BitVec.ofNat 64 x)).clearVstart, .done)

/-! ### Places of elements and scales (R290, R291) -/

/-- Bits of an element as it lies in memory. -/
def Desc.width (t : Desc) : Nat := if t.p6 then 6 else t.ew.bits

/-- The linear number of an index, in signed 64-bit arithmetic. -/
def Desc.linear (t : Desc) (idx : List Nat) : Int :=
  sgn 64 (wrapI 64 (((idx.zip t.strd).map fun x => (x.1 : Int) * x.2).foldl (· + ·) 0))

/-- The byte and the bit in it where an element starts. -/
def Desc.place (t : Desc) (idx : List Nat) : Word × Nat :=
  let e := t.linear idx
  if t.p6 then
    let bit : Int := ((t.base : Int) + 3 * (e / 4)) * 8 + 6 * (e % 4)
    (BitVec.ofInt 64 (bit / 8), (bit % 8).toNat)
  else
    let bit : Int := (t.base : Int) * 8 + e * t.ew.bits
    (BitVec.ofInt 64 (bit / 8), (bit % 8).toNat)

/-- The address of the scale word of an element. -/
def Desc.scaleVa (t : Desc) (idx : List Nat) : Word :=
  let i (k : Nat) := idx.getD k 0
  let x (k : Nat) := t.ext.getD k 0
  let c1 := ceilDiv (x 1) 128
  let c0 := ceilDiv (x 0) 128
  let l := if t.ndim < 2 then 0 else i 2 + x 2 * i 3
  BitVec.ofNat 64 (t.sbase + 4 *
    (if t.sck = 1 then (i 0 + x 0 * l) * c1 + i 1 / 128 else i 1 / 128 + c1 * (i 0 / 128 + c0 * l)))

end Sys2Proof.Machine
end

