-- ==== Sys2Proof/Machine/Matrix.lean ====
section
/-! DEFINITION. The accumulator array, its views and masks, and what the matrix instructions do at the head of the queue
(spec/06_accumulators.md R154 to R181; spec/03_numbers.md R78 to R82). -/

namespace Sys2Proof.Machine

/-! ### The array and its views (R154, R155) -/

/-- Row and column of the array of element (i, j) of view `t`. -/
def viewCell (mvl t i j : Nat) : Nat × Nat :=
  let q := if mvl = 0 then 1 else 64 / mvl
  (t / q * mvl + i, t % q * mvl + j)

def accBits (k : CoreSt) (x : Nat × Nat) : Nat := field (Tab.get 0 k.acc x.1).toNat (32 * x.2) 32

/-- Write an element; its poison goes (R182). -/
def accPut (k : CoreSt) (x : Nat × Nat) (v : Nat) : CoreSt :=
  { k with
    acc := Tab.set 0 k.acc x.1 (BitVec.ofNat 2048 (setField (Tab.get 0 k.acc x.1).toNat (32 * x.2) 32 v))
    accPoison := k.accPoison.filter (· != x) }

/-- Read an element: POISON at its row where it is poisoned (R182). -/
def accGet (k : CoreSt) (x : Nat × Nat) : Except Trap Nat :=
  if k.accPoison.contains x then .error (trapInfo fcPOISON (3 + x.1 * 256)) else .ok (accBits k x)

/-- Commit elements of a row with its flags (R164, R170, R177). -/
def commitRow (s : State) (xs : List ((Nat × Nat) × Nat)) (fl : Fl) : State :=
  (s.modCore s.vlc.core fun k => xs.foldl (fun k x => accPut k x.1 x.2) k).modVlc fun v => v.orFlags fl

/-- A bit of a mask triple: `off` is 0 for rows, 4 for columns, 8 for depth (R163). -/
def maskBit (f : VFile) (pg : BitVec 2) (off i : Nat) : Bool := if pg = 0 then true else f.pbit (pg.toNat + off) i

/-- The columns of a tile that a mask leaves active. -/
def activeCols (f : VFile) (pg : BitVec 2) (n : Nat) : List Nat := (List.range n).filter (maskBit f pg 4)

/-! ### Outer products and clearing (R164 to R166) -/

inductive MxOp where
  | acc | sub | over
deriving DecidableEq, Repr

/-- One element of an outer product from its terms. -/
def outerElem (op : MxOp) (c : Cls) (w frm t : Nat) (ps : List (Nat × Nat)) : Nat × Fl :=
  if c.isFp then
    let sum := dotSum frm (ps.map fun p => (fpVal c p.1, fpVal c p.2))
    let f := if c.isNarrow then dotFlags sum else sum.2
    let (r, g) := match op with
      | .acc => finish .fp32 frm (addVal frm (fpVal .fp32 t) sum.1)
      | .sub => finish .fp32 frm (addVal frm (fpVal .fp32 t) (negVal sum.1))
      | .over => finish .fp32 frm (sum.1, 0)
    (r, f ||| g)
  else
    let sg := c == .i
    let sum := (ps.map fun p => intVal sg w p.1 * intVal sg w p.2).foldl (· + ·) 0
    match op with
    | .acc => accInt sg t sum
    | .sub => accInt sg t (-sum)
    | .over => accInt sg 0 sum

/-- The elements of one row of an outer product. -/
def outerCols (op : MxOp) (pg : BitVec 2) (e : VEntry) (i : Nat) (s : State) : List Nat → Except Trap (List ((Nat × Nat) × Nat) × Fl)
  | [] => .ok ([], 0)
  | j :: js =>
    let w := e.vt.sew.bits
    let r := 32 / w
    let cell := viewCell e.mvl e.d i j
    let ds := (List.range r).filter fun d => maskBit s.vlc.vf pg 8 d && decide (i * r + d < e.vl) && decide (j * r + d < e.vl)
    match (if op = .over then .ok 0 else accGet (s.core s.vlc.core) cell) with
    | .error t => .error t
    | .ok t =>
      match readAll s.vlc (ds.flatMap fun d => [(e.a, w, i * r + d), (e.b, w, j * r + d)]) with
      | .error t => .error t
      | .ok xs =>
        let (x, f) := outerElem op e.vt.cls w e.frm t (pairUp xs)
        match outerCols op pg e i s js with
        | .error t => .error t
        | .ok (ys, g) => .ok ((cell, x) :: ys, f ||| g)

/-- `mxa`, `mxs` and `mxw` (R164, R165). -/
def outerBody (op : MxOp) (pg : BitVec 2) : VBody := fun e s =>
  if tagOn (s.vlc.vf.tagOf e.a) ∨ tagOn (s.vlc.vf.tagOf e.b) then (s, .fault (trapInfo fcROT_TAG 2))
  else
    let v0 := s.vlc.vstart.toNat
    thenDone (iterate (fun i s =>
      if maskBit s.vlc.vf pg 0 i then
        match outerCols op pg e i s (activeCols s.vlc.vf pg e.mvl) with
        | .error t => (s, .fault t)
        | .ok (xs, f) => (commitRow s xs f, .done)
      else (s, .done)) (e.mvl - v0) v0 s) id

/-- `mclr` (R166). -/
def mclrBody (pg : BitVec 2) : VBody := fun e s =>
  let rows := (List.range e.mvl).filter (maskBit s.vlc.vf pg 0)
  let cells := rows.flatMap fun i => (activeCols s.vlc.vf pg e.mvl).map fun j => (viewCell e.mvl e.d i j, 0)
  ((commitRow s cells 0).clearVstart, .done)

/-! ### Tensor operands (R167, R175, R176) -/

/-- A tensor specification with its descriptor. -/
structure TileSpec where
  d : Desc
  o0 : Nat
  o1 : Nat
  tid : Nat
deriving DecidableEq, Repr

/-- A specification of R167 under the second check of R169. -/
def specOf (g : Gang) (x : Word) : Except Trap TileSpec :=
  let n := x.toNat
  let t := field n 0 7
  let raw := (g.tid t).toNat
  if field n 56 8 ≠ 0 ∨ bitOf n 7 ∨ !bitOf raw 63 then .error (tidTrap 8 t)
  else .ok ⟨descOf raw, field n 8 24, field n 32 24, t⟩

/-- Pin the line of an address for the running instruction, within the limits of R197: 4 lines of the set, and half of the ways that
the queue may fill in it. -/
def pinLine (s : State) (p : Party) (pa : Nat) (x : Pin) : State :=
  let die := if l2Holds s p.die pa then p.die else homeDie pa
  let ways := (s.queue p.queue).ways
  let pinned := s.l2.filter fun l => inSet die (pa / 128) l && !l.pins.isEmpty
  let free := decide (pinned.length < 4) &&
    decide ((pinned.filter fun l => wayAllowed ways l.way).length < (queueWays ways).length / 2)
  { s with l2 := s.l2.map fun l =>
      if l.die = die ∧ l.line = pa / 128 ∧ (l.pins ≠ [] ∨ free) ∧ x ∉ l.pins then { l with pins := l.pins ++ [x] } else l }

/-- Release the pins of the VLC whose turn it is that a test picks (R176). -/
def unpin (s : State) (f : Pin → Bool) : State :=
  let mine (x : Pin) : Bool := x.core == s.vlc.core && x.slot == s.vlc.slot && f x
  if s.l2.any fun l => l.pins.any mine then
    { s with l2 := s.l2.map fun l => { l with pins := l.pins.filter fun x => !mine x } }
  else s

/-- Read `n` bytes of operand memory, with the descriptor's class.  `pin`: a line that is fetched is pinned, as one of B or of A
(R176, R197). -/
def readOperand (s : State) (p : Party) (cls : Rcl) (pin : Option Bool) (va : Word) (n : Nat) : State × Except Trap Nat :=
  match access s p .tensorRead va n .read with
  | (s, .error t) => (s, .error t)
  | (s, .ok d) =>
    let (t, x) := loadAt s p d n .plain cls
    match pin, d with
    | some b, .phys pa _ =>
      if placeOf pa = .device ∧ !l1Hit s p.core pa n then
        (pinLine t p pa ⟨s.vlc.core, s.vlc.slot, va.toNat, b⟩, .ok x)
      else (t, .ok x)
    | _, _ => (t, .ok x)

/-- Read single bytes, lowest first: a fault of the second byte of an element gives that byte's address (R177; assumption 78, DESIGN
CHOICE). -/
def readBytes (s : State) (p : Party) (cls : Rcl) (pin : Option Bool) (va : Word) : Nat → State × Except Trap Nat
  | 0 => (s, .ok 0)
  | n + 1 =>
    match readOperand s p cls pin va 1 with
    | (s, .error t) => (s, .error t)
    | (s, .ok x) =>
      match readBytes s p cls pin (va + 1) n with
      | (s, .error t) => (s, .error t)
      | (s, .ok y) => (s, .ok (x + 256 * y))

/-- The code of a tensor element (R290). -/
def readTensor (p : Party) (pin : Option Bool) (t : Desc) (idx : List Nat) (s : State) : State × Except Trap Nat :=
  let (va, bit) := t.place idx
  let w := t.width
  if 8 ≤ w then readOperand s p t.rcl pin va (w / 8)
  else
    match readBytes s p t.rcl pin va (ceilDiv (bit + w) 8) with
    | (s, .error e) => (s, .error e)
    | (s, .ok x) => (s, .ok (field x bit w))

/-- The scale word of an element, where the tensor carries scales. -/
def readScale (p : Party) (t : Desc) (idx : List Nat) (s : State) : State × Except Trap (Option Nat) :=
  if t.sck = 0 then (s, .ok none)
  else
    match readOperand s p t.rcl none (t.scaleVa idx) 4 with
    | (s, .error e) => (s, .error e)
    | (s, .ok x) => (s, .ok (some x))

/-! ### Lines of operands: a row of A or a column of B, in blocks along K -/

/-- A block: its codes along K (`none` where the depth is masked), and its scale. -/
structure Blk where
  xs : List (Option Nat)
  sigma : Option Nat
deriving DecidableEq, Repr

/-- Read a depth that takes part. -/
def readIf (use : Bool) (elem : State → State × Except Trap Nat) (s : State) : State × Except Trap (Option Nat) :=
  if use then
    match elem s with
    | (s, .error t) => (s, .error t)
    | (s, .ok x) => (s, .ok (some x))
  else (s, .ok none)

/-- Read the codes of depths. -/
def readCodes (use : Nat → Bool) (elem : Nat → State → State × Except Trap Nat) :
    List Nat → State → State × Except Trap (List (Option Nat))
  | [], s => (s, .ok [])
  | k :: ks, s =>
    match readIf (use k) (elem k) s with
    | (s, .error t) => (s, .error t)
    | (s, .ok x) =>
      match readCodes use elem ks s with
      | (s, .error t) => (s, .error t)
      | (s, .ok xs) => (s, .ok (x :: xs))

/-- The scale of a block with an active depth. -/
def scaleIf (scale : Nat → State → State × Except Trap (Option Nat)) (k : Option Nat) (s : State) :
    State × Except Trap (Option Nat) :=
  match k with
  | none => (s, .ok none)
  | some k => scale k s

/-- Read a line: a scale is read for a block with an active depth (R78, R79), the word of its first active depth also where the
scale words of a block differ along K (R170; assumption 69, DESIGN CHOICE). -/
def readLine (use : Nat → Bool) (elem : Nat → State → State × Except Trap Nat)
    (scale : Nat → State → State × Except Trap (Option Nat)) : List (List Nat) → State → State × Except Trap (List Blk)
  | [], s => (s, .ok [])
  | ks :: t, s =>
    match readCodes use elem ks s with
    | (s, .error e) => (s, .error e)
    | (s, .ok xs) =>
      match scaleIf scale (ks.find? use) s with
      | (s, .error e) => (s, .error e)
      | (s, .ok sg) =>
        match readLine use elem scale t s with
        | (s, .error e) => (s, .error e)
        | (s, .ok bs) => (s, .ok (⟨xs, sg⟩ :: bs))

/-- A code divided exactly by its scale and rounded by RNE to a class (R78, R172, R178). -/
def divideElem (c t : Cls) (sigma : Option Nat) (code : Nat) : Nat × Fl :=
  match sigma with
  | none => cvtFpFp c t 0 false code
  | some b =>
    if !sigmaOk b then let (v, f) := nanOf t; (v, f ||| flNV)
    else
      match fpVal c code with
      | .fin x => roundFp t 0 false (divExact x (sigmaVal b))
      | v => roundVal t 0 false v

/-- Cut a list into pieces of `n`; `fuel` bounds the pieces. -/
def pieces (n : Nat) : Nat → List (Option Nat) → List (List (Option Nat))
  | 0, _ => []
  | k + 1, xs => if xs = [] then [] else xs.take n :: pieces n k (xs.drop n)

/-- The on-the-fly narrowing of one block (R172): `rot` names the block size and the seed.  A rotated block that holds a NaN or an infinity
narrows to +0 with NV and SQ under a format without NaN, as R86 says, so its products make c no NaN (assumption 77, DESIGN CHOICE). -/
def narrowBlk (c t : Cls) (rot : Option (Nat × BitVec 128)) (b : Blk) : Blk × Fl :=
  match rot with
  | some (lg, seed) =>
    let rs := (pieces (2 ^ lg) b.xs.length b.xs).map fun xs =>
      rotateBlock true c c.container t lg seed (match b.sigma with
        | none => []
        | some g => xs.map fun _ => some g) false xs
    (⟨rs.flatMap fun r => r.1.map some, b.sigma⟩, rs.foldl (fun f r => f ||| r.2) 0)
  | none =>
    let rs := b.xs.map fun x => x.map (divideElem c t b.sigma)
    (⟨rs.map fun r => r.map Prod.fst, b.sigma⟩, rs.foldl (fun f r => f ||| (r.map Prod.snd).getD 0) 0)

def narrowLine (c t : Cls) (rot : Option (Nat × BitVec 128)) (bs : List Blk) : List Blk × Fl :=
  let rs := bs.map (narrowBlk c t rot)
  (rs.map Prod.fst, rs.foldl (fun f r => f ||| r.2) 0)

/-! ### Products (R79 to R82) -/

/-- The product paths of R168. -/
inductive MPath where
  | narrow | half | wideA | wideB | ints
deriving DecidableEq, Repr

def pathOf (ca : Cls) (wa : Nat) (cb : Cls) (wb : Nat) : Option MPath :=
  let half (c : Cls) : Bool := c == .bf16 || c == .fp16
  if ca.isNarrow && cb.isNarrow then some .narrow
  else if half ca && ca == cb then some .half
  else if half ca && cb.isNarrow then some .wideA
  else if ca.isNarrow && half cb then some .wideB
  else if !ca.isFp && !cb.isFp && decide (wa ≤ 8) && decide (wb ≤ 8) then some .ints
  else none

/-- The active pairs of two blocks: a masked depth is left out, so a sum of active products of −0 alone stays −0 (R79, R82, R163;
assumption 63, DESIGN CHOICE). -/
def blkPairs (a b : Blk) : List (Nat × Nat) := (a.xs.zip b.xs).filterMap fun x =>
  match x with
  | (some p, some q) => some (p, q)
  | _ => none

/-- A block's exact sum multiplied by a scale; NaN under an invalid one (R78, R79). -/
def scaleBy (sigma : Option Nat) (x : FV × Fl) : FV × Fl :=
  match sigma with
  | none => x
  | some b =>
    if !sigmaOk b then (.nan false, x.2 ||| flNV)
    else
      match x.1 with
      | .fin y => (.fin (mulExact y (sigmaVal b)), x.2)
      | y => (y, x.2)

/-- One block of R79 or one group of R80 accumulated into an element: a masked depth adds no +0 to the sum (assumption 63, DESIGN
CHOICE). -/
def accBlock (narrow : Bool) (ca cb : Cls) (frm lg c : Nat) (a b : Blk) : Nat × Fl :=
  match blkPairs a b with
  | [] => (c, 0)
  | ps =>
    let sum := dotSum frm (ps.map fun p => (fpVal ca p.1, fpVal cb p.2))
    let (v, f) := if narrow then scaleBy b.sigma (scaleBy a.sigma (sum.1, dotFlags sum)) else sum
    let v := match v with
      | .fin x => .fin (shiftExact x (-(lg : Int)))
      | y => y
    let (r, g) := finish .fp32 frm (addVal frm (fpVal .fp32 c) v)
    (r, f ||| g)

/-- A row of A and a column of B accumulated into an element. -/
def accLine (narrow : Bool) (ca cb : Cls) (frm lg : Nat) : Nat → List Blk → List Blk → Nat × Fl
  | c, a :: as, b :: bs =>
    let (c, f) := accBlock narrow ca cb frm lg c a b
    let (c, g) := accLine narrow ca cb frm lg c as bs
    (c, f ||| g)
  | c, _, _ => (c, 0)

/-- The integer path (R81). -/
def accInts (ca : Cls) (wa : Nat) (cb : Cls) (wb c : Nat) (a b : List Blk) : Nat × Fl :=
  let ps := (a.zip b).flatMap fun x => blkPairs x.1 x.2
  accInt (!(ca == .n && cb == .n)) c ((ps.map fun p => intVal (ca == .i) wa p.1 * intVal (cb == .i) wb p.2).foldl (· + ·) 0)

/-! ### The job of a product: what the checks of R169 establish -/

/-- Where the rows of A come from. -/
inductive ASrc where
  | tensor (t : TileSpec)
  /-- A vector group under the captured VTYPE (R174). -/
  | group
deriving DecidableEq, Repr

structure Job where
  path : MPath
  a : ASrc
  b : TileSpec
  ca : Cls
  wa : Nat
  /-- log2 of the block size and the seed of a rotated product. -/
  rot : Option (Nat × BitVec 128)
  /-- The wide operand is rotated on the fly. -/
  fly : Bool
  /-- `mma.g`. -/
  grouped : Bool
  blocks : List (List Nat)
  cols : List Nat
deriving DecidableEq, Repr

def shapeTrap (why : Nat) : Trap := trapInfo fcSHAPE why

def rotTrap (why : Nat) : Trap := trapInfo fcROT_TAG why

/-- A rotation as an operand carries it: block code, seed register, whether it runs along K, and the descriptor's seed
version with its identifier. -/
structure RotOf where
  blk : Nat
  seed : Nat
  alongK : Bool
  ver : Option (Nat × Nat)
deriving DecidableEq, Repr

def rotOfTensor (t : TileSpec) (kAxis : Nat) : Option RotOf :=
  if t.d.ren then some ⟨t.d.rblk, t.d.rseed, t.d.raxis == kAxis, some (t.d.rver, t.tid)⟩ else none

def rotOfTag (t : BitVec 6) : Option RotOf :=
  if tagOn t then some ⟨field t.toNat 3 2, field t.toNat 0 3, true, none⟩ else none

/-- SEED_VER of a rotated tensor (R169 order 7). -/
def seedVer (g : Gang) (r : Option RotOf) : Option Trap :=
  match r with
  | some ⟨_, k, _, some (v, tid)⟩ =>
    let cur := (g.ssv[k]?.getD 0).toNat
    if v = cur then none else some (trapInfo fcSEED_VER (k + tid * 2 ^ 8 + v * 2 ^ 16 + cur * 2 ^ 32))
  | _ => none

/-- Orders 5 to 7 of R169 (R171, R174): the rotation that the product runs under, and whether it is on the fly. `whole`
says that every depth is active, `orig` is the K origin of the wide operand.  A narrow operand rotated off K beside an unrotated wide one
counts as on the fly (assumption 88, DESIGN CHOICE). -/
def rotChecks (g : Gang) (path : MPath) (ra rb : Option RotOf) (isGroup whole : Bool) (orig tsk : Nat) :
    Except Trap (Option (Nat × BitVec 128) × Bool) :=
  match ra, rb with
  | none, none => .ok (none, false)
  | _, _ =>
    let size (r : Option RotOf) : Nat := 2 ^ ((r.map (·.blk)).getD 0 + 4)
    let fly := (path == .wideA && ra.isNone) || (path == .wideB && rb.isNone)
    let both := path == .narrow && ra.isSome && rb.isSome
    let r := if path = .wideA then rb else if ra.isSome then ra else rb
    let n := size r
    let axes := (ra.map (·.alongK)).getD true && (rb.map (·.alongK)).getD true
    let differ := (ra.map fun x => (x.blk, x.seed)) != (rb.map fun x => (x.blk, x.seed))
    if !whole then .error (shapeTrap 5)
    else if fly && (orig % n != 0 || tsk % n != 0) then .error (shapeTrap 5)
    else if isGroup && ra.isSome && tsk % size ra != 0 then .error (shapeTrap 5)
    else if !axes then .error (rotTrap 2)
    else if isGroup && ra.isSome && rb.isNone then .error (rotTrap 1)
    else if !(both || fly) then .error (rotTrap (if path = .narrow then 1 else 2))
    else if both && differ then .error (rotTrap 0)
    else
      match seedVer g ra with
      | some t => .error t
      | none =>
        match seedVer g rb with
        | some t => .error t
        | none => .ok ((r.map fun x => (x.blk + 4, g.ss[x.seed]?.getD 0)), fly)

/-- Cut the depths of a tile into blocks of `span` along K, aligned at K position 0 of A. -/
def kBlocks (span o : Nat) (ks : List Nat) : List (List Nat) :=
  (List.range (256 / span + 2)).filterMap fun b =>
    match ks.filter fun k => (o + k) / span - o / span == b with
    | [] => none
    | l => some l

/-- The rows of the tile that take part. -/
def rowOn (f : VFile) (pg : BitVec 2) (src : ASrc) (i : Nat) : Bool :=
  maskBit f pg 0 i && match src with
    | .tensor t => decide (t.o0 + i < t.d.ext.getD 0 0)
    | .group => true

/-- The origin of A along K. -/
def ASrc.o1 : ASrc → Nat
  | .tensor t => t.o1
  | .group => 0

/-- The checks of R169 from order 3 on. -/
def jobOf (s : State) (pg : BitVec 2) (e : VEntry) (src : ASrc) (b : TileSpec) (grouped : Bool) : Except Trap Job :=
  let f := s.vlc.vf
  let (ca, wa, ra) : Cls × Nat × Option RotOf := match src with
    | .tensor t => (t.d.cls, t.d.ew.bits, rotOfTensor t 1)
    | .group => (e.vt.cls, e.vt.sew.bits, rotOfTag (f.tagOf (field e.xa.toNat 0 8)))
  match pathOf ca wa b.d.cls b.d.ew.bits with
  | none => .error (tidTrap 9 b.tid)
  | some path =>
    let tagless := match src with
      | .tensor t => if t.d.tg then none else some t.tid
      | .group => none
    match (if grouped then tagless else none) with
    | some t => .error (tidTrap 9 t)
    | none =>
      if grouped && decide (b.d.ndim < 2) then .error (tidTrap 9 b.tid)
      else if (path == .narrow || path == .wideA || path == .wideB) && src.o1 % 128 != b.o0 % 128 then .error (shapeTrap 4)
      else
        let kin (k : Nat) : Bool := maskBit f pg 8 k && decide (b.o0 + k < b.d.ext.getD 0 0) && match src with
          | .tensor t => decide (t.o1 + k < t.d.ext.getD 1 0)
          | .group => true
        let used (k : Nat) : Bool := match src with
          | .tensor _ => true
          | .group => (List.range e.tsm).any fun i => decide (s.vlc.vstart.toNat ≤ i) && maskBit f pg 0 i &&
              decide (i * e.tsk + k < e.vl)
        let ks := (List.range e.tsk).filter fun k => kin k && used k
        let full := (List.range e.tsk).all kin && match src with
          | .tensor _ => true
          | .group => (List.range e.tsm).all fun i => !maskBit f pg 0 i || decide ((i + 1) * e.tsk ≤ e.vl)
        let isGroup := match src with
          | .group => true
          | .tensor _ => false
        match rotChecks s.gang path ra (rotOfTensor b 0) isGroup full (if path = .wideA then src.o1 else b.o0) e.tsk with
        | .error t => .error t
        | .ok (rot, fly) => .ok {
            path := path
            a := src
            b := b
            ca := ca
            wa := wa
            rot := rot
            fly := fly
            grouped := grouped
            blocks := kBlocks (if path = .half then 16 else 128) src.o1 ks
            cols := (activeCols f pg e.tsn).filter fun j => decide (b.o1 + j < b.d.ext.getD 1 0) }

/-! ### Rows of a product (R170 to R173) -/

/-- No scale is read. -/
def noScale (_ : Nat) (s : State) : State × Except Trap (Option Nat) := (s, .ok none)

/-- Scales take part on the R79 path only (R79, R80). -/
def Job.scaled (j : Job) : Bool :=
  match j.path with
  | .half | .ints => false
  | _ => true

/-- The class of A's and of B's codes after any narrowing. -/
def Job.clsA (j : Job) : Cls := if j.path = .wideA then j.b.d.cls else j.ca

def Job.clsB (j : Job) : Cls := if j.path = .wideB then j.ca else j.b.d.cls

def Job.flyRot (j : Job) : Option (Nat × BitVec 128) := if j.fly then j.rot else none

/-- Row `i` of A. -/
def jobRowA (j : Job) (p : Party) (e : VEntry) (i : Nat) (s : State) : State × Except Trap (List Blk × Fl) :=
  let r := match j.a with
    | .tensor t =>
      let idx (k : Nat) := [t.o0 + i, t.o1 + k, 0, 0]
      readLine (fun _ => true) (fun k => readTensor p (some false) t.d (idx k))
        (if j.scaled then fun k => readScale p t.d (idx k) else noScale) j.blocks s
    | .group =>
      readLine (fun k => decide (i * e.tsk + k < e.vl))
        (fun k s => (s, s.vlc.readElem (field e.xa.toNat 0 8) e.vt.sew.bits (i * e.tsk + k))) noScale j.blocks s
  match r with
  | (s, .error t) => (s, .error t)
  | (s, .ok bs) => (s, .ok (if j.path = .wideA then narrowLine j.ca j.clsA j.flyRot bs else (bs, 0)))

/-- Columns of B of expert `x`. -/
def jobColsB (j : Job) (p : Party) (x : Nat) : List Nat → State → State × Except Trap (List (Nat × List Blk) × Fl)
  | [], s => (s, .ok ([], 0))
  | c :: cs, s =>
    let idx (k : Nat) := [j.b.o0 + k, j.b.o1 + c, x, 0]
    match readLine (fun _ => true) (fun k => readTensor p (some true) j.b.d (idx k))
        (if j.scaled then fun k => readScale p j.b.d (idx k) else noScale) j.blocks s with
    | (s, .error t) => (s, .error t)
    | (s, .ok bs) =>
      let (bs, f) := if j.path = .wideB then narrowLine j.b.d.cls j.clsB j.flyRot bs else (bs, 0)
      match jobColsB j p x cs s with
      | (s, .error t) => (s, .error t)
      | (s, .ok (ys, g)) => (s, .ok ((c, bs) :: ys, f ||| g))

/-- The elements of a row. -/
def jobElems (j : Job) (e : VEntry) (i : Nat) (k : CoreSt) (a : List Blk) :
    List (Nat × List Blk) → Except Trap (List ((Nat × Nat) × Nat) × Fl)
  | [] => .ok ([], 0)
  | (c, b) :: t =>
    let cell := viewCell e.mvl e.d i c
    match accGet k cell with
    | .error r => .error r
    | .ok old =>
      let (x, f) := match j.path with
        | .ints => accInts j.ca j.wa j.b.d.cls j.b.d.ew.bits old a b
        | p => accLine (p != .half) j.clsA j.clsB e.frm ((j.rot.map Prod.fst).getD 0) old a b
      match jobElems j e i k a t with
      | .error r => .error r
      | .ok (xs, g) => .ok ((cell, x) :: xs, f ||| g)

/-- The stationary tile of B: its expert, its columns, and the flags of its narrowing. -/
abbrev Stationary := Option (Nat × List (Nat × List Blk) × Fl)

/-- The expert of a row: its tag byte under `mma.g`, else 0 (R173). -/
def rowExpert (j : Job) (p : Party) (i : Nat) (s : State) : State × Except Trap Nat :=
  match j.grouped, j.a with
  | true, .tensor t => readOperand s p t.d.rcl none (BitVec.ofNat 64 (t.d.tagbase + t.o0 + i)) 1
  | _, _ => (s, .ok 0)

/-- The tile of B for an expert: the stationary one, or a new one. -/
def stationTile (j : Job) (p : Party) (x : Nat) (st : Stationary) (s : State) :
    State × Except Trap (List (Nat × List Blk) × Fl) :=
  match st with
  | some (y, cols, fb) => if y = x then (s, .ok (cols, fb)) else jobColsB j p x j.cols s
  | none => jobColsB j p x j.cols s

/-- One row: its tag byte, then A and its scales, then B column by column (R177; assumption 90, DESIGN CHOICE: the order of their faults). -/
def jobRow (j : Job) (p : Party) (pg : BitVec 2) (e : VEntry) (i : Nat) (st : Stationary) (s : State) :
    State × Except Trap Stationary :=
  if !rowOn s.vlc.vf pg j.a i then (s, .ok st)
  else
    match rowExpert j p i s with
    | (s, .error t) => (s, .error t)
    | (s, .ok x) =>
      if j.grouped && decide (j.b.d.ext.getD 2 0 ≤ x) then (s, .ok st)
      else
        match jobRowA j p e i s with
        | (s, .error t) => (s, .error t)
        | (s, .ok (a, fa)) =>
          match stationTile j p x st s with
          | (s, .error t) => (s, .error t)
          | (s, .ok (cols, fb)) =>
            match jobElems j e i (s.core s.vlc.core) a cols with
            | .error t => (s, .error t)
            | .ok (xs, f) => (commitRow s xs (f ||| fa ||| fb), .ok (some (x, cols, fb)))

/-- Some byte of an element of a tensor lies in the line of an address. -/
def onLine (t : Desc) (va : Nat) (idx : List Nat) : Bool :=
  let x := t.place idx
  decide (x.1.toNat / 128 ≤ va / 128) && decide (va / 128 ≤ (x.1.toNat + (x.2 + t.width - 1) / 8) / 128)

/-- A row uses the line that a pin holds. -/
def rowUses (j : Job) (p : Party) (pg : BitVec 2) (s : State) (x : Pin) (i : Nat) : Bool :=
  if !rowOn s.vlc.vf pg j.a i then false
  else
    match (rowExpert j p i s).2 with
    | .error _ => false
    | .ok ex =>
      if j.grouped && decide (j.b.d.ext.getD 2 0 ≤ ex) then false
      else if x.b then
        !j.grouped || j.blocks.flatten.any fun k => j.cols.any fun c => onLine j.b.d x.va [j.b.o0 + k, j.b.o1 + c, ex, 0]
      else match j.a with
        | .tensor t => j.blocks.flatten.any fun k => onLine t.d x.va [t.o0 + i, t.o1 + k, 0, 0]
        | .group => false

/-- After a row, release the pins of the lines that no later row uses (R176). -/
def unpinRow (j : Job) (p : Party) (pg : BitVec 2) (tsm i : Nat) (s : State) : State :=
  unpin s fun x => !(List.range tsm).any fun r => decide (i < r) && rowUses j p pg s x r

/-- Rows in ascending order; a fault or a halt leaves VSTART at the lowest uncommitted row (R177). -/
def jobRows (j : Job) (p : Party) (pg : BitVec 2) (e : VEntry) : Nat → Nat → Stationary → State → State × VEnd
  | 0, _, _, s => (s, .done)
  | n + 1, i, st, s =>
    if s.vlc.spent then (s.stopAt i, .pause)
    else
      match jobRow j p pg e i st s with
      | (s, .error t) => (s.stopAt i, .fault t)
      | (s, .ok st) => jobRows j p pg e n (i + 1) st ((unpinRow j p pg e.tsm i s).modVlc Vlc.spend)

/-- Run a product once its checks are made; its pins go at its end, at a fault and at a halt (R176). -/
def runJob (pg : BitVec 2) (e : VEntry) (r : Except Trap Job) (s : State) : State × VEnd :=
  match r with
  | .error t => (s, .fault t)
  | .ok j =>
    let v0 := s.vlc.vstart.toNat
    let (s, r) := thenDone (jobRows j s.me pg e (e.tsm - v0) v0 none s) id
    (unpin s fun _ => true, r)

/-- `mma` and `mma.g` (R169, R170, R173). -/
def mmaBody (grouped : Bool) (pg : BitVec 2) : VBody := fun e s =>
  if e.tsm = 0 then (s, .fault (shapeTrap 3))
  else
    match specOf s.gang e.xa with
    | .error t => (s, .fault t)
    | .ok a =>
      match specOf s.gang e.xb with
      | .error t => (s, .fault t)
      | .ok b => runJob pg e (jobOf s pg e (.tensor a) b grouped) s

/-- `mmav` (R174); the scalar unit has checked the alignment of its group. -/
def mmavBody (pg : BitVec 2) : VBody := fun e s =>
  if e.tsm = 0 then (s, .fault (shapeTrap 3))
  else if field e.xa.toNat 8 56 ≠ 0 ∨ vlmaxOf e.vt < e.tsm * e.tsk then (s, .fault (shapeTrap 6))
  else
    match specOf s.gang e.xb with
    | .error t => (s, .fault t)
    | .ok b => runJob pg e (jobOf s pg e .group b false) s

/-! ### Tile stores and loads (R178 to R180) -/

/-- Check the bytes of an element that is no whole byte, lowest first. -/
def checkBytes (s : State) (p : Party) (va : Word) : Nat → State × Except Trap (List Dest)
  | 0 => (s, .ok [])
  | n + 1 =>
    match access s p .tensorWrite va 1 .write with
    | (s, .error t) => (s, .error t)
    | (s, .ok d) =>
      match checkBytes s p (va + 1) n with
      | (s, .error t) => (s, .error t)
      | (s, .ok ds) => (s, .ok (d :: ds))

/-- Merge bits into bytes at their homes: bits [8k + 7 : 8k] of the value and the mask go to byte `k` (R179). -/
def mergeBytes (p : Party) (val mask : Nat) : List Dest → State → State
  | [], s => s
  | d :: ds, s =>
    let s := (rmwAt s p d 1 fun o => o &&& (255 ^^^ (mask % 256)) ||| (val &&& mask) % 256).1
    mergeBytes p (val / 256) (mask / 256) ds s

/-- Store the code of a tensor element. -/
def writeTensor (p : Party) (t : Desc) (idx : List Nat) (code : Nat) (s : State) : State × VEnd :=
  let (va, bit) := t.place idx
  let w := t.width
  if 8 ≤ w then
    match access s p .tensorWrite va (w / 8) .write with
    | (s, .error e) => (s, .fault e)
    | (s, .ok d) => (storeAt s p d (w / 8) code .plain t.rcl, .done)
  else
    match checkBytes s p va (ceilDiv (bit + w) 8) with
    | (s, .error e) => (s, .fault e)
    | (s, .ok ds) => (mergeBytes p (code % 2 ^ w * 2 ^ bit) ((2 ^ w - 1) * 2 ^ bit) ds s, .done)

/-- The format that an accumulator element takes in a tensor without rotation (R178). -/
def storeCode (d : Desc) (sigma : Option Nat) (t : Nat) : Nat × Fl :=
  if d.cls.isFp then
    if d.cls = .fp32 ∧ sigma.isNone then (t, 0) else divideElem .fp32 d.cls sigma t
  else (wrapI d.ew.bits (intVal (d.cls == .i) 32 t), 0)

/-- The accumulator value of a tensor element without rotation (R180); `x` is its FP32 pattern after any inverse. -/
def scaleFp32 (sigma : Option Nat) (x : Nat) : Nat × Fl :=
  match sigma with
  | none => (x, 0)
  | some b =>
    if !sigmaOk b then (Cls.canonNan .fp32, flNV)
    else
      match fpVal .fp32 x with
      | .fin y => roundFp .fp32 0 false (mulExact y (sigmaVal b))
      | v => roundVal .fp32 0 false v

def loadCode (d : Desc) (sigma : Option Nat) (code : Nat) : Nat × Fl :=
  if d.cls.isFp then
    let (x, f) := if d.cls = .fp32 then (code, 0) else cvtFpFp d.cls .fp32 0 false code
    let (y, g) := scaleFp32 sigma x
    (y, f ||| g)
  else (wrapI 32 (intVal (d.cls == .i) d.ew.bits code), 0)

/-- The rules of R178 on a rotated tensor. -/
def tileRot (g : Gang) (t : TileSpec) (tsm tsn : Nat) : Option Trap :=
  if !t.d.ren then none
  else
    let n := 2 ^ (t.d.rblk + 4)
    let (o, x) := if t.d.raxis = 0 then (t.o0, tsm) else (t.o1, tsn)
    if 1 < t.d.raxis ∨ !t.d.cls.isFp then some (rotTrap 2)
    else if o % n ≠ 0 ∨ x % n ≠ 0 then some (rotTrap 5)
    else seedVer g (rotOfTensor t 0)

/-- Elements of a tile that transform together, as (row, column): one element, or a block along the rotation axis. -/
def tileBlocks (t : TileSpec) (i0 tsn : Nat) : List (List (Nat × Nat)) :=
  let n := 2 ^ (t.d.rblk + 4)
  if !t.d.ren then (List.range tsn).map fun j => [(i0, j)]
  else if t.d.raxis = 0 then (List.range tsn).map fun j => (List.range n).map fun k => (i0 + k, j)
  else (List.range (tsn / n)).map fun b => (List.range n).map fun k => (i0, n * b + k)

/-- Rows that commit together. -/
def tileStep (t : TileSpec) : Nat := if t.d.ren ∧ t.d.raxis = 0 then 2 ^ (t.d.rblk + 4) else 1

/-- An element of the tile is active. -/
def tileOn (f : VFile) (pg : BitVec 2) (t : TileSpec) (x : Nat × Nat) : Bool :=
  maskBit f pg 0 x.1 && maskBit f pg 4 x.2 && decide (t.o0 + x.1 < t.d.ext.getD 0 0) && decide (t.o1 + x.2 < t.d.ext.getD 1 0)

def tileIdx (t : TileSpec) (x : Nat × Nat) : List Nat := [t.o0 + x.1, t.o1 + x.2, 0, 0]

/-- Read what is active of a block: codes by `rd`, and scales. -/
def readTileBlock (p : Party) (t : TileSpec) (active : Nat × Nat → Bool) (rd : Nat × Nat → State → State × Except Trap Nat) :
    List (Nat × Nat) → State → State × Except Trap (List (Option Nat × Option Nat))
  | [], s => (s, .ok [])
  | x :: xs, s =>
    if !active x then
      match readTileBlock p t active rd xs s with
      | (s, .error e) => (s, .error e)
      | (s, .ok ys) => (s, .ok ((none, none) :: ys))
    else
      match rd x s with
      | (s, .error e) => (s, .error e)
      | (s, .ok c) =>
        match readScale p t.d (tileIdx t x) s with
        | (s, .error e) => (s, .error e)
        | (s, .ok g) =>
          match readTileBlock p t active rd xs s with
          | (s, .error e) => (s, .error e)
          | (s, .ok ys) => (s, .ok ((some c, g) :: ys))

/-- The codes of a block on their way to memory. -/
def storeBlock (g : Gang) (t : TileSpec) (xs : List (Option Nat × Option Nat)) : List Nat × Fl :=
  if t.d.ren then
    rotateBlock true .fp32 32 t.d.cls (t.d.rblk + 4) (g.ss[t.d.rseed]?.getD 0)
      (if t.d.sck = 0 then [] else xs.map Prod.snd) false (xs.map Prod.fst)
  else
    let rs := xs.map fun x => storeCode t.d x.2 (x.1.getD 0)
    (rs.map Prod.fst, rs.foldl (fun f r => f ||| r.2) 0)

/-- The accumulator values of a block that comes from memory. -/
def loadBlock (g : Gang) (t : TileSpec) (xs : List (Option Nat × Option Nat)) : List Nat × Fl :=
  if t.d.ren then
    let (ys, f) := rotateBlock false t.d.cls t.d.cls.container .fp32 (t.d.rblk + 4) (g.ss[t.d.rseed]?.getD 0) [] false (xs.map Prod.fst)
    let rs := (ys.zip xs).map fun y => if y.2.1.isSome then scaleFp32 y.2.2 y.1 else (0, 0)
    (rs.map Prod.fst, rs.foldl (fun f r => f ||| r.2) f)
  else
    let rs := xs.map fun x => loadCode t.d x.2 (x.1.getD 0)
    (rs.map Prod.fst, rs.foldl (fun f r => f ||| r.2) 0)

/-- Store the active codes of a block. -/
def writeTileBlock (p : Party) (t : TileSpec) (active : Nat × Nat → Bool) : List ((Nat × Nat) × Nat) → State → State × VEnd
  | [], s => (s, .done)
  | (x, c) :: xs, s =>
    if active x then
      match writeTensor p t.d (tileIdx t x) c s with
      | (s, .done) => writeTileBlock p t active xs s
      | r => r
    else writeTileBlock p t active xs s

/-- The blocks of the rows that a store commits together. -/
def storeRows (p : Party) (pg : BitVec 2) (e : VEntry) (t : TileSpec) (fl : Fl) : List (List (Nat × Nat)) → State → State × VEnd
  | [], s => (s.modVlc fun v => v.orFlags fl, .done)
  | b :: bs, s =>
    let on := tileOn s.vlc.vf pg t
    if !b.any on then storeRows p pg e t fl bs s
    else
      match readTileBlock p t on (fun x s => (s, accGet (s.core s.vlc.core) (viewCell e.mvl e.d x.1 x.2))) b s with
      | (s, .error r) => (s, .fault r)
      | (s, .ok xs) =>
        let (ys, f) := storeBlock s.gang t xs
        match writeTileBlock p t on (b.zip ys) s with
        | (s, .done) => storeRows p pg e t (fl ||| f) bs s
        | r => r

/-- The blocks of the rows that a load commits together. -/
def loadRows (p : Party) (pg : BitVec 2) (e : VEntry) (t : TileSpec) (fl : Fl) (out : List ((Nat × Nat) × Nat)) :
    List (List (Nat × Nat)) → State → State × VEnd
  | [], s => (commitRow s out fl, .done)
  | b :: bs, s =>
    let on := tileOn s.vlc.vf pg t
    if !b.any on then loadRows p pg e t fl out bs s
    else
      match readTileBlock p t on (fun x => readTensor p none t.d (tileIdx t x)) b s with
      | (s, .error r) => (s, .fault r)
      | (s, .ok xs) =>
        let (ys, f) := loadBlock s.gang t xs
        let new := ((b.zip ys).filter fun x => on x.1).map fun x => (viewCell e.mvl e.d x.1.1 x.1.2, x.2)
        loadRows p pg e t (fl ||| f) (out ++ new) bs s

/-- Row groups in ascending order; VSTART counts rows (R31, R178, R182). -/
def tileGroups (n : Nat) (f : Nat → State → State × VEnd) : Nat → Nat → State → State × VEnd
  | 0, _, s => (s, .done)
  | k + 1, b, s =>
    if s.vlc.spent then (s.stopAt (n * b), .pause)
    else
      match f (n * b) s with
      | (s, .done) => tileGroups n f k (b + 1) (s.modVlc Vlc.spend)
      | (s, r) => (s.stopAt (n * b), r)

/-- `mst` and `mld` (R178, R180).  A VSTART inside a block of rows goes back to the block's first row (assumption 89, DESIGN CHOICE). -/
def tileBody (store : Bool) (pg : BitVec 2) : VBody := fun e s =>
  if e.tsm = 0 then (s, .fault (shapeTrap 3))
  else
    match specOf s.gang e.xb with
    | .error t => (s, .fault t)
    | .ok t =>
      match tileRot s.gang t e.tsm e.tsn with
      | some r => (s, .fault r)
      | none =>
        let p := s.me
        let n := tileStep t
        let b0 := s.vlc.vstart.toNat / n
        thenDone (tileGroups n (fun i s =>
          let bs := tileBlocks t i e.tsn
          if store then storeRows p pg e t 0 bs s else loadRows p pg e t 0 [] bs s) (e.tsm / n - b0) b0 s) id

/-! ### One line of a view (R181) -/

/-- The line that x[B] names: index and whether it is a column, or SHAPE. -/
def lineOf (e : VEntry) : Option (Nat × Bool) :=
  let x := e.xb.toNat
  if 512 ≤ x ∨ e.mvl ≤ field x 0 8 then none else some (field x 0 8, bitOf x 8)

def lineCell (e : VEntry) (t : Nat) (l : Nat × Bool) (k : Nat) : Nat × Nat :=
  if l.2 then viewCell e.mvl t k l.1 else viewCell e.mvl t l.1 k

def lineOn (f : VFile) (pg : BitVec 2) (l : Nat × Bool) (k : Nat) : Bool := maskBit f pg (if l.2 then 0 else 4) k

/-- Read the cells of a line. -/
def accGetAll (k : CoreSt) : List (Nat × Nat) → Except Trap (List Nat)
  | [] => .ok []
  | c :: cs =>
    match accGet k c with
    | .error t => .error t
    | .ok x =>
      match accGetAll k cs with
      | .error t => .error t
      | .ok xs => .ok (x :: xs)

/-- `mrd`. -/
def mrdBody (pg : BitVec 2) : VBody := fun e s =>
  match lineOf e with
  | none => (s, .fault (shapeTrap 7))
  | some l =>
    if e.vl = 0 then (s.clearVstart, .done)
    else
      let f := s.vlc.vf
      let on := (List.range (min e.vl e.mvl)).filter (lineOn f pg l)
      match accGetAll (s.core s.vlc.core) (on.map (lineCell e e.a l)) with
      | .error t => (s, .fault t)
      | .ok xs =>
        let zero := (List.range e.vl).filter fun k => lineOn f pg l k && decide (e.mvl ≤ k)
        let clear := (List.range e.vl).filter fun k => !lineOn f pg l k && e.vt.mz
        let v := (on.zip xs).foldl (fun v x => v.writeElem e.d 32 x.1 x.2) s.vlc
        let v := zero.foldl (fun v k => v.writeElem e.d 32 k 0) v
        let f := clear.foldl (fun (f : VFile) k => f.setElem e.d 32 k 0) v.vf
        (({ s with vlc := v.setFile ((f.tail e.vt e.vt.cls e.d (grpNames e.vt) 32 e.vl).setTag e.d (grpNames e.vt) 0) }
          : State).clearVstart, .done)

/-- `mwr`. -/
def mwrBody (pg : BitVec 2) : VBody := fun e s =>
  match lineOf e with
  | none => (s, .fault (shapeTrap 7))
  | some l =>
    if tagOn (s.vlc.vf.tagOf e.a) then (s, .fault (rotTrap 3))
    else
      let on := (List.range (min e.vl e.mvl)).filter (lineOn s.vlc.vf pg l)
      match readAll s.vlc (on.map fun k => (e.a, 32, k)) with
      | .error t => (s, .fault t)
      | .ok xs => ((commitRow s ((on.map (lineCell e e.d l)).zip xs) 0).clearVstart, .done)

end Sys2Proof.Machine
end

