-- ==== Sys2Proof/Machine/Plans.lean ====
section
/-! DEFINITION. Access plans: building, binding and staleness (spec/10_tables.md R296 to R305), and what the plan
instructions do at the head of the queue (R307 to R313). -/

namespace Sys2Proof.Machine

/-! ### Building (R299) -/

/-- Positions with a target, in ascending order. -/
def groupOf (t : Nat) (xs : List (Option Nat)) : List Nat :=
  (xs.zipIdx).filterMap fun x => if x.1 = some t then some x.2 else none

/-- The distinct targets, ascending. -/
def targetsOf (xs : List (Option Nat)) : List Nat := xs.foldl (fun l x =>
  match x with
  | some t => insertSorted t l
  | none => l) []

/-- Whether a wave can take a target. -/
def waveFits (w : List Nat) (t : Nat) : Bool :=
  decide (w.length < 64) && w.all fun u => u % 64 != t % 64 && u % 61 != t % 61

/-- Place a target in the first wave that fits. -/
def placeTarget (t : Nat) : List (List Nat) → List (List Nat)
  | [] => [[t]]
  | w :: ws => if waveFits w t then (w ++ [t]) :: ws else w :: placeTarget t ws

/-- Entries with running group starts. -/
def entriesFrom (xs : List (Option Nat)) : Nat → List Nat → List (Nat × Nat × Nat)
  | _, [] => []
  | g, t :: ts => let n := (groupOf t xs).length; (t, g, n) :: entriesFrom xs (g + n) ts

/-- A plan from its positions: the in-bound target of each, and whether it was active (R299). -/
def buildPlan (xs : List (Bool × Option Nat)) (bound iw : Nat) (ls inverse : Bool) : Plan :=
  let ins := xs.map fun x => if x.1 then x.2 else none
  let waves := (targetsOf ins).foldl (fun ws t => placeTarget t ws) []
  let order := waves.flatten
  let oob := ((xs.zip ins).zipIdx).filterMap fun x =>
    if x.1.2.isNone then some (x.2 + if x.1.1.1 then 0 else 2 ^ 15) else none
  { oobn := oob.length
    wseed := 0
    blen := 0
    baddr := 0
    bound := bound
    waves := waves.length
    count := xs.length
    iw := iw
    ls := ls
    inverse := inverse
    st := 1
    entries := entriesFrom ins 0 order
    positions := order.flatMap (groupOf · ins) ++ oob
    granule := 0 }

/-- The in-bound test of R299. -/
def inBound (ls : Bool) (bound v : Nat) : Option Nat :=
  if (if ls then decide (v < 2 ^ 32) && decide (v % 2 ^ 22 < bound) else decide (v < bound)) then some v else none

/-! ### Plan objects (R297, R298) -/

/-- The header as a number. -/
def Plan.header (p : Plan) : Nat :=
  p.st + (if p.inverse then 4 else 0) + (if p.ls then 8 else 0) + p.iw * 2 ^ 4 + p.count * 2 ^ 16
    + p.entries.length * 2 ^ 32 + p.waves * 2 ^ 48 + p.bound * 2 ^ 64 + p.baddr.toNat * 2 ^ 128 + p.blen * 2 ^ 192
    + p.wseed * 2 ^ 256 + p.oobn * 2 ^ 304

/-- A schedule entry as a dword. -/
def entryDword (x : Nat × Nat × Nat) : Nat := x.1 + x.2.1 * 2 ^ 32 + x.2.2 * 2 ^ 48

/-- The bytes of the body. -/
def Plan.bodyBytes (p : Plan) : List Byte :=
  p.entries.flatMap (fun x => natBytes (entryDword x) 8) ++ p.positions.flatMap fun x => natBytes x 2

/-- Bytes of the object. -/
def Plan.size (p : Plan) : Nat := 64 + 8 * p.entries.length + 2 * p.count

/-- The out-of-bound positions. -/
def Plan.oob (p : Plan) : List Nat := p.positions.drop (p.count - p.oobn)

/-- The positions of an entry. -/
def Plan.members (p : Plan) (e : Nat × Nat × Nat) : List Nat := (p.positions.drop e.2.1).take e.2.2

/-- The target of a position, if it is in bound. -/
def Plan.targetAt (p : Plan) (i : Nat) : Option Nat := (p.entries.find? fun e => (p.members e).contains i).map (·.1)

/-! ### Slots, bodies and watches (R296, R301, R303) -/

def Vlc.plan (v : Vlc) (slot : Nat) : Option Plan := (v.plans.find? fun x => x.1 == slot).map (·.2)

/-- The plans with one slot changed, in rising order of slots. -/
def setPlan (ps : Tab Plan) (slot : Nat) (p : Option Plan) : Tab Plan :=
  (ps.filter fun x => decide (x.1 < slot)) ++ (match p with
    | some p => [(slot, p)]
    | none => []) ++ ps.filter fun x => decide (slot < x.1)

/-- The first granule of the highest run of `n` free granules below `top`: `run` are free above it. -/
def findRun (used : Nat → Bool) (n : Nat) : Nat → Nat → Option Nat
  | 0, run => if run = n then some 0 else none
  | top + 1, run =>
    if run = n then some (top + 1)
    else if used top then findRun used n top 0 else findRun used n top (run + 1)

/-- Where the body of a plan goes; the slot's old body counts as free (R296, R307). -/
def allocBody (s : State) (slot : Nat) (p : Plan) : Option Nat :=
  let v := s.vlc
  match regionOf s.gang v.core with
  | none => none
  | some (_, len) =>
    if len = 0 then none
    else
      let s0 := s.modVlc fun v => { v with plans := setPlan v.plans slot none }
      let used := liveBodies s0 v.gang v.core
      findRun (fun g => used.any fun b => decide (b.1 ≤ g) && decide (g < b.1 + b.2)) (bodyGranules p) (len / 16) 0

/-- Remove every watch of a plan. -/
def unwatch (s : State) (core slot plan : Nat) : State :=
  { s with watches := s.watches.filter fun w => !(w.core == core && w.slot == slot && w.plan == plan) }

/-- Record a watch of a line; a full directory evicts its oldest entry (R303). -/
def addWatch (s : State) (w : Watch) : State :=
  let same (x : Watch) : Bool := homeDie (x.line * 128) == homeDie (w.line * 128) && homeSlice (x.line * 128) == homeSlice (w.line * 128)
  let mine := s.watches.filter same
  let s := if mine.length < 64 then s
    else
      match mine with
      | [] => s
      | o :: _ => markStale { s with watches := s.watches.erase o } o.core o.slot o.plan
  { s with watches := s.watches ++ [w] }

/-- Put a plan into a slot: the old plan and its watches go, and the body is written (R307). -/
def installPlan (s : State) (slot : Nat) (p : Plan) (granule : Nat) (lines : List Nat) : State :=
  let v := s.vlc
  let p := { p with granule := granule }
  let s := unwatch s v.core v.slot slot
  let s := s.modVlc fun v => { v with plans := setPlan v.plans slot (some p) }
  let base := ((regionOf s.gang v.core).getD (0, 0)).1 + granule * 16
  let bytes := p.bodyBytes
  let s := { s with mem := memWriteBytes s.mem (lsAddr v.core base) bytes }
  let s := s.modCore v.core fun c => { c with
    lsPoison := c.lsPoison.filter fun w => !(decide (base < w * 4 + 4) && decide (w * 4 < base + bytes.length)) }
  lines.foldl (fun s l => addWatch s ⟨l, v.core, v.slot, slot⟩) s

/-- PLAN_LIMIT with the slot and the rule's number (R307). -/
def planLimit (slot rule : Nat) : Trap := trapInfo fcPLAN_LIMIT (slot + rule * 256)

/-- Build into a slot, or PLAN_LIMIT. -/
def buildInto (s : State) (slot : Nat) (p : Plan) (lines : List Nat) : State × Except Trap Plan :=
  match allocBody s slot p with
  | none => (s, .error (planLimit slot 3))
  | some g => (installPlan s slot p g lines, .ok { p with granule := g })

/-! ### Reading an index array (R301, R307) -/

/-- Read indices at the homes: the values and the lines they lie in. -/
def readIndices (p : Party) (w : Nat) : Nat → Word → State → State × Except Trap (List Nat × List Nat)
  | 0, _, s => (s, .ok ([], []))
  | n + 1, va, s =>
    match access s p .planArray va w .read with
    | (s, .error t) => (s, .error t)
    | (s, .ok d) =>
      let (s, x) := loadAt s p d w .bypass
      match readIndices p w n (va + BitVec.ofNat 64 w) s with
      | (s, .error t) => (s, .error t)
      | (s, .ok (xs, ls)) => (s, .ok (x :: xs, insertSorted (d.pa / 128) ls))

/-- The array of a binding: ALIGN first, then the elements. -/
def readArray (s : State) (va : Word) (iw count : Nat) : State × Except Trap (List Nat × List Nat) :=
  let w := 2 * 2 ^ iw
  if va.toNat % w ≠ 0 then (s, .error (trapAt fcALIGN va 0)) else readIndices s.me w count va s

/-! ### Staleness (R304) -/

/-- The plan of a slot made fresh at a start with VSTART 0. -/
def freshPlan (s : State) (slot : Nat) (p : Plan) : State × Except Trap Plan :=
  if p.st ≠ 3 then (s, .ok p)
  else if s.funcmode.getLsbD 3 then (s, .error (trapInfo fcSTALE_PLAN slot))
  else
    match readArray s (p.baddr.zeroExtend 64) p.iw p.count with
    | (s, .error t) => (s, .error t)
    | (s, .ok (vs, lines)) =>
      let xs := vs.zipIdx.map fun x => (!p.oob.contains (x.2 + 2 ^ 15), inBound p.ls p.bound x.1)
      buildInto s slot { buildPlan xs p.bound p.iw p.ls p.inverse with st := 2, baddr := p.baddr, blen := p.blen } lines

/-! ### Bodies: building from vectors, memory and plans -/

def planSlotTrap (slot : Nat) : Trap := trapInfo fcPLAN_SLOT slot

def planFormTrap (slot why : Nat) : Trap := trapInfo fcPLAN_FORM (slot + why * 256)

/-- End a plan instruction with a build. -/
def endBuild (r : State × Except Trap Plan) : State × VEnd :=
  match r with
  | (s, .error t) => (s, .fault t)
  | (s, .ok _) => (s.clearVstart, .done)

/-- Whether the common limits of R307 check 1 fail. -/
def boundBad (ls : Bool) (bound : Nat) : Bool := bound == 0 || decide (2 ^ 32 < bound) || (ls && decide (2 ^ 22 < bound))

/-- `plan.mk` (R307). -/
def planMkBody (pg : BitVec 2) : VBody := fun e s =>
  let x := e.xb.toNat
  let ls := bitOf x 63
  let bound := field x 0 33
  if boundBad ls bound ∨ field x 33 30 ≠ 0 then (s, .fault (planLimit e.d 1))
  else
    match activeElems e pg s.vlc e.vl 0 with
    | .error t => (s, .fault t)
    | .ok vs =>
      let xs := vs.map fun v => (v.isSome, v.bind (inBound ls bound))
      endBuild (buildInto s e.d (buildPlan xs bound (ewNum e.vt.sew - 3) ls false) [])

/-- `plan.mkm` (R307). -/
def planMkmBody (pg : BitVec 2) : VBody := fun e s =>
  let x := e.xb.toNat
  let ls := bitOf x 63
  let bound := field x 0 33
  let iw := field x 61 2
  let count := field x 48 13
  if boundBad ls bound ∨ iw = 3 ∨ 4096 < count ∨ field x 33 15 ≠ 0 then (s, .fault (planLimit e.d 1))
  else
    match readArray s e.xa iw count with
    | (s, .error t) => (s, .fault t)
    | (s, .ok (vs, lines)) =>
      let xs := vs.zipIdx.map fun v => (s.vlc.active pg v.2, inBound ls bound v.1)
      endBuild (buildInto s e.d { buildPlan xs bound iw ls false with
        st := 2, baddr := BitVec.ofNat 56 e.xa.toNat, blen := count * (2 * 2 ^ iw) } lines)

/-- `plan.inv` (R308). -/
def planInvBody : VBody := fun e s =>
  match s.vlc.plan e.a with
  | none => (s, .fault (planSlotTrap e.a))
  | some p =>
    match freshPlan s e.a p with
    | (s, .error t) => (s, .fault t)
    | (s, .ok p) =>
      let q := { p with inverse := !p.inverse }
      if e.d = e.a then ((s.modVlc fun v => { v with plans := setPlan v.plans e.a (some q) }).clearVstart, .done)
      else endBuild (buildInto s e.d { q with st := 1, baddr := 0, blen := 0 } [])

/-- The positions of a composition (R308). -/
def composeAt (a b : Plan) (i : Nat) : Bool × Option Nat :=
  match a.targetAt i with
  | none => (!a.oob.contains (i + 2 ^ 15), none)
  | some t => (true, if t < b.count then b.targetAt t else none)

/-- A slot whose plan is stale is handled under R304; an empty slot is left to the checks (R308). -/
def freshSlot (s : State) (slot : Nat) : State × Except Trap Unit :=
  match s.vlc.plan slot with
  | none => (s, .ok ())
  | some p =>
    match freshPlan s slot p with
    | (s, .error t) => (s, .error t)
    | (s, .ok _) => (s, .ok ())

/-- The composition of the plans of two slots, both fresh (R308). -/
def composeSlots (e : VEntry) (s : State) : State × VEnd :=
  match s.vlc.plan e.a, s.vlc.plan e.b with
  | none, _ => (s, .fault (planSlotTrap e.a))
  | some _, none => (s, .fault (planSlotTrap e.b))
  | some a, some b =>
    if a.inverse ∨ a.ls then (s, .fault (planFormTrap e.a 1))
    else if b.inverse then (s, .fault (planFormTrap e.b 1))
    else
      let xs := (List.range a.count).map (composeAt a b)
      endBuild (buildInto s e.d (buildPlan xs b.bound (Config.composedIw a.iw b.iw % 3) b.ls false) [])

/-- `plan.cmp` (R308). -/
def planCmpBody : VBody := fun e s =>
  match freshSlot s e.a with
  | (s, .error t) => (s, .fault t)
  | (s, .ok ()) =>
    match freshSlot s e.b with
    | (s, .error t) => (s, .fault t)
    | (s, .ok ()) => composeSlots e s

/-! ### Applies (R309 to R311) -/

/-- What a scatter does with values. -/
inductive PscOp where
  | set | add | max
deriving DecidableEq, Repr

/-- combine(v, e), and the update of the old value at the home. -/
def pscCombine (op : PscOp) (c : Cls) (w frm a b : Nat) : Nat × Fl :=
  match op with
  | .set => (b, 0)
  | .add => alu .add c w frm a b 0
  | .max => alu .max c w frm a b 0

/-- Where a target lies: a virtual address, an offset in the gang's region of a core, which starts at `base` there, or nothing (R300). -/
inductive Target where
  | va (a : Word)
  | ls (core base off : Nat)
  | missing
deriving DecidableEq, Repr

def targetPlace (s : State) (p : Plan) (e : VEntry) (t : Nat) : Target :=
  let n := e.vt.mew.bits / 8
  if !p.ls then .va (e.xb + BitVec.ofNat 64 (t * n))
  else
    let off := (e.xb + BitVec.ofNat 64 (t % 2 ^ 22 * n)).toNat
    match coreOfIdent (t / 2 ^ 22) with
    | none => .missing
    | some c =>
      match regionOf s.gang c with
      | none => .missing
      | some (base, len) =>
        if off % n ≠ 0 ∨ len < off + n then .missing
        else if (liveBodies s s.vlc.gang c).any fun b =>
            decide (off / 16 < b.1 + b.2) && decide (b.1 ≤ (off + n - 1) / 16) then .missing
        else .ls c base off

/-- Check a target under R219: its place.  A target in an LS faults with its offset in the gang's region (R300, R309). -/
def targetAccess (s : State) (party : Party) (rule : AccRule) (acc : Acc) (n : Nat) : Target → State × Except Trap Dest
  | .va a => access s party rule a n acc
  | .ls c base off =>
    match (if readsMem acc then poisonRule s party .plain (BitVec.ofNat 64 off) n (.ls c (base + off)) else none) with
    | some t => (s, .error t)
    | none => (s, .ok (.ls c (base + off)))
  | .missing => (s, .error (trapInfo fcPROT 0))

/-- A poisoned word of an entry or of its positions in the body (R311). -/
def entryPoisoned (s : State) (p : Plan) (u : Nat) (e : Nat × Nat × Nat) : Bool :=
  let v := s.vlc
  let base := ((regionOf s.gang v.core).getD (0, 0)).1 + p.granule * 16
  let pos := base + 8 * p.entries.length + 2 * e.2.1
  (s.core v.core).lsPoison.any fun w =>
    (decide (base + 8 * u < w * 4 + 4) && decide (w * 4 < base + 8 * u + 8)) ||
    (decide (pos < w * 4 + 4) && decide (w * 4 < pos + 2 * e.2.2))

/-- Set bits of p15. -/
def markP15 (v : Vlc) (is : List Nat) (b : Bool) : Vlc :=
  { v with vf := is.foldl (fun f i => f.setPbit 15 i b) v.vf }

/-- Combine the elements of a group in ascending order. -/
def combineAll (op : PscOp) (e : VEntry) (v : Vlc) (acc : Nat × Fl) : List Nat → Except Trap (Nat × Fl)
  | [] => .ok acc
  | i :: is =>
    match v.readElem e.d e.vt.sew.bits i with
    | .error t => .error t
    | .ok x =>
      let (r, f) := pscCombine op e.vt.cls e.vt.sew.bits e.frm acc.1 x
      combineAll op e v (r, acc.2 ||| f) is

/-- One home update of a scatter. -/
def pscUpdate (op : PscOp) (party : Party) (e : VEntry) (d : Dest) (x : Nat × Fl) (s : State) : State :=
  let n := e.vt.mew.bits / 8
  let c := e.vt.cls
  let w := e.vt.sew.bits
  let (s, fl) :=
    if op = .set then
      ((match d with
        | .ls _ _ => storeAt s party d n (regToMem e x.1) .plain
        | .phys pa kind => bypassStore s party pa n (regToMem e x.1) kind), x.2)
    else
      let (s', old) := rmwAt s party d n fun o => (pscCombine op c w e.frm o x.1).1
      (s', x.2 ||| (pscCombine op c w e.frm old x.1).2)
  let s := match d with
    | .ls core off => feFill s core (off / 16)
    | .phys _ _ => s
  s.modVlc fun v => v.orFlags fl

/-- One entry of an apply: `op` none gathers. -/
def applyEntry (op : Option PscOp) (pg : BitVec 2) (party : Party) (p : Plan) (w0 : Nat) (e : VEntry) (u : Nat) (s : State) :
    State × VEnd :=
  let ent := p.entries.getD u (0, 0, 0)
  if entryPoisoned s p u ent then (s, .fault (trapInfo fcPOISON 5))
  else
    let g := ((p.members ent).filter fun q => decide (w0 ≤ q) && decide (q < w0 + e.vl) && s.vlc.active pg (q - w0)).map (· - w0)
    match g with
    | [] => (s, .done)
    | i0 :: is =>
      let t := targetPlace s p e ent.1
      if t = .missing then (s.modVlc fun v => markP15 v g true, .done)
      else
        let n := e.vt.mew.bits / 8
        match op with
        | none =>
          match targetAccess s party .load .read n t with
          | (s, .error tr) => (s, .fault tr)
          | (s, .ok d) =>
            let (s, x) := loadAt s party d n .plain
            (s.modVlc fun v => g.foldl (fun v i => v.writeElem e.d e.vt.sew.bits i (memToReg e x)) v, .done)
        | some op =>
          match targetAccess s party .atomic (if op = .set then .write else .atomic) n t with
          | (s, .error tr) => (s, .fault tr)
          | (s, .ok d) =>
            match s.vlc.readElem e.d e.vt.sew.bits i0 with
            | .error tr => (s, .fault tr)
            | .ok x0 =>
              match combineAll op e s.vlc (x0, 0) is with
              | .error tr => (s, .fault tr)
              | .ok x => (pscUpdate op party e d x s, .done)

/-- What follows the last entry: p15, the mask policy, the tail and the tag (R309). -/
def closeApply (op : Option PscOp) (pg : BitVec 2) (p : Plan) (w0 : Nat) (e : VEntry) (s : State) : State :=
  if e.vl = 0 then s
  else s.modVlc fun v =>
    let gone := (List.range e.vl).filter fun i => v.active pg i &&
      (decide (p.count ≤ w0 + i) || p.oob.contains (w0 + i) || p.oob.contains (w0 + i + 2 ^ 15))
    let v := markP15 v gone true
    let f1 := match op with
      | some _ => v.vf
      | none =>
        let z := (List.range e.vl).filter fun i => e.vt.mz && (!v.active pg i || v.vf.pbit 15 i)
        let f2 := z.foldl (fun (f : VFile) i => f.setElem e.d e.vt.sew.bits i 0) v.vf
        (f2.tail e.vt e.vt.cls e.d (grpNames e.vt) e.vt.sew.bits e.vl).setTag e.d (grpNames e.vt) 0
    v.setFile (f1.ptail e.vt 15 e.vl)

/-- `pga`, `psc`, `psc.add` and `psc.max` (R309). -/
def applyBody (op : Option PscOp) (pg : BitVec 2) : VBody := fun e s =>
  let slot := e.a
  match s.vlc.plan slot with
  | none => (s, .fault (planSlotTrap slot))
  | some p =>
    if p.inverse != op.isSome then (s, .fault (planFormTrap slot 1))
    else
      let start := s.vlc.vstart.toNat
      match (if start = 0 then freshPlan s slot p else (s, .ok p)) with
      | (s, .error t) => (s, .fault t)
      | (s, .ok p) =>
        let w0 := if e.inLoop then e.vidx.toNat else 0
        let party := s.me
        let s := if start = 0 then s.modVlc fun v => markP15 v (List.range e.vl) false else s
        thenDone (iterate (applyEntry op pg party p w0 e) (p.entries.length - start) start s) (closeApply op pg p w0 e)

/-! ### Spilling, releasing and querying (R313) -/

/-- Store 16-bit values in ascending order. -/
def storeHalves (p : Party) (va : Word) : List Nat → State → State × VEnd
  | [], s => (s, .done)
  | x :: xs, s =>
    match access s p .store va 2 .write with
    | (s, .error t) => (s, .fault t)
    | (s, .ok d) => storeHalves p (va + 2) xs (storeAt s p d 2 x .plain)

/-- `plan.st`. -/
def planStBody : VBody := fun e s =>
  match s.vlc.plan e.d with
  | none => (s, .fault (planSlotTrap e.d))
  | some p =>
    if e.xa.toNat % 64 ≠ 0 then (s, .fault (trapAt fcALIGN e.xa 0))
    else
      let party := s.me
      match storeDwords party e.xa (natDwords p.header 8 ++ p.entries.map fun x => BitVec.ofNat 64 (entryDword x)) s with
      | (s, .done) => thenDone (storeHalves party (e.xa + BitVec.ofNat 64 (64 + 8 * p.entries.length)) p.positions s) id
      | r => r

/-- Read 16-bit values in ascending order. -/
def readHalves (p : Party) : Nat → Word → State → State × Except Trap (List Nat)
  | 0, _, s => (s, .ok [])
  | n + 1, va, s =>
    match readMem s p .load va 2 .plain with
    | (s, .error t) => (s, .error t)
    | (s, .ok x) =>
      match readHalves p n (va + 2) s with
      | (s, .error t) => (s, .error t)
      | (s, .ok xs) => (s, .ok (x :: xs))

/-- A header that R313 refuses. -/
def headerBad (h : Nat) : Bool :=
  field h 0 2 == 0 || field h 4 2 == 3 || decide (4096 < field h 16 16) || field h 6 10 != 0 || field h 184 8 != 0 ||
  field h 224 32 != 0 || field h 288 16 != 0 || field h 320 192 != 0

/-- Rising without repeats. -/
def rising : List Nat → Bool
  | a :: b :: t => decide (a < b) && rising (b :: t)
  | _ => true

/-- The waves of stored entries: a wave ends at the first entry that would break R299. -/
def countWaves : List Nat → List Nat → Nat
  | w, [] => if w = [] then 0 else 1
  | w, t :: ts => if waveFits w t then countWaves (w ++ [t]) ts else countWaves [t] ts + 1

/-- Group starts that follow one another (R298). -/
def startsOk : Nat → List (Nat × Nat × Nat) → Bool
  | _, [] => true
  | g, e :: es => e.2.1 == g && decide (1 ≤ e.2.2) && startsOk (g + e.2.2) es

/-- Whether the parts of an object obey R298, its targets do not repeat and keep the bound. -/
def objectOk (p : Plan) : Bool :=
  let grouped := p.count - p.oobn
  startsOk 0 p.entries && (p.entries.map (·.2.2)).foldl (· + ·) 0 + p.oobn == p.count &&
  (p.positions.take grouped).all (· < 4096) && p.oob.all (fun x => x % 2 ^ 15 < 4096) &&
  (p.entries.all fun e => rising (p.members e)) && rising (p.oob.map (· % 4096)) &&
  ((List.range p.count).all fun i => (p.positions.map (· % 4096)).contains i) &&
  decide ((p.entries.map (·.1)).Nodup) && p.entries.all fun e => (inBound p.ls p.bound e.1).isSome

/-- The plan of an object. -/
def planOf (h : Nat) (ents : List Word) (pos : List Nat) : Plan :=
  { oobn := field h 304 16
    wseed := field h 256 32
    blen := field h 192 32
    baddr := BitVec.ofNat 56 (field h 128 56)
    bound := field h 64 64
    waves := countWaves [] (ents.map fun x => field x.toNat 0 32)
    count := field h 16 16
    iw := field h 4 2
    ls := bitOf h 3
    inverse := bitOf h 2
    st := if field h 0 2 = 2 then 3 else field h 0 2
    entries := ents.map fun x => (field x.toNat 0 32, field x.toNat 32 16, field x.toNat 48 16)
    positions := pos
    granule := 0 }

/-- `plan.ld`. -/
def planLdBody : VBody := fun e s =>
  if e.xa.toNat % 64 ≠ 0 then (s, .fault (trapAt fcALIGN e.xa 0))
  else
    let party := s.me
    match readDwords s party .load e.xa 8 with
    | (s, .error t) => (s, .fault t)
    | (s, .ok hs) =>
      let h := dwordsNat hs
      let unique := field h 32 16
      if headerBad h ∨ field h 16 16 < unique then (s, .fault (planFormTrap e.d 2))
      else
        match readDwords s party .load (e.xa + 64) unique with
        | (s, .error t) => (s, .fault t)
        | (s, .ok ents) =>
          match readHalves party (field h 16 16) (e.xa + BitVec.ofNat 64 (64 + 8 * unique)) s with
          | (s, .error t) => (s, .fault t)
          | (s, .ok pos) =>
            let p := planOf h ents pos
            if objectOk p then endBuild (buildInto s e.d p []) else (s, .fault (planFormTrap e.d 2))

/-- `plan.rel`. -/
def planRelBody : VBody := fun e s =>
  ((unwatch s s.vlc.core s.vlc.slot e.d).modVlc fun v => { v with plans := setPlan v.plans e.d none, vstart := 0 }, .done)

/-- `plan.q`. -/
def planQBody : VBody := fun e s =>
  let x := match s.vlc.plan e.a with
    | none => 0
    | some p => if e.xb.toNat ≤ 7 then field p.header (64 * e.xb.toNat) 64 else if e.xb.toNat = 8 then p.size else 0
  ((s.modVlc fun v => v.setX e.d (BitVec.ofNat 64 x)).clearVstart, .done)

end Sys2Proof.Machine
end

