-- ==== Sys2Proof/Machine/VecCfg.lean ====
section
/-! DEFINITION. Setting VTYPE and VL, strip loops, and entering and leaving matrix mode (spec/05 R121, R122, R146;
spec/06 R156, R159 to R161). -/

namespace Sys2Proof.Machine

/-! ### VTYPE and VL -/

/-- The VTYPE of a full value, if it passes the checks of R122. -/
def vtypeOf (n : Nat) : Option Vtype :=
  let mew := field n 12 3
  let sew := field n 9 3
  let tp := field n 5 2
  let cls := field n 0 4
  if 2 ^ 15 ≤ n ∨ 6 ≤ sew ∨ 6 ≤ mew ∨ tp = 3 ∨ 10 ≤ cls then none
  else
    let c := clsOfCode cls
    if c.isFp ∧ (ewOfCode sew).bits ≠ c.container then none
    else some ⟨ewOfCode mew, ewOfCode sew, ⟨field n 7 2, Nat.mod_lt _ (by decide)⟩,
      match tp with
      | 0 => .undisturbed
      | 1 => .agnostic
      | _ => .dead, bitOf n 4, c⟩

/-- Set VTYPE, VL and x[D] (R121). -/
def setVtype (w : BitVec 32) (n : Nat) (avl : Word) (d : Fld) (s : State) : Out :=
  match vtypeOf n with
  | none => scalarStop s (decodeTrap fcVTYPE w 0)
  | some t =>
    let vl := min avl.toNat (vlmaxOf t)
    .next ((s.modVlc fun v => { v with vt := t, vl := vl }).retire d (BitVec.ofNat 64 vl))

/-- The compact VTYPE with MEW := SEW. -/
def compactVtype (imm : BitVec 12) : Nat := imm.toNat + field imm.toNat 9 3 * 2 ^ 12

def execVcfgi (d a : Fld) (imm : BitVec 12) (s : State) : Out :=
  setVtype (wordOf (.vcfgi d a imm)) (compactVtype imm) (s.vlc.rx a) d s

def execVcfg (d a b : Fld) (s : State) : Out :=
  setVtype (wordOf (.vcfg d a b)) (s.vlc.rx b).toNat (s.vlc.rx a) d s

/-! ### Strip loops -/

/-- Start a strip loop (R146); in handler state it raises PRIV (R367). -/
def startLoop (w : BitVec 32) (p balanced : Bool) (imm : BitVec 16) (a : Fld) (s : State) : Out :=
  let v := s.vlc
  if v.inHandler then scalarStop s (decodeTrap fcPRIV w 0)
  else if v.loop.isSome ∨ imm = 0 then scalarStop s (decodeTrap fcILLEGAL w 0)
  else .next (s.modVlc fun v =>
    handOut { v with vrem := v.rx a, vidx := 0, loopSerial := v.loopSerial + 1 }
      ⟨v.pc + 4, imm.toNat, p, balanced, 0, 0, v.loopSerial⟩)

def execVloop (p : Bool) (imm : BitVec 16) (a : Fld) (s : State) : Out :=
  startLoop (wordOf (.vloop p imm a)) p false imm a s

def execVloopw (p : Bool) (imm : BitVec 16) (a : Fld) (s : State) : Out :=
  startLoop (wordOf (.vloopw p imm a)) p true imm a s

/-! ### Matrix mode -/

/-- `mmode` (R159): the owner's pending release entries are cancelled (R160). -/
def execMmode (d a : Fld) (s : State) : Out :=
  let v := s.vlc
  let req := (v.rx a).toNat
  if !shapeMatrix s.gang.shape then scalarStop s (trapInfo fcSHAPE 1)
  else if req ≠ 16 ∧ req ≠ 32 ∧ req ≠ 64 then scalarStop s (trapInfo fcSHAPE 2)
  else
    let owner := (s.core v.core).accOwner
    if owner.isSome ∧ owner ≠ some v.slot then .next (s.retire d 0)
    else
      let s := s.modCore v.core fun c => { c with accOwner := some v.slot }
      let s := s.modVlc fun v => { v with
        mvl := req
        tsm := 0
        tsn := 0
        tsk := 0
        vq := v.vq.map fun e => if e.i = .mexit then { e with cancelled := true } else e }
      .next (s.retire d (BitVec.ofNat 64 req))

/-- The release entry of `mexit`. -/
def mexitBody : VBody := fun e s =>
  (if e.cancelled then s else dropAccumulator s s.vlc.core s.vlc.slot, .done)

/-- `mexit` (R160). -/
def execMexit (s : State) : Out :=
  let v := s.vlc
  if v.inHandler then scalarStop s (decodeTrap fcPRIV (wordOf .mexit) 0)
  else if (s.core v.core).accOwner ≠ some v.slot then .next s.pass
  else if !queueRoom v .mexit then stall s
  else issue {} mexitBody (capture v .mexit 0 0 0 0 0 0)
    (s.modVlc fun v => { v with mvl := 0, tsm := 0, tsn := 0, tsk := 0 })

/-- The largest extent of a rising list that the request and the cap allow; 16 below that (R161). -/
def grant (req cap : Nat) (set : List Nat) : Nat :=
  set.foldl (fun b v => if v ≤ min req cap then v else b) 16

/-- `tshape` (R161). -/
def execTshape (d a : Fld) (s : State) : Out :=
  let v := s.vlc
  let x := (v.rx a).toNat
  if v.mvl = 0 then scalarStop s (trapInfo fcSHAPE 1)
  else
    let m := grant (field x 0 9) v.mvl [16, 32, 64]
    let n := grant (field x 16 9) v.mvl [16, 32, 64]
    let k := grant (field x 32 9) 256 [16, 32, 64, 128, 256]
    .next ((s.modVlc fun v => { v with tsm := m, tsn := n, tsk := k }).retire d
      (BitVec.ofNat 64 (m + n * 2 ^ 16 + k * 2 ^ 32)))

end Sys2Proof.Machine
end

