-- ==== Sys2Proof/Machine/Bodies.lean ====
section
/-! DEFINITION. What each instruction of the vector instruction queue does at the head: one arm per queue instruction
(spec/01 R36; spec/02 R54, R55). -/

namespace Sys2Proof.Machine

/-- Registers p0 to p15 in the operations of R143. -/
def andNot (a b : BitVec 4096) : BitVec 4096 := a &&& ~~~ b

/-- The body of a queue instruction; an instruction that never enters the queue has none. -/
def bodyOf : Instr → VBody
  | .ctlRd _ n => ctlBody .rd n.toNat
  | .ctlWr _ _ n => ctlBody .wr n.toNat
  | .ctlSet _ _ n => ctlBody .set n.toNat
  | .ctlClr _ _ n => ctlBody .clr n.toNat
  | .mexit => mexitBody
  | .spawn .. | .copy .. | .copyp .. | .coll .. | .gate .. => markerBody
  | .vadd pg k _ _ _ => binBody .add (!k) pg k
  | .vsub pg k _ _ _ => binBody .sub (!k) pg k
  | .vrsub pg k _ _ _ => binBody .rsub (!k) pg k
  | .vmul pg k _ _ _ => binBody .mul k pg k
  | .vmin pg k _ _ _ => binBody .min false pg k
  | .vmax pg k _ _ _ => binBody .max false pg k
  | .vmulh pg k _ _ _ => binBody .mulh false pg k
  | .vdiv pg k _ _ _ => binBody .div false pg k
  | .vand pg k _ _ _ => binBody .and false pg k
  | .vor pg k _ _ _ => binBody .or false pg k
  | .vxor pg k _ _ _ => binBody .xor false pg k
  | .vshl pg k _ _ _ => binBody .shl false pg k
  | .vshr pg k _ _ _ => binBody .shr false pg k
  | .vsar pg k _ _ _ => binBody .sar false pg k
  | .vmacc pg k _ _ _ => binBody .macc false pg k
  | .vnmsac pg k _ _ _ => binBody .nmsac false pg k
  | .vwmacc pg k _ _ _ => wideBody .macc pg k
  | .vwadd pg k _ _ _ => wideBody .add pg k
  | .vwmul pg k _ _ _ => wideBody .mul pg k
  | .vnclip pg k _ _ _ => nclipBody pg k
  | .vcmpeq pg k _ _ _ => cmpBody .eq pg k
  | .vcmpne pg k _ _ _ => cmpBody .ne pg k
  | .vcmplt pg k _ _ _ => cmpBody .lt pg k
  | .vcmple pg k _ _ _ => cmpBody .le pg k
  | .vmerge pg k _ _ _ => mergeBody pg k
  | .vmvV pg _ _ => mvBody pg
  | .vmvVx pg _ _ => splatBody pg
  | .vmvXv _ _ => moveOutBody
  | .vsadd pg k _ _ _ => binBody .sadd false pg k
  | .vssub pg k _ _ _ => binBody .ssub false pg k
  | .vsqrt pg _ _ => unBody .sqrt pg
  | .vrsqrte pg _ _ => unBody .rsqrte pg
  | .vrece pg _ _ => unBody .rece pg
  | .vexp2e pg _ _ => unBody .exp2e pg
  | .vredsum pg k _ _ _ => redBody .sum pg k
  | .vredmax pg k _ _ _ => redBody .max pg k
  | .vredmin pg k _ _ _ => redBody .min pg k
  | .vdot pg _ _ _ => dotBody pg
  | .vxchg pg _ _ _ => permBody .xchg pg
  | .vslup pg _ _ _ => permBody .slup pg
  | .vsldn pg _ _ _ => permBody .sldn pg
  | .vperm pg _ _ _ => permBody .perm pg
  | .vcvt pg t _ _ => cvtBody pg t
  | .vbscale pg k _ _ _ => bscaleBody pg k
  | .vrot pg _ _ => vrotBody pg
  | .vid pg k _ _ => vidBody pg k
  | .pand pg _ _ _ => predBody (· &&& ·) pg
  | .por pg _ _ _ => predBody (· ||| ·) pg
  | .pxor pg _ _ _ => predBody (· ^^^ ·) pg
  | .pandn pg _ _ _ => predBody andNot pg
  | .psbf pg _ _ => scanBody false pg
  | .psif pg _ _ => scanBody true pg
  | .pcnt pg _ _ => pcntBody pg
  | .pfirst pg _ _ => pfirstBody pg
  | .vcompress _ _ _ => compressBody
  | .vcidx _ _ _ => cidxBody
  | .vtop pg _ _ _ => topBody pg
  | .pexp _ _ _ => pexpBody
  | .vld pg _ _ => loadBody .plain .load .unit pg
  | .vldS pg _ _ _ => loadBody .plain .load .strided pg
  | .vldFf pg _ _ _ => ffBody pg
  | .vldNc pg _ _ => loadBody .nc .load .unit pg
  | .vldSeg pg nf _ _ => loadBody .plain .load (.seg (nf.toNat + 1)) pg
  | .vldFe pg _ _ => loadBody (.fe false) .fe .unit pg
  | .vldFec pg _ _ => loadBody (.fe true) .fe .unit pg
  | .vst pg _ _ => storeBody .plain .store .unit pg
  | .vstS pg _ _ _ => storeBody .plain .store .strided pg
  | .vstNtf pg _ _ _ => ntfBody pg
  | .vstNc pg _ _ => storeBody .nc .store .unit pg
  | .vstSeg pg nf _ _ => storeBody .plain .store (.seg (nf.toNat + 1)) pg
  | .vstFe pg _ _ => storeBody .fe .fe .unit pg
  | .vstMd pg tv _ _ => storeBody (.md tv) .md .unit pg
  | .vldSc pg _ _ => loadBody .sc .sc .unit pg
  | .vstSc pg _ _ => storeBody .sc .sc .unit pg
  | .vldAcq pg _ _ => loadBody .acq .load .unit pg
  | .vstRel pg _ _ => storeBody .rel .store .unit pg
  | .planMk pg _ _ _ => planMkBody pg
  | .planMkm pg _ _ _ => planMkmBody pg
  | .planInv _ _ => planInvBody
  | .planCmp _ _ _ => planCmpBody
  | .pga pg _ _ _ => applyBody none pg
  | .psc pg _ _ _ => applyBody (some .set) pg
  | .pscAdd pg _ _ _ => applyBody (some .add) pg
  | .pscMax pg _ _ _ => applyBody (some .max) pg
  | .planLd _ _ => planLdBody
  | .planSt _ _ => planStBody
  | .planRel _ => planRelBody
  | .planQ _ _ _ => planQBody
  | .tidLd _ _ => tidLdBody
  | .tidSt _ _ => tidStBody
  | .tidSet _ _ _ => tidSetBody
  | .tidQ _ _ _ => tidQBody
  | .mxa pg _ _ _ => outerBody .acc pg
  | .mxs pg _ _ _ => outerBody .sub pg
  | .mxw pg _ _ _ => outerBody .over pg
  | .mclr pg _ => mclrBody pg
  | .mma pg _ _ _ => mmaBody false pg
  | .mmaG pg _ _ _ => mmaBody true pg
  | .mmav pg _ _ _ => mmavBody pg
  | .mst pg _ _ => tileBody true pg
  | .mld pg _ _ => tileBody false pg
  | .mrd pg _ _ _ => mrdBody pg
  | .mwr pg _ _ _ => mwrBody pg
  | _ => fun _ s => (s, .done)

end Sys2Proof.Machine
end

