-- ==== Sys2Proof/Machine/Chain.lean ====
section
/-! DEFINITION. Which instructions may chain, and the moves of the vector half (spec/01_machine.md R19, R31, R42 to R46;
spec/05 R148, R150; assumption 8, DESIGN CHOICE). -/

namespace Sys2Proof.Machine

/-! ### Pipes and beats (R42, R43) -/

/-- The pipes of the vector unit. -/
inductive Pipe where
  | alu | mul | fp | estimate | predicate | permute | memory
deriving DecidableEq, Repr

/-- Whether an instruction is a load or a store of the vector stream, or an apply. -/
def isVectorStore : Instr → Bool
  | .vst .. | .vstS .. | .vstNc .. | .vstSeg .. | .vstFe .. | .vstMd .. | .vstSc .. | .vstRel .. | .vstNtf .. => true
  | _ => false

/-- The pipe of an entry, and the latency of a chainable producer (R43). -/
def pipeOf (e : VEntry) : Option (Pipe × Option Nat) :=
  let fp := e.vt.cls.isFp
  match e.i with
  | .vadd .. | .vsub .. | .vrsub .. | .vmin .. | .vmax .. | .vsadd .. | .vssub .. | .vcmpeq .. | .vcmpne .. | .vcmplt ..
  | .vcmple .. => some (if fp then (.fp, some 4) else (.alu, some 2))
  | .vand .. | .vor .. | .vxor .. | .vshl .. | .vshr .. | .vsar .. | .vnclip .. | .vmerge .. | .vmvV .. | .vmvVx .. =>
    some (.alu, some 2)
  | .vmul .. | .vmulh .. | .vmacc .. | .vnmsac .. | .vwmacc .. | .vwadd .. | .vwmul .. =>
    some (if fp then .fp else .mul, some 4)
  | .vcvt .. => some (.fp, some 4)
  | .vrsqrte .. | .vrece .. | .vexp2e .. => some (.estimate, some 6)
  | .vdiv .. | .vsqrt .. => some (.estimate, none)
  | .pand .. | .por .. | .pxor .. | .pandn .. | .psbf .. | .psif .. | .pexp .. => some (.predicate, some 1)
  | i => if isVectorStore i then some (.memory, none) else none

/-- The widest element that an entry reads or writes. -/
def widest (e : VEntry) : Nat :=
  match e.i with
  | .vwmacc .. | .vwadd .. | .vwmul .. | .vnclip .. => 2 * e.vt.sew.bits
  | .vcvt _ t _ _ => max e.vt.sew.bits (targetBits t)
  | .pand .. | .por .. | .pxor .. | .pandn .. | .psbf .. | .psif .. | .pexp .. => 1
  | i => if isVectorStore i then max e.vt.sew.bits e.vt.mew.bits else e.vt.sew.bits

/-- Beats of an entry: of 2,048 bits, or of 512 in a fanned-out strip (R42). -/
def beats (e : VEntry) : Nat := ceilDiv (e.vl * widest e) (if e.strip.isSome then 512 else 2048)

/-- A register operand: a vector group by its first name, or a predicate. -/
inductive Operand where
  | group (n : Nat)
  | predicate (n : Nat)
deriving DecidableEq, Repr

/-- The destination of a chainable producer. -/
def destOf (e : VEntry) : Operand :=
  match e.i with
  | .vcmpeq .. | .vcmpne .. | .vcmplt .. | .vcmple .. | .pand .. | .por .. | .pxor .. | .pandn .. | .psbf .. | .psif .. | .pexp .. =>
    .predicate e.d
  | _ => .group e.d

/-- What an entry reads in ascending order of its elements: its groups, and its guard. -/
def readsInOrder (e : VEntry) : List Operand :=
  let two (pg : BitVec 2) (k : Bool) : List Operand := .predicate pg.toNat :: .group e.a :: if k then [] else [.group e.b]
  match e.i with
  | .vadd pg k .. | .vsub pg k .. | .vrsub pg k .. | .vmul pg k .. | .vmin pg k .. | .vmax pg k .. | .vmulh pg k .. | .vdiv pg k ..
  | .vand pg k .. | .vor pg k .. | .vxor pg k .. | .vshl pg k .. | .vshr pg k .. | .vsar pg k .. | .vwadd pg k .. | .vwmul pg k ..
  | .vnclip pg k .. | .vcmpeq pg k .. | .vcmpne pg k .. | .vcmplt pg k .. | .vcmple pg k .. | .vmerge pg k .. | .vsadd pg k ..
  | .vssub pg k .. => two pg k
  | .vmacc pg k .. | .vnmsac pg k .. | .vwmacc pg k .. => .group e.d :: two pg k
  | .vmvV pg .. | .vsqrt pg .. | .vrsqrte pg .. | .vrece pg .. | .vexp2e pg .. | .vcvt pg .. => two pg true
  | .vst pg .. | .vstS pg .. | .vstNtf pg .. | .vstNc pg .. | .vstSeg pg .. | .vstFe pg .. | .vstMd pg .. | .vstSc pg ..
  | .vstRel pg .. => [.predicate pg.toNat, .group e.d]
  | .pand pg .. | .por pg .. | .pxor pg .. | .pandn pg .. => [.predicate pg.toNat, .predicate e.a, .predicate e.b]
  | .psbf pg .. | .psif pg .. => [.predicate pg.toNat, .predicate e.a]
  | _ => []

/-- Every element that an entry reads or writes has the width SEW, or is a predicate bit, and element i stands at place i. -/
def uniform (e : VEntry) : Bool :=
  match e.i with
  | .vwmacc .. | .vwadd .. | .vwmul .. | .vnclip .. | .pexp .. => false
  | .vcvt _ t _ _ => targetBits t == e.vt.sew.bits
  | _ => true

/-- No name of an entry carries a tag: its result rests on no tag (R128). -/
def untagged (f : VFile) (e : VEntry) : Bool := [e.d, e.a, e.b].all fun n => f.tagOf n == 0

/-- A load or store in ticket order (R239). -/
def isSc : Instr → Bool
  | .vldSc .. | .vstSc .. => true
  | _ => false

/-- A `vld.sc` or `vst.sc` of the VLC has started: it is the oldest entry of its strip, or of the queue, and stands at an element (R239). -/
def scInFlight (v : Vlc) : Bool :=
  (List.range v.vq.length).any fun k =>
    match v.vq[k]? with
    | none => false
    | some e =>
      isSc e.i && (v.vq.take k).all (fun b => b.strip != e.strip) &&
        (match e.strip, v.fan with
         | some (_, j), some f => f.strips.any fun x => x.k == j && x.at_.isSome
         | some _, none => false
         | none, _ => k == 0 && v.vstart != 0)

/-- The second entry may issue in the chain slot of the first (R44); a `vst.sc` never does (R229).  Of the pairs that may, the model chains
those of one type, one length and one element width whose names carry no tag: the elements of the second below m then read and write nothing that the first
has yet to write or read from m on (assumption 8, DESIGN CHOICE). -/
def chains (file : VFile) (e f : VEntry) : Bool :=
  match pipeOf e, pipeOf f with
  | some (p, some lat), some (q, _) =>
    !isSc f.i && (readsInOrder f).contains (destOf e) && beats e == beats f && (p != q || decide (beats e ≤ lat)) && e.strip == f.strip &&
      uniform e && uniform f && e.vt == f.vt && e.vl == f.vl && untagged file e && untagged file f
  | _, _ => false

/-! ### Moves of the vector half -/

/-- An instruction that reads or decides anew when it starts again: its turn ends early only where a halt stops it (R31, R169, R230,
R309). -/
def restartsAnew : Instr → Bool
  | .vldFf .. | .mma .. | .mmaG .. | .mmav .. | .mst .. | .mld .. | .pga .. | .psc .. | .pscAdd .. | .pscMax .. => true
  | _ => false

/-- The gang of the VLC whose turn it is is halting. -/
def halting (s : State) : Bool :=
  match s.gang.st with
  | .halting _ => true
  | _ => false

/-- The turn that an entry gets. -/
def turnSteps (s : State) (e : VEntry) (steps : Option Nat) : Option Nat :=
  if restartsAnew e.i && !halting s then none else steps

/-- Where the entry of a strip, or of no strip, stands. -/
def standing (strip : Option (Nat × Nat)) (v : Vlc) : BitVec 13 :=
  match strip, v.fan with
  | some (_, k), some f => (((f.strips.find? fun x => x.k == k).bind (·.at_)).getD 0)
  | _, _ => v.vstart

def standAt (strip : Option (Nat × Nat)) (m : BitVec 13) (v : Vlc) : Vlc :=
  match strip, v.fan with
  | some (_, k), some f =>
    let f := { f with strips := f.strips.map fun x => if x.k = k then { x with at_ := some m } else x }
    { v with fan := some f, vstart := f.shown }
  | _, _ => { v with vstart := m }

/-- The chained consumer behind a head that has stopped does the elements below the one where the head stands (R46); it keeps them, and
goes on from there after the head.  A consumer that commits once (R103, R151) has done nothing: it runs whole after the head. -/
def chainAfter (e f : VEntry) (t : State) : State :=
  if entryCount t.vlc f = 1 then t
  else
    let m := standing e.strip t.vlc
    let r := runBody (bodyOf f.i) (some m.toNat) f (t.modVlc (standAt e.strip 0))
    let done := if r.2 = .done then f.vl else (standing f.strip r.1.vlc).toNat
    r.1.modVlc fun v => { keepEntry 1 done (standAt e.strip m v) with run := some ⟨none, e.seq⟩ }

/-- Run the head for so many elements, with the entry behind it in its chain slot (R44 to R46). -/
def runChained (steps : Option Nat) (e f : VEntry) (s : State) : State :=
  let r := runBody (bodyOf e.i) steps e (s.modCore s.vlc.core fun c => { c with chain := c.chain + 1 })
  if r.2 = .done then endRun 0 e r else endRun 0 e (chainAfter e f r.1, r.2)

/-- The plan slot of an apply. -/
def applySlot (e : VEntry) : Option Nat :=
  match e.i with
  | .pga .. | .psc .. | .pscAdd .. | .pscMax .. => some e.a
  | _ => none

/-- A plan slot holds a stale plan. -/
def staleSlot (v : Vlc) (slot : Nat) : Bool :=
  match v.plan slot with
  | some p => p.st == 3
  | none => false

/-- The entry of another strip that stands part done in an apply of a slot: the oldest entry of its strip, at a VSTART that is not 0. -/
def startedApply (v : Vlc) (slot : Nat) : Option Nat :=
  (List.range v.vq.length).find? fun k =>
    match v.vq[k]? with
    | none => false
    | some e => applySlot e == some slot && (v.vq.take k).all (fun b => b.strip != e.strip) && standing e.strip v != 0

/-- The entry that runs where an entry would start: an apply that has started finishes under its schedule before an apply of another strip
makes the slot's stale plan anew (R304, R305, R314). -/
def startsAt (v : Vlc) (k : Nat) : Nat :=
  match (v.vq[k]?).bind fun e => (applySlot e).filter fun slot => staleSlot v slot && standing e.strip v == 0 with
  | none => k
  | some slot => (startedApply v slot).getD k

/-- Run the entry at an index, or the started apply that goes before it. -/
def runAt (k : Nat) (steps : Option Nat) (s t : State) : State :=
  let k := startsAt s.vlc k
  match s.vlc.vq[k]? with
  | none => t
  | some x => runEntry (bodyOf x.i) k (turnSteps s x steps) x t

/-- The vector half moves as its schedule says; with none, the head runs whole. -/
def moveVector (s : State) : State :=
  match s.vlc.vq with
  | [] => s
  | e :: es =>
    let t := s.modVlc fun v => { v with sched := v.sched.tail }
    match s.vlc.sched with
    | [] => runAt 0 none s s
    | .hold :: _ => t
    | .run which steps :: _ => runAt ((eligible s)[which]?.getD 0) steps s t
    | .chain steps :: _ =>
      match es with
      | f :: _ =>
        if chains (stripIn e.strip (fanReady e.strip s.vlc)).vf e f && !scInFlight s.vlc && standing e.strip s.vlc == 0
            && e.ahead == 0 && f.ahead == 0 then runChained (some steps) e f t
        else runAt 0 none s t
      | [] => runAt 0 none s t

end Sys2Proof.Machine
end

