-- ==== Sys2Proof/Machine/Perform.lean ====
section
/-! DEFINITION. Choosing what a step does: whose turn it is, which half of the VLC moves, and the instruction that the scalar
unit fetches (spec/01 R19, R20, R36 to R41, R48; spec/07 R210; assumption 3, DESIGN CHOICE, and assumption 8, DESIGN CHOICE). -/

namespace Sys2Proof.Machine

/-! ### The scalar unit waits for a register (R38) -/

/-- The absolute scalar registers that an instruction reads or writes through its fields (R51, R54). -/
def scalarFields (v : Vlc) (i : Instr) : List Nat :=
  let x (f : Fld) : Nat := xNum v.wins f
  match i with
  | .add d a b | .sub d a b | .and d a b | .or d a b | .xor d a b | .shl d a b | .shr d a b | .sar d a b
  | .cmplt d a b | .cmpltn d a b | .mul d a b | .mulh d a b | .mulhn d a b | .div d a b | .divn d a b
  | .rem d a b | .remn d a b | .min d a b | .max d a b | .minn d a b | .maxn d a b | .vcfg d a b
  | .amoAdd _ d a b | .amoAnd _ d a b | .amoOr _ d a b | .amoXor _ d a b | .amoMin _ d a b | .amoMax _ d a b
  | .amoMinn _ d a b | .amoMaxn _ d a b | .amoSwap _ d a b | .amoCas _ d a b | .amoFadd d a b | .amoFmax d a b
  | .amoFmin d a b | .spawn d a b | .gate d a b | .cinc d a b | .cset d a b | .dcDiscard d a b => [x d, x a, x b]
  | .clz d a | .ctz d a | .popc d a | .mmode d a | .tshape d a | .featq d a | .cread d a => [x d, x a]
  | .addi d a _ | .andi d a _ | .ori d a _ | .xori d a _ | .cmplti d a _ | .jalr d a _ | .vcfgi d a _ => [x d, x a]
  | .shli d a _ | .shri d a _ | .sari d a _ => [x d, x a]
  | .lui d _ | .auipc d _ | .flimm _ d _ | .cyc d | .ctxid d | .ctlRd d _ => [x d]
  | .jal _ => [1]
  | .beq a b _ | .bne a b _ | .blt a b _ | .bge a b _ | .bltn a b _ | .bgen a b _ | .cwait _ a b | .pwait _ a b
  | .dcFlush a b | .dcInval a b | .thint _ a b | .feSet a b | .feClr a b => [x a, x b]
  | .ldI8 d a _ | .ldN8 d a _ | .ldI16 d a _ | .ldN16 d a _ | .ldI32 d a _ | .ldN32 d a _ | .ld64 d a _ => [x d, x a]
  | .st8 b a _ | .st16 b a _ | .st32 b a _ | .st64 b a _ => [x b, x a]
  | .ldAcq _ _ y a _ | .stRel _ _ y a _ => [x y, x a]
  | .ctlWr d a _ | .ctlSet d a _ | .ctlClr d a _ | .handlerReturn _ d a => [x d, x a]
  | .trap a => [x a]
  | .vloop _ _ a | .vloopw _ _ a => [x a]
  | .vadd _ k _ _ b | .vsub _ k _ _ b | .vrsub _ k _ _ b | .vmul _ k _ _ b | .vmin _ k _ _ b | .vmax _ k _ _ b
  | .vmulh _ k _ _ b | .vdiv _ k _ _ b | .vand _ k _ _ b | .vor _ k _ _ b | .vxor _ k _ _ b | .vshl _ k _ _ b
  | .vshr _ k _ _ b | .vsar _ k _ _ b | .vmacc _ k _ _ b | .vnmsac _ k _ _ b | .vwmacc _ k _ _ b | .vwadd _ k _ _ b
  | .vwmul _ k _ _ b | .vnclip _ k _ _ b | .vcmpeq _ k _ _ b | .vcmpne _ k _ _ b | .vcmplt _ k _ _ b
  | .vcmple _ k _ _ b | .vmerge _ k _ _ b | .vsadd _ k _ _ b | .vssub _ k _ _ b | .vredsum _ k _ _ b
  | .vredmax _ k _ _ b | .vredmin _ k _ _ b | .vbscale _ k _ _ b | .vid _ k _ b => if k then [x b] else []
  | .vmvVx _ _ b | .vxchg _ _ _ b | .vslup _ _ _ b | .vsldn _ _ _ b | .vtop _ _ _ b | .planMk _ _ _ b | .pga _ _ _ b
  | .psc _ _ _ b | .pscAdd _ _ _ b | .pscMax _ _ _ b | .mst _ _ b | .mld _ _ b | .mrd _ _ _ b | .mwr _ _ _ b => [x b]
  | .vmvXv d _ | .pcnt _ d _ | .pfirst _ d _ => [x d]
  | .vcidx _ a _ => [x a]
  | .vld _ _ a | .vldNc _ _ a | .vldSeg _ _ _ a | .vldFe _ _ a | .vldFec _ _ a | .vst _ _ a | .vstNc _ _ a
  | .vstSeg _ _ _ a | .vstFe _ _ a | .vstMd _ _ _ a | .vldSc _ _ a | .vstSc _ _ a | .vldAcq _ _ a | .vstRel _ _ a => [x a]
  | .vldS _ _ a b | .vldFf _ _ a b | .vstS _ _ a b | .vstNtf _ _ a b | .planMkm _ _ a b | .tidSet _ a b | .mma _ _ a b
  | .mmaG _ _ a b => [x a, x b]
  | .mmav _ _ a b => [x a, x b]
  | .planLd _ a | .planSt _ a | .tidLd _ a | .tidSt _ a => [x a]
  | .planQ d _ b | .tidQ d _ b => [x d, x b]
  | .copy d a | .copyp d a => x d :: (List.range 4).map (x a + ·)
  | .coll d a b => x d :: (List.range 4).map (x a + ·) ++ [x b]
  | _ => []

/-- The scalar register that an entry has yet to write (R38, R111, R230). -/
def entryWrites (e : VEntry) : Option Nat :=
  match e.i with
  | .pcnt .. | .pfirst .. | .vmvXv .. | .planQ .. | .tidQ .. | .ctlRd .. | .ctlWr .. | .ctlSet .. | .ctlClr .. =>
    if e.d = 0 then none else some e.d
  | .vldFf .. => if e.b = 0 then none else some e.b
  | _ => none

/-- An instruction names a register that an entry of the queue has yet to write.  In handler state the entries are frozen, and the scalar
unit does not wait for them (R39, R365; assumption 32, DEDUCED). -/
def hazard (v : Vlc) (i : Instr) : Bool :=
  let pending := v.vq.filterMap entryWrites
  !v.inHandler && (scalarFields v i).any pending.contains

/-! ### Fetching -/

/-- The word at the pc: the page needs EX, and the word is read at its home, whatever the L1 of the core holds (R48; assumption 61, DESIGN
CHOICE).  It is a read of its line: a miss counts, and so does a fetch from a page of another die (R205, R207, R354, R356). -/
def fetchWord (s : State) : State × Except Trap (BitVec 32) :=
  let va := s.vlc.pc
  match translate s s.me va 4 .execute with
  | (s, .error t) => (s, .error t)
  | (s, .ok d) =>
    match placeRule .load va 4 .execute d with
    | some t => (s, .error t)
    | none =>
      match (match d with
        | .phys pa _ => busRule s (coreDie s.vlc.core) va pa
        | .ls _ _ => none) with
      | some t => (s, .error t)
      | none =>
        match poisonRule s s.me .bypass va 4 d with
        | some t => (s, .error t)
        | none => (d.reach s s.me .normal, .ok (BitVec.ofNat 32 (memRead s.mem d.pa 4)))

/-- The instruction of a word: one that decodes, or a word that is none (R56). -/
def instrOf (w : BitVec 32) : Instr :=
  match decode w with
  | .ok i => i
  | .error _ => .illegalWord w

/-! ### Turns -/

/-- The gang is resident, or its halt has not reached its VLCs yet (R31, R32). -/
def gangRuns (g : Gang) : Bool :=
  match g.st with
  | .resident => true
  | .halting _ => true
  | _ => false

/-- The vector half can move: it waits for the scalar half only when its queue is empty (R38), and is frozen in handler state. -/
def vectorReady (v : Vlc) : Bool := !v.vq.isEmpty && !v.inHandler

/-- The VLC runs: it has not retired and is not stopped, and it stands in no architectural wait, in which neither half issues (R20). -/
def halfReady (v : Vlc) : Bool := v.status == .running && v.vwait == .no

/-- The gang is resident. -/
def gangResident (g : Gang) : Bool :=
  match g.st with
  | .resident => true
  | _ => false

/-- The VLC runs, its gang is on its cores, no fault of it waits for the end of a halt, and its core is not fenced and its die not
throttled (R32, R375, R397). -/
def canIssue (s : State) (v : Vlc) : Bool :=
  halfReady v && gangRuns (s.gangOf v.gang) && (v.pendFault.isNone || gangResident (s.gangOf v.gang))
    && !s.isFenced (coreDie v.core) 0 (v.core % 144) && !(s.die (coreDie v.core)).throttle

/-- The next VLC takes the front. -/
def rotate (s : State) : State :=
  match s.others with
  | [] => s
  | v :: vs => { s with vlc := v, others := vs ++ [s.vlc] }

/-- Bring a VLC that can issue to the front; one that has yielded gives up this turn (R116). -/
def bringReady : Nat → State → Option State
  | 0, _ => none
  | n + 1, s =>
    if canIssue s s.vlc then
      if s.vlc.yielded then bringReady n (rotate (s.modVlc fun v => { v with yielded := false })) else some s
    else bringReady n (rotate s)

/-- A VLC that can issue, if there is one: the one at the front first. -/
def readyVlc (s : State) : Option State := bringReady (2 * (s.others.length + 1)) s

/-- What the VLC whose turn it is does. -/
inductive Turn where
  /-- An instruction of the scalar unit; `moved`: the vector half has moved in the same turn. -/
  | run (i : Instr) (s : State) (moved : Bool)
  /-- The vector half moved, or a fault was delivered: the turn is done.  `moved`: a port issued. -/
  | done (s : State) (moved : Bool)
  /-- Neither half moved. -/
  | stuck (s : State)
deriving DecidableEq, Repr

/-- The scalar unit fetches.  It stalls on a word whose registers are awaited (R38), and on a fetch that fails while entries are in the
queue (R59). -/
def scalarTurn (moved : Bool) (s : State) : Turn :=
  match fetchWord s with
  | (t, .error e) =>
    if t.vlc.vq ≠ [] ∧ !t.vlc.inHandler then (if moved then .done t true else .stuck t) else .done (scalarFault t e) moved
  | (t, .ok w) =>
    let i := instrOf w
    if hazard t.vlc i then (if moved then .done t true else .stuck t) else .run i t moved

/-- After a move of the vector half the scalar half may still issue in this turn: no fault or wait of the move has stopped it. -/
def stillRuns (t : State) : Bool := canIssue t t.vlc && !t.vlc.inHandler && t.vlc.pendFault.isNone

/-- The schedule holds the vector half in this turn. -/
def held (v : Vlc) : Bool :=
  match v.sched with
  | .hold :: _ => true
  | _ => false

/-- The turn of a VLC at both issue ports (R19): its vector half moves, then its scalar half issues (assumption 8, DESIGN CHOICE).  A fault
that was recorded at a halt is delivered before anything else (R32). -/
def turnOf (s : State) : Turn :=
  match s.vlc.pendFault with
  | some f => .done (deliverFault (s.modVlc fun v => { v with pendFault := none }) f) false
  | none =>
    if vectorReady s.vlc then
      let t := moveVector s
      let moved := !held s.vlc
      if stillRuns t then scalarTurn moved t else .done t moved
    else scalarTurn false s

/-- A transfer of control, which may leave the pc where it was. -/
def isTransfer : Instr → Bool
  | .jal .. | .jalr .. | .beq .. | .bne .. | .blt .. | .bge .. | .bltn .. | .bgen .. => true
  | _ => false

/-- Whether the scalar unit issued the instruction, and did not stall on it. -/
def issuedBy (i : Instr) (s t : State) : Bool :=
  isTransfer i || s.vlc.pc != t.vlc.pc || t.vlc.status != .running

/-! ### Clocks -/

/-- The gang has its place on its cores: it is neither saved nor ended (R357). -/
def gangPlaced (g : Gang) : Bool :=
  match g.st with
  | .saved _ _ => false
  | .releasing _ => false
  | _ => true

/-- A gang's watchdog counts the cycles in which it has its place and a member neither waits nor has retired; a member stands in its wait
until it is woken (R20, R357). -/
def watchdogRuns (s : State) (g : Gang) : Bool :=
  gangPlaced g && !(s.die g.die).throttle && s.vlcs.any fun v => v.gang == g.id &&
    (match v.status with
     | .absent => false
     | .retired => false
     | .waiting _ => false
     | .satisfied _ => false
     | _ => v.vwait == .no)

/-- Cycles and corrections of a die in a step: each die that is out of reset has its own clock (R3, R4, R14, R355; assumptions 4
and 58, DESIGN CHOICE). -/
def passDie (t d : Nat) (x : Die) : Die :=
  if x.resetReleased then
    { x with cycles := x.cycles + Config.stepCycles d t, corrected := x.corrected + Config.corrections d t }
  else x

/-- The corrections in resources of the queues that are enabled (R355, R356). -/
def passQueues (s : State) : State :=
  (s.queues.filter fun x => x.2.en).foldl (fun s x => (List.range 4).foldl (fun s d =>
    if (s.die d).resetReleased then
      s.modPerf d x.1 fun p => { p with corr := p.corr + Config.queueCorrections d x.1 s.tick }
    else s) s) s

/-- The watchdog count of a gang after so many cycles: it fires when the count reaches the window, so no step carries it past (R359). -/
def countWatchdog (s : State) (g : Gang) : Gang :=
  if watchdogRuns s g then
    { g with wdog := min (g.wdog + Config.stepCycles g.die s.tick) (max g.wdog (2 ^ g.hbwin.toNat)) }
  else g

/-- The cycles of a step pass on every die that is out of reset, and an update of an SO line may arrive; a core that issued counts
them once (R4, R100, R284, R356, R357; assumption 4, DESIGN CHOICE). -/
def passTime (issued : Option Nat) (s : State) : State :=
  let s := match issued with
    | some c => s.modCore c fun k => { k with issue := k.issue + 1 }
    | none => s
  let s := passQueues (if s.snoops.isEmpty then s else snoopArrives s (Config.snoopDelivered s.tick))
  { s with
    dies := s.dies.mapIdx fun d x => passDie s.tick d x
    gangs := s.gangs.map (countWatchdog s)
    tick := s.tick + 1 }

end Sys2Proof.Machine
end

