-- ==== Sys2Proof/Machine/Gangs.lean ====
section
/-! DEFINITION. Placing a gang, clearing its cores, halts, context records, retirement and fences (spec/01 R18, R21 to R25, R31,
R32; spec/10 R303, R305; spec/11 R320, R333, R334; spec/13 R359, R370 to R375). -/

namespace Sys2Proof.Machine

/-! ### What stands on a cluster (R21, R22) -/

/-- The gang holds cores. -/
def placed (g : Gang) : Bool :=
  match g.st with
  | .saved _ _ => false
  | _ => true

def clusterGangs (s : State) (d cl : Nat) : List Gang := s.gangs.filter fun g => placed g && g.die == d && g.cluster == cl

def coreGangs (s : State) (core : Nat) : List Gang := s.gangs.filter fun g => placed g && g.cores.contains core

/-- VLC numbers of a core that are free. -/
def freeSlots (s : State) (core : Nat) : List Nat := (List.range 4).filter fun k => (s.findVlc core k).isNone

/-- The lowest base, in units of 16 KiB, of a free run of a core's LS. -/
def lsPlace (s : State) (core size : Nat) : Option Nat :=
  let used := (coreGangs s core).filterMap fun g => regionOf g core
  ((List.range 33).map (16384 * ·)).find? fun b =>
    decide (b + size ≤ lsBytes) && used.all fun r => !(decide (b < r.1 + r.2) && decide (r.1 < b + size))

/-- A core runs in plain mode: while its die starts up and tests, and in recovery from a fence until its reset (R189). -/
def corePlain (s : State) (core : Nat) : Bool := (s.core core).plain || !s.booted (coreDie core)

/-- A core that can hold its part of a gang of a queue: the LS base there. -/
def coreFits (s : State) (q : Nat) (sh : BitVec 18) (core : Nat) : Option Nat :=
  let k := s.core core
  let others := coreGangs s core
  if s.isFenced (coreDie core) 0 (core % 144) ∨ (corePlain s core ∧ !Config.firmwareQueue q) then none
  else if others.any fun g => g.tenant != (s.queue q).tenant then none
  else if (freeSlots s core).length < shapeContexts sh then none
  else if shapeMatrix sh ∧ k.accGang.isSome then none
  else lsPlace s core (shapeLs sh)

/-- The cores of a cluster that fit, with their LS bases, in ascending order. -/
def fittingCores (s : State) (d cl q : Nat) (sh : BitVec 18) : List (Nat × Nat) :=
  let there := clusterGangs s d cl
  let closed := if shapeFused sh then !there.isEmpty || s.isFenced d 1 cl else there.any fun g => shapeFused g.shape
  if closed || s.isFenced d 8 0 || !s.booted d then []
  else (List.range 8).filterMap fun c =>
    let core := d * 144 + cl * 8 + c
    (coreFits s q sh core).map fun b => (core, b)

/-- The lowest-numbered cores of a cluster that hold a shape. -/
def clusterPlace (s : State) (d cl q : Nat) (sh : BitVec 18) : Option (List (Nat × Nat)) :=
  let xs := fittingCores s d cl q sh
  if xs.length < shapeCores sh then none else some (xs.take (shapeCores sh))

/-- Every core of a cluster lies in the queue's mask (R23). -/
def inMask (s : State) (q d cl : Nat) : Bool := (List.range 8).all fun c => (s.queue q).mask.getLsbD (d * 144 + cl * 8 + c)

/-- The place of a gang on a die: the lowest cluster in the mask that fits. -/
def diePlace (s : State) (d q : Nat) (sh : BitVec 18) : Option (Nat × List (Nat × Nat)) :=
  (List.range 18).findSome? fun cl => if inMask s q d cl then (clusterPlace s d cl q sh).map fun xs => (cl, xs) else none

/-- The machine without a gang on its cores, to judge whether its removal lets another fit (R325, R334). -/
def withoutGang (s : State) (g : Nat) : State :=
  { ((s.mapVlcs fun v => if v.gang = g then { v with status := .absent } else v).mapCores fun _ c =>
      if c.accGang = some g then { c with accGang := none } else c) with
    gangs := s.gangs.filter fun x => x.id != g }

/-! ### Placing (R18, R21 to R23) -/

/-- The granules of a region of a core's LS are empty (R191). -/
def emptyRegion (base len : Nat) (fe : List Nat) : List Nat := fe.filter fun x => !(decide (base ≤ x * 16) && decide (x * 16 < base + len))

/-- A core receives a gang of a tenant, at a base of its LS: its counters restart when the tenant changes (R356), the granules of the gang's
region are empty (R191), and the gang's matrix mode reserves the array. -/
def takeCore (s : State) (g : Nat) (tenant : BitVec 12) (sh : BitVec 18) (x : Nat × Nat) : State :=
  s.modCore x.1 fun k =>
    let k := if k.tenant = some tenant then k
      else { k with tenant := some tenant, issue := 0, vcomp := 0, chain := 0, l1miss := 0 }
    let k := { k with fe := emptyRegion x.2 (shapeLs sh) k.fe }
    if shapeMatrix sh then { k with accGang := some g } else k

/-- A cluster that fuses writes back and invalidates its L1s first (R194). -/
def flushCluster (s : State) (d cl : Nat) : State :=
  (List.range 8).foldl (fun s c => flushCore s (d * 144 + cl * 8 + c)) s

/-- The members of a gang on its cores: core and slot of each member, in order. -/
def memberPlaces (s : State) (cores : List Nat) (contexts : Nat) : List (Nat × Nat) :=
  cores.flatMap fun c => ((freeSlots s c).take contexts).map fun k => (c, k)

/-- A move of a schedule of the model (assumption 8, DESIGN CHOICE). -/
def moveOf : Nat × Nat × Nat → VMove
  | (0, _, _) => .hold
  | (1, w, _) => .run w none
  | (2, w, n) => .run w (some n)
  | (_, _, n) => .chain n

/-- A new VLC of a gang (R18, R349).  Bits [1:0] of its entry PC are not checked when its record is read, and are cleared here (R47, R321;
assumption 60, DESIGN CHOICE). -/
def newVlc (s : State) (g member members : Nat) (entry arg : Word) (place : Nat × Nat) : Vlc :=
  let v := { Vlc.reset with
    core := place.1
    slot := place.2
    gang := g
    member := member
    status := .running
    pc := alignPc entry
    pseq := (s.core place.1).q
    sched := (Config.schedule (g * 32 + member)).map moveOf }
  ((v.setX 3 arg).setX 4 (BitVec.ofNat 64 member)).setX 5 (BitVec.ofNat 64 members)

/-- Place the gang of a node for the first time (R18, R109). -/
def placeNew (s : State) (n : Node) (d cl : Nat) (xs : List (Nat × Nat)) : State :=
  let sh := recShape n.image
  let q := s.queue n.queue
  let (s, id) := s.takeFresh
  let cores := xs.map (·.1)
  let s := if shapeFused sh then flushCluster s d cl else s
  let s := s.modLandau n.die fun l => { l with serial := l.serial + 1 }
  let serial := (s.landauOf n.die).serial
  let arg := recArg n.image
  let root := recDeps n.image == 0 && n.idx != 0xFFFF
  let arg := if arg = 0 ∧ root then ((s.findGraph n.graph).map (·.arg)).getD 0 else BitVec.ofNat 64 arg
  let places := memberPlaces s cores (shapeContexts sh)
  let vs := (places.zip (List.range places.length)).map fun p =>
    newVlc s id p.2 places.length (BitVec.ofNat 64 (recP n.image 0)) arg p.1
  let g : Gang := { Gang.blank with
    id := id
    node := n.id
    queue := n.queue
    die := d
    cluster := cl
    cores := cores
    lsBase := xs.map (·.2)
    tenant := q.tenant
    gangid := BitVec.ofNat 64 (serial.toNat + n.queue * 2 ^ 32 + n.die * 2 ^ 42)
    shape := sh
    firmware := Config.firmwareQueue n.queue
    members := places.length
    st := .loading }
  let s := xs.foldl (takeCore · id q.tenant sh ·) s
  { s with
    others := s.others ++ vs
    gangs := s.gangs ++ [g] }

/-- The operations that wait for a release of a member of a gang read and write its LS region where the member now stands. -/
def moveHeldOps (s : State) (g : Nat) (moved : List ((Nat × Nat) × (Nat × Nat))) (bases : List (Nat × Nat)) : State :=
  { s with engines := s.engines.map fun o =>
      if o.gang = some g ∧ o.hold.isSome then
        match moved.find? fun x => x.1 == (o.core, o.slot) with
        | some x => { o with core := x.2.1, slot := x.2.2, lsBase := ((bases.find? fun b => b.1 == x.2.1).map (·.2)).getD o.lsBase }
        | none => o
      else o }

/-- The gang of a saved node takes a new place; its record is read at CONTEXT_RESTORE (R33, R372). -/
def placeSaved (s : State) (g : Gang) (d cl : Nat) (xs : List (Nat × Nat)) : State :=
  match g.st with
  | .saved die pool =>
    let cores := xs.map (·.1)
    let s := if shapeFused g.shape then flushCluster s d cl else s
    let places := memberPlaces s cores (shapeContexts g.shape)
    let vs := g.savedVlcs.filterMap fun v => (places[v.member]?).map fun p => { v with core := p.1, slot := p.2 }
    let s := moveHeldOps s g.id (g.savedVlcs.filterMap fun v => (places[v.member]?).map fun p => ((v.core, v.slot), p)) xs
    let s := s.modGang g.id fun g => { g with
      die := d
      cluster := cl
      cores := cores
      lsBase := xs.map (·.2)
      st := .restoring die pool
      savedVlcs := [] }
    let s := xs.foldl (takeCore · g.id g.tenant g.shape ·) s
    { s with others := s.others ++ vs }
  | _ => s

/-- Place the gang of a ready node, new or saved. -/
def placeNode (s : State) (n : Node) (d cl : Nat) (xs : List (Nat × Nat)) : State :=
  let s := s.modNode n.id fun n => { n with st := .running, noPlace := none }
  match s.gangs.find? fun g => g.node == n.id with
  | some g => placeSaved s g d cl xs
  | none => placeNew s n d cl xs

/-! ### The lists of ready nodes (R323) -/

/-- The ready nodes that Landau of a die may dispatch. -/
def candidates (s : State) (d : Nat) : List Node :=
  s.nodes.filter fun n => n.die == d && n.st == .ready && n.slot.isSome && !n.assisted && n.hold.isNone
    && (s.queue n.queue).en

def deficitOf (s : State) (d q : Nat) : Nat := Tab.get 0 (s.landauOf d).deficits q

def setDeficit (s : State) (d q x : Nat) : State := s.modLandau d fun l => { l with deficits := Tab.set 0 l.deficits q x }

/-- A node leaves the list of its queue at its level other than by a visit: the deficit of an emptied list is 0 (R323). -/
def leaveList (s : State) (n : Node) : State :=
  if (candidates s n.die).any fun m => m.id != n.id && m.queue == n.queue && m.level == n.level then s else setDeficit s n.die n.queue 0

/-- The gang whose place a ready node was given up for has left its cluster: the node takes it (R32, R325). -/
def giveCluster (s : State) (g : Gang) : State :=
  match s.nodes.find? fun n => n.claim == some g.id with
  | none => s
  | some n =>
    let s := s.modNode n.id fun n => { n with claim := none }
    if n.st = .ready ∧ !n.assisted ∧ (s.queue n.queue).en ∧ !s.isFenced g.die 7 0 ∧ inMask s n.queue g.die g.cluster then
      match clusterPlace s g.die g.cluster n.queue (recShape n.image) with
      | some xs => placeNode (leaveList s n) n g.die g.cluster xs
      | none => s
    else s

/-- The strips of other gangs on the cores of a gang hold no row of the slots on which it is placed (R119). -/
def rowsFree (s : State) (g : Gang) : Bool :=
  let t := s.mapVlcs fun v => if v.gang = g.id then { v with status := .absent } else v
  g.cores.all fun c => decide (lentRows t c ≤ 384 * emptySlots s c)

/-! ### The start of a gang (R259, R288, R320) -/

/-- A gang starts: the acquire at sys on its cores. -/
def startGang (s : State) (g : Gang) : State :=
  let s := g.cores.foldl (fun s c => acquireAt s c .sys) s
  s.modGang g.id fun g => { g with st := .resident }

/-! ### Clearing cores (R25, R195, R303) -/

/-- The members of a gang leave their places. -/
def dropMembers (s : State) (g : Nat) : State :=
  { s with
    vlc := if s.vlc.gang = g ∧ s.vlc.status ≠ .absent then { Vlc.reset with core := s.vlc.core, slot := s.vlc.slot } else s.vlc
    others := s.others.filter fun v => v.gang != g || v.status == .absent }

/-- Clear a gang's part of a core: LS bytes, full-empty bits, reservation and accumulators. -/
def clearCore (s : State) (g : Gang) (core base : Nat) : State :=
  let len := shapeLs g.shape
  let inLs (off : Nat) : Bool := decide (base ≤ off) && decide (off < base + len)
  let a := lsAddr core base
  let s := { s with mem := s.mem.filter fun x => !(decide (a ≤ x.1) && decide (x.1 < a + len)) }
  s.modCore core fun k =>
    let k := { k with
      fe := emptyRegion base len k.fe
      feq := k.feq.filter fun x => !inLs (x.1 * 16)
      lsPoison := k.lsPoison.filter fun w => !inLs (w * 4) }
    if k.accGang = some g.id then { k with accGang := none, accOwner := none, acc := [], accPoison := [] } else k

/-- Clear a gang's cores: they count as free, with their L1s written back and empty where no other gang holds them. -/
def clearGang (s : State) (g : Gang) : State :=
  let places := (s.gangVlcs g.id).map fun v => (v.core, v.slot)
  let s := { s with watches := s.watches.filter fun w => !places.contains (w.core, w.slot) }
  let s := dropMembers s g.id
  let s := (g.cores.zip g.lsBase).foldl (fun s x => clearCore s g x.1 x.2) s
  let s := if shapeFused g.shape then flushCluster s g.die g.cluster else s
  g.cores.foldl (fun s c => if (coreGangs s c).any fun x => x.id != g.id then s else flushCore s c) s

/-! ### Pool records (R371) -/

/-- A free record of a die's pool. -/
def freePool (s : State) (d : Nat) : Option Nat :=
  (List.range (s.die d).poolCount).find? fun k => !(s.die d).poolUsed.contains k

def takePool (s : State) (d k : Nat) : State := s.modDie d fun x => { x with poolUsed := k :: x.poolUsed }

def releasePool (s : State) (d k : Nat) : State := s.modDie d fun x => { x with poolUsed := x.poolUsed.filter (· != k) }

/-- Give back the pool record that a gang has taken. -/
def dropPool (s : State) (g : Gang) : State :=
  match g.pool with
  | some k => (releasePool s g.die k).modGang g.id fun g => { g with pool := none }
  | none => s

/-- Request a pre-emption: a pool record is taken first, and without one nothing happens. -/
def requestHalt (s : State) (g : Gang) (why : HaltWhy) : Option State :=
  match freePool s g.die with
  | none => none
  | some k => some ((takePool s g.die k).modGang g.id fun g => { g with pool := some k, st := .halting why })

/-- PREEMPT reads 1 until every gang of the queue that it named is saved (R316). -/
def settlePreempt (s : State) (q : Nat) : State :=
  if s.gangs.any fun g => g.queue == q && g.wantSave then s else s.modQueue q fun p => { p with preempt := false }

/-! ### The halt (R31, R32) -/

/-- A VLC stops at an instruction boundary; a wait is left and executed again on resume, where a barrier that has completed is found
satisfied (R32, R333). -/
def haltVlc (v : Vlc) : Vlc :=
  let v := { v with vwait := .no }
  match v.status with
  | .running => { v with status := .halted }
  | .waiting (.barrier id) => { v with status := .halted, queuedWait := false, barrier := some (id, false) }
  | .satisfied (.barrier id) => { v with status := .halted, queuedWait := false, barrier := some (id, true) }
  | .waiting _ => { v with status := .halted, queuedWait := false }
  | .satisfied _ => { v with status := .halted, queuedWait := false }
  | _ => v

/-- Remove the queued full-empty reads of a gang's VLCs, and serve the reads behind them. -/
def leaveGranules (s : State) (g : Gang) : State :=
  let slots (c : Nat) : List Nat := ((s.gangVlcs g.id).filter fun v => v.core == c).map (·.slot)
  g.cores.foldl (fun s c => feWake (s.modCore c fun k => { k with feq := k.feq.filter fun x => !(slots c).contains x.2 }) c) s

/-- GANG_HALT: every VLC of the gang stops; a gang that the host's PREEMPT still waits for is asked to halt once a pool record
is free (R371). -/
def execGangHalt (gang : Nat) (s : State) : Out :=
  match s.findGang gang with
  | none => .next s
  | some g =>
    match g.st with
    | .halting why =>
      let s := leaveGranules s g
      let s := s.mapVlcs fun v => if v.gang = gang then haltVlc v else v
      .next (s.modGang gang fun g => { g with st := .halted why })
    | .resident => .next (if g.wantSave then (requestHalt s g .host).getD s else s)
    | _ => .next s

/-! ### Context records (R373) -/

/-- A piece of a record: byte offset, value and length in bytes. -/
abbrev Pieces := List (Nat × Nat × Nat)

/-- The names that are not dead, in ascending order: their rows are numbered so. -/
def liveNames (f : VFile) : List Nat := (List.range 256).filter fun n => !f.dead.getLsbD n

/-- An entry of the name map. -/
def nameEntry (f : VFile) (n : Nat) : Nat :=
  ((List.range n).filter fun k => !f.dead.getLsbD k).length % 2048 + (if f.dead.getLsbD n then 2 ^ 11 else 0)
    + (f.tagOf n).toNat * 2 ^ 12

/-- The strips in flight of a VLC (R148, R152). -/
def stripsOf (v : Vlc) : List Strip := (v.fan.map (·.strips)).getD []

/-- Names with a private row of a strip, in ascending order (R149). -/
def privateNames (f : VFile) : List Nat := (List.range 256).filter fun n => f.wrote.getLsbD n && !f.dead.getLsbD n

/-- The rows that ended strips leave (R149). -/
def leftRows (v : Vlc) : List StripWrite := ((v.fan.map (·.left)).getD []).filter fun x => !x.dead

/-- The live rows of a VLC in the order of their numbers: those of the VLC's names, of each strip in flight, and of the ended strips
(R373; assumption 16, DESIGN CHOICE). -/
def sectionRows (v : Vlc) : List Nat :=
  (liveNames v.vf).map v.vf.row ++ (stripsOf v).flatMap (fun x => (privateNames x.vf).map x.vf.row)
    ++ (leftRows v).map fun x => x.row.toNat

def sectionSize (v : Vlc) : Nat := 34816 + 9216 * (stripsOf v).length + 256 * (sectionRows v).length

/-- The entries of the queue that a record keeps. -/
def keptEntries (v : Vlc) : List VEntry := v.vq.filter fun e => !isMarker e.i

/-- A kept entry: R373 lists its contents and gives no layout (assumption 16, DESIGN CHOICE). -/
def keptEntry (e : VEntry) : Nat :=
  bytesNat ((Config.keptEntryImage [e.word.toNat, e.d, e.a, e.b, (e.strip.getD (0, 0)).2, e.xd.toNat, e.xa.toNat, e.xb.toNat,
    e.vl, e.vt.word.toNat, e.frm, e.rot.toNat, e.vscope, e.mvl, e.tsm, e.tsn, e.tsk, e.vidx.toNat,
    (e.seq.getD 0).toNat, e.ahead]).take 64)

/-- Dword 97 of a VLC section. -/
def flagsDword (s : State) (v : Vlc) : Nat :=
  (if v.status = .retired then 1 else 0) + (if v.inHandler then 2 else 0)
    + (if (s.core v.core).accOwner = some v.slot then 4 else 0) + (if v.loop.isSome then 8 else 0) + (stripsOf v).length * 16
    + (keptEntries v).length * 2 ^ 8 + (sectionRows v).length * 2 ^ 16 + v.dcode.toNat * 2 ^ 32 + (if v.dvec then 2 ^ 40 else 0)

/-- An entry of the private name map of a strip: its own row, or the VLC's. -/
def stripEntry (v : Vlc) (x : Strip) (first n : Nat) : Nat :=
  if x.vf.wrote.getLsbD n then
    (first + ((List.range n).filter (privateNames x.vf).contains).length) % 2048 + (if x.vf.dead.getLsbD n then 2 ^ 11 else 0)
      + (x.vf.tagOf n).toNat * 2 ^ 12
  else nameEntry v.vf n

/-- VL and VIDX of a strip: those of its oldest entry, else those of the scalar unit, which is still in it. -/
def stripLength (v : Vlc) (x : Strip) : Nat × Word :=
  match v.vq.find? fun e => (e.strip.map (·.2)) == some x.k with
  | some e => (e.vl, e.vidx)
  | none => (v.vl, v.vidx)

/-- The record of a strip: its header, with the place of its stopped entry among the kept ones, its private name map and its
predicates (R152, R373; assumption 16, DESIGN CHOICE). -/
def stripRecord (v : Vlc) (x : Strip) (first : Nat) : Pieces :=
  let (vl, vidx) := stripLength v x
  let stopped := ((keptEntries v).findIdx? fun e => (e.strip.map (·.2)) == some x.k).getD 64
  [(0, bytesNat ((Config.keptEntryImage [x.k, vl, vidx.toNat, if x.at_.isSome then stopped else 64, (x.at_.getD 0).toNat]).take 64), 64)]
  ++ (List.range 256).map (fun n => (64 + 2 * n, stripEntry v x first n % 2 ^ 16, 2))
  ++ (List.range 16).map (fun n => (576 + 512 * n, if n = 0 then 2 ^ 4096 - 1 else (x.vf.p[n]?.getD 0).toNat, 512))

/-- The strip records, with the number of the first private row of the next one. -/
def stripRecords (v : Vlc) : Nat → Nat → List Strip → Pieces
  | _, _, [] => []
  | k, first, x :: t =>
    (stripRecord v x first).map (fun p => (0x8800 + 9216 * k + p.1, p.2)) ++ stripRecords v (k + 1) (first + (privateNames x.vf).length) t

/-- The section of one VLC. -/
def vlcPieces (s : State) (v : Vlc) : Pieces :=
  let t := { s with vlc := v }
  let loop := v.loop.getD ⟨0, 0, false, false, 0, 0, 0⟩
  let own := (s.core v.core).accOwner = some v.slot
  (List.range 0x60).map (fun n => (8 * n, if ctlAssigned n then (ctlGet t n).toNat else 0, 8))
  ++ [(768, v.rpc.toNat, 8), (776, flagsDword s v, 8), (784, loop.start.toNat, 8),
      (792, loop.len + (if loop.p then 2 ^ 16 else 0) + (if loop.balanced then 2 ^ 17 else 0), 8)]
  ++ (List.range 256).map (fun n => (0x400 + 8 * n, (v.getX n).toNat, 8))
  ++ (List.range 16).map (fun n => (0xC00 + 512 * n, if n = 0 then 2 ^ 4096 - 1 else (v.vf.p[n]?.getD 0).toNat, 512))
  ++ v.plans.map (fun p => (0x2C00 + 64 * p.1, p.2.header, 64))
  ++ (List.range 256).map (fun n => (0x3400 + 4 * n, nameEntry v.vf n, 4))
  ++ (keptEntries v).zipIdx.map (fun e => (0x3800 + 64 * e.2, keptEntry e.1, 64))
  ++ (if own then (s.core v.core).acc.map (fun r => (0x4800 + 256 * r.1, r.2.toNat, 256)) else [])
  ++ stripRecords v 0 (liveNames v.vf).length (stripsOf v)
  ++ (sectionRows v).zipIdx.map (fun r => (34816 + 9216 * (stripsOf v).length + 256 * r.2, r.1, 256))

/-- The size of an LS image. -/
def lsImageSize (g : Gang) : Nat := shapeLs g.shape + ceilDiv (shapeLs g.shape / 16) 64 * 8

/-- The LS image of one core: the declared bytes and a bit for each granule. -/
def lsPieces (s : State) (g : Gang) (core base : Nat) : Pieces :=
  let len := shapeLs g.shape
  let a := lsAddr core base
  let bits := ((s.core core).fe.filter fun x => decide (base / 16 ≤ x) && decide (x < (base + len) / 16)).foldl
    (fun m x => m + 2 ^ (x - base / 16)) 0
  ((s.mem.filter fun x => decide (a ≤ x.1) && decide (x.1 < a + len)).map fun x => (x.1 - a, x.2.toNat, 1))
    ++ [(len, bits, ceilDiv (len / 16) 64 * 8)]

/-- Pieces one after another, each with its size. -/
def layOut : Nat → List (Nat × Pieces) → Pieces
  | _, [] => []
  | off, (n, ps) :: t => ps.map (fun p => (off + p.1, p.2)) ++ layOut (off + n) t

def vectorNat {w n : Nat} (v : Vector (BitVec w) n) : Nat := v.toList.foldr (fun x acc => x.toNat + 2 ^ w * acc) 0

/-- The members of a gang in order. -/
def membersOf (s : State) (g : Nat) : List Vlc :=
  (List.range 32).filterMap fun m => (s.gangVlcs g).find? fun v => v.member == m

/-- The length of a gang's record. -/
def recordLength (s : State) (g : Gang) : Nat :=
  8448 + (membersOf s g.id).foldl (fun n v => n + sectionSize v) 0 + g.cores.length * lsImageSize g

/-- The header of a context record. -/
def contextHeader (s : State) (g : Gang) : Nat :=
  let node := ((s.findNode g.node).map (·.idx)).getD 0xFFFF
  recordLength s g + g.members * 2 ^ 32 + 2 ^ 48 + g.gangid.toNat * 2 ^ 64 + g.shape.toNat * 2 ^ 128 + node * 2 ^ 146
    + g.tenant.toNat * 2 ^ 168 + g.wdog % 2 ^ 41 * 2 ^ 192 + g.hbwin.toNat * 2 ^ 256 + g.exited.toNat * 2 ^ 288
    + vectorNat g.arrive * 2 ^ 320 + vectorNat g.ss * 2 ^ 576 + vectorNat g.ssv * 2 ^ 1600

/-- The whole record of a gang. -/
def contextPieces (s : State) (g : Gang) : Pieces :=
  [(0, contextHeader s g, 256)]
  ++ (List.range 128).map (fun t => (256 + 64 * t, (g.tid t).toNat, 64))
  ++ layOut 8448 ((membersOf s g.id).map (fun v => (sectionSize v, vlcPieces s v))
      ++ (g.cores.zip g.lsBase).map (fun x => (lsImageSize g, lsPieces s g x.1 x.2)))

/-- The physical address of a pool record. -/
def poolAddr (s : State) (d k : Nat) : Nat := (s.die d).poolBase + k * 2 ^ 24

/-- The die controller of a die reads or writes a range of its pool: each line is one remote access where its home is another die
(R354).  The controller's accesses are not the queue's and allocate nothing in the L2 (assumption 85, DESIGN CHOICE). -/
def countPool (s : State) (die q pa len : Nat) (write : Bool) : State :=
  (List.range (ceilDiv (pa % 65536 + len) 65536)).foldl (fun s k =>
    let page := pa / 65536 + k
    let lo := max pa (page * 65536)
    let hi := min (pa + len) (page * 65536 + 65536)
    if placeOf lo ≠ .device ∨ homeDie lo = die then s
    else { s with modes := Tab.mod PageMode.reset s.modes page fun m =>
      let n := (hi + 127) / 128 - lo / 128
      if write then { m with rw := min (m.rw + n) 0xFFFF, queue := q } else { m with rr := min (m.rr + n) 0xFFFF, queue := q } }) s

/-- Write a record over a region of memory that reads zero elsewhere; a checkpoint copies its pages first (R401). -/
def writePieces (s : State) (die q pa len : Nat) (ps : Pieces) : State :=
  let s := (List.range (ceilDiv (pa % 65536 + len) 65536)).foldl (fun s k => copyFirst s (pa + 65536 * k)) s
  let s := countPool s die q pa len true
  let m := s.mem.filter fun x => !(decide (pa ≤ x.1) && decide (x.1 < pa + len))
  { s with
    mem := ps.foldl (fun m p => memWrite m (pa + p.1) p.2.2 p.2.1) m
    poison := s.poison.filter fun sec => !coversSector pa len sec }

/-! ### The save (R372) -/

/-- A range of bytes meets the LS window. -/
def meetsLs (a n : Nat) : Bool := n != 0 && decide (a < lsWindow + lsBytes) && decide (lsWindow < a + n)

/-- The bytes of an operation at its destination: the elements of its result for a collective. -/
def dstBytes (o : EngOp) : Nat :=
  if o.efn = 2 then ceilDiv ((if optOp o.opt = 3 then o.len.toNat * o.members.length else o.len.toNat) * optBits o.opt) 8 else o.len.toNat

/-- The bytes of an operation at its source. -/
def srcBytes (o : EngOp) : Nat := if o.efn = 2 then ceilDiv (ownCount o * optBits o.opt) 8 else o.len.toNat

/-- An operation that its engine performs names the LS window of its issuer (R342). -/
def namesLs (o : EngOp) : Bool :=
  o.hold.isNone && (meetsLs o.dst.toNat (dstBytes o) || meetsLs o.src.toNat (srcBytes o))

/-- A bound plan is saved stale (R305). -/
def stalePlans (v : Vlc) : Vlc :=
  { v with plans := v.plans.map fun x => (x.1, if x.2.st = 2 then { x.2 with st := 3 } else x.2) }

/-- The node of a saved gang: back at the head of its level, or waiting for the host's answers (R33, R370). -/
def afterSave (s : State) (g : Gang) : State :=
  match s.findNode g.node with
  | none => s
  | some n => if g.awaits.isEmpty then reenter s n else s.modNode n.id fun n => { n with st := .saved }

/-- A saved gang that the host has killed: its pool record is freed, and its node completes as failed (R359, R378). -/
def finishKilled (s : State) (g : Gang) (d k : Nat) : State :=
  let s := releasePool s d k
  let s := { s with gangs := s.gangs.filter fun x => x.id != g.id }
  markDone (settlePreempt s g.queue) g.node true

/-- Save a halted gang into a pool record of its die. -/
def saveGang (s : State) (g : Gang) (k : Nat) : State :=
  let s := s.mapVlcs fun v => if v.gang = g.id then stalePlans v else v
  let s := writePieces s g.die g.queue (poolAddr s g.die k) (recordLength s g) (contextPieces s g)
  let places := g.cores.zip g.lsBase
  let len := shapeLs g.shape
  let ls := places.map fun x =>
    let a := lsAddr x.1 x.2
    (s.mem.filter fun (c : Host.Cell) => decide (a ≤ c.1) && decide (c.1 < a + len)).map fun (c : Host.Cell) => (c.1 - a, c.2)
  let fe := places.map fun x =>
    ((s.core x.1).fe.filter fun y => decide (x.2 / 16 ≤ y) && decide (y < (x.2 + len) / 16)).map (· - x.2 / 16)
  let acc := (membersOf s g.id).filterMap fun v =>
    if (s.core v.core).accOwner = some v.slot then some (v.member, (s.core v.core).acc) else none
  let vs := membersOf s g.id
  let s := g.cores.foldl (fun s c => flushCore (releaseAt s c .sys) c) s
  let s := clearGang s g
  let s := s.modGang g.id fun g => { g with
    st := .saved g.die k
    cores := []
    lsBase := []
    pool := none
    wantSave := false
    savedVlcs := vs
    savedLs := ls
    savedFe := fe
    savedAcc := acc }
  giveCluster (if g.killed then finishKilled s g g.die k else afterSave (settlePreempt s g.queue) g) g

/-- A record of a gang has been posted and awaits its answer. -/
def hasOpenRecord (s : State) (g : Nat) : Bool := s.openRecs.any fun r => r.gang == some g && !r.answered

/-- The pool record that a halted gang saves into: the one taken, or for a fault a free one (R371).  One that was posted on
its cores moves only for a PREEMPT. -/
def saveInto (s : State) (g : Gang) : Option (State × Nat) :=
  match g.st with
  | .halted why =>
    match g.pool with
    | some k => some (s, k)
    | none =>
      if why ≠ .fault ∨ hasOpenRecord s g.id ∧ !g.wantSave then none
      else (freePool s g.die).map fun k => (takePool s g.die k, k)
  | _ => none

/-- Whether a save can run now. -/
def canSave (s : State) (g : Gang) : Bool :=
  (saveInto s g).isSome && !s.engines.any fun o => o.gang == some g.id && namesLs o

/-- GANG_SAVE. -/
def execGangSave (gang : Nat) (s : State) : Out :=
  match s.findGang gang with
  | none => .next s
  | some g =>
    if !canSave s g then .next s
    else
      match saveInto s g with
      | none => .next s
      | some (s, k) => .next (saveGang s g k)

/-! ### The restore (R372, R374) -/

/-- The check of a record's header against the node. -/
def headerFits (s : State) (g : Gang) (d k : Nat) (n : Node) : Bool :=
  let h := memRead s.mem (poolAddr s d k) 32
  field h 48 16 == 1 && decide (field h 0 32 ≤ 2 ^ 24) && field h 168 12 == (s.queue n.queue).tenant.toNat
    && field h 128 18 == (recShape n.image).toNat
    && field h 0 32 == recordLength s { g with cores := g.cores }

/-- A member resumes: PSEQ and the core's Q meet, and a halted member runs again (R349, R374). -/
def resumeVlc (v : Vlc) : Vlc :=
  match v.status with
  | .halted => { v with status := .running }
  | .suspended => { v with status := .running }
  | _ => v

/-- Put a core's LS image back: the bytes of the region and its full-empty bits are those of the record (R191, R374). -/
def restoreLs (s : State) (core base len : Nat) (cells : List Host.Cell) (fe : List Nat) : State :=
  let a := lsAddr core base
  let m := s.mem.filter fun x => !(decide (a ≤ x.1) && decide (x.1 < a + len))
  let s := { s with mem := cells.foldl (fun (m : List Host.Cell) (c : Host.Cell) => memSetByte m (a + c.1) c.2) m }
  s.modCore core fun k => { k with fe := fe.foldl (fun l x => insertSorted (x + base / 16) l) (emptyRegion base len k.fe) }

/-- The accumulator array of a member comes back to its new core. -/
def restoreAcc (s : State) (g : Nat) (x : Nat × Tab (BitVec 2048)) : State :=
  match (s.gangVlcs g).find? fun v => v.member == x.1 with
  | none => s
  | some v => s.modCore v.core fun k => { k with acc := x.2, accOwner := some v.slot }

/-- Restore a gang on its new cores. -/
def restoreGang (s : State) (g : Gang) (d k : Nat) : State :=
  let parts := (g.cores.zip g.lsBase).zip (g.savedLs.zip g.savedFe)
  let s := parts.foldl (fun s x => restoreLs s x.1.1 x.1.2 (shapeLs g.shape) x.2.1 x.2.2) s
  let s := g.savedAcc.foldl (fun s x => restoreAcc s g.id x) s
  let s := (s.gangVlcs g.id).foldl (fun s v => s.modCore v.core fun c =>
    { c with q := if c.q.toNat < v.pseq.toNat then v.pseq else c.q }) s
  let s := s.mapVlcs fun v => if v.gang = g.id then resumeVlc v else v
  let s := releasePool s d k
  startGang (s.modGang g.id fun g => { g with savedLs := [], savedFe := [], savedAcc := [] }) g

/-- CONTEXT_RESTORE. -/
def execContextRestore (gang : Nat) (s : State) : Out :=
  match s.findGang gang with
  | none => .next s
  | some g =>
    match g.st, s.findNode g.node with
    | .restoring d k, some n =>
      if !rowsFree s g then .next s
      else if headerFits s g d k n then
        .next (restoreGang (countPool s g.die g.queue (poolAddr s d k) (recordLength s g) false) g d k)
      else
        let s := countPool s g.die g.queue (poolAddr s d k) 256 false
        let s := postNode (releasePool s d k) n fcBUS 4 0
        let s := clearGang s g
        .next (markDone (settlePreempt { s with gangs := s.gangs.filter fun x => x.id != gang } g.queue) n.id true)
    | _, _ => .next s

/-! ### Retirement (R25) -/

/-- The release of a retiring gang has completed on every core. -/
def releasedAll (s : State) (g : Nat) : Bool := s.cores.all fun x => x.2.outs.all fun r => r.gang != g

/-- GANG_RETIREMENT: the cores are cleared, and the node's task has ended. -/
def execGangRetirement (gang : Nat) (s : State) : Out :=
  match s.findGang gang with
  | none => .next s
  | some g =>
    match g.st with
    | .releasing failed =>
      if !releasedAll s gang then .next s
      else
        let s := clearGang (dropPool s g) g
        let s := { s with gangs := s.gangs.filter fun x => x.id != gang }
        .next (giveCluster (markDone (settlePreempt s g.queue) g.node failed) g)
    | _ => .next s

/-- RELEASE_QUERY: an addressee whose arrivals equal the count reports. -/
def execReleaseQuery (core round unit : Nat) (s : State) : Out :=
  if core ≥ 576 then .fault .noSuchUnit
  else
    .next (s.modCore core fun k => { k with
      outs := k.outs.map fun r =>
        if r.round.toNat = round ∧ Tab.get 0 s.arrivals (arrivalKey core round unit) = Tab.get 0 r.counts unit then
          { r with counts := Tab.set 0 r.counts unit 0 }
        else r })

/-- RELEASE_COMPLETION: every addressee has reported, and the counts of its round need no longer be kept. -/
def execReleaseCompletion (core round : Nat) (s : State) : Out :=
  if core ≥ 576 then .fault .noSuchUnit
  else .next (keepRounds (s.modCore core fun k => { k with
    outs := k.outs.filter fun r => !(r.round.toNat == round && r.counts.isEmpty) }) core)

/-- ROUND_AUTO_CLOSE: a core closes a round before the count of one addressee reaches 2^32 - 1 (R351). -/
def execRoundAutoClose (core : Nat) (s : State) : Out :=
  if core ≥ 576 then .fault .noSuchUnit
  else if (s.core core).sent.any fun x => decide (x.2 ≥ 2 ^ 32 - 2) then .next (closeRound s core)
  else .next s

/-! ### Fencing a gang (R359, R370, R375) -/

/-- Records of a gang that wait for a slot or an answer are dropped. -/
def dropRecords (s : State) (g : Nat) : State :=
  { s with
    pendRecs := s.pendRecs.filter fun r => r.gang != some g
    openRecs := s.openRecs.filter fun r => r.gang != some g }

/-- Every member of a gang retires, and the entries that have not started are dropped. -/
def retireAll (s : State) (g : Nat) : State :=
  let s := (s.gangVlcs g).foldl (fun s v => dropHolds (dropAccumulator s v.core v.slot) v.vq) s
  s.mapVlcs fun v => if v.gang = g ∧ v.status ≠ .absent then v.retired else v

/-- Steps 1 to 3 of R359 for a gang on its cores: every member stops, and the release of R25 begins. -/
def stopGang (s : State) (g : Gang) : State :=
  let s := leaveGranules s g
  let s := dropPool (retireAll s g.id) g
  beginGangRelease (s.modGang g.id fun g => { g with
    exited := BitVec.allOnes 32
    wantSave := false
    st := .releasing true }) g

/-- Whether a gang's save is in progress (R378). -/
def saving (g : Gang) : Bool :=
  g.pool.isSome && match g.st with
    | .halting _ => true
    | .halted _ => true
    | _ => false

/-- Fence a gang wherever it stands. -/
def fenceGang (s : State) (g : Gang) : State :=
  match g.st with
  | .saved d k => finishKilled s g d k
  | .restoring d k => (stopGang (releasePool s d k) g)
  | .releasing _ => s
  | _ => stopGang s g

/-- The host kills a gang: a save in progress completes first (R370, R378). -/
def killGang (s : State) (g : Gang) : State :=
  let s := dropRecords s g.id
  if saving g then s.modGang g.id fun g => { g with killed := true, awaits := [] } else fenceGang s g

/-- The record of a fenced gang: SRC 4 (R369). -/
def postGang (s : State) (g : Gang) (code : BitVec 8) (info : Nat) : State :=
  let f : FaultInfo := ⟨code, false, 0, 0, BitVec.ofNat 64 info⟩
  let idx := ((s.findNode g.node).map (·.idx)).getD 0xFFFF
  (s.addRecord g.queue (faultRecord f 0 g.gangid g.tenant 0 0 (controllerProducer g.die) idx 4 false 0) none none).1

/-- The watchdog of a gang on its cores has reached 2^EXP (R359, R360). -/
def watchdogDue (g : Gang) : Bool := gangPlaced g && decide (2 ^ g.hbwin.toNat ≤ g.wdog)

/-- WATCHDOG (R359). -/
def execWatchdog (gang : Nat) (s : State) : Out :=
  match s.findGang gang with
  | none => .next s
  | some g =>
    if watchdogDue g then .next (fenceGang (postGang (dropRecords s gang) g fcWATCHDOG (g.wdog % 2 ^ 41)) g) else .next s

/-- A fenced function stops a gang with a BUS record (R375). -/
def stopForFence (s : State) (g : Gang) : State := fenceGang (postGang (dropRecords s g.id) g fcBUS 4) g

/-! ### Descriptor blocks (R320) -/

/-- Read and check `n` descriptors from an address: the entries, or the first fault. -/
def readDescs (p : Party) : Nat → Nat → Word → State → State × Except Trap (List (Nat × BitVec 512))
  | 0, _, _, s => (s, .ok [])
  | n + 1, t, va, s =>
    match readHomeDwords s p va 8 with
    | (s, .error e) => (s, .error e)
    | (s, .ok ws) =>
      match readDescs p n (t + 1) (va + 64) s with
      | (s, .error e) => (s, .error e)
      | (s, .ok xs) => (s, .ok ((t, record512 ws) :: xs))

/-- Check descriptors in ascending identifier. -/
def checkDescs : List (Nat × BitVec 512) → Except Trap (List (Nat × BitVec 512))
  | [] => .ok []
  | (t, x) :: rest =>
    match descResult x.toNat with
    | .error c => .error (tidTrap c t)
    | .ok y =>
      match checkDescs rest with
      | .error e => .error e
      | .ok ys => .ok ((t, y) :: ys)

/-- The descriptors of a node's block. -/
def blockDescs (s : State) (die : Nat) (n : Node) : State × Except Trap (List (Nat × BitVec 512)) :=
  let va := BitVec.ofNat 64 (field (recOpt n.image) 0 56)
  let count := field (recOpt n.image) 56 8
  if count = 0 then (s, .ok [])
  else if va.toNat % 64 ≠ 0 then (s, .error (trapAt fcALIGN va 0))
  else
    match readDescs (queueParty die n.queue) count 0 va s with
    | (s, .error e) => (s, .error e)
    | (s, .ok xs) => (s, checkDescs xs)

/-- DESCRIPTOR_BLOCK_LOAD: the gang starts with its descriptors, or its node fails with one record. -/
def execDescriptorBlockLoad (gang : Nat) (s : State) : Out :=
  match s.findGang gang with
  | none => .next s
  | some g =>
    match g.st, s.findNode g.node with
    | .loading, some n =>
      if !rowsFree s g then .next s
      else match blockDescs s g.die n with
      | (s, .ok xs) =>
        let s := s.modGang gang fun g => { g with tids := xs.foldl (fun t x => Tab.set 0 t x.1 x.2) g.tids }
        .next (startGang s g)
      | (s, .error e) =>
        let s := postNode (countPoisonFault s e.code g.die) n e.code e.info.toNat e.va
        let s := clearGang s g
        .next (markDone (settlePreempt { s with gangs := s.gangs.filter fun x => x.id != gang } g.queue) n.id true)
    | _, _ => .next s

/-! ### The task instructions (R331, R333, R334) -/

/-- `gbar`: a release at gang scope and an arrival; the last arrival completes the barrier at once.  A member that was halted in the
wait arrives again without being counted twice, and finds the barrier satisfied where it has completed since (R32, R333). -/
def execGbar (id : Fld) (s : State) : Out :=
  if 8 ≤ id.toNat then scalarStop s (decodeTrap fcFIELD (wordOf (.gbar id)) 2)
  else
    let v := s.vlc
    let s := releaseAt s v.core .gang
    let k := id.toNat
    let pass (s : State) : State := (acquireAt s v.core .gang).pass
    if v.barrier = some (k, true) then .next (pass (s.modVlc fun v => { v with barrier := none }))
    else
      let s := (s.modVlc fun v => { v with barrier := none }).modGang v.gang fun g => { g with
        arrive := g.arrive.setIfInBounds k ((g.arrive[k]?.getD 0) ||| memberBit v.member) }
      if barrierDone s.gang k then .next (pass (completeBarrier s v.gang k))
      else .next (s.modVlc fun v => { v with status := .waiting (.barrier k), queuedWait := true })

/-- `tend`: every member retires; entries that have not started are dropped (R25). -/
def execTend (s : State) : Out :=
  let gid := s.vlc.gang
  let s := leaveGranules s s.gang
  .next (endIfLast ((retireAll s gid).modGang gid fun g => { g with exited := BitVec.allOnes 32 }) gid)

/-- A ready node that could take a core of the issuing gang (R334). -/
def couldReplace (s : State) (g : Gang) (n : Node) : Bool :=
  let level := ((s.findNode g.node).map (·.level)).getD 0
  let t := withoutGang s g.id
  let sh := recShape n.image
  let xs := fittingCores t g.die g.cluster n.queue sh
  n.st == .ready && n.slot.isSome && n.hold.isNone && !n.assisted && recKind n.image == 0 && n.die == g.die && decide (n.level ≥ level)
    && (s.queue n.queue).en && inMask s n.queue g.die g.cluster && decide (xs.length ≥ shapeCores sh)
    && xs.any fun x => g.cores.contains x.1

/-- `tyield`: the gang's place is offered, or nothing changes; the VLC goes on at the next instruction. -/
def execTyield (s : State) : Out :=
  let s := s.pass
  let g := s.gang
  if g.st = .resident ∧ !s.isFenced g.die 7 0 ∧ s.nodes.any fun n => couldReplace s g n then
    .next ((requestHalt s g .tyield).getD s)
  else .next s

/-! ### Waits that wake (R20, R346, R348, R358) -/

/-- Complete a satisfied wait: the acquire at its scope, and the next instruction; a wait that was queued is progress. -/
def wakeWith (s : State) (sc : Scope) : State :=
  let v := s.vlc
  let s := (acquireAt s v.core sc).modVlc fun v => ({ v with status := .running, queuedWait := false } : Vlc).next
  if v.queuedWait then s.progress v.gang else s

/-- The granules of an element of the vector half are full: its entry goes on.  It is progress where the element completes, and none
where its granules have been emptied meanwhile (R192, R358). -/
def wakeEntry (s : State) (k : Nat) : State :=
  match s.vlc.vq[k]? with
  | none => s.modVlc fun v => { v with vwait := .no }
  | some e =>
    let t := runEntry (bodyOf e.i) k none e (s.modVlc fun v => { v with vwait := .no })
    (if t.vlc.vq.length < s.vlc.vq.length ∨ standing e.strip t.vlc ≠ standing e.strip s.vlc then t.progress s.vlc.gang else t).settle

/-- Wake the VLC at the front: its scalar half, or an entry of its queue. -/
def wakeFront (s : State) : State :=
  match s.vlc.status with
  | .satisfied (.counter _ _ sc) => wakeWith s sc
  | .satisfied (.progress _ _ sc) => wakeWith s sc
  | .satisfied (.barrier _) => wakeWith s .gang
  | .running =>
    match s.vlc.vwait with
    | .served k => wakeEntry s k
    | _ => s
  | _ => s

/-- Run `f` with a VLC at the front, and put the turns back. -/
def atFront (s : State) (core slot : Nat) (f : State → State) : State :=
  if s.vlc.core = core ∧ s.vlc.slot = slot ∧ s.vlc.status ≠ .absent then f s
  else
    match s.others.find? fun v => v.core == core && v.slot == slot && v.status != .absent with
    | none => s
    | some v =>
      let old := s.vlc
      let mark := s.others
      let t := f { s with vlc := v, others := old :: (mark.erase v) }
      match t.others with
      | front :: rest => { t with vlc := front, others := rest ++ [t.vlc] }
      | [] => t

/-- WAIT_WAKE. -/
def execWaitWake (core slot : Nat) (s : State) : Out :=
  if core ≥ 576 ∨ slot ≥ 4 then .fault .noSuchUnit else .next (atFront s core slot wakeFront)

end Sys2Proof.Machine
end

