-- ==== Sys2Proof/Machine/Landau.lean ====
section
/-! DEFINITION. Landau: launches, reading node records, dispatch, aging, lending, graph completion, host-assisted placement, and
the posting of records (spec/11_queues.md R316, R317, R321, R323 to R325, R341; spec/13 R368; spec/14 R384). -/

namespace Sys2Proof.Machine

/-- Landau of a die is in service. -/
def landauUp (s : State) (d : Nat) : Bool := s.booted d && !s.isFenced d 7 0 && !s.isFenced d 8 0

/-! ### Launches (R317) -/

/-- The record breaks a rule of R317. -/
def launchBad (whole : Bool) (r : BitVec 512) : Bool :=
  let n := r.toNat
  let vec := field n 256 16
  !whole || field n 273 239 != 0 || field n 145 47 != 0 || field n 128 16 == 0 || field n 0 6 != 0
  || (bitOf n 272 && (decide (vec < 1024) || decide (vec > 2045)))

/-- A launch is dropped and counted. -/
def dropLaunch (s : State) (q : Nat) : State :=
  s.modQueue q fun p => { p with dropped := if p.dropped = 0xFFFF then p.dropped else p.dropped + 1 }

/-- The graph of a launch record. -/
def newGraph (id q die : Nat) (n : Nat) : Graph where
  id := id
  queue := q
  die := die
  base := BitVec.ofNat 64 (field n 0 64)
  arg := BitVec.ofNat 64 (field n 64 64)
  nodes := field n 128 16
  ord := bitOf n 144
  done := BitVec.ofNat 64 (field n 192 64)
  irq := bitOf n 272
  vec := field n 256 16
  left := field n 128 16
  next := 0
  due := []
  stopped := false

/-- LAUNCH. -/
def execLaunch (q : Nat) (whole : Bool) (rec : BitVec 512) (s : State) : Out :=
  if q ≥ 1024 then .fault .noSuchUnit
  else
    let p := s.queue q
    if !p.en || launchBad whole rec || s.isFenced p.origin 7 0 then .next (dropLaunch s q)
    else
      let (s, id) := s.takeFresh
      .next { s with graphs := s.graphs ++ [newGraph id q p.origin rec.toNat] }

/-! ### Node records (R321, R324) -/

/-- Post the record of a refused index of a graph. -/
def postIndex (s : State) (g : Graph) (idx : Nat) (code : BitVec 8) (info : Nat) : State :=
  postRecord s g.queue 2 (landauProducer g.die) idx code info 0

/-- A record of a graph has been dealt with. -/
def advanceGraph (s : State) (g : Graph) : State := s.modGraph g.id fun g => { g with next := g.next + 1 }

/-- A record fails: its record to the host, its successors, and one node fewer to wait for. -/
def refuseRecord (s : State) (g : Graph) (image : Option (BitVec 512)) (code : BitVec 8) (info : Nat) : State :=
  let s := advanceGraph (postIndex s g g.next code info) g
  let s := match image with
    | some r => (List.range 4).foldl (fun s j =>
        if recSucc r j < g.nodes then decrement s g.id (recSucc r j) else s) s
    | none => s
  countDone s g.id

/-- Take the next record of a graph. -/
def readRecord (s : State) (g : Graph) : State :=
  if g.stopped then refuseRecord s g none fcQUEUE 8
  else
    match readHomeDwords s (queueParty g.die g.queue) (g.base + BitVec.ofNat 64 (64 * g.next)) 8 with
    | (s, .error t) => refuseRecord (countPoisonFault s t.code g.die) g none fcQUEUE 8
    | (s, .ok ws) =>
      let r := record512 ws
      match recordRefused r g.nodes with
      | some .queue => refuseRecord s g (some r) fcQUEUE 8
      | some .shape => refuseRecord s g (some r) fcSHAPE 0
      | none =>
        let deps := recDeps r - g.due.count g.next
        let (t, id) := s.takeFresh
        match arriveNode t (newNode t id g.id g.queue g.die g.next r deps none none) with
        | (_, .full) => refuseRecord (s.modGraph g.id fun g => { g with stopped := true }) g (some r) fcQUEUE 8
        | (t, _) => readyIfFree (advanceGraph t g) id

/-- The graph whose records a die's Landau reads next: launches in the order in which they were taken. -/
def readingGraph (s : State) (d : Nat) : Option Graph := s.graphs.find? fun g => g.die == d && decide (g.next < g.nodes)

/-- NODE_RECORD_READ. -/
def execNodeRecordRead (die : Nat) (s : State) : Out :=
  if die ≥ 4 then .fault .noSuchUnit
  else if !landauUp s die then .next s
  else
    match readingGraph s die with
    | none => .next s
    | some g => .next (readRecord s g)

/-! ### Dispatch (R323) -/

def topLevel (ns : List Node) : Nat := ns.foldl (fun m n => max m n.level) 0

/-- A node has a place now. -/
def placeable (s : State) (n : Node) : Bool :=
  match recKind n.image with
  | 0 => (diePlace s n.die n.queue (recShape n.image)).isSome
  | 1 => engineRoom s n
  | _ => (freeLane s n.die).isSome

/-- Dispatch a node to its place on its origin die. -/
def dispatchNode (s : State) (n : Node) : State :=
  match recKind n.image with
  | 0 =>
    match diePlace s n.die n.queue (recShape n.image) with
    | some (cl, xs) => placeNode s n n.die cl xs
    | none => s
  | 1 => startEngineNode s n
  | _ =>
    match freeLane s n.die with
    | some lane => startHansom s n lane
    | none => s

def setVisit (s : State) (d q : Nat) (goes : Bool) : State :=
  s.modLandau d fun l => { l with visit := some q, visiting := goes }

/-- The oldest node of a queue at a level. -/
def oldestAt (ns : List Node) (lvl q : Nat) : Option Node := minOrder (ns.filter fun n => n.level == lvl && n.queue == q)

/-- The oldest node of every queue at every level: the younger ones are held back (R323). -/
def oldestNodes (ns : List Node) : List Node := ns.filter fun n => ((oldestAt ns n.level n.queue).map (·.id)) == some n.id

/-- Dispatch the oldest node of a visited queue: its deficit falls by 1, and to 0 when its list at the level empties. -/
def dispatchFrom (s : State) (d lvl q : Nat) (ns : List Node) (n : Node) : State :=
  let last := (ns.filter fun m => m.level == lvl && m.queue == q).length ≤ 1
  let s := setDeficit s d q (if last then 0 else deficitOf s d q - 1)
  dispatchNode (setVisit s d q (!last)) n

/-- Visit queues in turn until a node is dispatched. -/
def visitQueues (d lvl : Nat) (ns : List Node) : List Nat → State → State × Bool
  | [], s => (s, false)
  | q :: t, s =>
    let w := (s.queue q).weight
    let have_ := deficitOf s d q + w
    match oldestAt ns lvl q with
    | none => visitQueues d lvl ns t s
    | some n =>
      if have_ ≥ 1 ∧ placeable s n then (dispatchFrom (setDeficit s d q have_) d lvl q ns n, true)
      else visitQueues d lvl ns t (setVisit (setDeficit s d q (min have_ w)) d q false)

/-- Queues with a node at a level, in ascending number, those after the queue visited last first. -/
def visitOrder (s : State) (d lvl : Nat) (ns : List Node) : List Nat :=
  let qs := (List.range 1024).filter fun q => ns.any fun n => n.level == lvl && n.queue == q
  match (s.landauOf d).visit with
  | none => qs
  | some v => (qs.filter fun q => decide (v < q)) ++ qs.filter fun q => decide (q ≤ v)

/-- One pick: the visit that goes on, or the next visits.  An open visit ends with its deficit at 0 where its queue has no node at the level
that is now the highest, and an overflowed node counts for no level (assumption 80, DESIGN CHOICE). -/
def pickNode (s : State) (d : Nat) : State × Bool :=
  let ns := candidates s d
  if ns.isEmpty then (s, false)
  else
    let lvl := topLevel ns
    let l := s.landauOf d
    let rest (s : State) : State × Bool := visitQueues d lvl ns (visitOrder s d lvl ns) s
    match l.visiting, l.visit with
    | true, some q =>
      match oldestAt ns lvl q with
      | some n =>
        if deficitOf s d q ≥ 1 ∧ placeable s n then (dispatchFrom s d lvl q ns n, true)
        else rest (setVisit (setDeficit s d q (min (deficitOf s d q) (s.queue q).weight)) d q false)
      | none => rest (setVisit (setDeficit s d q 0) d q false)
    | _, _ => rest s

/-! ### Pre-emption (R325) -/

/-- The level at which a gang runs. -/
def gangLevel (s : State) (g : Gang) : Nat := ((s.findNode g.node).map (·.level)).getD 0

def gangSerial (g : Gang) : Nat := field g.gangid.toNat 0 32

/-- A gang gives up its place already: it retires, or its save has a pool record.  One that is halted for a host fault with none stays on its
cores (R371). -/
def leaving (s : State) (g : Gang) : Bool :=
  match g.st with
  | .halting why => (saveInto s { g with st := .halted why }).isSome
  | .halted _ => (saveInto s g).isSome
  | .releasing _ => true
  | _ => false

/-- The places that become free anyhow. -/
def afterLeaving (s : State) (d : Nat) : State :=
  (s.gangs.filter fun g => g.die == d && leaving s g).foldl (fun s g => withoutGang s g.id) s

/-- The better victim of two: the lower level, then the larger serial. -/
def betterVictim (s : State) (a b : Gang) : Gang :=
  if gangLevel s a < gangLevel s b ∨ gangLevel s a = gangLevel s b ∧ gangSerial a > gangSerial b then a else b

/-- The victim for a node. -/
def victimFor (s : State) (n : Node) : Option Gang :=
  let sh := recShape n.image
  let vs := s.gangs.filter fun g => g.die == n.die && g.st == .resident && decide (gangLevel s g + 2 ≤ n.level)
    && (diePlace (withoutGang s g.id) n.die n.queue sh).isSome
  vs.foldl (fun b g => some (match b with
    | none => g
    | some x => betterVictim s g x)) none

/-- Whether a node asks for a pre-emption: a gang node that has none under way, and for which no gang that leaves anyhow makes room (R325;
assumption 80, DESIGN CHOICE). -/
def wantsVictim (s : State) (n : Node) : Bool :=
  recKind n.image == 0 && n.claim.isNone && (diePlace s n.die n.queue (recShape n.image)).isNone
    && (diePlace (afterLeaving s n.die) n.die n.queue (recShape n.image)).isNone

/-- Pre-empt one victim, for the first of the queues' oldest nodes that has one, the highest level first: the cluster that it leaves is the
node's (R323, R325). -/
def preemptFor (s : State) : List Node → Option State
  | [] => none
  | n :: t =>
    if wantsVictim s n then
      match victimFor s n with
      | some g => (requestHalt s g .priority).map fun s => s.modNode n.id fun n => { n with claim := some g.id }
      | none => preemptFor s t
    else preemptFor s t

/-- Nodes from the highest level down. -/
def byLevel (ns : List Node) : List Node :=
  (List.range 8).flatMap fun k => ns.filter fun n => n.level == 7 - k

/-- DISPATCH: one ready node is placed, or one victim is asked to leave. -/
def execDispatch (die : Nat) (s : State) : Out :=
  if die ≥ 4 then .fault .noSuchUnit
  else if !landauUp s die then .next s
  else
    match pickNode s die with
    | (t, true) => .next t
    | (t, false) => .next ((preemptFor t (byLevel (oldestNodes (candidates t die)))).getD t)

/-! ### Lending and aging (R323, R325) -/

/-- A node that has found no place on its origin die for 2,048 cycles. -/
def lendable (s : State) (n : Node) : Bool :=
  match n.noPlace with
  | some c => recKind n.image == 0 && decide (c + 2048 ≤ (s.die n.die).cycles)
  | none => false

/-- The lowest other die that holds a node now. -/
def lendPlace (s : State) (n : Node) : Option (Nat × Nat × List (Nat × Nat)) :=
  ((List.range 4).filter (· != n.die)).findSome? fun d =>
    (diePlace s d n.queue (recShape n.image)).map fun x => (d, x.1, x.2)

/-- LEND: of the queues' oldest nodes, one that has waited so long goes to another die (R323). -/
def execLend (die : Nat) (s : State) : Out :=
  if die ≥ 4 then .fault .noSuchUnit
  else if !landauUp s die then .next s
  else
    match (byLevel (oldestNodes (candidates s die))).find? fun n => lendable s n && (lendPlace s n).isSome with
    | none => .next s
    | some n =>
      match lendPlace s n with
      | some (d, cl, xs) => .next (placeNode (leaveList s n) n d cl xs)
      | none => .next s

/-- Note since when a ready gang node has had no place on its origin die; passes with time. -/
def trackPlaces (s : State) : State :=
  { s with nodes := s.nodes.map fun n =>
      if n.st = .ready ∧ recKind n.image = 0 ∧ n.slot.isSome then
        if (diePlace s n.die n.queue (recShape n.image)).isSome then { n with noPlace := none }
        else { n with noPlace := some (n.noPlace.getD (s.die n.die).cycles) }
      else n }

/-- A ready node rises one level per aging interval, up to its queue's priority plus one. -/
def ageNode (s : State) (n : Node) : Node :=
  let q := s.queue n.queue
  if n.st = .ready ∧ !n.assisted ∧ n.level < min 7 (q.pri + 1) ∧ n.since + 2 ^ q.age ≤ (s.die n.die).cycles then
    { n with level := n.level + 1, since := n.since + 2 ^ q.age }
  else n

/-- AGING. -/
def execAging (die : Nat) (s : State) : Out :=
  if die ≥ 4 then .fault .noSuchUnit
  else .next { s with nodes := s.nodes.map fun n => if n.die = die then ageNode s n else n }

/-! ### Graphs complete (R28, R317, R347) -/

/-- Increment the DONE counter of a graph, or post why its address failed. -/
def moveDone (s : State) (g : Graph) : State :=
  if g.done = 0 then s
  else
    match access s (queueParty g.die g.queue) .counter g.done 8 .atomic with
    | (s, .ok d) => moveCounter s g.die g.queue d
    | (s, .error t) =>
      postRecord (countPoisonFault s t.code g.die) g.queue 2 (landauProducer g.die) 0xFFFF fcQUEUE
        (12 + t.code.toNat * 2 ^ 8 + field t.info.toNat 0 8 * 2 ^ 16) g.done

/-- The roots of ordered graphs that waited for an earlier graph. -/
def wakeOrdered (s : State) (q : Nat) : State :=
  ((s.nodes.filter fun n => n.queue == q && n.st == .waiting && n.deps == 0).map (·.id)).foldl readyIfFree s

/-- GRAPH_COMPLETION. -/
def execGraphCompletion (graph : Nat) (s : State) : Out :=
  match s.findGraph graph with
  | none => .next s
  | some g =>
    if g.left ≠ 0 then .next s
    else
      let s := moveDone s g
      let s := if g.irq then s.sendMsix g.die g.vec else s
      .next (wakeOrdered { s with graphs := s.graphs.filter fun x => x.id != graph } g.queue)

/-! ### Host-assisted placement (R341, R384) -/

/-- The cores that a mask names in a cluster, when each fits and their number is the shape's. -/
def maskPlace (s : State) (d cl mask : Nat) (n : Node) : Option (List (Nat × Nat)) :=
  let sh := recShape n.image
  let xs := (fittingCores s d cl n.queue sh).filter fun x => bitOf mask (x.1 % 8)
  let asked := (List.range 8).filter fun c => bitOf mask c
  if xs.length = asked.length ∧ xs.length = shapeCores sh then some xs else none

/-- The host places a ready node. -/
def placeByHost (s : State) (n : Node) (cl mask : Nat) : State :=
  match recKind n.image with
  | 0 =>
    match (if cl < 18 then maskPlace s n.die cl mask n else none) with
    | some xs => placeNode s n n.die cl xs
    | none => postNode s n fcQUEUE 8 0
  | 1 => if engineRoom s n then startEngineNode s n else postNode s n fcQUEUE 8 0
  | _ =>
    match freeLane s n.die with
    | some lane => startHansom s n lane
    | none => postNode s n fcQUEUE 8 0

/-- PLACE: without effect for a slot that holds no ready node. -/
def execPlace (die slot cluster mask : Nat) (s : State) : Out :=
  if die ≥ 4 then .fault .noSuchUnit
  else
    match s.nodeAt die slot with
    | some n =>
      if n.st = .ready ∧ n.assisted ∧ n.hold.isNone ∧ (s.queue n.queue).en ∧ landauUp s die then .next (placeByHost s n cluster mask)
      else .next s
    | none => .next s

/-- POSTREAD: a write beyond the entries written is ignored; held posts go out. -/
def execPostread (die : Nat) (val : Word) (s : State) : Out :=
  if die ≥ 4 then .fault .noSuchUnit
  else
    let l := s.landauOf die
    let x := BitVec.ofNat 16 val.toNat
    let written := BitVec.ofNat 16 l.postWritten
    if (written - l.postRead).toNat < (x - l.postRead).toNat then .next s
    else .next (postAll (s.modLandau die fun l => { l with postRead := x }) die)

/-- A write of POSTBASE or POSTCNT: it counts only in hardware scheduling, and restarts the ring. -/
def execPostRingConfig (die : Nat) (base : Bool) (val : Word) (s : State) : Out :=
  if die ≥ 4 then .fault .noSuchUnit
  else if s.schedAssisted then .next s
  else .next (s.modLandau die fun l =>
    if base then { l with postBase := BitVec.ofNat 64 (val.toNat / 64 * 64), postWritten := 0, postRead := 0 }
    else { l with postEntries := BitVec.ofNat 16 val.toNat, postWritten := 0, postRead := 0 })

/-! ### Records are posted (R368) -/

/-- The party of a record has stopped, and its save has run or will not run. -/
def partyReady (s : State) (r : PendRec) : Bool :=
  match r.gang with
  | none => true
  | some id =>
    match s.findGang id with
    | none => true
    | some g =>
      match g.st with
      | .saved _ _ => true
      | .halted _ => (saveInto s g).isNone
      | _ => false

/-- The slot of a record, where the queue has an area. -/
def recordSlot (s : State) (r : PendRec) : Option Nat :=
  let q := s.queue r.queue
  if q.frsize = 0 then none else some (q.frbase.toNat + 128 * (r.seq % q.frsize.toNat))

/-- The record may be posted: its party is ready, its slot is free, and records that wait in the log keep their order. -/
def postable (s : State) (before : List PendRec) (r : PendRec) : Bool :=
  partyReady s r
    && (r.gang.isSome || r.op.isSome || before.all fun b => b.gang.isSome || b.op.isSome)
    && (match recordSlot s r with
        | none => true
        | some pa => !bitOf (memRead s.mem pa 8) 63)

/-- The first record of a queue that can be posted. -/
def nextRecord (s : State) : List PendRec → List PendRec → Option PendRec
  | _, [] => none
  | before, r :: t => if postable s before r then some r else nextRecord s (before ++ [r]) t

/-- The record with its context fields. -/
def withContext (s : State) (r : PendRec) : BitVec 1024 :=
  match r.gang.bind s.findGang with
  | some g =>
    match g.st with
    | .saved d k => r.image ||| BitVec.ofNat 1024 (2 ^ 58 + poolAddr s d k * 2 ^ 448)
    | _ => r.image
  | none => r.image

/-- Write a record where the host reads it, and send the queue's vector. -/
def postNow (s : State) (r : PendRec) : State :=
  let image := withContext s r
  let q := s.queue r.queue
  let s := { s with pendRecs := s.pendRecs.erase r }
  let s := if r.gang.isSome || r.op.isSome then
      { s with openRecs := s.openRecs ++ [⟨r.queue, r.seq, r.gang, r.op, false⟩] }
    else s
  match recordSlot s r with
  | none => s.modDie q.origin fun d => { d with log := d.log ++ [image] }
  | some pa =>
    let bs := natBytes image.toNat 128
    let s := if placeOf pa = .device then homeWrite (reachHome s pa q.origin r.queue true false true .normal) pa bs else { s with mem := memWriteBytes s.mem pa bs }
    s.sendMsix q.origin r.queue

/-- RECORD_POST. -/
def execRecordPost (q : Nat) (s : State) : Out :=
  if q ≥ 1024 then .fault .noSuchUnit
  else
    match nextRecord s [] (s.pendRecs.filter fun r => r.queue == q) with
    | none => .next s
    | some r => .next (postNow s r)

end Sys2Proof.Machine
end

