-- ==== Sys2Proof/Machine/HostRegs.lean ====
section
/-! DEFINITION. What the host writes besides commands: queue pages, scheduler, Hansom, debug and ingress registers, answers to
records, the event tail, and CXL.mem (spec/11_queues.md R315, R316; spec/13 R370; spec/14 R380, R381, R383, R384, R392, R395). -/

namespace Sys2Proof.Machine

/-! ### CTL of a queue page (R316) -/

/-- The counters of a queue restart on every die (R356). -/
def resetPerf (s : State) (q : Nat) : State :=
  (List.range 4).foldl (fun s d => s.modPerf d q fun _ => QueuePerf.reset) s

/-- EN goes from 0 to 1: records are numbered from 1 again, and the counters restart; nothing changes where EN is 1. -/
def setEn (s : State) (q : Nat) : State :=
  if (s.queue q).en then s else resetPerf (s.modQueue q fun p => { p with en := true, seq := 1 }) q

/-- EN goes to 0: what is in flight completes (R316).  No act of the host that the spec describes removes one queue or checkpoints it, so none
suspends an operation in the sense of R30's first case (assumption 82, DEDUCED). -/
def clearEn (s : State) (q : Nat) : State := s.modQueue q fun p => { p with en := false }

/-- Ask one gang to halt and save for the host: it waits where no pool record is free (R371). -/
def askSave (s : State) (g : Gang) : State :=
  let s := s.modGang g.id fun g => { g with wantSave := true }
  if g.st = .resident then (requestHalt s g .host).getD s else s

/-- PREEMPT: every gang of the queue that holds cores is to be saved; the bit reads 1 until each one is. -/
def preemptQueue (s : State) (q : Nat) : State :=
  let s := s.modQueue q fun p => { p with preempt := true }
  settlePreempt ((s.gangs.filter fun g => g.queue == q && placed g).foldl askSave s) q

def execEnSet (q : Nat) (s : State) : Out := if q ≥ 1024 then .fault .noSuchUnit else .next (setEn s q)

def execEnClear (q : Nat) (s : State) : Out := if q ≥ 1024 then .fault .noSuchUnit else .next (clearEn s q)

def execPreempt (q : Nat) (s : State) : Out := if q ≥ 1024 then .fault .noSuchUnit else .next (preemptQueue s q)

/-- A write of CTL: EN as written, and PREEMPT where its bit is 1. -/
def writeCtl (s : State) (q : Nat) (v : Word) : State :=
  let s := if v.getLsbD 0 then setEn s q else clearEn s q
  if v.getLsbD 2 then preemptQueue s q else s

/-! ### The other registers of a queue page (R315, R316) -/

/-- A number with its low bits zero. -/
def alignDown (n k : Nat) : Nat := n / k * k

/-- PRIO as a write leaves it: AGE 12 to 30 and WEIGHT at least 1, or no change. -/
def writePrio (p : QueuePage) (v : Word) : QueuePage :=
  let n := v.toNat
  let age := field n 16 6
  if age < 12 ∨ 30 < age ∨ field n 8 8 = 0 then p
  else { p with prio := BitVec.ofNat 64 (field n 0 3 + field n 8 8 * 2 ^ 8 + age * 2 ^ 16) }

/-- CFG as a write leaves it: WAYS is not 0, or no change. -/
def writeCfg (p : QueuePage) (v : Word) : QueuePage :=
  let n := v.toNat
  if field n 12 3 = 0 then p
  else { p with cfg := BitVec.ofNat 64 (field n 0 12 + field n 12 3 * 2 ^ 12 + field n 16 2 * 2 ^ 16) }

/-- The dword of MASK at an index. -/
def writeMask (p : QueuePage) (k : Nat) (v : Word) : QueuePage :=
  { p with mask := BitVec.ofNat 576 (setField p.mask.toNat (64 * k) 64 v.toNat) }

/-- A register write while EN is 0. -/
def writeQueueReg (p : QueuePage) (off : Nat) (v : Word) : QueuePage :=
  let n := v.toNat
  if off = 0x048 then writePrio p v
  else if off = 0x050 then writeCfg p v
  else if off = 0x058 then { p with s1root := BitVec.ofNat 64 (alignDown n 8192) }
  else if off = 0x060 then { p with s2root := BitVec.ofNat 64 (alignDown n 8192) }
  else if off = 0x068 then { p with ovfbase := BitVec.ofNat 64 (alignDown n 64) }
  else if off = 0x070 then { p with ovfcnt := v }
  else if off = 0x078 then { p with frbase := BitVec.ofNat 64 (alignDown n 128) }
  else if off = 0x080 then { p with frsize := v }
  else if off = 0x090 then { p with colltab := v }
  else if 0x0C0 ≤ off ∧ off < 0x108 ∧ off % 8 = 0 then writeMask p ((off - 0x0C0) / 8) v
  else p

/-- A write to a queue page; one that is not the whole launch register is a dropped launch (R317). -/
def writeQueuePage (s : State) (q off : Nat) (v : Word) : State :=
  if off < 0x040 then dropLaunch s q
  else if off = 0x040 then writeCtl s q v
  else if (s.queue q).en then s
  else s.modQueue q fun p => writeQueueReg p off v

/-! ### Answers to records (R370) -/

/-- The record that a command names, when its party still waits for it. -/
def openRecord (s : State) (q seq : Nat) : Option OpenRec :=
  s.openRecs.find? fun r => r.queue == q && r.seq % 2 ^ 32 == seq % 2 ^ 32 && !r.answered

/-- A gang whose records are all answered goes on where it stopped: on its cores, without an acquire (R273; assumption 81, DESIGN CHOICE), or as
a ready node. -/
def resumeGang (s : State) (g : Gang) : State :=
  match g.st with
  | .saved _ _ =>
    match s.findNode g.node with
    | some n => if n.st = .saved then reenter s n else s
    | none => s
  | .halted _ =>
    if g.pool.isSome then s
    else (s.mapVlcs fun v => if v.gang = g.id then resumeVlc v else v).modGang g.id fun g => { g with st := .resident }
  | _ => s

/-- RESUME of a record. -/
def resumeRecord (s : State) (r : OpenRec) : State :=
  let s := { s with openRecs := s.openRecs.erase r }
  match r.gang, r.op with
  | some id, _ =>
    let s := s.modGang id fun g => { g with awaits := g.awaits.erase r.seq }
    match s.findGang id with
    | some g => if g.awaits.isEmpty then resumeGang s g else s
    | none => s
  | none, some op => modOp s op fun o => if o.st = .suspended r.seq then { o with st := .queued } else o
  | none, none => s

def execResume (die q seq : Nat) (s : State) : Out :=
  if die ≥ 4 ∨ q ≥ 1024 then .fault .noSuchUnit
  else
    match openRecord s q seq with
    | none => .next s
    | some r => .next (resumeRecord s r)

/-- KILL applies to the record of a VLC or gang. -/
def execKill (die q seq : Nat) (s : State) : Out :=
  if die ≥ 4 ∨ q ≥ 1024 then .fault .noSuchUnit
  else
    match openRecord s q seq with
    | none => .next s
    | some r =>
      match r.gang.bind s.findGang with
      | none => .next s
      | some g => .next (killGang s g)

/-- An engine operation ends without its counter: it completes as failed, which is progress of the gang that issued it (R27, R358), and so
does its node. -/
def cancelOp (s : State) (r : OpenRec) (op : EngOp) : State :=
  let s := { s with
    openRecs := s.openRecs.erase r
    engines := s.engines.filter fun o => o.id != op.id }
  let s := match op.gang with
    | some g => s.progress g
    | none => s
  match op.node with
  | some n => markDone s n true
  | none => s

/-- CANCEL applies to the record of an engine operation. -/
def execCancel (die q seq : Nat) (s : State) : Out :=
  if die ≥ 4 ∨ q ≥ 1024 then .fault .noSuchUnit
  else
    match openRecord s q seq with
    | none => .next s
    | some r =>
      match r.op.bind fun id => s.engines.find? fun o => o.id == id && o.st == .suspended r.seq with
      | none => .next s
      | some op => .next (cancelOp s r op)

/-! ### Completion of a command (R385) -/

/-- A command completes: CMDSTAT, and with IRQ an event record and its vector (R395). -/
def finishCmd (s : State) (d : Nat) (tag : BitVec 16) (irq : Bool) (status : Nat) : State :=
  let s := s.modDie d fun x => { x with
    cmdDone := x.cmdDone + 1
    cmdTag := tag
    cmdStatus := BitVec.ofNat 8 status }
  if irq then s.postEvent d 4 8 0 else s

/-- A command whose dword 0 names no command completes with status 1; one that R385 lists is a row of its own (assumption 38, DESIGN
CHOICE: how a command stands in the opcode table). -/
def writeCmd (s : State) (d : Nat) (v : Word) : State :=
  let op := field v.toNat 0 8
  if 1 ≤ op ∧ op ≤ 13 then s else finishCmd s d (BitVec.ofNat 16 (field v.toNat 16 16)) (v.getLsbD 8) 1

/-! ### Die pages (R383, R384, R392, R395, R396) -/

/-- EVTAIL: the host has read so many event records; bit 63 of EVHEAD clears. -/
def execEvtailWrite (die : Nat) (val : Word) (s : State) : Out :=
  if die ≥ 4 then .fault .noSuchUnit
  else .next (s.modDie die fun d => { d with evTail := val.toNat, evOver := false })

/-- The ingress registers of the port at an offset of the die control page. -/
def writeIngress (s : State) (d off : Nat) (v : Word) : State :=
  let c := 4 * d + (off - 0x100) / 0x20
  let a := BitVec.ofNat 64 (alignDown v.toNat 65536)
  if off % 0x20 = 0 then s.modPort c fun p => { p with ibase := a }
  else if off % 0x20 = 8 then s.modPort c fun p => { p with ilimit := a }
  else s

/-- Outcome of a write that answers with a row of its own. -/
def writeDieCtl (s : State) (d off : Nat) (v : Word) : Out :=
  if off = 0x000 then .next (writeCmd s d v)
  else if off = 0x058 then execEvtailWrite d v s
  else if off = 0x070 then .next (s.modDie d fun x => { x with lpthr := BitVec.ofNat 32 v.toNat })
  else if 0x100 ≤ off ∧ off < 0x180 then .next (writeIngress s d off v)
  else .next s

/-- RECCMD. -/
def writeReccmd (s : State) (d : Nat) (v : Word) : Out :=
  let n := v.toNat
  let q := field n 16 10
  match field n 0 2 with
  | 0 => execResume d q (field n 32 32) s
  | 1 => execKill d q (field n 32 32) s
  | 2 => execCancel d q (field n 32 32) s
  | _ => .next s

/-- A write to the scheduler page. -/
def writeSched (s : State) (d off : Nat) (v : Word) : Out :=
  let n := v.toNat
  if off = 0x000 then writeReccmd s d v
  else if off = 0x008 then execPlace d (field n 0 12) (field n 16 5) (field n 24 8) s
  else if off = 0x010 then execPostRingConfig d true v s
  else if off = 0x018 then execPostRingConfig d false v s
  else if off = 0x020 then .next (s.modLandau d fun l => { l with depsel := BitVec.ofNat 12 n })
  else if off = 0x030 then execPostread d v s
  else .next s

/-- A write to the Hansom page. -/
def writeHansom (s : State) (d off : Nat) (v : Word) : Out :=
  let n := v.toNat
  if off = 0x000 then execHdone d (field n 0 2) (field n 16 16) (field n 32 16) s else .next s

/-- A write to the boot buffer, open from step 3 of bring-up on (R387). -/
def writeBootBuf (s : State) (d off : Nat) (v : Word) : State :=
  if (s.die d).phase < 3 ∨ off + 8 > 2 ^ 23 then s
  else s.modDie d fun x => { x with bootbuf := memWrite x.bootbuf off 8 v.toNat }

/-- REGISTER_WRITE: a write of one dword to a page of BAR0; an offset that is not listed ignores it (R381). -/
def execRegisterWrite (page : HostPage) (off : Nat) (val : Word) (s : State) : Out :=
  match page with
  | .queue q => if q ≥ 1024 then .fault .noSuchUnit else .next (writeQueuePage s q off val)
  | .device => .next s
  | .dieCtl d => if d ≥ 4 then .fault .noSuchUnit else writeDieCtl s d off val
  | .sched d => if d ≥ 4 then .fault .noSuchUnit else writeSched s d off val
  | .hansom d => if d ≥ 4 then .fault .noSuchUnit else writeHansom s d off val
  | .debug d =>
    if d ≥ 4 then .fault .noSuchUnit
    else if off = 0 then .next (s.modDie d fun x => { x with qsel := field val.toNat 0 10 })
    else .next s
  | .bootBuf d => if d ≥ 4 then .fault .noSuchUnit else .next (writeBootBuf s d off val)

/-! ### CXL.mem (R267, R353, R380) -/

/-- A line's worth of bytes that a party outside the cores writes: performed at their home, and the L1 copies of an SO line are
updated. -/
def writeLine (s : State) (pa : Nat) (bs : List Byte) : State := snoopAll (homeWrite s pa bs) pa bs

/-- Bytes split at the ends of lines; `fuel` bounds the lines. -/
def splitLines : Nat → Nat → List Byte → List (Nat × List Byte)
  | 0, _, _ => []
  | _, _, [] => []
  | fuel + 1, pa, bs =>
    let k := 128 - pa % 128
    (pa, bs.take k) :: splitLines fuel (pa + k) (bs.drop k)

/-- The LO cells that a range touches hold the tag (0, 0) and no arrivals. -/
def dropTags (s : State) (pa n : Nat) : State :=
  { s with lo := s.lo.filter fun x => !(decide (x.1 * 8 < pa + n) && decide (pa < x.1 * 8 + 8)) }

/-- A range that lies in host memory, of which the host is the home (R185, R254). -/
def inHostMemory (pa n : Nat) : Bool := decide (2 ^ 51 ≤ pa) && decide (pa + n ≤ 2 ^ 51 + 2 ^ 50)

/-- CXL_MEM_WRITE: the bytes are performed at their home.  A range of the host window stands for the host's write of its own memory
(assumption 46, DESIGN CHOICE). -/
def execCxlMemWrite (pa : Nat) (bytes : List Byte) (s : State) : Out :=
  if inHostMemory pa bytes.length then .next { s with mem := memWriteBytes s.mem pa bytes }
  else if pa + bytes.length > deviceEnd then .fault .noSuchUnit
  else .next (dropTags ((splitLines (bytes.length / 128 + 2) pa bytes).foldl (fun s x => writeLine s x.1 x.2) s) pa bytes.length)

/-- CXL_MEM_READ: the host takes the bytes at their home. -/
def execCxlMemRead (pa n : Nat) (s : State) : Out :=
  if inHostMemory pa n then .next { s with hostData := s.hostData ++ [memReadBytes s.mem pa n] }
  else if pa + n > deviceEnd then .fault .noSuchUnit
  else .next { s with hostData := s.hostData ++ [memReadBytes s.mem pa n] }

end Sys2Proof.Machine
end

