-- ==== Sys2Proof/Machine/Fences.lean ====
section
/-! DEFINITION. Fencing a function, returning it to service, and uncorrectable errors (spec/13 R375, R376; spec/14 R385, R386,
R395). -/

namespace Sys2Proof.Machine

/-- Units of a kind on a die (R386). -/
def unitCount (kind : Nat) : Nat :=
  match kind with
  | 0 => 144 | 1 => 18 | 2 => 61 | 3 => 64 | 4 => 3 | 5 => 4 | 6 => 1 | 7 => 1 | 8 => 1 | _ => 0

/-- The other die of a seam port (R386). -/
def seamPeer (d p : Nat) : Nat := (d + p + 1) % 4

/-! ### The effect of a fence on work (R375) -/

/-- Stop every placed gang that a predicate names. -/
def stopGangs (s : State) (f : Gang → Bool) : State :=
  (s.gangs.filter fun g => placed g && f g).foldl stopForFence s

/-- Steps that a predicate names fail with QUEUE 10. -/
def failSteps (s : State) (f : HStep → Bool) : State :=
  (s.steps.filter f).foldl (fun s st => failStep s st (trapInfo fcQUEUE 10)) s

/-- A slice that is no longer a cache: its lines leave it, and the sectors whose dirty bytes it could not read, of the model's free
choice, are poisoned in memory (R375; assumption 41, DESIGN CHOICE). -/
def closeSlice (s : State) (d idx : Nat) : State :=
  let mine (l : L2Line) : Bool := l.die == d && homeSlice (l.line * 128) == idx
  let lost := (s.l2.filter mine).flatMap fun l =>
    (sectorsTouched l.line l.dirty).filter fun sec => Config.unreadable s.tick sec
  poisonSectors { s with l2 := s.l2.filter fun l => !mine l } lost

/-- What a fence of a unit does to running work. -/
def fenceWork (s : State) (d kind idx : Nat) : State :=
  match kind with
  | 0 => stopGangs (s.modCore (d * 144 + idx) fun k => { k with plain := true }) fun g => g.cores.contains (d * 144 + idx)
  | 1 => stopGangs s fun g => g.die == d && g.cluster == idx && shapeFused g.shape
  | 2 => closeSlice s d idx
  | 4 => failSteps s fun st => (stepDies st).contains d && (stepDies st).contains (seamPeer d idx)
  | 6 => failSteps s fun st => st.die == d
  | 8 => stopGangs s fun g => g.die == d
  | _ => s

/-- Fence a unit: its work, the count of fenced units, and the event for the host. -/
def fenceUnit (s : State) (d kind idx : Nat) : State :=
  if s.isFenced d kind idx then s
  else
    let s := fenceWork s d kind idx
    let s := { s with fenced := (d, kind, idx) :: s.fenced }
    (s.modDie d fun x => { x with fencedCount := x.fencedCount + 1 }).postEvent d 1 kind idx

/-! ### Return to service (R376) -/

/-- A core as it is cleared: nothing in its L1, LS, granules and accumulators, and service mode.  Its sequence number and rounds go
on. -/
def clearWholeCore (s : State) (core : Nat) : State :=
  let a := lsAddr core 0
  ({ s with mem := s.mem.filter fun x => !(decide (a ≤ x.1) && decide (x.1 < a + lsBytes)) } : State).modCore core fun k =>
    { k with l1 := [], plain := false, fe := [], lsPoison := [], acc := [], accOwner := none, accGang := none, accPoison := [], feq := [] }

/-- A saved gang of a node that failed gives its pool record back. -/
def dropSaved (s : State) (n : Node) : State :=
  match s.gangs.find? fun g => g.node == n.id with
  | none => s
  | some g =>
    match g.st with
    | .saved d k => dropRecords ({ releasePool s d k with gangs := s.gangs.filter fun x => x.id != g.id }) g.id
    | _ => s

/-- Every node that a die's Landau held completes as failed, with a QUEUE record; its pool is empty (R375). -/
def resetLandau (s : State) (d : Nat) : State :=
  let held := s.nodes.filter fun n => n.die == d
  let s := { s with nodes := s.nodes.filter fun n => n.die != d }
  let s := held.foldl (fun s n => completeNode (dropSaved (postNode s n fcQUEUE 7 0) n) n) s
  s.modLandau d fun l => { Landau.reset with serial := l.serial, depsel := l.depsel }

/-- Hansom of a die, cleared: no gate record, closing count, request or grant (R376, R387). -/
def clearHansom (s : State) (d : Nat) : State :=
  { s with
    gateQ := s.gateQ.setIfInBounds d []
    reserves := s.reserves.filter fun r => r.home != d
    reqTransit := s.reqTransit.filter fun r => r.home != d
    closing := s.closing.filter fun x => x.1 / 4 != d
    closeTransit := s.closeTransit.filter fun x => x.home != d
    hansomFailed := s.hansomFailed.filter fun x => x.1 != d }

/-- The queues of a die's crossbar and ordering logic, cleared: no LO store or closing count stands in them (R376). -/
def clearQueues (s : State) (d : Nat) : State :=
  let mine (pa : Nat) : LoPlace → Bool
    | .coupling _ => false
    | p => placeDie pa p == d
  { s with
    loTransit := s.loTransit.filter fun x => !mine x.pa x.place
    closeTransit := s.closeTransit.filter fun x => !mine (x.home * 65536) x.place }

/-- The queues of a seam, cleared in both directions (R376; assumption 41, DESIGN CHOICE). -/
def clearSeam (s : State) (a b : Nat) : State :=
  let mine (p : LoPlace) : Bool := p == .seam a b || p == .seam b a
  { s with
    loTransit := s.loTransit.filter fun x => !mine x.place
    closeTransit := s.closeTransit.filter fun x => !mine x.place }

/-- A coupling port trained again: sequences from 0, full credits, and nothing in its queue and its receive buffers; the ingress window
stays (R376, R393). -/
def trainPort (s : State) (c : Nat) : State :=
  let s := { s with
    loTransit := s.loTransit.filter fun x => x.place != LoPlace.coupling c
    rx := s.rx.filter fun (x : CollData) => match x.port with
      | some k => k.1 != c
      | none => true }
  s.modPort c fun p => { Port.reset with ibase := p.ibase, ilimit := p.ilimit, out := p.out }

/-- Clear a unit that returns to service. -/
def resetWork (s : State) (d kind idx : Nat) : State :=
  match kind with
  | 0 => clearWholeCore s (d * 144 + idx)
  | 4 => clearSeam s d (seamPeer d idx)
  | 5 => trainPort s (4 * d + idx)
  | 6 => clearHansom s d
  | 7 => resetLandau s d
  | 8 => (List.range 144).foldl (fun s c => clearWholeCore s (d * 144 + c)) (clearQueues s d)
  | _ => s

/-- Return a fenced unit to service. -/
def resetUnit (s : State) (d kind idx : Nat) : State :=
  if s.isFenced d kind idx then
    resetWork { s with fenced := s.fenced.filter fun x => x != (d, kind, idx) } d kind idx
  else s

/-! ### Uncorrectable errors (R153, R182, R199, R375) -/

/-- Count a newly poisoned word of a queue's resource where its queue is known, and of the die alone where it is not. -/
def countPoison (s : State) (d : Nat) (q : Option Nat) (fkind idx : Nat) : State :=
  match q with
  | some q => s.countLatent d q fkind idx
  | none =>
    let s := s.modDie d fun x => { x with latent := x.latent + 1 }
    let thr := (s.die d).lpthr.toNat
    if thr ≠ 0 ∧ (s.die d).latent % thr = 0 then s.postEvent d 5 fkind idx else s

/-- The queue of the gang that holds a granule of a core's LS. -/
def lsQueue (s : State) (core off : Nat) : Option Nat :=
  ((coreGangs s core).find? fun g =>
    match regionOf g core with
    | some (b, n) => decide (b ≤ off) && decide (off < b + n)
    | none => false).map (·.queue)

/-- A parity error in a byte of an L1 line: a clean line is dropped, a dirty byte is bad when it is written back, and a clean byte of a
line that holds dirty ones is no longer valid (R199; assumption 71, DEDUCED). -/
def parityError (byte : Nat) (ls : List L1Line) (line : Nat) : List L1Line :=
  let bit := BitVec.ofNat 128 (2 ^ byte)
  (ls.filter fun l => l.line != line || l.dirty != 0).map fun l =>
    if l.line ≠ line then l
    else if l.dirty.getLsbD byte then { l with bad := l.bad ||| bit }
    else { l with valid := l.valid &&& ~~~bit }

/-- UNCORRECTABLE_ERROR: poison where the error lies in a word, a fence of the smallest function elsewhere. -/
def execUncorrectableError (e : HwError) (s : State) : Out :=
  match e with
  | .regWord core slot name word strip =>
    if core ≥ 576 ∨ slot ≥ 4 ∨ name ≥ 256 ∨ word ≥ 64 then .fault .noSuchUnit
    else
      match s.findVlc core slot with
      | none => .next s
      | some v =>
        let q := (s.gangOf v.gang).queue
        if !rowExists v name strip then .next s
        else .next (countPoison (s.modVlcAt core slot (poisonWord strip (name, word))) (coreDie core) (some q) 0 (core % 144))
  | .lsWord core word =>
    if core ≥ 576 ∨ word ≥ 131072 then .fault .noSuchUnit
    else .next (countPoison (s.modCore core fun k => { k with
      lsPoison := if k.lsPoison.contains word then k.lsPoison else word :: k.lsPoison })
      (coreDie core) (lsQueue s core (4 * word)) 0 (core % 144))
  | .sector pa =>
    if pa ≥ deviceEnd then .fault .noSuchUnit
    else .next (countPoison { s with
      poison := if s.poison.contains (pa / 32) then s.poison else pa / 32 :: s.poison } (homeDie pa) none 3 (hbmChannel pa))
  | .accElem core row col =>
    if core ≥ 576 ∨ row ≥ 64 ∨ col ≥ 64 then .fault .noSuchUnit
    else
      let q := ((s.core core).accGang.bind s.findGang).map (·.queue)
      .next (countPoison (s.modCore core fun k => { k with
        accPoison := if k.accPoison.contains (row, col) then k.accPoison else (row, col) :: k.accPoison })
        (coreDie core) q 0 (core % 144))
  | .l1Byte core line byte =>
    if core ≥ 576 ∨ byte ≥ 128 then .fault .noSuchUnit
    else .next (s.modCore core fun k => { k with l1 := parityError byte k.l1 line })
  | .unit die kind idx =>
    if die ≥ 4 ∨ idx ≥ unitCount kind then .fault .noSuchUnit else .next (fenceUnit s die kind idx)

end Sys2Proof.Machine
end

