-- ==== Sys2Proof/Machine/Link.lean ====
section
/-! DEFINITION. The receiving side of a coupling port: a flit is checked, taken or not acknowledged, and its requests are performed
(spec/14_outside.md R392 to R394). -/

namespace Sys2Proof.Machine

/-! ### Acknowledgements and credits (R393) -/

def flitSeq (f : BitVec 2048) : Nat := field f.toNat 0 12
def flitClass (f : BitVec 2048) : Nat := field f.toNat 12 4

/-- A flit whose CRC, class or reserved bits are bad. -/
def flitBad (f : BitVec 2048) : Bool :=
  let n := f.toNat
  field n 1984 64 != (flitCrc n).toNat || decide (flitClass f ≥ 5) || field n 30 2 != 0 || field n 62 2 != 0

/-- How far a sequence lies behind the next one expected. -/
def behind (p : Port) (f : BitVec 2048) : Nat := (p.rxNext - BitVec.ofNat 12 (flitSeq f)).toNat

/-- The flits of the replay buffer that an acknowledgement does not cover. -/
def unacked (p : Port) (ack : Nat) : List (BitVec 2048) :=
  p.replay.filter fun f =>
    let d := (BitVec.ofNat 12 (flitSeq f) - BitVec.ofNat 12 ack).toNat
    decide (1 ≤ d) && decide (d ≤ 1024)

/-- A taken flit's header: the acknowledgement frees replay entries, a NAK sends the rest again, and credits return. -/
def takeHeader (p : Port) (f : BitVec 2048) : Port :=
  let n := f.toNat
  let p := if bitOf n 28 then { p with replay := unacked p (field n 16 12) } else p
  let p := if bitOf n 29 then { p with out := p.out ++ p.replay } else p
  { p with
    rxNext := p.rxNext + 1
    taken := true
    ackDue := p.ackDue || decide (flitClass f ≤ 2)
    credits := p.credits.mapIdx fun k c => c + field n (32 + 10 * k) 10 }

/-! ### Requests (R394) -/

/-- A request: target, kind, H1 and data. -/
structure Request where
  target : Nat
  kind : Nat
  h1 : Nat
  data : List Word
deriving DecidableEq, Repr

/-- The requests of a payload, or none where one is broken: unknown kind, a length that runs past the payload, or an LO store
that does not carry one dword. -/
def parseRequests (cls : Nat) : Nat → List Word → Option (List Request)
  | 0, _ => some []
  | _, [] => some []
  | fuel + 1, h0 :: rest =>
    let n := h0.toNat
    if n = 0 then some []
    else
      let dw := field n 52 6
      let kind := field n 58 4
      let top := if cls = 0 then 2 else if cls = 1 then 1 else 0
      match rest with
      | [] => none
      | h1 :: data =>
        if kind > top ∨ dw > data.length ∨ dw > 28 ∨ cls = 1 ∧ dw ≠ 1 then none
        else (parseRequests cls fuel (data.drop dw)).map fun rs => ⟨field n 0 52, kind, h1.toNat, data.take dw⟩ :: rs

/-- The payload of a flit: 30 dwords. -/
def flitPayload (f : BitVec 2048) : List Word := (List.range 30).map fun k => BitVec.ofNat 64 (field f.toNat (64 + 64 * k) 64)

/-- The ingress check of R392: the bytes lie in the port's window, in device memory. -/
def ingressOk (p : Port) (a n : Nat) : Bool :=
  decide (p.ibase.toNat ≤ a) && decide (a + n ≤ p.ilimit.toNat) && decide (a + n ≤ deviceEnd)

/-- The enabled bytes of a copy write, as (address, byte). -/
def enabledBytes (r : Request) : List (Nat × Byte) :=
  let first := field r.h1 32 8
  let last := field r.h1 40 8
  let n := r.data.length
  (List.range (8 * n)).filterMap fun k =>
    let mask := if k / 8 = 0 then first else if k / 8 + 1 = n then last else 255
    if bitOf mask (k % 8) then some (r.target + k, (r.data[k / 8]?.getD 0).extractLsb' (8 * (k % 8)) 8) else none

/-- The queue that a peer's access counts for: none of this device's. -/
def noQueue : Nat := 1024

/-- A copy write is performed at the homes of its bytes, or refused; the answer goes out on the same port. -/
def copyArrives (s : State) (c : Nat) (r : Request) : State :=
  let tag := field r.h1 16 16
  if ingressOk (s.port c) r.target (8 * max 1 r.data.length) then
    let bs := enabledBytes r
    let s := (r.target / 128 :: [(r.target + 8 * r.data.length - 1) / 128]).eraseDups.foldl
      (fun s l => reachHome s (l * 128) (c / 4) noQueue true false true .normal) s
    let s := bs.foldl (fun s x => writeLine s x.1 [x.2]) s
    s.sendRequest c 0 (requestHead 0 0 1 (tag * 2 ^ 16 + bs.length * 2 ^ 32))
  else s.sendRequest c 0 (requestHead 0 0 2 (tag * 2 ^ 16))

/-- An LO store of a peer goes on to its cell's home, or is dropped and counted. -/
def loArrives (s : State) (c : Nat) (r : Request) : State :=
  let d := c / 4
  if ingressOk (s.port c) r.target 8 ∧ r.target % 8 = 0 then
    loEnter s ⟨r.target, r.data.headD 0, BitVec.ofNat 32 (field r.h1 0 32), BitVec.ofNat 12 (field r.h1 32 12),
      field r.h1 44 20, r.kind == 1, noQueue, unitPlace d r.target⟩
  else s.modDie d fun x => { x with ingressDrops := x.ingressDrops + 1 }

/-- Collective data of a peer waits for its operation.  Its target is an element offset and no address (R394): a port whose window is open
takes it, and a closed one refuses it to the sender (R392; assumption 43, DESIGN CHOICE). -/
def collArrives (s : State) (c flit : Nat) (r : Request) : State :=
  if (s.port c).ibase.toNat < (s.port c).ilimit.toNat then
    { s with rx := s.rx ++ [⟨c / 4, BitVec.ofNat 12 (field r.h1 28 12), field r.h1 24 4, field r.h1 0 16,
      field r.h1 16 8, r.target, r.data, some (c, flit)⟩] }
  else s.sendRequest c 0 (requestHead 0 0 2 (collRefusal (field r.h1 0 16) (field r.h1 24 4) (field r.h1 28 12) (field r.h1 16 8)))

/-- Perform one request. -/
def performRequest (c cls flit : Nat) (s : State) (r : Request) : State :=
  match cls with
  | 0 =>
    if r.kind = 0 then copyArrives s c r
    else if r.kind = 1 then countAck s c (field r.h1 16 16) (field r.h1 32 32)
    else refuseAck s c r.h1
  | 1 => loArrives s c r
  | _ => collArrives s c flit r

/-- The buffer of a flit is free at once, but for collective data that an operation has yet to consume. -/
def freeBuffer (s : State) (c cls flit : Nat) : State :=
  if cls ≥ 3 ∨ s.rx.any fun x => x.port == some (c, flit) then s
  else s.modPort c fun p => { p with freed := p.freed.setIfInBounds cls (creditOf p.freed cls + 1) }

/-- Take a flit: its header, its requests in order, and what can be sent now.  A broken request fences the coupling. -/
def takeFlit (s : State) (c : Nat) (f : BitVec 2048) : State :=
  let s := s.modPort c fun p => takeHeader p f
  let cls := flitClass f
  if cls ≥ 3 then s.pumpPort c
  else
    match parseRequests cls 30 (flitPayload f) with
    | none => fenceUnit s (c / 4) 5 (c % 4)
    | some rs =>
      let (s, k) := s.takeFresh
      (freeBuffer (rs.foldl (performRequest c cls k) s) c cls k).pumpPort c

/-- FLIT_RECEIVE: a flit is taken, dropped as a repeat, or not acknowledged.  A fenced coupling receives nothing. -/
def execFlitReceive (port : Nat) (flit : BitVec 2048) (s : State) : Out :=
  if port ≥ 16 then .fault .noSuchUnit
  else if s.isFenced (port / 4) 5 (port % 4) then .next s
  else
    let p := s.port port
    if flitBad flit then .next ((s.modPort port fun p => { p with nak := true }).pumpPort port)
    else if behind p flit = 0 then .next (takeFlit s port flit)
    else if behind p flit ≤ 1024 then .next s
    else .next ((s.modPort port fun p => { p with nak := true }).pumpPort port)

end Sys2Proof.Machine
end

