-- ==== Sys2Proof/Machine/Arrivals.lean ====
section
/-! DEFINITION. What reaches a home or a die later than the instruction that sent it: LO stores, write-backs, page walks, and the ends of
page-mode epochs (spec/09 R254, R262 to R265; spec/07 R207, R213, R214; spec/14 R394). -/

namespace Sys2Proof.Machine

/-- The class-1 request of an LO store (R394). -/
def loRequest (x : LoStore) : List Word :=
  requestHead (x.pa % 2 ^ 44) 1 (if x.md then 1 else 0)
    (x.seq.toNat + x.prod.toNat * 2 ^ 32 + x.cover % 2 ^ 20 * 2 ^ 44) ++ [x.val]

/-- The LO store that stands at an index moves on: to its next queue, to its home, or over its coupling. -/
def loMove (s : State) (x : LoStore) (i : Nat) : State :=
  let s := { s with loTransit := s.loTransit.eraseIdx i }
  match loNext x with
  | some place => loEnter s { x with place := place }
  | none =>
    match x.place with
    | .coupling c => s.sendRequest c 1 (loRequest x)
    | _ => loPerform s x

/-- The coupling, or the seam, that an LO store must cross to leave its queue is fenced (R375). -/
def loHeld (s : State) (x : LoStore) : Bool :=
  match x.place with
  | .coupling c => couplingFenced s c
  | .seam a b => seamFenced s a b
  | _ => false

/-- Two LO stores stand in one queue: the same place, and at the homes the same slice (R263). -/
def sameQueue (x y : LoStore) : Bool :=
  x.place == y.place && (x.place != .home || homeDie x.pa == homeDie y.pa && homeSlice x.pa == homeSlice y.pa)

/-- LO_STORE_ARRIVAL: the first store of the queue in which the store at an index stands moves on, but none crosses a fence. -/
def execLoStoreArrival (i : Nat) (s : State) : Out :=
  match s.loTransit[i]? with
  | none => .next s
  | some x =>
    if loHeld s x then .next s
    else
      let k := (s.loTransit.findIdx? (sameQueue x)).getD i
      .next (loMove s (s.loTransit[k]?.getD x) k)

/-- WRITE_BACK_ARRIVAL: a write-back of a line of a core that is in transit reaches its home; else a dirty line of its L1 is evicted, and
its write-back is in transit; a line without dirty bytes is dropped. -/
def execWriteBackArrival (core line : Nat) (s : State) : Out :=
  if core ≥ 576 then .fault .noSuchUnit
  else if s.writeBacks.any fun w => w.core == core && w.held.line == line then .next (deliverLine s core line)
  else
    match (s.core core).l1.find? fun l => l.line == line with
    | none => .next s
    | some l => .next ((depart s core l).modCore core fun k => { k with l1 := k.l1.filter fun x => x.line != line })

/-- PAGE_WALK: a walk for an access of a queue on a die ends, and later requests for the page use its result. A walk that faults
leaves nothing; an access that needs the page walks for itself and takes the fault. -/
def execPageWalk (die q va : Nat) (acc : Acc) (s : State) : Out :=
  if die ≥ 4 ∨ q ≥ 1024 then .fault .noSuchUnit
  else if va ≥ lsWindow then .next s
  else .next (leavesOf s (queueParty die q) (BitVec.ofNat 64 va) acc).1

/-- The mode of a page of a die at the end of an epoch (R207): rule 1, rule 2, or as it stands; the counters restart. -/
def epochMode (m : PageMode) : PageMode :=
  let r :=
    if m.so then false
    else if !m.replicated && decide (m.rr ≥ 256) && decide (64 * m.rw ≤ m.rr) then true
    else if m.replicated && decide (m.rw ≥ 16) then false
    else m.replicated
  { m with replicated := r, rr := 0, rw := 0 }

/-- One page of the die at the end of an epoch; a change counts for the queue of the latest remote access. -/
def epochPage (die : Nat) (s : State) (x : Nat × PageMode) : State :=
  if x.1 % 4 ≠ die then s
  else
    changeMode s x.1 (epochMode x.2)

/-- PAGE_MODE_EPOCH: in hardware mode the pages of the die change mode by their counts. -/
def execPageModeEpoch (die : Nat) (s : State) : Out :=
  if die ≥ 4 then .fault .noSuchUnit
  else if (s.die die).cycles < (s.die die).epoch + 2 ^ 20 then .next s
  else
    let s := s.modDie die fun x => { x with epoch := x.epoch + 2 ^ 20 }
    if s.funcmode.getLsbD 2 then .next s else .next (s.modes.foldl (epochPage die) s)

end Sys2Proof.Machine
end

