-- ==== Sys2Proof/Machine/Commands.lean ====
section
/-! DEFINITION. The commands of the die control page but for those of firmware and kernel images (spec/14_outside.md R385,
R386, R401, R402; spec/13 R371, R377; spec/07 R207, R212, R215). -/

namespace Sys2Proof.Machine

/-! ### The frame of a command (R385) -/

def Cmd.done (c : Cmd) (s : State) (d status : Nat) : State := finishCmd s d c.tag c.irq status

/-- A command that a rule turns away, or its effect and status. -/
abbrev CmdRes := Except Nat State

/-- Run a command: a status of its own without an effect, or the effect and status 0. -/
def runCmd (c : Cmd) (d : Nat) (s : State) (r : CmdRes) : Out :=
  if d ≥ 4 then .fault .noSuchUnit
  else
    match r with
    | .error k => .next (Cmd.done c s d k)
    | .ok t => .next (Cmd.done c t d 0)

/-- The checks of dword 0 and of the bits that `bad` finds non-zero in reserved places; then those of a CD0 command. -/
def cmdCheck (c : Cmd) (d : Nat) (bad cd0 : Bool) (r : CmdRes) : CmdRes :=
  if c.rsv ≠ 0 ∨ bad then .error 1
  else if cd0 ∧ d ≠ 0 then .error 2
  else r

/-! ### FMODE and POOL; step 12 of bring-up (R371, R377, R387) -/

/-- What BOOTSTAT reads (R388). -/
def bootStat (x : Die) : Nat := x.phase + x.stop.toNat * 2 ^ 8 + x.detail.toNat * 2 ^ 16

/-- The measurements of the four dies, 32 bytes each. -/
def measurements (s : State) : List Byte := (List.range 4).flatMap fun d => natBytes (bytesNat (s.die d).measure) 32

/-- The signed part of the certificate of a boot (R391). -/
def certBody (s : State) (boot : Nat) : List Byte :=
  natBytes (0x41444D43 + 2 ^ 32 + boot % 2 ^ 32 * 2 ^ 64) 16 ++ natBytes (bytesNat (Config.bootKey boot)) 60 ++ measurements s

/-- CD0 makes the certificate of this boot, while the identity key has leaves (R390). -/
def makeCert (s : State) : State :=
  if s.bootCount ≥ 32768 then { s with cert := [], quoteCount := 0 }
  else
    let body := certBody s s.bootCount
    { s with
      cert := body ++ natBytes (bytesNat (Config.identitySign s.bootCount body)) 2668
      bootCount := s.bootCount + 1
      quoteCount := 0 }

/-- Step 12 is complete when every die has its pool and CD0 its FUNCMODE: a die that was booted again while CD0 stood in step 12 reaches it
too (R388). -/
def stepTwelve (s : State) : State :=
  let ready := (List.range 4).all fun d => decide ((s.die d).phase ≥ 11) && (s.die d).pooled
  if ready ∧ (s.die 0).moded then
    let s := if (s.die 0).phase = 11 then makeCert s else s
    (List.range 4).foldl (fun s d => s.modDie d fun x => { x with phase := 12 }) s
  else s

/-- FMODE: FUNCMODE on all dies; each function looks at its bit at the boundary of R377. -/
def execFmode (die : Nat) (c : Cmd) (s : State) : Out :=
  runCmd c die s (cmdCheck c die (field c.d1.toNat 6 58 != 0) true
    (.ok (stepTwelve (({ s with funcmode := BitVec.ofNat 6 c.d1.toNat } : State).modDie 0 fun x => { x with moded := true }))))

/-- POOL: the save pool of a die. -/
def execPool (die : Nat) (c : Cmd) (s : State) : Out :=
  let base := c.d1.toNat
  let n := c.d2.toNat
  runCmd c die s (cmdCheck c die false false (
    if (s.die die).poolUsed ≠ [] then .error 3
    else if base % 2 ^ 24 ≠ 0 ∨ base + n * 2 ^ 24 > deviceEnd then .error 4
    else .ok (stepTwelve (s.modDie die fun x => { x with poolBase := base, poolCount := n, pooled := true }))))

/-! ### Pages (R207, R212, R215) -/

/-- DPLIST: a queue's demand-page list. -/
def execDplist (die : Nat) (c : Cmd) (s : State) : Out :=
  let pages := (List.range c.d3.toNat).map fun k => memRead s.mem (c.d2.toNat + 8 * k) 8
  runCmd c die s (cmdCheck c die (field c.d1.toNat 10 54 != 0) false
    (.ok { s with demand := Tab.set [] s.demand (field c.d1.toNat 0 10) pages }))

/-- The device knows a page as SO or LO: from its accesses, or from a cached translation. -/
def knownSo (s : State) (page : Nat) : Bool :=
  (Tab.get PageMode.reset s.modes page).so || (s.tlb ++ s.cores.flatMap fun x => x.2.tlb).any fun e =>
    decide (e.pa / 65536 ≤ page) && decide (page < (e.pa + 2 ^ levelBits e.level) / 65536)
      && (combinedKind e.s1 e.s2 == 0 || combinedKind e.s1 e.s2 == 3)

/-- PMSET: the mode of a page homed on the die. -/
def execPmset (die : Nat) (c : Cmd) (s : State) : Out :=
  let pa := c.d1.toNat
  runCmd c die s (cmdCheck c die (field c.d2.toNat 1 63 != 0) false (
    if pa ≥ deviceEnd ∨ !s.funcmode.getLsbD 2 ∨ knownSo s (pa / 65536) then .error 4
    else if homeDie pa ≠ die then .error 2
    else .ok (changeMode s (pa / 65536) { Tab.get PageMode.reset s.modes (pa / 65536) with replicated := c.d2.getLsbD 0 })))

/-- A stage-2 root that a queue of a tenant uses (R215). -/
def rootOf (s : State) (t : BitVec 12) (root : Word) : Bool :=
  (List.range 1024).any fun q => (s.queue q).tenant == t && (s.queue q).s2root == root

/-- The cached translations that an INVAL names. -/
def invalHits (s : State) (kind : Nat) (t : BitVec 12) (base len : Nat) (e : TlbEntry) : Bool :=
  match kind with
  | 0 =>
    let lo := e.vpage * 2 ^ levelBits e.level
    e.tenant == t && decide (base < lo + 2 ^ levelBits e.level) && decide (lo < base + len)
  | 1 => e.tenant == t
  | _ => rootOf s t e.s2root

/-- The walk-cache entries that an INVAL names: those of the tenant's stage 1, or those of a named stage-2 root. -/
def invalWalk (s : State) (kind : Nat) (t : BitVec 12) (e : WalkEntry) : Bool :=
  match kind with
  | 0 | 1 => e.stage1 && e.tenant == t
  | _ => rootOf s t (BitVec.ofNat 64 (if e.stage1 then e.under else e.root))

/-- Drop cached translations on every die and core. -/
def dropWalks (s : State) (f : TlbEntry → Bool) (g : WalkEntry → Bool) : State :=
  { (s.mapCores fun _ c => { c with tlb := c.tlb.filter fun e => !f e }) with
    tlb := s.tlb.filter fun e => !f e
    walkCache := s.walkCache.filter fun e => !g e }

/-- INVAL. -/
def execInval (die : Nat) (c : Cmd) (s : State) : Out :=
  let n := c.d1.toNat
  let t := BitVec.ofNat 12 n
  runCmd c die s (cmdCheck c die (field n 12 4 != 0 || field n 18 46 != 0 || field n 16 2 == 3) true
    (.ok (dropWalks s (invalHits s (field n 16 2) t c.d2.toNat c.d3.toNat) (invalWalk s (field n 16 2) t))))

/-! ### FENCE and RESET (R375, R376, R386) -/

/-- The unit that d1 and d2 name, or the status of a command that names none. -/
def namedUnit (c : Cmd) : Except Nat (Nat × Nat) :=
  let kind := field c.d1.toNat 0 4
  if c.d2.toNat ≥ unitCount kind then .error 4 else .ok (kind, c.d2.toNat)

def execFence (die : Nat) (c : Cmd) (s : State) : Out :=
  runCmd c die s (cmdCheck c die (field c.d1.toNat 4 60 != 0) false (
    match namedUnit c with
    | .error k => .error k
    | .ok (kind, idx) => .ok (fenceUnit s die kind idx)))

def execReset (die : Nat) (c : Cmd) (s : State) : Out :=
  runCmd c die s (cmdCheck c die (field c.d1.toNat 4 60 != 0) false (
    match namedUnit c with
    | .error k => .error k
    | .ok (kind, idx) => .ok (resetUnit s die kind idx)))

/-! ### The whole-device checkpoint (R401, R402) -/

/-- The checkpoint table: the sink and the four BOOTSTAT values. -/
def writeCkptTable (s : State) (sink : Nat) : State :=
  { s with ckptTable := some (sink, (List.range 4).map fun d => BitVec.ofNat 64 (bootStat (s.die d))) }

/-- CKPT: the cut; with host-assisted checkpoints the table too, and the command is complete. -/
def execCkpt (die : Nat) (c : Cmd) (s : State) : Out :=
  let sink := c.d1.toNat
  let r : Except Nat Bool :=
    if c.rsv ≠ 0 then .error 1
    else if die ≠ 0 then .error 2
    else if s.ckpt.isSome then .error 3
    else if c.d2.toNat < deviceEnd then .error 4
    else .ok (s.funcmode.getLsbD 5)
  if die ≥ 4 then .fault .noSuchUnit
  else
    match r with
    | .error k => .next (Cmd.done c s die k)
    | .ok true => .next (Cmd.done c (writeCkptTable s sink) die 0)
    | .ok false => .next { s with ckpt := some ⟨sink, 0, [], c.tag, c.irq⟩ }

/-- Pages of device memory: 356 GiB. -/
def devicePages : Nat := deviceEnd / 65536

/-- CHECKPOINT_COPY: the next page in ascending address; behind the last one the table, and the command completes. -/
def execCheckpointCopy (s : State) : Out :=
  match s.ckpt with
  | none => .next s
  | some c =>
    if c.page ≥ devicePages then
      .next (finishCmd (writeCkptTable { s with ckpt := none } c.sink) 0 c.cmdTag c.irq 0)
    else
      let t := if c.early.contains c.page then s else copyPage s c c.page
      .next { t with ckpt := some { c with page := c.page + 1, early := c.early.filter (· != c.page) } }

/-- Device memory as a checkpoint image in host memory holds it. -/
def restoreMem (m : List Host.Cell) (source : Nat) : List Host.Cell :=
  let a := hostAddr source
  let image := (m.filter fun x => decide (a ≤ x.1) && decide (x.1 < a + deviceEnd)).map fun (x : Host.Cell) => (x.1 - a, x.2)
  image.foldl (fun m x => memSetByte m x.1 x.2) (m.filter fun x => decide (deviceEnd ≤ x.1))

/-- RESTORE. -/
def execRestore (die : Nat) (c : Cmd) (s : State) : Out :=
  runCmd c die s (cmdCheck c die false true (
    if s.ckpt.isSome then .error 3
    else if (s.queues.any fun x => x.2.en) || s.gangs.any placed then .error 4
    else
      let s := dropWalks (snoopWhere (deliverWhere s fun _ => true) fun _ => true) (fun _ => true) fun _ => true
      .ok { s with
        mem := restoreMem s.mem c.d1.toNat
        poison := []
        lo := []
        l2 := [] }))

end Sys2Proof.Machine
end

