-- ==== Sys2Proof/Machine/Images.lean ====
section
/-! DEFINITION. Firmware images and bring-up, attestation, and kernel images (spec/14_outside.md R387 to R391, R398 to R400). -/

namespace Sys2Proof.Machine

/-! ### The firmware image (R389) -/

/-- Bytes of an HSS signature with L = 2 (R391). -/
def hssLength : Nat := 5076

/-- Bytes of the boot buffer. -/
def bootBytes (x : Die) (n : Nat) : List Byte := memReadBytes x.bootbuf 0 n

/-- Whether the boot ROM accepts the image of `n` bytes in the boot buffer. -/
def imageGood (x : Die) (n : Nat) : Bool :=
  let h := memRead x.bootbuf 0 64
  let body := field h 64 32
  let signed := bootBytes x (64 + body)
  let sig := (bootBytes x n).drop (64 + body)
  let key := Config.hssSigningKey sig
  field h 0 32 == 0x41444D46 && decide (64 + body + hssLength ≤ 2 ^ 23) && n == 64 + body + hssLength
    && Config.hssVerify signed sig key && Config.sha256 key == Config.fusedRootHash && decide (x.minSv ≤ field h 32 16)

/-- The measurement: SHA-256 of header and body. -/
def measureImage (x : Die) : List Byte := Config.sha256 (bootBytes x (64 + field (memRead x.bootbuf 0 64) 64 32))

/-! ### Bring-up (R387, R388) -/

/-- The die stops in a step. -/
def stopBoot (s : State) (d phase code detail : Nat) : State :=
  s.modDie d fun x => { x with phase := phase, stop := BitVec.ofNat 8 code, detail := BitVec.ofNat 16 detail }

/-- Step 7: a failing core is fenced. -/
def testCores (s : State) (d : Nat) : State :=
  (List.range 144).foldl (fun s c => if Config.coreTestFails s.tick (d * 144 + c) then fenceUnit s d 0 c else s) s

/-- Step 10: device memory homed on the die is zero with valid codes; its slices, Landau and Hansom are clear. -/
def scrubDie (s : State) (d : Nat) : State :=
  let mine (pa : Nat) : Bool := decide (pa < deviceEnd) && homeDie pa == d
  let s := { s with
    mem := s.mem.filter fun x => !mine x.1
    poison := s.poison.filter fun x => !mine (x * 32)
    lo := s.lo.filter fun x => !mine (x.1 * 8)
    l2 := s.l2.filter fun l => !mine (l.line * 128) && l.die != d
    modes := s.modes.filter fun m => m.1 % 4 != d
    nodes := s.nodes.filter fun n => n.die != d
    graphs := s.graphs.filter fun g => g.die != d }
  (clearHansom s d).modLandau d fun _ => Landau.reset

/-- Step 11: a coupling that trains comes into service, and one that does not stays fenced. -/
def trainCouplings (s : State) (d : Nat) : State :=
  (List.range 4).foldl (fun s p =>
    if Config.couplingTrains s.tick (4 * d + p) then
      trainPort { s with fenced := s.fenced.filter fun x => x != (d, 5, p) } (4 * d + p)
    else s) s

/-- A seam port leads to no die, to the die itself, or to a die that another port leads to (R387, R388). -/
def portBad (n d p : Nat) : Bool :=
  let there := Config.meshPort (4 * n + d)
  decide (there p ≥ 4) || there p == d || (List.range 3).any fun k => k != p && there k == there p

/-- Step 9 finds the mesh of one package. -/
def meshGood (n d : Nat) : Bool :=
  (List.range 3).all (fun p => !portBad n d p) && (List.range 4).all fun k => Config.stackCount n k == 2

/-- The detail of a stop in step 9 (R388). -/
def meshDetail (n d : Nat) : Nat :=
  ((List.range 3).filter (portBad n d)).foldl (fun x p => x + 2 ^ p) 0 + Config.stackCount n d % 16 * 16

/-- Steps 6 to 11 of firmware that runs. -/
def bringUp (s : State) (d : Nat) : State :=
  let fails (k : Nat) : Bool := Config.bringUpFails (4 * s.tick + d) k
  if fails 6 then stopBoot s d 5 0x41 0
  else
    let s := testCores s d
    if fails 8 then stopBoot s d 7 0x51 0
    else if !meshGood s.tick d then stopBoot s d 8 0x52 (meshDetail s.tick d)
    else if fails 10 then stopBoot s d 9 0x61 0
    else
      let s := trainCouplings (scrubDie s d) d
      s.modDie d fun x => { x with phase := 11, stop := 0, detail := 0 }

/-- The firmware of an accepted image raises the fused minimum version where a signed field of the image asks for it (R389; assumption
40, DESIGN CHOICE: the field). -/
def raiseMin (x : Die) : Nat :=
  let sv := field (memRead x.bootbuf 0 64) 32 16
  if Config.raisesMinimum (bootBytes x (64 + field (memRead x.bootbuf 0 64) 64 32)) then max x.minSv sv else x.minSv

/-- BOOT: the boot ROM verifies the image; accepted firmware brings the die up. -/
def execBoot (die : Nat) (c : Cmd) (s : State) : Out :=
  let x := s.die die
  runCmd c die (if die < 4 ∧ c.rsv = 0 ∧ (x.phase = 3 ∨ x.phase = 4) ∧ !imageGood x c.d1.toNat then stopBoot s die 4 0x31 0 else s)
    (cmdCheck c die false false (
      if (x.phase = 3 ∨ x.phase = 4) ∧ imageGood x c.d1.toNat then
        .ok (bringUp (s.modDie die fun x => { x with measure := measureImage x, minSv := raiseMin x, phase := 5, stop := 0, detail := 0 }) die)
      else .error 4))

/-! ### QUOTE (R390, R391) -/

/-- The signed part of a quote. -/
def quoteBody (s : State) (nonce : List Byte) : List Byte :=
  natBytes (0x41444D51 + 2 ^ 32) 8 ++ nonce ++ measurements s ++ natBytes s.funcmode.toNat 8
    ++ natBytes ((s.bootCount - 1) % 2 ^ 32) 8

/-- QUOTE: 5,260 bytes in host memory, while the boot has a certificate and its key has signatures. -/
def execQuote (die : Nat) (c : Cmd) (s : State) : Out :=
  let body := quoteBody s (memReadBytes s.mem (hostAddr c.d1.toNat) 32)
  let sig := natBytes (bytesNat (Config.bootSign (s.bootCount - 1) s.quoteCount body)) hssLength
  runCmd c die s (cmdCheck c die false true (
    if s.cert = [] ∨ s.quoteCount ≥ 2 ^ 20 then .error 4
    else .ok { s with
      mem := memWriteBytes s.mem (hostAddr c.d2.toNat) (body ++ sig)
      quoteCount := s.quoteCount + 1 }))

/-! ### Kernel images (R398 to R400) -/

/-- KEYREG: a tenant's LMS public key of 56 bytes; a zero address removes it. -/
def execKeyreg (die : Nat) (c : Cmd) (s : State) : Out :=
  let key := if c.d2 = 0 then [] else memReadBytes s.mem c.d2.toNat 56
  runCmd c die s (cmdCheck c die (field c.d1.toNat 12 52 != 0) true
    (.ok { s with keys := Tab.set [] s.keys (field c.d1.toNat 0 12) key }))

/-- A section of an image: type, generation, offset and length. -/
structure Section where
  kind : Nat
  gen : Nat
  off : Nat
  len : Nat
deriving DecidableEq, Repr

/-- The section table at byte 16. -/
def sections (h : Nat) (n : Nat) : List Section :=
  (List.range n).map fun k =>
    let e := field h (128 + 128 * k) 128
    ⟨field e 0 8, field e 8 8, field e 32 32, field e 64 64⟩

/-- Bytes of an LMS signature with LMS_SHA256_M32_H15 and LMOTS_SHA256_N32_W4 (R391). -/
def lmsLength : Nat := 2668

/-- The header or the section table is not as R398 gives it, or a section does not lie in the image. -/
def imageHeaderBad (image : List Byte) : Bool :=
  let h := bytesNat (image.take 256)
  let n := field h 48 16
  let ss := sections h n
  decide (image.length < 256) || field h 0 32 != 0x41444D4B || field h 32 16 != 1 || decide (n > 15)
    || (ss.any fun x => decide (x.off + x.len > image.length) || x.kind == 0 || decide (x.kind > 7))
    || (match ss.getLast? with
        | some x => x.kind != 7 || (x.len != 32 && x.len != 32 + lmsLength)
        | none => true)
    || ss.dropLast.any fun x => x.kind == 7

/-- The bytes of a section. -/
def sectionBytes (image : List Byte) (x : Section) : List Byte := (image.drop x.off).take x.len

/-- The number of registers of the file that each of D, A and B names by its real number, where it does (R51, R54, R400). -/
def realFiles : Instr → Option Nat × Option Nat × Option Nat
  | .vcmpeq .. | .vcmpne .. | .vcmplt .. | .vcmple .. => (some 16, none, none)
  | .pand .. | .por .. | .pxor .. | .pandn .. => (some 16, some 16, some 16)
  | .psbf .. | .psif .. => (some 16, some 16, none)
  | .pcnt .. | .pfirst .. => (none, some 16, none)
  | .vcompress .. | .vcidx .. | .pexp .. => (none, none, some 16)
  | .planMk .. | .planMkm .. => (some 32, none, none)
  | .planInv .. => (some 32, some 32, none)
  | .planCmp .. => (some 32, some 32, some 32)
  | .pga .. | .psc .. | .pscAdd .. | .pscMax .. => (none, some 32, none)
  | .planLd .. | .planSt .. | .planRel .. => (some 32, none, none)
  | .planQ .. => (none, some 32, none)
  | .tidLd .. | .tidSt .. | .tidSet .. => (some 128, none, none)
  | .tidQ .. => (none, some 128, none)
  | .mxa .. | .mxs .. | .mxw .. | .mclr .. | .mma .. | .mmaG .. | .mmav .. => (some 16, none, none)
  | .mst .. | .mld .. => (some 16, none, none)
  | .mrd .. | .mwr .. => (none, some 16, none)
  | _ => (none, none, none)

/-- A real number outside its file. -/
def realBad (limit : Option Nat) (n : Nat) : Bool :=
  match limit with
  | some k => decide (k ≤ n)
  | none => false

/-- A field value of 1,023 means that a virtual number follows in an extension word. -/
def extended (limit : Option Nat) (n : Nat) : Nat := if limit.isNone ∧ n = 1023 then 1 else 0

/-- The instructions that the translator refuses (R400). -/
def refusedByTranslator : Instr → Bool
  | .wbase .. => true
  | .eret .. => true
  | .ctlWr _ _ n | .ctlSet _ _ n | .ctlClr _ _ n => n == 0x010 || n == 0x011
  | _ => false

/-- The immediate of an instruction: its width, whether it is signed, and the bytes that one step of it counts (R49, R95 to R98). -/
def immField : Instr → Option (Nat × Bool × Nat)
  | .addi .. | .cmplti .. => some (12, true, 1)
  | .andi .. | .ori .. | .xori .. | .vcfgi .. => some (12, false, 1)
  | .shli .. | .shri .. | .sari .. => some (6, false, 1)
  | .lui .. | .auipc .. => some (19, true, 1)
  | .flimm k .. => some (16, k == .i16, 1)
  | .jal _ => some (26, true, 4)
  | .jalr .. | .beq .. | .bne .. | .blt .. | .bge .. | .bltn .. | .bgen .. => some (12, true, 4)
  | .ldI8 .. | .ldN8 .. => some (9, true, 1)
  | .ldI16 .. | .ldN16 .. => some (9, true, 2)
  | .ldI32 .. | .ldN32 .. => some (9, true, 4)
  | .ld64 .. => some (9, true, 8)
  | .st8 .. => some (10, true, 1)
  | .st16 .. => some (10, true, 2)
  | .st32 .. => some (10, true, 4)
  | .st64 .. => some (10, true, 8)
  | .ldAcq _ w .. | .stRel _ w .. => some (6, true, QWidth.bytes' w)
  | .vloop .. | .vloopw .. => some (16, false, 4)
  | _ => none

/-- A value in bytes fits the immediate of an instruction (R400, R426); an instruction without one takes no value. -/
def immFits (i : Instr) (x : Int) : Bool :=
  match immField i with
  | none => false
  | some (w, signed, unit) =>
    let n := x / (unit : Int)
    x % (unit : Int) == 0 &&
      (if signed then decide (-(2 ^ (w - 1)) ≤ n) && decide (n < 2 ^ (w - 1)) else decide (0 ≤ n) && decide (n < 2 ^ w))

/-- The value of the symbol that a word of KIND 1 names, with its addend, by the word's place (R400; assumption 7, DESIGN CHOICE). -/
def symbolRef (code : List Byte) (place : Nat) (w : Word) : Int :=
  Config.symbolValue code place (field w.toNat 0 32) + sgn 32 (field w.toNat 32 32)

/-- Whether the translator refuses some word of Druros code: the words of `code` from a place on. -/
def drurosBad (code : List Byte) : Nat → Nat → List Word → Bool
  | 0, _, _ => false
  | _, _, [] => false
  | fuel + 1, place, w :: t =>
    let n := w.toNat
    let kind := field n 62 2
    let skip := if kind = 1 then 1 else 0
    if kind ≥ 2 then true
    else
      match decode (BitVec.ofNat 32 n) with
      | .error _ => drurosBad code fuel (place + 1 + skip) (t.drop skip)
      | .ok i =>
        let (ld, la, lb) := realFiles i
        if refusedByTranslator i || realBad ld (field n 32 10) || realBad la (field n 42 10) || realBad lb (field n 52 10) then true
        else if kind = 1 ∧ !immFits i (symbolRef code place (t.headD 0)) then true
        else
          let more := skip + extended ld (field n 32 10) + extended la (field n 42 10) + extended lb (field n 52 10)
          drurosBad code fuel (place + 1 + more) (t.drop more)

/-- Bytes as dwords. -/
def dwordsOfBytes (bs : List Byte) : List Word :=
  (List.range (bs.length / 8)).map fun k => BitVec.ofNat 64 (bytesNat ((bs.drop (8 * k)).take 8))

/-- The native text of an image, or the reason for a refusal (R399). -/
def nativeText (image : List Byte) (ss : List Section) : Except Nat (List Byte) :=
  match ss.find? fun x => x.kind == 2 && x.gen == 1 with
  | some x => .ok (sectionBytes image x)
  | none =>
    match ss.find? fun x => x.kind == 1 with
    | none => .error 4
    | some x =>
      let code := sectionBytes image x
      if drurosBad code code.length 0 (dwordsOfBytes code) then .error 5
      else .ok (Config.druros code)

/-- Bytes of an image and their offset from the start of the text region. -/
abbrev Segment := Nat × List Byte

/-- The first 64 KiB boundary at or above an offset (R427). -/
def nextBoundary (n : Nat) : Nat := (n + 65535) / 65536 * 65536

/-- Parts one after another, each on the first 64 KiB boundary behind the one before it (R427). -/
def placeParts : Nat → List (List Byte) → List Segment
  | _, [] => []
  | n, bs :: t => (n, bs) :: placeParts (nextBoundary (n + bs.length)) t

/-- What the loader places behind the text (R427): the data sections, then the node records, then the tensor and the plan templates
(R399; assumption 7, DESIGN CHOICE: the place of the tensor and plan templates). -/
def imageParts (image : List Byte) (ss : List Section) : List (List Byte) :=
  [6, 5, 3, 4].flatMap fun k => (ss.filter fun x => x.kind == k).map (sectionBytes image)

/-- The bytes of a segment with the symbols' values that fall into it (R399; assumption 7, DESIGN CHOICE: where a value goes). -/
def applySymbols (values : List (Nat × Byte)) (x : Segment) : Segment :=
  (x.1, values.foldl (fun bs v => if x.1 ≤ v.1 then bs.set (v.1 - x.1) v.2 else bs) x.2)

/-- The text at the start of the text region and the other parts at their places, with the symbol references applied (R399, R427). -/
def linkImage (text : List Byte) (parts : List (List Byte)) : List Segment :=
  (placeParts 0 (text :: parts)).map (applySymbols (Config.symbolBytes text parts))

/-- The bytes of the text region up to the end of the last part. -/
def regionLength (out : List Segment) : Nat := out.foldl (fun n x => max n (x.1 + x.2.length)) 0

/-- The segments that LOAD writes, or the reason for its refusal. -/
def loadImage (image : List Byte) (key : List Byte) (cap : Nat) : Except Nat (List Segment) :=
  if imageHeaderBad image then .error 1
  else
    let h := bytesNat (image.take 256)
    let ss := sections h (field h 48 16)
    match ss.getLast? with
    | none => .error 1
    | some g =>
      let signed := image.take g.off
      let sig := sectionBytes image g
      if sig.take 32 ≠ Config.sha256 signed then .error 2
      else if key ≠ [] ∧ (sig.length = 32 ∨ !Config.lmsVerify signed (sig.drop 32) key) then .error 3
      else
        match nativeText image ss with
        | .error k => .error k
        | .ok text =>
          let out := linkImage text (imageParts image ss)
          if cap < regionLength out then .error 6 else .ok out

/-- LOAD. -/
def execLoad (die : Nat) (c : Cmd) (s : State) : Out :=
  let image := memReadBytes s.mem c.d1.toNat c.d2.toNat
  let key := Tab.get [] s.keys (field c.d5.toNat 0 12)
  if die ≥ 4 then .fault .noSuchUnit
  else if c.rsv ≠ 0 ∨ field c.d5.toNat 12 52 ≠ 0 then .next (Cmd.done c s die 1)
  else if die ≠ 0 then .next (Cmd.done c s die 2)
  else
    match loadImage image key c.d4.toNat with
    | .error k => .next (Cmd.done c (s.modDie die fun x => { x with loadReason := k }) die 4)
    | .ok out => .next (Cmd.done c (out.foldl (fun s x => homeWrite s (c.d3.toNat + x.1) x.2) s) die 0)

end Sys2Proof.Machine
end

