-- ==== Sys2Proof/Machine/Board.lean ====
section
/-! DEFINITION. The board and the debug page: supply rails, the reset input, temperature, and halting single VLCs (spec/14_outside.md
R387, R388, R396, R397). -/

namespace Sys2Proof.Machine

/-! ### Rails and the reset input (R387) -/

/-- The rails in the order in which they rise. -/
def allRails : List Rail := [.vppHbm, .vddqHbm, .vddCore, .vddIo]

/-- A die in reset: its controller, cores, pages and units hold what reset gives; the fused minimum version and the rails stay.  The
sequence counter lies in CD0 (R352); FUNCMODE is 0 and the queue pages hold their reset values, EN = 0 among them, once every die is in
reset (R110, R316, R387). -/
def resetDie (s : State) (d : Nat) : State :=
  let mineCore (c : Nat) : Bool := coreDie c == d
  let old := s.die d
  let gone := (s.gangs.filter fun g => g.die == d).map (·.id)
  let x : Die := { Die.reset with rails := old.rails, minSv := old.minSv }
  let allReset := (List.range 4).all fun k => k == d || !(s.die k).resetReleased
  let s := clearQueues (clearHansom s d) d
  gone.foldl (fun t g => settlePreempt t (s.gangOf g).queue) { s with
    vlc := if mineCore s.vlc.core then { Vlc.reset with core := s.vlc.core, slot := s.vlc.slot } else s.vlc
    others := s.others.filter fun v => !mineCore v.core
    gangs := s.gangs.filter fun g => g.die != d
    cores := s.cores.filter fun k => !mineCore k.1
    mem := s.mem.filter fun m => !(decide (lsAddr (d * 144) 0 ≤ m.1) && decide (m.1 < lsAddr (d * 144 + 144) 0))
    arrivals := s.arrivals.filter fun a => !mineCore (a.1 / 65536)
    watches := s.watches.filter fun w => !mineCore w.core
    l2 := s.l2.filter fun l => homeDie (l.line * 128) != d && l.die != d
    writeBacks := s.writeBacks.filter fun w => !mineCore w.core
    snoops := s.snoops.filter fun x => !mineCore x.core
    walkCache := s.walkCache.filter fun e => e.die != d
    seqCounter := if d = 0 then 0 else s.seqCounter
    modes := s.modes.filter fun m => m.1 % 4 != d
    tlb := s.tlb.filter fun e => e.die != d
    nodes := s.nodes.filter fun n => n.die != d
    graphs := s.graphs.filter fun g => g.die != d
    landau := s.landau.setIfInBounds d Landau.reset
    engines := s.engines.filter fun o => o.die != d
    rx := s.rx.filter fun r => r.die != d
    steps := s.steps.filter fun t => t.die != d
    ports := s.ports.mapIdx fun c p => if c / 4 = d then { Port.reset with out := p.out } else p
    fenced := (s.fenced.filter fun f => f.1 != d) ++ untrained d
    funcmode := if allReset then 0 else s.funcmode
    queues := if allReset then [] else s.queues
    pendRecs := s.pendRecs.filter fun r => !(match r.gang with
      | some g => gone.contains g
      | none => false)
    openRecs := s.openRecs.filter fun r => !(match r.gang with
      | some g => gone.contains g
      | none => false)
    cert := if d = 0 then [] else s.cert
    ckpt := if d = 0 then none else s.ckpt
    dies := s.dies.setIfInBounds d x }

/-- Every rail is up, in the order of step 1. -/
def powered (x : Die) : Bool := x.rails == allRails

/-- POWER_RAIL: a rail rises, or is removed and the die holds nothing. -/
def execPowerRail (die : Nat) (rail : Rail) (up : Bool) (s : State) : Out :=
  if die ≥ 4 then .fault .noSuchUnit
  else if up then
    .next (s.modDie die fun x =>
      let x := { x with rails := if x.rails.contains rail then x.rails else x.rails ++ [rail] }
      if powered x ∧ x.phase = 0 then { x with phase := 1 } else x)
  else
    .next ((resetDie s die).modDie die fun x => { x with rails := x.rails.filter (· != rail), phase := 0 })

/-- CD_RESET_N: its release on a powered die starts the boot ROM, which trains the UCIe module and opens the pages; while it is low the
die is in reset. -/
def execCdResetN (die : Nat) (released : Bool) (s : State) : Out :=
  if die ≥ 4 then .fault .noSuchUnit
  else if !released then
    .next ((resetDie s die).modDie die fun x => { x with phase := if powered x then 1 else 0 })
  else if (s.die die).phase ≠ 1 then .next s
  else
    let s := s.modDie die fun x => { x with resetReleased := true }
    if Config.bringUpFails (4 * s.tick + die) 3 then .next (stopBoot s die 2 0x21 0) else .next (stopBoot s die 3 0 0)

/-! ### Temperature (R383, R397) -/

/-- The sensors are read. -/
def readSensors (s : State) (d : Nat) : State :=
  s.modDie d fun x => { x with temp := Config.sensor (2 * s.tick), pwr := Config.sensor (2 * s.tick + 1) }

/-- THERMAL_THROTTLE: issue slots are withheld from every core of the die, with an event, or are given again. -/
def execThermalThrottle (die : Nat) (on : Bool) (s : State) : Out :=
  if die ≥ 4 then .fault .noSuchUnit
  else
    let s := readSensors s die
    let t := s.modDie die fun x => { x with throttle := on }
    if on ∧ !(s.die die).throttle then .next (t.postEvent die 2 8 0) else .next t

/-- THERMAL_TRIP: every gang of the die stops, and the die waits for the board to remove power. -/
def execThermalTrip (die : Nat) (s : State) : Out :=
  if die ≥ 4 then .fault .noSuchUnit
  else
    let s := stopGangs (readSensors s die) fun g => g.die == die
    .next ((s.modDie die fun x => { x with trip := true }).postEvent die 3 8 0)

/-! ### The debug page (R396) -/

/-- What the debug page does to a VLC of its queue: halt it between two instructions, let it go on, or let it run one instruction. -/
def debugVlc (op : DebugOp) (v : Vlc) : Vlc :=
  match op, v.status with
  | .halt, .running => { v with status := .debug, stepping := false }
  | .release, .debug => { v with status := .running, stepping := false }
  | .step, .debug => { v with status := .running, stepping := true }
  | _, _ => v

/-- DEBUG_HALT_STEP: it acts only on the queue in QSEL. -/
def execDebugHaltStep (die core slot : Nat) (op : DebugOp) (s : State) : Out :=
  if die ≥ 4 ∨ core ≥ 576 ∨ slot ≥ 4 then .fault .noSuchUnit
  else
    .next (s.modVlcAt core slot fun v => if (s.gangOf v.gang).queue = (s.die die).qsel then debugVlc op v else v)

end Sys2Proof.Machine
end

