-- ==== Sys2Proof/Machine/VecExec.lean ====
section
/-! DEFINITION. Issuing the vector arithmetic, predicate and compress instructions: the checks of the scalar unit and the
capture into the queue (spec/02 R51, R58; spec/05 R123, R125, R126, R131 to R145). -/

namespace Sys2Proof.Machine

/-! ### Capture by the files that the fields name (R51, R52) -/

/-- D and A vectors, B a vector or a scalar by K. -/
def issueVec (sp : VSpec) (i : Instr) (k : Bool) (d a b : Fld) (s : State) : Out :=
  let v := s.vlc
  issue sp (bodyOf i) (capture v i (vNum v.winv d) (vNum v.winv a) (if k then xNum v.wins b else vNum v.winv b) 0 0
    (if k then v.rx b else 0)) s

/-- D a predicate, A a vector, B a vector or a scalar by K. -/
def issueCmp (sp : VSpec) (i : Instr) (k : Bool) (d a b : Fld) (s : State) : Out :=
  let v := s.vlc
  issue sp (bodyOf i) (capture v i d.toNat (vNum v.winv a) (if k then xNum v.wins b else vNum v.winv b) 0 0
    (if k then v.rx b else 0)) s

/-- D, A and B predicates. -/
def issuePred (sp : VSpec) (i : Instr) (d a b : Fld) (s : State) : Out :=
  issue sp (bodyOf i) (capture s.vlc i d.toNat a.toNat b.toNat 0 0 0) s

/-- D a scalar, A a predicate. -/
def issueScan (sp : VSpec) (i : Instr) (d a : Fld) (s : State) : Out :=
  issue sp (bodyOf i) (capture s.vlc i (xNum s.vlc.wins d) a.toNat 0 0 0 0) s

/-! ### The checks (R123, R126) -/

/-- The groups of an instruction whose operands all have GRP names. -/
def sameGroups (v : Vlc) (k : Bool) (d a b : Fld) : List (Nat × Nat) :=
  let n := grpNames v.vt
  [(vNum v.winv d, n), (vNum v.winv a, n)] ++ if k then [] else [(vNum v.winv b, n)]

/-- D overlaps a vector source of GRP names. -/
def onSource (v : Vlc) (k : Bool) (d a b : Fld) : Bool :=
  let n := grpNames v.vt
  overlaps (vNum v.winv d) n (vNum v.winv a) n || !k && overlaps (vNum v.winv d) n (vNum v.winv b) n

/-- An element-wise instruction that accepts classes `lo` to `hi`. -/
def elemSpec (lo hi : Nat) (v : Vlc) (k : Bool) (d a b : Fld) : VSpec :=
  { vtBad := !clsIn v.vt.cls lo hi, groups := sameGroups v k d a b }

/-- Classes 0, 1, 3 and 4 at SEW 32 or less (R126). -/
def wideOk (t : Vtype) : Bool :=
  match t.cls with
  | .i | .n | .bf16 | .fp16 => decide (t.sew.bits ≤ 32)
  | _ => false

/-- A widening instruction (R123, R133). -/
def wideSpec (v : Vlc) (k : Bool) (d a b : Fld) : VSpec :=
  let n := grpNames v.vt
  let D := vNum v.winv d
  let A := vNum v.winv a
  let B := vNum v.winv b
  { vtBad := !wideOk v.vt
    groups := [(D, 2 * n), (A, n)] ++ if k then [] else [(B, n)]
    overlap := overlaps D (2 * n) A n || !k && overlaps D (2 * n) B n }

/-- `vnclip`: A is wide; D may start where A starts (R123, R133). -/
def nclipSpec (v : Vlc) (k : Bool) (d a b : Fld) : VSpec :=
  let n := grpNames v.vt
  let D := vNum v.winv d
  let A := vNum v.winv a
  { vtBad := !clsIn v.vt.cls 0 1
    groups := [(D, n), (A, 2 * n)] ++ if k then [] else [(vNum v.winv b, n)]
    overlap := overlaps D n A (2 * n) && D != A }

/-- A compare: D is a predicate (R132). -/
def cmpSpec (v : Vlc) (k : Bool) (d a b : Fld) : VSpec :=
  let n := grpNames v.vt
  { fieldBad := pBad d 1
    vtBad := !clsIn v.vt.cls 0 4
    groups := [(vNum v.winv a, n)] ++ if k then [] else [(vNum v.winv b, n)] }

/-- A reduction: D may be B's group, and may not overlap A's (R123, R135). -/
def redSpec (v : Vlc) (k : Bool) (d a b : Fld) : VSpec :=
  let n := grpNames v.vt
  { vtBad := !clsIn v.vt.cls 0 4
    groups := sameGroups v k d a b
    overlap := overlaps (vNum v.winv d) n (vNum v.winv a) n }

def dotOk (t : Vtype) : Bool :=
  match t.cls with
  | .i | .n => decide (t.sew.bits ≤ 16)
  | .fp32 => false
  | _ => true

/-- A permutation: D overlaps no vector source (R123, R137). -/
def permSpec (v : Vlc) (k : Bool) (d a b : Fld) : VSpec :=
  { groups := sameGroups v k d a b, overlap := onSource v k d a b }

/-- `vcvt`: D has the names of the target width (R123, R139). -/
def cvtSpec (v : Vlc) (t : CvtTarget) (d a : Fld) : VSpec :=
  let n := grpNames v.vt
  let m := cvtNames v.vt t
  let D := vNum v.winv d
  let A := vNum v.winv a
  { groups := [(D, m), (A, n)]
    overlap := overlaps D m A n && (decide (v.vt.sew.bits < targetBits t) || decide (targetBits t < v.vt.sew.bits) && D != A) }

/-- Predicate operands (R51). -/
def predSpec (d a b : Fld) : VSpec := { fieldBad := firstBad (pBad d 1) (pBad a 2) (pBad b 3) }

/-! ### Meanings: majors 0x1C to 0x22 -/

def execVadd (pg : BitVec 2) (k : Bool) (d a b : Fld) (s : State) : Out :=
  issueVec (elemSpec 0 4 s.vlc k d a b) (.vadd pg k d a b) k d a b s

def execVsub (pg : BitVec 2) (k : Bool) (d a b : Fld) (s : State) : Out :=
  issueVec (elemSpec 0 4 s.vlc k d a b) (.vsub pg k d a b) k d a b s

def execVrsub (pg : BitVec 2) (k : Bool) (d a b : Fld) (s : State) : Out :=
  issueVec (elemSpec 0 4 s.vlc k d a b) (.vrsub pg k d a b) k d a b s

def execVmul (pg : BitVec 2) (k : Bool) (d a b : Fld) (s : State) : Out :=
  issueVec (elemSpec 0 4 s.vlc k d a b) (.vmul pg k d a b) k d a b s

def execVmin (pg : BitVec 2) (k : Bool) (d a b : Fld) (s : State) : Out :=
  issueVec (elemSpec 0 4 s.vlc k d a b) (.vmin pg k d a b) k d a b s

def execVmax (pg : BitVec 2) (k : Bool) (d a b : Fld) (s : State) : Out :=
  issueVec (elemSpec 0 4 s.vlc k d a b) (.vmax pg k d a b) k d a b s

def execVmulh (pg : BitVec 2) (k : Bool) (d a b : Fld) (s : State) : Out :=
  issueVec (elemSpec 0 1 s.vlc k d a b) (.vmulh pg k d a b) k d a b s

def execVdiv (pg : BitVec 2) (k : Bool) (d a b : Fld) (s : State) : Out :=
  issueVec (elemSpec 0 4 s.vlc k d a b) (.vdiv pg k d a b) k d a b s

def execVand (pg : BitVec 2) (k : Bool) (d a b : Fld) (s : State) : Out :=
  issueVec (elemSpec 0 9 s.vlc k d a b) (.vand pg k d a b) k d a b s

def execVor (pg : BitVec 2) (k : Bool) (d a b : Fld) (s : State) : Out :=
  issueVec (elemSpec 0 9 s.vlc k d a b) (.vor pg k d a b) k d a b s

def execVxor (pg : BitVec 2) (k : Bool) (d a b : Fld) (s : State) : Out :=
  issueVec (elemSpec 0 9 s.vlc k d a b) (.vxor pg k d a b) k d a b s

def execVshl (pg : BitVec 2) (k : Bool) (d a b : Fld) (s : State) : Out :=
  issueVec (elemSpec 0 1 s.vlc k d a b) (.vshl pg k d a b) k d a b s

def execVshr (pg : BitVec 2) (k : Bool) (d a b : Fld) (s : State) : Out :=
  issueVec (elemSpec 0 1 s.vlc k d a b) (.vshr pg k d a b) k d a b s

def execVsar (pg : BitVec 2) (k : Bool) (d a b : Fld) (s : State) : Out :=
  issueVec (elemSpec 0 1 s.vlc k d a b) (.vsar pg k d a b) k d a b s

def execVmacc (pg : BitVec 2) (k : Bool) (d a b : Fld) (s : State) : Out :=
  issueVec (elemSpec 0 4 s.vlc k d a b) (.vmacc pg k d a b) k d a b s

def execVnmsac (pg : BitVec 2) (k : Bool) (d a b : Fld) (s : State) : Out :=
  issueVec (elemSpec 0 4 s.vlc k d a b) (.vnmsac pg k d a b) k d a b s

def execVwmacc (pg : BitVec 2) (k : Bool) (d a b : Fld) (s : State) : Out :=
  issueVec (wideSpec s.vlc k d a b) (.vwmacc pg k d a b) k d a b s

def execVwadd (pg : BitVec 2) (k : Bool) (d a b : Fld) (s : State) : Out :=
  issueVec (wideSpec s.vlc k d a b) (.vwadd pg k d a b) k d a b s

def execVwmul (pg : BitVec 2) (k : Bool) (d a b : Fld) (s : State) : Out :=
  issueVec (wideSpec s.vlc k d a b) (.vwmul pg k d a b) k d a b s

def execVnclip (pg : BitVec 2) (k : Bool) (d a b : Fld) (s : State) : Out :=
  issueVec (nclipSpec s.vlc k d a b) (.vnclip pg k d a b) k d a b s

def execVcmpeq (pg : BitVec 2) (k : Bool) (d a b : Fld) (s : State) : Out :=
  issueCmp (cmpSpec s.vlc k d a b) (.vcmpeq pg k d a b) k d a b s

def execVcmpne (pg : BitVec 2) (k : Bool) (d a b : Fld) (s : State) : Out :=
  issueCmp (cmpSpec s.vlc k d a b) (.vcmpne pg k d a b) k d a b s

def execVcmplt (pg : BitVec 2) (k : Bool) (d a b : Fld) (s : State) : Out :=
  issueCmp (cmpSpec s.vlc k d a b) (.vcmplt pg k d a b) k d a b s

def execVcmple (pg : BitVec 2) (k : Bool) (d a b : Fld) (s : State) : Out :=
  issueCmp (cmpSpec s.vlc k d a b) (.vcmple pg k d a b) k d a b s

def execVmerge (pg : BitVec 2) (k : Bool) (d a b : Fld) (s : State) : Out :=
  issueVec (elemSpec 0 9 s.vlc k d a b) (.vmerge pg k d a b) k d a b s

def execVmvV (pg : BitVec 2) (d a : Fld) (s : State) : Out :=
  issueVec (elemSpec 0 9 s.vlc true d a 0) (.vmvV pg d a) true d a 0 s

def execVmvVx (pg : BitVec 2) (d b : Fld) (s : State) : Out :=
  issueVec { groups := [(vNum s.vlc.winv d, grpNames s.vlc.vt)] } (.vmvVx pg d b) true d 0 b s

/-- The move to a scalar: D is an x register (R131). -/
def execVmvXv (d a : Fld) (s : State) : Out :=
  let v := s.vlc
  issue { groups := [(vNum v.winv a, grpNames v.vt)] } (bodyOf (.vmvXv d a))
    (capture v (.vmvXv d a) (xNum v.wins d) (vNum v.winv a) 0 0 0 0) s

def execVsadd (pg : BitVec 2) (k : Bool) (d a b : Fld) (s : State) : Out :=
  issueVec (elemSpec 0 1 s.vlc k d a b) (.vsadd pg k d a b) k d a b s

def execVssub (pg : BitVec 2) (k : Bool) (d a b : Fld) (s : State) : Out :=
  issueVec (elemSpec 0 1 s.vlc k d a b) (.vssub pg k d a b) k d a b s

/-! ### Meanings: majors 0x23 to 0x26 -/

def execVsqrt (pg : BitVec 2) (d a : Fld) (s : State) : Out :=
  issueVec (elemSpec 2 4 s.vlc true d a 0) (.vsqrt pg d a) true d a 0 s

def execVrsqrte (pg : BitVec 2) (d a : Fld) (s : State) : Out :=
  issueVec (elemSpec 2 4 s.vlc true d a 0) (.vrsqrte pg d a) true d a 0 s

def execVrece (pg : BitVec 2) (d a : Fld) (s : State) : Out :=
  issueVec (elemSpec 2 4 s.vlc true d a 0) (.vrece pg d a) true d a 0 s

def execVexp2e (pg : BitVec 2) (d a : Fld) (s : State) : Out :=
  issueVec (elemSpec 2 4 s.vlc true d a 0) (.vexp2e pg d a) true d a 0 s

def execVredsum (pg : BitVec 2) (k : Bool) (d a b : Fld) (s : State) : Out :=
  issueVec (redSpec s.vlc k d a b) (.vredsum pg k d a b) k d a b s

def execVredmax (pg : BitVec 2) (k : Bool) (d a b : Fld) (s : State) : Out :=
  issueVec (redSpec s.vlc k d a b) (.vredmax pg k d a b) k d a b s

def execVredmin (pg : BitVec 2) (k : Bool) (d a b : Fld) (s : State) : Out :=
  issueVec (redSpec s.vlc k d a b) (.vredmin pg k d a b) k d a b s

def execVdot (pg : BitVec 2) (d a b : Fld) (s : State) : Out :=
  issueVec { vtBad := !dotOk s.vlc.vt, groups := sameGroups s.vlc false d a b } (.vdot pg d a b) false d a b s

def execVxchg (pg : BitVec 2) (d a b : Fld) (s : State) : Out :=
  issueVec (permSpec s.vlc true d a b) (.vxchg pg d a b) true d a b s

def execVslup (pg : BitVec 2) (d a b : Fld) (s : State) : Out :=
  issueVec (permSpec s.vlc true d a b) (.vslup pg d a b) true d a b s

def execVsldn (pg : BitVec 2) (d a b : Fld) (s : State) : Out :=
  issueVec (permSpec s.vlc true d a b) (.vsldn pg d a b) true d a b s

def execVperm (pg : BitVec 2) (d a b : Fld) (s : State) : Out :=
  issueVec (permSpec s.vlc false d a b) (.vperm pg d a b) false d a b s

def execVcvt (pg : BitVec 2) (t : CvtTarget) (d a : Fld) (s : State) : Out :=
  issueVec (cvtSpec s.vlc t d a) (.vcvt pg t d a) true d a 0 s

def execVbscale (pg : BitVec 2) (k : Bool) (d a b : Fld) (s : State) : Out :=
  issueVec (elemSpec 2 4 s.vlc k d a b) (.vbscale pg k d a b) k d a b s

def execVrot (pg : BitVec 2) (d a : Fld) (s : State) : Out :=
  issueVec (elemSpec 2 4 s.vlc true d a 0) (.vrot pg d a) true d a 0 s

def execVid (pg : BitVec 2) (k : Bool) (d b : Fld) (s : State) : Out :=
  issueVec { vtBad := !clsIn s.vlc.vt.cls 0 1, groups := [(vNum s.vlc.winv d, grpNames s.vlc.vt)] } (.vid pg k d b) true d 0 b s

/-! ### Meanings: majors 0x27 to 0x29 -/

def execPand (pg : BitVec 2) (d a b : Fld) (s : State) : Out :=
  issuePred (predSpec d a b) (.pand pg d a b) d a b s

def execPor (pg : BitVec 2) (d a b : Fld) (s : State) : Out :=
  issuePred (predSpec d a b) (.por pg d a b) d a b s

def execPxor (pg : BitVec 2) (d a b : Fld) (s : State) : Out :=
  issuePred (predSpec d a b) (.pxor pg d a b) d a b s

def execPandn (pg : BitVec 2) (d a b : Fld) (s : State) : Out :=
  issuePred (predSpec d a b) (.pandn pg d a b) d a b s

def execPsbf (pg : BitVec 2) (d a : Fld) (s : State) : Out :=
  issuePred (predSpec d a 0) (.psbf pg d a) d a 0 s

def execPsif (pg : BitVec 2) (d a : Fld) (s : State) : Out :=
  issuePred (predSpec d a 0) (.psif pg d a) d a 0 s

def execPcnt (pg : BitVec 2) (d a : Fld) (s : State) : Out :=
  issueScan (predSpec 0 a 0) (.pcnt pg d a) d a s

def execPfirst (pg : BitVec 2) (d a : Fld) (s : State) : Out :=
  issueScan (predSpec 0 a 0) (.pfirst pg d a) d a s

/-- `vcompress` and `pexp`: D and A vectors, B a predicate (R145). -/
def issuePick (i : Instr) (d a b : Fld) (s : State) : Out :=
  let v := s.vlc
  issue { fieldBad := pBad b 3, groups := sameGroups v true d a 0, overlap := onSource v true d a 0 } (bodyOf i)
    (capture v i (vNum v.winv d) (vNum v.winv a) b.toNat 0 0 0) s

def execVcompress (d a b : Fld) (s : State) : Out := issuePick (.vcompress d a b) d a b s

/-- `vcidx vD, pB, xA` (R145). -/
def execVcidx (d a b : Fld) (s : State) : Out :=
  let v := s.vlc
  issue {
    fieldBad := pBad b 3
    vtBad := !(clsIn v.vt.cls 0 1 && decide (16 ≤ v.vt.sew.bits))
    groups := [(vNum v.winv d, grpNames v.vt)] } (bodyOf (.vcidx d a b))
    (capture v (.vcidx d a b) (vNum v.winv d) (xNum v.wins a) b.toNat 0 (v.rx a) 0) s

def execVtop (pg : BitVec 2) (d a b : Fld) (s : State) : Out :=
  let v := s.vlc
  issueVec {
    vtBad := !(clsIn v.vt.cls 0 4 && decide (16 ≤ v.vt.sew.bits))
    groups := sameGroups v true d a b
    overlap := onSource v true d a b } (.vtop pg d a b) true d a b s

def execPexp (d a b : Fld) (s : State) : Out := issuePick (.pexp d a b) d a b s

end Sys2Proof.Machine
end

