-- ==== Sys2Proof/Machine/VecTabExec.lean ====
section
/-! DEFINITION. Issuing the vector memory, plan, tensor identifier and matrix instructions (spec/08 R226 to R240;
spec/10 R293, R306; spec/06 R158, R165, R181). -/

namespace Sys2Proof.Machine

/-! ### Vector memory -/

/-- Class, width and mode rules of R227 and R228. `sub` admits memory elements below 8 bits, `wide` is `vst.md`. -/
def memBad (t : Vtype) (sub wide : Bool) : Bool :=
  t.cls.isFp && t.mew != t.sew || !sub && decide (t.mew.bits < 8) || wide && !(t.sew == .e64 && t.mew == .e64)

def memSpec (v : Vlc) (sub wide : Bool) (d : Fld) : VSpec :=
  { vtBad := memBad v.vt sub wide, groups := [(vNum v.winv d, grpNames v.vt)] }

/-- D a data group, A the base register, B an x register. -/
def issueMem (sp : VSpec) (i : Instr) (d a b : Fld) (s : State) : Out :=
  let v := s.vlc
  issue sp (bodyOf i) (capture v i (vNum v.winv d) (xNum v.wins a) (xNum v.wins b) 0 (v.rx a) (v.rx b)) s

/-- The range of a segment access (R231). -/
def segSpec (v : Vlc) (nf : BitVec 3) (d : Fld) : VSpec :=
  { memSpec v false false d with
    segBad := decide (255 < vNum v.winv d + (nf.toNat + 1) * grpNames v.vt - 1) }

def execVld (pg : BitVec 2) (d a : Fld) (s : State) : Out :=
  issueMem (memSpec s.vlc true false d) (.vld pg d a) d a 0 s

def execVldS (pg : BitVec 2) (d a b : Fld) (s : State) : Out :=
  issueMem (memSpec s.vlc false false d) (.vldS pg d a b) d a b s

def execVldFf (pg : BitVec 2) (d a b : Fld) (s : State) : Out :=
  issueMem (memSpec s.vlc false false d) (.vldFf pg d a b) d a b s

def execVldNc (pg : BitVec 2) (d a : Fld) (s : State) : Out :=
  issueMem (memSpec s.vlc true false d) (.vldNc pg d a) d a 0 s

def execVldSeg (pg : BitVec 2) (nf : BitVec 3) (d a : Fld) (s : State) : Out :=
  issueMem (segSpec s.vlc nf d) (.vldSeg pg nf d a) d a 0 s

def execVldFe (pg : BitVec 2) (d a : Fld) (s : State) : Out :=
  issueMem (memSpec s.vlc false false d) (.vldFe pg d a) d a 0 s

def execVldFec (pg : BitVec 2) (d a : Fld) (s : State) : Out :=
  issueMem (memSpec s.vlc false false d) (.vldFec pg d a) d a 0 s

def execVst (pg : BitVec 2) (d a : Fld) (s : State) : Out :=
  issueMem (memSpec s.vlc true false d) (.vst pg d a) d a 0 s

def execVstS (pg : BitVec 2) (d a b : Fld) (s : State) : Out :=
  issueMem (memSpec s.vlc false false d) (.vstS pg d a b) d a b s

def execVstNtf (pg : BitVec 2) (d a b : Fld) (s : State) : Out :=
  issueMem (memSpec s.vlc false false d) (.vstNtf pg d a b) d a b s

def execVstNc (pg : BitVec 2) (d a : Fld) (s : State) : Out :=
  issueMem (memSpec s.vlc true false d) (.vstNc pg d a) d a 0 s

def execVstSeg (pg : BitVec 2) (nf : BitVec 3) (d a : Fld) (s : State) : Out :=
  issueMem (segSpec s.vlc nf d) (.vstSeg pg nf d a) d a 0 s

def execVstFe (pg : BitVec 2) (d a : Fld) (s : State) : Out :=
  issueMem (memSpec s.vlc false false d) (.vstFe pg d a) d a 0 s

def execVstMd (pg : BitVec 2) (tv : Bool) (d a : Fld) (s : State) : Out :=
  issueMem (memSpec s.vlc false true d) (.vstMd pg tv d a) d a 0 s

def execVldSc (pg : BitVec 2) (d a : Fld) (s : State) : Out :=
  issueMem (memSpec s.vlc false false d) (.vldSc pg d a) d a 0 s

def execVstSc (pg : BitVec 2) (d a : Fld) (s : State) : Out :=
  issueMem (memSpec s.vlc false false d) (.vstSc pg d a) d a 0 s

def execVldAcq (pg : BitVec 2) (d a : Fld) (s : State) : Out :=
  issueMem (memSpec s.vlc false false d) (.vldAcq pg d a) d a 0 s

def execVstRel (pg : BitVec 2) (d a : Fld) (s : State) : Out :=
  issueMem (memSpec s.vlc false false d) (.vstRel pg d a) d a 0 s

/-! ### Plans -/

/-- D and the plan operands are slots. -/
def planSpec (d a b : Fld) : VSpec := { noFan := true, fieldBad := firstBad (slotBad d 1) (slotBad a 2) (slotBad b 3) }

/-- CLS 1 with SEW 16, 32 or 64 (R307). -/
def indexOk (t : Vtype) : Bool := t.cls == .n && decide (16 ≤ t.sew.bits)

def execPlanMk (pg : BitVec 2) (d a b : Fld) (s : State) : Out :=
  let v := s.vlc
  issue { planSpec d 0 0 with vtBad := !indexOk v.vt, groups := [(vNum v.winv a, grpNames v.vt)] } (bodyOf (.planMk pg d a b))
    (capture v (.planMk pg d a b) d.toNat (vNum v.winv a) (xNum v.wins b) 0 0 (v.rx b)) s

def execPlanMkm (pg : BitVec 2) (d a b : Fld) (s : State) : Out :=
  let v := s.vlc
  issue (planSpec d 0 0) (bodyOf (.planMkm pg d a b))
    (capture v (.planMkm pg d a b) d.toNat (xNum v.wins a) (xNum v.wins b) 0 (v.rx a) (v.rx b)) s

def execPlanInv (d a : Fld) (s : State) : Out :=
  issue (planSpec d a 0) (bodyOf (.planInv d a)) (capture s.vlc (.planInv d a) d.toNat a.toNat 0 0 0 0) s

def execPlanCmp (d a b : Fld) (s : State) : Out :=
  issue (planSpec d a b) (bodyOf (.planCmp d a b)) (capture s.vlc (.planCmp d a b) d.toNat a.toNat b.toNat 0 0 0) s

/-- The static checks of an apply (R311 order 1); `arith` is `psc.add` and `psc.max`. -/
def applySpec (v : Vlc) (arith : Bool) (d a : Fld) : VSpec :=
  { fieldBad := slotBad a 2
    vtBad := memBad v.vt false false || arith && !(v.vt.mew == v.vt.sew && clsIn v.vt.cls 0 4)
    groups := [(vNum v.winv d, grpNames v.vt)] }

/-- D data, A a slot, B the base register. -/
def issueApply (arith : Bool) (i : Instr) (d a b : Fld) (s : State) : Out :=
  let v := s.vlc
  issue (applySpec v arith d a) (bodyOf i) (capture v i (vNum v.winv d) a.toNat (xNum v.wins b) 0 0 (v.rx b)) s

def execPga (pg : BitVec 2) (d a b : Fld) (s : State) : Out := issueApply false (.pga pg d a b) d a b s

def execPsc (pg : BitVec 2) (d a b : Fld) (s : State) : Out := issueApply false (.psc pg d a b) d a b s

def execPscAdd (pg : BitVec 2) (d a b : Fld) (s : State) : Out := issueApply true (.pscAdd pg d a b) d a b s

def execPscMax (pg : BitVec 2) (d a b : Fld) (s : State) : Out := issueApply true (.pscMax pg d a b) d a b s

/-- D a slot or an identifier, A an address register, B an x register. -/
def issueTable (sp : VSpec) (i : Instr) (d a b : Fld) (s : State) : Out :=
  let v := s.vlc
  issue sp (bodyOf i) (capture v i d.toNat (xNum v.wins a) (xNum v.wins b) 0 (v.rx a) (v.rx b)) s

def execPlanLd (d a : Fld) (s : State) : Out := issueTable (planSpec d 0 0) (.planLd d a) d a 0 s

def execPlanSt (d a : Fld) (s : State) : Out := issueTable (planSpec d 0 0) (.planSt d a) d a 0 s

def execPlanRel (d : Fld) (s : State) : Out := issueTable (planSpec d 0 0) (.planRel d) d 0 0 s

/-- D an x register, A a slot or an identifier, B an x register. -/
def issueQuery (sp : VSpec) (i : Instr) (d a b : Fld) (s : State) : Out :=
  let v := s.vlc
  issue sp (bodyOf i) (capture v i (xNum v.wins d) a.toNat (xNum v.wins b) 0 0 (v.rx b)) s

def execPlanQ (d a b : Fld) (s : State) : Out := issueQuery (planSpec 0 a 0) (.planQ d a b) d a b s

/-! ### Tensor identifiers -/

def execTidLd (d a : Fld) (s : State) : Out := issueTable { noFan := true } (.tidLd d a) d a 0 s

def execTidSt (d a : Fld) (s : State) : Out := issueTable { noFan := true } (.tidSt d a) d a 0 s

def execTidSet (d a b : Fld) (s : State) : Out := issueTable { noFan := true } (.tidSet d a b) d a b s

def execTidQ (d a b : Fld) (s : State) : Out := issueQuery { noFan := true } (.tidQ d a b) d a b s

/-! ### Matrix instructions -/

/-- An outer product: D a tile, A and B vector groups (R165). -/
def issueOuter (i : Instr) (d a b : Fld) (s : State) : Out :=
  let v := s.vlc
  let n := grpNames v.vt
  issue {
    noFan := true
    fieldBad := tileBad v.mvl d 1
    vtBad := v.vt.sew == .e64
    groups := [(vNum v.winv a, n), (vNum v.winv b, n)] } (bodyOf i)
    (capture v i d.toNat (vNum v.winv a) (vNum v.winv b) 0 0 0) s

def execMxa (pg : BitVec 2) (d a b : Fld) (s : State) : Out := issueOuter (.mxa pg d a b) d a b s

def execMxs (pg : BitVec 2) (d a b : Fld) (s : State) : Out := issueOuter (.mxs pg d a b) d a b s

def execMxw (pg : BitVec 2) (d a b : Fld) (s : State) : Out := issueOuter (.mxw pg d a b) d a b s

/-- D a tile, A and B x registers. -/
def issueTile (i : Instr) (d a b : Fld) (s : State) : Out :=
  let v := s.vlc
  issue { noFan := true, fieldBad := tileBad v.mvl d 1 } (bodyOf i)
    (capture v i d.toNat (xNum v.wins a) (xNum v.wins b) 0 (v.rx a) (v.rx b)) s

def execMclr (pg : BitVec 2) (d : Fld) (s : State) : Out := issueTile (.mclr pg d) d 0 0 s

def execMma (pg : BitVec 2) (d a b : Fld) (s : State) : Out := issueTile (.mma pg d a b) d a b s

def execMmaG (pg : BitVec 2) (d a b : Fld) (s : State) : Out := issueTile (.mmaG pg d a b) d a b s

/-- x[A] names a vector group whose alignment the scalar unit checks (R125, R174). -/
def execMmav (pg : BitVec 2) (d a b : Fld) (s : State) : Out :=
  let v := s.vlc
  issue {
    noFan := true
    fieldBad := tileBad v.mvl d 1
    groups := [(field (v.rx a).toNat 0 8, grpNames v.vt)] } (bodyOf (.mmav pg d a b))
    (capture v (.mmav pg d a b) d.toNat (xNum v.wins a) (xNum v.wins b) 0 (v.rx a) (v.rx b)) s

def execMst (pg : BitVec 2) (d b : Fld) (s : State) : Out := issueTile (.mst pg d b) d 0 b s

def execMld (pg : BitVec 2) (d b : Fld) (s : State) : Out := issueTile (.mld pg d b) d 0 b s

/-- SEW 32 with CLS 0, 1 or 2 (R181). -/
def lineOk (t : Vtype) : Bool := t.sew == .e32 && clsIn t.cls 0 2

def execMrd (pg : BitVec 2) (d a b : Fld) (s : State) : Out :=
  let v := s.vlc
  issue { noFan := true, fieldBad := tileBad v.mvl a 2, vtBad := !lineOk v.vt, groups := [(vNum v.winv d, grpNames v.vt)] }
    (bodyOf (.mrd pg d a b)) (capture v (.mrd pg d a b) (vNum v.winv d) a.toNat (xNum v.wins b) 0 0 (v.rx b)) s

def execMwr (pg : BitVec 2) (d a b : Fld) (s : State) : Out :=
  let v := s.vlc
  issue { noFan := true, fieldBad := tileBad v.mvl d 1, vtBad := !lineOk v.vt, groups := [(vNum v.winv a, grpNames v.vt)] }
    (bodyOf (.mwr pg d a b)) (capture v (.mwr pg d a b) d.toNat (vNum v.winv a) (xNum v.wins b) 0 0 (v.rx b)) s

end Sys2Proof.Machine
end

