-- ==== Sys2Proof/Machine/Dispatch.lean ====
section
/-! DEFINITION. One arm per constructor of `Instr`: each is one call of the meaning of its instruction. -/

namespace Sys2Proof.Machine

def exec (i : Instr) (s : State) : Host.Outcome State Fault Refusal :=
  match i with
  | .add d a b => Sys2Proof.Machine.execAdd d a b s
  | .sub d a b => Sys2Proof.Machine.execSub d a b s
  | .and d a b => Sys2Proof.Machine.execAnd d a b s
  | .or d a b => Sys2Proof.Machine.execOr d a b s
  | .xor d a b => Sys2Proof.Machine.execXor d a b s
  | .shl d a b => Sys2Proof.Machine.execShl d a b s
  | .shr d a b => Sys2Proof.Machine.execShr d a b s
  | .sar d a b => Sys2Proof.Machine.execSar d a b s
  | .cmplt d a b => Sys2Proof.Machine.execCmplt d a b s
  | .cmpltn d a b => Sys2Proof.Machine.execCmpltn d a b s
  | .mul d a b => Sys2Proof.Machine.execMul d a b s
  | .mulh d a b => Sys2Proof.Machine.execMulh d a b s
  | .mulhn d a b => Sys2Proof.Machine.execMulhn d a b s
  | .div d a b => Sys2Proof.Machine.execDiv d a b s
  | .divn d a b => Sys2Proof.Machine.execDivn d a b s
  | .rem d a b => Sys2Proof.Machine.execRem d a b s
  | .remn d a b => Sys2Proof.Machine.execRemn d a b s
  | .min d a b => Sys2Proof.Machine.execMin d a b s
  | .max d a b => Sys2Proof.Machine.execMax d a b s
  | .minn d a b => Sys2Proof.Machine.execMinn d a b s
  | .maxn d a b => Sys2Proof.Machine.execMaxn d a b s
  | .clz d a => Sys2Proof.Machine.execClz d a s
  | .ctz d a => Sys2Proof.Machine.execCtz d a s
  | .popc d a => Sys2Proof.Machine.execPopc d a s
  | .addi d a imm => Sys2Proof.Machine.execAddi d a imm s
  | .andi d a imm => Sys2Proof.Machine.execAndi d a imm s
  | .ori d a imm => Sys2Proof.Machine.execOri d a imm s
  | .xori d a imm => Sys2Proof.Machine.execXori d a imm s
  | .shli d a sh => Sys2Proof.Machine.execShli d a sh s
  | .shri d a sh => Sys2Proof.Machine.execShri d a sh s
  | .sari d a sh => Sys2Proof.Machine.execSari d a sh s
  | .cmplti d a imm => Sys2Proof.Machine.execCmplti d a imm s
  | .lui d imm => Sys2Proof.Machine.execLui d imm s
  | .auipc d imm => Sys2Proof.Machine.execAuipc d imm s
  | .flimm kind d imm => Sys2Proof.Machine.execFlimm kind d imm s
  | .jal imm => Sys2Proof.Machine.execJal imm s
  | .jalr d a imm => Sys2Proof.Machine.execJalr d a imm s
  | .beq a b imm => Sys2Proof.Machine.execBeq a b imm s
  | .bne a b imm => Sys2Proof.Machine.execBne a b imm s
  | .blt a b imm => Sys2Proof.Machine.execBlt a b imm s
  | .bge a b imm => Sys2Proof.Machine.execBge a b imm s
  | .bltn a b imm => Sys2Proof.Machine.execBltn a b imm s
  | .bgen a b imm => Sys2Proof.Machine.execBgen a b imm s
  | .ldI8 d a imm => Sys2Proof.Machine.execLdI8 d a imm s
  | .ldN8 d a imm => Sys2Proof.Machine.execLdN8 d a imm s
  | .ldI16 d a imm => Sys2Proof.Machine.execLdI16 d a imm s
  | .ldN16 d a imm => Sys2Proof.Machine.execLdN16 d a imm s
  | .ldI32 d a imm => Sys2Proof.Machine.execLdI32 d a imm s
  | .ldN32 d a imm => Sys2Proof.Machine.execLdN32 d a imm s
  | .ld64 d a imm => Sys2Proof.Machine.execLd64 d a imm s
  | .st8 b a imm => Sys2Proof.Machine.execSt8 b a imm s
  | .st16 b a imm => Sys2Proof.Machine.execSt16 b a imm s
  | .st32 b a imm => Sys2Proof.Machine.execSt32 b a imm s
  | .st64 b a imm => Sys2Proof.Machine.execSt64 b a imm s
  | .amoAdd w32 d a b => Sys2Proof.Machine.execAmoAdd w32 d a b s
  | .amoAnd w32 d a b => Sys2Proof.Machine.execAmoAnd w32 d a b s
  | .amoOr w32 d a b => Sys2Proof.Machine.execAmoOr w32 d a b s
  | .amoXor w32 d a b => Sys2Proof.Machine.execAmoXor w32 d a b s
  | .amoMin w32 d a b => Sys2Proof.Machine.execAmoMin w32 d a b s
  | .amoMax w32 d a b => Sys2Proof.Machine.execAmoMax w32 d a b s
  | .amoMinn w32 d a b => Sys2Proof.Machine.execAmoMinn w32 d a b s
  | .amoMaxn w32 d a b => Sys2Proof.Machine.execAmoMaxn w32 d a b s
  | .amoSwap w32 d a b => Sys2Proof.Machine.execAmoSwap w32 d a b s
  | .amoCas w32 d a b => Sys2Proof.Machine.execAmoCas w32 d a b s
  | .amoFadd d a b => Sys2Proof.Machine.execAmoFadd d a b s
  | .amoFmax d a b => Sys2Proof.Machine.execAmoFmax d a b s
  | .amoFmin d a b => Sys2Proof.Machine.execAmoFmin d a b s
  | .ldAcq sc w x a imm => Sys2Proof.Machine.execLdAcq sc w x a imm s
  | .stRel sc w x a imm => Sys2Proof.Machine.execStRel sc w x a imm s
  | .fenceAcq sc => Sys2Proof.Machine.execFenceAcq sc s
  | .fenceRel sc => Sys2Proof.Machine.execFenceRel sc s
  | .fenceFull sc => Sys2Proof.Machine.execFenceFull sc s
  | .fenceSv => Sys2Proof.Machine.execFenceSv s
  | .fenceVs => Sys2Proof.Machine.execFenceVs s
  | .ctlRd d ctl => Sys2Proof.Machine.execCtlRd d ctl s
  | .ctlWr d a ctl => Sys2Proof.Machine.execCtlWr d a ctl s
  | .ctlSet d a ctl => Sys2Proof.Machine.execCtlSet d a ctl s
  | .ctlClr d a ctl => Sys2Proof.Machine.execCtlClr d a ctl s
  | .handlerReturn op d a => Sys2Proof.Machine.execHandlerReturn op d a s
  | .trap a => Sys2Proof.Machine.execTrap a s
  | .ebreak => Sys2Proof.Machine.execEbreak s
  | .featq d a => Sys2Proof.Machine.execFeatq d a s
  | .wbase ws v => Sys2Proof.Machine.execWbase ws v s
  | .heartbeat => Sys2Proof.Machine.execHeartbeat s
  | .yield => Sys2Proof.Machine.execYield s
  | .vexit => Sys2Proof.Machine.execVexit s
  | .eret => Sys2Proof.Machine.execEret s
  | .cyc d => Sys2Proof.Machine.execCyc d s
  | .ctxid d => Sys2Proof.Machine.execCtxid d s
  | .vcfgi d a imm => Sys2Proof.Machine.execVcfgi d a imm s
  | .vcfg d a b => Sys2Proof.Machine.execVcfg d a b s
  | .mmode d a => Sys2Proof.Machine.execMmode d a s
  | .mexit => Sys2Proof.Machine.execMexit s
  | .tshape d a => Sys2Proof.Machine.execTshape d a s
  | .vloop p imm a => Sys2Proof.Machine.execVloop p imm a s
  | .vloopw p imm a => Sys2Proof.Machine.execVloopw p imm a s
  | .vadd pg k d a b => Sys2Proof.Machine.execVadd pg k d a b s
  | .vsub pg k d a b => Sys2Proof.Machine.execVsub pg k d a b s
  | .vrsub pg k d a b => Sys2Proof.Machine.execVrsub pg k d a b s
  | .vmul pg k d a b => Sys2Proof.Machine.execVmul pg k d a b s
  | .vmin pg k d a b => Sys2Proof.Machine.execVmin pg k d a b s
  | .vmax pg k d a b => Sys2Proof.Machine.execVmax pg k d a b s
  | .vmulh pg k d a b => Sys2Proof.Machine.execVmulh pg k d a b s
  | .vdiv pg k d a b => Sys2Proof.Machine.execVdiv pg k d a b s
  | .vand pg k d a b => Sys2Proof.Machine.execVand pg k d a b s
  | .vor pg k d a b => Sys2Proof.Machine.execVor pg k d a b s
  | .vxor pg k d a b => Sys2Proof.Machine.execVxor pg k d a b s
  | .vshl pg k d a b => Sys2Proof.Machine.execVshl pg k d a b s
  | .vshr pg k d a b => Sys2Proof.Machine.execVshr pg k d a b s
  | .vsar pg k d a b => Sys2Proof.Machine.execVsar pg k d a b s
  | .vmacc pg k d a b => Sys2Proof.Machine.execVmacc pg k d a b s
  | .vnmsac pg k d a b => Sys2Proof.Machine.execVnmsac pg k d a b s
  | .vwmacc pg k d a b => Sys2Proof.Machine.execVwmacc pg k d a b s
  | .vwadd pg k d a b => Sys2Proof.Machine.execVwadd pg k d a b s
  | .vwmul pg k d a b => Sys2Proof.Machine.execVwmul pg k d a b s
  | .vnclip pg k d a b => Sys2Proof.Machine.execVnclip pg k d a b s
  | .vcmpeq pg k d a b => Sys2Proof.Machine.execVcmpeq pg k d a b s
  | .vcmpne pg k d a b => Sys2Proof.Machine.execVcmpne pg k d a b s
  | .vcmplt pg k d a b => Sys2Proof.Machine.execVcmplt pg k d a b s
  | .vcmple pg k d a b => Sys2Proof.Machine.execVcmple pg k d a b s
  | .vmerge pg k d a b => Sys2Proof.Machine.execVmerge pg k d a b s
  | .vmvV pg d a => Sys2Proof.Machine.execVmvV pg d a s
  | .vmvVx pg d b => Sys2Proof.Machine.execVmvVx pg d b s
  | .vmvXv d a => Sys2Proof.Machine.execVmvXv d a s
  | .vsadd pg k d a b => Sys2Proof.Machine.execVsadd pg k d a b s
  | .vssub pg k d a b => Sys2Proof.Machine.execVssub pg k d a b s
  | .vsqrt pg d a => Sys2Proof.Machine.execVsqrt pg d a s
  | .vrsqrte pg d a => Sys2Proof.Machine.execVrsqrte pg d a s
  | .vrece pg d a => Sys2Proof.Machine.execVrece pg d a s
  | .vexp2e pg d a => Sys2Proof.Machine.execVexp2e pg d a s
  | .vredsum pg k d a b => Sys2Proof.Machine.execVredsum pg k d a b s
  | .vredmax pg k d a b => Sys2Proof.Machine.execVredmax pg k d a b s
  | .vredmin pg k d a b => Sys2Proof.Machine.execVredmin pg k d a b s
  | .vdot pg d a b => Sys2Proof.Machine.execVdot pg d a b s
  | .vxchg pg d a b => Sys2Proof.Machine.execVxchg pg d a b s
  | .vslup pg d a b => Sys2Proof.Machine.execVslup pg d a b s
  | .vsldn pg d a b => Sys2Proof.Machine.execVsldn pg d a b s
  | .vperm pg d a b => Sys2Proof.Machine.execVperm pg d a b s
  | .vcvt pg t d a => Sys2Proof.Machine.execVcvt pg t d a s
  | .vbscale pg k d a b => Sys2Proof.Machine.execVbscale pg k d a b s
  | .vrot pg d a => Sys2Proof.Machine.execVrot pg d a s
  | .vid pg k d b => Sys2Proof.Machine.execVid pg k d b s
  | .pand pg d a b => Sys2Proof.Machine.execPand pg d a b s
  | .por pg d a b => Sys2Proof.Machine.execPor pg d a b s
  | .pxor pg d a b => Sys2Proof.Machine.execPxor pg d a b s
  | .pandn pg d a b => Sys2Proof.Machine.execPandn pg d a b s
  | .psbf pg d a => Sys2Proof.Machine.execPsbf pg d a s
  | .psif pg d a => Sys2Proof.Machine.execPsif pg d a s
  | .pcnt pg d a => Sys2Proof.Machine.execPcnt pg d a s
  | .pfirst pg d a => Sys2Proof.Machine.execPfirst pg d a s
  | .vcompress d a b => Sys2Proof.Machine.execVcompress d a b s
  | .vcidx d a b => Sys2Proof.Machine.execVcidx d a b s
  | .vtop pg d a b => Sys2Proof.Machine.execVtop pg d a b s
  | .pexp d a b => Sys2Proof.Machine.execPexp d a b s
  | .vld pg d a => Sys2Proof.Machine.execVld pg d a s
  | .vldS pg d a b => Sys2Proof.Machine.execVldS pg d a b s
  | .vldFf pg d a b => Sys2Proof.Machine.execVldFf pg d a b s
  | .vldNc pg d a => Sys2Proof.Machine.execVldNc pg d a s
  | .vldSeg pg nf d a => Sys2Proof.Machine.execVldSeg pg nf d a s
  | .vldFe pg d a => Sys2Proof.Machine.execVldFe pg d a s
  | .vldFec pg d a => Sys2Proof.Machine.execVldFec pg d a s
  | .vst pg d a => Sys2Proof.Machine.execVst pg d a s
  | .vstS pg d a b => Sys2Proof.Machine.execVstS pg d a b s
  | .vstNtf pg d a b => Sys2Proof.Machine.execVstNtf pg d a b s
  | .vstNc pg d a => Sys2Proof.Machine.execVstNc pg d a s
  | .vstSeg pg nf d a => Sys2Proof.Machine.execVstSeg pg nf d a s
  | .vstFe pg d a => Sys2Proof.Machine.execVstFe pg d a s
  | .vstMd pg tv d a => Sys2Proof.Machine.execVstMd pg tv d a s
  | .vldSc pg d a => Sys2Proof.Machine.execVldSc pg d a s
  | .vstSc pg d a => Sys2Proof.Machine.execVstSc pg d a s
  | .vldAcq pg d a => Sys2Proof.Machine.execVldAcq pg d a s
  | .vstRel pg d a => Sys2Proof.Machine.execVstRel pg d a s
  | .planMk pg d a b => Sys2Proof.Machine.execPlanMk pg d a b s
  | .planMkm pg d a b => Sys2Proof.Machine.execPlanMkm pg d a b s
  | .planInv d a => Sys2Proof.Machine.execPlanInv d a s
  | .planCmp d a b => Sys2Proof.Machine.execPlanCmp d a b s
  | .pga pg d a b => Sys2Proof.Machine.execPga pg d a b s
  | .psc pg d a b => Sys2Proof.Machine.execPsc pg d a b s
  | .pscAdd pg d a b => Sys2Proof.Machine.execPscAdd pg d a b s
  | .pscMax pg d a b => Sys2Proof.Machine.execPscMax pg d a b s
  | .planLd d a => Sys2Proof.Machine.execPlanLd d a s
  | .planSt d a => Sys2Proof.Machine.execPlanSt d a s
  | .planRel d => Sys2Proof.Machine.execPlanRel d s
  | .planQ d a b => Sys2Proof.Machine.execPlanQ d a b s
  | .tidLd d a => Sys2Proof.Machine.execTidLd d a s
  | .tidSt d a => Sys2Proof.Machine.execTidSt d a s
  | .tidSet d a b => Sys2Proof.Machine.execTidSet d a b s
  | .tidQ d a b => Sys2Proof.Machine.execTidQ d a b s
  | .mxa pg d a b => Sys2Proof.Machine.execMxa pg d a b s
  | .mxs pg d a b => Sys2Proof.Machine.execMxs pg d a b s
  | .mxw pg d a b => Sys2Proof.Machine.execMxw pg d a b s
  | .mclr pg d => Sys2Proof.Machine.execMclr pg d s
  | .mma pg d a b => Sys2Proof.Machine.execMma pg d a b s
  | .mmaG pg d a b => Sys2Proof.Machine.execMmaG pg d a b s
  | .mmav pg d a b => Sys2Proof.Machine.execMmav pg d a b s
  | .mst pg d b => Sys2Proof.Machine.execMst pg d b s
  | .mld pg d b => Sys2Proof.Machine.execMld pg d b s
  | .mrd pg d a b => Sys2Proof.Machine.execMrd pg d a b s
  | .mwr pg d a b => Sys2Proof.Machine.execMwr pg d a b s
  | .spawn d a b => Sys2Proof.Machine.execSpawn d a b s
  | .gbar id => Sys2Proof.Machine.execGbar id s
  | .tend => Sys2Proof.Machine.execTend s
  | .tyield => Sys2Proof.Machine.execTyield s
  | .copy d a => Sys2Proof.Machine.execCopy d a s
  | .copyp d a => Sys2Proof.Machine.execCopyp d a s
  | .coll d a b => Sys2Proof.Machine.execColl d a b s
  | .gate d a b => Sys2Proof.Machine.execGate d a b s
  | .cinc d a b => Sys2Proof.Machine.execCinc d a b s
  | .cwait sc a b => Sys2Proof.Machine.execCwait sc a b s
  | .cset d a b => Sys2Proof.Machine.execCset d a b s
  | .cread d a => Sys2Proof.Machine.execCread d a s
  | .pwait sc a b => Sys2Proof.Machine.execPwait sc a b s
  | .dcDiscard d a b => Sys2Proof.Machine.execDcDiscard d a b s
  | .dcFlush a b => Sys2Proof.Machine.execDcFlush a b s
  | .dcInval a b => Sys2Proof.Machine.execDcInval a b s
  | .thint cls a b => Sys2Proof.Machine.execThint cls a b s
  | .feSet a b => Sys2Proof.Machine.execFeSet a b s
  | .feClr a b => Sys2Proof.Machine.execFeClr a b s
  | .illegalWord w => Sys2Proof.Machine.execIllegalWord w s
  | .launch q whole rec => Sys2Proof.Machine.execLaunch q whole rec s
  | .enSet q => Sys2Proof.Machine.execEnSet q s
  | .enClear q => Sys2Proof.Machine.execEnClear q s
  | .preempt q => Sys2Proof.Machine.execPreempt q s
  | .registerWrite page off val => Sys2Proof.Machine.execRegisterWrite page off val s
  | .boot die c => Sys2Proof.Machine.execBoot die c s
  | .fmode die c => Sys2Proof.Machine.execFmode die c s
  | .pool die c => Sys2Proof.Machine.execPool die c s
  | .dplist die c => Sys2Proof.Machine.execDplist die c s
  | .pmset die c => Sys2Proof.Machine.execPmset die c s
  | .inval die c => Sys2Proof.Machine.execInval die c s
  | .fence die c => Sys2Proof.Machine.execFence die c s
  | .reset die c => Sys2Proof.Machine.execReset die c s
  | .keyreg die c => Sys2Proof.Machine.execKeyreg die c s
  | .load die c => Sys2Proof.Machine.execLoad die c s
  | .ckpt die c => Sys2Proof.Machine.execCkpt die c s
  | .restore die c => Sys2Proof.Machine.execRestore die c s
  | .quote die c => Sys2Proof.Machine.execQuote die c s
  | .evtailWrite die val => Sys2Proof.Machine.execEvtailWrite die val s
  | .resume die q seq => Sys2Proof.Machine.execResume die q seq s
  | .kill die q seq => Sys2Proof.Machine.execKill die q seq s
  | .cancel die q seq => Sys2Proof.Machine.execCancel die q seq s
  | .place die slot cluster mask => Sys2Proof.Machine.execPlace die slot cluster mask s
  | .postread die val => Sys2Proof.Machine.execPostread die val s
  | .postRingConfig die base val => Sys2Proof.Machine.execPostRingConfig die base val s
  | .hdone die step stepNo tiles => Sys2Proof.Machine.execHdone die step stepNo tiles s
  | .cxlMemWrite pa bytes => Sys2Proof.Machine.execCxlMemWrite pa bytes s
  | .cxlMemRead pa n => Sys2Proof.Machine.execCxlMemRead pa n s
  | .powerRail die rail up => Sys2Proof.Machine.execPowerRail die rail up s
  | .cdResetN die released => Sys2Proof.Machine.execCdResetN die released s
  | .flitReceive port flit => Sys2Proof.Machine.execFlitReceive port flit s
  | .thermalThrottle die on => Sys2Proof.Machine.execThermalThrottle die on s
  | .thermalTrip die => Sys2Proof.Machine.execThermalTrip die s
  | .uncorrectableError e => Sys2Proof.Machine.execUncorrectableError e s
  | .watchdog gang => Sys2Proof.Machine.execWatchdog gang s
  | .aging die => Sys2Proof.Machine.execAging die s
  | .lend die => Sys2Proof.Machine.execLend die s
  | .pageModeEpoch die => Sys2Proof.Machine.execPageModeEpoch die s
  | .roundAutoClose core => Sys2Proof.Machine.execRoundAutoClose core s
  | .dispatch die => Sys2Proof.Machine.execDispatch die s
  | .nodeRecordRead die => Sys2Proof.Machine.execNodeRecordRead die s
  | .descriptorBlockLoad gang => Sys2Proof.Machine.execDescriptorBlockLoad gang s
  | .gangHalt gang => Sys2Proof.Machine.execGangHalt gang s
  | .gangSave gang => Sys2Proof.Machine.execGangSave gang s
  | .contextRestore gang => Sys2Proof.Machine.execContextRestore gang s
  | .gangRetirement gang => Sys2Proof.Machine.execGangRetirement gang s
  | .taskCompletion die slot => Sys2Proof.Machine.execTaskCompletion die slot s
  | .graphCompletion graph => Sys2Proof.Machine.execGraphCompletion graph s
  | .overflowReturn q => Sys2Proof.Machine.execOverflowReturn q s
  | .engineCompletion die eng => Sys2Proof.Machine.execEngineCompletion die eng s
  | .engineFault die eng => Sys2Proof.Machine.execEngineFault die eng s
  | .gateRecordTake die step => Sys2Proof.Machine.execGateRecordTake die step s
  | .reservationRequest die => Sys2Proof.Machine.execReservationRequest die s
  | .closingCount die src => Sys2Proof.Machine.execClosingCount die src s
  | .capacityGrant die step => Sys2Proof.Machine.execCapacityGrant die step s
  | .recordPost q => Sys2Proof.Machine.execRecordPost q s
  | .loStoreArrival k => Sys2Proof.Machine.execLoStoreArrival k s
  | .writeBackArrival core line => Sys2Proof.Machine.execWriteBackArrival core line s
  | .releaseQuery core round unit => Sys2Proof.Machine.execReleaseQuery core round unit s
  | .releaseCompletion core round => Sys2Proof.Machine.execReleaseCompletion core round s
  | .pageWalk die q va acc => Sys2Proof.Machine.execPageWalk die q va acc s
  | .waitWake core slot => Sys2Proof.Machine.execWaitWake core slot s
  | .checkpointCopy => Sys2Proof.Machine.execCheckpointCopy s
  | .debugHaltStep die core slot op => Sys2Proof.Machine.execDebugHaltStep die core slot op s

end Sys2Proof.Machine
end

