-- ==== Sys2Proof/Machine/Events.lean ====
section
/-! DEFINITION. The events of the device's own units that can happen now (assumption 3, DESIGN CHOICE).  WRITE_BACK_ARRIVAL and PAGE_WALK may happen at
any time and change no value that a program reads: only the schedule in `State.inputs` performs them. -/

namespace Sys2Proof.Machine

/-- An event that a unit of the device performs of itself: each is the row of the opcode table of the same name. -/
inductive UnitEvent where
  | watchdog (gang : Nat) | aging (die : Nat) | lend (die : Nat) | pageModeEpoch (die : Nat) | roundAutoClose (core : Nat)
  | dispatch (die : Nat) | nodeRecordRead (die : Nat) | descriptorBlockLoad (gang : Nat) | gangHalt (gang : Nat)
  | gangSave (gang : Nat) | contextRestore (gang : Nat) | gangRetirement (gang : Nat) | taskCompletion (die slot : Nat)
  | graphCompletion (graph : Nat) | overflowReturn (q : Nat) | engineCompletion (die eng : Nat)
  | engineFault (die eng : Nat) | gateRecordTake (die step : Nat) | reservationRequest (die : Nat)
  | closingCount (die src : Nat) | capacityGrant (die step : Nat) | recordPost (q : Nat) | loStoreArrival (i : Nat)
  | releaseQuery (core round unit : Nat) | releaseCompletion (core round : Nat) | waitWake (core slot : Nat) | checkpointCopy
deriving DecidableEq, Repr

/-- What an event does: the meaning of its row. -/
def performEvent (e : UnitEvent) (s : State) : Out :=
  match e with
  | .watchdog g => execWatchdog g s
  | .aging d => execAging d s
  | .lend d => execLend d s
  | .pageModeEpoch d => execPageModeEpoch d s
  | .roundAutoClose c => execRoundAutoClose c s
  | .dispatch d => execDispatch d s
  | .nodeRecordRead d => execNodeRecordRead d s
  | .descriptorBlockLoad g => execDescriptorBlockLoad g s
  | .gangHalt g => execGangHalt g s
  | .gangSave g => execGangSave g s
  | .contextRestore g => execContextRestore g s
  | .gangRetirement g => execGangRetirement g s
  | .taskCompletion d k => execTaskCompletion d k s
  | .graphCompletion g => execGraphCompletion g s
  | .overflowReturn q => execOverflowReturn q s
  | .engineCompletion d e => execEngineCompletion d e s
  | .engineFault d e => execEngineFault d e s
  | .gateRecordTake d k => execGateRecordTake d k s
  | .reservationRequest d => execReservationRequest d s
  | .closingCount d k => execClosingCount d k s
  | .capacityGrant d k => execCapacityGrant d k s
  | .recordPost q => execRecordPost q s
  | .loStoreArrival i => execLoStoreArrival i s
  | .releaseQuery c r u => execReleaseQuery c r u s
  | .releaseCompletion c r => execReleaseCompletion c r s
  | .waitWake c k => execWaitWake c k s
  | .checkpointCopy => execCheckpointCopy s

/-- The event `i`, when its condition holds. -/
def eventIf (b : Bool) (i : UnitEvent) : List UnitEvent := if b then [i] else []

def allDies : List Nat := [0, 1, 2, 3]

/-! ### Events that are due (R207, R323, R351, R359) -/

/-- A node of a die is to rise a level. -/
def agingDue (s : State) (d : Nat) : Bool := s.nodes.any fun n => n.die == d && (ageNode s n).level != n.level

def epochDue (s : State) (d : Nat) : Bool := decide ((s.die d).epoch + 2 ^ 20 ≤ (s.die d).cycles)

def roundDue (k : CoreSt) : Bool := k.sent.any fun x => decide (x.2 ≥ 2 ^ 32 - 2)

def dueEvents (s : State) : List UnitEvent :=
  ((s.gangs.filter watchdogDue).map fun g => .watchdog g.id)
  ++ allDies.flatMap (fun d => eventIf (agingDue s d) (.aging d) ++ eventIf (epochDue s d) (.pageModeEpoch d))
  ++ (s.cores.filter fun x => roundDue x.2).map fun x => .roundAutoClose x.1

/-! ### Events of gangs and VLCs -/

/-- What a gang waits for the die controller to do. -/
def gangEvent (s : State) (g : Gang) : List UnitEvent :=
  match g.st with
  | .loading => [.descriptorBlockLoad g.id]
  | .resident => eventIf (g.wantSave && (freePool s g.die).isSome) (.gangHalt g.id)
  | .halting _ => [.gangHalt g.id]
  | .halted _ => eventIf (canSave s g) (.gangSave g.id)
  | .restoring _ _ => [.contextRestore g.id]
  | .releasing _ => eventIf (releasedAll s g.id) (.gangRetirement g.id)
  | .saved _ _ => []

/-- A wait whose satisfying event has reached the core. -/
def wakeEvent (v : Vlc) : List UnitEvent :=
  match v.status with
  | .satisfied _ => [.waitWake v.core v.slot]
  | _ =>
    match v.vwait with
    | .served _ => [.waitWake v.core v.slot]
    | _ => []

/-- The addressees that can report to the releases of a core, and the releases that are complete. -/
def releaseEvents (s : State) (core : Nat) (k : CoreSt) : List UnitEvent :=
  k.outs.flatMap fun r =>
    eventIf r.counts.isEmpty (.releaseCompletion core r.round.toNat)
    ++ (r.counts.filter fun x => Tab.get 0 s.arrivals (arrivalKey core r.round.toNat x.1) == x.2).map fun x =>
        .releaseQuery core r.round.toNat x.1

/-! ### Events of Landau, the engines, Hansom and the records -/

/-- Landau of a die can place a node or ask a victim to leave. -/
def dispatchDue (s : State) (d : Nat) : Bool :=
  landauUp s d && !(candidates s d).isEmpty &&
    ((pickNode s d).2 || (preemptFor s (byLevel (candidates s d))).isSome)

def lendDue (s : State) (d : Nat) : Bool :=
  landauUp s d && (candidates s d).any fun n => lendable s n && (lendPlace s n).isSome

def landauEvents (s : State) (d : Nat) : List UnitEvent :=
  eventIf (dispatchDue s d) (.dispatch d) ++ eventIf (lendDue s d) (.lend d)
  ++ eventIf (landauUp s d && (readingGraph s d).isSome) (.nodeRecordRead d)

/-- A node whose task has ended, in its slot. -/
def taskEvent (n : Node) : List UnitEvent :=
  match n.st, n.slot with
  | .done _, some k => [.taskCompletion n.die k]
  | _, _ => []

def overflowEvents (s : State) (n : Node) : List UnitEvent :=
  eventIf (n.slot == none && (freeSlot s n.die (n.idx == 0xFFFF)).isSome) (.overflowReturn n.queue)

def engineEvents (s : State) (d : Nat) : List UnitEvent :=
  (List.range 9).flatMap fun e =>
    let ops := engineOps s d e
    eventIf (firstMoved s ops).isSome (.engineCompletion d e) ++ eventIf (firstFault s ops).isSome (.engineFault d e)

/-- What a step of a die's Hansom can do. -/
def stepEvents (s : State) (st : HStep) : List UnitEvent :=
  eventIf (takeFirst st.stepNo (s.gateQ[st.die]?.getD [])).isSome (.gateRecordTake st.die st.lane)
  ++ eventIf (advanceStep s st).isSome (.capacityGrant st.die st.lane)

def recordEvents (s : State) (r : PendRec) : List UnitEvent :=
  eventIf (nextRecord s [] (s.pendRecs.filter fun x => x.queue == r.queue)).isSome (.recordPost r.queue)

/-- Every event that can happen now. -/
def enabledEvents (s : State) : List UnitEvent :=
  s.vlcs.flatMap wakeEvent
  ++ s.gangs.flatMap (gangEvent s)
  ++ s.cores.flatMap (fun x => releaseEvents s x.1 x.2)
  ++ s.nodes.flatMap taskEvent
  ++ s.nodes.flatMap (overflowEvents s)
  ++ (s.graphs.filter fun g => g.left == 0).map (fun g => .graphCompletion g.id)
  ++ allDies.flatMap (landauEvents s)
  ++ allDies.flatMap (engineEvents s)
  ++ s.reqTransit.map (fun r => .reservationRequest r.home)
  ++ s.closeTransit.map (fun x => .closingCount x.home x.src)
  ++ s.steps.flatMap (stepEvents s)
  ++ s.pendRecs.flatMap (recordEvents s)
  ++ eventIf (!s.loTransit.isEmpty) (.loStoreArrival (s.tick % s.loTransit.length))
  ++ eventIf s.ckpt.isSome .checkpointCopy

/-- The next event: one that is due first, else each that can happen in its turn. -/
def nextEvent (s : State) : Option UnitEvent :=
  match dueEvents s with
  | i :: _ => some i
  | [] =>
    let es := enabledEvents s
    es[s.tick / 2 % es.length]?

/-! ### The next move -/

/-- What the next step does. -/
inductive Move where
  /-- A scheduled event, and the state without it. -/
  | input (i : Instr) (s : State)
  /-- The turn of the VLC at the front of this state. -/
  | turn (s : State)
  | event (e : UnitEvent)
  /-- Only time passes. -/
  | idle
deriving DecidableEq, Repr

/-- The move of a VLC that can issue, if there is one. -/
def vlcMove (s : State) : Option Move := (readyVlc s).map .turn

/-- The move of a unit, if one can act. -/
def unitMove (s : State) : Option Move := (nextEvent s).map .event

/-- A member of a gang that is to be woken: the completion of its wait is a progress event, which wins over the watchdog (R360). -/
def wakeFirst (s : State) (g : Gang) : Option UnitEvent := ((s.gangVlcs g.id).flatMap wakeEvent).head?

/-- A watchdog that has run out fires first (R359), but after the waits of its gang that are satisfied (R360).  Then a scheduled event goes
first; else VLCs and the device's units take turns, by the parity of the step (assumption 3, DESIGN CHOICE). -/
def nextMove (s : State) : Move :=
  match s.gangs.find? watchdogDue with
  | some g => .event ((wakeFirst s g).getD (.watchdog g.id))
  | none =>
  match s.inputs with
  | i :: rest => .input i { s with inputs := rest }
  | [] =>
    if s.tick % 2 = 0 then ((vlcMove s).or (unitMove s)).getD .idle
    else ((unitMove s).or (vlcMove s)).getD .idle

/-! ### The end of a step -/

/-- Time passes at the end of a step, and Landau notes which ready gangs find no place (R4, R325). -/
def endStep (issued : Option Nat) (s : State) : State := trackPlaces (passTime issued s)

/-- A VLC that the debug page lets run one instruction stops again (R396). -/
def stopStepped (s : State) : State :=
  if s.vlc.stepping then
    s.modVlc fun v => { v with stepping := false, status := if v.status = .running then .debug else v.status }
  else s

end Sys2Proof.Machine
end

