-- ==== Sys2Proof/Machine/Pages.lean ====
section
/-! DEFINITION. What the host reads of BAR0 and of the error log, and which host accesses find their page open (spec/11_queues.md R315;
spec/12 R350, R351, R353 to R355; spec/14_outside.md R381, R383, R384, R387 to R391, R395, R396). -/

namespace Sys2Proof.Machine

/-! ### Queue pages and the device page (R315, R389 to R391) -/

/-- STATUS: nodes in flight, with those in the overflow region; graphs in flight; launches dropped. -/
def queueStatus (s : State) (q : Nat) : Nat :=
  (s.nodes.filter fun n => n.queue == q).length % 2 ^ 32 + (s.graphs.filter fun g => g.queue == q).length % 2 ^ 16 * 2 ^ 32
    + (s.queue q).dropped.toNat * 2 ^ 48

def readQueuePage (s : State) (q off : Nat) : Nat :=
  let p := s.queue q
  if 0x0C0 ≤ off ∧ off < 0x108 ∧ off % 8 = 0 then field p.mask.toNat (64 * ((off - 0x0C0) / 8)) 64
  else
    match off with
    | 0x040 => (if p.en then 1 else 0) + (if p.preempt then 4 else 0)
    | 0x048 => p.prio.toNat
    | 0x050 => p.cfg.toNat
    | 0x058 => p.s1root.toNat
    | 0x060 => p.s2root.toNat
    | 0x068 => p.ovfbase.toNat
    | 0x070 => p.ovfcnt.toNat
    | 0x078 => p.frbase.toNat
    | 0x080 => p.frsize.toNat
    | 0x088 => queueStatus s q
    | 0x090 => p.colltab.toNat
    | _ => 0

/-- The dword at an offset of a region of bytes, zero beyond its end. -/
def byteDword (bs : List Byte) (off : Nat) : Nat := bytesNat ((bs.drop off).take 8)

def readDevicePage (s : State) (off : Nat) : Nat :=
  if 0x100 ≤ off ∧ off < 0x200 then
    if (off - 0x100) % 0x40 < 0x20 then byteDword (natBytes (bytesNat (s.die ((off - 0x100) / 0x40)).measure) 32) ((off - 0x100) % 0x40)
    else 0
  else if 0x3C0 ≤ off ∧ off < 0x3F8 then byteDword (natBytes (bytesNat Config.identityKey) 56) (off - 0x3C0)
  else if 0x400 ≤ off ∧ off < 0x1000 then byteDword s.cert (off - 0x400)
  else 0

/-! ### Die pages (R383, R384, R392, R395, R396, R399) -/

def readDieCtl (s : State) (d off : Nat) : Nat :=
  let x := s.die d
  if 0x100 ≤ off ∧ off < 0x180 then
    let p := s.port (4 * d + (off - 0x100) / 0x20)
    if off % 0x20 = 0 then p.ibase.toNat else if off % 0x20 = 8 then p.ilimit.toNat else 0
  else
    match off with
    | 0x040 => x.cmdStatus.toNat + x.cmdTag.toNat * 2 ^ 16 + x.cmdDone.toNat * 2 ^ 32
    | 0x048 => bootStat x
    | 0x050 => x.evHead % 2 ^ 63 + (if x.evOver then 2 ^ 63 else 0)
    | 0x058 => x.evTail
    | 0x060 => x.temp.toNat
    | 0x068 => x.pwr.toNat
    | 0x070 => x.lpthr.toNat
    | 0x080 => x.loadReason
    | _ => 0

/-- DEPVAL: the dependence count of the node in the slot of DEPSEL, and whether it holds a node (R350). -/
def depVal (s : State) (d : Nat) : Nat :=
  match s.nodeAt d (s.landauOf d).depsel.toNat with
  | some n => n.deps % 2 ^ 16 + 2 ^ 16
  | none => 0

def readSched (s : State) (d off : Nat) : Nat :=
  let l := s.landauOf d
  match off with
  | 0x010 => l.postBase.toNat
  | 0x018 => l.postEntries.toNat + l.postWritten % 2 ^ 16 * 2 ^ 32
  | 0x028 => depVal s d
  | 0x030 => l.postRead.toNat
  | _ => 0

/-- HSTAT: bit s is set while step s waits for the host. -/
def readHansom (s : State) (d off : Nat) : Nat :=
  if off = 0x008 then ((s.steps.filter fun t => t.die == d && t.waitsHost).map fun t => 2 ^ t.lane).sum else 0

/-- Event record n of a die stands at entry n mod 64 of the window, while it is one of the 64 newest (R395). -/
def eventEntry (x : Die) (k : Nat) : BitVec 256 :=
  let first := x.evHead - x.ring.length
  (x.ring[(k + 64 - first % 64) % 64]?).getD 0

def readDebug (s : State) (d off : Nat) : Nat :=
  if off = 0 then (s.die d).qsel
  else if 0x800 ≤ off ∧ off < 0x1000 ∧ off % 8 = 0 then
    field (eventEntry (s.die d) ((off - 0x800) / 32)).toNat (64 * ((off - 0x800) % 32 / 8)) 64
  else 0

/-- The dword at an offset of a page: an offset that is not listed reads zero (R315, R381). -/
def readPage (s : State) (page : HostPage) (off : Nat) : Word :=
  BitVec.ofNat 64 (match page with
    | .queue q => if q < 1024 then readQueuePage s q off else 0
    | .device => readDevicePage s off
    | .dieCtl d => if d < 4 then readDieCtl s d off else 0
    | .sched d => if d < 4 then readSched s d off else 0
    | .hansom d => if d < 4 then readHansom s d off else 0
    | .debug d => if d < 4 then readDebug s d off else 0
    | .bootBuf _ => 0)

/-- The page at an offset of BAR0 (R381). -/
def barPage (off : Nat) : Option (HostPage × Nat) :=
  let d := off / 0x1000000 - 1
  let r := off % 0x1000000
  if off < 0x400000 then some (.queue (off / 0x1000), off % 0x1000)
  else if off < 0x401000 then some (.device, off % 0x1000)
  else if off < 0x1000000 ∨ off ≥ 0x5000000 then none
  else if r < 0x1000 then some (.dieCtl d, r)
  else if r < 0x2000 then some (.sched d, r - 0x1000)
  else if r < 0x3000 then some (.hansom d, r - 0x2000)
  else if r < 0x4000 then some (.debug d, r - 0x3000)
  else if 0x800000 ≤ r then some (.bootBuf d, r - 0x800000)
  else none

/-- What the host reads at an offset of BAR0. -/
def readBar (s : State) (off : Nat) : Word :=
  match barPage off with
  | some (p, o) => readPage s p o
  | none => 0

/-! ### What the debug page shows besides (R396)

R396 names what ivdb reads and gives no offsets (assumption 72, DESIGN CHOICE): each is a function here. -/

/-- The VLCs of the queue of QSEL on a die. -/
def debugVlcs (s : State) (d : Nat) : List Vlc :=
  s.vlcs.filter fun v => v.status != .absent && coreDie v.core == d && (s.gangOf v.gang).queue == (s.die d).qsel

/-- An arrival counter: a source core, its round and the addressee (R351). -/
def debugArrivals (s : State) (core round unit : Nat) : Nat := Tab.get 0 s.arrivals (arrivalKey core round unit)

/-- The number of a core's release round (R351). -/
def debugRound (s : State) (core : Nat) : BitVec 8 := (s.core core).round

/-- LO arrivals of the queue of QSEL on a die, and its discards in the die's crossbar, seam, coupling and home write queues (R353,
R422). -/
def debugLo (s : State) (d : Nat) : Nat × List Nat :=
  let p := s.perfOf d (s.die d).qsel
  (p.loarr, [p.dropXbar, p.dropSeam, p.dropCoupling, p.dropHome])

/-- The page-mode counters of a page (R354). -/
def pageCounts (s : State) (page : Nat) : Nat × Nat :=
  let m := Tab.get PageMode.reset s.modes page
  (m.rr, m.rw)

/-! ### Open pages (R387) -/

/-- Step 3 of bring-up has opened the pages of a die. -/
def dieOpen (s : State) (d : Nat) : Bool := decide ((s.die d).phase ≥ 3) || decide (4 ≤ d)

/-- A module has trained through which the host can reach the device. -/
def hostOpen (s : State) : Bool := (List.range 4).any (dieOpen s)

/-- Whether a host access finds its page open.  A page of a die opens with it, and the queue pages, the device page and device memory
with the first die (R387; assumption 40, DESIGN CHOICE). -/
def hostReaches (s : State) : Instr → Bool
  | .registerWrite page _ _ =>
    match page with
    | .queue _ => hostOpen s
    | .device => hostOpen s
    | .dieCtl d => dieOpen s d
    | .sched d => dieOpen s d
    | .hansom d => dieOpen s d
    | .debug d => dieOpen s d
    | .bootBuf d => dieOpen s d
  | .launch .. | .enSet .. | .enClear .. | .preempt .. | .cxlMemWrite .. | .cxlMemRead .. => hostOpen s
  | .boot d _ | .fmode d _ | .pool d _ | .dplist d _ | .pmset d _ | .inval d _ | .fence d _ | .reset d _ | .keyreg d _
  | .load d _ | .ckpt d _ | .restore d _ | .quote d _ => dieOpen s d
  | .evtailWrite d _ | .resume d _ _ | .kill d _ _ | .cancel d _ _ | .place d _ _ _ | .postread d _ | .postRingConfig d _ _
  | .hdone d _ _ _ | .debugHaltStep d _ _ _ => dieOpen s d
  | _ => true

end Sys2Proof.Machine
end

