-- ==== Sys2Proof/Machine/Step.lean ====
section
/-! DEFINITION. One step of the device, and the placing of one instruction where the next step fetches it
(assumption 2, DESIGN CHOICE, and assumption 3, DESIGN CHOICE). -/

namespace Sys2Proof.Machine

/-- The turn of the VLC at the front: an instruction of the scalar unit, or a move of its vector half; strips that have ended with it leave
their values, and the next VLC takes the front. -/
def vlcStep (s : State) : Host.Outcome State Fault Refusal :=
  match turnOf s with
  | .done t moved => .next (rotate (endStep (if moved then some t.vlc.core else none) t.settle))
  | .stuck t => .next (rotate (endStep none t.settle))
  | .run i t moved =>
    match exec i t with
    | .next u =>
      .next (rotate (endStep (if issuedBy i t u || moved then some t.vlc.core else none)
        (if issuedBy i t u then stopStepped u else u).settle))
    | .fault f => .fault f
    | .refused r => .refused r

/-- A scheduled event of the outside world or of a unit; a host access whose page is not open is lost (R387). -/
def inputStep (i : Instr) (s : State) : Host.Outcome State Fault Refusal :=
  match (if hostReaches s i then exec i s else .next s) with
  | .next u => .next (endStep none u)
  | .fault f => .fault f
  | .refused r => .refused r

/-- An event that a unit of the device performs of itself. -/
def eventStep (e : UnitEvent) (s : State) : Host.Outcome State Fault Refusal :=
  match performEvent e s with
  | .next u => .next (endStep none u)
  | .fault f => .fault f
  | .refused r => .refused r

/-- One step: the next move of the device. -/
def step (s : State) : Host.Outcome State Fault Refusal :=
  match nextMove s with
  | .input i t => inputStep i t
  | .turn t => vlcStep t
  | .event e => eventStep e s
  | .idle => .next (endStep none s)

/-- The page that holds the placed instruction, and the translation that a fetch from it finds. -/
def State.fetchEntry (s : State) (q : Nat) (core : Nat) : TlbEntry :=
  let p := s.queue q
  ⟨coreDie core, p.tenant, p.s1root, p.s2root, 0, 0, 0, ⟨0, 0, 1, false, false, true⟩, ⟨0, 0, 1, false, false, true⟩⟩

/-- The state in which the very next step fetches and runs the instruction: its bytes lie at virtual and physical address
0, the VLC at the front runs there in a resident gang, and nothing else is due (assumption 2, DESIGN CHOICE). -/
def State.withFetchWord (s : State) (nbits w : Nat) : State :=
  let q := s.gang.queue
  let gangs := match s.findGang s.vlc.gang with
    | some _ => (s.modGang s.vlc.gang fun g => { g with st := .resident, members := max 1 g.members }).gangs
    | none => { Gang.blank with id := s.vlc.gang, cores := [s.vlc.core], lsBase := [0], members := 1 } :: s.gangs
  { s with
    vlc := { s.vlc with status := .running, pc := 0, vq := [], sched := [], pendFault := none, yielded := false, vwait := .no }
    gangs := gangs.map fun g => if watchdogDue g then { g with wdog := 0 } else g
    tlb := s.fetchEntry q s.vlc.core :: s.tlb
    fenced := []
    cores := (s.modCore s.vlc.core fun c => { c with tlb := c.tlb.filter fun e => e.vpage != 0 }).cores
    poison := s.poison.filter fun x => x != 0
    mem := memWrite s.mem 0 4 (w % 2 ^ min nbits 32)
    inputs := []
    tick := 2 * s.tick }

end Sys2Proof.Machine
end

