-- ==== Sys2Proof/Laws/Encoding.lean ====
section
/-! SUPPORT. Cutting a word at the shared bit positions and joining it again, and the decoding of each encoded format whose
fields are split (spec/02 R49). -/

namespace Sys2Proof.Laws.Word

/-- The parts of a packed word are the parts. -/
theorem unpack_pack (p : Parts) : Parts.unpack p.pack = p := by
  obtain ⟨op, f, b, a, d⟩ := p
  simp only [Parts.unpack, Parts.pack, Parts.mk.injEq]
  refine ⟨?_, ?_, ?_, ?_, ?_⟩ <;>
  · apply BitVec.eq_of_getLsbD_eq
    intro i hi
    simp only [BitVec.getLsbD_extractLsb', BitVec.getLsbD_append]
    grind

/-- Packing the parts of a word gives the word. -/
theorem pack_unpack (w : BitVec 32) : (Parts.unpack w).pack = w := by
  apply BitVec.eq_of_getLsbD_eq
  intro i hi
  simp only [Parts.unpack, Parts.pack, BitVec.getLsbD_extractLsb', BitVec.getLsbD_append]
  grind

theorem decode_pack (p : Parts) : decode p.pack = decodeParts p := by rw [decode, unpack_pack]

theorem of_parts {i : Instr} {p : Parts} (h : encodeParts i = some p) (hd : decodeParts p = .ok i) :
    decode (encode i) = .ok i := by
  unfold encode
  rw [h]
  exact (decode_pack p).trans hd

/-! ### Fields in pieces -/

theorem join12 (x : BitVec 12) : x.extractLsb' 7 5 ++ x.extractLsb' 0 7 = x := by
  apply BitVec.eq_of_getLsbD_eq
  intro i hi
  simp only [BitVec.getLsbD_extractLsb', BitVec.getLsbD_append]
  grind

theorem join9 (x : BitVec 9) : x.extractLsb' 7 2 ++ x.extractLsb' 0 7 = x := by
  apply BitVec.eq_of_getLsbD_eq
  intro i hi
  simp only [BitVec.getLsbD_extractLsb', BitVec.getLsbD_append]
  grind

theorem join10 (x : BitVec 10) : x.extractLsb' 7 3 ++ x.extractLsb' 0 7 = x := by
  apply BitVec.eq_of_getLsbD_eq
  intro i hi
  simp only [BitVec.getLsbD_extractLsb', BitVec.getLsbD_append]
  grind

theorem join16 (x : BitVec 16) : x.extractLsb' 14 2 ++ x.extractLsb' 7 7 ++ x.extractLsb' 0 7 = x := by
  apply BitVec.eq_of_getLsbD_eq
  intro i hi
  simp only [BitVec.getLsbD_extractLsb', BitVec.getLsbD_append]
  grind

theorem join19 (x : BitVec 19) : x.extractLsb' 14 5 ++ x.extractLsb' 7 7 ++ x.extractLsb' 0 7 = x := by
  apply BitVec.eq_of_getLsbD_eq
  intro i hi
  simp only [BitVec.getLsbD_extractLsb', BitVec.getLsbD_append]
  grind

theorem join26 (x : BitVec 26) :
    x.extractLsb' 21 5 ++ x.extractLsb' 14 7 ++ x.extractLsb' 7 7 ++ x.extractLsb' 0 7 = x := by
  apply BitVec.eq_of_getLsbD_eq
  intro i hi
  simp only [BitVec.getLsbD_extractLsb', BitVec.getLsbD_append]
  grind

theorem two_bits : ∀ x : BitVec 2, x = 0 ∨ x = 1 ∨ x = 2 ∨ x = 3 := by decide

theorem high3_2 (w : Nat) (hw : w < 8) (x : BitVec 2) : (BitVec.ofNat 3 w ++ x).toNat / 4 = w ∧
    (BitVec.ofNat 3 w ++ x).extractLsb' 0 2 = x :=
  (by decide : ∀ (w : Fin 8) (x : BitVec 2), (BitVec.ofNat 3 w.val ++ x).toNat / 4 = w.val ∧
    (BitVec.ofNat 3 w.val ++ x).extractLsb' 0 2 = x) ⟨w, hw⟩ x

theorem high2_3 (w : Nat) (hw : w < 4) (x : BitVec 3) : (BitVec.ofNat 2 w ++ x).toNat / 8 = w ∧
    (BitVec.ofNat 2 w ++ x).extractLsb' 0 3 = x :=
  (by decide : ∀ (w : Fin 4) (x : BitVec 3), (BitVec.ofNat 2 w.val ++ x).toNat / 8 = w.val ∧
    (BitVec.ofNat 2 w.val ++ x).extractLsb' 0 3 = x) ⟨w, hw⟩ x

/-! ### Vector formats -/

theorem vector_bits (fn : Nat) (hf : fn < 4) (pg : BitVec 2) (k : Bool) :
    (pg ++ BitVec.ofNat 3 (4 * k.toNat + fn)).extractLsb' 3 2 = pg ∧ bitOf (pg ++ BitVec.ofNat 3 (4 * k.toNat + fn)).toNat 2 = k ∧
    (pg ++ BitVec.ofNat 3 (4 * k.toNat + fn)).toNat % 4 = fn :=
  (by decide : ∀ (fn : Fin 4) (pg : BitVec 2) (k : Bool),
    (pg ++ BitVec.ofNat 3 (4 * k.toNat + fn.val)).extractLsb' 3 2 = pg ∧
    bitOf (pg ++ BitVec.ofNat 3 (4 * k.toNat + fn.val)).toNat 2 = k ∧
    (pg ++ BitVec.ofNat 3 (4 * k.toNat + fn.val)).toNat % 4 = fn.val) ⟨fn, hf⟩ pg k

theorem arith_eq (op fn : Nat) (pg : BitVec 2) (k : Bool) (d a b : Fld) (hf : fn < 4) (ho : 0x1C ≤ op ∧ op ≤ 0x22) :
    decodeParts (encV op fn pg k d a b) = decodeVArith op fn pg k b a d := by
  have h := vector_bits fn hf pg k
  have h1 : (BitVec.ofNat 6 op).toNat = op := by simp; omega
  unfold decodeParts
  simp only [encV, h.1, h.2.1, h.2.2, h1]
  obtain ⟨o1, o2⟩ := ho
  interval_cases op <;> rfl

theorem misc_eq (op fn : Nat) (pg : BitVec 2) (k : Bool) (d a b : Fld) (hf : fn < 4) (ho : 0x23 ≤ op ∧ op ≤ 0x26) :
    decodeParts (encV op fn pg k d a b) = decodeVMisc op fn pg k b a d := by
  have h := vector_bits fn hf pg k
  have h1 : (BitVec.ofNat 6 op).toNat = op := by simp; omega
  unfold decodeParts
  simp only [encV, h.1, h.2.1, h.2.2, h1]
  obtain ⟨o1, o2⟩ := ho
  interval_cases op <;> rfl

theorem zero_eq (op fn : Nat) (pg : BitVec 2) (d a b : Fld) (hf : fn < 4)
    (ho : 0x27 ≤ op ∧ op ≤ 0x29 ∨ 0x2D ≤ op ∧ op ≤ 0x33) :
    decodeParts (encV op fn pg false d a b) = decodeVZero op fn pg b a d := by
  have h := vector_bits fn hf pg false
  have h1 : (BitVec.ofNat 6 op).toNat = op := by simp; omega
  unfold decodeParts
  simp only [encV, h.1, h.2.1, h.2.2, h1]
  obtain ⟨o1, o2⟩ | ⟨o1, o2⟩ := ho <;> interval_cases op <;> rfl

theorem memory_bits (m : Nat) (hm : m < 8) (pg : BitVec 2) :
    (pg ++ BitVec.ofNat 3 m).extractLsb' 3 2 = pg ∧ (pg ++ BitVec.ofNat 3 m).toNat % 8 = m :=
  (by decide : ∀ (m : Fin 8) (pg : BitVec 2),
    (pg ++ BitVec.ofNat 3 m.val).extractLsb' 3 2 = pg ∧ (pg ++ BitVec.ofNat 3 m.val).toNat % 8 = m.val) ⟨m, hm⟩ pg

theorem memory_eq (op m : Nat) (pg : BitVec 2) (d a b : Fld) (hm : m < 8) (ho : 0x2A ≤ op ∧ op ≤ 0x2C) :
    decodeParts (encM op m pg d a b) = decodeVMem op m pg b a d := by
  have h := memory_bits m hm pg
  have h1 : (BitVec.ofNat 6 op).toNat = op := by simp; omega
  unfold decodeParts
  simp only [encM, h.1, h.2, h1]
  obtain ⟨o1, o2⟩ := ho
  interval_cases op <;> rfl

/-! ### Formats -/

theorem jal_ok (imm : BitVec 26) :
    decodeParts ⟨0x0A, imm.extractLsb' 21 5, imm.extractLsb' 14 7, imm.extractLsb' 7 7, imm.extractLsb' 0 7⟩ = .ok (.jal imm) :=
  congrArg (fun x => Except.ok (Instr.jal x)) (join26 imm)

theorem shift_zero (k : Nat) (hk : k < 3) (sh : BitVec 6) :
    (BitVec.ofNat 5 (8 * k) ++ ((0 : BitVec 1) ++ sh) : BitVec 12).extractLsb' 6 4 = (0 : BitVec 4) ∧
    ((0 : BitVec 1) ++ sh).extractLsb' 0 6 = sh :=
  (by decide : ∀ (k : Fin 3) (sh : BitVec 6),
    (BitVec.ofNat 5 (8 * k.val) ++ ((0 : BitVec 1) ++ sh) : BitVec 12).extractLsb' 6 4 = (0 : BitVec 4) ∧
    ((0 : BitVec 1) ++ sh).extractLsb' 0 6 = sh) ⟨k, hk⟩ sh

theorem shli_ok (d a : Fld) (sh : BitVec 6) : decodeParts (encSh 0 d a sh) = .ok (.shli d a sh) := by
  have h := shift_zero 0 (by decide) sh
  have e : decodeParts (encSh 0 d a sh) = .ok (.shli d a (((0 : BitVec 1) ++ sh).extractLsb' 0 6)) := by
    simp only [decodeParts, encSh, decodeShiftImm, h.1]
    rfl
  rw [e, h.2]

theorem shri_ok (d a : Fld) (sh : BitVec 6) : decodeParts (encSh 1 d a sh) = .ok (.shri d a sh) := by
  have h := shift_zero 1 (by decide) sh
  have e : decodeParts (encSh 1 d a sh) = .ok (.shri d a (((0 : BitVec 1) ++ sh).extractLsb' 0 6)) := by
    simp only [decodeParts, encSh, decodeShiftImm, h.1]
    rfl
  rw [e, h.2]

theorem sari_ok (d a : Fld) (sh : BitVec 6) : decodeParts (encSh 2 d a sh) = .ok (.sari d a sh) := by
  have h := shift_zero 2 (by decide) sh
  have e : decodeParts (encSh 2 d a sh) = .ok (.sari d a (((0 : BitVec 1) ++ sh).extractLsb' 0 6)) := by
    simp only [decodeParts, encSh, decodeShiftImm, h.1]
    rfl
  rw [e, h.2]

/-- The load of a width code. -/
def loadOf (w : Nat) (d a : Fld) (imm : BitVec 9) : Instr :=
  match w with
  | 0 => .ldI8 d a imm | 1 => .ldN8 d a imm | 2 => .ldI16 d a imm | 3 => .ldN16 d a imm | 4 => .ldI32 d a imm
  | 5 => .ldN32 d a imm | _ => .ld64 d a imm

theorem load_ok (w : Nat) (d a : Fld) (imm : BitVec 9) (hw : w < 7) : decodeParts (encL w d a imm) = .ok (loadOf w d a imm) := by
  have h := high3_2 w (by omega) (imm.extractLsb' 7 2)
  show decodeLoad (BitVec.ofNat 3 w ++ imm.extractLsb' 7 2) (imm.extractLsb' 0 7) a d = _
  unfold decodeLoad
  simp only [h.1, h.2, join9]
  match w, hw with
  | 0, _ => rfl
  | 1, _ => rfl
  | 2, _ => rfl
  | 3, _ => rfl
  | 4, _ => rfl
  | 5, _ => rfl
  | 6, _ => rfl

/-- The store of a width code. -/
def storeOf (w : Nat) (b a : Fld) (imm : BitVec 10) : Instr :=
  match w with
  | 0 => .st8 b a imm | 1 => .st16 b a imm | 2 => .st32 b a imm | _ => .st64 b a imm

theorem store_ok (w : Nat) (b a : Fld) (imm : BitVec 10) (hw : w < 4) : decodeParts (encS w b a imm) = .ok (storeOf w b a imm) := by
  have h := high2_3 w hw (imm.extractLsb' 7 3)
  show decodeStore (BitVec.ofNat 2 w ++ imm.extractLsb' 7 3) b a (imm.extractLsb' 0 7) = _
  unfold decodeStore
  simp only [h.1, h.2, join10]
  match w, hw with
  | 0, _ => rfl
  | 1, _ => rfl
  | 2, _ => rfl
  | 3, _ => rfl

theorem ctlRd_ok (d : Fld) (ctl : BitVec 10) : decodeParts (encC 0 d 0 ctl) = .ok (.ctlRd d ctl) := by
  have h := high2_3 0 (by decide) (ctl.extractLsb' 7 3)
  show decodeCtl (BitVec.ofNat 2 0 ++ ctl.extractLsb' 7 3) (ctl.extractLsb' 0 7) 0 d = _
  unfold decodeCtl
  simp only [h.1, h.2, join10]
  rfl

theorem ctl_ne {ctl : BitVec 10} (h : (ctl != ctlHandler) = true) : ctl ≠ ctlHandler := by simpa using h

theorem ctlWr_ok (d a : Fld) (ctl : BitVec 10) (hw : (Instr.ctlWr d a ctl).wf = true) :
    decodeParts (encC 1 d a ctl) = .ok (.ctlWr d a ctl) := by
  have h := high2_3 1 (by decide) (ctl.extractLsb' 7 3)
  show decodeCtl (BitVec.ofNat 2 1 ++ ctl.extractLsb' 7 3) (ctl.extractLsb' 0 7) a d = _
  unfold decodeCtl
  simp only [h.1, h.2, join10]
  exact congrArg Except.ok (if_neg (ctl_ne hw))

theorem ctlSet_ok (d a : Fld) (ctl : BitVec 10) (hw : (Instr.ctlSet d a ctl).wf = true) :
    decodeParts (encC 2 d a ctl) = .ok (.ctlSet d a ctl) := by
  have h := high2_3 2 (by decide) (ctl.extractLsb' 7 3)
  show decodeCtl (BitVec.ofNat 2 2 ++ ctl.extractLsb' 7 3) (ctl.extractLsb' 0 7) a d = _
  unfold decodeCtl
  simp only [h.1, h.2, join10]
  exact congrArg Except.ok (if_neg (ctl_ne hw))

theorem ctlClr_ok (d a : Fld) (ctl : BitVec 10) (hw : (Instr.ctlClr d a ctl).wf = true) :
    decodeParts (encC 3 d a ctl) = .ok (.ctlClr d a ctl) := by
  have h := high2_3 3 (by decide) (ctl.extractLsb' 7 3)
  show decodeCtl (BitVec.ofNat 2 3 ++ ctl.extractLsb' 7 3) (ctl.extractLsb' 0 7) a d = _
  unfold decodeCtl
  simp only [h.1, h.2, join10]
  exact congrArg Except.ok (if_neg (ctl_ne hw))

/-- The writing form of a `ctl` function code. -/
def ctlOpOf (k : Nat) : CtlOp :=
  match k with
  | 1 => .wr | 2 => .set | _ => .clr

theorem handler_ok (k : Nat) (d a : Fld) (hk : 1 ≤ k ∧ k ≤ 3) :
    decodeParts (encC k d a ctlHandler) = .ok (.handlerReturn (ctlOpOf k) d a) := by
  have h := high2_3 k (by omega) (ctlHandler.extractLsb' 7 3)
  show decodeCtl (BitVec.ofNat 2 k ++ ctlHandler.extractLsb' 7 3) (ctlHandler.extractLsb' 0 7) a d = _
  unfold decodeCtl
  simp only [h.1, h.2, join10]
  match k, hk with
  | 1, _ => rfl
  | 2, _ => rfl
  | 3, _ => rfl

theorem loop_bits (f : Nat) (hf : f < 2) (p : Bool) (x : BitVec 2) :
    bitOf (BitVec.ofNat 3 (4 * p.toNat + f) ++ x).toNat 4 = p ∧
    (BitVec.ofNat 3 (4 * p.toNat + f) ++ x).toNat / 4 % 4 = f ∧
    (BitVec.ofNat 3 (4 * p.toNat + f) ++ x).extractLsb' 0 2 = x :=
  (by decide : ∀ (f : Fin 2) (p : Bool) (x : BitVec 2),
    bitOf (BitVec.ofNat 3 (4 * p.toNat + f.val) ++ x).toNat 4 = p ∧
    (BitVec.ofNat 3 (4 * p.toNat + f.val) ++ x).toNat / 4 % 4 = f.val ∧
    (BitVec.ofNat 3 (4 * p.toNat + f.val) ++ x).extractLsb' 0 2 = x) ⟨f, hf⟩ p x

theorem vloop_ok (p : Bool) (imm : BitVec 16) (a : Fld) (hw : (Instr.vloop p imm a).wf = true) :
    decodeParts (encP 0 p imm a) = .ok (.vloop p imm a) := by
  have h := loop_bits 0 (by decide) p (imm.extractLsb' 14 2)
  have hi : imm ≠ 0 := by simpa [Instr.wf] using hw
  show decodeLoop (BitVec.ofNat 3 (4 * p.toNat + 0) ++ imm.extractLsb' 14 2) (imm.extractLsb' 7 7) (imm.extractLsb' 0 7) a = _
  unfold decodeLoop
  simp only [h.1, h.2.1, h.2.2, join16]
  exact if_neg hi

theorem vloopw_ok (p : Bool) (imm : BitVec 16) (a : Fld) (hw : (Instr.vloopw p imm a).wf = true) :
    decodeParts (encP 1 p imm a) = .ok (.vloopw p imm a) := by
  have h := loop_bits 1 (by decide) p (imm.extractLsb' 14 2)
  have hi : imm ≠ 0 := by simpa [Instr.wf] using hw
  show decodeLoop (BitVec.ofNat 3 (4 * p.toNat + 1) ++ imm.extractLsb' 14 2) (imm.extractLsb' 7 7) (imm.extractLsb' 0 7) a = _
  unfold decodeLoop
  simp only [h.1, h.2.1, h.2.2, join16]
  exact if_neg hi

theorem flimm_bits : ∀ (k : Fin 3) (x : BitVec 2),
    bitOf (BitVec.ofNat 3 (2 * k.val) ++ x).toNat 2 = false ∧
    (BitVec.ofNat 3 (2 * k.val) ++ x).toNat / 8 = k.val ∧
    (BitVec.ofNat 3 (2 * k.val) ++ x).extractLsb' 0 2 = x := by decide

def flimmCode : FlimmKind → Fin 3
  | .fp16 => 0 | .bf16 => 1 | .i16 => 2

theorem flimm_ok (kind : FlimmKind) (d : Fld) (imm : BitVec 16) :
    decodeParts (encFl (flimmCode kind).val d imm) = .ok (.flimm kind d imm) := by
  have h := flimm_bits (flimmCode kind) (imm.extractLsb' 14 2)
  show decodeFlimm (BitVec.ofNat 3 (2 * (flimmCode kind).val) ++ imm.extractLsb' 14 2) (imm.extractLsb' 7 7)
    (imm.extractLsb' 0 7) d = _
  unfold decodeFlimm
  simp only [h.1, h.2.1, h.2.2, join16]
  cases kind <;> rfl

theorem q_bits (w : Nat) (hw : w < 2) (x : BitVec 6) :
    (BitVec.ofNat 1 w ++ x).toNat / 64 = w ∧ (BitVec.ofNat 1 w ++ x).extractLsb' 0 6 = x :=
  (by decide : ∀ (w : Fin 2) (x : BitVec 6),
    (BitVec.ofNat 1 w.val ++ x).toNat / 64 = w.val ∧ (BitVec.ofNat 1 w.val ++ x).extractLsb' 0 6 = x) ⟨w, hw⟩ x

theorem scope_bits (k : Bool) (sc : Scope) (w : QWidth) :
    scopeOf ((BitVec.ofNat 5 (16 * k.toNat + 2 * scopeCode sc + qwidthCode w / 2)).toNat / 2 % 8) = some sc ∧
    bitOf (BitVec.ofNat 5 (16 * k.toNat + 2 * scopeCode sc + qwidthCode w / 2)).toNat 4 = k ∧
    qwidthOf ((BitVec.ofNat 5 (16 * k.toNat + 2 * scopeCode sc + qwidthCode w / 2)).toNat % 2 * 2 + qwidthCode w % 2) = w := by
  cases k <;> cases sc <;> cases w <;> decide

theorem ldAcq_ok (sc : Scope) (w : QWidth) (x a : Fld) (imm : BitVec 6) :
    decodeParts (encQ false sc w x a imm) = .ok (.ldAcq sc w x a imm) := by
  have h := q_bits (qwidthCode w % 2) (by omega) imm
  have g := scope_bits false sc w
  show decodeQ (BitVec.ofNat 5 (16 * false.toNat + 2 * scopeCode sc + qwidthCode w / 2))
    (BitVec.ofNat 1 (qwidthCode w % 2) ++ imm) a x = _
  unfold decodeQ
  rw [g.1]
  simp only [h.1, h.2, g.2.1, g.2.2]
  rfl

theorem stRel_ok (sc : Scope) (w : QWidth) (x a : Fld) (imm : BitVec 6) :
    decodeParts (encQ true sc w x a imm) = .ok (.stRel sc w x a imm) := by
  have h := q_bits (qwidthCode w % 2) (by omega) imm
  have g := scope_bits true sc w
  show decodeQ (BitVec.ofNat 5 (16 * true.toNat + 2 * scopeCode sc + qwidthCode w / 2))
    (BitVec.ofNat 1 (qwidthCode w % 2) ++ imm) a x = _
  unfold decodeQ
  rw [g.1]
  simp only [h.1, h.2, g.2.1, g.2.2]
  rfl

theorem cvt_ok (t : CvtTarget) (h : t.wf = true) : cvtOf (cvtCode t) = some t := by
  cases t with
  | fp c sat => cases c <;> cases sat <;> first | rfl | exact absurd h Bool.false_ne_true
  | int u e sat => cases u <;> cases e <;> cases sat <;> rfl

theorem vcvt_ok (pg : BitVec 2) (t : CvtTarget) (d a : Fld) (hw : (Instr.vcvt pg t d a).wf = true) :
    decodeParts (encV 0x26 0 pg false d a (cvtCode t)) = .ok (.vcvt pg t d a) := by
  rw [misc_eq 0x26 0 pg false d a (cvtCode t) (by decide) (by decide)]
  simp only [decodeVMisc, cvt_ok t hw]
  rfl

theorem vid_ok (pg : BitVec 2) (k : Bool) (d b : Fld) (hw : (Instr.vid pg k d b).wf = true) :
    decodeParts (encV 0x26 3 pg k d 0 b) = .ok (.vid pg k d b) := by
  rw [misc_eq 0x26 3 pg k d 0 b (by decide) (by decide)]
  cases k with
  | true => rfl
  | false =>
    have hb : b = 0 := by simpa [Instr.wf] using hw
    subst hb
    rfl

theorem seg_bits (nf : BitVec 3) : (segCode nf).toNat % 16 = 0 ∧ (segCode nf).extractLsb' 4 3 = nf := by
  revert nf; decide

theorem vldSeg_ok (pg : BitVec 2) (nf : BitVec 3) (d a : Fld) :
    decodeParts (encM 0x2A 4 pg d a (segCode nf)) = .ok (.vldSeg pg nf d a) := by
  have h := seg_bits nf
  rw [memory_eq 0x2A 4 pg d a (segCode nf) (by decide) (by decide)]
  simp only [decodeVMem, h.1, h.2]
  rfl

theorem vstSeg_ok (pg : BitVec 2) (nf : BitVec 3) (d a : Fld) :
    decodeParts (encM 0x2B 4 pg d a (segCode nf)) = .ok (.vstSeg pg nf d a) := by
  have h := seg_bits nf
  rw [memory_eq 0x2B 4 pg d a (segCode nf) (by decide) (by decide)]
  simp only [decodeVMem, h.1, h.2]
  rfl

end Sys2Proof.Laws.Word
end

