-- ==== Sys2Proof/Laws/PerInstr.lean ====
section
/-! SUPPORT. Decoding the encoded word of an instruction gives the instruction back (spec/02 R49 to R55): the statement and
one lemma per constructor.  A device event has no word, and nothing is said of it. -/

/-- A well-formed instruction with a word is what the decoder reads from its word. -/
def Sys2Proof.Laws.Encoding.Statement (i : Sys2Proof.Instr) : Prop :=
  i.wf = true → i.hasWord = true → Sys2Proof.decode (Sys2Proof.encode i) = .ok i

open Sys2Proof Sys2Proof.Laws.Word

theorem Sys2Proof.Laws.Encoding.add (d : Fld) (a : Fld) (b : Fld) : Sys2Proof.Laws.Encoding.Statement (.add d a b) :=
  fun _ _ => of_parts rfl rfl

theorem Sys2Proof.Laws.Encoding.sub (d : Fld) (a : Fld) (b : Fld) : Sys2Proof.Laws.Encoding.Statement (.sub d a b) :=
  fun _ _ => of_parts rfl rfl

theorem Sys2Proof.Laws.Encoding.and (d : Fld) (a : Fld) (b : Fld) : Sys2Proof.Laws.Encoding.Statement (.and d a b) :=
  fun _ _ => of_parts rfl rfl

theorem Sys2Proof.Laws.Encoding.or (d : Fld) (a : Fld) (b : Fld) : Sys2Proof.Laws.Encoding.Statement (.or d a b) :=
  fun _ _ => of_parts rfl rfl

theorem Sys2Proof.Laws.Encoding.xor (d : Fld) (a : Fld) (b : Fld) : Sys2Proof.Laws.Encoding.Statement (.xor d a b) :=
  fun _ _ => of_parts rfl rfl

theorem Sys2Proof.Laws.Encoding.shl (d : Fld) (a : Fld) (b : Fld) : Sys2Proof.Laws.Encoding.Statement (.shl d a b) :=
  fun _ _ => of_parts rfl rfl

theorem Sys2Proof.Laws.Encoding.shr (d : Fld) (a : Fld) (b : Fld) : Sys2Proof.Laws.Encoding.Statement (.shr d a b) :=
  fun _ _ => of_parts rfl rfl

theorem Sys2Proof.Laws.Encoding.sar (d : Fld) (a : Fld) (b : Fld) : Sys2Proof.Laws.Encoding.Statement (.sar d a b) :=
  fun _ _ => of_parts rfl rfl

theorem Sys2Proof.Laws.Encoding.cmplt (d : Fld) (a : Fld) (b : Fld) : Sys2Proof.Laws.Encoding.Statement (.cmplt d a b) :=
  fun _ _ => of_parts rfl rfl

theorem Sys2Proof.Laws.Encoding.cmpltn (d : Fld) (a : Fld) (b : Fld) : Sys2Proof.Laws.Encoding.Statement (.cmpltn d a b) :=
  fun _ _ => of_parts rfl rfl

theorem Sys2Proof.Laws.Encoding.mul (d : Fld) (a : Fld) (b : Fld) : Sys2Proof.Laws.Encoding.Statement (.mul d a b) :=
  fun _ _ => of_parts rfl rfl

theorem Sys2Proof.Laws.Encoding.mulh (d : Fld) (a : Fld) (b : Fld) : Sys2Proof.Laws.Encoding.Statement (.mulh d a b) :=
  fun _ _ => of_parts rfl rfl

theorem Sys2Proof.Laws.Encoding.mulhn (d : Fld) (a : Fld) (b : Fld) : Sys2Proof.Laws.Encoding.Statement (.mulhn d a b) :=
  fun _ _ => of_parts rfl rfl

theorem Sys2Proof.Laws.Encoding.div (d : Fld) (a : Fld) (b : Fld) : Sys2Proof.Laws.Encoding.Statement (.div d a b) :=
  fun _ _ => of_parts rfl rfl

theorem Sys2Proof.Laws.Encoding.divn (d : Fld) (a : Fld) (b : Fld) : Sys2Proof.Laws.Encoding.Statement (.divn d a b) :=
  fun _ _ => of_parts rfl rfl

theorem Sys2Proof.Laws.Encoding.rem (d : Fld) (a : Fld) (b : Fld) : Sys2Proof.Laws.Encoding.Statement (.rem d a b) :=
  fun _ _ => of_parts rfl rfl

theorem Sys2Proof.Laws.Encoding.remn (d : Fld) (a : Fld) (b : Fld) : Sys2Proof.Laws.Encoding.Statement (.remn d a b) :=
  fun _ _ => of_parts rfl rfl

theorem Sys2Proof.Laws.Encoding.min (d : Fld) (a : Fld) (b : Fld) : Sys2Proof.Laws.Encoding.Statement (.min d a b) :=
  fun _ _ => of_parts rfl rfl

theorem Sys2Proof.Laws.Encoding.max (d : Fld) (a : Fld) (b : Fld) : Sys2Proof.Laws.Encoding.Statement (.max d a b) :=
  fun _ _ => of_parts rfl rfl

theorem Sys2Proof.Laws.Encoding.minn (d : Fld) (a : Fld) (b : Fld) : Sys2Proof.Laws.Encoding.Statement (.minn d a b) :=
  fun _ _ => of_parts rfl rfl

theorem Sys2Proof.Laws.Encoding.maxn (d : Fld) (a : Fld) (b : Fld) : Sys2Proof.Laws.Encoding.Statement (.maxn d a b) :=
  fun _ _ => of_parts rfl rfl

theorem Sys2Proof.Laws.Encoding.clz (d : Fld) (a : Fld) : Sys2Proof.Laws.Encoding.Statement (.clz d a) :=
  fun _ _ => of_parts rfl rfl

theorem Sys2Proof.Laws.Encoding.ctz (d : Fld) (a : Fld) : Sys2Proof.Laws.Encoding.Statement (.ctz d a) :=
  fun _ _ => of_parts rfl rfl

theorem Sys2Proof.Laws.Encoding.popc (d : Fld) (a : Fld) : Sys2Proof.Laws.Encoding.Statement (.popc d a) :=
  fun _ _ => of_parts rfl rfl

theorem Sys2Proof.Laws.Encoding.addi (d : Fld) (a : Fld) (imm : BitVec 12) : Sys2Proof.Laws.Encoding.Statement (.addi d a imm) :=
  fun _ _ => of_parts rfl (congrArg (fun x => Except.ok (Instr.addi d a x)) (join12 imm))

theorem Sys2Proof.Laws.Encoding.andi (d : Fld) (a : Fld) (imm : BitVec 12) : Sys2Proof.Laws.Encoding.Statement (.andi d a imm) :=
  fun _ _ => of_parts rfl (congrArg (fun x => Except.ok (Instr.andi d a x)) (join12 imm))

theorem Sys2Proof.Laws.Encoding.ori (d : Fld) (a : Fld) (imm : BitVec 12) : Sys2Proof.Laws.Encoding.Statement (.ori d a imm) :=
  fun _ _ => of_parts rfl (congrArg (fun x => Except.ok (Instr.ori d a x)) (join12 imm))

theorem Sys2Proof.Laws.Encoding.xori (d : Fld) (a : Fld) (imm : BitVec 12) : Sys2Proof.Laws.Encoding.Statement (.xori d a imm) :=
  fun _ _ => of_parts rfl (congrArg (fun x => Except.ok (Instr.xori d a x)) (join12 imm))

theorem Sys2Proof.Laws.Encoding.shli (d : Fld) (a : Fld) (sh : BitVec 6) : Sys2Proof.Laws.Encoding.Statement (.shli d a sh) :=
  fun _ _ => of_parts rfl (shli_ok d a sh)

theorem Sys2Proof.Laws.Encoding.shri (d : Fld) (a : Fld) (sh : BitVec 6) : Sys2Proof.Laws.Encoding.Statement (.shri d a sh) :=
  fun _ _ => of_parts rfl (shri_ok d a sh)

theorem Sys2Proof.Laws.Encoding.sari (d : Fld) (a : Fld) (sh : BitVec 6) : Sys2Proof.Laws.Encoding.Statement (.sari d a sh) :=
  fun _ _ => of_parts rfl (sari_ok d a sh)

theorem Sys2Proof.Laws.Encoding.cmplti (d : Fld) (a : Fld) (imm : BitVec 12) : Sys2Proof.Laws.Encoding.Statement (.cmplti d a imm) :=
  fun _ _ => of_parts rfl (congrArg (fun x => Except.ok (Instr.cmplti d a x)) (join12 imm))

theorem Sys2Proof.Laws.Encoding.lui (d : Fld) (imm : BitVec 19) : Sys2Proof.Laws.Encoding.Statement (.lui d imm) :=
  fun _ _ => of_parts rfl (congrArg (fun x => Except.ok (Instr.lui d x)) (join19 imm))

theorem Sys2Proof.Laws.Encoding.auipc (d : Fld) (imm : BitVec 19) : Sys2Proof.Laws.Encoding.Statement (.auipc d imm) :=
  fun _ _ => of_parts rfl (congrArg (fun x => Except.ok (Instr.auipc d x)) (join19 imm))

theorem Sys2Proof.Laws.Encoding.flimm (kind : FlimmKind) (d : Fld) (imm : BitVec 16) : Sys2Proof.Laws.Encoding.Statement (.flimm kind d imm) :=
  fun _ _ =>
  match kind with
  | .fp16 => of_parts rfl (flimm_ok .fp16 d imm)
  | .bf16 => of_parts rfl (flimm_ok .bf16 d imm)
  | .i16 => of_parts rfl (flimm_ok .i16 d imm)

theorem Sys2Proof.Laws.Encoding.jal (imm : BitVec 26) : Sys2Proof.Laws.Encoding.Statement (.jal imm) :=
  fun _ _ => of_parts rfl (jal_ok imm)

theorem Sys2Proof.Laws.Encoding.jalr (d : Fld) (a : Fld) (imm : BitVec 12) : Sys2Proof.Laws.Encoding.Statement (.jalr d a imm) :=
  fun _ _ => of_parts rfl (congrArg (fun x => Except.ok (Instr.jalr d a x)) (join12 imm))

theorem Sys2Proof.Laws.Encoding.beq (a : Fld) (b : Fld) (imm : BitVec 12) : Sys2Proof.Laws.Encoding.Statement (.beq a b imm) :=
  fun _ _ => of_parts rfl (congrArg (fun x => Except.ok (Instr.beq a b x)) (join12 imm))

theorem Sys2Proof.Laws.Encoding.bne (a : Fld) (b : Fld) (imm : BitVec 12) : Sys2Proof.Laws.Encoding.Statement (.bne a b imm) :=
  fun _ _ => of_parts rfl (congrArg (fun x => Except.ok (Instr.bne a b x)) (join12 imm))

theorem Sys2Proof.Laws.Encoding.blt (a : Fld) (b : Fld) (imm : BitVec 12) : Sys2Proof.Laws.Encoding.Statement (.blt a b imm) :=
  fun _ _ => of_parts rfl (congrArg (fun x => Except.ok (Instr.blt a b x)) (join12 imm))

theorem Sys2Proof.Laws.Encoding.bge (a : Fld) (b : Fld) (imm : BitVec 12) : Sys2Proof.Laws.Encoding.Statement (.bge a b imm) :=
  fun _ _ => of_parts rfl (congrArg (fun x => Except.ok (Instr.bge a b x)) (join12 imm))

theorem Sys2Proof.Laws.Encoding.bltn (a : Fld) (b : Fld) (imm : BitVec 12) : Sys2Proof.Laws.Encoding.Statement (.bltn a b imm) :=
  fun _ _ => of_parts rfl (congrArg (fun x => Except.ok (Instr.bltn a b x)) (join12 imm))

theorem Sys2Proof.Laws.Encoding.bgen (a : Fld) (b : Fld) (imm : BitVec 12) : Sys2Proof.Laws.Encoding.Statement (.bgen a b imm) :=
  fun _ _ => of_parts rfl (congrArg (fun x => Except.ok (Instr.bgen a b x)) (join12 imm))

theorem Sys2Proof.Laws.Encoding.ldI8 (d : Fld) (a : Fld) (imm : BitVec 9) : Sys2Proof.Laws.Encoding.Statement (.ldI8 d a imm) :=
  fun _ _ => of_parts rfl (load_ok 0 d a imm (by decide))

theorem Sys2Proof.Laws.Encoding.ldN8 (d : Fld) (a : Fld) (imm : BitVec 9) : Sys2Proof.Laws.Encoding.Statement (.ldN8 d a imm) :=
  fun _ _ => of_parts rfl (load_ok 1 d a imm (by decide))

theorem Sys2Proof.Laws.Encoding.ldI16 (d : Fld) (a : Fld) (imm : BitVec 9) : Sys2Proof.Laws.Encoding.Statement (.ldI16 d a imm) :=
  fun _ _ => of_parts rfl (load_ok 2 d a imm (by decide))

theorem Sys2Proof.Laws.Encoding.ldN16 (d : Fld) (a : Fld) (imm : BitVec 9) : Sys2Proof.Laws.Encoding.Statement (.ldN16 d a imm) :=
  fun _ _ => of_parts rfl (load_ok 3 d a imm (by decide))

theorem Sys2Proof.Laws.Encoding.ldI32 (d : Fld) (a : Fld) (imm : BitVec 9) : Sys2Proof.Laws.Encoding.Statement (.ldI32 d a imm) :=
  fun _ _ => of_parts rfl (load_ok 4 d a imm (by decide))

theorem Sys2Proof.Laws.Encoding.ldN32 (d : Fld) (a : Fld) (imm : BitVec 9) : Sys2Proof.Laws.Encoding.Statement (.ldN32 d a imm) :=
  fun _ _ => of_parts rfl (load_ok 5 d a imm (by decide))

theorem Sys2Proof.Laws.Encoding.ld64 (d : Fld) (a : Fld) (imm : BitVec 9) : Sys2Proof.Laws.Encoding.Statement (.ld64 d a imm) :=
  fun _ _ => of_parts rfl (load_ok 6 d a imm (by decide))

theorem Sys2Proof.Laws.Encoding.st8 (b : Fld) (a : Fld) (imm : BitVec 10) : Sys2Proof.Laws.Encoding.Statement (.st8 b a imm) :=
  fun _ _ => of_parts rfl (store_ok 0 b a imm (by decide))

theorem Sys2Proof.Laws.Encoding.st16 (b : Fld) (a : Fld) (imm : BitVec 10) : Sys2Proof.Laws.Encoding.Statement (.st16 b a imm) :=
  fun _ _ => of_parts rfl (store_ok 1 b a imm (by decide))

theorem Sys2Proof.Laws.Encoding.st32 (b : Fld) (a : Fld) (imm : BitVec 10) : Sys2Proof.Laws.Encoding.Statement (.st32 b a imm) :=
  fun _ _ => of_parts rfl (store_ok 2 b a imm (by decide))

theorem Sys2Proof.Laws.Encoding.st64 (b : Fld) (a : Fld) (imm : BitVec 10) : Sys2Proof.Laws.Encoding.Statement (.st64 b a imm) :=
  fun _ _ => of_parts rfl (store_ok 3 b a imm (by decide))

theorem Sys2Proof.Laws.Encoding.amoAdd (w32 : Bool) (d : Fld) (a : Fld) (b : Fld) : Sys2Proof.Laws.Encoding.Statement (.amoAdd w32 d a b) :=
  fun _ _ => of_parts rfl (by cases w32 <;> simp [decodeParts, encR, decodeAmo, bitOf])

theorem Sys2Proof.Laws.Encoding.amoAnd (w32 : Bool) (d : Fld) (a : Fld) (b : Fld) : Sys2Proof.Laws.Encoding.Statement (.amoAnd w32 d a b) :=
  fun _ _ => of_parts rfl (by cases w32 <;> simp [decodeParts, encR, decodeAmo, bitOf])

theorem Sys2Proof.Laws.Encoding.amoOr (w32 : Bool) (d : Fld) (a : Fld) (b : Fld) : Sys2Proof.Laws.Encoding.Statement (.amoOr w32 d a b) :=
  fun _ _ => of_parts rfl (by cases w32 <;> simp [decodeParts, encR, decodeAmo, bitOf])

theorem Sys2Proof.Laws.Encoding.amoXor (w32 : Bool) (d : Fld) (a : Fld) (b : Fld) : Sys2Proof.Laws.Encoding.Statement (.amoXor w32 d a b) :=
  fun _ _ => of_parts rfl (by cases w32 <;> simp [decodeParts, encR, decodeAmo, bitOf])

theorem Sys2Proof.Laws.Encoding.amoMin (w32 : Bool) (d : Fld) (a : Fld) (b : Fld) : Sys2Proof.Laws.Encoding.Statement (.amoMin w32 d a b) :=
  fun _ _ => of_parts rfl (by cases w32 <;> simp [decodeParts, encR, decodeAmo, bitOf])

theorem Sys2Proof.Laws.Encoding.amoMax (w32 : Bool) (d : Fld) (a : Fld) (b : Fld) : Sys2Proof.Laws.Encoding.Statement (.amoMax w32 d a b) :=
  fun _ _ => of_parts rfl (by cases w32 <;> simp [decodeParts, encR, decodeAmo, bitOf])

theorem Sys2Proof.Laws.Encoding.amoMinn (w32 : Bool) (d : Fld) (a : Fld) (b : Fld) : Sys2Proof.Laws.Encoding.Statement (.amoMinn w32 d a b) :=
  fun _ _ => of_parts rfl (by cases w32 <;> simp [decodeParts, encR, decodeAmo, bitOf])

theorem Sys2Proof.Laws.Encoding.amoMaxn (w32 : Bool) (d : Fld) (a : Fld) (b : Fld) : Sys2Proof.Laws.Encoding.Statement (.amoMaxn w32 d a b) :=
  fun _ _ => of_parts rfl (by cases w32 <;> simp [decodeParts, encR, decodeAmo, bitOf])

theorem Sys2Proof.Laws.Encoding.amoSwap (w32 : Bool) (d : Fld) (a : Fld) (b : Fld) : Sys2Proof.Laws.Encoding.Statement (.amoSwap w32 d a b) :=
  fun _ _ => of_parts rfl (by cases w32 <;> simp [decodeParts, encR, decodeAmo, bitOf])

theorem Sys2Proof.Laws.Encoding.amoCas (w32 : Bool) (d : Fld) (a : Fld) (b : Fld) : Sys2Proof.Laws.Encoding.Statement (.amoCas w32 d a b) :=
  fun _ _ => of_parts rfl (by cases w32 <;> simp [decodeParts, encR, decodeAmo, bitOf])

theorem Sys2Proof.Laws.Encoding.amoFadd (d : Fld) (a : Fld) (b : Fld) : Sys2Proof.Laws.Encoding.Statement (.amoFadd d a b) :=
  fun _ _ => of_parts rfl (by simp [decodeParts, encR, decodeAmo, bitOf])

theorem Sys2Proof.Laws.Encoding.amoFmax (d : Fld) (a : Fld) (b : Fld) : Sys2Proof.Laws.Encoding.Statement (.amoFmax d a b) :=
  fun _ _ => of_parts rfl (by simp [decodeParts, encR, decodeAmo, bitOf])

theorem Sys2Proof.Laws.Encoding.amoFmin (d : Fld) (a : Fld) (b : Fld) : Sys2Proof.Laws.Encoding.Statement (.amoFmin d a b) :=
  fun _ _ => of_parts rfl (by simp [decodeParts, encR, decodeAmo, bitOf])

theorem Sys2Proof.Laws.Encoding.ldAcq (sc : Scope) (w : QWidth) (x : Fld) (a : Fld) (imm : BitVec 6) : Sys2Proof.Laws.Encoding.Statement (.ldAcq sc w x a imm) :=
  fun _ _ => of_parts rfl (ldAcq_ok sc w x a imm)

theorem Sys2Proof.Laws.Encoding.stRel (sc : Scope) (w : QWidth) (x : Fld) (a : Fld) (imm : BitVec 6) : Sys2Proof.Laws.Encoding.Statement (.stRel sc w x a imm) :=
  fun _ _ => of_parts rfl (stRel_ok sc w x a imm)

theorem Sys2Proof.Laws.Encoding.fenceAcq (sc : Scope) : Sys2Proof.Laws.Encoding.Statement (.fenceAcq sc) :=
  fun _ _ => by
  cases sc <;> exact of_parts rfl rfl

theorem Sys2Proof.Laws.Encoding.fenceRel (sc : Scope) : Sys2Proof.Laws.Encoding.Statement (.fenceRel sc) :=
  fun _ _ => by
  cases sc <;> exact of_parts rfl rfl

theorem Sys2Proof.Laws.Encoding.fenceFull (sc : Scope) : Sys2Proof.Laws.Encoding.Statement (.fenceFull sc) :=
  fun _ _ => by
  cases sc <;> exact of_parts rfl rfl

theorem Sys2Proof.Laws.Encoding.fenceSv : Sys2Proof.Laws.Encoding.Statement .fenceSv :=
  fun _ _ => of_parts rfl rfl

theorem Sys2Proof.Laws.Encoding.fenceVs : Sys2Proof.Laws.Encoding.Statement .fenceVs :=
  fun _ _ => of_parts rfl rfl

theorem Sys2Proof.Laws.Encoding.ctlRd (d : Fld) (ctl : BitVec 10) : Sys2Proof.Laws.Encoding.Statement (.ctlRd d ctl) :=
  fun _ _ => of_parts rfl (ctlRd_ok d ctl)

theorem Sys2Proof.Laws.Encoding.ctlWr (d : Fld) (a : Fld) (ctl : BitVec 10) : Sys2Proof.Laws.Encoding.Statement (.ctlWr d a ctl) :=
  fun h _ => of_parts rfl (ctlWr_ok d a ctl h)

theorem Sys2Proof.Laws.Encoding.ctlSet (d : Fld) (a : Fld) (ctl : BitVec 10) : Sys2Proof.Laws.Encoding.Statement (.ctlSet d a ctl) :=
  fun h _ => of_parts rfl (ctlSet_ok d a ctl h)

theorem Sys2Proof.Laws.Encoding.ctlClr (d : Fld) (a : Fld) (ctl : BitVec 10) : Sys2Proof.Laws.Encoding.Statement (.ctlClr d a ctl) :=
  fun h _ => of_parts rfl (ctlClr_ok d a ctl h)

theorem Sys2Proof.Laws.Encoding.handlerReturn (op : CtlOp) (d : Fld) (a : Fld) : Sys2Proof.Laws.Encoding.Statement (.handlerReturn op d a) :=
  fun _ _ =>
  match op with
  | .wr => of_parts rfl (handler_ok 1 d a (by decide))
  | .set => of_parts rfl (handler_ok 2 d a (by decide))
  | .clr => of_parts rfl (handler_ok 3 d a (by decide))

theorem Sys2Proof.Laws.Encoding.trap (a : Fld) : Sys2Proof.Laws.Encoding.Statement (.trap a) :=
  fun _ _ => of_parts rfl rfl

theorem Sys2Proof.Laws.Encoding.ebreak : Sys2Proof.Laws.Encoding.Statement .ebreak :=
  fun _ _ => of_parts rfl rfl

theorem Sys2Proof.Laws.Encoding.featq (d : Fld) (a : Fld) : Sys2Proof.Laws.Encoding.Statement (.featq d a) :=
  fun _ _ => of_parts rfl rfl

theorem Sys2Proof.Laws.Encoding.wbase (s : Fld) (v : Fld) : Sys2Proof.Laws.Encoding.Statement (.wbase s v) :=
  fun _ _ => of_parts rfl rfl

theorem Sys2Proof.Laws.Encoding.heartbeat : Sys2Proof.Laws.Encoding.Statement .heartbeat :=
  fun _ _ => of_parts rfl rfl

theorem Sys2Proof.Laws.Encoding.yield : Sys2Proof.Laws.Encoding.Statement .yield :=
  fun _ _ => of_parts rfl rfl

theorem Sys2Proof.Laws.Encoding.vexit : Sys2Proof.Laws.Encoding.Statement .vexit :=
  fun _ _ => of_parts rfl rfl

theorem Sys2Proof.Laws.Encoding.eret : Sys2Proof.Laws.Encoding.Statement .eret :=
  fun _ _ => of_parts rfl rfl

theorem Sys2Proof.Laws.Encoding.cyc (d : Fld) : Sys2Proof.Laws.Encoding.Statement (.cyc d) :=
  fun _ _ => of_parts rfl rfl

theorem Sys2Proof.Laws.Encoding.ctxid (d : Fld) : Sys2Proof.Laws.Encoding.Statement (.ctxid d) :=
  fun _ _ => of_parts rfl rfl

theorem Sys2Proof.Laws.Encoding.vcfgi (d : Fld) (a : Fld) (imm : BitVec 12) : Sys2Proof.Laws.Encoding.Statement (.vcfgi d a imm) :=
  fun _ _ => of_parts rfl (congrArg (fun x => Except.ok (Instr.vcfgi d a x)) (join12 imm))

theorem Sys2Proof.Laws.Encoding.vcfg (d : Fld) (a : Fld) (b : Fld) : Sys2Proof.Laws.Encoding.Statement (.vcfg d a b) :=
  fun _ _ => of_parts rfl rfl

theorem Sys2Proof.Laws.Encoding.mmode (d : Fld) (a : Fld) : Sys2Proof.Laws.Encoding.Statement (.mmode d a) :=
  fun _ _ => of_parts rfl rfl

theorem Sys2Proof.Laws.Encoding.mexit : Sys2Proof.Laws.Encoding.Statement .mexit :=
  fun _ _ => of_parts rfl rfl

theorem Sys2Proof.Laws.Encoding.tshape (d : Fld) (a : Fld) : Sys2Proof.Laws.Encoding.Statement (.tshape d a) :=
  fun _ _ => of_parts rfl rfl

theorem Sys2Proof.Laws.Encoding.vloop (p : Bool) (imm : BitVec 16) (a : Fld) : Sys2Proof.Laws.Encoding.Statement (.vloop p imm a) :=
  fun h _ => of_parts rfl (vloop_ok p imm a h)

theorem Sys2Proof.Laws.Encoding.vloopw (p : Bool) (imm : BitVec 16) (a : Fld) : Sys2Proof.Laws.Encoding.Statement (.vloopw p imm a) :=
  fun h _ => of_parts rfl (vloopw_ok p imm a h)

theorem Sys2Proof.Laws.Encoding.vadd (pg : BitVec 2) (k : Bool) (d : Fld) (a : Fld) (b : Fld) : Sys2Proof.Laws.Encoding.Statement (.vadd pg k d a b) :=
  fun _ _ => of_parts rfl ((arith_eq 0x1C 0 pg k d a b (by decide) (by decide)).trans rfl)

theorem Sys2Proof.Laws.Encoding.vsub (pg : BitVec 2) (k : Bool) (d : Fld) (a : Fld) (b : Fld) : Sys2Proof.Laws.Encoding.Statement (.vsub pg k d a b) :=
  fun _ _ => of_parts rfl ((arith_eq 0x1C 1 pg k d a b (by decide) (by decide)).trans rfl)

theorem Sys2Proof.Laws.Encoding.vrsub (pg : BitVec 2) (k : Bool) (d : Fld) (a : Fld) (b : Fld) : Sys2Proof.Laws.Encoding.Statement (.vrsub pg k d a b) :=
  fun _ _ => of_parts rfl ((arith_eq 0x1C 2 pg k d a b (by decide) (by decide)).trans rfl)

theorem Sys2Proof.Laws.Encoding.vmul (pg : BitVec 2) (k : Bool) (d : Fld) (a : Fld) (b : Fld) : Sys2Proof.Laws.Encoding.Statement (.vmul pg k d a b) :=
  fun _ _ => of_parts rfl ((arith_eq 0x1C 3 pg k d a b (by decide) (by decide)).trans rfl)

theorem Sys2Proof.Laws.Encoding.vmin (pg : BitVec 2) (k : Bool) (d : Fld) (a : Fld) (b : Fld) : Sys2Proof.Laws.Encoding.Statement (.vmin pg k d a b) :=
  fun _ _ => of_parts rfl ((arith_eq 0x1D 0 pg k d a b (by decide) (by decide)).trans rfl)

theorem Sys2Proof.Laws.Encoding.vmax (pg : BitVec 2) (k : Bool) (d : Fld) (a : Fld) (b : Fld) : Sys2Proof.Laws.Encoding.Statement (.vmax pg k d a b) :=
  fun _ _ => of_parts rfl ((arith_eq 0x1D 1 pg k d a b (by decide) (by decide)).trans rfl)

theorem Sys2Proof.Laws.Encoding.vmulh (pg : BitVec 2) (k : Bool) (d : Fld) (a : Fld) (b : Fld) : Sys2Proof.Laws.Encoding.Statement (.vmulh pg k d a b) :=
  fun _ _ => of_parts rfl ((arith_eq 0x1D 2 pg k d a b (by decide) (by decide)).trans rfl)

theorem Sys2Proof.Laws.Encoding.vdiv (pg : BitVec 2) (k : Bool) (d : Fld) (a : Fld) (b : Fld) : Sys2Proof.Laws.Encoding.Statement (.vdiv pg k d a b) :=
  fun _ _ => of_parts rfl ((arith_eq 0x1D 3 pg k d a b (by decide) (by decide)).trans rfl)

theorem Sys2Proof.Laws.Encoding.vand (pg : BitVec 2) (k : Bool) (d : Fld) (a : Fld) (b : Fld) : Sys2Proof.Laws.Encoding.Statement (.vand pg k d a b) :=
  fun _ _ => of_parts rfl ((arith_eq 0x1E 0 pg k d a b (by decide) (by decide)).trans rfl)

theorem Sys2Proof.Laws.Encoding.vor (pg : BitVec 2) (k : Bool) (d : Fld) (a : Fld) (b : Fld) : Sys2Proof.Laws.Encoding.Statement (.vor pg k d a b) :=
  fun _ _ => of_parts rfl ((arith_eq 0x1E 1 pg k d a b (by decide) (by decide)).trans rfl)

theorem Sys2Proof.Laws.Encoding.vxor (pg : BitVec 2) (k : Bool) (d : Fld) (a : Fld) (b : Fld) : Sys2Proof.Laws.Encoding.Statement (.vxor pg k d a b) :=
  fun _ _ => of_parts rfl ((arith_eq 0x1E 2 pg k d a b (by decide) (by decide)).trans rfl)

theorem Sys2Proof.Laws.Encoding.vshl (pg : BitVec 2) (k : Bool) (d : Fld) (a : Fld) (b : Fld) : Sys2Proof.Laws.Encoding.Statement (.vshl pg k d a b) :=
  fun _ _ => of_parts rfl ((arith_eq 0x1E 3 pg k d a b (by decide) (by decide)).trans rfl)

theorem Sys2Proof.Laws.Encoding.vshr (pg : BitVec 2) (k : Bool) (d : Fld) (a : Fld) (b : Fld) : Sys2Proof.Laws.Encoding.Statement (.vshr pg k d a b) :=
  fun _ _ => of_parts rfl ((arith_eq 0x1F 0 pg k d a b (by decide) (by decide)).trans rfl)

theorem Sys2Proof.Laws.Encoding.vsar (pg : BitVec 2) (k : Bool) (d : Fld) (a : Fld) (b : Fld) : Sys2Proof.Laws.Encoding.Statement (.vsar pg k d a b) :=
  fun _ _ => of_parts rfl ((arith_eq 0x1F 1 pg k d a b (by decide) (by decide)).trans rfl)

theorem Sys2Proof.Laws.Encoding.vmacc (pg : BitVec 2) (k : Bool) (d : Fld) (a : Fld) (b : Fld) : Sys2Proof.Laws.Encoding.Statement (.vmacc pg k d a b) :=
  fun _ _ => of_parts rfl ((arith_eq 0x1F 2 pg k d a b (by decide) (by decide)).trans rfl)

theorem Sys2Proof.Laws.Encoding.vnmsac (pg : BitVec 2) (k : Bool) (d : Fld) (a : Fld) (b : Fld) : Sys2Proof.Laws.Encoding.Statement (.vnmsac pg k d a b) :=
  fun _ _ => of_parts rfl ((arith_eq 0x1F 3 pg k d a b (by decide) (by decide)).trans rfl)

theorem Sys2Proof.Laws.Encoding.vwmacc (pg : BitVec 2) (k : Bool) (d : Fld) (a : Fld) (b : Fld) : Sys2Proof.Laws.Encoding.Statement (.vwmacc pg k d a b) :=
  fun _ _ => of_parts rfl ((arith_eq 0x20 0 pg k d a b (by decide) (by decide)).trans rfl)

theorem Sys2Proof.Laws.Encoding.vwadd (pg : BitVec 2) (k : Bool) (d : Fld) (a : Fld) (b : Fld) : Sys2Proof.Laws.Encoding.Statement (.vwadd pg k d a b) :=
  fun _ _ => of_parts rfl ((arith_eq 0x20 1 pg k d a b (by decide) (by decide)).trans rfl)

theorem Sys2Proof.Laws.Encoding.vwmul (pg : BitVec 2) (k : Bool) (d : Fld) (a : Fld) (b : Fld) : Sys2Proof.Laws.Encoding.Statement (.vwmul pg k d a b) :=
  fun _ _ => of_parts rfl ((arith_eq 0x20 2 pg k d a b (by decide) (by decide)).trans rfl)

theorem Sys2Proof.Laws.Encoding.vnclip (pg : BitVec 2) (k : Bool) (d : Fld) (a : Fld) (b : Fld) : Sys2Proof.Laws.Encoding.Statement (.vnclip pg k d a b) :=
  fun _ _ => of_parts rfl ((arith_eq 0x20 3 pg k d a b (by decide) (by decide)).trans rfl)

theorem Sys2Proof.Laws.Encoding.vcmpeq (pg : BitVec 2) (k : Bool) (d : Fld) (a : Fld) (b : Fld) : Sys2Proof.Laws.Encoding.Statement (.vcmpeq pg k d a b) :=
  fun _ _ => of_parts rfl ((arith_eq 0x21 0 pg k d a b (by decide) (by decide)).trans rfl)

theorem Sys2Proof.Laws.Encoding.vcmpne (pg : BitVec 2) (k : Bool) (d : Fld) (a : Fld) (b : Fld) : Sys2Proof.Laws.Encoding.Statement (.vcmpne pg k d a b) :=
  fun _ _ => of_parts rfl ((arith_eq 0x21 1 pg k d a b (by decide) (by decide)).trans rfl)

theorem Sys2Proof.Laws.Encoding.vcmplt (pg : BitVec 2) (k : Bool) (d : Fld) (a : Fld) (b : Fld) : Sys2Proof.Laws.Encoding.Statement (.vcmplt pg k d a b) :=
  fun _ _ => of_parts rfl ((arith_eq 0x21 2 pg k d a b (by decide) (by decide)).trans rfl)

theorem Sys2Proof.Laws.Encoding.vcmple (pg : BitVec 2) (k : Bool) (d : Fld) (a : Fld) (b : Fld) : Sys2Proof.Laws.Encoding.Statement (.vcmple pg k d a b) :=
  fun _ _ => of_parts rfl ((arith_eq 0x21 3 pg k d a b (by decide) (by decide)).trans rfl)

theorem Sys2Proof.Laws.Encoding.vmerge (pg : BitVec 2) (k : Bool) (d : Fld) (a : Fld) (b : Fld) : Sys2Proof.Laws.Encoding.Statement (.vmerge pg k d a b) :=
  fun _ _ => of_parts rfl ((arith_eq 0x22 0 pg k d a b (by decide) (by decide)).trans rfl)

theorem Sys2Proof.Laws.Encoding.vmvV (pg : BitVec 2) (d : Fld) (a : Fld) : Sys2Proof.Laws.Encoding.Statement (.vmvV pg d a) :=
  fun _ _ => of_parts rfl ((arith_eq 0x22 1 pg false d a 0 (by decide) (by decide)).trans rfl)

theorem Sys2Proof.Laws.Encoding.vmvVx (pg : BitVec 2) (d : Fld) (b : Fld) : Sys2Proof.Laws.Encoding.Statement (.vmvVx pg d b) :=
  fun _ _ => of_parts rfl ((arith_eq 0x22 1 pg true d 0 b (by decide) (by decide)).trans rfl)

theorem Sys2Proof.Laws.Encoding.vmvXv (d : Fld) (a : Fld) : Sys2Proof.Laws.Encoding.Statement (.vmvXv d a) :=
  fun _ _ => of_parts rfl ((arith_eq 0x22 1 0 false d a 1 (by decide) (by decide)).trans rfl)

theorem Sys2Proof.Laws.Encoding.vsadd (pg : BitVec 2) (k : Bool) (d : Fld) (a : Fld) (b : Fld) : Sys2Proof.Laws.Encoding.Statement (.vsadd pg k d a b) :=
  fun _ _ => of_parts rfl ((arith_eq 0x22 2 pg k d a b (by decide) (by decide)).trans rfl)

theorem Sys2Proof.Laws.Encoding.vssub (pg : BitVec 2) (k : Bool) (d : Fld) (a : Fld) (b : Fld) : Sys2Proof.Laws.Encoding.Statement (.vssub pg k d a b) :=
  fun _ _ => of_parts rfl ((arith_eq 0x22 3 pg k d a b (by decide) (by decide)).trans rfl)

theorem Sys2Proof.Laws.Encoding.vsqrt (pg : BitVec 2) (d : Fld) (a : Fld) : Sys2Proof.Laws.Encoding.Statement (.vsqrt pg d a) :=
  fun _ _ => of_parts rfl ((misc_eq 0x23 0 pg false d a 0 (by decide) (by decide)).trans rfl)

theorem Sys2Proof.Laws.Encoding.vrsqrte (pg : BitVec 2) (d : Fld) (a : Fld) : Sys2Proof.Laws.Encoding.Statement (.vrsqrte pg d a) :=
  fun _ _ => of_parts rfl ((misc_eq 0x23 1 pg false d a 0 (by decide) (by decide)).trans rfl)

theorem Sys2Proof.Laws.Encoding.vrece (pg : BitVec 2) (d : Fld) (a : Fld) : Sys2Proof.Laws.Encoding.Statement (.vrece pg d a) :=
  fun _ _ => of_parts rfl ((misc_eq 0x23 2 pg false d a 0 (by decide) (by decide)).trans rfl)

theorem Sys2Proof.Laws.Encoding.vexp2e (pg : BitVec 2) (d : Fld) (a : Fld) : Sys2Proof.Laws.Encoding.Statement (.vexp2e pg d a) :=
  fun _ _ => of_parts rfl ((misc_eq 0x23 3 pg false d a 0 (by decide) (by decide)).trans rfl)

theorem Sys2Proof.Laws.Encoding.vredsum (pg : BitVec 2) (k : Bool) (d : Fld) (a : Fld) (b : Fld) : Sys2Proof.Laws.Encoding.Statement (.vredsum pg k d a b) :=
  fun _ _ => of_parts rfl ((misc_eq 0x24 0 pg k d a b (by decide) (by decide)).trans rfl)

theorem Sys2Proof.Laws.Encoding.vredmax (pg : BitVec 2) (k : Bool) (d : Fld) (a : Fld) (b : Fld) : Sys2Proof.Laws.Encoding.Statement (.vredmax pg k d a b) :=
  fun _ _ => of_parts rfl ((misc_eq 0x24 1 pg k d a b (by decide) (by decide)).trans rfl)

theorem Sys2Proof.Laws.Encoding.vredmin (pg : BitVec 2) (k : Bool) (d : Fld) (a : Fld) (b : Fld) : Sys2Proof.Laws.Encoding.Statement (.vredmin pg k d a b) :=
  fun _ _ => of_parts rfl ((misc_eq 0x24 2 pg k d a b (by decide) (by decide)).trans rfl)

theorem Sys2Proof.Laws.Encoding.vdot (pg : BitVec 2) (d : Fld) (a : Fld) (b : Fld) : Sys2Proof.Laws.Encoding.Statement (.vdot pg d a b) :=
  fun _ _ => of_parts rfl ((misc_eq 0x24 3 pg false d a b (by decide) (by decide)).trans rfl)

theorem Sys2Proof.Laws.Encoding.vxchg (pg : BitVec 2) (d : Fld) (a : Fld) (b : Fld) : Sys2Proof.Laws.Encoding.Statement (.vxchg pg d a b) :=
  fun _ _ => of_parts rfl ((misc_eq 0x25 0 pg true d a b (by decide) (by decide)).trans rfl)

theorem Sys2Proof.Laws.Encoding.vslup (pg : BitVec 2) (d : Fld) (a : Fld) (b : Fld) : Sys2Proof.Laws.Encoding.Statement (.vslup pg d a b) :=
  fun _ _ => of_parts rfl ((misc_eq 0x25 1 pg true d a b (by decide) (by decide)).trans rfl)

theorem Sys2Proof.Laws.Encoding.vsldn (pg : BitVec 2) (d : Fld) (a : Fld) (b : Fld) : Sys2Proof.Laws.Encoding.Statement (.vsldn pg d a b) :=
  fun _ _ => of_parts rfl ((misc_eq 0x25 2 pg true d a b (by decide) (by decide)).trans rfl)

theorem Sys2Proof.Laws.Encoding.vperm (pg : BitVec 2) (d : Fld) (a : Fld) (b : Fld) : Sys2Proof.Laws.Encoding.Statement (.vperm pg d a b) :=
  fun _ _ => of_parts rfl ((misc_eq 0x25 3 pg false d a b (by decide) (by decide)).trans rfl)

theorem Sys2Proof.Laws.Encoding.vcvt (pg : BitVec 2) (t : CvtTarget) (d : Fld) (a : Fld) : Sys2Proof.Laws.Encoding.Statement (.vcvt pg t d a) :=
  fun h _ => of_parts rfl (vcvt_ok pg t d a h)

theorem Sys2Proof.Laws.Encoding.vbscale (pg : BitVec 2) (k : Bool) (d : Fld) (a : Fld) (b : Fld) : Sys2Proof.Laws.Encoding.Statement (.vbscale pg k d a b) :=
  fun _ _ => of_parts rfl ((misc_eq 0x26 1 pg k d a b (by decide) (by decide)).trans rfl)

theorem Sys2Proof.Laws.Encoding.vrot (pg : BitVec 2) (d : Fld) (a : Fld) : Sys2Proof.Laws.Encoding.Statement (.vrot pg d a) :=
  fun _ _ => of_parts rfl ((misc_eq 0x26 2 pg false d a 0 (by decide) (by decide)).trans rfl)

theorem Sys2Proof.Laws.Encoding.vid (pg : BitVec 2) (k : Bool) (d : Fld) (b : Fld) : Sys2Proof.Laws.Encoding.Statement (.vid pg k d b) :=
  fun h _ => of_parts rfl (vid_ok pg k d b h)

theorem Sys2Proof.Laws.Encoding.pand (pg : BitVec 2) (d : Fld) (a : Fld) (b : Fld) : Sys2Proof.Laws.Encoding.Statement (.pand pg d a b) :=
  fun _ _ => of_parts rfl ((zero_eq 0x27 0 pg d a b (by decide) (by decide)).trans rfl)

theorem Sys2Proof.Laws.Encoding.por (pg : BitVec 2) (d : Fld) (a : Fld) (b : Fld) : Sys2Proof.Laws.Encoding.Statement (.por pg d a b) :=
  fun _ _ => of_parts rfl ((zero_eq 0x27 1 pg d a b (by decide) (by decide)).trans rfl)

theorem Sys2Proof.Laws.Encoding.pxor (pg : BitVec 2) (d : Fld) (a : Fld) (b : Fld) : Sys2Proof.Laws.Encoding.Statement (.pxor pg d a b) :=
  fun _ _ => of_parts rfl ((zero_eq 0x27 2 pg d a b (by decide) (by decide)).trans rfl)

theorem Sys2Proof.Laws.Encoding.pandn (pg : BitVec 2) (d : Fld) (a : Fld) (b : Fld) : Sys2Proof.Laws.Encoding.Statement (.pandn pg d a b) :=
  fun _ _ => of_parts rfl ((zero_eq 0x27 3 pg d a b (by decide) (by decide)).trans rfl)

theorem Sys2Proof.Laws.Encoding.psbf (pg : BitVec 2) (d : Fld) (a : Fld) : Sys2Proof.Laws.Encoding.Statement (.psbf pg d a) :=
  fun _ _ => of_parts rfl ((zero_eq 0x28 0 pg d a 0 (by decide) (by decide)).trans rfl)

theorem Sys2Proof.Laws.Encoding.psif (pg : BitVec 2) (d : Fld) (a : Fld) : Sys2Proof.Laws.Encoding.Statement (.psif pg d a) :=
  fun _ _ => of_parts rfl ((zero_eq 0x28 1 pg d a 0 (by decide) (by decide)).trans rfl)

theorem Sys2Proof.Laws.Encoding.pcnt (pg : BitVec 2) (d : Fld) (a : Fld) : Sys2Proof.Laws.Encoding.Statement (.pcnt pg d a) :=
  fun _ _ => of_parts rfl ((zero_eq 0x28 2 pg d a 0 (by decide) (by decide)).trans rfl)

theorem Sys2Proof.Laws.Encoding.pfirst (pg : BitVec 2) (d : Fld) (a : Fld) : Sys2Proof.Laws.Encoding.Statement (.pfirst pg d a) :=
  fun _ _ => of_parts rfl ((zero_eq 0x28 3 pg d a 0 (by decide) (by decide)).trans rfl)

theorem Sys2Proof.Laws.Encoding.vcompress (d : Fld) (a : Fld) (b : Fld) : Sys2Proof.Laws.Encoding.Statement (.vcompress d a b) :=
  fun _ _ => of_parts rfl ((zero_eq 0x29 0 0 d a b (by decide) (by decide)).trans rfl)

theorem Sys2Proof.Laws.Encoding.vcidx (d : Fld) (a : Fld) (b : Fld) : Sys2Proof.Laws.Encoding.Statement (.vcidx d a b) :=
  fun _ _ => of_parts rfl ((zero_eq 0x29 1 0 d a b (by decide) (by decide)).trans rfl)

theorem Sys2Proof.Laws.Encoding.vtop (pg : BitVec 2) (d : Fld) (a : Fld) (b : Fld) : Sys2Proof.Laws.Encoding.Statement (.vtop pg d a b) :=
  fun _ _ => of_parts rfl ((zero_eq 0x29 2 pg d a b (by decide) (by decide)).trans rfl)

theorem Sys2Proof.Laws.Encoding.pexp (d : Fld) (a : Fld) (b : Fld) : Sys2Proof.Laws.Encoding.Statement (.pexp d a b) :=
  fun _ _ => of_parts rfl ((zero_eq 0x29 3 0 d a b (by decide) (by decide)).trans rfl)

theorem Sys2Proof.Laws.Encoding.vld (pg : BitVec 2) (d : Fld) (a : Fld) : Sys2Proof.Laws.Encoding.Statement (.vld pg d a) :=
  fun _ _ => of_parts rfl ((memory_eq 0x2A 0 pg d a 0 (by decide) (by decide)).trans rfl)

theorem Sys2Proof.Laws.Encoding.vldS (pg : BitVec 2) (d : Fld) (a : Fld) (b : Fld) : Sys2Proof.Laws.Encoding.Statement (.vldS pg d a b) :=
  fun _ _ => of_parts rfl ((memory_eq 0x2A 1 pg d a b (by decide) (by decide)).trans rfl)

theorem Sys2Proof.Laws.Encoding.vldFf (pg : BitVec 2) (d : Fld) (a : Fld) (b : Fld) : Sys2Proof.Laws.Encoding.Statement (.vldFf pg d a b) :=
  fun _ _ => of_parts rfl ((memory_eq 0x2A 2 pg d a b (by decide) (by decide)).trans rfl)

theorem Sys2Proof.Laws.Encoding.vldNc (pg : BitVec 2) (d : Fld) (a : Fld) : Sys2Proof.Laws.Encoding.Statement (.vldNc pg d a) :=
  fun _ _ => of_parts rfl ((memory_eq 0x2A 3 pg d a 0 (by decide) (by decide)).trans rfl)

theorem Sys2Proof.Laws.Encoding.vldSeg (pg : BitVec 2) (nf : BitVec 3) (d : Fld) (a : Fld) : Sys2Proof.Laws.Encoding.Statement (.vldSeg pg nf d a) :=
  fun _ _ => of_parts rfl (vldSeg_ok pg nf d a)

theorem Sys2Proof.Laws.Encoding.vldFe (pg : BitVec 2) (d : Fld) (a : Fld) : Sys2Proof.Laws.Encoding.Statement (.vldFe pg d a) :=
  fun _ _ => of_parts rfl ((memory_eq 0x2A 5 pg d a 0 (by decide) (by decide)).trans rfl)

theorem Sys2Proof.Laws.Encoding.vldFec (pg : BitVec 2) (d : Fld) (a : Fld) : Sys2Proof.Laws.Encoding.Statement (.vldFec pg d a) :=
  fun _ _ => of_parts rfl ((memory_eq 0x2A 6 pg d a 0 (by decide) (by decide)).trans rfl)

theorem Sys2Proof.Laws.Encoding.vst (pg : BitVec 2) (d : Fld) (a : Fld) : Sys2Proof.Laws.Encoding.Statement (.vst pg d a) :=
  fun _ _ => of_parts rfl ((memory_eq 0x2B 0 pg d a 0 (by decide) (by decide)).trans rfl)

theorem Sys2Proof.Laws.Encoding.vstS (pg : BitVec 2) (d : Fld) (a : Fld) (b : Fld) : Sys2Proof.Laws.Encoding.Statement (.vstS pg d a b) :=
  fun _ _ => of_parts rfl ((memory_eq 0x2B 1 pg d a b (by decide) (by decide)).trans rfl)

theorem Sys2Proof.Laws.Encoding.vstNtf (pg : BitVec 2) (d : Fld) (a : Fld) (b : Fld) : Sys2Proof.Laws.Encoding.Statement (.vstNtf pg d a b) :=
  fun _ _ => of_parts rfl ((memory_eq 0x2B 2 pg d a b (by decide) (by decide)).trans rfl)

theorem Sys2Proof.Laws.Encoding.vstNc (pg : BitVec 2) (d : Fld) (a : Fld) : Sys2Proof.Laws.Encoding.Statement (.vstNc pg d a) :=
  fun _ _ => of_parts rfl ((memory_eq 0x2B 3 pg d a 0 (by decide) (by decide)).trans rfl)

theorem Sys2Proof.Laws.Encoding.vstSeg (pg : BitVec 2) (nf : BitVec 3) (d : Fld) (a : Fld) : Sys2Proof.Laws.Encoding.Statement (.vstSeg pg nf d a) :=
  fun _ _ => of_parts rfl (vstSeg_ok pg nf d a)

theorem Sys2Proof.Laws.Encoding.vstFe (pg : BitVec 2) (d : Fld) (a : Fld) : Sys2Proof.Laws.Encoding.Statement (.vstFe pg d a) :=
  fun _ _ => of_parts rfl ((memory_eq 0x2B 5 pg d a 0 (by decide) (by decide)).trans rfl)

theorem Sys2Proof.Laws.Encoding.vstMd (pg : BitVec 2) (tv : Bool) (d : Fld) (a : Fld) : Sys2Proof.Laws.Encoding.Statement (.vstMd pg tv d a) :=
  fun _ _ => of_parts rfl ((memory_eq 0x2B 6 pg d a (BitVec.ofNat 7 tv.toNat) (by decide) (by decide)).trans (by cases tv <;> rfl))

theorem Sys2Proof.Laws.Encoding.vldSc (pg : BitVec 2) (d : Fld) (a : Fld) : Sys2Proof.Laws.Encoding.Statement (.vldSc pg d a) :=
  fun _ _ => of_parts rfl ((memory_eq 0x2C 0 pg d a 0 (by decide) (by decide)).trans rfl)

theorem Sys2Proof.Laws.Encoding.vstSc (pg : BitVec 2) (d : Fld) (a : Fld) : Sys2Proof.Laws.Encoding.Statement (.vstSc pg d a) :=
  fun _ _ => of_parts rfl ((memory_eq 0x2C 1 pg d a 0 (by decide) (by decide)).trans rfl)

theorem Sys2Proof.Laws.Encoding.vldAcq (pg : BitVec 2) (d : Fld) (a : Fld) : Sys2Proof.Laws.Encoding.Statement (.vldAcq pg d a) :=
  fun _ _ => of_parts rfl ((memory_eq 0x2C 2 pg d a 0 (by decide) (by decide)).trans rfl)

theorem Sys2Proof.Laws.Encoding.vstRel (pg : BitVec 2) (d : Fld) (a : Fld) : Sys2Proof.Laws.Encoding.Statement (.vstRel pg d a) :=
  fun _ _ => of_parts rfl ((memory_eq 0x2C 3 pg d a 0 (by decide) (by decide)).trans rfl)

theorem Sys2Proof.Laws.Encoding.planMk (pg : BitVec 2) (d : Fld) (a : Fld) (b : Fld) : Sys2Proof.Laws.Encoding.Statement (.planMk pg d a b) :=
  fun _ _ => of_parts rfl ((zero_eq 0x2D 0 pg d a b (by decide) (by decide)).trans rfl)

theorem Sys2Proof.Laws.Encoding.planMkm (pg : BitVec 2) (d : Fld) (a : Fld) (b : Fld) : Sys2Proof.Laws.Encoding.Statement (.planMkm pg d a b) :=
  fun _ _ => of_parts rfl ((zero_eq 0x2D 1 pg d a b (by decide) (by decide)).trans rfl)

theorem Sys2Proof.Laws.Encoding.planInv (d : Fld) (a : Fld) : Sys2Proof.Laws.Encoding.Statement (.planInv d a) :=
  fun _ _ => of_parts rfl ((zero_eq 0x2D 2 0 d a 0 (by decide) (by decide)).trans rfl)

theorem Sys2Proof.Laws.Encoding.planCmp (d : Fld) (a : Fld) (b : Fld) : Sys2Proof.Laws.Encoding.Statement (.planCmp d a b) :=
  fun _ _ => of_parts rfl ((zero_eq 0x2D 3 0 d a b (by decide) (by decide)).trans rfl)

theorem Sys2Proof.Laws.Encoding.pga (pg : BitVec 2) (d : Fld) (a : Fld) (b : Fld) : Sys2Proof.Laws.Encoding.Statement (.pga pg d a b) :=
  fun _ _ => of_parts rfl ((zero_eq 0x2E 0 pg d a b (by decide) (by decide)).trans rfl)

theorem Sys2Proof.Laws.Encoding.psc (pg : BitVec 2) (d : Fld) (a : Fld) (b : Fld) : Sys2Proof.Laws.Encoding.Statement (.psc pg d a b) :=
  fun _ _ => of_parts rfl ((zero_eq 0x2E 1 pg d a b (by decide) (by decide)).trans rfl)

theorem Sys2Proof.Laws.Encoding.pscAdd (pg : BitVec 2) (d : Fld) (a : Fld) (b : Fld) : Sys2Proof.Laws.Encoding.Statement (.pscAdd pg d a b) :=
  fun _ _ => of_parts rfl ((zero_eq 0x2E 2 pg d a b (by decide) (by decide)).trans rfl)

theorem Sys2Proof.Laws.Encoding.pscMax (pg : BitVec 2) (d : Fld) (a : Fld) (b : Fld) : Sys2Proof.Laws.Encoding.Statement (.pscMax pg d a b) :=
  fun _ _ => of_parts rfl ((zero_eq 0x2E 3 pg d a b (by decide) (by decide)).trans rfl)

theorem Sys2Proof.Laws.Encoding.planLd (d : Fld) (a : Fld) : Sys2Proof.Laws.Encoding.Statement (.planLd d a) :=
  fun _ _ => of_parts rfl ((zero_eq 0x2F 0 0 d a 0 (by decide) (by decide)).trans rfl)

theorem Sys2Proof.Laws.Encoding.planSt (d : Fld) (a : Fld) : Sys2Proof.Laws.Encoding.Statement (.planSt d a) :=
  fun _ _ => of_parts rfl ((zero_eq 0x2F 1 0 d a 0 (by decide) (by decide)).trans rfl)

theorem Sys2Proof.Laws.Encoding.planRel (d : Fld) : Sys2Proof.Laws.Encoding.Statement (.planRel d) :=
  fun _ _ => of_parts rfl ((zero_eq 0x2F 2 0 d 0 0 (by decide) (by decide)).trans rfl)

theorem Sys2Proof.Laws.Encoding.planQ (d : Fld) (a : Fld) (b : Fld) : Sys2Proof.Laws.Encoding.Statement (.planQ d a b) :=
  fun _ _ => of_parts rfl ((zero_eq 0x2F 3 0 d a b (by decide) (by decide)).trans rfl)

theorem Sys2Proof.Laws.Encoding.tidLd (d : Fld) (a : Fld) : Sys2Proof.Laws.Encoding.Statement (.tidLd d a) :=
  fun _ _ => of_parts rfl ((zero_eq 0x30 0 0 d a 0 (by decide) (by decide)).trans rfl)

theorem Sys2Proof.Laws.Encoding.tidSt (d : Fld) (a : Fld) : Sys2Proof.Laws.Encoding.Statement (.tidSt d a) :=
  fun _ _ => of_parts rfl ((zero_eq 0x30 1 0 d a 0 (by decide) (by decide)).trans rfl)

theorem Sys2Proof.Laws.Encoding.tidSet (d : Fld) (a : Fld) (b : Fld) : Sys2Proof.Laws.Encoding.Statement (.tidSet d a b) :=
  fun _ _ => of_parts rfl ((zero_eq 0x30 2 0 d a b (by decide) (by decide)).trans rfl)

theorem Sys2Proof.Laws.Encoding.tidQ (d : Fld) (a : Fld) (b : Fld) : Sys2Proof.Laws.Encoding.Statement (.tidQ d a b) :=
  fun _ _ => of_parts rfl ((zero_eq 0x30 3 0 d a b (by decide) (by decide)).trans rfl)

theorem Sys2Proof.Laws.Encoding.mxa (pg : BitVec 2) (d : Fld) (a : Fld) (b : Fld) : Sys2Proof.Laws.Encoding.Statement (.mxa pg d a b) :=
  fun _ _ => of_parts rfl ((zero_eq 0x31 0 pg d a b (by decide) (by decide)).trans rfl)

theorem Sys2Proof.Laws.Encoding.mxs (pg : BitVec 2) (d : Fld) (a : Fld) (b : Fld) : Sys2Proof.Laws.Encoding.Statement (.mxs pg d a b) :=
  fun _ _ => of_parts rfl ((zero_eq 0x31 1 pg d a b (by decide) (by decide)).trans rfl)

theorem Sys2Proof.Laws.Encoding.mxw (pg : BitVec 2) (d : Fld) (a : Fld) (b : Fld) : Sys2Proof.Laws.Encoding.Statement (.mxw pg d a b) :=
  fun _ _ => of_parts rfl ((zero_eq 0x31 2 pg d a b (by decide) (by decide)).trans rfl)

theorem Sys2Proof.Laws.Encoding.mclr (pg : BitVec 2) (d : Fld) : Sys2Proof.Laws.Encoding.Statement (.mclr pg d) :=
  fun _ _ => of_parts rfl ((zero_eq 0x31 3 pg d 0 0 (by decide) (by decide)).trans rfl)

theorem Sys2Proof.Laws.Encoding.mma (pg : BitVec 2) (d : Fld) (a : Fld) (b : Fld) : Sys2Proof.Laws.Encoding.Statement (.mma pg d a b) :=
  fun _ _ => of_parts rfl ((zero_eq 0x32 0 pg d a b (by decide) (by decide)).trans rfl)

theorem Sys2Proof.Laws.Encoding.mmaG (pg : BitVec 2) (d : Fld) (a : Fld) (b : Fld) : Sys2Proof.Laws.Encoding.Statement (.mmaG pg d a b) :=
  fun _ _ => of_parts rfl ((zero_eq 0x32 1 pg d a b (by decide) (by decide)).trans rfl)

theorem Sys2Proof.Laws.Encoding.mmav (pg : BitVec 2) (d : Fld) (a : Fld) (b : Fld) : Sys2Proof.Laws.Encoding.Statement (.mmav pg d a b) :=
  fun _ _ => of_parts rfl ((zero_eq 0x32 2 pg d a b (by decide) (by decide)).trans rfl)

theorem Sys2Proof.Laws.Encoding.mst (pg : BitVec 2) (d : Fld) (b : Fld) : Sys2Proof.Laws.Encoding.Statement (.mst pg d b) :=
  fun _ _ => of_parts rfl ((zero_eq 0x33 0 pg d 0 b (by decide) (by decide)).trans rfl)

theorem Sys2Proof.Laws.Encoding.mld (pg : BitVec 2) (d : Fld) (b : Fld) : Sys2Proof.Laws.Encoding.Statement (.mld pg d b) :=
  fun _ _ => of_parts rfl ((zero_eq 0x33 1 pg d 0 b (by decide) (by decide)).trans rfl)

theorem Sys2Proof.Laws.Encoding.mrd (pg : BitVec 2) (d : Fld) (a : Fld) (b : Fld) : Sys2Proof.Laws.Encoding.Statement (.mrd pg d a b) :=
  fun _ _ => of_parts rfl ((zero_eq 0x33 2 pg d a b (by decide) (by decide)).trans rfl)

theorem Sys2Proof.Laws.Encoding.mwr (pg : BitVec 2) (d : Fld) (a : Fld) (b : Fld) : Sys2Proof.Laws.Encoding.Statement (.mwr pg d a b) :=
  fun _ _ => of_parts rfl ((zero_eq 0x33 3 pg d a b (by decide) (by decide)).trans rfl)

theorem Sys2Proof.Laws.Encoding.spawn (d : Fld) (a : Fld) (b : Fld) : Sys2Proof.Laws.Encoding.Statement (.spawn d a b) :=
  fun _ _ => of_parts rfl rfl

theorem Sys2Proof.Laws.Encoding.gbar (id : Fld) : Sys2Proof.Laws.Encoding.Statement (.gbar id) :=
  fun _ _ => of_parts rfl rfl

theorem Sys2Proof.Laws.Encoding.tend : Sys2Proof.Laws.Encoding.Statement .tend :=
  fun _ _ => of_parts rfl rfl

theorem Sys2Proof.Laws.Encoding.tyield : Sys2Proof.Laws.Encoding.Statement .tyield :=
  fun _ _ => of_parts rfl rfl

theorem Sys2Proof.Laws.Encoding.copy (d : Fld) (a : Fld) : Sys2Proof.Laws.Encoding.Statement (.copy d a) :=
  fun _ _ => of_parts rfl rfl

theorem Sys2Proof.Laws.Encoding.copyp (d : Fld) (a : Fld) : Sys2Proof.Laws.Encoding.Statement (.copyp d a) :=
  fun _ _ => of_parts rfl rfl

theorem Sys2Proof.Laws.Encoding.coll (d : Fld) (a : Fld) (b : Fld) : Sys2Proof.Laws.Encoding.Statement (.coll d a b) :=
  fun _ _ => of_parts rfl rfl

theorem Sys2Proof.Laws.Encoding.gate (d : Fld) (a : Fld) (b : Fld) : Sys2Proof.Laws.Encoding.Statement (.gate d a b) :=
  fun _ _ => of_parts rfl rfl

theorem Sys2Proof.Laws.Encoding.cinc (d : Fld) (a : Fld) (b : Fld) : Sys2Proof.Laws.Encoding.Statement (.cinc d a b) :=
  fun _ _ => of_parts rfl rfl

theorem Sys2Proof.Laws.Encoding.cwait (sc : Fld) (a : Fld) (b : Fld) : Sys2Proof.Laws.Encoding.Statement (.cwait sc a b) :=
  fun _ _ => of_parts rfl rfl

theorem Sys2Proof.Laws.Encoding.cset (d : Fld) (a : Fld) (b : Fld) : Sys2Proof.Laws.Encoding.Statement (.cset d a b) :=
  fun _ _ => of_parts rfl rfl

theorem Sys2Proof.Laws.Encoding.cread (d : Fld) (a : Fld) : Sys2Proof.Laws.Encoding.Statement (.cread d a) :=
  fun _ _ => of_parts rfl rfl

theorem Sys2Proof.Laws.Encoding.pwait (sc : Fld) (a : Fld) (b : Fld) : Sys2Proof.Laws.Encoding.Statement (.pwait sc a b) :=
  fun _ _ => of_parts rfl rfl

theorem Sys2Proof.Laws.Encoding.dcDiscard (d : Fld) (a : Fld) (b : Fld) : Sys2Proof.Laws.Encoding.Statement (.dcDiscard d a b) :=
  fun _ _ => of_parts rfl rfl

theorem Sys2Proof.Laws.Encoding.dcFlush (a : Fld) (b : Fld) : Sys2Proof.Laws.Encoding.Statement (.dcFlush a b) :=
  fun _ _ => of_parts rfl rfl

theorem Sys2Proof.Laws.Encoding.dcInval (a : Fld) (b : Fld) : Sys2Proof.Laws.Encoding.Statement (.dcInval a b) :=
  fun _ _ => of_parts rfl rfl

theorem Sys2Proof.Laws.Encoding.thint (cls : Rcl) (a : Fld) (b : Fld) : Sys2Proof.Laws.Encoding.Statement (.thint cls a b) :=
  fun _ _ => by
  cases cls <;> exact of_parts rfl rfl

theorem Sys2Proof.Laws.Encoding.feSet (a : Fld) (b : Fld) : Sys2Proof.Laws.Encoding.Statement (.feSet a b) :=
  fun _ _ => of_parts rfl rfl

theorem Sys2Proof.Laws.Encoding.feClr (a : Fld) (b : Fld) : Sys2Proof.Laws.Encoding.Statement (.feClr a b) :=
  fun _ _ => of_parts rfl rfl

theorem Sys2Proof.Laws.Encoding.illegalWord (w : BitVec 32) : Sys2Proof.Laws.Encoding.Statement (.illegalWord w) :=
  fun _ h => absurd h Bool.false_ne_true

theorem Sys2Proof.Laws.Encoding.launch (q : Nat) (whole : Bool) (rec : BitVec 512) : Sys2Proof.Laws.Encoding.Statement (.launch q whole rec) :=
  fun _ h => absurd h Bool.false_ne_true

theorem Sys2Proof.Laws.Encoding.enSet (q : Nat) : Sys2Proof.Laws.Encoding.Statement (.enSet q) :=
  fun _ h => absurd h Bool.false_ne_true

theorem Sys2Proof.Laws.Encoding.enClear (q : Nat) : Sys2Proof.Laws.Encoding.Statement (.enClear q) :=
  fun _ h => absurd h Bool.false_ne_true

theorem Sys2Proof.Laws.Encoding.preempt (q : Nat) : Sys2Proof.Laws.Encoding.Statement (.preempt q) :=
  fun _ h => absurd h Bool.false_ne_true

theorem Sys2Proof.Laws.Encoding.registerWrite (page : HostPage) (off : Nat) (val : Word) : Sys2Proof.Laws.Encoding.Statement (.registerWrite page off val) :=
  fun _ h => absurd h Bool.false_ne_true

theorem Sys2Proof.Laws.Encoding.boot (die : Nat) (c : Cmd) : Sys2Proof.Laws.Encoding.Statement (.boot die c) :=
  fun _ h => absurd h Bool.false_ne_true

theorem Sys2Proof.Laws.Encoding.fmode (die : Nat) (c : Cmd) : Sys2Proof.Laws.Encoding.Statement (.fmode die c) :=
  fun _ h => absurd h Bool.false_ne_true

theorem Sys2Proof.Laws.Encoding.pool (die : Nat) (c : Cmd) : Sys2Proof.Laws.Encoding.Statement (.pool die c) :=
  fun _ h => absurd h Bool.false_ne_true

theorem Sys2Proof.Laws.Encoding.dplist (die : Nat) (c : Cmd) : Sys2Proof.Laws.Encoding.Statement (.dplist die c) :=
  fun _ h => absurd h Bool.false_ne_true

theorem Sys2Proof.Laws.Encoding.pmset (die : Nat) (c : Cmd) : Sys2Proof.Laws.Encoding.Statement (.pmset die c) :=
  fun _ h => absurd h Bool.false_ne_true

theorem Sys2Proof.Laws.Encoding.inval (die : Nat) (c : Cmd) : Sys2Proof.Laws.Encoding.Statement (.inval die c) :=
  fun _ h => absurd h Bool.false_ne_true

theorem Sys2Proof.Laws.Encoding.fence (die : Nat) (c : Cmd) : Sys2Proof.Laws.Encoding.Statement (.fence die c) :=
  fun _ h => absurd h Bool.false_ne_true

theorem Sys2Proof.Laws.Encoding.reset (die : Nat) (c : Cmd) : Sys2Proof.Laws.Encoding.Statement (.reset die c) :=
  fun _ h => absurd h Bool.false_ne_true

theorem Sys2Proof.Laws.Encoding.keyreg (die : Nat) (c : Cmd) : Sys2Proof.Laws.Encoding.Statement (.keyreg die c) :=
  fun _ h => absurd h Bool.false_ne_true

theorem Sys2Proof.Laws.Encoding.load (die : Nat) (c : Cmd) : Sys2Proof.Laws.Encoding.Statement (.load die c) :=
  fun _ h => absurd h Bool.false_ne_true

theorem Sys2Proof.Laws.Encoding.ckpt (die : Nat) (c : Cmd) : Sys2Proof.Laws.Encoding.Statement (.ckpt die c) :=
  fun _ h => absurd h Bool.false_ne_true

theorem Sys2Proof.Laws.Encoding.restore (die : Nat) (c : Cmd) : Sys2Proof.Laws.Encoding.Statement (.restore die c) :=
  fun _ h => absurd h Bool.false_ne_true

theorem Sys2Proof.Laws.Encoding.quote (die : Nat) (c : Cmd) : Sys2Proof.Laws.Encoding.Statement (.quote die c) :=
  fun _ h => absurd h Bool.false_ne_true

theorem Sys2Proof.Laws.Encoding.evtailWrite (die : Nat) (val : Word) : Sys2Proof.Laws.Encoding.Statement (.evtailWrite die val) :=
  fun _ h => absurd h Bool.false_ne_true

theorem Sys2Proof.Laws.Encoding.resume (die : Nat) (q : Nat) (seq : Nat) : Sys2Proof.Laws.Encoding.Statement (.resume die q seq) :=
  fun _ h => absurd h Bool.false_ne_true

theorem Sys2Proof.Laws.Encoding.kill (die : Nat) (q : Nat) (seq : Nat) : Sys2Proof.Laws.Encoding.Statement (.kill die q seq) :=
  fun _ h => absurd h Bool.false_ne_true

theorem Sys2Proof.Laws.Encoding.cancel (die : Nat) (q : Nat) (seq : Nat) : Sys2Proof.Laws.Encoding.Statement (.cancel die q seq) :=
  fun _ h => absurd h Bool.false_ne_true

theorem Sys2Proof.Laws.Encoding.place (die : Nat) (slot : Nat) (cluster : Nat) (mask : Nat) : Sys2Proof.Laws.Encoding.Statement (.place die slot cluster mask) :=
  fun _ h => absurd h Bool.false_ne_true

theorem Sys2Proof.Laws.Encoding.postread (die : Nat) (val : Word) : Sys2Proof.Laws.Encoding.Statement (.postread die val) :=
  fun _ h => absurd h Bool.false_ne_true

theorem Sys2Proof.Laws.Encoding.postRingConfig (die : Nat) (base : Bool) (val : Word) : Sys2Proof.Laws.Encoding.Statement (.postRingConfig die base val) :=
  fun _ h => absurd h Bool.false_ne_true

theorem Sys2Proof.Laws.Encoding.hdone (die : Nat) (step : Nat) (stepNo : Nat) (tiles : Nat) : Sys2Proof.Laws.Encoding.Statement (.hdone die step stepNo tiles) :=
  fun _ h => absurd h Bool.false_ne_true

theorem Sys2Proof.Laws.Encoding.cxlMemWrite (pa : Nat) (bytes : List Byte) : Sys2Proof.Laws.Encoding.Statement (.cxlMemWrite pa bytes) :=
  fun _ h => absurd h Bool.false_ne_true

theorem Sys2Proof.Laws.Encoding.cxlMemRead (pa : Nat) (n : Nat) : Sys2Proof.Laws.Encoding.Statement (.cxlMemRead pa n) :=
  fun _ h => absurd h Bool.false_ne_true

theorem Sys2Proof.Laws.Encoding.powerRail (die : Nat) (rail : Rail) (up : Bool) : Sys2Proof.Laws.Encoding.Statement (.powerRail die rail up) :=
  fun _ h => absurd h Bool.false_ne_true

theorem Sys2Proof.Laws.Encoding.cdResetN (die : Nat) (released : Bool) : Sys2Proof.Laws.Encoding.Statement (.cdResetN die released) :=
  fun _ h => absurd h Bool.false_ne_true

theorem Sys2Proof.Laws.Encoding.flitReceive (port : Nat) (flit : BitVec 2048) : Sys2Proof.Laws.Encoding.Statement (.flitReceive port flit) :=
  fun _ h => absurd h Bool.false_ne_true

theorem Sys2Proof.Laws.Encoding.thermalThrottle (die : Nat) (on : Bool) : Sys2Proof.Laws.Encoding.Statement (.thermalThrottle die on) :=
  fun _ h => absurd h Bool.false_ne_true

theorem Sys2Proof.Laws.Encoding.thermalTrip (die : Nat) : Sys2Proof.Laws.Encoding.Statement (.thermalTrip die) :=
  fun _ h => absurd h Bool.false_ne_true

theorem Sys2Proof.Laws.Encoding.uncorrectableError (e : HwError) : Sys2Proof.Laws.Encoding.Statement (.uncorrectableError e) :=
  fun _ h => absurd h Bool.false_ne_true

theorem Sys2Proof.Laws.Encoding.watchdog (gang : Nat) : Sys2Proof.Laws.Encoding.Statement (.watchdog gang) :=
  fun _ h => absurd h Bool.false_ne_true

theorem Sys2Proof.Laws.Encoding.aging (die : Nat) : Sys2Proof.Laws.Encoding.Statement (.aging die) :=
  fun _ h => absurd h Bool.false_ne_true

theorem Sys2Proof.Laws.Encoding.lend (die : Nat) : Sys2Proof.Laws.Encoding.Statement (.lend die) :=
  fun _ h => absurd h Bool.false_ne_true

theorem Sys2Proof.Laws.Encoding.pageModeEpoch (die : Nat) : Sys2Proof.Laws.Encoding.Statement (.pageModeEpoch die) :=
  fun _ h => absurd h Bool.false_ne_true

theorem Sys2Proof.Laws.Encoding.roundAutoClose (core : Nat) : Sys2Proof.Laws.Encoding.Statement (.roundAutoClose core) :=
  fun _ h => absurd h Bool.false_ne_true

theorem Sys2Proof.Laws.Encoding.dispatch (die : Nat) : Sys2Proof.Laws.Encoding.Statement (.dispatch die) :=
  fun _ h => absurd h Bool.false_ne_true

theorem Sys2Proof.Laws.Encoding.nodeRecordRead (die : Nat) : Sys2Proof.Laws.Encoding.Statement (.nodeRecordRead die) :=
  fun _ h => absurd h Bool.false_ne_true

theorem Sys2Proof.Laws.Encoding.descriptorBlockLoad (gang : Nat) : Sys2Proof.Laws.Encoding.Statement (.descriptorBlockLoad gang) :=
  fun _ h => absurd h Bool.false_ne_true

theorem Sys2Proof.Laws.Encoding.gangHalt (gang : Nat) : Sys2Proof.Laws.Encoding.Statement (.gangHalt gang) :=
  fun _ h => absurd h Bool.false_ne_true

theorem Sys2Proof.Laws.Encoding.gangSave (gang : Nat) : Sys2Proof.Laws.Encoding.Statement (.gangSave gang) :=
  fun _ h => absurd h Bool.false_ne_true

theorem Sys2Proof.Laws.Encoding.contextRestore (gang : Nat) : Sys2Proof.Laws.Encoding.Statement (.contextRestore gang) :=
  fun _ h => absurd h Bool.false_ne_true

theorem Sys2Proof.Laws.Encoding.gangRetirement (gang : Nat) : Sys2Proof.Laws.Encoding.Statement (.gangRetirement gang) :=
  fun _ h => absurd h Bool.false_ne_true

theorem Sys2Proof.Laws.Encoding.taskCompletion (die : Nat) (slot : Nat) : Sys2Proof.Laws.Encoding.Statement (.taskCompletion die slot) :=
  fun _ h => absurd h Bool.false_ne_true

theorem Sys2Proof.Laws.Encoding.graphCompletion (graph : Nat) : Sys2Proof.Laws.Encoding.Statement (.graphCompletion graph) :=
  fun _ h => absurd h Bool.false_ne_true

theorem Sys2Proof.Laws.Encoding.overflowReturn (q : Nat) : Sys2Proof.Laws.Encoding.Statement (.overflowReturn q) :=
  fun _ h => absurd h Bool.false_ne_true

theorem Sys2Proof.Laws.Encoding.engineCompletion (die : Nat) (eng : Nat) : Sys2Proof.Laws.Encoding.Statement (.engineCompletion die eng) :=
  fun _ h => absurd h Bool.false_ne_true

theorem Sys2Proof.Laws.Encoding.engineFault (die : Nat) (eng : Nat) : Sys2Proof.Laws.Encoding.Statement (.engineFault die eng) :=
  fun _ h => absurd h Bool.false_ne_true

theorem Sys2Proof.Laws.Encoding.gateRecordTake (die : Nat) (step : Nat) : Sys2Proof.Laws.Encoding.Statement (.gateRecordTake die step) :=
  fun _ h => absurd h Bool.false_ne_true

theorem Sys2Proof.Laws.Encoding.reservationRequest (die : Nat) : Sys2Proof.Laws.Encoding.Statement (.reservationRequest die) :=
  fun _ h => absurd h Bool.false_ne_true

theorem Sys2Proof.Laws.Encoding.closingCount (die : Nat) (src : Nat) : Sys2Proof.Laws.Encoding.Statement (.closingCount die src) :=
  fun _ h => absurd h Bool.false_ne_true

theorem Sys2Proof.Laws.Encoding.capacityGrant (die : Nat) (step : Nat) : Sys2Proof.Laws.Encoding.Statement (.capacityGrant die step) :=
  fun _ h => absurd h Bool.false_ne_true

theorem Sys2Proof.Laws.Encoding.recordPost (q : Nat) : Sys2Proof.Laws.Encoding.Statement (.recordPost q) :=
  fun _ h => absurd h Bool.false_ne_true

theorem Sys2Proof.Laws.Encoding.loStoreArrival (i : Nat) : Sys2Proof.Laws.Encoding.Statement (.loStoreArrival i) :=
  fun _ h => absurd h Bool.false_ne_true

theorem Sys2Proof.Laws.Encoding.writeBackArrival (core : Nat) (line : Nat) : Sys2Proof.Laws.Encoding.Statement (.writeBackArrival core line) :=
  fun _ h => absurd h Bool.false_ne_true

theorem Sys2Proof.Laws.Encoding.releaseQuery (core : Nat) (round : Nat) (unit : Nat) : Sys2Proof.Laws.Encoding.Statement (.releaseQuery core round unit) :=
  fun _ h => absurd h Bool.false_ne_true

theorem Sys2Proof.Laws.Encoding.releaseCompletion (core : Nat) (round : Nat) : Sys2Proof.Laws.Encoding.Statement (.releaseCompletion core round) :=
  fun _ h => absurd h Bool.false_ne_true

theorem Sys2Proof.Laws.Encoding.pageWalk (die : Nat) (q : Nat) (va : Nat) (acc : Acc) : Sys2Proof.Laws.Encoding.Statement (.pageWalk die q va acc) :=
  fun _ h => absurd h Bool.false_ne_true

theorem Sys2Proof.Laws.Encoding.waitWake (core : Nat) (slot : Nat) : Sys2Proof.Laws.Encoding.Statement (.waitWake core slot) :=
  fun _ h => absurd h Bool.false_ne_true

theorem Sys2Proof.Laws.Encoding.checkpointCopy : Sys2Proof.Laws.Encoding.Statement .checkpointCopy :=
  fun _ h => absurd h Bool.false_ne_true

theorem Sys2Proof.Laws.Encoding.debugHaltStep (die : Nat) (core : Nat) (slot : Nat) (op : DebugOp) : Sys2Proof.Laws.Encoding.Statement (.debugHaltStep die core slot op) :=
  fun _ h => absurd h Bool.false_ne_true
end

