-- ==== Sys2Proof/Safety.lean ====
section
/-! DEFINITION. The words in which the statements are made: results written from the rules of spec/ apart from the
meanings, memory as one core sees it, what a group of elements holds after an instruction, and the invariants. -/

namespace Sys2Proof.Machine

/-! ### Scalar results (R94 to R97) -/

/-- The FP32 code of the FP16 or BF16 value of a literal; NaN becomes quiet and keeps its payload (R75, R97). -/
def literalFp32 (k : FlimmKind) (imm : Nat) : Nat :=
  match k with
  | .i16 => 0
  | .bf16 =>
    imm * 65536 + (if imm / 128 % 256 = 255 ∧ imm % 128 ≠ 0 ∧ imm / 64 % 2 = 0 then 2 ^ 22 else 0)
  | .fp16 =>
    let sign := imm / 32768 * 2 ^ 31
    let e := imm / 1024 % 32
    let m := imm % 1024
    if e = 31 then sign + 255 * 2 ^ 23 + m * 2 ^ 13 + (if m ≠ 0 ∧ m < 512 then 2 ^ 22 else 0)
    else if e = 0 then
      if m = 0 then sign
      else sign + (Nat.log2 m + 103) * 2 ^ 23 + (m - 2 ^ Nat.log2 m) * 2 ^ (23 - Nat.log2 m)
    else sign + (e + 112) * 2 ^ 23 + m * 2 ^ 13

/-- Destination field and value of the register and immediate forms of R94 to R97, from the rules' own words. -/
def scalarValue (i : Instr) (v : Vlc) : Option (Fld × Word) :=
  let x (f : Fld) : Word := v.rx f
  let amount (w : Word) : Nat := (w.extractLsb' 0 6).toNat
  let bit (b : Bool) : Word := if b then 1 else 0
  let sx (imm : BitVec 12) : Word := imm.signExtend 64
  let zx (imm : BitVec 12) : Word := imm.zeroExtend 64
  match i with
  | .add d a b => some (d, x a + x b)
  | .sub d a b => some (d, x a - x b)
  | .and d a b => some (d, x a &&& x b)
  | .or d a b => some (d, x a ||| x b)
  | .xor d a b => some (d, x a ^^^ x b)
  | .shl d a b => some (d, x a <<< amount (x b))
  | .shr d a b => some (d, x a >>> amount (x b))
  | .sar d a b => some (d, (x a).sshiftRight (amount (x b)))
  | .cmplt d a b => some (d, bit ((x a).slt (x b)))
  | .cmpltn d a b => some (d, bit ((x a).ult (x b)))
  | .mul d a b => some (d, x a * x b)
  | .mulh d a b => some (d, ((x a).signExtend 128 * (x b).signExtend 128).extractLsb' 64 64)
  | .mulhn d a b => some (d, ((x a).zeroExtend 128 * (x b).zeroExtend 128).extractLsb' 64 64)
  | .div d a b => some (d, if x b = 0 then BitVec.allOnes 64 else (x a).sdiv (x b))
  | .divn d a b => some (d, if x b = 0 then BitVec.allOnes 64 else x a / x b)
  | .rem d a b => some (d, if x b = 0 then x a else (x a).srem (x b))
  | .remn d a b => some (d, if x b = 0 then x a else x a % x b)
  | .min d a b => some (d, if (x a).slt (x b) then x a else x b)
  | .max d a b => some (d, if (x a).slt (x b) then x b else x a)
  | .minn d a b => some (d, if (x a).ult (x b) then x a else x b)
  | .maxn d a b => some (d, if (x a).ult (x b) then x b else x a)
  | .clz d a => some (d, BitVec.ofNat 64 (((List.range 64).find? fun k => (x a).getLsbD (63 - k)).getD 64))
  | .ctz d a => some (d, BitVec.ofNat 64 (((List.range 64).find? fun k => (x a).getLsbD k).getD 64))
  | .popc d a => some (d, BitVec.ofNat 64 ((List.range 64).filter fun k => (x a).getLsbD k).length)
  | .addi d a imm => some (d, x a + sx imm)
  | .andi d a imm => some (d, x a &&& zx imm)
  | .ori d a imm => some (d, x a ||| zx imm)
  | .xori d a imm => some (d, x a ^^^ zx imm)
  | .cmplti d a imm => some (d, bit ((x a).slt (sx imm)))
  | .shli d a sh => some (d, x a <<< sh.toNat)
  | .shri d a sh => some (d, x a >>> sh.toNat)
  | .sari d a sh => some (d, (x a).sshiftRight sh.toNat)
  | .lui d imm => some (d, (imm ++ (0 : BitVec 12)).signExtend 64)
  | .auipc d imm => some (d, v.pc + (imm ++ (0 : BitVec 12)).signExtend 64)
  | .flimm .i16 d imm => some (d, imm.signExtend 64)
  | .flimm k d imm => some (d, BitVec.ofNat 64 (literalFp32 k imm.toNat))
  | _ => none

/-- Whether a branch is taken, and its offset in words (R98). -/
def branchOf (i : Instr) (v : Vlc) : Option (Bool × BitVec 12) :=
  let x (f : Fld) : Word := v.rx f
  match i with
  | .beq a b imm => some (decide (x a = x b), imm)
  | .bne a b imm => some (decide (x a ≠ x b), imm)
  | .blt a b imm => some ((x a).slt (x b), imm)
  | .bge a b imm => some (!(x a).slt (x b), imm)
  | .bltn a b imm => some ((x a).ult (x b), imm)
  | .bgen a b imm => some (!(x a).ult (x b), imm)
  | _ => none

/-! ### Tables -/

/-- Every sparse table of the state is in canonical form: keys strictly rising, no entry at its default. -/
abbrev TablesOk (s : State) : Prop :=
  Memory.wf s.mem = true ∧ Tab.wf CoreSt.reset s.cores = true ∧ Tab.wf LoTag.reset s.lo = true ∧ Tab.wf 0 s.arrivals = true ∧
  Tab.wf PageMode.reset s.modes = true ∧ Tab.wf QueuePage.reset s.queues = true ∧ Tab.wf QueuePerf.reset s.perf = true ∧
  Tab.wf [] s.demand = true ∧ Tab.wf CloseCell.reset s.closing = true ∧ Tab.wf [] s.keys = true

/-! ### Memory as a core sees it (R6, R193, R221 to R224) -/

/-- The byte of an address that the newest of the core's own write-backs in transit carries, if one does (R257). -/
def inTransit (s : State) (core a : Nat) : Option Byte :=
  ((s.writeBacks.filter fun w => w.core == l1Core s core a && w.held.line == a / 128 && w.held.dirty.getLsbD (a % 128)).getLast?).map
    fun w => w.held.data.extractLsb' (8 * (a % 128)) 8

/-- The byte of an address below the core's L1: one of its own in transit, else the byte at its home. -/
def belowL1 (s : State) (core a : Nat) : Byte := (inTransit s core a).getD (memByte s.mem a)

/-- One byte at a place: a valid byte of the core's L1 line, else the byte below it. -/
def seenByte (s : State) (core : Nat) (d : Dest) (k : Nat) : Byte :=
  match d with
  | .ls c off => memByte s.mem (lsAddr c off + k)
  | .phys pa kind =>
    if placeOf pa = .device ∧ kind ≠ 3 then
      match findLine s core (pa + k) with
      | some l =>
        if l.valid.getLsbD ((pa + k) % 128) then l.data.extractLsb' (8 * ((pa + k) % 128)) 8 else belowL1 s core (pa + k)
      | none => belowL1 s core (pa + k)
    else memByte s.mem (pa + k)

/-- `n` bytes at a place as a little-endian number. -/
def seen (s : State) (core : Nat) (d : Dest) : Nat → Nat
  | 0 => 0
  | n + 1 => seen s core d n + (seenByte s core d n).toNat * 256 ^ n

/-- What an access that bypasses the L1 finds: the core's own bytes reach the home first (R222). -/
def homeByte (s : State) (core : Nat) (d : Dest) (k : Nat) : Byte :=
  match d with
  | .ls c off => memByte s.mem (lsAddr c off + k)
  | .phys pa kind =>
    if placeOf pa = .device ∧ kind ≠ 3 then
      match findLine s core (pa + k) with
      | some l =>
        if l.dirty.getLsbD ((pa + k) % 128) then l.data.extractLsb' (8 * ((pa + k) % 128)) 8 else belowL1 s core (pa + k)
      | none => belowL1 s core (pa + k)
    else memByte s.mem (pa + k)

def homeNat (s : State) (core : Nat) (d : Dest) : Nat → Nat
  | 0 => 0
  | n + 1 => homeNat s core d n + (homeByte s core d n).toNat * 256 ^ n

/-- Two states differ in caches, what the caches have in transit, their counters and page-mode counters alone. -/
def OnlyCaches (s t : State) : Prop :=
  t = { s with
    cores := t.cores, l2 := t.l2, modes := t.modes, perf := t.perf, writeBacks := t.writeBacks, snoops := t.snoops
    arrivals := t.arrivals } ∧
  ∀ c, t.core c = { s.core c with
    l1 := (t.core c).l1, l1miss := (t.core c).l1miss, sent := (t.core c).sent, round := (t.core c).round }

/-- No update of an SO line is on its way to the L1s that serve a core (R193). -/
def NoSnoops (s : State) (core : Nat) : Prop := ∀ x ∈ s.snoops, x.core ∉ l1Cores s core

/-- The SO lines of the L1s that serve a core hold no dirty byte: an SO store is performed at the home (R193, R221). -/
def SoClean (s : State) (core : Nat) : Prop := ∀ c ∈ l1Cores s core, ∀ l ∈ (s.core c).l1, l.so = true → l.dirty = 0

/-- No entry of a VLC's queue accesses memory (R38, R40). -/
abbrev NoVectorAccess (v : Vlc) : Prop := ∀ e ∈ v.vq, accessesMemory e.i = false

/-- No sector is poisoned, and no dirty byte of a line is damaged (R199). -/
def NoPoison (s : State) : Prop :=
  s.poison = [] ∧ (∀ c, ∀ l ∈ (s.core c).l1, l.bad = 0) ∧ ∀ w ∈ s.writeBacks, w.held.bad = 0

/-- A core sees at every place what stands at its home, its own bytes included. -/
def Coherent (s : State) (core : Nat) : Prop :=
  NoSnoops s core ∧ NoPoison s ∧ ∀ d k, seenByte s core d k = homeByte s core d k

/-- The number that `n` bytes at a place read as: each byte as the core sees it, or, where its L1 gives up the line meanwhile, as it
stands at the home (R193). -/
def ReadsOf (s : State) (core : Nat) (d : Dest) (n x : Nat) : Prop :=
  x < 256 ^ n ∧ ∀ k, k < n →
    let b : Byte := BitVec.ofNat 8 (x / 256 ^ k)
    b = seenByte s core d k ∨ b = homeByte s core d k

/-- The registers of a VLC: everything but the pc, what it waits for and the state of its plans. -/
def SameRegisters (v w : Vlc) : Prop :=
  w = { v with
    pc := w.pc, status := w.status, plans := w.plans, queuedWait := w.queuedWait, vwait := w.vwait, barrier := w.barrier }

/-! ### Scalar memory forms (R223, R224, R241) -/

/-- Width, sign extension, destination and address of a scalar load. -/
def loadForm (i : Instr) (v : Vlc) : Option (Nat × Bool × Fld × Word) :=
  let at' (n : Nat) (a : Fld) (imm : BitVec 9) : Word := v.rx a + imm.signExtend 64 * BitVec.ofNat 64 n
  match i with
  | .ldI8 d a imm => some (1, true, d, at' 1 a imm)
  | .ldN8 d a imm => some (1, false, d, at' 1 a imm)
  | .ldI16 d a imm => some (2, true, d, at' 2 a imm)
  | .ldN16 d a imm => some (2, false, d, at' 2 a imm)
  | .ldI32 d a imm => some (4, true, d, at' 4 a imm)
  | .ldN32 d a imm => some (4, false, d, at' 4 a imm)
  | .ld64 d a imm => some (8, false, d, at' 8 a imm)
  | _ => none

/-- Width, source and address of a scalar store. -/
def storeForm (i : Instr) (v : Vlc) : Option (Nat × Fld × Word) :=
  let at' (n : Nat) (a : Fld) (imm : BitVec 10) : Word := v.rx a + imm.signExtend 64 * BitVec.ofNat 64 n
  match i with
  | .st8 b a imm => some (1, b, at' 1 a imm)
  | .st16 b a imm => some (2, b, at' 2 a imm)
  | .st32 b a imm => some (4, b, at' 4 a imm)
  | .st64 b a imm => some (8, b, at' 8 a imm)
  | _ => none

/-- A value of `n` bytes in a 64-bit register. -/
def widened (n : Nat) (signExt : Bool) (v : Nat) : Word :=
  if signExt ∧ 2 ^ (8 * n - 1) ≤ v then BitVec.ofNat 64 v - BitVec.ofNat 64 (2 ^ (8 * n)) else BitVec.ofNat 64 v

/-- An atomic: width, sign extension of the old value, its fields, and the new value from the old one, the operand and
the expected value, all of the width (R241). -/
def atomicForm (i : Instr) : Option (Nat × Bool × Fld × Fld × Fld × (Nat → Nat → Nat → Nat)) :=
  let n (w32 : Bool) : Nat := if w32 then 4 else 8
  let signed' (w32 : Bool) (v : Nat) : Int := if 2 * v < 2 ^ (8 * n w32) then (v : Int) else (v : Int) - 2 ^ (8 * n w32)
  match i with
  | .amoAdd w d a b => some (n w, w, d, a, b, fun o x _ => (o + x) % 2 ^ (8 * n w))
  | .amoAnd w d a b => some (n w, w, d, a, b, fun o x _ => o &&& x)
  | .amoOr w d a b => some (n w, w, d, a, b, fun o x _ => o ||| x)
  | .amoXor w d a b => some (n w, w, d, a, b, fun o x _ => o ^^^ x)
  | .amoMin w d a b => some (n w, w, d, a, b, fun o x _ => if signed' w o ≤ signed' w x then o else x)
  | .amoMax w d a b => some (n w, w, d, a, b, fun o x _ => if signed' w o ≤ signed' w x then x else o)
  | .amoMinn w d a b => some (n w, false, d, a, b, fun o x _ => Nat.min o x)
  | .amoMaxn w d a b => some (n w, false, d, a, b, fun o x _ => Nat.max o x)
  | .amoSwap w d a b => some (n w, w, d, a, b, fun _ x _ => x)
  | .amoCas w d a b => some (n w, w, d, a, b, fun o x e => if o = e then x else o)
  | .amoFadd d a b => some (4, false, d, a, b, fun o x _ => (finish .fp32 0 (addVal 0 (fpVal .fp32 o) (fpVal .fp32 x))).1)
  | .amoFmax d a b => some (4, false, d, a, b, fun o x _ => (minMaxFp .fp32 true o x).1)
  | .amoFmin d a b => some (4, false, d, a, b, fun o x _ => (minMaxFp .fp32 false o x).1)
  | _ => none

/-! ### Strip loops (R146, R147) -/

/-- The word after the body of a loop. -/
def Loop.after (l : Loop) : Word := l.start + BitVec.ofNat 64 (4 * l.len)

/-- Elements of the next strip when `rem` are left: VLMAX, or the even share of the strips that are left (R146). -/
def stripShare (balanced : Bool) (vlmax rem : Nat) : Nat :=
  if balanced then (rem + (rem + vlmax - 1) / vlmax - 1) / ((rem + vlmax - 1) / vlmax) else Nat.min rem vlmax

/-! ### Control registers (R100 to R110) -/

/-- The bits of a writable control register that a write reaches. -/
def ctlMask (n : Nat) : Word :=
  if 0x20 ≤ n ∧ n ≤ 0x2F then BitVec.allOnes 64
  else match n with
    | 0x02 => 0x1FFF
    | 0x05 => 0x7
    | 0x10 => 0xFF
    | 0x11 => 0xFF
    | 0x18 => 0x7F
    | 0x19 => 0x7
    | 0x1A => 0x3F
    | 0x40 => 0xFFFFFFFF
    | 0x48 => 0x1FF
    | 0x49 => 0x00FFFFFFFFFFFFFF
    | 0x4A => 0x00FFFFFFFFFFFFFF
    | 0x4B => BitVec.allOnes 64
    | 0x58 => 0x00FFFFFFFFFFFFFD
    | 0x61 => 0x3F
    | _ => 0

/-- The values that the field rules of R52, R72, R104, R107 and R110 accept. -/
def ctlAccepts (s : State) (n : Nat) (w : Word) : Prop :=
  let k := (w &&& ctlMask n).toNat
  match n with
  | 0x05 => k < 6
  | 0x10 => k = 0 ∨ k = 32 ∨ k = 64 ∨ k = 96 ∨ k = 128
  | 0x11 => k = 0 ∨ k = 64 ∨ k = 128
  | 0x19 => k < 5
  | 0x40 => s.vlc.pseq.toNat ≤ k
  | 0x61 => 20 ≤ k ∧ k ≤ 40
  | _ => True

/-- The form, fields and number of a `ctl` instruction. -/
def ctlForm (i : Instr) : Option (CtlForm × Fld × Fld × Nat) :=
  match i with
  | .ctlRd d ctl => some (.rd, d, 0, ctl.toNat)
  | .ctlWr d a ctl => some (.wr, d, a, ctl.toNat)
  | .ctlSet d a ctl => some (.set, d, a, ctl.toNat)
  | .ctlClr d a ctl => some (.clr, d, a, ctl.toNat)
  | _ => none

/-- Numbers that R100 assigns outside firmware. -/
abbrev ctlKnown (n : Nat) : Prop :=
  n ≤ 5 ∨ (8 ≤ n ∧ n ≤ 0xB) ∨ n = 0x10 ∨ n = 0x11 ∨ (0x18 ≤ n ∧ n ≤ 0x1A) ∨ (0x20 ≤ n ∧ n ≤ 0x37) ∨ n = 0x40 ∨
  (0x48 ≤ n ∧ n ≤ 0x4B) ∨ n = 0x50 ∨ n = 0x51 ∨ n = 0x58 ∨ n = 0x60 ∨ n = 0x61 ∨ n = 0x70 ∨ (0x100 ≤ n ∧ n < 0x200)

/-- The read-only ones. -/
abbrev ctlFixed (n : Nat) : Prop :=
  n ≤ 1 ∨ n = 3 ∨ n = 4 ∨ (8 ≤ n ∧ n ≤ 0xB) ∨ (0x30 ≤ n ∧ n ≤ 0x37) ∨ n = 0x50 ∨ n = 0x51 ∨ n = 0x60 ∨ n = 0x70 ∨
  (0x100 ≤ n ∧ n < 0x200)

/-- The numbers on the queue path. -/
abbrev ctlOnQueue (n : Nat) : Prop := n = 0x02 ∨ n = 0x18 ∨ (0x20 ≤ n ∧ n ≤ 0x37) ∨ n = 0x40

/-! ### Instructions of the vector queue (R36, R41, R124, R128, R129) -/

/-- The queue is empty, the vector half moves at once, and the VLC is neither in handler state nor in a loop with P = 1: an
instruction that is enqueued runs at once, and whole. -/
def VecReady (v : Vlc) : Prop :=
  v.vq = [] ∧ v.sched = [] ∧ v.run = none ∧ v.inHandler = false ∧ v.fan = none ∧ ∀ l, v.loop = some l → l.p = false

/-- VL fits VTYPE, no source word is poisoned, and VSTART names an element that is left (R103, R121, R153). -/
def VecRunning (v : Vlc) : Prop :=
  VecReady v ∧ v.vl ≤ vlmaxOf v.vt ∧ v.poison = [] ∧ (v.vstart = 0 ∨ v.vstart.toNat < v.vl)

/-- The end of a queue instruction that changes registers alone: the register file, the flags, VSTART = 0, the next pc, and
the core's count of vector instructions. -/
def VecDone (s t : State) (f : VFile) (fl : BitVec 7) : Prop :=
  t = { s with vlc := { s.vlc.next with vf := f, fflags := fl, vstart := 0 }, cores := t.cores } ∧
  ∀ c, t.core c = if c = s.vlc.core then { s.core c with vcomp := (s.core c).vcomp + 1 } else s.core c

/-- What an element-wise instruction does: its active elements, its destination group, whether its checks pass (R123 to R128), and for an
active element the value (none: not written) and the flags; the flags of its scalar operand; the tag D takes. -/
structure ElemRule where
  act : Nat → Bool
  /-- The first element and the number of elements that the instruction runs over. -/
  start : Nat
  count : Nat
  base : Nat
  w : Nat
  names : Nat
  /-- Elements of the group that the tail reaches. -/
  limit : Nat
  cls : Cls
  ok : Prop
  val : Nat → Option Nat
  fl : Nat → BitVec 7
  sfl : BitVec 7
  tag : BitVec 6

/-- What a tail element holds (R124). -/
def tailValue (t : Vtype) (c : Cls) (w old : Nat) : Nat :=
  match t.tp with
  | .undisturbed => old
  | .agnostic => if c = .e3m2 ∨ c = .e2m3 then 63 else 2 ^ w - 1
  | .dead => 0

/-- What the names of a group and the rest of the register file hold after an element-wise instruction. -/
def GroupHolds (v : Vlc) (r : ElemRule) (f : VFile) : Prop :=
  (∀ i, i < r.count → f.elem r.base r.w i =
    if i < r.start then v.vf.elem r.base r.w i
    else if r.act i then
      match r.val i with
      | some x => (if r.cls = .e3m2 ∨ r.cls = .e2m3 then x % 64 else x) % 2 ^ r.w
      | none => v.vf.elem r.base r.w i
    else if v.vt.mz then 0 else v.vf.elem r.base r.w i) ∧
  (∀ i, r.count ≤ i → i < r.limit → f.elem r.base r.w i =
    if v.vl = 0 then v.vf.elem r.base r.w i else tailValue v.vt r.cls r.w (v.vf.elem r.base r.w i)) ∧
  (∀ n, n < 256 → n < r.base ∨ r.base + r.names ≤ n → f.row n = v.vf.row n ∧ f.dead.getLsbD n = v.vf.dead.getLsbD n) ∧
  (∀ n, n < 256 → f.tagOf n =
    if v.vl ≠ 0 ∧ r.base ≤ n ∧ n < r.base + r.names then r.tag else v.vf.tagOf n) ∧
  f.p = v.vf.p

/-- FFLAGS after it: the flags of each active element from VSTART on, with those of the conversion of its scalar operand (R77, R89,
R91; assumption 64, DESIGN CHOICE: a conversion's flags enter at the commit of each active element). -/
def flagsAfter (v : Vlc) (r : ElemRule) : BitVec 7 :=
  ((List.range r.count).filter fun i => decide (r.start ≤ i) && r.act i).foldl (fun f i => f ||| r.fl i ||| r.sfl) v.fflags

/-- A rule over the elements VSTART to VL - 1 under a guard. -/
def ruleFor (v : Vlc) (pg : BitVec 2) (base w names : Nat) (cls : Cls) (tag : BitVec 6) (sfl : BitVec 7) (ok : Prop)
    (val : Nat → Option Nat) (fl : Nat → BitVec 7) : ElemRule :=
  ⟨fun i => v.active pg i, v.vstart.toNat, v.vl, base, w, names, Nat.min 4096 (names * 2048 / w), cls, ok, val, fl, sfl, tag⟩

/-- A group is aligned to its size (R123). -/
abbrev groupOk (base names : Nat) : Prop := base % names = 0

/-- Two groups share no name (R125). -/
abbrev apart (a an b bn : Nat) : Prop := a + an ≤ b ∨ b + bn ≤ a

/-- The class stands between two codes (R126). -/
abbrev clsRange (c : Cls) (lo hi : Nat) : Prop := lo ≤ clsNum c ∧ clsNum c ≤ hi

/-- A two-operand instruction over groups of GRP names (R130): B a vector or, with `k`, a scalar; `d` names the
accumulating forms, which read D too. -/
def binRule (op : VOp) (lo hi : Nat) (acc keep : Bool) (pg : BitVec 2) (k : Bool) (d a b : Fld) (v : Vlc) : ElemRule :=
  let w := v.vt.sew.bits
  let c := v.vt.cls
  let n := 2 ^ v.vt.grp.val
  let dn := vNum v.winv d
  let an := vNum v.winv a
  let bn := vNum v.winv b
  let x := scalarElem c w (v.rx b)
  let r (i : Nat) := alu op c w v.frm.toNat (v.vf.elem an w i) (if k then x.1 else v.vf.elem bn w i) (if acc then v.vf.elem dn w i else 0)
  (ruleFor v pg dn w n c (if keep then v.vf.tagOf an else 0) (if k then x.2 else 0)
      (clsRange c lo hi ∧ groupOk dn n ∧ groupOk an n ∧ (k = false → groupOk bn n ∧ v.vf.tagOf an = v.vf.tagOf bn) ∧
      (acc = true → v.vf.tagOf an = v.vf.tagOf dn))
      (fun i => some (r i).1)
      (fun i => (r i).2))

/-- The arithmetic rows of R130 and the saturating ones. -/
def arithmeticRule (i : Instr) (v : Vlc) : Option ElemRule :=
  match i with
  | .vadd pg k d a b => some (binRule .add 0 4 false (!k) pg k d a b v)
  | .vsub pg k d a b => some (binRule .sub 0 4 false (!k) pg k d a b v)
  | .vrsub pg k d a b => some (binRule .rsub 0 4 false (!k) pg k d a b v)
  | .vmul pg k d a b => some (binRule .mul 0 4 false k pg k d a b v)
  | .vmin pg k d a b => some (binRule .min 0 4 false false pg k d a b v)
  | .vmax pg k d a b => some (binRule .max 0 4 false false pg k d a b v)
  | .vmulh pg k d a b => some (binRule .mulh 0 1 false false pg k d a b v)
  | .vdiv pg k d a b => some (binRule .div 0 4 false false pg k d a b v)
  | .vand pg k d a b => some (binRule .and 0 9 false false pg k d a b v)
  | .vor pg k d a b => some (binRule .or 0 9 false false pg k d a b v)
  | .vxor pg k d a b => some (binRule .xor 0 9 false false pg k d a b v)
  | .vshl pg k d a b => some (binRule .shl 0 1 false false pg k d a b v)
  | .vshr pg k d a b => some (binRule .shr 0 1 false false pg k d a b v)
  | .vsar pg k d a b => some (binRule .sar 0 1 false false pg k d a b v)
  | .vmacc pg k d a b => some (binRule .macc 0 4 true false pg k d a b v)
  | .vnmsac pg k d a b => some (binRule .nmsac 0 4 true false pg k d a b v)
  | .vsadd pg k d a b => some (binRule .sadd 0 1 false false pg k d a b v)
  | .vssub pg k d a b => some (binRule .ssub 0 1 false false pg k d a b v)
  | _ => none

/-- A widening row of R133: D has elements of 2 × SEW in twice the names. -/
def wideRule (op : VWide) (acc : Bool) (pg : BitVec 2) (k : Bool) (d a b : Fld) (v : Vlc) : ElemRule :=
  let w := v.vt.sew.bits
  let c := v.vt.cls
  let n := 2 ^ v.vt.grp.val
  let dn := vNum v.winv d
  let an := vNum v.winv a
  let bn := vNum v.winv b
  let x := scalarElem c w (v.rx b)
  let r (i : Nat) := wideElem op c w v.frm.toNat (v.vf.elem an w i) (if k then x.1 else v.vf.elem bn w i)
    (if acc then v.vf.elem dn (2 * w) i else 0)
  (ruleFor v pg dn (2 * w) (2 * n) (if c = .i ∨ c = .n then c else .fp32) 0 (if k then x.2 else 0)
      ((c = .i ∨ c = .n ∨ c = .bf16 ∨ c = .fp16) ∧ w ≤ 32 ∧ groupOk dn (2 * n) ∧ groupOk an n ∧ apart dn (2 * n) an n ∧
      (k = false → groupOk bn n ∧ apart dn (2 * n) bn n ∧ v.vf.tagOf an = v.vf.tagOf bn) ∧
      (acc = true → v.vf.tagOf an = v.vf.tagOf dn))
      (fun i => some (r i).1)
      (fun i => (r i).2))

/-- The widening and narrowing rows of R133. -/
def widthRule (i : Instr) (v : Vlc) : Option ElemRule :=
  match i with
  | .vwmacc pg k d a b => some (wideRule .macc true pg k d a b v)
  | .vwadd pg k d a b => some (wideRule .add false pg k d a b v)
  | .vwmul pg k d a b => some (wideRule .mul false pg k d a b v)
  | .vnclip pg k d a b =>
    let w := v.vt.sew.bits
    let c := v.vt.cls
    let n := 2 ^ v.vt.grp.val
    let dn := vNum v.winv d
    let an := vNum v.winv a
    let bn := vNum v.winv b
    let x := scalarElem c w (v.rx b)
    let r (i : Nat) := nclipElem (c == .i) w (v.vf.elem an (2 * w) i) (if k then x.1 else v.vf.elem bn w i)
    some (ruleFor v pg dn w n c 0 (if k then x.2 else 0)
      (clsRange c 0 1 ∧ groupOk dn n ∧ groupOk an (2 * n) ∧ (dn = an ∨ apart dn n an (2 * n)) ∧
             (k = false → groupOk bn n ∧ v.vf.tagOf an = v.vf.tagOf bn))
      (fun i => some (r i).1)
      (fun i => (r i).2))
  | _ => none

/-- A one-operand row: its value from the element of A. -/
def unaryRule (lo hi : Nat) (tag : BitVec 6) (pg : BitVec 2) (d a : Fld) (f : Nat → Nat × BitVec 7) (v : Vlc) : ElemRule :=
  let w := v.vt.sew.bits
  let n := 2 ^ v.vt.grp.val
  let an := vNum v.winv a
  (ruleFor v pg (vNum v.winv d) w n v.vt.cls tag 0
      (clsRange v.vt.cls lo hi ∧ groupOk (vNum v.winv d) n ∧ groupOk an n)
      (fun i => some (f (v.vf.elem an w i)).1)
      (fun i => (f (v.vf.elem an w i)).2))

/-- A permutation: where element i comes from, as an element of A or zero; none leaves it (R137). -/
def permRule (pg : BitVec 2) (d a : Fld) (from' : Nat → Option (Option Nat)) (more : Prop) (v : Vlc) : ElemRule :=
  let w := v.vt.sew.bits
  let n := 2 ^ v.vt.grp.val
  let dn := vNum v.winv d
  let an := vNum v.winv a
  (ruleFor v pg dn w n v.vt.cls 0 0
      (groupOk dn n ∧ groupOk an n ∧ apart dn n an n ∧ more)
      (fun i =>
      match from' i with
      | none => none
      | some none => some 0
      | some (some j) => some (v.vf.elem an w j))
      (fun _ => 0))

/-- The moves, unary operations, permutations, index and scale rows, and `vcvt` where nothing rotates (R131, R134, R137 to
R142). -/
def movementRule (i : Instr) (v : Vlc) : Option ElemRule :=
  let w := v.vt.sew.bits
  let c := v.vt.cls
  let n := 2 ^ v.vt.grp.val
  let frm := v.frm.toNat
  match i with
  | .vsqrt pg d a => some (unaryRule 2 4 0 pg d a (unElem .sqrt c frm) v)
  | .vrsqrte pg d a => some (unaryRule 2 4 0 pg d a (unElem .rsqrte c frm) v)
  | .vrece pg d a => some (unaryRule 2 4 0 pg d a (unElem .rece c frm) v)
  | .vexp2e pg d a => some (unaryRule 2 4 0 pg d a (unElem .exp2e c frm) v)
  | .vmvV pg d a => some (unaryRule 0 9 (v.vf.tagOf (vNum v.winv a)) pg d a (fun x => (x, 0)) v)
  | .vmvVx pg d b =>
    let x := scalarElem c w (v.rx b)
    some (ruleFor v pg (vNum v.winv d) w n c 0 x.2
      (groupOk (vNum v.winv d) n)
      (fun _ => some x.1)
      (fun _ => 0))
  | .vid pg k d b =>
    some (ruleFor v pg (vNum v.winv d) w n c 0 0
      (clsRange c 0 1 ∧ groupOk (vNum v.winv d) n)
      (fun i => some ((if k then (v.rx b).toNat else 0) + i))
      (fun _ => 0))
  | .vmerge pg k d a b =>
    let dn := vNum v.winv d
    let an := vNum v.winv a
    let bn := vNum v.winv b
    let x := scalarElem c w (v.rx b)
    some (ruleFor v 0 dn w n c (if k then 0 else v.vf.tagOf an) 0
      (groupOk dn n ∧ groupOk an n ∧ (k = false → groupOk bn n ∧ v.vf.tagOf an = v.vf.tagOf bn))
      (fun i => some (if v.active pg i then (if k then x.1 else v.vf.elem bn w i) else v.vf.elem an w i))
      (fun i => if k && v.active pg i then x.2 else 0))
  | .vxchg pg d a b => some (permRule pg d a (fun i => some (some (i ^^^ ((v.rx b).toNat % vlmaxOf v.vt)))) True v)
  | .vslup pg d a b =>
    some (permRule pg d a (fun i => if i < (v.rx b).toNat then none else some (some (i - (v.rx b).toNat))) True v)
  | .vsldn pg d a b =>
    some (permRule pg d a (fun i => if i + (v.rx b).toNat < v.vl then some (some (i + (v.rx b).toNat)) else some none) True v)
  | .vperm pg d a b =>
    let bn := vNum v.winv b
    some (permRule pg d a (fun i => if v.vf.elem bn w i < vlmaxOf v.vt then some (some (v.vf.elem bn w i)) else some none)
      (groupOk bn n ∧ apart (vNum v.winv d) n bn n ∧ v.vf.tagOf (vNum v.winv a) = v.vf.tagOf bn) v)
  | .vbscale pg k d a b =>
    let dn := vNum v.winv d
    let an := vNum v.winv a
    let bn := vNum v.winv b
    let ex (i : Nat) : Int := if k then sgn 16 (v.rx b).toNat else sgn 16 (v.vf.elem bn w (i / 128))
    let r (i : Nat) := bscaleElem c frm (v.vf.elem an w i) (ex i)
    some (ruleFor v pg dn w n c 0 0
      (clsRange c 2 4 ∧ groupOk dn n ∧ groupOk an n ∧ (k = false → groupOk bn n ∧ v.vf.tagOf an = v.vf.tagOf bn))
      (fun i => some (r i).1)
      (fun i => (r i).2))
  | .vcvt pg tg d a =>
    let tw := targetBits tg
    let m := Nat.max 1 (n * tw / w)
    let dn := vNum v.winv d
    let an := vNum v.winv a
    let r (i : Nat) := cvtElem c w frm tg (v.vf.elem an w i)
    some (ruleFor v pg dn tw m (targetCls tg) 0 0
      ((v.vf.tagOf an).getLsbD 5 = false ∧
             ¬ (c.isFp = true ∧ (targetCls tg).isFp = true ∧ tw < w ∧ v.rot.getLsbD 5 = true) ∧
             groupOk dn m ∧ groupOk an n ∧ (apart dn m an n ∨ tw = w ∨ tw < w ∧ dn = an))
      (fun i => some (r i).1)
      (fun i => (r i).2))
  | _ => none

/-! ### Compares and predicates (R127, R132, R143, R144) -/

/-- The register file after a predicate result: bit i of p[D] is `bit i` for i below VL, the tail follows TP up to VLMAX, p0
takes no write, and nothing else changes. -/
def PredicateHolds (v : Vlc) (d : Nat) (bit : Nat → Bool) (f : VFile) : Prop :=
  f.v = v.vf.v ∧ f.dead = v.vf.dead ∧ f.tag = v.vf.tag ∧
  (∀ n i, n < 16 → n ≠ d ∨ n = 0 ∨ v.vl = 0 ∨ vlmaxOf v.vt ≤ i → f.pbit n i = v.vf.pbit n i) ∧
  (d ≠ 0 → v.vl ≠ 0 → ∀ i, i < vlmaxOf v.vt → f.pbit d i =
    if i < v.vl then bit i
    else match v.vt.tp with
      | .undisturbed => v.vf.pbit d i
      | .agnostic => true
      | .dead => false)

/-- A compare: the guard, D, its checks, and the result and flags of element i (R132). -/
structure CompareRule where
  pg : BitVec 2
  d : Nat
  ok : Prop
  res : Nat → Bool × BitVec 7
  sfl : BitVec 7

def compareWith (op : VCmp) (pg : BitVec 2) (k : Bool) (d a b : Fld) (v : Vlc) : CompareRule :=
  let w := v.vt.sew.bits
  let c := v.vt.cls
  let n := 2 ^ v.vt.grp.val
  let an := vNum v.winv a
  let bn := vNum v.winv b
  let x := scalarElem c w (v.rx b)
  { pg := pg, d := d.toNat
    ok := d.toNat < 16 ∧ clsRange c 0 4 ∧ groupOk an n ∧ (k = false → groupOk bn n ∧ v.vf.tagOf an = v.vf.tagOf bn)
    res := fun i => cmpElem op c w (v.vf.elem an w i) (if k then x.1 else v.vf.elem bn w i)
    sfl := if k then x.2 else 0 }

def compareRule (i : Instr) (v : Vlc) : Option CompareRule :=
  match i with
  | .vcmpeq pg k d a b => some (compareWith .eq pg k d a b v)
  | .vcmpne pg k d a b => some (compareWith .ne pg k d a b v)
  | .vcmplt pg k d a b => some (compareWith .lt pg k d a b v)
  | .vcmple pg k d a b => some (compareWith .le pg k d a b v)
  | _ => none

/-- Bit i of a compare's destination below VL; a guard in D itself is the predicate as it stands when its element is reached. -/
def compareBit (v : Vlc) (r : CompareRule) (i : Nat) : Bool :=
  if i < v.vstart.toNat then v.vf.pbit r.d i
  else if v.active r.pg i then (r.res i).1
  else if v.vt.mz then false else v.vf.pbit r.d i

/-- FFLAGS after a compare, as of any element-wise instruction (`flagsAfter`). -/
def compareFlags (v : Vlc) (r : CompareRule) : BitVec 7 :=
  ((List.range v.vl).filter fun i => decide (v.vstart.toNat ≤ i) && v.active r.pg i).foldl
    (fun f i => f ||| (r.res i).2 ||| r.sfl) v.fflags

/-- The predicate operations: guard, D, operands that must name predicates, and the result bit (R143, R144). -/
def predicateRule (i : Instr) (v : Vlc) : Option (BitVec 2 × Nat × Prop × (Nat → Bool)) :=
  let p (f : Fld) (i : Nat) : Bool := v.vf.pbit f.toNat i
  let first (pg : BitVec 2) (a : Fld) : Nat := ((List.range v.vl).find? fun i => v.active pg i && p a i).getD v.vl
  let three (d a b : Fld) : Prop := d.toNat < 16 ∧ a.toNat < 16 ∧ b.toNat < 16
  match i with
  | .pand pg d a b => some (pg, d.toNat, three d a b, fun i => p a i && p b i)
  | .por pg d a b => some (pg, d.toNat, three d a b, fun i => p a i || p b i)
  | .pxor pg d a b => some (pg, d.toNat, three d a b, fun i => p a i != p b i)
  | .pandn pg d a b => some (pg, d.toNat, three d a b, fun i => p a i && !p b i)
  | .psbf pg d a => some (pg, d.toNat, three d a 0, fun i => decide (i < first pg a))
  | .psif pg d a => some (pg, d.toNat, three d a 0, fun i => decide (i ≤ first pg a))
  | _ => none

/-- The scalar result of a predicate scan (R144). -/
def scanRule (i : Instr) (v : Vlc) : Option (Fld × Prop × Word) :=
  let hits (pg : BitVec 2) (a : Fld) := (List.range v.vl).filter fun i => v.active pg i && v.vf.pbit a.toNat i
  match i with
  | .pcnt pg d a => some (d, a.toNat < 16, BitVec.ofNat 64 (hits pg a).length)
  | .pfirst pg d a => some (d, a.toNat < 16, match (hits pg a).head? with
      | some i => BitVec.ofNat 64 i
      | none => BitVec.allOnes 64)
  | _ => none

/-! ### Instructions that write a list of elements (R135, R136, R145) -/

/-- A list of results for elements 0, 1, …: the tail of D follows their count (R135, R145). -/
structure ListRule where
  base : Nat
  ok : Prop
  out : List Nat
  fl : BitVec 7

/-- The register file after it: with VL = 0 nothing is written. -/
def ListHolds (v : Vlc) (r : ListRule) (f : VFile) : Prop :=
  let w := v.vt.sew.bits
  let n := 2 ^ v.vt.grp.val
  let c := v.vt.cls
  (∀ i, i < Nat.min 4096 (n * 2048 / w) → f.elem r.base w i =
    if v.vl = 0 then v.vf.elem r.base w i
    else match r.out[i]? with
      | some x => (if c = .e3m2 ∨ c = .e2m3 then x % 64 else x) % 2 ^ w
      | none => tailValue v.vt c w (v.vf.elem r.base w i)) ∧
  (∀ m, m < 256 → m < r.base ∨ r.base + n ≤ m → f.row m = v.vf.row m ∧ f.dead.getLsbD m = v.vf.dead.getLsbD m) ∧
  (∀ m, m < 256 → f.tagOf m = if v.vl ≠ 0 ∧ r.base ≤ m ∧ m < r.base + n then 0 else v.vf.tagOf m) ∧
  f.p = v.vf.p

/-- The active elements of A below VL in their positions (R84). -/
def treeLeaves (v : Vlc) (pg : BitVec 2) (an : Nat) : List (Option Nat) :=
  (List.range v.vl).map fun i => if v.active pg i then some (v.vf.elem an v.vt.sew.bits i) else none

/-- A reduction: the tree over the active elements, then the start value on its left (R84, R135). -/
def foldRule (op : VRed) (pg : BitVec 2) (k : Bool) (d a b : Fld) (v : Vlc) : ListRule :=
  let w := v.vt.sew.bits
  let c := v.vt.cls
  let n := 2 ^ v.vt.grp.val
  let dn := vNum v.winv d
  let an := vNum v.winv a
  let bn := vNum v.winv b
  let x := scalarElem c w (v.rx b)
  let start := if k then x.1 else v.vf.elem bn w 0
  let f := redOp op c w v.frm.toNat
  let r := match redTree f 13 (treeLeaves v pg an) with
    | (none, _) => (start, (0 : BitVec 7))
    | (some y, g) => ((f start y).1, (if k then x.2 else 0) ||| g ||| (f start y).2)
  { base := dn
    ok := clsRange c 0 4 ∧ groupOk dn n ∧ groupOk an n ∧ apart dn n an n ∧
      (k = false → groupOk bn n ∧ v.vf.tagOf an = v.vf.tagOf bn)
    out := [r.1]
    fl := if v.vl = 0 then 0 else r.2 }

/-- Of two ranked codes, the earlier in the order of `vtop`: the larger, and of equals the lower position (R145). -/
abbrev TopOrder (c : Cls) (w : Nat) (x y : Nat × Nat) : Prop :=
  ranksBelow c w y.2 x.2 = true ∨ ranksBelow c w x.2 y.2 = false ∧ x.1 < y.1

/-- Positions below VL whose bit of a predicate is set. -/
def setPositions (v : Vlc) (b : Fld) : List Nat := (List.range v.vl).filter fun i => v.vf.pbit b.toNat i

/-- The rows that write results from element 0 up. -/
def listRule (i : Instr) (v : Vlc) : Option ListRule :=
  let w := v.vt.sew.bits
  let c := v.vt.cls
  let n := 2 ^ v.vt.grp.val
  match i with
  | .vredsum pg k d a b => some (foldRule .sum pg k d a b v)
  | .vredmax pg k d a b => some (foldRule .max pg k d a b v)
  | .vredmin pg k d a b => some (foldRule .min pg k d a b v)
  | .vcompress d a b =>
    let dn := vNum v.winv d
    let an := vNum v.winv a
    some { base := dn, ok := b.toNat < 16 ∧ groupOk dn n ∧ groupOk an n ∧ apart dn n an n
           out := (setPositions v b).map (v.vf.elem an w), fl := 0 }
  | .vcidx d a b =>
    let dn := vNum v.winv d
    some { base := dn, ok := b.toNat < 16 ∧ clsRange c 0 1 ∧ 16 ≤ w ∧ groupOk dn n
           out := (setPositions v b).map fun i => (v.rx a).toNat + i, fl := 0 }
  | _ => none

/-! ### Rotations, dot products and `pexp` (R136, R139, R141, R145) -/

/-- A rotation of whole blocks from A into D: `tag` names block size and seed, `out` is the tag D takes (R85 to R87). -/
def rotationWith (s : State) (forward : Bool) (t : Cls) (tw names : Nat) (tag out : BitVec 6) (sat : Bool) (pg : BitVec 2)
    (d a : Fld) (ok : Prop) : ElemRule :=
  let v := s.vlc
  let w := v.vt.sew.bits
  let n := 2 ^ ((tag.toNat / 8) % 4 + 4)
  let seed := s.gang.ss[tag.toNat % 8]?.getD 0
  let block (b : Nat) : List (Option Nat) := (List.range n).map fun j =>
    if n * b + j < v.vl ∧ v.active pg (n * b + j) = true then some (v.vf.elem (vNum v.winv a) w (n * b + j)) else none
  let r (b : Nat) := rotateBlock forward v.vt.cls w t ((tag.toNat / 8) % 4 + 4) seed [] sat (block b)
  ⟨fun i => v.active pg i, (v.vstart.toNat + n - 1) / n * n, v.vl, vNum v.winv d, tw, names, Nat.min 4096 (names * 2048 / tw), t, ok,
    fun i => some ((r (i / n)).1.getD (i % n) 0), fun i => (r (i / n)).2, 0, out⟩

/-- `vrot`, and `vcvt` where it rotates: forward under ROT with EN = 1 from an untagged source into a narrower floating-point
target, inverse from a tagged source into a wider one (R139, R141). -/
def rotationRule (i : Instr) (s : State) : Option ElemRule :=
  let v := s.vlc
  let w := v.vt.sew.bits
  let n := 2 ^ v.vt.grp.val
  match i with
  | .vrot pg d a =>
    let an := vNum v.winv a
    let tag := v.vf.tagOf an
    let ok := clsRange v.vt.cls 2 4 ∧ groupOk (vNum v.winv d) n ∧ groupOk an n
    if tag.getLsbD 5 then some (rotationWith s false v.vt.cls w n tag 0 false pg d a ok)
    else if v.rot.getLsbD 5 then some (rotationWith s true v.vt.cls w n v.rot v.rot false pg d a ok)
    else none
  | .vcvt pg tg d a =>
    let an := vNum v.winv a
    let dn := vNum v.winv d
    let tag := v.vf.tagOf an
    let tw := targetBits tg
    let m := Nat.max 1 (n * tw / w)
    let ok := groupOk dn m ∧ groupOk an n ∧ (apart dn m an n ∨ tw < w ∧ dn = an)
    if tag.getLsbD 5 then
      if (targetCls tg).isFp = true ∧ w < tw then some (rotationWith s false (targetCls tg) tw m tag 0 (targetSat tg) pg d a ok)
      else none
    else if v.vt.cls.isFp = true ∧ (targetCls tg).isFp = true ∧ tw < w ∧ v.rot.getLsbD 5 = true then
      some (rotationWith s true (targetCls tg) tw m v.rot v.rot (targetSat tg) pg d a ok)
    else none
  | _ => none

/-- `vdot`: group g adds the exact sum of the products of its active members to the 32-bit element g of D (R136). -/
def dotRule (pg : BitVec 2) (d a b : Fld) (v : Vlc) : ElemRule :=
  let w := v.vt.sew.bits
  let c := v.vt.cls
  let n := 2 ^ v.vt.grp.val
  let q := 32 / w
  let dn := vNum v.winv d
  let an := vNum v.winv a
  let bn := vNum v.winv b
  let members (g : Nat) : List Nat := ((List.range q).map (q * g + ·)).filter fun i => decide (i < v.vl) && v.active pg i
  let r (g : Nat) := dotGroup c w v.frm.toNat (v.vf.elem dn 32 g) ((members g).map fun i => (v.vf.elem an w i, v.vf.elem bn w i))
  let dead := v.vt.tp = .dead
  ⟨fun g => members g != [], (v.vstart.toNat + q - 1) / q, (v.vl + q - 1) / q, dn, 32, n,
    (if dead then n else Nat.min n ((vlmaxOf v.vt * w + 2047) / 2048)) * 64, if c = .i ∨ c = .n then c else .fp32,
    ((c = .i ∨ c = .n) ∧ w ≤ 16 ∨ 3 ≤ clsNum c) ∧ groupOk dn n ∧ groupOk an n ∧ groupOk bn n ∧ v.vf.tagOf an = v.vf.tagOf bn ∧
      v.vf.tagOf an = v.vf.tagOf dn,
    fun g => some (r g).1, fun g => (r g).2, 0, 0⟩

/-- `pexp`: position i with its bit set takes the element of A that counts the set positions before it (R145). -/
def expandRule (d a b : Fld) (v : Vlc) : ElemRule :=
  let w := v.vt.sew.bits
  let n := 2 ^ v.vt.grp.val
  let dn := vNum v.winv d
  let an := vNum v.winv a
  ⟨fun i => v.vf.pbit b.toNat i, 0, v.vl, dn, w, n, Nat.min 4096 (n * 2048 / w), v.vt.cls,
    b.toNat < 16 ∧ groupOk dn n ∧ groupOk an n ∧ apart dn n an n,
    fun i => some (v.vf.elem an w ((List.range i).filter fun j => v.vf.pbit b.toNat j).length), fun _ => 0, 0, 0⟩

/-- The result of `vtop`: the positions of the largest active elements of A, largest first, of equals the lower position
first (R145). -/
def TopList (pg : BitVec 2) (a b : Fld) (v : Vlc) (out : List Nat) : Prop :=
  let w := v.vt.sew.bits
  let c := v.vt.cls
  let x (i : Nat) : Nat := v.vf.elem (vNum v.winv a) w i
  let act := (List.range v.vl).filter fun i => v.active pg i
  out.length = Nat.min (v.rx b).toNat act.length ∧ (∀ i ∈ out, i ∈ act) ∧
  out.Pairwise (fun i j => TopOrder c w (i, x i) (j, x j)) ∧
  (∀ i ∈ act, i ∉ out → ∀ j ∈ out, TopOrder c w (j, x j) (i, x i))

/-! ### Stores, atomics, releases and acquires (R222, R224, R241, R259 to R261, R349) -/

/-- Byte k of a number. -/
def byteOf (v k : Nat) : Byte := BitVec.ofNat 8 (v / 256 ^ k)

/-- An address that the copy of a running checkpoint does not write (R401). -/
def Uncopied (s : State) (a : Nat) : Prop := placeOf a ≠ .host ∨ s.ckpt = none

/-- Memory outside `n` bytes is unchanged. -/
def MemoryOutside (s t : State) (lo n : Nat) : Prop :=
  ∀ a, a < lo ∨ lo + n ≤ a → Uncopied s a → memByte t.mem a = memByte s.mem a

/-- What an access at the home finds outside `n` bytes is unchanged, LO cells apart. -/
def HomeOutside (s t : State) (core lo n : Nat) : Prop :=
  ∀ d k, d.isLo = false → d.pa + k < lo ∨ lo + n ≤ d.pa + k → Uncopied s (d.pa + k) → homeByte t core d k = homeByte s core d k

/-- What a core sees outside `n` bytes is unchanged, or, where its L1 has given up the line, is what stands at the home; LO cells
apart (R193). -/
def SeenOutside (s t : State) (core lo n : Nat) : Prop :=
  HomeOutside s t core lo n ∧
  ∀ d k, d.isLo = false → d.pa + k < lo ∨ lo + n ≤ d.pa + k → Uncopied s (d.pa + k) →
    seenByte t core d k = seenByte s core d k ∨ seenByte t core d k = homeByte s core d k

/-- The sequence number that the next LO store of the VLC takes (R349). -/
def nextSeq (s : State) : BitVec 32 :=
  BitVec.ofNat 32 (Nat.min (Nat.max (s.core s.vlc.core).q.toNat s.vlc.pseq.toNat + 1) (2 ^ 32 - 1))

/-- An LO store stands at its core's crossbar, or a newer one of another producer has taken its place there (R263). -/
def LoIssued (t : State) (core pa : Nat) (w : Word) (seq : BitVec 32) (prod : BitVec 12) : Prop :=
  ∃ y ∈ t.loTransit, y.pa = pa ∧ y.place = .xbar (coreDie core) (coreCluster core) ∧
    (y.seq = seq ∧ y.prod = prod ∧ y.val = w ∨
      (seq.toNat < y.seq.toNat ∨ seq = y.seq ∧ prod.toNat < y.prod.toNat))

/-- No byte of an RC line of the core's L1s is dirty: the writes have been sent to their homes (R260). -/
def NoDirtyRc (s : State) (core : Nat) : Prop :=
  ∀ c ∈ l1Cores s core, ∀ l ∈ (s.core c).l1, l.uo = false → l.so = false → l.dirty = 0

/-- The dirty bytes of RC lines of the core's L1s lie where `f` says. -/
def DirtyRcIn (s : State) (core : Nat) (f : Nat → Prop) : Prop :=
  ∀ c ∈ l1Cores s core, ∀ l ∈ (s.core c).l1, l.uo = false → l.so = false → ∀ k, k < 128 → l.dirty.getLsbD k = true → f (l.line * 128 + k)

/-- The open round of a core has room for every write that a release sends: it does not close of itself (R351). -/
def FewSent (s : State) (core : Nat) : Prop := ∀ u, Tab.get 0 (s.core core).sent u + (s.core core).l1.length + 8192 < 2 ^ 32 - 1

/-- The gang of the VLC whose turn it is is not halting (R32). -/
def NotHalting (s : State) : Prop := ∀ why, s.gang.st ≠ .halting why

/-- Of the RC and UO lines of the core's L1s only dirty bytes are valid (R261). -/
def Acquired (s : State) (core : Nat) : Prop :=
  ∀ c ∈ l1Cores s core, ∀ l ∈ (s.core c).l1, l.so = false → l.valid = l.dirty

/-- Whether a scope reaches beyond the core's own L1: not ctx, and not gang or cluster under a fused L1 (R194, R260). -/
abbrev leavesL1 (s : State) (core : Nat) (sc : Scope) : Prop :=
  sc ≠ .ctx ∧ ¬ (isFused s (coreDie core) (coreCluster core) = true ∧ (sc = .gang ∨ sc = .cluster))

/-- The width of an acquire load or a release store, and its address. -/
def widthBytes (w : QWidth) : Nat :=
  match w with
  | .w8 => 1
  | .w16 => 2
  | .w32 => 4
  | .w64 => 8

/-! ### Entering and leaving the handler (R108, R363 to R366) -/

/-- An instruction that raises a fault of its own: the code and FAULTE (R56, R115). -/
def raises (i : Instr) (v : Vlc) : Option (BitVec 8 × Word) :=
  match i with
  | .trap a => some (0x60, v.rx a)
  | .ebreak => some (0x61, 0)
  | .illegalWord w => some (0x01, w.setWidth 64)
  | _ => none

/-- The registers of two register files are the same; the model's notes of what a strip wrote may differ. -/
def SameFile (f g : VFile) : Prop := f.v = g.v ∧ f.dead = g.dead ∧ f.tag = g.tag ∧ f.p = g.p

/-- The value a `ctl` form leaves before its checks (R111). -/
def ctlResult (f : CtlForm) (old a : Word) : Word :=
  match f with
  | .rd => old
  | .wr => a
  | .set => old ||| a
  | .clr => old &&& ~~~ a

/-- An accepted access to control register n with the result w: x[D] receives the old value (read through the window as it
stood), the register takes the written bits and keeps the others, a seed half advances its version, and every other control
register (but VL, VIDX and VREM, which the end of a strip moves), and memory, stay. -/
def CtlWritten (s t : State) (n : Nat) (d : Fld) (w : Word) : Prop :=
  (∃ v, t.vlc = (Vlc.setX v (xNum s.vlc.wins d) (ctlGet s n)).next ∧ v.x = s.vlc.x ∧ v.pc = s.vlc.pc ∧ SameFile v.vf s.vlc.vf) ∧
  ctlGet t n = (w &&& ctlMask n) ||| (ctlGet s n &&& ~~~ ctlMask n) ∧
  (∀ m, ctlKnown m → m ≠ n → ¬ (0x20 ≤ n ∧ n ≤ 0x2F ∧ m = 0x30 + (n - 0x20) / 2) → m ≠ 0 ∧ m ≠ 3 ∧ m ≠ 4 →
    ctlGet t m = ctlGet s m) ∧
  (0x20 ≤ n → n ≤ 0x2F →
    ctlGet t (0x30 + (n - 0x20) / 2) = (ctlGet s (0x30 + (n - 0x20) / 2) + 1) &&& 0xFFFF) ∧
  t.mem = s.mem ∧ t.poison = s.poison ∧ t.others = s.others

/-- The instructions that enter the vector instruction queue (R36, R54: majors 0x1C to 0x33). -/
def entersQueue (i : Instr) : Bool :=
  let w := encode i
  i.hasWord && decide (0x1C ≤ (w.extractLsb' 26 6).toNat) && decide ((w.extractLsb' 26 6).toNat ≤ 0x33)

/-- Where a handler's return goes on (R47, R366, R116): bits [1:0] of FAULTPC take no part. -/
def returnTarget (v : Vlc) : Word :=
  if v.dvec then v.rpc
  else (v.faultRegs.pc.setWidth 64 &&& ~~~3) + (if v.dcode = 0x60 ∨ v.dcode = 0x61 then 4 else 0)

/-- The feature words of R62; word 3 counts the cores of the calling queue's mask. -/
def featureValue (s : State) (n : Word) : Word :=
  match n.toNat with
  | 0 => 0x0000000100010001
  | 1 => 0x0200010004400800
  | 2 => 0x0000401000080000
  | 3 => 0x0000024004081204 ||| BitVec.ofNat 64 (((List.range 576).filter fun c => (s.queue s.gang.queue).mask.getLsbD c).length) <<< 48
  | 4 => 0x0000000F03FB03FF
  | 5 => 0x00000000401F0707
  | 6 => 0x0000008040201000
  | 7 => 0x0000070800080100
  | _ => 0

/-- The largest extent of a rising list that a request and a cap allow, 16 below that (R161). -/
def granted (req cap : Nat) (set : List Nat) : Nat := ((set.filter fun v => decide (v ≤ req) && decide (v ≤ cap)).getLast?).getD 16

/-! ### Vector memory (R227 to R240) -/

/-- Every line stands once in a core's L1, and only valid bytes are dirty. -/
def CachesOk (s : State) : Prop :=
  ∀ c, ((s.core c).l1.map (·.line)).Nodup ∧ ∀ l ∈ (s.core c).l1, l.dirty &&& ~~~ l.valid = 0

/-- The lines that serve a core, those in transit among them, are device lines, each in the L1 where the core looks for it, and what
is in transit of a line has the line's kind (R194). -/
def CachesPlaced (s : State) (core : Nat) : Prop :=
  (∀ c ∈ l1Cores s core, ∀ l ∈ (s.core c).l1, l1Core s core (l.line * 128) = c ∧ placeOf (l.line * 128) = .device ∧
    ∀ w ∈ s.writeBacks, w.core = c → w.held.line = l.line → w.held.uo = l.uo) ∧
  ∀ w ∈ s.writeBacks, w.core ∈ l1Cores s core → l1Core s core (w.held.line * 128) = w.core ∧
    placeOf (w.held.line * 128) = .device ∧ ∀ y ∈ s.writeBacks, y.core = w.core → y.held.line = w.held.line → y.held.uo = w.held.uo

/-- The L1 that serves a core holds the line of a place as the kind of its page asks, and what it has in transit of that line has the
same kind; an SO line has no byte of the core's own on the way to its home (R193, R203, R221). -/
def KindHeld (s : State) (core : Nat) (d : Dest) : Prop :=
  match d with
  | .ls _ _ => True
  | .phys pa kind =>
    kind ≠ 3 → placeOf pa = .device →
      (∀ l, findLine s core pa = some l → l.uo = (kind == 2) ∧ l.so = (kind == 0) ∧ (kind = 0 → l.dirty = 0)) ∧
      ∀ w ∈ s.writeBacks, w.core = l1Core s core pa → w.held.line = pa / 128 → kind ≠ 0 ∧ w.held.uo = (kind == 2)

/-- A line of device memory has one kind (R203). -/
def SameKind (d e : Dest) : Prop :=
  match d, e with
  | .phys pa k, .phys pb l => pa / 128 = pb / 128 → k = l
  | _, _ => True

/-- A vector memory instruction: its guard, its first group, the data elements of an element, the address of data element
f of element i, and its static checks (R123, R227, R228, R231). -/
structure MemRule where
  pg : BitVec 2
  d : Fld
  fields : Nat
  va : Nat → Nat → Word
  ok : Prop

def memRule (i : Instr) (v : Vlc) : Option MemRule :=
  let m := v.vt.mew.bits
  let n := 2 ^ v.vt.grp.val
  let fits (d : Fld) (k : Nat) : Prop := (v.vt.cls.isFp = true → m = v.vt.sew.bits) ∧ groupOk (vNum v.winv d) n ∧
    vNum v.winv d + k * n ≤ 256
  let unit (pg : BitVec 2) (d a : Fld) (sub : Prop) : Option MemRule :=
    some ⟨pg, d, 1, fun i _ => v.rx a + BitVec.ofNat 64 (i * m / 8), fits d 1 ∧ (sub ∨ 8 ≤ m)⟩
  let strided (pg : BitVec 2) (d a b : Fld) : Option MemRule :=
    some ⟨pg, d, 1, fun i _ => v.rx a + BitVec.ofNat 64 i * v.rx b, fits d 1 ∧ 8 ≤ m⟩
  let segment (pg : BitVec 2) (nf : BitVec 3) (d a : Fld) : Option MemRule :=
    let k := nf.toNat + 1
    some ⟨pg, d, k, fun i f => v.rx a + BitVec.ofNat 64 ((i * k + f) * m / 8), fits d k ∧ 8 ≤ m⟩
  match i with
  | .vld pg d a => unit pg d a True
  | .vldNc pg d a => unit pg d a True
  | .vldS pg d a b => strided pg d a b
  | .vldSeg pg nf d a => segment pg nf d a
  | .vldFf pg d a _ => unit pg d a False
  | .vldFe pg d a => unit pg d a False
  | .vldFec pg d a => unit pg d a False
  | .vldSc pg d a => unit pg d a False
  | .vldAcq pg d a => unit pg d a False
  | .vst pg d a => unit pg d a True
  | .vstNc pg d a => unit pg d a True
  | .vstS pg d a b => strided pg d a b
  | .vstSeg pg nf d a => segment pg nf d a
  | .vstFe pg d a => unit pg d a False
  | .vstSc pg d a => unit pg d a False
  | .vstRel pg d a => unit pg d a False
  | .vstNtf pg d a _ => unit pg d a False
  | .vstMd pg _ d a => (unit pg d a (m = 64 ∧ v.vt.sew.bits = 64)).map fun r => { r with ok := r.ok ∧ m = 64 ∧ v.vt.sew.bits = 64 }
  | _ => none

/-- Bytes of one data element's access, and its first bit in them (R227). -/
def dataBytes (v : Vlc) : Nat := Nat.max 1 (v.vt.mew.bits / 8)

def dataBit (v : Vlc) (i : Nat) : Nat := if v.vt.mew.bits < 8 then i * v.vt.mew.bits % 8 else 0

/-- The elements that a memory instruction acts on. -/
def ActsOn (v : Vlc) (r : MemRule) (i f : Nat) : Prop :=
  v.vstart.toNat ≤ i ∧ i < v.vl ∧ v.active r.pg i = true ∧ f < r.fields

/-- Every data element from VSTART on and below `j` lies at a place of its own check: the access is accepted and its translation
is cached or needs none, so that the check changes nothing (R213, R219). -/
def Placed (s : State) (m : Mode) (rule : AccRule) (acc : Acc) (r : MemRule) (p : Nat → Nat → Dest) (j : Nat) : Prop :=
  ∀ i f, ActsOn s.vlc r i f → i < j →
    accessIn m s s.me rule (r.va i f) (dataBytes s.vlc) acc = (s, .ok (p i f)) ∧ (p i f).pa % dataBytes s.vlc = 0

/-- A memory element as a register element, and a register element as a memory element: sign extension or the low bits of an
integer of class 0, zero extension or the low bits of any other (R228); an E3M2 or E2M3 element has six bits (R70; assumption 70,
DEDUCED). -/
def widthChange (c : Cls) (from' to' x : Nat) : Nat :=
  if c = .i ∧ 2 ^ (from' - 1) ≤ x % 2 ^ from' ∧ from' < to' then x % 2 ^ from' + (2 ^ to' - 2 ^ from')
  else if c = .e3m2 ∨ c = .e2m3 then x % 2 ^ from' % 2 ^ to' % 64
  else x % 2 ^ from' % 2 ^ to'

/-- The register file after a load: the groups of each data element hold `val` in the active elements below `j`, an inactive
element follows the mask policy, the tail (when the load ran to VL) follows TP, and the tag of every name is 0 (R124, R128, R229). -/
def LoadHolds (v : Vlc) (r : MemRule) (val : Nat → Nat → Nat) (j : Nat) (f : VFile) : Prop :=
  let w := v.vt.sew.bits
  let n := 2 ^ v.vt.grp.val
  let base := vNum v.winv r.d
  (∀ i k, k < r.fields → i < Nat.min 4096 (n * 2048 / w) → f.elem (base + k * n) w i =
    if i < v.vstart.toNat then v.vf.elem (base + k * n) w i
    else if i < j then
      if v.active r.pg i then val i k else if v.vt.mz then 0 else v.vf.elem (base + k * n) w i
    else if i < v.vl ∨ j < v.vl ∨ v.vl = 0 then v.vf.elem (base + k * n) w i
    else tailValue v.vt v.vt.cls w (v.vf.elem (base + k * n) w i)) ∧
  (∀ m, m < 256 → m < base ∨ base + r.fields * n ≤ m → f.row m = v.vf.row m ∧ f.dead.getLsbD m = v.vf.dead.getLsbD m) ∧
  (∀ m, m < 256 → f.tagOf m = if v.vl ≠ 0 ∧ base ≤ m ∧ m < base + r.fields * n then 0 else v.vf.tagOf m) ∧
  f.p = v.vf.p

/-- The registers at the end of a memory instruction of the queue: VSTART 0, the next pc, the register file `f`. -/
def MemDone (v w : Vlc) (f : VFile) : Prop := SameRegisters { v.next with vf := f, vstart := 0 } w ∧ w.pc = v.next.pc

/-- The loads that read through the L1: full-empty reads too, and the acquiring load at scope ctx (R221, R232, R240). -/
def throughL1 (i : Instr) (v : Vlc) : Option AccRule :=
  match i with
  | .vld .. => some .load
  | .vldS .. => some .load
  | .vldSeg .. => some .load
  | .vldAcq .. => if v.vscope = 0 then some .load else none
  | _ => none

/-- The loads that read at the home (R222, R239, R240). -/
def atHome (i : Instr) (v : Vlc) : Option AccRule :=
  match i with
  | .vldNc .. => some .load
  | .vldSc .. => some .sc
  | .vldAcq .. => if v.vscope ≠ 0 then some .load else none
  | _ => none

/-- What a vector store asks of each element's access (R220, R227 to R240). -/
def storeAccess (i : Instr) : Option AccRule :=
  match i with
  | .vst .. => some .store
  | .vstS .. => some .store
  | .vstNc .. => some .store
  | .vstSeg .. => some .store
  | .vstNtf .. => some .store
  | .vstRel .. => some .store
  | .vstFe .. => some .fe
  | .vstSc .. => some .sc
  | _ => none

/-- The first bit of a stored element, and what element i of data element f stores (R228). -/
def bitPlace (v : Vlc) (p : Nat → Nat → Dest) (i f : Nat) : Nat := 8 * (p i f).pa + dataBit v i

def storedValue (v : Vlc) (r : MemRule) (i f : Nat) : Nat :=
  widthChange v.vt.cls v.vt.sew.bits v.vt.mew.bits (v.vf.elem (vNum v.winv r.d + f * 2 ^ v.vt.grp.val) v.vt.sew.bits i)

/-- A later data element stores to a bit of this one. -/
def Overwritten (v : Vlc) (r : MemRule) (p : Nat → Nat → Dest) (i f : Nat) : Prop :=
  ∃ j g, ActsOn v r j g ∧ (i < j ∨ i = j ∧ f < g) ∧ bitPlace v p j g < bitPlace v p i f + v.vt.mew.bits ∧
    bitPlace v p i f < bitPlace v p j g + v.vt.mew.bits

/-- Memory after the elements of a store, at the home and as the core sees it: every stored element that no later one overwrites, in
an LO cell as an LO store with the instruction's one sequence number, and every other bit as before; where the L1 has given up a line,
the core sees what stands at the home (R193, R227, R229, R235). -/
def StoreHolds (s t : State) (r : MemRule) (p : Nat → Nat → Dest) : Prop :=
  let v := s.vlc
  let m := v.vt.mew.bits
  (∀ i f, ActsOn v r i f → ¬ Overwritten v r p i f →
    ((p i f).isLo = false → ∀ b, b < m →
      (homeByte t v.core (p i f) ((dataBit v i + b) / 8)).getLsbD ((dataBit v i + b) % 8) = (storedValue v r i f).testBit b ∧
      (seenByte t v.core (p i f) ((dataBit v i + b) / 8)).getLsbD ((dataBit v i + b) % 8) = (storedValue v r i f).testBit b) ∧
    ((p i f).isLo = true →
      LoIssued t v.core (p i f).pa (BitVec.ofNat 64 (storedValue v r i f)) (nextSeq s) (BitVec.ofNat 12 v.core))) ∧
  (∀ d k b, d.isLo = false → b < 8 → Uncopied s (d.pa + k) →
    (∀ i f, ActsOn v r i f → 8 * (d.pa + k) + b < bitPlace v p i f ∨ bitPlace v p i f + m ≤ 8 * (d.pa + k) + b) →
    (homeByte t v.core d k).getLsbD b = (homeByte s v.core d k).getLsbD b ∧
    ((seenByte t v.core d k).getLsbD b = (seenByte s v.core d k).getLsbD b ∨
      (seenByte t v.core d k).getLsbD b = (homeByte s v.core d k).getLsbD b))

/-- The places of a store agree on the kinds of the lines they touch, and find their lines held as those kinds (R203, R221). -/
def StorePlaces (s : State) (r : MemRule) (p : Nat → Nat → Dest) : Prop :=
  (∀ i f, ActsOn s.vlc r i f → KindHeld s s.vlc.core (p i f)) ∧
  ∀ i f j g, ActsOn s.vlc r i f → ActsOn s.vlc r j g → SameKind (p i f) (p j g)

/-- The VLC's registers with the sequence number that its LO elements took, if it has one (R349). -/
def sequenced (s : State) (r : MemRule) (p : Nat → Nat → Dest) (w : Vlc) : Prop :=
  ((∃ i f, ActsOn s.vlc r i f ∧ (p i f).isLo = true) → w.pseq = nextSeq s) ∧
  ((∀ i f, ActsOn s.vlc r i f → (p i f).isLo = false) → w.pseq = s.vlc.pseq)

/-! ### Plans and tensor identifiers (R289 to R313) -/

/-- A place some bytes further on. -/
def plusDest (d : Dest) (n : Nat) : Dest :=
  match d with
  | .ls c off => .ls c (off + n)
  | .phys pa kind => .phys (pa + n) kind

/-- Accesses of `n` bytes at `count` places one after the other from `va` are accepted and run on in memory from `d`; their
translations are cached or need none. -/
def RunsOn (s : State) (rule : AccRule) (acc : Acc) (va : Word) (n count : Nat) (d : Dest) : Prop :=
  ∀ k, k < count → access s s.me rule (va + BitVec.ofNat 64 (n * k)) n acc = (s, .ok (plusDest d (n * k))) ∧
    (plusDest d (n * k)).pa % n = 0

/-- The rule of a check of R292, 1 to 7, on an entry (R289): reserved bits, classes, widths, P6, extents, scales and the rotation axis. -/
def DescriptorCheck (n : Nat) : Nat → Prop
  | 1 => ∀ x ∈ [(505, 7), (440, 8), (98, 6), (90, 6), (86, 2), (81, 3), (76, 4), (68, 5), (56, 7)], field n x.1 x.2 = 0
  | 2 => field n 64 4 < 10 ∧ field n 88 2 ≠ 3 ∧ field n 96 2 ≠ 3
  | 3 => field n 73 3 < 6 ∧ (2 ≤ field n 64 4 → 2 ^ (field n 73 3 + 1) = (clsOfCode (field n 64 4)).container)
  | 4 => field n 80 1 = 1 → field n 64 4 = 7 ∨ field n 64 4 = 8
  | 5 => ∀ d, d < 4 → if d ≤ field n 84 2 then field n (128 + 32 * d) 32 ≠ 0
      else field n (128 + 32 * d) 32 = 0 ∧ field n (256 + 32 * d) 32 = 0
  | 6 => field n 96 2 ≠ 0 → 2 ≤ field n 64 4 ∧ field n 84 2 ≠ 0
  | 7 => field n 104 1 = 1 → field n 107 2 ≤ field n 84 2
  | _ => True

/-- The first check of R292 that an entry with V = 1 fails. -/
def FirstFailing (n k : Nat) : Prop :=
  field n 63 1 = 1 ∧ ¬ DescriptorCheck n k ∧ ∀ j, j < k → DescriptorCheck n j

/-- The entry that 64 bytes leave: zero with V = 0, themselves when they are accepted (R292). -/
def entryOf (n : Nat) : BitVec 512 := if field n 63 1 = 0 then 0 else BitVec.ofNat 512 n

def EntryOk (n : Nat) : Prop := field n 63 1 = 1 → ∀ k, k < 8 → DescriptorCheck n k

/-- `tid.ld` or `tid.set` raises TID for an identifier with a check's number, as a fault of the vector half: it stays at the head of the queue, and
the table is as it was (R292). -/
def RaisesTid (i : Instr) (tid : Fld) (check : Nat) (s : State) : Prop :=
  ∃ (u : State) (e : VEntry),
    exec i s = .next (takeFault u ⟨0x32, true, 0, s.vlc.pc, BitVec.ofNat 64 (check + 2 ^ 8 * tid.toNat)⟩) ∧
    u.vlc = { s.vlc.next with vq := [e], vf := u.vlc.vf } ∧ SameFile u.vlc.vf s.vlc.vf ∧ e.i = i ∧ u.gangs = s.gangs

/-- What building leaves of positions with their activity and their in-bound target (R299). -/
def BuiltFrom (xs : List (Bool × Option Nat)) (p : Plan) : Prop :=
  let target (i : Nat) : Option Nat := match xs[i]? with
    | some (true, t) => t
    | _ => none
  let outside := (List.range xs.length).filter fun i => (target i).isNone
  p.count = xs.length ∧ (p.entries.map (·.1)).Nodup ∧
  (∀ t, (∃ e ∈ p.entries, e.1 = t) ↔ ∃ i, target i = some t) ∧
  (∀ e ∈ p.entries, (p.positions.drop e.2.1).take e.2.2 = (List.range xs.length).filter fun i => target i == some e.1) ∧
  (∀ e ∈ p.entries, e.2.2 = ((List.range xs.length).filter fun i => target i == some e.1).length) ∧
  p.oobn = outside.length ∧ p.positions.length = xs.length ∧
  p.positions.drop (xs.length - outside.length) = outside.map (fun i =>
    i + match xs[i]? with
      | some (false, _) => 2 ^ 15
      | _ => 0) ∧
  ∃ ws : List (List Nat), ws.flatten = p.entries.map (·.1) ∧ ws.length = p.waves ∧
    (∀ w ∈ ws, w ≠ [] ∧ w.length ≤ 64 ∧ w.Pairwise (fun a b => a < b ∧ a % 64 ≠ b % 64 ∧ a % 61 ≠ b % 61)) ∧
    (∀ j k t : Nat, k < j → t ∈ ws[j]?.getD [] →
      let before := (ws[k]?.getD []).filter fun u => decide (u < t)
      before.length = 64 ∨ ∃ u ∈ before, u % 64 = t % 64 ∨ u % 61 = t % 61)

/-- A legal index value of a plan (R299). -/
def inside (ls : Bool) (bound v : Nat) : Option Nat :=
  if ls = true ∧ v < 2 ^ 32 ∧ v % 2 ^ 22 < bound ∨ ls = false ∧ v < bound then some v else none

/-- Byte k of the body of a plan in LS (R298). -/
def bodyByte (p : Plan) (k : Nat) : Byte :=
  if k < 8 * p.entries.length then
    let e := p.entries.getD (k / 8) (0, 0, 0)
    byteOf (e.1 + e.2.1 * 2 ^ 32 + e.2.2 * 2 ^ 48) (k % 8)
  else byteOf (p.positions.getD ((k - 8 * p.entries.length) / 2) 0) (k % 2)

def bodyLength (p : Plan) : Nat := 8 * p.entries.length + 2 * p.count

/-- Byte k of a plan object (R297, R298). -/
def objectByte (p : Plan) (k : Nat) : Byte :=
  if k < 64 then
    byteOf (p.st + (if p.inverse then 2 ^ 2 else 0) + (if p.ls then 2 ^ 3 else 0) + p.iw * 2 ^ 4 + p.count * 2 ^ 16 +
      p.entries.length * 2 ^ 32 + p.waves * 2 ^ 48 + p.bound * 2 ^ 64 + p.baddr.toNat * 2 ^ 128 + p.blen * 2 ^ 192 +
      p.wseed * 2 ^ 256 + p.oobn * 2 ^ 304) k
  else bodyByte p (k - 64)

/-- A run of granules that no live plan body of the gang on the core holds, but for the body of the slot (R296). -/
def FreeRun (s : State) (slot g n : Nat) : Prop :=
  ∃ base len, regionOf s.gang s.vlc.core = some (base, len) ∧ len ≠ 0 ∧ g + n ≤ len / 16 ∧
    ∀ v ∈ { s.vlc with plans := s.vlc.plans.filter fun x => x.1 != slot } :: s.others,
      v.gang = s.vlc.gang → v.core = s.vlc.core → v.status ≠ .absent → ∀ x ∈ v.plans, ∀ k, k < n →
        g + k < x.2.granule ∨ x.2.granule + (bodyLength x.2 + 15) / 16 ≤ g + k

/-- The plan of a slot but for its state, which another write may turn stale at any time. -/
def planBut (v : Vlc) (slot : Nat) : Option Plan := (v.plan slot).map fun p => { p with st := 0 }

/-- A plan installed in a slot: the highest free run of granules holds its body, the other slots keep their plans, and what the
core sees elsewhere stays (R296, R307). -/
def Installed (s t : State) (slot : Nat) (p : Plan) : Prop :=
  let n := (bodyLength p + 15) / 16
  planBut t.vlc slot = some { p with st := 0 } ∧ (∀ k, k ≠ slot → planBut t.vlc k = planBut s.vlc k) ∧
  FreeRun s slot p.granule n ∧ (∀ g, FreeRun s slot g n → g ≤ p.granule) ∧
  ∃ base len, regionOf s.gang s.vlc.core = some (base, len) ∧
    (∀ k, k < bodyLength p → memByte t.mem (lsAddr s.vlc.core (base + 16 * p.granule) + k) = bodyByte p k) ∧
    HomeOutside s t s.vlc.core (lsAddr s.vlc.core (base + 16 * p.granule)) (bodyLength p)

/-- The plan of a composition at position i: A's target leads to B's position (R308). -/
def composed (a b : Plan) (i : Nat) : Bool × Option Nat :=
  match a.targetAt i with
  | some t => (true, if t < b.count then b.targetAt t else none)
  | none => (!a.oob.contains (i + 2 ^ 15), none)

/-- A plan as R298 lays it out: every position once, in an entry with a target in bound or among the last OOBN. -/
def PlanLegal (p : Plan) : Prop :=
  p.positions.length = p.count ∧ p.oobn ≤ p.count ∧ ((p.positions.map (· % 2 ^ 15))).Nodup ∧
  (∀ x ∈ p.positions, x % 2 ^ 15 < p.count) ∧ (p.entries.map (·.1)).Nodup ∧
  (∀ e ∈ p.entries, 1 ≤ e.2.2 ∧ e.2.1 + e.2.2 ≤ p.count - p.oobn ∧ (p.members e).Pairwise (· < ·) ∧ ∀ x ∈ p.members e, x < 4096) ∧
  (∀ k, k < p.count - p.oobn → ∃ e ∈ p.entries, e.2.1 ≤ k ∧ k < e.2.1 + e.2.2)

/-- What an apply does (R309): guard, groups, base register, the position of element 0, and the kind of update. -/
structure ApplyRule where
  pg : BitVec 2
  d : Fld
  slot : Fld
  b : Fld
  /-- none gathers. -/
  op : Option PscOp

def applyRule (i : Instr) : Option ApplyRule :=
  match i with
  | .pga pg d a b => some ⟨pg, d, a, b, none⟩
  | .psc pg d a b => some ⟨pg, d, a, b, some .set⟩
  | .pscAdd pg d a b => some ⟨pg, d, a, b, some .add⟩
  | .pscMax pg d a b => some ⟨pg, d, a, b, some .max⟩
  | _ => none

def firstPosition (v : Vlc) : Nat := if v.loop.isSome then v.vidx.toNat else 0

/-- Elements of the register that an entry reaches, in the order of their positions. -/
def reached (v : Vlc) (r : ApplyRule) (p : Plan) (e : Nat × Nat × Nat) : List Nat :=
  ((p.members e).filter fun q => decide (firstPosition v ≤ q) && decide (q < firstPosition v + v.vl) &&
    v.active r.pg (q - firstPosition v)).map (· - firstPosition v)

/-- Element i's entry, if it has one. -/
def entryAt (v : Vlc) (p : Plan) (i : Nat) : Option (Nat × Nat × Nat) :=
  p.entries.find? fun e => (p.members e).contains (firstPosition v + i)

/-- Where the target of an entry lies: none where R300 fails. `place` answers for each entry the place that its access reaches. -/
def AppliesTo (s : State) (r : ApplyRule) (p : Plan) (place : Nat × Nat × Nat → Option Dest) : Prop :=
  let v := s.vlc
  let n := v.vt.mew.bits / 8
  let acc : Acc := match r.op with
    | none => .read
    | some .set => .write
    | some _ => .atomic
  ∀ e ∈ p.entries, reached v r p e ≠ [] →
    if p.ls then
      let off := (v.rx r.b + BitVec.ofNat 64 (e.1 % 2 ^ 22 * n)).toNat
      match (coreOfIdent (e.1 / 2 ^ 22)).bind fun c => (regionOf s.gang c).map fun x => (c, x) with
      | some (c, base, len) =>
        if off % n = 0 ∧ off + n ≤ len ∧ ∀ x ∈ liveBodies s v.gang c, off / 16 < x.1 ∨ x.1 + x.2 ≤ off / 16 then
          place e = some (.ls c (base + off)) ∧
            (acc ≠ .write → ∀ w ∈ (s.core c).lsPoison, base + off + n ≤ w * 4 ∨ w * 4 + 4 ≤ base + off)
        else place e = none
      | none => place e = none
    else ∃ q, place e = some q ∧ q.pa % n = 0 ∧
      access s s.me (if r.op = none then .load else .atomic) (v.rx r.b + BitVec.ofNat 64 (e.1 * n)) n acc = (s, .ok q)

/-- The value and flags that a group combines to: its elements in ascending order, rounded at each step (R309). -/
def combinedValue (op : PscOp) (v : Vlc) (dn : Nat) (is : List Nat) : Nat × BitVec 7 :=
  let c := v.vt.cls
  let w := v.vt.sew.bits
  let x (i : Nat) : Nat := v.vf.elem dn w i
  let f (a b : Nat) : Nat × BitVec 7 := match op with
    | .set => (b, 0)
    | .add => alu .add c w v.frm.toNat a b 0
    | .max => alu .max c w v.frm.toNat a b 0
  match is with
  | [] => (0, 0)
  | i :: is => is.foldl (fun a j => ((f a.1 (x j)).1, a.2 ||| (f a.1 (x j)).2)) (x i, 0)

/-- p15 after an apply: bit i below VL is set where element i was active and its position was not performed; the bits above follow
TP (R309). -/
def MissedHolds (v : Vlc) (r : ApplyRule) (p : Plan) (place : Nat × Nat × Nat → Option Dest) (f : VFile) : Prop :=
  (∀ i, i < v.vl → f.pbit 15 i = (v.active r.pg i && ((entryAt v p i).bind place).isNone)) ∧
  (∀ i, v.vl ≤ i → f.pbit 15 i = if v.vl = 0 ∨ vlmaxOf v.vt ≤ i then v.vf.pbit 15 i else match v.vt.tp with
    | .undisturbed => v.vf.pbit 15 i
    | .agnostic => true
    | .dead => false) ∧
  ∀ n i, n ≠ 15 → f.pbit n i = v.vf.pbit n i

/-! ### The accumulator array and matrix instructions (R154 to R181) -/

/-- Row and column of the array of element (i, j) of tile `t` in a view of side `m` (R155). -/
def arrayCell (m t i j : Nat) : Nat × Nat := (t / (64 / m) * m + i, t % (64 / m) * m + j)

/-- The matrix mode is on, the tile exists in the view, and nothing of the array is poisoned (R51, R156, R182). -/
abbrev TileReady (s : State) (d : Fld) : Prop :=
  (s.vlc.mvl = 16 ∨ s.vlc.mvl = 32 ∨ s.vlc.mvl = 64) ∧ d.toNat < (64 / s.vlc.mvl) * (64 / s.vlc.mvl) ∧
  (s.core s.vlc.core).accPoison = [] ∧ Tab.wf 0 (s.core s.vlc.core).acc = true

/-- A bit of a mask triple: rows p(PG), columns p(PG + 4), depths p(PG + 8); everything with PG = 0 (R163). -/
def maskOf (v : Vlc) (pg : BitVec 2) (off i : Nat) : Bool := decide (pg = 0) || v.vf.pbit (pg.toNat + off) i

/-- The cells of a tile that an instruction writes, with their new 32-bit values. -/
abbrev CellRule := Nat → Nat → Option Nat

/-- The array after an instruction that writes the elements of tile `t` which `r` names, and no other. -/
def ArrayHolds (s u : State) (t : Nat) (r : CellRule) : Prop :=
  let m := s.vlc.mvl
  (∀ i j x, i < m → j < m → r i j = some x → accBits (u.core s.vlc.core) (arrayCell m t i j) = x % 2 ^ 32) ∧
  (∀ y z, y < 64 → z < 64 → (∀ i j x, i < m → j < m → r i j = some x → arrayCell m t i j ≠ (y, z)) →
    accBits (u.core s.vlc.core) (y, z) = accBits (s.core s.vlc.core) (y, z))

/-- Registers, memory and other cores stay but for FFLAGS; the array of the core may change. -/
def MatrixDone (s t : State) (f : VFile) : Prop :=
  SameFile f s.vlc.vf ∧
  t = { s with vlc := { s.vlc.next with vf := f, fflags := t.vlc.fflags, vstart := 0 }, cores := t.cores } ∧
  ∀ c, c ≠ s.vlc.core → t.core c = s.core c

/-- The active depths and their elements in an outer product (R164). -/
def outerPairs (v : Vlc) (pg : BitVec 2) (an bn i j : Nat) : List (Nat × Nat) :=
  let w := v.vt.sew.bits
  let r := 32 / w
  ((List.range r).filter fun d => maskOf v pg 8 d && decide (i * r + d < v.vl) && decide (j * r + d < v.vl)).map fun d =>
    (v.vf.elem an w (i * r + d), v.vf.elem bn w (j * r + d))

/-- The instructions that add, subtract or write an outer product. -/
def outerForm (i : Instr) : Option (MxOp × BitVec 2 × Fld × Fld × Fld) :=
  match i with
  | .mxa pg d a b => some (.acc, pg, d, a, b)
  | .mxs pg d a b => some (.sub, pg, d, a, b)
  | .mxw pg d a b => some (.over, pg, d, a, b)
  | _ => none

/-- Reading an element of a tensor at this state gives its code, and only caches and counts change on the way. -/
def ReadsAs (s : State) (t : Desc) (idx : List Nat) (x : Nat) : Prop :=
  ∃ u, readTensor s.me none t idx s = (u, .ok x) ∧ OnlyCaches s u

/-- The same for the scale word of an element. -/
def ScalesAs (s : State) (t : Desc) (idx : List Nat) (x : Option Nat) : Prop :=
  ∃ u, readScale s.me t idx s = (u, .ok x) ∧ OnlyCaches s u

/-- The blocks of a line: the codes of their depths and the scale of the first that takes part. -/
def blocksOf (ks : List (List Nat)) (code : Nat → Option Nat) (scale : Nat → Option Nat) : List Blk :=
  ks.map fun b => ⟨b.map code, (b.find? fun k => (code k).isSome).bind scale⟩

/-- The operands of a product as memory and registers hold them: codes and scales of A and B, and the tag byte of a row. -/
structure ProductData where
  codeA : Nat → Nat → Nat
  scaleA : Nat → Nat → Option Nat
  codeB : Nat → Nat → Nat → Nat
  scaleB : Nat → Nat → Nat → Option Nat
  tag : Nat → Nat

/-- The expert of a row (R173): its tag byte under `mma.g`, else 0. -/
def expertOf (j : Job) (x : ProductData) (i : Nat) : Nat := if j.grouped then x.tag i else 0

/-- Rows that take part (R163, R167, R173). -/
def productRow (s : State) (pg : BitVec 2) (j : Job) (x : ProductData) (i : Nat) : Bool :=
  decide (s.vlc.vstart.toNat ≤ i) && decide (i < s.vlc.tsm) && maskOf s.vlc pg 0 i &&
  (match j.a with
    | .tensor t => decide (t.o0 + i < t.d.ext.getD 0 0)
    | .group => true) &&
  (!j.grouped || decide (x.tag i < j.b.d.ext.getD 2 0))

/-- The operands read as `x` says, in every row, column and depth that takes part. -/
def OperandsAre (s : State) (pg : BitVec 2) (j : Job) (x : ProductData) : Prop :=
  (∀ t, j.a = .tensor t →
    (j.grouped = true → ∀ i, s.vlc.vstart.toNat ≤ i → i < s.vlc.tsm → maskOf s.vlc pg 0 i = true → t.o0 + i < t.d.ext.getD 0 0 →
      ∃ u, readOperand s s.me t.d.rcl none (BitVec.ofNat 64 (t.d.tagbase + t.o0 + i)) 1 = (u, .ok (x.tag i)) ∧ OnlyCaches s u) ∧
    ∀ i, productRow s pg j x i = true → ∀ b ∈ j.blocks,
      (∀ k ∈ b, ReadsAs s t.d [t.o0 + i, t.o1 + k, 0, 0] (x.codeA i k)) ∧
      (∀ k, b.head? = some k → j.scaled = true → ScalesAs s t.d [t.o0 + i, t.o1 + k, 0, 0] (x.scaleA i k))) ∧
  ∀ i, productRow s pg j x i = true → ∀ c ∈ j.cols, ∀ b ∈ j.blocks,
    let e := expertOf j x i
    (∀ k ∈ b, ReadsAs s j.b.d [j.b.o0 + k, j.b.o1 + c, e, 0] (x.codeB e k c)) ∧
    (∀ k, b.head? = some k → j.scaled = true → ScalesAs s j.b.d [j.b.o0 + k, j.b.o1 + c, e, 0] (x.scaleB e k c))

/-- The line of A of a row, narrowed where the other operand is narrow (R170, R172, R174). -/
def lineA (s : State) (a : Fld) (j : Job) (x : ProductData) (i : Nat) : List Blk :=
  let v := s.vlc
  let raw := match j.a with
    | .tensor _ => blocksOf j.blocks (fun k => some (x.codeA i k)) (fun k => if j.scaled then x.scaleA i k else none)
    | .group => blocksOf j.blocks (fun k => if i * v.tsk + k < v.vl then
        some (v.vf.elem ((v.rx a).toNat % 256) v.vt.sew.bits (i * v.tsk + k)) else none) (fun _ => none)
  if j.path = .wideA then (narrowLine j.ca j.b.d.cls (if j.fly then j.rot else none) raw).1 else raw

/-- The line of B of a column. -/
def lineB (j : Job) (x : ProductData) (e c : Nat) : List Blk :=
  let raw := blocksOf j.blocks (fun k => some (x.codeB e k c)) (fun k => if j.scaled then x.scaleB e k c else none)
  if j.path = .wideB then (narrowLine j.b.d.cls j.ca (if j.fly then j.rot else none) raw).1 else raw

/-- The elements of a product (R79 to R82, R170, R173). -/
def productCells (s : State) (pg : BitVec 2) (d a : Fld) (j : Job) (x : ProductData) : CellRule := fun i c =>
  if productRow s pg j x i ∧ c ∈ j.cols then
    let old := accBits (s.core s.vlc.core) (arrayCell s.vlc.mvl d.toNat i c)
    let p := lineA s a j x i
    let q := lineB j x (expertOf j x i) c
    some (if j.path = .ints then (accInts j.ca j.wa j.b.d.cls j.b.d.ew.bits old p q).1
      else (accLine (j.path != .half) j.clsA j.clsB s.vlc.frm.toNat ((j.rot.map Prod.fst).getD 0) old p q).1)
  else none

/-- The checks of R169 and R174 have passed: the job of a product. -/
def productJob (i : Instr) (s : State) : Option (BitVec 2 × Fld × Fld × Except Trap Job) :=
  let v := s.vlc
  let tensors (g : Bool) (pg : BitVec 2) (d a b : Fld) := (pg, d, a,
    match specOf s.gang (v.rx a), specOf s.gang (v.rx b) with
    | .ok x, .ok y => jobOf s pg (capture v i d.toNat (xNum v.wins a) (xNum v.wins b) 0 (v.rx a) (v.rx b)) (.tensor x) y g
    | _, _ => .error (trapInfo 0 0))
  match i with
  | .mma pg d a b => some (tensors false pg d a b)
  | .mmaG pg d a b => some (tensors true pg d a b)
  | .mmav pg d a b => some (pg, d, a,
    if 256 ≤ (v.rx a).toNat ∨ vlmaxOf v.vt < v.tsm * v.tsk ∨ (v.rx a).toNat % 2 ^ v.vt.grp.val ≠ 0 then .error (trapInfo 0 0)
    else match specOf s.gang (v.rx b) with
      | .ok y => jobOf s pg (capture v i d.toNat (xNum v.wins a) (xNum v.wins b) 0 (v.rx a) (v.rx b)) .group y false
      | _ => .error (trapInfo 0 0))
  | _ => none

/-- An element of a tile takes part in `mst` or `mld` (R163, R178). -/
def tileActive (v : Vlc) (pg : BitVec 2) (t : TileSpec) (i j : Nat) : Bool :=
  decide (i < v.tsm) && decide (j < v.tsn) && maskOf v pg 0 i && maskOf v pg 4 j && decide (t.o0 + i < t.d.ext.getD 0 0) &&
  decide (t.o1 + j < t.d.ext.getD 1 0)

/-- The block of elements that one element is transformed with, and its index there: itself, or the block along the rotation
axis (R178). -/
def tileBlockOf (t : TileSpec) (i j : Nat) : List (Nat × Nat) × Nat :=
  let n := 2 ^ (t.d.rblk + 4)
  if t.d.ren = false then ([(i, j)], 0)
  else if t.d.raxis = 0 then ((List.range n).map fun k => (i / n * n + k, j), i % n)
  else ((List.range n).map fun k => (i, j / n * n + k), j % n)

/-- The codes that a block of the tile leaves in memory (R178), and the accumulator values that a block of memory gives (R180). -/
def storedCode (s : State) (pg : BitVec 2) (d : Fld) (t : TileSpec) (scale : Nat → Nat → Option Nat) (i j : Nat) : Nat :=
  let (b, k) := tileBlockOf t i j
  ((storeBlock s.gang t (b.map fun x => if tileActive s.vlc pg t x.1 x.2 then
    (some (accBits (s.core s.vlc.core) (arrayCell s.vlc.mvl d.toNat x.1 x.2)), scale x.1 x.2) else (none, none))).1).getD k 0

def loadedValue (s : State) (pg : BitVec 2) (t : TileSpec) (code : Nat → Nat → Nat) (scale : Nat → Nat → Option Nat) (i j : Nat) :
    Nat :=
  let (b, k) := tileBlockOf t i j
  ((loadBlock s.gang t (b.map fun x => if tileActive s.vlc pg t x.1 x.2 then
    (some (code x.1 x.2), scale x.1 x.2) else (none, none))).1).getD k 0

/-! ### Counters, waits, ranges and task instructions (R243 to R247, R327 to R334, R343 to R348) -/

/-- A counter update: its fields and the new value from the old one (R343, R345). -/
def counterForm (i : Instr) (v : Vlc) : Option (Fld × Fld × (Word → Word)) :=
  match i with
  | .cinc d a b => some (d, a, fun o => o + v.rx b)
  | .cset d a b => some (d, a, fun _ => v.rx b)
  | _ => none

/-- A wait instruction: its scope field, address field, threshold and what it waits for (R346, R348). -/
def waitForm (i : Instr) (v : Vlc) : Option (AccRule × BitVec 7 × Fld × Word × (Nat → Scope → Wait)) :=
  match i with
  | .cwait sc a b => some (.counter, sc, a, v.rx b, fun pa k => .counter pa (v.rx b) k)
  | .pwait sc a b => some (.pwait, sc, a, v.rx b, fun pa k => .progress pa (v.rx b) k)
  | _ => none

/-- Every 64 KiB page that a range touches translates from a cached translation, which keeps the offset in the page, or lies in the LS
window: `place` answers for the first byte of each part (R208, R243). -/
def PagesAt (s : State) (acc : Acc) (a n : Word) (place : Nat → Dest) : Prop :=
  ∀ x ∈ rangeParts a n, inLsWindow x.1 = true ∨
    translate s s.me (BitVec.ofNat 64 x.1) 1 acc = (s, .ok (place x.1)) ∧ (∀ pa kind, place x.1 = .phys pa kind → pa % 65536 = x.1 % 65536)

/-- A range that R243 accepts: base and length are multiples of the unit, and it is no longer than 2^24 bytes. -/
abbrev RangeOk (unit : Nat) (a n : Word) : Prop := a.toNat % unit = 0 ∧ n.toNat % unit = 0 ∧ n.toNat ≤ 2 ^ 24

/-- A line of a range: of a part that translates to device memory and lies in no LO page. -/
def LineIn (a n : Word) (place : Nat → Dest) (line : Nat) : Prop :=
  ∃ x ∈ rangeParts a n, inLsWindow x.1 = false ∧ ∃ pa kind, place x.1 = .phys pa kind ∧ kind ≠ 3 ∧ placeOf pa = .device ∧
    pa / 128 ≤ line ∧ line * 128 < pa + x.2

/-- The instructions that put an operation into an engine's queue, with D, the register block and the options (R327). -/
def engineForm (i : Instr) (v : Vlc) : Option (Nat × Fld × Fld × Word) :=
  match i with
  | .copy d a => some (0, d, a, 0)
  | .copyp d a => some (1, d, a, 0)
  | .coll d a b => some (2, d, a, v.rx b)
  | _ => none

/-- The checks of R328 to R330 on the operands of an operation that moves something: `group` are a collective's members. -/
def EngineAccepts (s : State) (efn : Nat) (dst src len opt : Word) (group : List Nat) (host : Bool) : Prop :=
  if efn = 2 then
    optBad opt = false ∧ (∃ u ws, readHomeDwords s s.me ((s.queue s.gang.queue).colltab + BitVec.ofNat 64 (64 * optGroup opt)) 8 = (u, .ok ws) ∧
      groupMembers (dwordsNat ws) = some group ∧ u = { s with l2 := u.l2, modes := u.modes, perf := u.perf }) ∧
    optRank opt < group.length ∧ (optOp opt = 4 → optRoot opt < group.length) ∧
    host = (touchesHost s s.me dst || touchesHost s s.me src)
  else
    group = [] ∧ len ≠ 0 ∧ len.toNat ≤ 2 ^ 32 ∧ (dst.toNat + len.toNat ≤ src.toNat ∨ src.toNat + len.toNat ≤ dst.toNat) ∧
    ∃ d, translate s s.me dst 1 .write = (s, .ok d) ∧ d.isPeer = decide (efn = 1) ∧ host = (d.isHost || touchesHost s s.me src)

/-- A completion counter that R343 accepts; 0 names none (R347). -/
def CounterAccepted (s : State) (ctr : Word) : Prop := ctr = 0 ∨ ∃ d, access s s.me .counter ctr 8 .atomic = (s, .ok d)

/-! ### The host's pages and commands (R315 to R317, R381 to R386) -/

/-- A register write leaves a queue page so, outside CTL and LAUNCH, while EN is 0 (R315, R316). -/
def writtenPage (p : QueuePage) (off : Nat) (w : Word) : QueuePage :=
  let age := w.extractLsb' 16 6
  if off = 0x048 then
    if 12 ≤ age.toNat ∧ age.toNat ≤ 30 ∧ w.extractLsb' 8 8 ≠ 0 then { p with prio := w &&& 0x3FFF07 } else p
  else if off = 0x050 then if w.extractLsb' 12 3 ≠ 0 then { p with cfg := w &&& 0x37FFF } else p
  else if off = 0x058 then { p with s1root := w &&& ~~~0x1FFF }
  else if off = 0x060 then { p with s2root := w &&& ~~~0x1FFF }
  else if off = 0x068 then { p with ovfbase := w &&& ~~~0x3F }
  else if off = 0x070 then { p with ovfcnt := w }
  else if off = 0x078 then { p with frbase := w &&& ~~~0x7F }
  else if off = 0x080 then { p with frsize := w }
  else if off = 0x090 then { p with colltab := w }
  else if 0x0C0 ≤ off ∧ off < 0x108 ∧ off % 8 = 0 then
    let k := 8 * (off - 0x0C0)
    { p with mask := p.mask &&& ~~~ ((BitVec.allOnes 64).setWidth 576 <<< k) ||| (w.setWidth 576 <<< k) }
  else p

/-- The launches that R317 accepts, on a queue page. -/
abbrev LaunchOk (s : State) (q : Nat) (whole : Bool) (r : BitVec 512) : Prop :=
  (s.queue q).en = true ∧ whole = true ∧ r.extractLsb' 0 6 = 0 ∧ r.extractLsb' 128 16 ≠ 0 ∧ r.extractLsb' 145 47 = 0 ∧
  r.extractLsb' 273 239 = 0 ∧ (r.getLsbD 272 = true → 1024 ≤ (r.extractLsb' 256 16).toNat ∧ (r.extractLsb' 256 16).toNat ≤ 2045) ∧
  s.isFenced (s.queue q).origin 7 0 = false

/-- A command: its die, its record, whether a reserved operand bit is set, and whether CD0 alone takes it (R385). -/
def commandOf (i : Instr) : Option (Nat × Cmd × Bool × Bool) :=
  match i with
  | .boot d c => some (d, c, false, false)
  | .fmode d c => some (d, c, decide (64 ≤ c.d1.toNat), true)
  | .pool d c => some (d, c, false, false)
  | .dplist d c => some (d, c, decide (1024 ≤ c.d1.toNat), false)
  | .pmset d c => some (d, c, decide (2 ≤ c.d2.toNat), false)
  | .inval d c => some (d, c, c.d1 &&& ~~~0x30FFF != 0 || c.d1.extractLsb' 16 2 == 3, true)
  | .fence d c => some (d, c, decide (16 ≤ c.d1.toNat), false)
  | .reset d c => some (d, c, decide (16 ≤ c.d1.toNat), false)
  | .keyreg d c => some (d, c, decide (4096 ≤ c.d1.toNat), true)
  | .load d c => some (d, c, decide (4096 ≤ c.d5.toNat), true)
  | .ckpt d c => some (d, c, false, true)
  | .restore d c => some (d, c, false, true)
  | .quote d c => some (d, c, false, true)
  | _ => none

/-- The state after a command has completed with a status: CMDSTAT, and with IRQ an event of kind 4 (R385, R395). -/
def Completes (s t : State) (d : Nat) (c : Cmd) (status : Nat) : Prop :=
  t = { s with dies := t.dies, msix := t.msix } ∧ (∀ k, k ≠ d → t.die k = s.die k) ∧
  t.die d = { s.die d with
    cmdDone := (s.die d).cmdDone + 1, cmdTag := c.tag, cmdStatus := BitVec.ofNat 8 status,
    ring := (t.die d).ring, evOver := (t.die d).evOver, evHead := (t.die d).evHead } ∧
  (c.irq = false → t.msix = s.msix ∧ (t.die d).ring = (s.die d).ring ∧ (t.die d).evHead = (s.die d).evHead) ∧
  (c.irq = true → t.msix = s.msix ++ [(d, 2047)] ∧ (t.die d).evHead = (s.die d).evHead + 1 ∧
    ∃ r, (t.die d).ring.getLast? = some r ∧ r.extractLsb' 0 8 = 4)

/-- The units of R386 on a die. -/
def unitRange (kind : Nat) : Nat := [144, 18, 61, 64, 3, 4, 1, 1, 1][kind]?.getD 0

/-- A die that is in reset: nothing of it is left, its coupling ports await training, and the rest of the device stays; the queue pages have
their reset values once every die is in reset (R316, R387). -/
def DieCleared (s t : State) (d : Nat) : Prop :=
  (∀ c, t.core c = if coreDie c = d then CoreSt.reset else s.core c) ∧
  t.vlc = (if coreDie s.vlc.core = d then { Vlc.reset with core := s.vlc.core, slot := s.vlc.slot } else s.vlc) ∧
  t.others = s.others.filter (fun v => coreDie v.core != d) ∧ t.gangs = s.gangs.filter (·.die != d) ∧
  t.nodes = s.nodes.filter (·.die != d) ∧ t.graphs = s.graphs.filter (·.die != d) ∧ t.engines = s.engines.filter (·.die != d) ∧
  t.steps = s.steps.filter (·.die != d) ∧ t.tlb = s.tlb.filter (·.die != d) ∧
  (∀ k u, t.isFenced d k u = (k == 5 && decide (u < 4))) ∧ (∀ e k u, e ≠ d → t.isFenced e k u = s.isFenced e k u) ∧
  (∀ e, e < 4 → e ≠ d → t.die e = s.die e ∧ t.landauOf e = s.landauOf e) ∧ t.landauOf d = Landau.reset ∧
  (t.die d).cmdDone = 0 ∧ (t.die d).evHead = 0 ∧ (t.die d).poolUsed = [] ∧ (t.die d).pooled = false ∧ (t.die d).throttle = false ∧
  (t.die d).trip = false ∧ (t.die d).resetReleased = false ∧
  (∀ q, t.queue q = if ((List.range 4).all fun e => e == d || !(s.die e).resetReleased) = true then QueuePage.reset
    else { s.queue q with preempt := (t.queue q).preempt }) ∧
  (∀ c k, c < 576 → k < 524288 → memByte t.mem (lsAddr c k) = if coreDie c = d then 0 else memByte s.mem (lsAddr c k)) ∧
  (∀ a, a < deviceEnd → memByte t.mem a = memByte s.mem a)

/-- How a halt leaves a VLC of the gang: it stands where it stood, and one that waits at a barrier is to wait there again on
resume, or to find it satisfied (R31, R32, R333). -/
def HaltedAs (v w : Vlc) : Prop :=
  SameRegisters v w ∧ w.pc = v.pc ∧ w.plans = v.plans ∧ w.vwait = .no ∧
  (v.status = .running → w.status = .halted ∧ w.barrier = v.barrier) ∧
  (∀ x, v.status = .waiting x ∨ v.status = .satisfied x → w.status = .halted ∧
    w.barrier = match x with
      | .barrier id => some (id, decide (v.status = .satisfied x))
      | _ => v.barrier) ∧
  (v.status = .suspended ∨ v.status = .retired ∨ v.status = .absent ∨ v.status = .halted ∨ v.status = .debug →
    w.status = v.status ∧ w.barrier = v.barrier)

/-- A gang has left its cores: none of its VLCs is there, and its LS regions read zero (R25, R195). -/
def Cleared (t : State) (g : Gang) : Prop :=
  (∀ v ∈ t.vlcs, v.gang = g.id → v.status = .absent) ∧
  ∀ x ∈ g.cores.zip g.lsBase, ∀ k, k < shapeLs g.shape → memByte t.mem (lsAddr x.1 x.2 + k) = 0

/-- A record waits to be posted with a code and a source (R368, R369). -/
def Recorded (t : State) (q : Nat) (code : BitVec 8) (src : Nat) : Prop :=
  ∃ r ∈ t.pendRecs, r.queue = q ∧ r.image.extractLsb' 32 8 = code ∧ r.image.extractLsb' 60 3 = BitVec.ofNat 3 src ∧
    r.image.getLsbD 63 = true ∧ r.gang = none

/-- The gate records that a core sees from a place on, and the bytes they take (R337). -/
def gateRecords (s : State) (p : Dest) : Nat → Nat → List GateRec
  | 0, _ => []
  | n + 1, off =>
    let h := seen s s.vlc.core (plusDest p off) 8
    let e := field h 48 16
    ⟨BitVec.ofNat 32 (field h 0 32), BitVec.ofNat 16 (field h 32 16),
      (List.range e).map fun k => BitVec.ofNat 32 (seen s s.vlc.core (plusDest p (off + 8 + 4 * k)) 4), s.gang.queue, none⟩
      :: gateRecords s p n (off + (8 + 4 * e + 7) / 8 * 8)

def gateLength : List GateRec → Nat
  | [] => 0
  | r :: rest => (8 + 4 * r.logits.length + 7) / 8 * 8 + gateLength rest

/-- A byte copy whose bytes the engine's accesses accept: every destination byte and source byte, with cached translations, in device
memory and outside LO pages; no destination byte is a source byte or stands for two (R328). -/
def CopyPlaced (s : State) (o : EngOp) (dst src : Nat → Nat) (kind : Nat) : Prop :=
  kind ≠ 3 ∧ s.poison = [] ∧ o.off ≤ o.len.toNat ∧
  ∀ i, o.off ≤ i → i < o.len.toNat →
    engByte s (engParty s o) (o.dst + BitVec.ofNat 64 i) .write false = (s, .ok (.phys (dst i) kind)) ∧ placeOf (dst i) = .device ∧
    (∃ k, k ≠ 3 ∧ engByte s (engParty s o) (o.src + BitVec.ofNat 64 i) .read false = (s, .ok (.phys (src i) k))) ∧
    placeOf (src i) = .device ∧
    ∀ j, o.off ≤ j → j < o.len.toNat → dst i ≠ src j ∧ (i ≠ j → dst i ≠ dst j)

/-- The requests that a home decides in a round of a step (R339). -/
def asked (s : State) (st : HStep) (rnd : Nat) : List Reserve :=
  s.reserves.filter fun r => r.home == st.die && r.step == st.stepNo && r.round == rnd && !r.decided

end Sys2Proof.Machine
end

