-- ==== Sys2Proof/Certificates/Slice0/Obligations.lean ====
section
/-! DEFINITION. The statements for the provers, from the numbered rules of spec/: OBLIGATIONS.json lists them. -/

open Sys2Proof Sys2Proof.Machine

/-! ### Encoding, decoding and the step -/

/-- R49 to R54: a few words, written out field by field from the encoding tables, decode to what they stand for. -/
def Obligations.DecodeWords : Prop :=
  decode (0b000001#6 ++ 0b01011#5 ++ 0b0010110#7 ++ 0b0010101#7 ++ 0b0010100#7) = .ok (.mulh 20 21 22) ∧
  decode (0b000110#6 ++ 0b01#2 ++ 0b0000#4 ++ 0b000011#6 ++ 0b0000111#7 ++ 0b0000111#7) = .ok (.shri 7 7 3) ∧
  decode (0b001000#6 ++ 0x12345#19 ++ 0b0001010#7) = .ok (.lui 10 0x12345) ∧
  decode (0b111000#6 ++ 0b00#2 ++ 0b0#1 ++ 0x3E00#16 ++ 0b0001010#7) = .ok (.flimm .fp16 10 0x3E00) ∧
  decode (0b001011#6 ++ 0x000#12 ++ 0b0000001#7 ++ 0b0000000#7) = .ok (.jalr 0 1 0) ∧
  decode (0b010111#6 ++ 0b01#2 ++ 0x019#10 ++ 0b0001011#7 ++ 0b0001100#7) = .ok (.ctlWr 12 11 0x019) ∧
  decode (0x7FC18104 : BitVec 32) = .ok (.vmacc 3 true 4 2 6) ∧
  decode (0x98014004 : BitVec 32) = .ok (.vcvt 0 (.fp .e4m3 false) 4 0) ∧
  (∀ w ∈ [(0x00000000 : BitVec 32), 0xFFFFFFFF, 0x07000000, 0x1B000000, 0x9C800001, 0xE4000000],
    ∃ e, decode w = .error e)

/-- R49 to R55: decoding the word of a well-formed instruction gives the instruction back, every operand kept. -/
def Obligations.EncodeDecodeRoundTrip : Prop := ∀ i : Instr, Laws.Encoding.Statement i

/-- R49 to R58: a word that decodes is the word of the one well-formed instruction it decodes to. -/
def Obligations.DecodeEncodeRoundTrip : Prop :=
  ∀ (w : BitVec 32) (i : Instr), decode w = .ok i → i.wf = true ∧ i.hasWord = true ∧ encode i = w

/-- R36, R48, R56: a step whose turn falls to the VLC at the front fetches the word at the pc and runs what it decodes to (a
word that is none, the illegal word); around that the device ends a single step, lets strips that have ended leave their values, passes time and turns
on.
(The model's choices it rests on: assumptions 3, 4, 61.) -/
def Obligations.StepRunsDecoded : Prop :=
  ∀ (s t u : State) (w : BitVec 32) (i : Instr),
    s.inputs = [] → s.tick % 2 = 0 → s.gangs.find? watchdogDue = none → canIssue s s.vlc = true → s.vlc.yielded = false →
    s.vlc.pendFault = none → s.vlc.vq = [] → fetchWord s = (t, .ok w) →
    (decode w = .ok i ∨ (∃ e, decode w = .error e) ∧ i = .illegalWord w) →
    exec i t = .next u →
    (issuedBy i t u = true → step s = .next (rotate (endStep (some t.vlc.core) (stopStepped u).settle))) ∧
    (issuedBy i t u = false → step s = .next (rotate (endStep none u.settle)))

/-- Assumption 2, DESIGN CHOICE: the placed instruction is the one that the next step fetches from the page at address 0, whose
home is die 0: the fetch reads its line there, which counts where it misses the L2 and where the core is of another die (R354, R356), and
nothing else changes.
(The model's choices it rests on: assumptions 2, 61.) -/
def Obligations.PlacedWordIsFetched : Prop :=
  ∀ (s : State) (w : Nat), w < 2 ^ 32 → (s.die (coreDie s.vlc.core)).throttle = false → TablesOk s →
    let p := s.withFetchWord 32 w
    nextMove p = .turn p ∧ (fetchWord p).2 = .ok (BitVec.ofNat 32 w) ∧ 
    (fetchWord p).1 = { p with modes := (fetchWord p).1.modes, l2 := (fetchWord p).1.l2, perf := (fetchWord p).1.perf } ∧
    (coreDie s.vlc.core = 0 → (fetchWord p).1.modes = p.modes ∧ (l2Holds p 0 0 = true → (fetchWord p).1.perf = p.perf))

/-! ### Reset and the invariants -/

/-- R18, R100, R102, R316, R351, R349, R387, R392: what reset leaves, where the spec gives the value.
(The model's choices it rests on: assumptions 1, 2.) -/
def Obligations.ResetValues : Prop :=
  let s := State.reset
  s.vlc.vt = ⟨.e32, .e32, 0, .undisturbed, false, .i⟩ ∧ s.vlc.vt.word = 0x4800 ∧ s.vlc.vl = 0 ∧ s.vlc.vstart = 0 ∧
  s.vlc.vscope = 4 ∧ s.vlc.fflags = 0 ∧ s.vlc.frm = 0 ∧ s.vlc.rot = 0 ∧ s.vlc.mvl = 0 ∧ s.vlc.wins = 0 ∧ s.vlc.winv = 0 ∧
  s.vlc.faultRegs = ⟨0, 0, 0, 0⟩ ∧ s.vlc.handlerPc = 0 ∧ s.vlc.handlerEn = false ∧ s.funcmode = 0 ∧
  (∀ q, (s.queue q).en = false) ∧ (∀ q, (s.queue q).prio = 0x00140100) ∧ (∀ q, (s.queue q).cfg = 0x7000) ∧
  (∀ c, (s.core c).round = 0 ∧ (s.core c).q = 0 ∧ (s.core c).fe = [] ∧ (s.core c).l1 = []) ∧
  (∀ d, (s.die d).phase = 0) ∧ (∀ a, memByte s.mem a = 0)

/-- The machine after reset has the invariants: every table in canonical form, and caches that hold each line once. -/
def Obligations.InvariantsAtReset : Prop := Memory.wf State.reset.mem = true ∧ TablesOk State.reset ∧ CachesOk State.reset

/-- Every step keeps the memory list in canonical form, so that equal memories are equal data. -/
def Obligations.StepKeepsMemoryCanonical : Prop :=
  ∀ s t : State, Memory.wf s.mem = true → step s = .next t → Memory.wf t.mem = true

/-- Every step keeps every sparse table of the state in canonical form, so that equal contents are equal data. -/
def Obligations.StepKeepsTables : Prop := ∀ s t : State, TablesOk s → step s = .next t → TablesOk t

/-- R193: every step leaves each line at most once in a core's L1, and only valid bytes dirty.
(The model's choices it rests on: assumption 10.) -/
def Obligations.StepKeepsCaches : Prop := ∀ s t : State, TablesOk s → CachesOk s → step s = .next t → CachesOk t

/-! ### The scalar unit -/

/-- R94 to R97: the register, immediate, upper and literal forms write x[D] and go on to the next word; nothing else
changes. -/
def Obligations.ScalarResult : Prop :=
  ∀ (i : Instr) (s : State) (d : Fld) (w : Word), scalarValue i s.vlc = some (d, w) →
    exec i s = .next { s with vlc := (s.vlc.wx d w).next }

/-- R51, R92: which register a field names, what a write through a field leaves, and that x0 reads as zero and takes no
write. -/
def Obligations.RegisterReadBack : Prop :=
  ∀ (v : Vlc) (f g : Fld) (w : Word),
    xNum v.wins f = (if f.toNat < 32 then f.toNat else f.toNat + 32 * v.wins.val) ∧ xNum v.wins f < 256 ∧
    (v.wx f w).rx g = (if xNum v.wins f = xNum v.wins g ∧ g ≠ 0 then w else v.rx g) ∧
    v.rx 0 = 0 ∧ v.wx 0 w = v ∧ v.wx f w = { v with x := (v.wx f w).x }

/-- R98, R99: a branch goes to PC + sext(imm) × 4 when its condition holds and to the next word otherwise; `jal` and
`jalr` write the link; a `jalr` target that is no multiple of 4 raises ALIGN at the `jalr` and writes nothing. -/
def Obligations.BranchesAndJumps : Prop :=
  (∀ (i : Instr) (s : State) (taken : Bool) (imm : BitVec 12), branchOf i s.vlc = some (taken, imm) →
    exec i s = .next { s with vlc := s.vlc.goto (if taken then s.vlc.pc + imm.signExtend 64 * 4 else s.vlc.pc + 4) }) ∧
  (∀ (imm : BitVec 26) (s : State),
    exec (.jal imm) s = .next { s with vlc := (s.vlc.setX 1 (s.vlc.pc + 4)).goto (s.vlc.pc + imm.signExtend 64 * 4) }) ∧
  (∀ (d a : Fld) (imm : BitVec 12) (s : State), (s.vlc.rx a + imm.signExtend 64 * 4).extractLsb' 0 2 = 0 →
    exec (.jalr d a imm) s = .next { s with vlc := (s.vlc.wx d (s.vlc.pc + 4)).goto (s.vlc.rx a + imm.signExtend 64 * 4) }) ∧
  (∀ (d a : Fld) (imm : BitVec 12) (s : State), (s.vlc.rx a + imm.signExtend 64 * 4).extractLsb' 0 2 ≠ 0 →
    s.vlc.vq = [] ∨ s.vlc.inHandler = true →
    exec (.jalr d a imm) s = .next (takeFault s ⟨0x12, false, (s.vlc.rx a + imm.signExtend 64 * 4).setWidth 56, s.vlc.pc, 0⟩))

/-! ### Vector registers -/

/-- R129, R130, R133: the element-wise arithmetic, both signs and every class, vector or scalar B, and the widening and narrowing rows
(elements of 2 × SEW in twice the names): each active element from VSTART to VL - 1 takes the element operation's value, an inactive
one is kept or zeroed, the tail follows TP, D takes the tag of R128, the flags are the union over the elements, and nothing else of the
VLC changes but VSTART and the pc.  Two points are the model's choice: that the flags of the scalar's conversion enter with each active
element, those from VSTART on too (assumption 64, DESIGN CHOICE), and that a group whose names carry different tags is compared and passed
on by the tag of its first name (assumption 67, DESIGN CHOICE).
(The model's choices it rests on: assumptions 8, 27, 64, 67.) -/
def Obligations.VectorArithmetic : Prop :=
  ∀ (i : Instr) (s : State) (r : ElemRule), arithmeticRule i s.vlc = some r ∨ widthRule i s.vlc = some r → r.ok → VecRunning s.vlc →
    ∃ t f, exec i s = .next t ∧ VecDone s t f (flagsAfter s.vlc r) ∧ GroupHolds s.vlc r f

/-- R131, R134, R137, R139, R140, R142: merges, moves, unary operations, permutations, `vid`, `vbscale` and the conversions
that do not rotate.  Four points are the model's choice: when the flags of the scalar of `vmvVx` and `vmerge` enter, at a start from VSTART
too (assumption 64, DESIGN CHOICE), what `vslup` under zeroing leaves below x[B] (assumption 65, DESIGN CHOICE), for which elements `vmerge`
has such flags (assumption 66, DEDUCED), and the tag of a group by its first name (assumption 67, DESIGN CHOICE).
(The model's choices it rests on: assumptions 8, 27, 28, 64, 65, 66, 67.) -/
def Obligations.VectorMovement : Prop :=
  ∀ (i : Instr) (s : State) (r : ElemRule), movementRule i s.vlc = some r → r.ok → VecRunning s.vlc →
    ∃ t f, exec i s = .next t ∧ VecDone s t f (flagsAfter s.vlc r) ∧ GroupHolds s.vlc r f

/-- R139, R141: the rotations, whole blocks at a time; R136: `vdot`; R145: `pexp`.  That a group rotates by the tag of its first name, and that
`vdot` compares its destination's tag too, is the model's choice (assumption 67, DESIGN CHOICE).
(The model's choices it rests on: assumptions 8, 14, 15, 28, 67.) -/
def Obligations.VectorBlocks : Prop :=
  (∀ (i : Instr) (s : State) (r : ElemRule), rotationRule i s = some r → r.ok → VecRunning s.vlc →
    ∃ t f, exec i s = .next t ∧ VecDone s t f (flagsAfter s.vlc r) ∧ GroupHolds s.vlc r f) ∧
  (∀ (pg : BitVec 2) (d a b : Fld) (s : State), (dotRule pg d a b s.vlc).ok → VecRunning s.vlc →
    ∃ t f, exec (.vdot pg d a b) s = .next t ∧ VecDone s t f (flagsAfter s.vlc (dotRule pg d a b s.vlc)) ∧
      GroupHolds s.vlc (dotRule pg d a b s.vlc) f) ∧
  (∀ (d a b : Fld) (s : State), (expandRule d a b s.vlc).ok → VecRunning s.vlc → s.vlc.vstart = 0 →
    ∃ t f, exec (.pexp d a b) s = .next t ∧ VecDone s t f s.vlc.fflags ∧ GroupHolds s.vlc (expandRule d a b s.vlc) f)

/-- R127, R132, R143, R144: a compare writes one bit an element, its tail and its flags; the predicate operations and scans; inactive
bits follow the mask policy, tail bits TP.  Two points are the model's choice: that the flags of a scalar's conversion enter with each active
element, those from VSTART on too (assumption 64, DESIGN CHOICE), and that the compares of two vectors compare the tags of their first names
(assumption 67, DESIGN CHOICE).
(The model's choices it rests on: assumptions 8, 64, 67.) -/
def Obligations.PredicateResults : Prop :=
  (∀ (i : Instr) (s : State) (r : CompareRule), compareRule i s.vlc = some r → r.ok → VecRunning s.vlc →
    ∃ t f, exec i s = .next t ∧ VecDone s t f (compareFlags s.vlc r) ∧ PredicateHolds s.vlc r.d (compareBit s.vlc r) f) ∧
  (∀ (i : Instr) (s : State) (pg : BitVec 2) (d : Nat) (ok : Prop) (bit : Nat → Bool),
    predicateRule i s.vlc = some (pg, d, ok, bit) → ok → VecRunning s.vlc → s.vlc.vstart = 0 →
    ∃ t f, exec i s = .next t ∧ VecDone s t f s.vlc.fflags ∧
      PredicateHolds s.vlc d (fun j => if s.vlc.active pg j then bit j else if s.vlc.vt.mz then false else s.vlc.vf.pbit d j) f) ∧
  (∀ (i : Instr) (s : State) (d : Fld) (ok : Prop) (w : Word),
    scanRule i s.vlc = some (d, ok, w) → ok → VecRunning s.vlc → s.vlc.vstart = 0 →
    ∃ t f, exec i s = .next t ∧
      VecDone { s with vlc := s.vlc.wx d w } t f s.vlc.fflags ∧
      f.v = s.vlc.vf.v ∧ f.dead = s.vlc.vf.dead ∧ f.tag = s.vlc.vf.tag ∧ f.p = s.vlc.vf.p)

/-- R84, R135, R145: reductions write element 0, the compress family elements 0, 1, …, and the tail follows.  That the tags of groups are
compared by their first names is the model's choice (assumption 67, DESIGN CHOICE).
(The model's choices it rests on: assumptions 8, 27, 67.) -/
def Obligations.VectorListResults : Prop :=
  (∀ (i : Instr) (s : State) (r : ListRule), listRule i s.vlc = some r → r.ok → VecRunning s.vlc → s.vlc.vstart = 0 →
    ∃ t f, exec i s = .next t ∧ VecDone s t f (s.vlc.fflags ||| r.fl) ∧ ListHolds s.vlc r f) ∧
  (∀ (pg : BitVec 2) (d a b : Fld) (s : State),
    let n := 2 ^ s.vlc.vt.grp.val
    clsRange s.vlc.vt.cls 0 4 → 16 ≤ s.vlc.vt.sew.bits → groupOk (vNum s.vlc.winv d) n → groupOk (vNum s.vlc.winv a) n →
    apart (vNum s.vlc.winv d) n (vNum s.vlc.winv a) n → VecRunning s.vlc → s.vlc.vstart = 0 →
    let signalling := (List.range s.vlc.vl).any fun i => s.vlc.active pg i && s.vlc.vt.cls.isFp &&
      (fpVal s.vlc.vt.cls (s.vlc.vf.elem (vNum s.vlc.winv a) s.vlc.vt.sew.bits i)).isSnan
    ∃ t f out, exec (.vtop pg d a b) s = .next t ∧ VecDone s t f (s.vlc.fflags ||| if signalling then 16 else 0) ∧ TopList pg a b s.vlc out ∧
      ListHolds s.vlc ⟨vNum s.vlc.winv d, True, out, 0⟩ f) ∧
  (∀ (d a : Fld) (s : State), groupOk (vNum s.vlc.winv a) (2 ^ s.vlc.vt.grp.val) → VecReady s.vlc → s.vlc.poison = [] →
    let x := s.vlc.vf.elem (vNum s.vlc.winv a) s.vlc.vt.sew.bits 0
    let y : Word := match s.vlc.vt.cls with
      | .i => BitVec.ofInt 64 (sgn s.vlc.vt.sew.bits x)
      | .e3m2 | .e2m3 => BitVec.ofNat 64 (x % 64)
      | _ => BitVec.ofNat 64 x
    ∃ t f, exec (.vmvXv d a) s = .next t ∧ VecDone { s with vlc := s.vlc.wx d y } t f s.vlc.fflags ∧
      f.v = s.vlc.vf.v ∧ f.dead = s.vlc.vf.dead ∧ f.tag = s.vlc.vf.tag ∧ f.p = s.vlc.vf.p)

/-! ### Scalar memory -/

/-- R193, R223: a scalar load whose access is accepted extends the bytes that the core sees at the place into x[D]; memory, every other
register and what the core sees elsewhere stay, but that its L1 may give up a line. (The place is aligned, as every translation of a run
leaves it, and no update of an SO line is on its way to the core.)
(The model's choices it rests on: assumptions 3, 10, 57.) -/
def Obligations.ScalarLoad : Prop :=
  ∀ (i : Instr) (s t : State) (n : Nat) (sx : Bool) (d : Fld) (va : Word) (p : Dest),
    loadForm i s.vlc = some (n, sx, d, va) → access s s.me .load va n .read = (t, .ok p) → p.pa % n = 0 → TablesOk t →
    NoSnoops t s.vlc.core →
    ∃ u, exec i s = .next { u with vlc := (t.vlc.wx d (widened n sx (seen t s.vlc.core p n))).next } ∧ OnlyCaches t u ∧
      (CachesOk t → SeenOutside t u s.vlc.core 0 0)

/-- R193, R223, R224: a scalar store whose access is accepted leaves the low bytes of x[B] at the place, as the core sees it and for an access
at the home, and every other byte as before; in an LO cell it takes the next sequence number and enters the crossbar queue.
(The model's choices it rests on: assumptions 3, 10, 12, 57.) -/
def Obligations.ScalarStore : Prop :=
  ∀ (i : Instr) (s t : State) (n : Nat) (b : Fld) (va : Word) (p : Dest),
    storeForm i s.vlc = some (n, b, va) → access s s.me .store va n .write = (t, .ok p) → p.pa % n = 0 → TablesOk t → CachesOk t →
    NoSnoops t s.vlc.core → KindHeld t s.vlc.core p →
    ∃ u, exec i s = .next { u with vlc := u.vlc.next } ∧
      (p.isLo = false → SameRegisters t.vlc u.vlc ∧ (∀ k, k < n → seenByte u s.vlc.core p k = byteOf (s.vlc.rx b).toNat k ∧
          homeByte u s.vlc.core p k = byteOf (s.vlc.rx b).toNat k) ∧
        SeenOutside t u s.vlc.core p.pa n ∧ MemoryOutside t u p.pa n) ∧
      (p.isLo = true → SameRegisters { t.vlc with pseq := nextSeq t } u.vlc ∧ u.mem = t.mem ∧
        (u.core s.vlc.core).q = nextSeq t ∧
        LoIssued u s.vlc.core p.pa (s.vlc.rx b) (nextSeq t) (BitVec.ofNat 12 s.vlc.core))

/-- R241, R343: an atomic reads its place at the home, writes the new value there in the same step, and x[D] takes the old one; the counter
instructions `cinc`, `cset` and `cread` on an accepted counter write x[D] and go on to the next word, and `cwait` and `pwait` go on or stay
and enter their wait with what they wait for; no other register changes (what counters and waits read and leave at the home is
CountersAndWaits').  (No SO line of the core's L1 holds a dirty byte.)
(The model's choices it rests on: assumptions 3, 57.) -/
def Obligations.AtomicUpdate : Prop :=
  (∀ (i : Instr) (s t : State) (n : Nat) (sx : Bool) (d a b : Fld) (f : Nat → Nat → Nat → Nat) (p : Dest),
    atomicForm i = some (n, sx, d, a, b, f) → access s s.me .atomic (s.vlc.rx a) n .atomic = (t, .ok p) → p.pa % n = 0 →
    TablesOk t → SoClean t s.vlc.core →
    let old := homeNat t s.vlc.core p n
    ∃ u, exec i s = .next { u with vlc := (u.vlc.wx d (widened n sx old)).next } ∧ SameRegisters t.vlc u.vlc ∧ u.vlc.pc = t.vlc.pc ∧
      memRead u.mem p.pa n = f old ((s.vlc.rx b).toNat % 256 ^ n) ((s.vlc.rx d).toNat % 256 ^ n) ∧
      homeNat u s.vlc.core p n = memRead u.mem p.pa n ∧ HomeOutside t u s.vlc.core p.pa n ∧
      MemoryOutside t u (p.pa / 128 * 128) 128) ∧
  (∀ (i : Instr) (s t : State) (d a b : Fld) (p : Dest), i = .cinc d a b ∨ i = .cset d a b →
    access s s.me .counter (s.vlc.rx a) 8 .atomic = (t, .ok p) →
    ∃ (u : State) (w : Word), exec i s = .next { u with vlc := (u.vlc.wx d w).next } ∧ SameRegisters t.vlc u.vlc ∧
      u.vlc.pc = t.vlc.pc) ∧
  (∀ (s t : State) (d a : Fld) (p : Dest), access s s.me .cread (s.vlc.rx a) 8 .read = (t, .ok p) →
    ∃ (u : State) (w : Word), exec (.cread d a) s = .next { u with vlc := (u.vlc.wx d w).next } ∧ SameRegisters t.vlc u.vlc ∧
      u.vlc.pc = t.vlc.pc) ∧
  (∀ (s t : State) (sc : BitVec 7) (a b : Fld) (p : Dest), sc.toNat < 6 →
    (access s s.me .counter (s.vlc.rx a) 8 .read = (t, .ok p) → ∃ u : State, SameRegisters t.vlc u.vlc ∧ u.vlc.pc = t.vlc.pc ∧
      (exec (.cwait sc a b) s = .next { u with vlc := u.vlc.next } ∨
        exec (.cwait sc a b) s = .next u ∧ u.vlc.status = .waiting (.counter p.pa (s.vlc.rx b) (scopeOfCode sc.toNat)))) ∧
    (access s s.me .pwait (s.vlc.rx a) 8 .read = (t, .ok p) → ∃ u : State, SameRegisters t.vlc u.vlc ∧ u.vlc.pc = t.vlc.pc ∧
      (exec (.pwait sc a b) s = .next { u with vlc := u.vlc.next } ∨
        exec (.pwait sc a b) s = .next u ∧ u.vlc.status = .waiting (.progress p.pa (s.vlc.rx b) (scopeOfCode sc.toNat)))))

/-- R221, R225, R260, R261: `ld.acq` zero-extends what it finds (at the home, but for scope ctx) and acquires; `st.rel` sends every
earlier RC write of the core to its home and then stores as a plain store does.
(The model's choices it rests on: assumptions 9, 57.) -/
def Obligations.AcquireLoadReleaseStore : Prop :=
  (∀ (sc : Scope) (w : QWidth) (x a : Fld) (imm : BitVec 6) (s t : State) (p : Dest),
    let n := widthBytes w
    accessIn (if sc = .ctx then .plain else .bypass) s s.me .load (s.vlc.rx a + imm.signExtend 64 * BitVec.ofNat 64 n) n .read
      = (t, .ok p) → p.pa % n = 0 → TablesOk t → NoSnoops t s.vlc.core →
    ∃ u, exec (.ldAcq sc w x a imm) s = .next { u with vlc := (u.vlc.wx x (BitVec.ofNat 64
        (if sc = .ctx then seen t s.vlc.core p n else homeNat t s.vlc.core p n))).next } ∧
      SameRegisters t.vlc u.vlc ∧ MemoryOutside t u (p.pa / 128 * 128) 128 ∧
      (leavesL1 s s.vlc.core sc → Acquired u s.vlc.core)) ∧
  (∀ (sc : Scope) (w : QWidth) (x a : Fld) (imm : BitVec 6) (s t : State) (p : Dest),
    let n := widthBytes w
    access s s.me .store (s.vlc.rx a + imm.signExtend 64 * BitVec.ofNat 64 n) n .write = (t, .ok p) → p.pa % n = 0 →
    TablesOk t → CachesOk t → KindHeld t s.vlc.core p →
    ∃ u, exec (.stRel sc w x a imm) s = .next { u with vlc := u.vlc.next } ∧
      (p.isLo = false → SameRegisters t.vlc u.vlc ∧
        ∀ k, k < n → seenByte u s.vlc.core p k = byteOf (s.vlc.rx x).toNat k ∧
          homeByte u s.vlc.core p k = byteOf (s.vlc.rx x).toNat k) ∧
      (p.isLo = true → SameRegisters { t.vlc with pseq := nextSeq t } u.vlc ∧
        LoIssued u s.vlc.core p.pa (s.vlc.rx x) (nextSeq t) (BitVec.ofNat 12 s.vlc.core)) ∧
      (leavesL1 s s.vlc.core sc → DirtyRcIn u s.vlc.core (fun x => p.pa ≤ x ∧ x < p.pa + n) ∧
        (FewSent t s.vlc.core → (u.core s.vlc.core).round = (t.core s.vlc.core).round + 1)))

/-- R38, R193, R221, R257, R260, R261, R365: what each fence waits for (the queued entries that access memory, and no others), and what it
leaves of the core's L1; a release moves bytes and changes none: what an access at the home finds is the same before and after.
(The model's choices it rests on: assumptions 9, 57.) -/
def Obligations.FenceEffects : Prop :=
  (∀ s : State, exec .fenceSv s = .next { s with vlc := s.vlc.next }) ∧
  (∀ s : State, NoVectorAccess s.vlc ∨ s.vlc.inHandler = true → exec .fenceVs s = .next { s with vlc := s.vlc.next }) ∧
  (∀ (s : State) (sc : Scope), ¬ NoVectorAccess s.vlc → s.vlc.inHandler = false →
    exec .fenceVs s = .next s ∧ exec (.fenceAcq sc) s = .next s ∧ exec (.fenceRel sc) s = .next s ∧
    exec (.fenceFull sc) s = .next s) ∧
  (∀ (s : State) (sc : Scope), NoVectorAccess s.vlc ∨ s.vlc.inHandler = true → TablesOk s →
    (∃ u, exec (.fenceAcq sc) s = .next { u with vlc := s.vlc.next } ∧ u = { s with cores := u.cores, snoops := u.snoops } ∧
      (leavesL1 s s.vlc.core sc → Acquired u s.vlc.core) ∧ (sc ≠ .ctx → NoSnoops u s.vlc.core) ∧
      (¬ leavesL1 s s.vlc.core sc → sc = .ctx ∨ NoSnoops s s.vlc.core → u = s)) ∧
    (∃ u, exec (.fenceRel sc) s = .next { u with vlc := u.vlc.next } ∧ SameRegisters s.vlc u.vlc ∧
      (leavesL1 s s.vlc.core sc → NoDirtyRc u s.vlc.core ∧
        (FewSent s s.vlc.core → (u.core s.vlc.core).round = (s.core s.vlc.core).round + 1)) ∧
      (¬ leavesL1 s s.vlc.core sc → u = s)) ∧
    (∃ u, exec (.fenceFull sc) s = .next { u with vlc := u.vlc.next } ∧ SameRegisters s.vlc u.vlc ∧
      (leavesL1 s s.vlc.core sc → NoDirtyRc u s.vlc.core ∧ Acquired u s.vlc.core) ∧
      (¬ leavesL1 s s.vlc.core sc → sc = .ctx ∨ NoSnoops s s.vlc.core → u = s))) ∧
  (∀ (s : State) (sc : Scope) (core : Nat), TablesOk s → (∀ c, ((s.core c).l1.map (·.line)).Nodup) → CachesPlaced s core →
    NoSnoops s core → HomeOutside s (releaseAt s core sc) core 0 0)

/-- R182, R210, R219: checking an access changes no register, and a cached translation changes nothing at all.
(The model's choices it rests on: assumption 11.) -/
def Obligations.AccessKeepsRegisters : Prop :=
  ∀ (s : State) (p : Party) (rule : AccRule) (va : Word) (n : Nat) (acc : Acc),
    SameRegisters s.vlc (access s p rule va n acc).1.vlc ∧
    ((tlbFind s p va.toNat).isSome = true ∨ 0x00FFFF8000000000 ≤ va.toNat → (access s p rule va n acc).1 = s)

/-! ### Control registers and system instructions -/

/-- R100, R102 to R110, R356: what each control register reads. -/
def Obligations.CtlReadMap : Prop :=
  ∀ s : State,
    ctlGet s 0x000 = BitVec.ofNat 64 s.vlc.vl ∧ ctlGet s 0x002 = s.vlc.vstart.setWidth 64 ∧ ctlGet s 0x003 = s.vlc.vidx ∧
    ctlGet s 0x004 = s.vlc.vrem ∧ ctlGet s 0x005 = s.vlc.vscope.setWidth 64 ∧
    (ctlGet s 0x001).extractLsb' 0 4 = BitVec.ofNat 4 (clsNum s.vlc.vt.cls) ∧
    (ctlGet s 0x001).extractLsb' 7 2 = BitVec.ofNat 2 s.vlc.vt.grp.val ∧
    (ctlGet s 0x001).extractLsb' 9 3 = BitVec.ofNat 3 (ewNum s.vlc.vt.sew) ∧
    (ctlGet s 0x001).extractLsb' 12 3 = BitVec.ofNat 3 (ewNum s.vlc.vt.mew) ∧
    (ctlGet s 0x001).getLsbD 4 = s.vlc.vt.mz ∧ (ctlGet s 0x001).extractLsb' 15 49 = 0 ∧
    (ctlGet s 0x001).extractLsb' 5 2 = (match s.vlc.vt.tp with
      | .undisturbed => 0
      | .agnostic => 1
      | .dead => 2) ∧
    ctlGet s 0x008 = BitVec.ofNat 64 s.vlc.mvl ∧ ctlGet s 0x009 = BitVec.ofNat 64 s.vlc.tsm ∧
    ctlGet s 0x00A = BitVec.ofNat 64 s.vlc.tsn ∧ ctlGet s 0x00B = BitVec.ofNat 64 s.vlc.tsk ∧
    ctlGet s 0x010 = BitVec.ofNat 64 (32 * s.vlc.wins.val) ∧ ctlGet s 0x011 = BitVec.ofNat 64 (64 * s.vlc.winv.val) ∧
    ctlGet s 0x018 = s.vlc.fflags.setWidth 64 ∧ ctlGet s 0x019 = s.vlc.frm.setWidth 64 ∧ ctlGet s 0x01A = s.vlc.rot.setWidth 64 ∧
    (∀ n : Fin 8, ctlGet s (0x20 + 2 * n.val) = s.gang.ss[n].extractLsb' 0 64 ∧
      ctlGet s (0x21 + 2 * n.val) = s.gang.ss[n].extractLsb' 64 64 ∧ ctlGet s (0x30 + n.val) = s.gang.ssv[n].setWidth 64) ∧
    ctlGet s 0x040 = s.vlc.pseq.setWidth 64 ∧ ctlGet s 0x048 = s.vlc.faultRegs.c.setWidth 64 ∧
    ctlGet s 0x049 = s.vlc.faultRegs.a.setWidth 64 ∧ ctlGet s 0x04A = s.vlc.faultRegs.pc.setWidth 64 ∧
    ctlGet s 0x04B = s.vlc.faultRegs.e ∧ ctlGet s 0x050 = s.gang.gangid ∧ ctlGet s 0x051 = s.gang.tenant.setWidth 64 ∧
    ctlGet s 0x058 = (s.vlc.handlerPc ++ 0#1 ++ BitVec.ofBool s.vlc.handlerEn).setWidth 64 ∧
    ctlGet s 0x060 = BitVec.ofNat 64 (s.die (coreDie s.vlc.core)).cycles ∧ ctlGet s 0x061 = s.gang.hbwin.setWidth 64 ∧
    ctlGet s 0x070 = s.funcmode.setWidth 64 ∧
    (let c := s.core s.vlc.core
     let p := s.perfOf (coreDie s.vlc.core) s.gang.queue
     ctlGet s 0x100 = BitVec.ofNat 64 c.issue ∧ ctlGet s 0x101 = BitVec.ofNat 64 c.vcomp ∧ ctlGet s 0x102 = BitVec.ofNat 64 c.chain ∧
     ctlGet s 0x103 = BitVec.ofNat 64 c.l1miss ∧ ctlGet s 0x104 = BitVec.ofNat 64 p.l2miss ∧ ctlGet s 0x105 = BitVec.ofNat 64 p.walks ∧
     ctlGet s 0x106 = BitVec.ofNat 64 (p.dropXbar + p.dropSeam + p.dropCoupling + p.dropHome) ∧
     ctlGet s 0x107 = BitVec.ofNat 64 p.loarr ∧ ctlGet s 0x108 = BitVec.ofNat 64 p.latent ∧ ctlGet s 0x109 = BitVec.ofNat 64 p.corr ∧
     ctlGet s 0x10A = BitVec.ofNat 64 p.pmchg ∧ ctlGet s 0x10B = BitVec.ofNat 64 s.gang.wdog ∧
     ∀ n, 0x10C ≤ n → n < 0x200 → ctlGet s n = 0)

/-- R57, R91, R100, R101, R111, R112: a control access on the scalar path, or any in handler state: a read or an access to a read-only
register changes only x[D]; an accepted write; a value that a field rule refuses raises FIELD and changes nothing.  One on the queue
path runs when it reaches the head of the queue; a value refused there (a smaller PSEQ) raises FIELD as a fault of the vector half, with the
entry kept in the queue.  (No full-empty read of the VLC is queued, as its queue is empty.)
(The model's choices it rests on: assumption 20.) -/
def Obligations.CtlAccess : Prop :=
  (∀ (i : Instr) (s : State) (f : CtlForm) (d a : Fld) (n : Nat),
    ctlForm i = some (f, d, a, n) → ctlKnown n → n ≠ 0x058 → (ctlOnQueue n → s.vlc.inHandler = true) →
    (s.findGang s.vlc.gang).isSome = true →
    let w := ctlResult f (ctlGet s n) (s.vlc.rx a)
    (f = .rd ∨ ctlFixed n → exec i s = .next { s with vlc := (s.vlc.wx d (ctlGet s n)).next }) ∧
    (f ≠ .rd → ¬ ctlFixed n → ctlAccepts s n w → ∃ t, exec i s = .next t ∧ CtlWritten s t n d w) ∧
    (f ≠ .rd → ¬ ctlFixed n → ¬ ctlAccepts s n w → s.vlc.vq = [] ∨ s.vlc.inHandler = true →
      exec i s = .next (takeFault s ⟨0x03, false, 0, s.vlc.pc, (2#32 ++ encode i)⟩))) ∧
  (∀ (i : Instr) (s : State) (f : CtlForm) (d a : Fld) (n : Nat),
    ctlForm i = some (f, d, a, n) → ctlOnQueue n → VecReady s.vlc → (s.findGang s.vlc.gang).isSome = true →
    let w := ctlResult f (ctlGet s n) (s.vlc.rx a)
    (f = .rd ∨ ctlFixed n → ∃ t, exec i s = .next { s with vlc := t } ∧ SameFile t.vf s.vlc.vf ∧
      t = { (s.vlc.wx d (ctlGet s n)).next with vf := t.vf }) ∧
    (f ≠ .rd → ¬ ctlFixed n → ctlAccepts s n w → ∃ t, exec i s = .next t ∧ CtlWritten s t n d w ∧ t.vlc.vq = []) ∧
    (f ≠ .rd → ¬ ctlFixed n → ¬ ctlAccepts s n w → (∀ x ∈ (s.core s.vlc.core).feq, x.2 ≠ s.vlc.slot) →
      ∃ (t : Vlc) (e : VEntry), exec i s = .next (takeFault { s with vlc := t } ⟨0x03, true, 0, s.vlc.pc, (2#32 ++ encode i)⟩) ∧
        t = { s.vlc.next with vq := [e], vf := t.vf } ∧ SameFile t.vf s.vlc.vf ∧ e.i = i))

/-- R62, R110, R115, R116: the system instructions that go on to the next word. -/
def Obligations.SystemInstructions : Prop :=
  (∀ (d a : Fld) (s : State),
    exec (.featq d a) s = .next { s with vlc := (s.vlc.wx d (featureValue s (s.vlc.rx a))).next }) ∧
  (∀ (a b : Fld) (s : State) (w : Fin 5) (v : Fin 3), a.toNat = w.val → b.toNat = v.val →
    exec (.wbase a b) s = .next { s with vlc := ({ s.vlc with wins := w, winv := v } : Vlc).next }) ∧
  (∀ (a b : Fld) (s : State), s.vlc.vq = [] ∨ s.vlc.inHandler = true →
    (4 < a.toNat → exec (.wbase a b) s = .next (takeFault s ⟨0x03, false, 0, s.vlc.pc, (2#32 ++ encode (.wbase a b))⟩)) ∧
    (a.toNat ≤ 4 → 2 < b.toNat →
      exec (.wbase a b) s = .next (takeFault s ⟨0x03, false, 0, s.vlc.pc, (3#32 ++ encode (.wbase a b))⟩))) ∧
  (∀ s : State, exec .heartbeat s = .next { s with
    vlc := s.vlc.next, gangs := s.gangs.map fun g => if g.id = s.vlc.gang then { g with wdog := 0 } else g }) ∧
  (∀ s : State, exec .yield s = .next { s with vlc := { s.vlc.next with yielded := true } }) ∧
  (∀ (d : Fld) (s : State),
    exec (.cyc d) s = .next { s with vlc := (s.vlc.wx d (BitVec.ofNat 64 (s.die (coreDie s.vlc.core)).cycles)).next }) ∧
  (∀ (d : Fld) (s : State), s.vlc.core < 576 → s.vlc.slot < 4 →
    exec (.ctxid d) s = .next { s with vlc := (s.vlc.wx d
      (BitVec.ofNat 64 s.vlc.core <<< 12 ||| BitVec.ofNat 64 (coreIdent s.vlc.core) <<< 2 ||| BitVec.ofNat 64 s.vlc.slot)).next })

/-- R25, R333, R334: `vexit` retires the VLC once its queue is empty, `tend` every member; with the last member the gang's release
begins.  `gbar` at a barrier that the gang has goes on or enters its wait, and `tyield` goes on.
(The model's choices it rests on: assumptions 8, 34.) -/
def Obligations.VlcsRetire : Prop :=
  (∀ (s : State) (g : Gang), s.findGang s.vlc.gang = some g → s.vlc.vq = [] → s.vlc.inHandler = false → s.vlc.member < 32 →
    TablesOk s →
    ∃ t h, exec .vexit s = .next t ∧ t.vlc.status = .retired ∧ t.findGang s.vlc.gang = some h ∧
      SameRegisters { s.vlc with loop := none, fan := none, pendFault := none } t.vlc ∧
      h.exited = g.exited ||| BitVec.twoPow 32 s.vlc.member ∧
      (t.core s.vlc.core).accOwner = (if (s.core s.vlc.core).accOwner = some s.vlc.slot then none else (s.core s.vlc.core).accOwner) ∧
      ((∀ m, m < g.members → h.exited.getLsbD m = true) → g.st = .resident → h.st = .releasing false) ∧
      ((∃ m, m < g.members ∧ h.exited.getLsbD m = false) → h.st = g.st)) ∧
  (∀ s : State, s.vlc.vq ≠ [] → s.vlc.inHandler = false → exec .vexit s = .next s) ∧
  (∀ (s : State) (g : Gang), s.findGang s.vlc.gang = some g → g.st = .resident → g.members ≤ 32 → s.vlc.status = .running →
    ∃ t h, exec .tend s = .next t ∧ t.findGang s.vlc.gang = some h ∧ h.st = .releasing false ∧ h.exited = BitVec.allOnes 32 ∧
      t.vlc.status = .retired ∧ t.vlc.vq = [] ∧
      ∀ v ∈ t.vlcs, v.gang = s.vlc.gang → v.status = .absent ∨ v.status = .retired ∧ v.vq = []) ∧
  (∀ (id : Fld) (s : State), id.toNat < 8 → ∃ t : State, exec (.gbar id) s = .next t ∧
    (t.vlc.pc = s.vlc.next.pc ∨ t.vlc.pc = s.vlc.pc ∧ t.vlc.status = .waiting (.barrier id.toNat))) ∧
  (∀ s : State, ∃ t : State, exec .tyield s = .next t ∧ t.vlc = s.vlc.next)

/-! ### Faults and the handler -/

/-- R32, R108, R355, R363, R364: a fault that goes to the handler writes the fault registers, clears EN, enters handler state with DVEC,
DCODE and RPC, and goes on at HANDLER.PC × 4; nothing else changes, but that a POISON is counted on the core's die (R355).  The first clause
is the model's choice (assumption 34, DESIGN CHOICE): while the gang halts the fault may be recorded, to be delivered on resume.
(The model's choices it rests on: assumption 34.) -/
def Obligations.FaultEntersHandler : Prop :=
  (∀ (s : State) (f : FaultInfo), takeFault s f = deliverFault s f ∨
    takeFault s f = { s with vlc := { s.vlc with pendFault := some f } } ∧ ∃ why, s.gang.st = .halting why) ∧
  ∀ (s : State) (f : FaultInfo), s.vlc.handlerEn = true →
    ¬ ((f.code = 0x10 ∨ f.code = 0x11) ∧ f.info.extractLsb' 2 2 = 2) →
    let counted : State := if f.code = 0x14 then
      s.modDie (coreDie s.vlc.core) fun x => { x with uncorrectable := x.uncorrectable + 1 } else s
    deliverFault s f = { counted with vlc := { s.vlc with
      faultRegs := ⟨BitVec.ofBool f.vec ++ f.code, f.va, f.pc.setWidth 56, f.info⟩
      handlerEn := false
      inHandler := true
      status := .running
      queuedWait := false
      dvec := f.vec
      dcode := f.code
      rpc := if f.vec then s.vlc.pc else if f.code = 0x60 ∨ f.code = 0x61 then f.pc + 4 else f.pc
      pc := (s.vlc.handlerPc ++ 0#2).setWidth 64 } }

/-- R108, R363, R368, R369, R378: a fault to the host suspends the VLC, halts its gang, and queues a record with these
fields.
(The model's choices it rests on: assumption 35.) -/
def Obligations.FaultGoesToHost : Prop :=
  ∀ (s : State) (f : FaultInfo) (g : Gang), s.findGang s.vlc.gang = some g → s.vlc.core < 576 → s.vlc.slot < 4 → f.code ≠ 0x14 →
    s.vlc.handlerEn = false ∨ (f.code = 0x10 ∨ f.code = 0x11) ∧ f.info.extractLsb' 2 2 = 2 →
    ∃ (t : State) (h : Gang) (r : PendRec), deliverFault s f = t ∧ (NotHalting s → takeFault s f = t) ∧ t.vlc.status = .suspended ∧
      t.vlc.faultRegs = ⟨BitVec.ofBool f.vec ++ f.code, f.va, f.pc.setWidth 56, f.info⟩ ∧ t.vlc.x = s.vlc.x ∧ t.vlc.vf = s.vlc.vf ∧
      t.vlc.pc = (if (f.code = 0x60 ∨ f.code = 0x61) ∧ f.vec = false then s.vlc.next.pc else s.vlc.pc) ∧
      t.findGang s.vlc.gang = some h ∧ (g.st = .resident → h.st = .halting .fault) ∧ h.awaits = g.awaits ++ [(s.queue g.queue).seq] ∧
      t.pendRecs = s.pendRecs ++ [r] ∧ r.queue = g.queue ∧ r.seq = (s.queue g.queue).seq ∧
      r.image.extractLsb' 0 32 = BitVec.ofNat 32 r.seq ∧ r.image.extractLsb' 32 9 = BitVec.ofBool f.vec ++ f.code ∧
      r.image.getLsbD 59 = s.vlc.inHandler ∧ r.image.extractLsb' 60 3 = 0 ∧ r.image.getLsbD 63 = true ∧
      r.image.extractLsb' 92 2 = BitVec.ofNat 2 s.vlc.slot ∧ r.image.extractLsb' 94 10 = BitVec.ofNat 10 (coreIdent s.vlc.core) ∧
      r.image.extractLsb' 104 12 = g.tenant ∧ r.image.extractLsb' 128 64 = g.gangid ∧
      r.image.extractLsb' 192 13 = s.vlc.vstart ∧ r.image.extractLsb' 256 56 = f.pc.setWidth 56 ∧
      r.image.extractLsb' 320 56 = f.va ∧ r.image.extractLsb' 384 64 = f.info ∧ r.image.extractLsb' 512 512 = 0

/-- R56, R59, R115 to R117, R363, R365, R367: `trap`, `ebreak` and a word that is no instruction raise their fault at their own pc when
the entries before them have completed, and wait for those otherwise; in handler state every instruction of majors 0x1C to 0x33, `mexit`,
`vexit`, `vloop` and `vloopw` raise PRIV at once, whatever the frozen queue holds. -/
def Obligations.TrapsRaise : Prop :=
  (∀ (i : Instr) (s : State) (code : BitVec 8) (info : Word), raises i s.vlc = some (code, info) →
    (s.vlc.vq = [] ∨ s.vlc.inHandler = true → exec i s = .next (takeFault s ⟨code, false, 0, s.vlc.pc, info⟩)) ∧
    (s.vlc.vq ≠ [] → s.vlc.inHandler = false → exec i s = .next s)) ∧
  (∀ (i : Instr) (s : State), i.wf = true → s.vlc.inHandler = true →
    entersQueue i = true ∨ i = .mexit ∨ i = .vexit ∨ (∃ p imm a, i = .vloop p imm a ∨ i = .vloopw p imm a) →
    exec i s = .next (takeFault s ⟨0x02, false, 0, s.vlc.pc, (encode i).setWidth 64⟩))

/-- R111, R366, R116: a write of HANDLER that leaves EN = 1 in handler state returns; any other only arms or disarms; `eret`
returns in a firmware gang's handler and raises PRIV elsewhere.
(The model's choices it rests on: assumptions 32, 60.) -/
def Obligations.HandlerReturns : Prop :=
  (∀ (op : CtlOp) (d a : Fld) (s : State),
    let old := ctlGet s 0x058
    let w := ctlResult (match op with
      | .wr => .wr
      | .set => .set
      | .clr => .clr) old (s.vlc.rx a)
    let v := { s.vlc.wx d old with handlerPc := w.extractLsb' 2 54, handlerEn := w.getLsbD 0 }
    (s.vlc.inHandler = true → w.getLsbD 0 = true → exec (.handlerReturn op d a) s =
      .next { s with vlc := ({ v with inHandler := false } : Vlc).goto (returnTarget s.vlc) }) ∧
    (s.vlc.inHandler = false ∨ w.getLsbD 0 = false → exec (.handlerReturn op d a) s = .next { s with vlc := v.next })) ∧
  (∀ s : State, s.gang.firmware = true → s.vlc.inHandler = true → exec .eret s =
    .next { s with vlc := ({ s.vlc with handlerEn := true, inHandler := false } : Vlc).goto (returnTarget s.vlc) }) ∧
  (∀ s : State, s.gang.firmware = false ∨ s.vlc.inHandler = false → s.vlc.vq = [] ∨ s.vlc.inHandler = true →
    exec .eret s = .next (takeFault s ⟨0x02, false, 0, s.vlc.pc, (encode .eret).setWidth 64⟩))

/-! ### Vector configuration, strip loops and matrix mode -/

/-- R121, R122, R146, R147, R367: `vcfgi` and `vcfg` set VTYPE, VL = min(AVL, VLMAX) and x[D], and a value that fails a check raises VTYPE; a strip
loop hands out its first strip, or is left at once when x[A] is 0, and a loop in a loop raises ILLEGAL.  Outside a strip loop and in handler
state going on changes only the pc; in a loop an address of the body leaves the loop as it is, the word after the body ends the strip (VIDX
and VREM move by the length handed out; the next strip is handed out or the loop ends there), and any other address ends the loop.
(The model's choices it rests on: assumption 5.) -/
def Obligations.ConfigurationAndStrips : Prop :=
  (∀ (i : Instr) (s : State) (d a : Fld) (n : Word),
    (∃ imm : BitVec 12, i = .vcfgi d a imm ∧ n = (imm.extractLsb' 9 3 ++ imm).setWidth 64) ∨
      (∃ b, i = .vcfg d a b ∧ n = s.vlc.rx b) →
    (∀ t : Vtype, t.word = n → (t.cls.isFp = true → t.sew.bits = t.cls.container) →
      let vlmax := Nat.min 4096 (2 ^ t.grp.val * 2048 / t.sew.bits)
      let vl := Nat.min (s.vlc.rx a).toNat vlmax
      exec i s = .next { s with vlc := ({ s.vlc.wx d (BitVec.ofNat 64 vl) with vt := t, vl := vl } : Vlc).next }) ∧
    ((∀ t : Vtype, t.word = n → t.cls.isFp = true ∧ t.sew.bits ≠ t.cls.container) → s.vlc.vq = [] ∨ s.vlc.inHandler = true →
      exec i s = .next (takeFault s ⟨0x06, false, 0, s.vlc.pc, (encode i).setWidth 64⟩))) ∧
  (∀ (i : Instr) (s : State) (p balanced : Bool) (imm : BitVec 16) (a : Fld),
    i = (if balanced then .vloopw p imm a else .vloop p imm a) → imm ≠ 0 → s.vlc.inHandler = false →
    (s.vlc.loop = none →
      let n := s.vlc.rx a
      let v := { s.vlc with vrem := n, vidx := 0, loopSerial := s.vlc.loopSerial + 1 }
      (n = 0 → exec i s = .next { s with vlc := { v with pc := s.vlc.pc + 4 + imm.setWidth 64 * 4 } }) ∧
      (n ≠ 0 →
        let k := stripShare balanced (vlmaxOf s.vlc.vt) n.toNat
        exec i s = .next { s with vlc := { v with
          pc := s.vlc.pc + 4, vl := k, loop := some ⟨s.vlc.pc + 4, imm.toNat, p, balanced, 0, k, s.vlc.loopSerial⟩ } })) ∧
    (s.vlc.loop ≠ none → s.vlc.vq = [] →
      exec i s = .next (takeFault s ⟨0x01, false, 0, s.vlc.pc, (encode i).setWidth 64⟩))) ∧
  (∀ (v : Vlc) (t : Word),
    (v.loop = none ∨ v.inHandler = true → v.goto t = { v with pc := t }) ∧
    (∀ l, v.loop = some l → v.inHandler = false → 0 < l.len → l.len < 65536 →
      (t ≠ l.after → (t - l.start).toNat < 4 * l.len → v.goto t = { v with pc := t }) ∧
      (t ≠ l.after → ¬ (t - l.start).toNat < 4 * l.len → v.goto t = { v with pc := t, loop := none }) ∧
      (t = l.after →
        let rem := v.vrem - BitVec.ofNat 64 l.handed
        let w := { v with vidx := v.vidx + BitVec.ofNat 64 l.handed, vrem := rem }
        (rem = 0 → v.goto t = { w with pc := l.after, loop := none }) ∧
        (rem ≠ 0 →
          let n := stripShare l.balanced (vlmaxOf v.vt) rem.toNat
          v.goto t = { w with pc := l.start, vl := n, loop := some { l with strip := l.strip + 1, handed := n } }))))

/-- R156, R159 to R161: entering matrix mode, asking for a product shape, which raises SHAPE outside matrix mode, and leaving it.
(The model's choices it rests on: assumption 8.) -/
def Obligations.MatrixModeAndShape : Prop :=
  (∀ (d a : Fld) (s : State), shapeMatrix s.gang.shape = true → (s.vlc.rx a = 16 ∨ s.vlc.rx a = 32 ∨ s.vlc.rx a = 64) →
    ((s.core s.vlc.core).accOwner ≠ none → (s.core s.vlc.core).accOwner ≠ some s.vlc.slot →
      exec (.mmode d a) s = .next { s with vlc := (s.vlc.wx d 0).next }) ∧
    ((s.core s.vlc.core).accOwner = none ∨ (s.core s.vlc.core).accOwner = some s.vlc.slot →
      ∃ t, exec (.mmode d a) s = .next t ∧
        t.vlc = { (s.vlc.wx d (s.vlc.rx a)).next with
          mvl := (s.vlc.rx a).toNat, tsm := 0, tsn := 0, tsk := 0, vq := t.vlc.vq } ∧
        t.vlc.vq.length = s.vlc.vq.length ∧ (∀ e ∈ t.vlc.vq, e.i = .mexit → e.cancelled = true) ∧
        t = { s with vlc := t.vlc, cores := t.cores } ∧
        ∀ c, t.core c = if c = s.vlc.core then { s.core c with accOwner := some s.vlc.slot } else s.core c)) ∧
  (∀ (d a : Fld) (s : State), s.vlc.vq = [] ∨ s.vlc.inHandler = true →
    (shapeMatrix s.gang.shape = false →
      exec (.mmode d a) s = .next (takeFault s ⟨0x33, false, 0, s.vlc.pc, 1⟩)) ∧
    (shapeMatrix s.gang.shape = true → ¬ (s.vlc.rx a = 16 ∨ s.vlc.rx a = 32 ∨ s.vlc.rx a = 64) →
      exec (.mmode d a) s = .next (takeFault s ⟨0x33, false, 0, s.vlc.pc, 2⟩)) ∧
    (s.vlc.mvl = 0 → exec (.tshape d a) s = .next (takeFault s ⟨0x33, false, 0, s.vlc.pc, 1⟩))) ∧
  (∀ s : State, s.vlc.inHandler = false →
    ((s.core s.vlc.core).accOwner ≠ some s.vlc.slot → exec .mexit s = .next { s with vlc := s.vlc.next }) ∧
    ((s.core s.vlc.core).accOwner = some s.vlc.slot → VecReady s.vlc → TablesOk s →
      ∃ t, exec .mexit s = .next t ∧ SameFile t.vlc.vf s.vlc.vf ∧
        t.vlc = { s.vlc.next with mvl := 0, tsm := 0, tsn := 0, tsk := 0, vf := t.vlc.vf } ∧
        (t.core s.vlc.core).accOwner = none ∧ (t.core s.vlc.core).acc = (s.core s.vlc.core).acc)) ∧
  (∀ (d a : Fld) (s : State), s.vlc.mvl ≠ 0 →
    let x := s.vlc.rx a
    let m := granted (x.extractLsb' 0 9).toNat s.vlc.mvl [16, 32, 64]
    let n := granted (x.extractLsb' 16 9).toNat s.vlc.mvl [16, 32, 64]
    let k := granted (x.extractLsb' 32 9).toNat 256 [16, 32, 64, 128, 256]
    exec (.tshape d a) s = .next { s with vlc := { (s.vlc.wx d
      (BitVec.ofNat 64 m ||| BitVec.ofNat 64 n <<< 16 ||| BitVec.ofNat 64 k <<< 32)).next with tsm := m, tsn := n, tsk := k } })

/-! ### Vector memory -/

/-- R193, R227 to R231, R240: a load whose data elements are accepted writes each active element with what the core sees at its
place (at the home, where its L1 has given up the line meanwhile), widened or cut by R228; memory and every other register stay.
(The model's choices it rests on: assumptions 3, 8, 10, 57, 70.) -/
def Obligations.VectorLoads : Prop :=
  (∀ (i : Instr) (s : State) (r : MemRule) (rule : AccRule) (p : Nat → Nat → Dest),
    memRule i s.vlc = some r → throughL1 i s.vlc = some rule → r.ok → VecRunning s.vlc → Placed s .plain rule .read r p s.vlc.vl →
    TablesOk s → CachesOk s → NoSnoops s s.vlc.core → s.poison = [] →
    ∃ (t u : State) (f : VFile) (x : Nat → Nat → Nat), exec i s = .next t ∧ MemDone s.vlc t.vlc f ∧
      (∀ i k, ActsOn s.vlc r i k → ReadsOf s s.vlc.core (p i k) (dataBytes s.vlc) (x i k)) ∧
      LoadHolds s.vlc r (fun i k => widthChange s.vlc.vt.cls s.vlc.vt.mew.bits s.vlc.vt.sew.bits
        (field (x i k) (dataBit s.vlc i) s.vlc.vt.mew.bits)) s.vlc.vl f ∧
      OnlyCaches s u ∧ t = ({ u with vlc := t.vlc } : State).modCore s.vlc.core (fun c => { c with vcomp := c.vcomp + 1 }) ∧
      SeenOutside s t s.vlc.core 0 0) ∧
  (∀ (i : Instr) (s : State) (r : MemRule) (rule : AccRule) (p : Nat → Nat → Dest),
    memRule i s.vlc = some r → atHome i s.vlc = some rule → r.ok → VecRunning s.vlc → Placed s .bypass rule .read r p s.vlc.vl →
    TablesOk s → CachesOk s → NoSnoops s s.vlc.core → NoPoison s → s.ckpt = none → (rule = .sc → s.isFenced 0 8 0 = false) →
    ∃ t f, exec i s = .next t ∧ MemDone s.vlc t.vlc f ∧
      LoadHolds s.vlc r (fun i k => widthChange s.vlc.vt.cls s.vlc.vt.mew.bits s.vlc.vt.sew.bits
        (field (homeNat s s.vlc.core (p i k) (dataBytes s.vlc)) (dataBit s.vlc i) s.vlc.vt.mew.bits)) s.vlc.vl f ∧
      HomeOutside s t s.vlc.core 0 0 ∧
      (rule = .sc → t.seqCounter = s.seqCounter +
        ((List.range s.vlc.vl).filter fun i => decide (s.vlc.vstart.toNat ≤ i) && s.vlc.active r.pg i).length))

/-- R191, R192, R228, R230, R233: `vld.ff` ends at the first active element after the first that is not accepted, and x[B] takes the number of
elements that it reached; a full-empty load reads granules of the own LS that are full and awaited by none before it, and `vld.fec` leaves
them empty (each of its elements has a granule of its own here: a second one in a granule waits).
(The model's choices it rests on: assumptions 8, 19, 29; and 70, DEDUCED, for the six bits of an E3M2 or E2M3 element.) -/
def Obligations.PartialVectorLoads : Prop :=
  (∀ (pg : BitVec 2) (d a b : Fld) (s : State) (r : MemRule) (p : Nat → Nat → Dest) (j : Nat),
    memRule (.vldFf pg d a b) s.vlc = some r → r.ok → VecRunning s.vlc → Placed s .plain .load .read r p j →
    (j = s.vlc.vl ∨ ActsOn s.vlc r j 0 ∧ (∃ i, i < j ∧ ActsOn s.vlc r i 0) ∧
      ∃ e, access s s.me .load (r.va j 0) (dataBytes s.vlc) .read = (s, .error e)) →
    TablesOk s → CachesOk s → NoSnoops s s.vlc.core → s.poison = [] →
    ∃ (t : State) (f : VFile) (x : Nat → Nat), exec (.vldFf pg d a b) s = .next t ∧ MemDone (s.vlc.wx b (BitVec.ofNat 64 j)) t.vlc f ∧
      (∀ i, ActsOn s.vlc r i 0 → i < j → ReadsOf s s.vlc.core (p i 0) (dataBytes s.vlc) (x i)) ∧
      LoadHolds s.vlc r (fun i _ => widthChange s.vlc.vt.cls s.vlc.vt.mew.bits s.vlc.vt.sew.bits (x i)) j f ∧
      SeenOutside s t s.vlc.core 0 0) ∧
  (∀ (i : Instr) (consume : Bool) (pg : BitVec 2) (d a : Fld) (s : State) (r : MemRule) (off : Nat → Nat),
    i = (if consume then .vldFec pg d a else .vldFe pg d a) → memRule i s.vlc = some r → r.ok → VecRunning s.vlc → TablesOk s →
    Placed s .plain .fe .read r (fun i _ => .ls s.vlc.core (off i)) s.vlc.vl →
    (∀ i, ActsOn s.vlc r i 0 → feServed s s.vlc.core s.vlc.slot (off i / 16) = true) →
    (consume = true → ∀ i j, ActsOn s.vlc r i 0 → ActsOn s.vlc r j 0 → i ≠ j → off i / 16 ≠ off j / 16) →
    ∃ t f, exec i s = .next t ∧ MemDone s.vlc t.vlc f ∧
      LoadHolds s.vlc r (fun i _ => widthChange s.vlc.vt.cls s.vlc.vt.mew.bits s.vlc.vt.sew.bits
        (memRead s.mem (lsAddr s.vlc.core (off i)) (dataBytes s.vlc))) s.vlc.vl f ∧
      t.mem = s.mem ∧
      ∀ g, (t.core s.vlc.core).fe.contains g = true ↔
        (s.core s.vlc.core).fe.contains g = true ∧ ¬ (consume = true ∧ ∃ i, ActsOn s.vlc r i 0 ∧ off i / 16 = g))

/-- R193, R221, R227 to R229, R231, R235, R238 to R240, R259: a store whose data elements are accepted stores each active element, width
changed by R228, and leaves every other bit and every register; each element of `vst.rel` and `vst.sc` releases first, `vst.sc` draws
tickets, and `vst.fe` leaves its granules full.
(The model's choices it rests on: assumptions 3, 8, 9, 10, 30, 57, 70.) -/
def Obligations.VectorStores : Prop :=
  ∀ (i : Instr) (s : State) (r : MemRule) (rule : AccRule) (p : Nat → Nat → Dest),
    memRule i s.vlc = some r → storeAccess i = some rule → (∀ pg d a b, i ≠ .vstNtf pg d a b) → r.ok → VecRunning s.vlc →
    TablesOk s → CachesOk s → CachesPlaced s s.vlc.core → NoSnoops s s.vlc.core → s.ckpt = none →
    (rule = .sc → s.isFenced 0 8 0 = false) → Placed s .plain rule .write r p s.vlc.vl → StorePlaces s r p →
    let count := ((List.range s.vlc.vl).filter fun i => decide (s.vlc.vstart.toNat ≤ i) && s.vlc.active r.pg i).length
    ∃ t w f, exec i s = .next t ∧ sequenced s r p w ∧ w = { s.vlc with pseq := w.pseq } ∧ MemDone w t.vlc f ∧
      SameFile f s.vlc.vf ∧ StoreHolds s t r p ∧
      (rule = .sc → t.seqCounter = s.seqCounter + count) ∧
      ((rule = .sc ∨ ∃ pg d a, i = .vstRel pg d a) → count ≠ 0 → leavesL1 s s.vlc.core (scopeOfCode s.vlc.vscope.toNat) →
        (rule = .sc → NoDirtyRc t s.vlc.core) ∧
        DirtyRcIn t s.vlc.core (fun x => ∃ i, ActsOn s.vlc r i 0 ∧ (p i 0).pa ≤ x ∧ x < (p i 0).pa + dataBytes s.vlc) ∧
        (FewSent s s.vlc.core → (t.core s.vlc.core).round = (s.core s.vlc.core).round + BitVec.ofNat 8 count)) ∧
      (rule = .fe → ∀ g, (t.core s.vlc.core).fe.contains g = true ↔
        (s.core s.vlc.core).fe.contains g = true ∨ ∃ i off, ActsOn s.vlc r i 0 ∧ p i 0 = .ls s.vlc.core off ∧ off / 16 = g)

/-- R234, R235, R236: `vst.ntf` stores its elements, releases at VSCOPE and then stores the count of elements so far to the LO cell at x[B], and
with VL = 0 it does nothing; `vst.md` sends each active element as an LO store of its own, which no other store joins, and with TV the low
word of the value is its tag.
(The model's choices it rests on: assumptions 8, 9, 10, 12, 57, 70.) -/
def Obligations.NotifyingStores : Prop :=
  (∀ (pg : BitVec 2) (d a b : Fld) (s : State) (r : MemRule) (p : Nat → Nat → Dest) (c : Dest),
    memRule (.vstNtf pg d a b) s.vlc = some r → r.ok → VecRunning s.vlc →
    TablesOk s → CachesOk s → CachesPlaced s s.vlc.core → NoSnoops s s.vlc.core → s.ckpt = none →
    access s s.me .md (s.vlc.rx b) 8 .write = (s, .ok c) → Placed s .plain .store .write r p s.vlc.vl → StorePlaces s r p →
    (∀ i f, ActsOn s.vlc r i f → (p i f).pa ≠ c.pa) →
    ∃ t w f, exec (.vstNtf pg d a b) s = .next t ∧ sequenced s r p w ∧ w = { s.vlc with pseq := w.pseq } ∧ MemDone w t.vlc f ∧
      SameFile f s.vlc.vf ∧ StoreHolds s t r p ∧
      (s.vlc.vl ≠ 0 →
        let count := s.vlc.vidx + BitVec.ofNat 64 s.vlc.vl
        LoIssued t s.vlc.core c.pa ((count.setWidth 32).setWidth 64) (count.setWidth 32) (BitVec.ofNat 12 s.vlc.core) ∧
        (leavesL1 s s.vlc.core (scopeOfCode s.vlc.vscope.toNat) → NoDirtyRc t s.vlc.core) ∧
        ∀ g, t.findGang s.vlc.gang = some g → g.wdog = 0) ∧
      (s.vlc.vl = 0 → t.loTransit = s.loTransit ∧ t.mem = s.mem)) ∧
  (∀ (pg : BitVec 2) (tv : Bool) (d a : Fld) (s : State) (r : MemRule) (p : Nat → Nat → Dest),
    memRule (.vstMd pg tv d a) s.vlc = some r → r.ok → VecRunning s.vlc → Placed s .plain .md .write r p s.vlc.vl →
    ∃ t w f, exec (.vstMd pg tv d a) s = .next t ∧ w = { s.vlc with pseq := w.pseq } ∧ MemDone w t.vlc f ∧ SameFile f s.vlc.vf ∧
      (if tv then w.pseq = s.vlc.pseq else sequenced s r p w) ∧ t.mem = s.mem ∧
      t.loTransit = s.loTransit ++ (((List.range s.vlc.vl).filter fun i =>
        decide (s.vlc.vstart.toNat ≤ i) && s.vlc.active pg i).map fun i =>
          let x := BitVec.ofNat 64 (s.vlc.vf.elem (vNum s.vlc.winv d) 64 i)
          ⟨(p i 0).pa, x, if tv then x.setWidth 32 else nextSeq s, BitVec.ofNat 12 s.vlc.core, 1, true, s.gang.queue,
            .xbar (coreDie s.vlc.core) (coreCluster s.vlc.core)⟩))

/-! ### Plans and tensor identifiers -/

/-- R292 to R294: `tid.q` reads a dword of an entry, `tid.set` replaces one, `tid.ld` reads and `tid.st` stores the 64 bytes; an entry
with V = 0 becomes zero, and one that fails a check raises TID with the number of the first that fails and leaves the table as it was.
(The model's choices it rests on: assumption 8.) -/
def Obligations.TensorIdentifiers : Prop :=
  (∀ (d a b : Fld) (s : State), VecReady s.vlc → s.vlc.vstart = 0 →
    let n := (s.vlc.rx b).toNat
    let w : Word := if n < 8 then (s.gang.tid a.toNat).extractLsb' (64 * n) 64 else 0
    ∃ t f, exec (.tidQ d a b) s = .next t ∧ VecDone { s with vlc := s.vlc.wx d w } t f s.vlc.fflags ∧ SameFile f s.vlc.vf) ∧
  (∀ (d a b : Fld) (s : State) (g : Gang), VecReady s.vlc → s.vlc.vstart = 0 → s.findGang s.vlc.gang = some g →
    Tab.wf 0 g.tids = true → (s.vlc.rx b).toNat < 8 →
    let n := setField (g.tid d.toNat).toNat (64 * (s.vlc.rx b).toNat) 64 (s.vlc.rx a).toNat
    EntryOk n →
    ∃ t h f, exec (.tidSet d a b) s = .next t ∧ VecDone { s with gangs := t.gangs } t f s.vlc.fflags ∧ SameFile f s.vlc.vf ∧
      t.findGang s.vlc.gang = some h ∧ h = { g with tids := h.tids } ∧
      ∀ k, h.tid k = if k = d.toNat then entryOf n else g.tid k) ∧
  (∀ (d a b : Fld) (s : State), VecReady s.vlc → s.vlc.vstart = 0 → (∀ x ∈ (s.core s.vlc.core).feq, x.2 ≠ s.vlc.slot) →
    (7 < (s.vlc.rx b).toNat → RaisesTid (.tidSet d a b) d 0 s) ∧
    ((s.vlc.rx b).toNat < 8 → ∀ k,
      FirstFailing (setField (s.gang.tid d.toNat).toNat (64 * (s.vlc.rx b).toNat) 64 (s.vlc.rx a).toNat) k → RaisesTid (.tidSet d a b) d k s)) ∧
  (∀ (d a : Fld) (s : State) (p : Dest) (k : Nat), VecReady s.vlc → s.vlc.vstart = 0 → (∀ x ∈ (s.core s.vlc.core).feq, x.2 ≠ s.vlc.slot) →
    (s.vlc.rx a).toNat % 64 = 0 → p.pa % 64 = 0 → RunsOn s .load .read (s.vlc.rx a) 8 8 p →
    TablesOk s → CachesOk s → NoSnoops s s.vlc.core → s.poison = [] → FirstFailing (seen s s.vlc.core p 64) k → RaisesTid (.tidLd d a) d k s) ∧
  (∀ (d a : Fld) (s : State) (g : Gang) (p : Dest), VecReady s.vlc → s.vlc.vstart = 0 → s.findGang s.vlc.gang = some g →
    Tab.wf 0 g.tids = true → (s.vlc.rx a).toNat % 64 = 0 → p.pa % 64 = 0 → RunsOn s .load .read (s.vlc.rx a) 8 8 p →
    TablesOk s → CachesOk s → NoSnoops s s.vlc.core → s.poison = [] → EntryOk (seen s s.vlc.core p 64) →
    ∃ t h f, exec (.tidLd d a) s = .next t ∧ MemDone s.vlc t.vlc f ∧ SameFile f s.vlc.vf ∧
      t.findGang s.vlc.gang = some h ∧ h = { g with tids := h.tids } ∧ SeenOutside s t s.vlc.core 0 0 ∧
      ∀ k, h.tid k = if k = d.toNat then entryOf (seen s s.vlc.core p 64) else g.tid k) ∧
  (∀ (d a : Fld) (s : State) (p : Dest), VecReady s.vlc → s.vlc.vstart = 0 → TablesOk s → CachesOk s → NoSnoops s s.vlc.core →
    s.ckpt = none → p.isLo = false → (s.vlc.rx a).toNat % 64 = 0 → p.pa % 64 = 0 → RunsOn s .store .write (s.vlc.rx a) 8 8 p →
    KindHeld s s.vlc.core p →
    ∃ t f, exec (.tidSt d a) s = .next t ∧ MemDone s.vlc t.vlc f ∧ SameFile f s.vlc.vf ∧
      (∀ k, k < 64 → seenByte t s.vlc.core p k = (s.gang.tid d.toNat).extractLsb' (8 * k) 8 ∧
        homeByte t s.vlc.core p k = (s.gang.tid d.toNat).extractLsb' (8 * k) 8) ∧ SeenOutside s t s.vlc.core p.pa 64)

/-- R299, R301, R307: a plan built from a vector group or from memory: its parts follow R299, its body lies in the highest free run,
and a bound plan's lines are watched (or the plan is stale already).
(The model's choices it rests on: assumption 8.) -/
def Obligations.PlanBuilds : Prop :=
  (∀ (pg : BitVec 2) (d a b : Fld) (s : State) (g : Nat), VecReady s.vlc → s.vlc.vstart = 0 → s.vlc.poison = [] → TablesOk s →
    d.toNat < 32 → s.vlc.vt.cls = .n → 16 ≤ s.vlc.vt.sew.bits → groupOk (vNum s.vlc.winv a) (2 ^ s.vlc.vt.grp.val) →
    s.vlc.vl ≤ vlmaxOf s.vlc.vt →
    let x := (s.vlc.rx b).toNat
    let ls := (s.vlc.rx b).getLsbD 63
    let bound := x % 2 ^ 33
    0 < bound → bound ≤ 2 ^ 32 → (ls = true → bound ≤ 2 ^ 22) → field x 33 30 = 0 →
    FreeRun s d.toNat g ((10 * s.vlc.vl + 15) / 16) →
    ∃ t f p, exec (.planMk pg d a b) s = .next t ∧ MemDone s.vlc t.vlc f ∧ SameFile f s.vlc.vf ∧ Installed s t d.toNat p ∧
      BuiltFrom ((List.range s.vlc.vl).map fun i =>
        (s.vlc.active pg i, inside ls bound (s.vlc.vf.elem (vNum s.vlc.winv a) s.vlc.vt.sew.bits i))) p ∧
      (t.vlc.plan d.toNat).map (·.st) = some 1 ∧ p.bound = bound ∧ p.ls = ls ∧ p.inverse = false ∧ p.wseed = 0 ∧ p.blen = 0 ∧
      p.baddr = 0 ∧ 2 ^ (p.iw + 4) = s.vlc.vt.sew.bits) ∧
  (∀ (pg : BitVec 2) (d a b : Fld) (s : State) (q : Nat → Dest) (g : Nat), VecReady s.vlc → s.vlc.vstart = 0 → TablesOk s →
    CachesOk s → NoPoison s → SoClean s s.vlc.core → s.ckpt = none → d.toNat < 32 → s.vlc.core < 576 →
    let x := (s.vlc.rx b).toNat
    let ls := (s.vlc.rx b).getLsbD 63
    let iw := field x 61 2
    let n := field x 48 13
    let bound := x % 2 ^ 33
    let w := 2 ^ (iw + 1)
    0 < bound → bound ≤ 2 ^ 32 → (ls = true → bound ≤ 2 ^ 22) → field x 33 15 = 0 → iw < 3 → n ≤ 4096 →
    (s.vlc.rx a).toNat % w = 0 →
    (∀ k, k < n → access s s.me .planArray (s.vlc.rx a + BitVec.ofNat 64 (w * k)) w .read = (s, .ok (q k)) ∧ (q k).pa % w = 0) →
    FreeRun s d.toNat g ((10 * n + 15) / 16) →
    ∃ t f p, exec (.planMkm pg d a b) s = .next t ∧ MemDone s.vlc t.vlc f ∧ SameFile f s.vlc.vf ∧ Installed s t d.toNat p ∧
      BuiltFrom ((List.range n).map fun i => (s.vlc.active pg i, inside ls bound (homeNat s s.vlc.core (q i) w))) p ∧
      p.bound = bound ∧ p.ls = ls ∧ p.inverse = false ∧ p.wseed = 0 ∧ p.blen = n * w ∧ p.baddr = (s.vlc.rx a).setWidth 56 ∧
      p.iw = iw ∧
      ((t.vlc.plan d.toNat).map (·.st) = some 2 ∧
          (∀ k, k < n → ⟨(q k).pa / 128, s.vlc.core, s.vlc.slot, d.toNat⟩ ∈ t.watches) ∨
        (t.vlc.plan d.toNat).map (·.st) = some 3))

/-- R298, R308, R313: plans from plans, releasing a slot, reading a header; `plan.st` stores the bytes of a plan object, and `plan.ld` reads
one back: the same entries and positions, stale where it was bound.
(The model's choices it rests on: assumptions 8, 18.) -/
def Obligations.PlanOperations : Prop :=
  (∀ (d a : Fld) (s : State) (p : Plan), VecReady s.vlc → s.vlc.vstart = 0 → TablesOk s → d.toNat < 32 → a.toNat < 32 →
    s.vlc.plan a.toNat = some p → p.st ≠ 3 →
    (d = a → ∃ t f, exec (.planInv d a) s = .next t ∧ MemDone s.vlc t.vlc f ∧ SameFile f s.vlc.vf ∧ t.watches = s.watches ∧
      t.mem = s.mem ∧ ∀ k, t.vlc.plan k = if k = a.toNat then some { p with inverse := !p.inverse } else s.vlc.plan k) ∧
    (d ≠ a → (∃ g, FreeRun s d.toNat g ((bodyLength p + 15) / 16)) → p.positions.length = p.count →
      ∃ t f g, exec (.planInv d a) s = .next t ∧ MemDone s.vlc t.vlc f ∧ SameFile f s.vlc.vf ∧
        Installed s t d.toNat { p with inverse := !p.inverse, st := 1, baddr := 0, blen := 0, granule := g } ∧
        (t.vlc.plan d.toNat).map (·.st) = some 1)) ∧
  (∀ (d a b : Fld) (s : State) (p q : Plan) (g : Nat), VecReady s.vlc → s.vlc.vstart = 0 → TablesOk s → d.toNat < 32 →
    a.toNat < 32 → b.toNat < 32 → s.vlc.plan a.toNat = some p → s.vlc.plan b.toNat = some q → p.st ≠ 3 → q.st ≠ 3 →
    p.inverse = false → q.inverse = false → p.ls = false → FreeRun s d.toNat g ((10 * p.count + 15) / 16) →
    ∃ t f r, exec (.planCmp d a b) s = .next t ∧ MemDone s.vlc t.vlc f ∧ SameFile f s.vlc.vf ∧ Installed s t d.toNat r ∧
      BuiltFrom ((List.range p.count).map (composed p q)) r ∧ (t.vlc.plan d.toNat).map (·.st) = some 1 ∧
      r.bound = q.bound ∧ r.ls = q.ls ∧ r.inverse = false ∧ r.blen = 0 ∧ r.baddr = 0 ∧ r.wseed = 0) ∧
  (∀ (d : Fld) (s : State), VecReady s.vlc → s.vlc.vstart = 0 → d.toNat < 32 →
    ∃ t f, exec (.planRel d) s = .next t ∧ MemDone s.vlc t.vlc f ∧ SameFile f s.vlc.vf ∧ t.mem = s.mem ∧
      (∀ k, t.vlc.plan k = if k = d.toNat then none else s.vlc.plan k) ∧
      (∀ w ∈ t.watches, w ∈ s.watches ∧ ¬ (w.core = s.vlc.core ∧ w.slot = s.vlc.slot ∧ w.plan = d.toNat))) ∧
  (∀ (d a b : Fld) (s : State), VecReady s.vlc → s.vlc.vstart = 0 → a.toNat < 32 →
    let n := (s.vlc.rx b).toNat
    let w : Word := match s.vlc.plan a.toNat with
      | none => 0
      | some p =>
        if n < 8 then (List.range 8).foldl (fun (x : Word) k => x ||| (objectByte p (8 * n + k)).setWidth 64 <<< (8 * k)) 0
        else if n = 8 then BitVec.ofNat 64 (64 + bodyLength p) else 0
    ∃ t f, exec (.planQ d a b) s = .next t ∧ VecDone { s with vlc := s.vlc.wx d w } t f s.vlc.fflags ∧ SameFile f s.vlc.vf) ∧
  (∀ (d a : Fld) (s : State) (p : Plan) (q : Dest), VecReady s.vlc → s.vlc.vstart = 0 → TablesOk s → CachesOk s →
    NoSnoops s s.vlc.core → s.ckpt = none → (∀ k, k < 64 + bodyLength p → KindHeld s s.vlc.core (plusDest q k)) → d.toNat < 32 → s.vlc.plan d.toNat = some p → PlanLegal p → q.isLo = false → (s.vlc.rx a).toNat % 64 = 0 →
    RunsOn s .store .write (s.vlc.rx a) 8 (8 + p.entries.length) q →
    RunsOn s .store .write (s.vlc.rx a + BitVec.ofNat 64 (64 + 8 * p.entries.length)) 2 p.count (plusDest q (64 + 8 * p.entries.length)) →
    ∃ t f, exec (.planSt d a) s = .next t ∧ MemDone s.vlc t.vlc f ∧ SameFile f s.vlc.vf ∧
      (∀ k, k < 64 + bodyLength p → seenByte t s.vlc.core q k = objectByte p k ∧ homeByte t s.vlc.core q k = objectByte p k) ∧
      SeenOutside s t s.vlc.core q.pa (64 + bodyLength p)) ∧
  (∀ (d a : Fld) (s : State) (p : Plan) (q : Dest) (g : Nat), VecReady s.vlc → s.vlc.vstart = 0 → TablesOk s → CachesOk s →
    Coherent s s.vlc.core → d.toNat < 32 →
    (s.vlc.rx a).toNat % 64 = 0 →
    RunsOn s .load .read (s.vlc.rx a) 8 (8 + p.entries.length) q →
    RunsOn s .load .read (s.vlc.rx a + BitVec.ofNat 64 (64 + 8 * p.entries.length)) 2 p.count (plusDest q (64 + 8 * p.entries.length)) →
    (∀ k, k < 64 + bodyLength p → seenByte s s.vlc.core q k = objectByte p k) →
    (∃ xs, BuiltFrom xs p ∧ xs.length ≤ 4096 ∧ ∀ x ∈ xs, ∀ t, x.2 = some t → inside p.ls p.bound t = some t ∧ t < 2 ^ 32) →
    1 ≤ p.st → p.st ≤ 3 → p.iw < 3 → p.bound < 2 ^ 64 → p.blen < 2 ^ 32 → p.wseed < 2 ^ 32 →
    p.entries.foldl (fun (n : Option Nat) e => match n with
      | some k => if e.2.1 = k then some (k + e.2.2) else none
      | none => none) (some 0) = some (p.count - p.oobn) →
    FreeRun s d.toNat g ((bodyLength p + 15) / 16) →
    ∃ t f r, exec (.planLd d a) s = .next t ∧ MemDone s.vlc t.vlc f ∧ SameFile f s.vlc.vf ∧ Installed s t d.toNat r ∧
      r = { p with st := r.st, waves := r.waves, granule := r.granule } ∧
      (t.vlc.plan d.toNat).map (·.st) = some (if p.st = 2 then 3 else p.st))

/-- R300, R309, R310: an apply reaches the target of every entry with an active element: `pga` writes what it reads there, the scatter
forms combine the elements of the entry and update the target at its home; p15 names the elements that were not performed.
(The model's choices it rests on: assumptions 8, 10, 26, 70.) -/
def Obligations.PlanApplies : Prop :=
  ∀ (i : Instr) (s : State) (r : ApplyRule) (p : Plan) (place : Nat × Nat × Nat → Option Dest),
    applyRule i = some r → r.slot.toNat < 32 → s.vlc.plan r.slot.toNat = some p → PlanLegal p → p.st ≠ 3 →
    p.inverse = r.op.isSome → VecReady s.vlc → s.vlc.poison = [] → s.vlc.vstart = 0 → s.vlc.vl ≤ vlmaxOf s.vlc.vt →
    TablesOk s → CachesOk s → NoPoison s → SoClean s s.vlc.core → s.ckpt = none → (s.core s.vlc.core).lsPoison = [] →
    let m := s.vlc.vt.mew.bits
    let w := s.vlc.vt.sew.bits
    let n := m / 8
    let dn := vNum s.vlc.winv r.d
    8 ≤ m → (s.vlc.vt.cls.isFp = true → m = w) → groupOk dn (2 ^ s.vlc.vt.grp.val) →
    (r.op = some .add ∨ r.op = some .max → m = w ∧ clsRange s.vlc.vt.cls 0 4) →
    AppliesTo s r p place →
    (r.op = none → Coherent s s.vlc.core → ∃ t f, exec i s = .next t ∧ MemDone s.vlc t.vlc f ∧ MissedHolds s.vlc r p place f ∧ SeenOutside s t s.vlc.core 0 0 ∧
      LoadHolds s.vlc ⟨r.pg, r.d, 1, fun _ _ => 0, True⟩ (fun j _ => match (entryAt s.vlc p j).bind place with
        | some q => widthChange s.vlc.vt.cls m w (seen s s.vlc.core q n)
        | none => if s.vlc.vt.mz then 0 else s.vlc.vf.elem dn w j) s.vlc.vl { f with p := s.vlc.vf.p }) ∧
    (∀ op, r.op = some op →
      (∀ e ∈ p.entries, ∀ e' ∈ p.entries, e ≠ e' → ∀ q q', place e = some q → place e' = some q' →
        reached s.vlc r p e ≠ [] → reached s.vlc r p e' ≠ [] → q.pa + n ≤ q'.pa ∨ q'.pa + n ≤ q.pa) →
      ∃ t f, exec i s = .next t ∧ MemDone { s.vlc with fflags := t.vlc.fflags } t.vlc f ∧ MissedHolds s.vlc r p place f ∧
        f.v = s.vlc.vf.v ∧ f.dead = s.vlc.vf.dead ∧ f.tag = s.vlc.vf.tag ∧
        (∀ e ∈ p.entries, reached s.vlc r p e ≠ [] → ∀ q, place e = some q →
          let x := (combinedValue op s.vlc dn (reached s.vlc r p e)).1
          let old := homeNat s s.vlc.core q n
          homeNat t s.vlc.core q n = (match op with
            | .set => widthChange s.vlc.vt.cls w m x
            | .add => (alu .add s.vlc.vt.cls w s.vlc.frm.toNat old x 0).1
            | .max => (alu .max s.vlc.vt.cls w s.vlc.frm.toNat old x 0).1)) ∧
        (∀ k b, k.isLo = false → (∀ e ∈ p.entries, reached s.vlc r p e ≠ [] → ∀ q, place e = some q →
          k.pa + b < q.pa ∨ q.pa + n ≤ k.pa + b) → homeByte t s.vlc.core k b = homeByte s s.vlc.core k b))

/-! ### Matrix instructions -/

/-- R154, R155, R163 to R166, R181: outer products, clearing, and reading or writing one line of a view: which elements of the array
change and to what; nothing else changes but FFLAGS and, for `mrd`, the group D.  That a masked depth is left out of the sum, where R82 and
R163 let it add an exact +0, is the model's choice (assumption 63, DESIGN CHOICE), and so is the tag of a group by its first name
(assumption 67, DESIGN CHOICE).
(The model's choices it rests on: assumptions 8, 15, 25, 63, 67.) -/
def Obligations.AccumulatorElements : Prop :=
  (∀ (i : Instr) (s : State) (op : MxOp) (pg : BitVec 2) (d a b : Fld), outerForm i = some (op, pg, d, a, b) →
    VecReady s.vlc → s.vlc.poison = [] → TablesOk s → TileReady s d → (s.vlc.vstart = 0 ∨ s.vlc.vstart.toNat < s.vlc.mvl) →
    s.vlc.vt.sew.bits < 64 → groupOk (vNum s.vlc.winv a) (2 ^ s.vlc.vt.grp.val) → groupOk (vNum s.vlc.winv b) (2 ^ s.vlc.vt.grp.val) →
    (s.vlc.vf.tagOf (vNum s.vlc.winv a)).getLsbD 5 = false → (s.vlc.vf.tagOf (vNum s.vlc.winv b)).getLsbD 5 = false →
    ∃ t f, exec i s = .next t ∧ MatrixDone s t f ∧
      ArrayHolds s t d.toNat fun r c =>
        if s.vlc.vstart.toNat ≤ r ∧ maskOf s.vlc pg 0 r = true ∧ maskOf s.vlc pg 4 c = true then
          some (outerElem op s.vlc.vt.cls s.vlc.vt.sew.bits s.vlc.frm.toNat
            (if op = .over then 0 else accBits (s.core s.vlc.core) (arrayCell s.vlc.mvl d.toNat r c))
            (outerPairs s.vlc pg (vNum s.vlc.winv a) (vNum s.vlc.winv b) r c)).1
        else none) ∧
  (∀ (pg : BitVec 2) (d : Fld) (s : State), VecReady s.vlc → TablesOk s → TileReady s d → s.vlc.vstart = 0 →
    ∃ t f, exec (.mclr pg d) s = .next t ∧ MatrixDone s t f ∧ t.vlc.fflags = s.vlc.fflags ∧
      ArrayHolds s t d.toNat fun r c => if maskOf s.vlc pg 0 r = true ∧ maskOf s.vlc pg 4 c = true then some 0 else none) ∧
  (∀ (pg : BitVec 2) (d a b : Fld) (s : State), VecReady s.vlc → TablesOk s → TileReady s a → s.vlc.poison = [] → s.vlc.vstart = 0 →
    s.vlc.vl ≤ vlmaxOf s.vlc.vt → s.vlc.vt.sew = .e32 → clsRange s.vlc.vt.cls 0 2 →
    groupOk (vNum s.vlc.winv d) (2 ^ s.vlc.vt.grp.val) →
    let x := (s.vlc.rx b).toNat
    let line := x % 256
    let col := 256 ≤ x
    x < 512 → line < s.vlc.mvl →
    ∃ t f, exec (.mrd pg d a b) s = .next t ∧ VecDone s t f s.vlc.fflags ∧
      GroupHolds s.vlc ⟨fun k => maskOf s.vlc pg (if col then 0 else 4) k, 0, s.vlc.vl, vNum s.vlc.winv d, 32, 2 ^ s.vlc.vt.grp.val,
        2 ^ s.vlc.vt.grp.val * 64, s.vlc.vt.cls, True,
        fun k => some (if k < s.vlc.mvl then accBits (s.core s.vlc.core)
          (if col then arrayCell s.vlc.mvl a.toNat k line else arrayCell s.vlc.mvl a.toNat line k) else 0),
        fun _ => 0, 0, 0⟩ f) ∧
  (∀ (pg : BitVec 2) (d a b : Fld) (s : State), VecReady s.vlc → TablesOk s → TileReady s d → s.vlc.poison = [] → s.vlc.vstart = 0 →
    s.vlc.vt.sew = .e32 → clsRange s.vlc.vt.cls 0 2 → groupOk (vNum s.vlc.winv a) (2 ^ s.vlc.vt.grp.val) →
    (s.vlc.vf.tagOf (vNum s.vlc.winv a)).getLsbD 5 = false →
    let x := (s.vlc.rx b).toNat
    let line := x % 256
    let col := 256 ≤ x
    x < 512 → line < s.vlc.mvl →
    ∃ t f, exec (.mwr pg d a b) s = .next t ∧ MatrixDone s t f ∧ t.vlc.fflags = s.vlc.fflags ∧
      ArrayHolds s t d.toNat fun r c =>
        let k := if col then r else c
        if (if col then c else r) = line ∧ k < s.vlc.vl ∧ maskOf s.vlc pg (if col then 0 else 4) k = true then
          some (s.vlc.vf.elem (vNum s.vlc.winv a) 32 k) else none)

/-- R79 to R82, R163, R169 to R174: a product whose checks pass and whose operands can be read adds to every element of the tile in its
active rows and columns; an expert that B does not hold leaves its rows; memory and every register but FFLAGS stay.  Model's choices: a block
under an invalid scale that is narrowed on the way (assumption 62, DESIGN CHOICE) or holds a NaN or an infinity (assumption 77, DESIGN CHOICE),
masked depths (63), the tag of the group of `mmav` by its first name (assumption 67, DESIGN CHOICE), and the scale of a block (69).
(The model's choices it rests on: assumptions 8, 10, 25, 62, 63, 67, 69, 77.) -/
def Obligations.TensorProducts : Prop :=
  ∀ (i : Instr) (s : State) (pg : BitVec 2) (d a : Fld) (j : Job) (x : ProductData),
    productJob i s = some (pg, d, a, .ok j) → OperandsAre s pg j x → CachesOk s → Coherent s s.vlc.core → VecReady s.vlc → s.vlc.poison = [] → TablesOk s → TileReady s d →
    s.vlc.tsm ≠ 0 → s.vlc.tsm ≤ s.vlc.mvl → s.vlc.tsn ≤ s.vlc.mvl → (s.vlc.vstart = 0 ∨ s.vlc.vstart.toNat < s.vlc.tsm) →
    ∃ t f, exec i s = .next t ∧ MemDone { s.vlc with fflags := t.vlc.fflags } t.vlc f ∧ SameFile f s.vlc.vf ∧ t.mem = s.mem ∧
      ArrayHolds s t d.toNat (productCells s pg d a j x)

/-- R178 to R180: `mst` stores the active elements of a tile in the tensor's format and `mld` loads them, whole blocks of a rotated
tensor at a time.  That an invalid scale gives NaN to an all-zero block too is the model's choice (assumption 62, DESIGN CHOICE).
(The model's choices it rests on: assumptions 8, 10, 24, 62.) -/
def Obligations.TileStoresAndLoads : Prop :=
  (∀ (pg : BitVec 2) (d b : Fld) (s : State) (t : TileSpec) (scale : Nat → Nat → Option Nat) (p : Nat → Nat → Dest),
    VecReady s.vlc → TablesOk s → CachesOk s → Coherent s s.vlc.core → s.ckpt = none → TileReady s d → s.vlc.vstart = 0 →
    s.vlc.tsm ≠ 0 → s.vlc.tsm ≤ s.vlc.mvl → s.vlc.tsn ≤ s.vlc.mvl →
    specOf s.gang (s.vlc.rx b) = .ok t → tileRot s.gang t s.vlc.tsm s.vlc.tsn = none →
    let w := t.d.width
    let bit (i j : Nat) : Nat := (t.d.place [t.o0 + i, t.o1 + j, 0, 0]).2
    (∀ i j, tileActive s.vlc pg t i j = true →
      ScalesAs s t.d [t.o0 + i, t.o1 + j, 0, 0] (scale i j) ∧
      (8 ≤ w → access s s.me .tensorWrite (t.d.place [t.o0 + i, t.o1 + j, 0, 0]).1 (w / 8) .write = (s, .ok (p i j)) ∧
        (p i j).pa % (w / 8) = 0) ∧
      (w < 8 → RunsOn s .tensorWrite .write (t.d.place [t.o0 + i, t.o1 + j, 0, 0]).1 1 ((bit i j + w + 7) / 8) (p i j)) ∧
      KindHeld s s.vlc.core (p i j)) →
    (∀ i j k l, tileActive s.vlc pg t i j = true → tileActive s.vlc pg t k l = true → SameKind (p i j) (p k l)) →
    (∀ i j k l, tileActive s.vlc pg t i j = true → tileActive s.vlc pg t k l = true → (i, j) ≠ (k, l) →
      8 * (p i j).pa + bit i j + w ≤ 8 * (p k l).pa + bit k l ∨ 8 * (p k l).pa + bit k l + w ≤ 8 * (p i j).pa + bit i j) →
    (t.d.sck ≠ 0 → ∀ i j, tileActive s.vlc pg t i j = true → ∀ u q, access s s.me .tensorRead (t.d.scaleVa [t.o0 + i, t.o1 + j, 0, 0]) 4 .read
      = (u, .ok q) → ∀ k l, tileActive s.vlc pg t k l = true → 8 * (q.pa + 4) ≤ 8 * (p k l).pa + bit k l ∨
        8 * (p k l).pa + bit k l + w ≤ 8 * q.pa) →
    ∃ u f, exec (.mst pg d b) s = .next u ∧ MemDone { s.vlc with fflags := u.vlc.fflags } u.vlc f ∧ SameFile f s.vlc.vf ∧
      (∀ i j k, tileActive s.vlc pg t i j = true → k < w →
        (homeByte u s.vlc.core (p i j) ((bit i j + k) / 8)).getLsbD ((bit i j + k) % 8) = (storedCode s pg d t scale i j).testBit k ∧
        (seenByte u s.vlc.core (p i j) ((bit i j + k) / 8)).getLsbD ((bit i j + k) % 8) = (storedCode s pg d t scale i j).testBit k) ∧
      (∀ q k b, q.isLo = false → b < 8 → (∀ i j, tileActive s.vlc pg t i j = true →
          8 * (q.pa + k) + b < 8 * (p i j).pa + bit i j ∨ 8 * (p i j).pa + bit i j + w ≤ 8 * (q.pa + k) + b) →
        (homeByte u s.vlc.core q k).getLsbD b = (homeByte s s.vlc.core q k).getLsbD b ∧
        (seenByte u s.vlc.core q k).getLsbD b = (seenByte s s.vlc.core q k).getLsbD b)) ∧
  (∀ (pg : BitVec 2) (d b : Fld) (s : State) (t : TileSpec) (code : Nat → Nat → Nat) (scale : Nat → Nat → Option Nat),
    VecReady s.vlc → TablesOk s → CachesOk s → Coherent s s.vlc.core → TileReady s d → s.vlc.vstart = 0 → s.vlc.tsm ≠ 0 →
    s.vlc.tsm ≤ s.vlc.mvl → s.vlc.tsn ≤ s.vlc.mvl →
    specOf s.gang (s.vlc.rx b) = .ok t → tileRot s.gang t s.vlc.tsm s.vlc.tsn = none →
    (∀ i j, tileActive s.vlc pg t i j = true →
      ReadsAs s t.d [t.o0 + i, t.o1 + j, 0, 0] (code i j) ∧ ScalesAs s t.d [t.o0 + i, t.o1 + j, 0, 0] (scale i j)) →
    ∃ u f, exec (.mld pg d b) s = .next u ∧ MemDone { s.vlc with fflags := u.vlc.fflags } u.vlc f ∧ SameFile f s.vlc.vf ∧
      u.mem = s.mem ∧
      ArrayHolds s u d.toNat fun i j => if tileActive s.vlc pg t i j then some (loadedValue s pg t code scale i j) else none)

/-! ### Counters, waits, ranges and task instructions -/

/-- R343 to R348: `cinc` and `cset` update a counter at its home in one step, `cread` reads a counter or an LO cell's arrivals, and a wait
goes on with an acquire when its condition holds at the home, and otherwise enters the wait.  (No SO line of the core's L1 holds a dirty
byte.)
(The model's choices it rests on: assumptions 3, 9, 57.) -/
def Obligations.CountersAndWaits : Prop :=
  (∀ (i : Instr) (s t : State) (d a : Fld) (f : Word → Word) (p : Dest), counterForm i s.vlc = some (d, a, f) →
    access s s.me .counter (s.vlc.rx a) 8 .atomic = (t, .ok p) → p.pa % 8 = 0 → TablesOk t → SoClean t s.vlc.core →
    let old : Word := BitVec.ofNat 64 (homeNat t s.vlc.core p 8)
    ∃ u : State, exec i s = .next { u with vlc := (u.vlc.wx d old).next } ∧ SameRegisters t.vlc u.vlc ∧ u.vlc.pc = t.vlc.pc ∧
      homeNat u s.vlc.core p 8 = (f old).toNat ∧ memRead u.mem p.pa 8 = (f old).toNat ∧ HomeOutside t u s.vlc.core p.pa 8) ∧
  (∀ (d a : Fld) (s t : State) (p : Dest), access s s.me .cread (s.vlc.rx a) 8 .read = (t, .ok p) → p.pa % 8 = 0 → TablesOk t →
    SoClean t s.vlc.core → t.ckpt = none →
    let w : Word := if p.isLo then (Tab.get LoTag.reset t.lo (p.pa / 8)).arrivals.setWidth 64
      else BitVec.ofNat 64 (homeNat t s.vlc.core p 8)
    ∃ u : State, exec (.cread d a) s = .next { u with vlc := (u.vlc.wx d w).next } ∧ SameRegisters t.vlc u.vlc ∧
      u.vlc.pc = t.vlc.pc ∧ HomeOutside t u s.vlc.core 0 0) ∧
  (∀ (i : Instr) (s t : State) (rule : AccRule) (sc : BitVec 7) (a : Fld) (thr : Word) (mk : Nat → Scope → Wait) (p : Dest),
    waitForm i s.vlc = some (rule, sc, a, thr, mk) → sc.toNat < 6 → access s s.me rule (s.vlc.rx a) 8 .read = (t, .ok p) →
    p.pa % 8 = 0 → TablesOk t → SoClean t s.vlc.core → t.ckpt = none →
    let scope := scopeOfCode sc.toNat
    (thr.toNat ≤ homeNat t s.vlc.core p 8 → ∃ u : State, exec i s = .next { u with vlc := u.vlc.next } ∧ SameRegisters t.vlc u.vlc ∧
      u.vlc.pc = t.vlc.pc ∧
      u.mem = (if p.isLo then t else bypass t s.vlc.core p.pa).mem ∧ (leavesL1 s s.vlc.core scope → Acquired u s.vlc.core)) ∧
    (homeNat t s.vlc.core p 8 < thr.toNat → ∃ u : State, exec i s = .next u ∧ SameRegisters t.vlc u.vlc ∧ u.vlc.pc = s.vlc.pc ∧
      u.vlc.status = .waiting (mk p.pa scope))) ∧
  (∀ (i : Instr) (s : State) (rule : AccRule) (sc : BitVec 7) (a : Fld) (thr : Word) (mk : Nat → Scope → Wait),
    waitForm i s.vlc = some (rule, sc, a, thr, mk) → 6 ≤ sc.toNat → s.vlc.vq = [] ∨ s.vlc.inHandler = true →
    exec i s = .next (takeFault s ⟨0x03, false, 0, s.vlc.pc, (1#32 ++ encode i)⟩))

/-- R243 to R248: the range instructions over the `m` bytes that they do before a halt stops them, or over all of them: flushing moves dirty
bytes home, invalidating also drops the lines, of SO pages too, discarding drops them and changes no byte outside them (a byte in them reads
as before, as one of the dirty bytes it met on the way or in the core's L1, or as memory held before a merge), hints change no register, and
`fe.set` and `fe.clr` fill and empty their granules.  One that has done its whole range goes on to the next word, and `dc.discard` counts the
lines it found in x[D]; one that a halt stops stays at its pc with every register as it was, to run again over the whole range.
(The model's choices it rests on: assumptions 8, 10, 13.) -/
def Obligations.RangeInstructions : Prop :=
  (∀ (inval : Bool) (a b : Fld) (s : State) (m : Word) (cut : Bool) (place : Nat → Dest), RangeOk 128 (s.vlc.rx a) (s.vlc.rx b) →
    rangeRun s 128 (s.vlc.rx b) = (m, cut) → PagesAt s .read (s.vlc.rx a) m place → TablesOk s → CachesOk s →
    CachesPlaced s s.vlc.core → s.ckpt = none →
    ∃ u : State, exec (if inval then .dcInval a b else .dcFlush a b) s = .next (if cut then u else { u with vlc := u.vlc.next }) ∧
      SameRegisters s.vlc u.vlc ∧ u.vlc.pc = s.vlc.pc ∧ HomeOutside s u s.vlc.core 0 0 ∧
      ∀ c ∈ l1Cores s s.vlc.core, ∀ l ∈ (u.core c).l1, LineIn (s.vlc.rx a) m place l.line → inval = false ∧ l.dirty = 0) ∧
  (∀ (d a b : Fld) (s : State) (m : Word) (cut : Bool) (place : Nat → Dest), RangeOk 128 (s.vlc.rx a) (s.vlc.rx b) →
    rangeRun s 128 (s.vlc.rx b) = (m, cut) → PagesAt s .write (s.vlc.rx a) m place → TablesOk s → s.ckpt = none →
    (∀ x pa kind, place x = .phys pa kind → placeOf pa = .device → kind = 1 ∨ kind = 2) →
    ∃ (u : State) (n : Nat), exec (.dcDiscard d a b) s =
        .next (if cut then u else { u with vlc := (u.vlc.wx d (BitVec.ofNat 64 n)).next }) ∧
      SameRegisters s.vlc u.vlc ∧ u.vlc.pc = s.vlc.pc ∧ 128 * n ≤ m.toNat ∧
      (∀ line, LineIn (s.vlc.rx a) m place line → findLine u s.vlc.core (line * 128) = none) ∧
      ∀ x, memByte u.mem x = memByte s.mem x ∨
        LineIn (s.vlc.rx a) m place (x / 128) ∧
          (memByte u.mem x = homeByte s s.vlc.core (.phys x 1) 0 ∨
            (∃ w ∈ s.writeBacks, w.held.line = x / 128 ∧ w.held.dirty.getLsbD (x % 128) = true ∧
              memByte u.mem x = w.held.data.extractLsb' (8 * (x % 128)) 8) ∨
            ∃ l ∈ s.l2, l.line = x / 128 ∧ l.dirty.getLsbD (x % 128) = true ∧
              memByte u.mem x = l.under.extractLsb' (8 * (x % 128)) 8)) ∧
  (∀ (cls : Rcl) (a b : Fld) (s : State) (m : Word) (cut : Bool), rangeRun s 128 (s.vlc.rx b) = (m, cut) →
    ∃ u : State, exec (.thint cls a b) s = .next (if cut then u else { u with vlc := u.vlc.next }) ∧ SameRegisters s.vlc u.vlc ∧
      u.vlc.pc = s.vlc.pc ∧ ((∃ place, PagesAt s .read (s.vlc.rx a) m place) → u = { s with l2 := u.l2, perf := u.perf })) ∧
  (∀ (full : Bool) (a b : Fld) (s : State) (m : Word) (cut : Bool) (base len : Nat), RangeOk 16 (s.vlc.rx a) (s.vlc.rx b) →
    rangeRun s 16 (s.vlc.rx b) = (m, cut) → TablesOk s → regionOf s.gang s.vlc.core = some (base, len) → base % 16 = 0 →
    0x00FFFF8000000000 ≤ (s.vlc.rx a).toNat → (s.vlc.rx a).toNat - 0x00FFFF8000000000 + m.toNat ≤ len → len ≤ 524288 →
    (∀ x ∈ liveBodies s s.vlc.gang s.vlc.core, 16 * (x.1 + x.2) ≤ (s.vlc.rx a).toNat - 0x00FFFF8000000000 ∨
      (s.vlc.rx a).toNat - 0x00FFFF8000000000 + m.toNat ≤ 16 * x.1) →
    ∃ u : State, exec (if full then .feSet a b else .feClr a b) s = .next (if cut then u else { u with vlc := u.vlc.next }) ∧
      SameRegisters s.vlc u.vlc ∧ u.vlc.pc = s.vlc.pc ∧ u.mem = s.mem ∧ ∀ g, (u.core s.vlc.core).fe.contains g =
        (let first := (base + ((s.vlc.rx a).toNat - 0x00FFFF8000000000)) / 16
         if first ≤ g ∧ g < first + m.toNat / 16 then full else (s.core s.vlc.core).fe.contains g)) ∧
  (∀ (s : State) (unit : Nat) (n : Word), NotHalting s → rangeRun s unit n = (n, false)) ∧
  ∀ (s : State) (unit : Nat) (n m : Word), rangeRun s unit n = (m, true) → m.toNat < n.toNat ∧ m.toNat % unit = 0

/-- R34, R259, R326 to R330, R347: a copy or collective whose checks pass stands at the end of its engine's queue with the operands of its
register block, and x[D] takes 1: after a release when the vector queue is empty, and otherwise held by a release that stands at the end of
that queue, for which the scalar unit does not wait; its tag is that of no live peer copy; a copy of no bytes that names no counter is done
at once; a full queue holds the instruction up.
(The model's choices it rests on: assumptions 9, 19, 37, 84.) -/
def Obligations.EngineIssue : Prop :=
  (∀ (i : Instr) (s : State) (efn : Nat) (d a : Fld) (opt : Word) (group : List Nat) (host : Bool),
    engineForm i s.vlc = some (efn, d, a, opt) →
    let n := xNum s.vlc.wins a
    let x (k : Nat) : Word := s.vlc.getX (n + k)
    let eng := if efn = 2 then 8 else coreCluster s.vlc.core % 8
    3 ≤ n → n ≤ 252 → EngineAccepts s efn (x 0) (x 1) (x 2) opt group host → CounterAccepted s (x 3) →
    let busy := 32 ≤ (s.engines.filter fun o => o.die == coreDie s.vlc.core && o.eng == eng).length
    (busy → exec i s = .next s) ∧
    (¬ busy → ∃ (u : State) (o : EngOp), exec i s = .next { u with vlc := (u.vlc.wx d 1).next } ∧
      u.engines = s.engines ++ [o] ∧ o.die = coreDie s.vlc.core ∧ o.eng = eng ∧ o.efn = efn ∧ o.queue = s.gang.queue ∧
      o.dst = x 0 ∧ o.src = x 1 ∧ o.len = x 2 ∧ o.ctr = x 3 ∧ o.opt = opt ∧ o.members = group ∧
      o.off = 0 ∧ o.st = .queued ∧ o.node = none ∧ o.gang = some s.vlc.gang ∧ o.core = s.vlc.core ∧ o.slot = s.vlc.slot ∧ o.sent = [] ∧
      (s.engines.length < 65536 → ∀ x ∈ s.engines, x.efn = 1 → x.tag ≠ o.tag) ∧
      (s.vlc.vq = [] ∨ s.vlc.inHandler = true → SameRegisters s.vlc u.vlc ∧ o.id = s.fresh ∧ o.hold = none ∧
        (TablesOk s → NoDirtyRc u s.vlc.core)) ∧
      (s.vlc.vq ≠ [] → s.vlc.inHandler = false → o.id = s.fresh + 1 ∧ o.hold = some s.fresh ∧ u.mem = s.mem ∧ u.cores = s.cores ∧
        ∃ e, u.vlc = { s.vlc with vq := s.vlc.vq ++ [e] } ∧ e.i = i ∧ e.xd = BitVec.ofNat 64 s.fresh))) ∧
  (∀ (i : Instr) (s : State) (efn : Nat) (d a : Fld) (opt : Word), engineForm i s.vlc = some (efn, d, a, opt) → efn ≠ 2 →
    (s.vlc.vq = [] ∨ s.vlc.inHandler = true) →
    let n := xNum s.vlc.wins a
    3 ≤ n → n ≤ 252 → s.vlc.getX (n + 2) = 0 → s.vlc.getX (n + 3) = 0 →
    (s.engines.filter fun o => o.die == coreDie s.vlc.core && o.eng == coreCluster s.vlc.core % 8).length < 32 →
    (∀ o ∈ s.engines, o.id ≠ s.fresh) →
    ∃ u : State, exec i s = .next { u with vlc := (u.vlc.wx d 1).next } ∧ SameRegisters s.vlc u.vlc ∧ u.engines = s.engines ∧
      ∀ g, u.findGang s.vlc.gang = some g → g.wdog = 0)

/-- R32, R332 to R334: `gbar` releases, arrives, and goes on with an acquire when every member that has not retired has arrived, its
arrivals then forgotten and the members that wait for it satisfied, and otherwise the VLC waits; one that was halted in its wait and has
been satisfied since goes on without arriving again; `spawn` reads a record, replaces its ARG by a non-zero x[B] and adds a node of its
graph to the lowest free slot, ready at its queue's priority, held by a release that covers both streams (no node waits in the overflow
region here, and the host does not assist scheduling); `tyield` offers the gang's place when a ready node could take a core of it and a
pool record is free.  That the slot is the lowest is the model's choice (assumption 80, DESIGN CHOICE).
(The model's choices it rests on: assumptions 9, 19, 33, 34, 80.) -/
def Obligations.TaskInstructions : Prop :=
  (∀ (id : Fld) (s : State) (g : Gang), id.toNat < 8 → s.findGang s.vlc.gang = some g → s.vlc.member < 32 →
    let here := (g.arrive[id.toNat]?.getD 0) ||| BitVec.twoPow 32 s.vlc.member
    let all := ∀ m, m < g.members → g.exited.getLsbD m = true ∨ here.getLsbD m = true
    (s.vlc.barrier ≠ some (id.toNat, true) → all → ∃ (u : State) (h : Gang), exec (.gbar id) s = .next { u with vlc := u.vlc.next } ∧
      SameRegisters s.vlc u.vlc ∧ u.findGang s.vlc.gang = some h ∧ h.arrive[id.toNat]? = some 0 ∧ h.exited = g.exited ∧
      (∀ k, k < 8 → k ≠ id.toNat → h.arrive[k]? = g.arrive[k]?) ∧
      (∀ v ∈ u.others, v.gang = s.vlc.gang → v.status ≠ .waiting (.barrier id.toNat)) ∧
      (TablesOk s → leavesL1 s s.vlc.core .gang → Acquired u s.vlc.core)) ∧
    (s.vlc.barrier ≠ some (id.toNat, true) → ¬ all → ∃ (u : State) (h : Gang), exec (.gbar id) s = .next u ∧ SameRegisters s.vlc u.vlc ∧
      u.vlc.pc = s.vlc.pc ∧ u.vlc.status = .waiting (.barrier id.toNat) ∧ u.findGang s.vlc.gang = some h ∧
      h.arrive[id.toNat]? = some here ∧ h.exited = g.exited ∧ (TablesOk s → leavesL1 s s.vlc.core .gang → NoDirtyRc u s.vlc.core)) ∧
    (s.vlc.barrier = some (id.toNat, true) → ∃ u : State, exec (.gbar id) s = .next { u with vlc := u.vlc.next } ∧
      SameRegisters s.vlc u.vlc ∧ u.vlc.barrier = none ∧ u.gangs = s.gangs ∧
      (TablesOk s → leavesL1 s s.vlc.core .gang → Acquired u s.vlc.core))) ∧
  (∀ (d a b : Fld) (s : State) (p : Dest) (slot : Nat), (s.vlc.rx a).toNat % 64 = 0 → p.pa % 64 = 0 →
    RunsOn s .load .read (s.vlc.rx a) 8 8 p → TablesOk s → NoSnoops s s.vlc.core → s.poison = [] →
    let die := coreDie s.vlc.core
    let raw : BitVec 512 := BitVec.ofNat 512 (seen s s.vlc.core p 64)
    let img : BitVec 512 := if s.vlc.rx b = 0 then raw else
      raw &&& ~~~ ((BitVec.allOnes 64).setWidth 512 <<< 320) ||| ((s.vlc.rx b).setWidth 512 <<< 320)
    let graph := ((s.findNode s.gang.node).map (·.graph)).getD s.fresh
    s.isFenced die 7 0 = false → recordRefused img (((s.findGraph graph).map (·.nodes)).getD 0) = none → recDeps img = 0 →
    s.funcmode.getLsbD 1 = false → (∀ n ∈ s.nodes, n.id < s.fresh ∧ n.assisted = false ∧ n.slot.isSome = true) →
    slot < 4096 → (∀ n ∈ s.nodes, n.die = die → n.slot ≠ some slot) →
    (∀ k, k < slot → ∃ n ∈ s.nodes, n.die = die ∧ n.slot = some k) →
    ∃ u : State, exec (.spawn d a b) s = .next { u with vlc := (u.vlc.wx d 1).next } ∧
      ∃ n, u.nodes = s.nodes ++ [n] ∧ n.slot = some slot ∧ n.image = img ∧ n.graph = graph ∧ n.queue = s.gang.queue ∧ n.die = die ∧
        n.idx = 0xFFFF ∧ n.deps = 0 ∧ n.st = .ready ∧ n.spawner = some s.vlc.gang ∧ n.claim = none ∧
        n.level = (s.queue s.gang.queue).pri ∧
        u.graphs = (s.graphs.map fun g => if g.id = graph then { g with left := g.left + 1 } else g) ∧
        (s.vlc.vq = [] ∨ s.vlc.inHandler = true → SameRegisters s.vlc u.vlc ∧ NoDirtyRc u s.vlc.core ∧ n.hold = none) ∧
        (s.vlc.vq ≠ [] → s.vlc.inHandler = false → n.hold = some s.fresh ∧
          ∃ e, SameRegisters { s.vlc with vq := s.vlc.vq ++ [e] } u.vlc ∧ e.i = .spawn d a b ∧ e.xd = BitVec.ofNat 64 s.fresh)) ∧
  (∀ s : State,
    let p : State := { s with vlc := s.vlc.next }
    let offered := s.gang.st = .resident ∧ s.isFenced s.gang.die 7 0 = false ∧ ∃ n ∈ s.nodes, couldReplace p s.gang n = true
    (¬ offered ∨ freePool s s.gang.die = none → exec .tyield s = .next p) ∧
    (offered → s.findGang s.vlc.gang = some s.gang → ∀ k, freePool s s.gang.die = some k →
      ∃ (u : State) (h : Gang), exec .tyield s = .next u ∧ u.vlc = s.vlc.next ∧ u.findGang s.vlc.gang = some h ∧
        h.st = .halting .tyield ∧ h.pool = some k ∧ u.mem = s.mem))

/-! ### The host -/

/-- R315 to R317, R356, R381, R385: launches, EN, PREEMPT and the registers of the pages; a command word that names no command completes
with status 1.
(The model's choices it rests on: assumptions 3, 38.) -/
def Obligations.HostPages : Prop :=
  (∀ (q : Nat) (whole : Bool) (r : BitVec 512) (s : State), q < 1024 → TablesOk s →
    (LaunchOk s q whole r → exec (.launch q whole r) s = .next { s with
      fresh := s.fresh + 1
      graphs := s.graphs ++ [⟨s.fresh, q, (s.queue q).origin, r.extractLsb' 0 64, r.extractLsb' 64 64, (r.extractLsb' 128 16).toNat,
        r.getLsbD 144, r.extractLsb' 192 64, r.getLsbD 272, (r.extractLsb' 256 16).toNat, (r.extractLsb' 128 16).toNat, 0, [], false⟩] }) ∧
    (¬ LaunchOk s q whole r → ∃ t : State, exec (.launch q whole r) s = .next t ∧ t = { s with queues := t.queues } ∧
      ∀ k, t.queue k = if k = q then { s.queue q with dropped := if (s.queue q).dropped = 0xFFFF then 0xFFFF else (s.queue q).dropped + 1 }
        else s.queue k)) ∧
  (∀ (q : Nat) (s : State), q < 1024 → TablesOk s →
    ((s.queue q).en = true → exec (.enSet q) s = .next s) ∧
    ((s.queue q).en = false → ∃ t : State, exec (.enSet q) s = .next t ∧ t = { s with queues := t.queues, perf := t.perf } ∧
      (∀ k, t.queue k = if k = q then { s.queue q with en := true, seq := 1 } else s.queue k) ∧
      ∀ d k, d < 4 → t.perfOf d k = if k = q then QueuePerf.reset else s.perfOf d k) ∧
    (∃ t : State, exec (.enClear q) s = .next t ∧ t = { s with queues := t.queues } ∧
      ∀ k, t.queue k = if k = q then { s.queue q with en := false } else s.queue k)) ∧
  (∀ (q : Nat) (s : State), q < 1024 → TablesOk s → (∀ g ∈ s.gangs, s.findGang g.id = some g) →
    ∃ t : State, exec (.preempt q) s = .next t ∧ t = { s with queues := t.queues, gangs := t.gangs, dies := t.dies } ∧
      (∀ k, t.queue k = if k = q then { s.queue q with preempt := s.gangs.any fun g => g.queue == q && (placed g || g.wantSave) } else s.queue k) ∧
      ∀ g ∈ s.gangs, ∃ h, t.findGang g.id = some h ∧
        (g.queue ≠ q ∨ placed g = false → h = g) ∧
        (g.queue = q → placed g = true → h.wantSave = true ∧ h.cores = g.cores ∧
          (g.st ≠ .resident → h.st = g.st) ∧
          (g.st = .resident → h.st = .halting .host ∧ (∃ k, h.pool = some k ∧ (s.die g.die).poolUsed.contains k = false) ∨
            h.st = .resident ∧ freePool t g.die = none))) ∧
  (∀ (q off : Nat) (w : Word) (s : State), q < 1024 → TablesOk s →
    (off < 0x40 → ∃ t : State, exec (.registerWrite (.queue q) off w) s = .next t ∧ t = { s with queues := t.queues } ∧
      ∀ k, t.queue k = if k = q then { s.queue q with dropped := if (s.queue q).dropped = 0xFFFF then 0xFFFF else (s.queue q).dropped + 1 }
        else s.queue k) ∧
    (w.getLsbD 2 = false → exec (.registerWrite (.queue q) 0x40 w) s = if w.getLsbD 0 then exec (.enSet q) s else exec (.enClear q) s) ∧
    (0x40 < off → (s.queue q).en = true → exec (.registerWrite (.queue q) off w) s = .next s) ∧
    (0x40 < off → (s.queue q).en = false → ∃ t : State, exec (.registerWrite (.queue q) off w) s = .next t ∧
      t = { s with queues := t.queues } ∧ ∀ k, t.queue k = if k = q then writtenPage (s.queue q) off w else s.queue k)) ∧
  (∀ (off : Nat) (w : Word) (s : State), exec (.registerWrite .device off w) s = .next s) ∧
  (∀ (d off : Nat) (w : Word) (s : State), d < 4 →
    (off ≠ 0 → off ≠ 0x058 → off ≠ 0x070 → off < 0x100 ∨ 0x180 ≤ off → exec (.registerWrite (.dieCtl d) off w) s = .next s) ∧
    (w.extractLsb' 0 8 = 0 ∨ 14 ≤ (w.extractLsb' 0 8).toNat → exec (.registerWrite (.dieCtl d) 0 w) s =
      .next (finishCmd s d (w.extractLsb' 16 16) (w.getLsbD 8) 1)) ∧
    (exec (.registerWrite (.dieCtl d) 0x070 w) s = .next (s.modDie d fun x => { x with lpthr := w.setWidth 32 })) ∧
    (∀ p, p < 4 →
      exec (.registerWrite (.dieCtl d) (0x100 + 0x20 * p) w) s =
        .next (s.modPort (4 * d + p) fun x => { x with ibase := w &&& ~~~0xFFFF }) ∧
      exec (.registerWrite (.dieCtl d) (0x108 + 0x20 * p) w) s =
        .next (s.modPort (4 * d + p) fun x => { x with ilimit := w &&& ~~~0xFFFF })) ∧
    (exec (.registerWrite (.dieCtl d) 0x058 w) s = exec (.evtailWrite d w) s) ∧
    (exec (.evtailWrite d w) s = .next (s.modDie d fun x => { x with evTail := w.toNat, evOver := false })) ∧
    (exec (.registerWrite (.sched d) 0x020 w) s = .next (s.modLandau d fun l => { l with depsel := w.setWidth 12 })) ∧
    (exec (.registerWrite (.debug d) 0 w) s = .next (s.modDie d fun x => { x with qsel := (w.extractLsb' 0 10).toNat })))

/-- R358, R370: RESUME, KILL and CANCEL of a record whose party waits, and their lack of effect otherwise.  That the RESUME of a gang halted on
its cores makes no acquire is the model's choice (assumption 81, DESIGN CHOICE).
(The model's choices it rests on: assumptions 35, 81.) -/
def Obligations.HostAnswers : Prop :=
  (∀ (die q seq : Nat) (s : State), die < 4 → q < 1024 → openRecord s q seq = none →
    exec (.resume die q seq) s = .next s ∧ exec (.kill die q seq) s = .next s ∧ exec (.cancel die q seq) s = .next s) ∧
  (∀ (die q seq : Nat) (s : State) (r : OpenRec), die < 4 → q < 1024 → openRecord s q seq = some r → r.op = none →
    exec (.cancel die q seq) s = .next s) ∧
  (∀ (die q seq : Nat) (s : State) (r : OpenRec) (g : Gang) (why : HaltWhy), die < 4 → q < 1024 → openRecord s q seq = some r →
    r.gang = some g.id → s.findGang g.id = some g → g.st = .halted why → g.pool = none →
    ∃ (t : State) (h : Gang), exec (.resume die q seq) s = .next t ∧ t.openRecs = s.openRecs.erase r ∧
      t = { s with openRecs := t.openRecs, gangs := t.gangs, vlc := t.vlc, others := t.others } ∧
      t.findGang g.id = some h ∧
      (g.awaits.erase r.seq = [] → h = { g with awaits := [], st := .resident } ∧
        t.vlcs = s.vlcs.map fun v => if v.gang = g.id ∧ (v.status = .halted ∨ v.status = .suspended) then { v with status := .running } else v) ∧
      (g.awaits.erase r.seq ≠ [] → h = { g with awaits := g.awaits.erase r.seq } ∧ t.vlcs = s.vlcs)) ∧
  (∀ (die q seq : Nat) (s : State) (r : OpenRec) (g : Gang) (n : Node) (d k : Nat), die < 4 → q < 1024 →
    openRecord s q seq = some r → r.gang = some g.id → s.findGang g.id = some g → g.st = .saved d k → s.findNode g.node = some n →
    n.st = .saved → g.awaits = [r.seq] → s.schedAssisted = false →
    ∃ (t : State) (m : Node), exec (.resume die q seq) s = .next t ∧ t.findNode g.node = some m ∧ m.st = .ready ∧ m.level = n.level ∧
      m.order = 2 ^ 64 - s.fresh ∧ t.findGang g.id = some { g with awaits := [] }) ∧
  (∀ (die q seq : Nat) (s : State) (r : OpenRec) (o : EngOp), die < 4 → q < 1024 → openRecord s q seq = some r → r.gang = none →
    r.op = some o.id → s.engines.find? (fun x => x.id == o.id && x.st == .suspended r.seq) = some o → o ∈ s.engines →
    (∀ x ∈ s.engines, x.id = o.id → x = o) →
    exec (.kill die q seq) s = .next s ∧
    exec (.resume die q seq) s = .next { s with
      openRecs := s.openRecs.erase r, engines := s.engines.map fun x => if x = o then { x with st := .queued } else x } ∧
    let gangs := s.gangs.map fun g => if o.gang = some g.id then { g with wdog := 0 } else g
    (o.node = none → exec (.cancel die q seq) s = .next { s with
      openRecs := s.openRecs.erase r, engines := s.engines.filter fun x => x != o, gangs := gangs }) ∧
    (∀ n, o.node = some n → exec (.cancel die q seq) s = .next { s with
      openRecs := s.openRecs.erase r, engines := s.engines.filter fun x => x != o, gangs := gangs
      nodes := s.nodes.map fun x => if x.id = n then { x with st := .done true } else x })) ∧
  (∀ (die q seq : Nat) (s : State) (r : OpenRec) (g : Gang), die < 4 → q < 1024 → openRecord s q seq = some r →
    r.gang = some g.id → s.findGang g.id = some g → (∃ why, g.st = .halted why) → g.pool = none →
    ∃ (t : State) (h : Gang), exec (.kill die q seq) s = .next t ∧ t.findGang g.id = some h ∧ h.st = .releasing true ∧
      h.exited = BitVec.allOnes 32 ∧ h.node = g.node ∧
      (∀ v ∈ t.vlcs, v.gang = g.id → v.status = .absent ∨ v.status = .retired ∧ v.vq = []) ∧
      (∀ x ∈ t.pendRecs, x.gang ≠ some g.id ∧ x ∈ s.pendRecs) ∧ (∀ x ∈ t.openRecs, x.gang ≠ some g.id ∧ x ∈ s.openRecs)) ∧
  (∀ (die q seq : Nat) (s : State) (r : OpenRec) (g : Gang) (d k : Nat), die < 4 → q < 1024 → openRecord s q seq = some r →
    r.gang = some g.id → s.findGang g.id = some g → g.st = .saved d k → g.pool = none →
    ∃ t : State, exec (.kill die q seq) s = .next t ∧ t.findGang g.id = none ∧ (t.die d).poolUsed.contains k = false ∧
      ∀ n, s.findNode g.node = some n → t.findNode g.node = some { n with st := .done true })

/-- R385, R386, R399, R427: how a command completes, and what each one checks and does.  That an address of host memory is taken modulo
2^50 (assumption 23, DEDUCED), and what LOAD places where the spec does not say (assumption 7, DESIGN CHOICE), is the model's.
(The model's choices it rests on: assumptions 6, 7, 23, 38, 39, 40, 41.) -/
def Obligations.HostCommands : Prop :=
  (∀ (c : Cmd) (d k : Nat) (s : State), d < 4 → k < 256 → Completes s (Cmd.done c s d k) d c k) ∧
  (∀ (i : Instr) (d : Nat) (c : Cmd) (bad cd0 : Bool) (s : State), commandOf i = some (d, c, bad, cd0) → d < 4 →
    (c.rsv ≠ 0 ∨ bad = true → exec i s = .next (Cmd.done c s d 1)) ∧
    (c.rsv = 0 → bad = false → cd0 = true → d ≠ 0 → exec i s = .next (Cmd.done c s d 2))) ∧
  (∀ (c : Cmd) (s : State), c.rsv = 0 →
    (c.d1.toNat < 64 → ∃ u : State, exec (.fmode 0 c) s = .next (Cmd.done c u 0 0) ∧ u.funcmode = c.d1.setWidth 6 ∧
      (u.die 0).moded = true ∧
      ((∃ d, d < 4 ∧ ((s.die d).phase < 11 ∨ (s.die d).pooled = false)) →
        u = ({ s with funcmode := c.d1.setWidth 6 } : State).modDie 0 fun x => { x with moded := true }) ∧
      ((∀ d, d < 4 → 11 ≤ (s.die d).phase ∧ (s.die d).pooled = true) → (∀ d, d < 4 → (u.die d).phase = 12) ∧
        ((s.die 0).phase ≠ 11 → u.bootCount = s.bootCount ∧ u.quoteCount = s.quoteCount) ∧
        ((s.die 0).phase = 11 → s.bootCount < 32768 → u.bootCount = s.bootCount + 1 ∧ u.quoteCount = 0))) ∧
    (∀ d, d < 4 →
      ((s.die d).poolUsed ≠ [] → exec (.pool d c) s = .next (Cmd.done c s d 3)) ∧
      ((s.die d).poolUsed = [] → c.d1.toNat % 2 ^ 24 ≠ 0 ∨ deviceEnd < c.d1.toNat + c.d2.toNat * 2 ^ 24 →
        exec (.pool d c) s = .next (Cmd.done c s d 4)) ∧
      ((s.die d).poolUsed = [] → c.d1.toNat % 2 ^ 24 = 0 → c.d1.toNat + c.d2.toNat * 2 ^ 24 ≤ deviceEnd →
        ∃ u : State, exec (.pool d c) s = .next (Cmd.done c u d 0) ∧ (u.die d).poolBase = c.d1.toNat ∧
          (u.die d).poolCount = c.d2.toNat ∧ (u.die d).pooled = true ∧ u.mem = s.mem ∧ u.gangs = s.gangs))) ∧
  (∀ (c : Cmd) (d : Nat) (s : State), c.rsv = 0 → d < 4 → TablesOk s →
    (c.d1.toNat < 1024 → ∃ u : State, exec (.dplist d c) s = .next (Cmd.done c u d 0) ∧ u = { s with demand := u.demand } ∧
      ∀ q, Tab.get [] u.demand q = if q = c.d1.toNat then
        (List.range c.d3.toNat).map fun k => memRead s.mem (c.d2.toNat + 8 * k) 8 else Tab.get [] s.demand q) ∧
    (c.d2.toNat < 2 →
      (deviceEnd ≤ c.d1.toNat ∨ s.funcmode.getLsbD 2 = false ∨ knownSo s (c.d1.toNat / 65536) = true →
        exec (.pmset d c) s = .next (Cmd.done c s d 4)) ∧
      (c.d1.toNat < deviceEnd → s.funcmode.getLsbD 2 = true → knownSo s (c.d1.toNat / 65536) = false → homeDie c.d1.toNat ≠ d →
        exec (.pmset d c) s = .next (Cmd.done c s d 2)) ∧
      (c.d1.toNat < deviceEnd → s.funcmode.getLsbD 2 = true → knownSo s (c.d1.toNat / 65536) = false → homeDie c.d1.toNat = d →
        let old := Tab.get PageMode.reset s.modes (c.d1.toNat / 65536)
        ∃ u : State, exec (.pmset d c) s = .next (Cmd.done c u d 0) ∧ u = { s with modes := u.modes, perf := u.perf, l2 := u.l2 } ∧
          (∀ p, Tab.get PageMode.reset u.modes p = if p = c.d1.toNat / 65536 then
            { Tab.get PageMode.reset s.modes p with replicated := c.d2.getLsbD 0 } else Tab.get PageMode.reset s.modes p) ∧
          (old.replicated = c.d2.getLsbD 0 → u.perf = s.perf ∧ u.l2 = s.l2) ∧
          (old.replicated ≠ c.d2.getLsbD 0 → u.perfOf d old.queue =
            { s.perfOf d old.queue with pmchg := (s.perfOf d old.queue).pmchg + 1 }) ∧
          (old.replicated = true → c.d2.getLsbD 0 = false → u.l2 = s.l2.filter fun l =>
            l.line / 512 != c.d1.toNat / 65536 || l.die == d)))) ∧
  (∀ (c : Cmd) (s : State), c.rsv = 0 → TablesOk s →
    (c.d1 &&& ~~~0x30FFF = 0 → c.d1.extractLsb' 16 2 ≠ 3 →
      let named (e : TlbEntry) : Prop :=
        (c.d1.extractLsb' 16 2 = 0 ∧ e.tenant = c.d1.setWidth 12 ∧ c.d2.toNat < (e.vpage + 1) * 2 ^ levelBits e.level ∧
          e.vpage * 2 ^ levelBits e.level < c.d2.toNat + c.d3.toNat) ∨
        (c.d1.extractLsb' 16 2 = 1 ∧ e.tenant = c.d1.setWidth 12) ∨
        (c.d1.extractLsb' 16 2 = 2 ∧ ∃ q, q < 1024 ∧ (s.queue q).tenant = c.d1.setWidth 12 ∧ (s.queue q).s2root = e.s2root)
      ∃ u : State, exec (.inval 0 c) s = .next (Cmd.done c u 0 0) ∧
        u = { s with tlb := u.tlb, walkCache := u.walkCache, cores := u.cores } ∧
        (∀ e, e ∈ u.tlb ↔ e ∈ s.tlb ∧ ¬ named e) ∧ (∀ e ∈ u.walkCache, e ∈ s.walkCache) ∧
        ∀ k, u.core k = { s.core k with tlb := (u.core k).tlb } ∧ ∀ e, e ∈ (u.core k).tlb ↔ e ∈ (s.core k).tlb ∧ ¬ named e) ∧
    (c.d1.toNat < 4096 → ∃ u : State, exec (.keyreg 0 c) s = .next (Cmd.done c u 0 0) ∧ u = { s with keys := u.keys } ∧
      ∀ k, Tab.get [] u.keys k = if k = c.d1.toNat then
        if c.d2 = 0 then [] else (List.range 56).map fun j => memByte s.mem (c.d2.toNat + j) else Tab.get [] s.keys k)) ∧
  (∀ (c : Cmd) (d : Nat) (s : State), c.rsv = 0 → d < 4 → c.d1.toNat < 16 →
    (unitRange c.d1.toNat ≤ c.d2.toNat → exec (.fence d c) s = .next (Cmd.done c s d 4) ∧ exec (.reset d c) s = .next (Cmd.done c s d 4)) ∧
    (c.d2.toNat < unitRange c.d1.toNat →
      (s.isFenced d c.d1.toNat c.d2.toNat = true → exec (.fence d c) s = .next (Cmd.done c s d 0)) ∧
      (s.isFenced d c.d1.toNat c.d2.toNat = false → exec (.reset d c) s = .next (Cmd.done c s d 0)) ∧
      (∃ u : State, exec (.fence d c) s = .next (Cmd.done c u d 0) ∧ u.fenced =
        if s.isFenced d c.d1.toNat c.d2.toNat then s.fenced else (d, c.d1.toNat, c.d2.toNat) :: s.fenced) ∧
      (∃ u : State, exec (.reset d c) s = .next (Cmd.done c u d 0) ∧ u.fenced = s.fenced.filter (· != (d, c.d1.toNat, c.d2.toNat)) ∧
        (s.isFenced d 0 c.d2.toNat = true → c.d1 = 0 → TablesOk s →
          (u.core (144 * d + c.d2.toNat)).l1 = [] ∧ (u.core (144 * d + c.d2.toNat)).fe = [] ∧
          (u.core (144 * d + c.d2.toNat)).acc = [] ∧ (u.core (144 * d + c.d2.toNat)).q = (s.core (144 * d + c.d2.toNat)).q ∧
          ∀ k, k < 524288 → memByte u.mem (lsAddr (144 * d + c.d2.toNat) k) = 0)))) ∧
  (∀ (c : Cmd) (s : State), c.rsv = 0 →
    (c.d5.toNat < 4096 → ∀ r, loadImage (memReadBytes s.mem c.d1.toNat c.d2.toNat) (Tab.get [] s.keys c.d5.toNat) c.d4.toNat = r →
      (∀ k, r = .error k → exec (.load 0 c) s = .next (Cmd.done c (s.modDie 0 fun x => { x with loadReason := k }) 0 4)) ∧
      (∀ out, r = .ok out → s.ckpt = none → Memory.wf s.mem = true → ∃ u : State, exec (.load 0 c) s = .next (Cmd.done c u 0 0) ∧
        (∀ x ∈ out, ∀ k, k < x.2.length → memByte u.mem (c.d3.toNat + x.1 + k) = x.2.getD k 0) ∧
        (∀ a, (∀ x ∈ out, a < c.d3.toNat + x.1 ∨ c.d3.toNat + x.1 + x.2.length ≤ a) → memByte u.mem a = memByte s.mem a) ∧
        out.head?.map (·.1) = some 0 ∧ (∀ x ∈ out, x.1 + x.2.length ≤ c.d4.toNat) ∧
        ∀ j x y, out[j]? = some x → out[j + 1]? = some y → y.1 = (x.1 + x.2.length + 65535) / 65536 * 65536)) ∧
    (s.ckpt.isSome = true → exec (.ckpt 0 c) s = .next (Cmd.done c s 0 3) ∧ exec (.restore 0 c) s = .next (Cmd.done c s 0 3)) ∧
    (s.ckpt = none →
      (c.d2.toNat < deviceEnd → exec (.ckpt 0 c) s = .next (Cmd.done c s 0 4)) ∧
      (deviceEnd ≤ c.d2.toNat → s.funcmode.getLsbD 5 = false →
        exec (.ckpt 0 c) s = .next { s with ckpt := some ⟨c.d1.toNat, 0, [], c.tag, c.irq⟩ }) ∧
      (deviceEnd ≤ c.d2.toNat → s.funcmode.getLsbD 5 = true → ∃ ws, exec (.ckpt 0 c) s =
        .next (Cmd.done c { s with ckptTable := some (c.d1.toNat, ws) } 0 0) ∧ ws.length = 4 ∧
        ∀ d, d < 4 → (ws[d]?.getD 0).extractLsb' 0 8 = BitVec.ofNat 8 (s.die d).phase) ∧
      ((∃ q ∈ s.queues, q.2.en = true) ∨ (∃ g ∈ s.gangs, placed g = true) → exec (.restore 0 c) s = .next (Cmd.done c s 0 4)) ∧
      ((∀ q ∈ s.queues, q.2.en = false) → (∀ g ∈ s.gangs, placed g = false) → TablesOk s →
        (∀ w ∈ s.writeBacks, placeOf (w.held.line * 128) = .device) →
        ∃ u : State, exec (.restore 0 c) s = .next (Cmd.done c u 0 0) ∧
          (∀ a, memByte u.mem a = if a < deviceEnd then memByte s.mem (hostAddr c.d1.toNat + a) else memByte s.mem a) ∧
          u.poison = [] ∧ u.lo = [] ∧ u.l2 = [] ∧ u.tlb = [] ∧ u.walkCache = [] ∧ u.writeBacks = [] ∧ u.snoops = [] ∧
          (∀ k, (u.core k).tlb = []) ∧ SameRegisters s.vlc u.vlc)) ∧
    (s.cert = [] ∨ 2 ^ 20 ≤ s.quoteCount → exec (.quote 0 c) s = .next (Cmd.done c s 0 4)) ∧
    (s.cert ≠ [] → s.quoteCount < 2 ^ 20 → Memory.wf s.mem = true → ∃ u : State, exec (.quote 0 c) s = .next (Cmd.done c u 0 0) ∧
      u = { s with mem := u.mem, quoteCount := s.quoteCount + 1 } ∧
      (∀ a, ¬ (hostAddr c.d2.toNat ≤ a ∧ a < hostAddr c.d2.toNat + 5260) → memByte u.mem a = memByte s.mem a) ∧
      memRead u.mem (hostAddr c.d2.toNat) 4 = 0x41444D51 ∧
      ∀ j, j < 32 → memByte u.mem (hostAddr c.d2.toNat + 8 + j) = memByte s.mem (hostAddr c.d1.toNat + j))) ∧
  (∀ (c : Cmd) (d : Nat) (s : State), c.rsv = 0 → d < 4 →
    ((s.die d).phase ≠ 3 → (s.die d).phase ≠ 4 → exec (.boot d c) s = .next (Cmd.done c s d 4)) ∧
    ((s.die d).phase = 3 ∨ (s.die d).phase = 4 →
      (imageGood (s.die d) c.d1.toNat = false →
        exec (.boot d c) s = .next (Cmd.done c (s.modDie d fun x => { x with phase := 4, stop := 0x31, detail := 0 }) d 4)) ∧
      (imageGood (s.die d) c.d1.toNat = true → ∃ u : State, exec (.boot d c) s = .next (Cmd.done c u d 0) ∧
        (u.die d).measure = measureImage (s.die d) ∧ (∀ k, k ≠ d → (u.die k).phase = (s.die k).phase) ∧
        ((u.die d).phase = 11 ∧ (u.die d).stop = 0 ∨ (u.die d).phase = 5 ∧ (u.die d).stop = 0x41 ∨
          (u.die d).phase = 7 ∧ (u.die d).stop = 0x51 ∨
          (u.die d).phase = 8 ∧ (u.die d).stop = 0x52 ∧ (u.die d).detail.getLsbD 3 = false ∧ (u.die d).detail.toNat < 256 ∨
          (u.die d).phase = 9 ∧ (u.die d).stop = 0x61))))

/-- R267, R380, R392 to R394: the host's CXL.mem accesses reach the homes, and a coupling takes the flit it expects, performs its requests
under the ingress check, drops a repeat and asks again for anything else.
(The model's choices it rests on: assumptions 23, 43, 46.) -/
def Obligations.HostMemoryAndLink : Prop :=
  (∀ (pa : Nat) (bs : List Byte) (s : State), pa + bs.length ≤ deviceEnd → s.ckpt = none → TablesOk s →
    ∃ t : State, exec (.cxlMemWrite pa bs) s = .next t ∧ SameRegisters s.vlc t.vlc ∧
      (∀ a, memByte t.mem a = if pa ≤ a ∧ a < pa + bs.length then bs.getD (a - pa) 0 else memByte s.mem a) ∧
      ∀ k, Tab.get LoTag.reset t.lo k = if 8 * k < pa + bs.length ∧ pa < 8 * k + 8 then LoTag.reset else Tab.get LoTag.reset s.lo k) ∧
  (∀ (pa n : Nat) (s : State), pa + n ≤ deviceEnd →
    exec (.cxlMemRead pa n) s = .next { s with hostData := s.hostData ++ [(List.range n).map fun j => memByte s.mem (pa + j)] }) ∧
  (∀ (c : Nat) (f : BitVec 2048) (s : State), c < 16 →
    let p := s.port c
    let gap := (p.rxNext - f.extractLsb' 0 12).toNat
    let cls := (f.extractLsb' 12 4).toNat
    (s.isFenced (c / 4) 5 (c % 4) = true → exec (.flitReceive c f) s = .next s) ∧
    (s.isFenced (c / 4) 5 (c % 4) = false →
      (flitBad f = false → 1 ≤ gap → gap ≤ 1024 → exec (.flitReceive c f) s = .next s) ∧
      (flitBad f = true ∨ 1024 < gap → ∃ t : State, exec (.flitReceive c f) s = .next t ∧ t = { s with ports := t.ports } ∧
        (t.port c).rxNext = p.rxNext ∧ (∀ k, k ≠ c → t.port k = s.port k) ∧
        ((t.port c).nak = true ∧ (t.port c).out = p.out ∨
          ∃ g, ((t.port c).out.drop p.out.length).head? = some g ∧ g.getLsbD 29 = true)) ∧
      (flitBad f = false → gap = 0 → 3 ≤ cls → f.getLsbD 29 = false → p.outq = [] → p.nak = false → p.ackDue = false →
        p.freed = Vector.replicate 3 0 →
        exec (.flitReceive c f) s = .next (s.modPort c fun p => { p with
          rxNext := p.rxNext + 1
          taken := true
          replay := if f.getLsbD 28 then p.replay.filter fun x =>
            let k := (x.extractLsb' 0 12 - f.extractLsb' 16 12 : BitVec 12)
            decide (1 ≤ k.toNat ∧ k.toNat ≤ 1024) else p.replay
          credits := Vector.ofFn fun k => (p.credits[k]) + (f.extractLsb' (32 + 10 * k.val) 10).toNat })) ∧
      (∀ a h1 ds, flitBad f = false → gap = 0 → cls = 0 → parseRequests 0 30 (flitPayload f) = some [⟨a, 0, h1, ds⟩] →
        s.ckpt = none → TablesOk s → ds ≠ [] →
        ∃ t : State, exec (.flitReceive c f) s = .next t ∧ (t.port c).rxNext = p.rxNext + 1 ∧
          ∀ x, memByte t.mem x =
            if p.ibase.toNat ≤ a ∧ a + 8 * ds.length ≤ p.ilimit.toNat ∧ a + 8 * ds.length ≤ deviceEnd ∧ a ≤ x ∧ x < a + 8 * ds.length ∧
                (if (x - a) / 8 = 0 then (h1 / 2 ^ 32).testBit ((x - a) % 8)
                  else if (x - a) / 8 + 1 = ds.length then (h1 / 2 ^ 40).testBit ((x - a) % 8) else true) = true then
              (ds[(x - a) / 8]?.getD 0).extractLsb' (8 * ((x - a) % 8)) 8
            else memByte s.mem x) ∧
      (∀ a kind h1 w, flitBad f = false → gap = 0 → cls = 1 → parseRequests 1 30 (flitPayload f) = some [⟨a, kind, h1, [w]⟩] →
        (∀ y ∈ s.loTransit, y.pa ≠ a) →
        ∃ t : State, exec (.flitReceive c f) s = .next t ∧ (t.port c).rxNext = p.rxNext + 1 ∧ t.mem = s.mem ∧
          (if p.ibase.toNat ≤ a ∧ a + 8 ≤ p.ilimit.toNat ∧ a + 8 ≤ deviceEnd ∧ a % 8 = 0 then
            ∃ x, t.loTransit = s.loTransit ++ [x] ∧ x.pa = a ∧ x.val = w ∧ x.seq = BitVec.ofNat 32 h1 ∧ x.prod = BitVec.ofNat 12 (h1 / 2 ^ 32) ∧
              x.cover = h1 / 2 ^ 44 % 2 ^ 20 ∧ x.md = decide (kind = 1)
          else t.loTransit = s.loTransit ∧ (t.die (c / 4)).ingressDrops = (s.die (c / 4)).ingressDrops + 1)) ∧
      (∀ a h1 ds, flitBad f = false → gap = 0 → cls = 2 → parseRequests 2 30 (flitPayload f) = some [⟨a, 0, h1, ds⟩] →
        (p.ibase.toNat < p.ilimit.toNat → ∃ (t : State) (x : CollData), exec (.flitReceive c f) s = .next t ∧ t.rx = s.rx ++ [x] ∧
          x.die = c / 4 ∧ x.off = a ∧ x.data = ds ∧
          x.seq = h1 % 2 ^ 16 ∧ x.rank = h1 / 2 ^ 16 % 2 ^ 8 ∧ x.group = h1 / 2 ^ 24 % 16 ∧ x.tenant = BitVec.ofNat 12 (h1 / 2 ^ 28) ∧
          t.mem = s.mem) ∧
        (p.ilimit.toNat ≤ p.ibase.toNat → ∃ t : State, exec (.flitReceive c f) s = .next t ∧ t.rx = s.rx ∧ t.mem = s.mem))))

/-- R120, R149, R153, R199, R316, R375, R383, R387, R395 to R397: rails, the reset input, temperature, uncorrectable errors (in a word of a
name, read too by the strips that have not written it, or of a strip's private row; a dead name has no row) and the debug page.  That LS reads
0 after the reset of a die or the loss of a rail is the model's choice (assumption 1, DESIGN CHOICE), and so are the reset values that the spec
does not give (assumption 5, DESIGN CHOICE).
(The model's choices it rests on: assumptions 1, 5, 21, 22, 41, 42, 44, 45, 48, 71.) -/
def Obligations.BoardAndErrors : Prop :=
  (∀ (d : Nat) (r : Rail) (s : State), d < 4 →
    exec (.powerRail d r true) s = .next (s.modDie d fun x =>
      let rails := if r ∈ x.rails then x.rails else x.rails ++ [r]
      { x with rails := rails, phase := if rails = [.vppHbm, .vddqHbm, .vddCore, .vddIo] ∧ x.phase = 0 then 1 else x.phase })) ∧
  (∀ (d : Nat) (s : State), d < 4 → TablesOk s →
    (∀ r, ∃ t : State, exec (.powerRail d r false) s = .next t ∧ DieCleared s t d ∧ (t.die d).phase = 0 ∧
      (t.die d).rails = (s.die d).rails.filter (· != r)) ∧
    (∃ t : State, exec (.cdResetN d false) s = .next t ∧ DieCleared s t d ∧ (t.die d).rails = (s.die d).rails ∧
      (t.die d).phase = if (s.die d).rails = [.vppHbm, .vddqHbm, .vddCore, .vddIo] then 1 else 0) ∧
    ((s.die d).phase ≠ 1 → exec (.cdResetN d true) s = .next s) ∧
    ((s.die d).phase = 1 → ∃ t : State, exec (.cdResetN d true) s = .next t ∧ t = { s with dies := t.dies } ∧
      (t.die d).resetReleased = true ∧ (∀ e, e ≠ d → t.die e = s.die e) ∧
      ((t.die d).phase = 3 ∧ (t.die d).stop = 0 ∨ (t.die d).phase = 2 ∧ (t.die d).stop = 0x21))) ∧
  (∀ (d : Nat) (on : Bool) (s : State), d < 4 → ∃ t : State, exec (.thermalThrottle d on) s = .next t ∧
    t = { s with dies := t.dies, msix := t.msix } ∧ (t.die d).throttle = on ∧ (∀ e, e ≠ d → t.die e = s.die e) ∧
    (t.die d).trip = (s.die d).trip ∧ (t.die d).phase = (s.die d).phase ∧
    (if on = true ∧ (s.die d).throttle = false then t.msix = s.msix ++ [(d, 2047)] ∧ (t.die d).evHead = (s.die d).evHead + 1
     else t.msix = s.msix ∧ (t.die d).evHead = (s.die d).evHead)) ∧
  (∀ (d : Nat) (s : State), d < 4 → (∀ g ∈ s.gangs, s.findGang g.id = some g) →
    ∃ t : State, exec (.thermalTrip d) s = .next t ∧ (t.die d).trip = true ∧
      ∀ g ∈ s.gangs, ∃ h, t.findGang g.id = some h ∧
        (g.die = d → placed g = true → (∀ f, g.st ≠ .releasing f) → h.st = .releasing true ∧ h.exited = BitVec.allOnes 32) ∧
        (g.die ≠ d → h.st = g.st)) ∧
  (∀ (s : State), TablesOk s →
    (∀ core slot name word v, core < 576 → slot < 4 → name < 256 → word < 64 → s.findVlc core slot = some v →
      (v.vf.dead.getLsbD name = true → exec (.uncorrectableError (.regWord core slot name word none)) s = .next s) ∧
      (v.vf.dead.getLsbD name = false → ∃ (t : State) (w : Vlc),
        exec (.uncorrectableError (.regWord core slot name word none)) s = .next t ∧ t.findVlc core slot = some w ∧
        (∀ x, x ∈ w.poison ↔ x = (name, word) ∨ x ∈ v.poison) ∧ w = { v with poison := w.poison, fan := w.fan } ∧
        (v.fan = none → w.fan = none) ∧ (∀ f, v.fan = some f → ∃ g, w.fan = some g ∧ g = { f with strips := g.strips } ∧
          g.strips.length = f.strips.length ∧ ∀ (k : Nat) (y : Strip), f.strips[k]? = some y → ∃ z, g.strips[k]? = some z ∧
            z = { y with poison := z.poison } ∧
            ∀ x, x ∈ z.poison ↔ x ∈ y.poison ∨ x = (name, word) ∧ y.vf.wrote.getLsbD name = false) ∧
        t.mem = s.mem ∧ t.cores = s.cores) ∧
      (∀ k f (y : Strip), v.fan = some f → y ∈ f.strips → y.k = k → (∀ z ∈ f.strips, z.k = k → z = y) → y.vf.wrote.getLsbD name = true →
        y.vf.dead.getLsbD name = false → ∃ (t : State) (w : Vlc) (g : Fan) (z : Strip),
        exec (.uncorrectableError (.regWord core slot name word (some k))) s = .next t ∧ t.findVlc core slot = some w ∧
        w = { v with fan := some g } ∧ z ∈ g.strips ∧ z = { y with poison := z.poison } ∧
        (∀ x, x ∈ z.poison ↔ x = (name, word) ∨ x ∈ y.poison) ∧ t.mem = s.mem ∧ t.cores = s.cores)) ∧
    (∀ core word, core < 576 → word < 131072 → ∃ t : State, exec (.uncorrectableError (.lsWord core word)) s = .next t ∧
      (∀ x, x ∈ (t.core core).lsPoison ↔ x = word ∨ x ∈ (s.core core).lsPoison) ∧ t.vlc = s.vlc ∧ t.mem = s.mem) ∧
    (∀ pa, pa < deviceEnd → ∃ t : State, exec (.uncorrectableError (.sector pa)) s = .next t ∧
      (∀ x, x ∈ t.poison ↔ x = pa / 32 ∨ x ∈ s.poison) ∧ t.vlc = s.vlc ∧ t.mem = s.mem ∧ t.cores = s.cores) ∧
    (∀ core row col, core < 576 → row < 64 → col < 64 → ∃ t : State, exec (.uncorrectableError (.accElem core row col)) s = .next t ∧
      (∀ x, x ∈ (t.core core).accPoison ↔ x = (row, col) ∨ x ∈ (s.core core).accPoison) ∧ (t.core core).acc = (s.core core).acc ∧
      t.vlc = s.vlc ∧ t.mem = s.mem) ∧
    (∀ core line byte, core < 576 → byte < 128 → ∃ t : State, exec (.uncorrectableError (.l1Byte core line byte)) s = .next t ∧
      t = { s with cores := t.cores } ∧ (∀ c, c ≠ core → t.core c = s.core c) ∧
      ∀ l, l ∈ (t.core core).l1 ↔ ∃ x ∈ (s.core core).l1, (x.line ≠ line ∧ l = x) ∨ (x.line = line ∧ x.dirty ≠ 0 ∧
        l = if x.dirty.getLsbD byte then { x with bad := x.bad ||| BitVec.twoPow 128 byte }
          else { x with valid := x.valid &&& ~~~ BitVec.twoPow 128 byte })) ∧
    (∀ d k u, d < 4 → u < unitRange k → ∃ t : State, exec (.uncorrectableError (.unit d k u)) s = .next t ∧
      (s.isFenced d k u = true → t = s) ∧
      (s.isFenced d k u = false → t.fenced = (d, k, u) :: s.fenced ∧ (t.die d).fencedCount = (s.die d).fencedCount + 1 ∧
        (d, 2047) ∈ t.msix))) ∧
  (∀ (d core slot : Nat) (op : DebugOp) (s : State) (v : Vlc), d < 4 → core < 576 → slot < 4 → s.findVlc core slot = some v →
    ∃ (t : State) (w : Vlc), exec (.debugHaltStep d core slot op) s = .next t ∧ t.findVlc core slot = some w ∧
      ((s.gangOf v.gang).queue ≠ (s.die d).qsel → w = v) ∧
      ((s.gangOf v.gang).queue = (s.die d).qsel →
        (op = .halt → v.status = .running → w = { v with status := .debug, stepping := false }) ∧
        (op = .release → v.status = .debug → w = { v with status := .running, stepping := false }) ∧
        (op = .step → v.status = .debug → w = { v with status := .running, stepping := true })) ∧
      t.mem = s.mem ∧ t.cores = s.cores)

/-! ### Gangs -/

/-- R25, R32, R119, R320, R359, R372 to R374: halting, saving, restoring, retiring and fencing a gang, and the load of its descriptors; a
gang starts once the strips of others hold no row of its slots (no ready node has been given its place here).
(The model's choices it rests on: assumptions 3, 16, 34, 35, 56.) -/
def Obligations.GangLife : Prop :=
  (∀ (id : Nat) (s : State), s.findGang id = none →
    exec (.gangHalt id) s = .next s ∧ exec (.gangSave id) s = .next s ∧ exec (.contextRestore id) s = .next s ∧
    exec (.gangRetirement id) s = .next s ∧ exec (.descriptorBlockLoad id) s = .next s ∧ exec (.watchdog id) s = .next s) ∧
  (∀ (s : State) (g : Gang) (why : HaltWhy), s.findGang g.id = some g → g.st = .halting why →
    ∃ t : State, exec (.gangHalt g.id) s = .next t ∧ t.findGang g.id = some { g with st := .halted why } ∧ t.mem = s.mem ∧
      ∀ (k : Nat) (v : Vlc), s.vlcs[k]? = some v → ∃ w, t.vlcs[k]? = some w ∧
        (v.gang ≠ g.id → SameRegisters v w ∧ w.pc = v.pc ∧ w.status = v.status) ∧ (v.gang = g.id → HaltedAs v w)) ∧
  (∀ (s : State) (g : Gang) (k : Nat) (why : HaltWhy), s.findGang g.id = some g → g.st = .halted why → g.pool = some k →
    g.killed = false → (∀ o ∈ s.engines, o.gang = some g.id → namesLs o = false) → (∀ n ∈ s.nodes, n.claim ≠ some g.id) →
    (∀ v ∈ s.vlcs, ∀ w ∈ s.vlcs, v.gang = g.id → w.gang = g.id → v.status ≠ .absent → w.status ≠ .absent → v.member = w.member → v = w) →
    ∃ (t : State) (h : Gang), exec (.gangSave g.id) s = .next t ∧ t.findGang g.id = some h ∧ h.st = .saved g.die k ∧ h.cores = [] ∧
      h.pool = none ∧ h.tids = g.tids ∧ h.ss = g.ss ∧ h.ssv = g.ssv ∧ h.arrive = g.arrive ∧ h.exited = g.exited ∧ h.wdog = g.wdog ∧
      h.hbwin = g.hbwin ∧ (∀ v ∈ t.vlcs, v.gang = g.id → v.status = .absent) ∧
      (∀ v ∈ s.vlcs, v.gang = g.id → v.status ≠ .absent → v.member < 32 →
        ∃ w ∈ h.savedVlcs, SameRegisters v w ∧ w.pc = v.pc ∧ w.status = v.status ∧ ∀ p ∈ w.plans, p.2.st ≠ 2) ∧
      (∀ n, s.findNode g.node = some n → ∃ m, t.findNode g.node = some m ∧ m.level = n.level ∧
        (g.awaits = [] → s.schedAssisted = false → m.st = .ready ∧ m.order = 2 ^ 64 - s.fresh) ∧ (g.awaits ≠ [] → m.st = .saved)) ∧
      ((∀ c, (s.core c).l1 = []) → s.writeBacks = [] → s.ckpt = none → Memory.wf s.mem = true → recordLength s g ≤ 2 ^ 24 → g.members < 2 ^ 16 →
        poolAddr s g.die k + 2 ^ 24 ≤ deviceEnd →
        let pa := poolAddr s g.die k
        memRead t.mem pa 4 = recordLength s g ∧ memRead t.mem (pa + 4) 2 = g.members ∧ memRead t.mem (pa + 6) 2 = 1 ∧
        memRead t.mem (pa + 8) 8 = g.gangid.toNat ∧ (∀ j, j < 128 → memRead t.mem (pa + 256 + 64 * j) 64 = (g.tid j).toNat) ∧
        ∀ v ∈ s.vlcs, v.gang = g.id → v.status ≠ .absent → v.member = 0 →
          ∀ n, n < 256 → memRead t.mem (pa + 8448 + 1024 + 8 * n) 8 = (v.getX n).toNat)) ∧
  (∀ (s : State) (g : Gang) (d k : Nat) (n : Node), s.findGang g.id = some g → g.st = .restoring d k → s.findNode g.node = some n →
    (rowsFree s g = false → exec (.contextRestore g.id) s = .next s) ∧
    (rowsFree s g = true → headerFits s g d k n = true → ∃ t : State, exec (.contextRestore g.id) s = .next t ∧
      t.findGang g.id = some { g with st := .resident, savedLs := [], savedFe := [], savedAcc := [] } ∧
      (t.die d).poolUsed.contains k = false ∧
      (∀ (j : Nat) (v : Vlc), s.vlcs[j]? = some v → t.vlcs[j]? = some
        (if v.gang = g.id ∧ (v.status = .halted ∨ v.status = .suspended) then { v with status := .running } else v)) ∧
      (∀ c b cells fe, g.cores = [c] → g.lsBase = [b] → g.savedLs = [cells] → g.savedFe = [fe] → TablesOk s → b % 16 = 0 →
        (cells.map (·.1)).Nodup →
        (∀ x ∈ cells, memByte t.mem (lsAddr c b + x.1) = x.2) ∧ (∀ x ∈ fe, (t.core c).fe.contains (x + b / 16) = true) ∧
        ∀ y, b ≤ y * 16 → y * 16 < b + shapeLs g.shape → (t.core c).fe.contains y = true → ∃ x ∈ fe, y = x + b / 16)) ∧
    (rowsFree s g = true → headerFits s g d k n = false → ∃ t : State, exec (.contextRestore g.id) s = .next t ∧ t.findGang g.id = none ∧
      t.findNode g.node = some { n with st := .done true } ∧ (t.die d).poolUsed.contains k = false ∧ Recorded t n.queue 0x15 2)) ∧
  (∀ (s : State) (g : Gang) (failed : Bool), s.findGang g.id = some g → g.st = .releasing failed →
    (releasedAll s g.id = false → exec (.gangRetirement g.id) s = .next s) ∧
    (releasedAll s g.id = true → (∀ n ∈ s.nodes, n.claim ≠ some g.id) → ∃ t : State, exec (.gangRetirement g.id) s = .next t ∧ t.findGang g.id = none ∧
      (∀ n, s.findNode g.node = some n → t.findNode g.node = some { n with st := .done failed }) ∧
      (Memory.wf s.mem = true → s.ckpt = none → (∀ c, ∀ l ∈ (s.core c).l1, l.line * 128 < deviceEnd) →
        (∀ w ∈ s.writeBacks, w.held.line * 128 < deviceEnd) → Cleared t g))) ∧
  (∀ (s : State) (g : Gang) (n : Node), s.findGang g.id = some g → g.st = .loading → s.findNode g.node = some n →
    let opt := n.image.extractLsb' 384 64
    (rowsFree s g = false → exec (.descriptorBlockLoad g.id) s = .next s) ∧
    (rowsFree s g = true → opt.extractLsb' 56 8 = 0 → ∃ t : State, exec (.descriptorBlockLoad g.id) s = .next t ∧
      t.findGang g.id = some { g with st := .resident } ∧ t.mem = s.mem ∧ t.vlcs = s.vlcs) ∧
    (rowsFree s g = true → opt.extractLsb' 56 8 ≠ 0 → opt.extractLsb' 0 6 ≠ 0 → ∃ t : State, exec (.descriptorBlockLoad g.id) s = .next t ∧
      t.findGang g.id = none ∧ t.findNode g.node = some { n with st := .done true } ∧ Recorded t n.queue 0x12 2) ∧
    (∀ u xs, rowsFree s g = true → opt.extractLsb' 0 6 = 0 → blockDescs s g.die n = (u, .ok xs) → u.gangs = s.gangs → Tab.wf 0 g.tids = true →
      ∃ (t : State) (h : Gang), exec (.descriptorBlockLoad g.id) s = .next t ∧ t.findGang g.id = some h ∧
        h = { g with st := .resident, tids := h.tids } ∧
        (∀ j, j < (opt.extractLsb' 56 8).toNat → ∃ e, (j, e) ∈ xs ∧ h.tid j = e) ∧
        ∀ j, (opt.extractLsb' 56 8).toNat ≤ j → h.tid j = g.tid j)) ∧
  (∀ (s : State) (g : Gang), s.findGang g.id = some g →
    (g.wdog < 2 ^ g.hbwin.toNat → exec (.watchdog g.id) s = .next s) ∧
    (2 ^ g.hbwin.toNat ≤ g.wdog → (∀ d k, g.st ≠ .saved d k) → (∀ f, g.st ≠ .releasing f) → ∃ (t : State) (h : Gang),
      exec (.watchdog g.id) s = .next t ∧ t.findGang g.id = some h ∧ h.st = .releasing true ∧ h.exited = BitVec.allOnes 32 ∧
      h.node = g.node ∧ Recorded t g.queue 0x50 4 ∧
      (∀ v ∈ t.vlcs, v.gang = g.id → v.status = .absent ∨ v.status = .retired ∧ v.vq = []) ∧
      ∀ x ∈ t.openRecs, x ∈ s.openRecs ∧ x.gang ≠ some g.id))

/-! ### Landau -/

/-- R18, R23, R27, R28, R321 to R325, R332: reading records, dispatch to the lowest cluster of the mask that fits and to its lowest cores
that fit, lending of a queue's oldest node, aging, completion of nodes and graphs, the return from the overflow region, and `spawn`, which
adds a node.  That a node takes the lowest free slot is the model's choice.
(The model's choices it rests on: assumptions 3, 33, 36, 60, 80.) -/
def Obligations.NodesAndGraphs : Prop :=
  (∀ (d : Nat) (s : State), d < 4 →
    (landauUp s d = false ∨ candidates s d = [] → exec (.dispatch d) s = .next s) ∧
    (landauUp s d = false ∨ (∀ n ∈ candidates s d, lendable s n = false ∨ lendPlace s n = none) → exec (.lend d) s = .next s) ∧
    (landauUp s d = false ∨ readingGraph s d = none → exec (.nodeRecordRead d) s = .next s) ∧
    (exec (.aging d) s = .next { s with nodes := s.nodes.map fun n =>
      let prio := (s.queue n.queue).prio
      let age := 2 ^ (prio.extractLsb' 16 6).toNat
      if n.die = d ∧ n.st = .ready ∧ n.assisted = false ∧ n.level < min 7 ((prio.extractLsb' 0 3).toNat + 1) ∧
        n.since + age ≤ (s.die d).cycles then { n with level := n.level + 1, since := n.since + age } else n })) ∧
  (∀ (d : Nat) (s : State), d < 4 → landauUp s d = true → TablesOk s → candidates s d ≠ [] →
    (∀ n ∈ candidates s d, placeable s n = true ∧ n.queue < 1024 ∧ 1 ≤ (s.queue n.queue).weight) →
    (∀ n ∈ s.nodes, s.findNode n.id = some n) → (s.landauOf d).visiting = false → (s.landauOf d).visit = none →
    ∃ (t : State) (n : Node), exec (.dispatch d) s = .next t ∧ n ∈ candidates s d ∧
      (∀ m ∈ candidates s d, m.level ≤ n.level ∧
        (m.level = n.level → n.queue ≤ m.queue ∧ (m.queue = n.queue → n.order ≤ m.order))) ∧
      (recKind n.image = 0 → (∀ g ∈ s.gangs, g.node ≠ n.id) → ∃ g ∈ t.gangs, g.id = s.fresh ∧ g.node = n.id ∧ g.st = .loading ∧
        g.die = d ∧ g.queue = n.queue ∧ g.tenant = (s.queue n.queue).tenant ∧ g.shape = recShape n.image ∧
        g.cores.length = shapeCores g.shape ∧ g.lsBase.length = shapeCores g.shape ∧
        g.members = shapeCores g.shape * shapeContexts g.shape ∧ (∀ c ∈ g.cores, coreDie c = d ∧ coreCluster c = g.cluster) ∧
        (∀ cl, cl < g.cluster → (∀ c, c < 8 → (s.queue n.queue).mask.getLsbD (d * 144 + cl * 8 + c) = true) →
          (fittingCores s d cl n.queue g.shape).length < shapeCores g.shape) ∧
        (∀ c ∈ g.cores, ∀ e, d * 144 + g.cluster * 8 ≤ e → e < c → (coreFits s n.queue g.shape e).isSome = true → e ∈ g.cores) ∧
        (∀ c, c < 8 → (s.queue n.queue).mask.getLsbD (d * 144 + g.cluster * 8 + c) = true) ∧
        ∀ k, k < g.members → ∃ v ∈ t.others, v.gang = g.id ∧ v.member = k ∧ v.status = .running ∧ v.core ∈ g.cores ∧
          v.pc = n.image.extractLsb' 64 64 &&& ~~~3 ∧ v.getX 4 = BitVec.ofNat 64 k ∧ v.getX 5 = BitVec.ofNat 64 g.members ∧
          (n.image.extractLsb' 320 64 ≠ 0 → v.getX 3 = n.image.extractLsb' 320 64) ∧ v.vl = 0 ∧ v.pseq = (s.core v.core).q)) ∧
  (∀ (d e cl : Nat) (xs : List (Nat × Nat)) (n : Node) (s : State), d < 4 → landauUp s d = true →
    (byLevel (oldestNodes (candidates s d))).find? (fun n => lendable s n && (lendPlace s n).isSome) = some n → lendPlace s n = some (e, cl, xs) →
    (∀ g ∈ s.gangs, g.node ≠ n.id) →
    e ≠ d ∧ ∃ (t : State) (g : Gang), exec (.lend d) s = .next t ∧ g ∈ t.gangs ∧ g.node = n.id ∧ g.die = e ∧ g.cluster = cl ∧
      g.cores = xs.map (·.1) ∧ g.st = .loading) ∧
  (∀ (d k : Nat) (s u : State) (g : Graph) (ws : List Word), d < 4 → landauUp s d = true → readingGraph s d = some g → g.stopped = false →
    g.nodes ≤ 65535 → g.id < s.fresh → (∀ n ∈ s.nodes, n.id < s.fresh) → (∀ h ∈ s.graphs, h.id = g.id → h = g) →
    readHomeDwords s (queueParty d g.queue) (g.base + BitVec.ofNat 64 (64 * g.next)) 8 = (u, .ok ws) →
    u.nodes = s.nodes → u.graphs = s.graphs → u.fresh = s.fresh →
    let r := record512 ws
    (recordRefused r g.nodes = none → overflowed u d g.queue = [] → freeSlot u d false = some k →
      ∃ (t : State) (n : Node), exec (.nodeRecordRead d) s = .next t ∧ t.findNode s.fresh = some n ∧ n.slot = some k ∧ n.image = r ∧
        n.idx = g.next ∧ n.graph = g.id ∧ n.queue = g.queue ∧ n.die = d ∧ n.deps = (r.extractLsb' 32 16).toNat - g.due.count g.next ∧
        (n.deps ≠ 0 → n.st = .waiting) ∧ (n.deps = 0 → g.ord = false → n.st = .ready ∧ n.level = (s.queue g.queue).pri) ∧
        t.findGraph g.id = some { g with next := g.next + 1 }) ∧
    (recordRefused r g.nodes = some .queue → (∀ j, j < 4 → recSucc r j = 0xFFFF) → g.nodes < 65535 →
      ∃ t : State, exec (.nodeRecordRead d) s = .next t ∧ t.nodes = s.nodes ∧ Recorded t g.queue 0x41 2 ∧
        t.findGraph g.id = some { g with next := g.next + 1, left := g.left - 1 })) ∧
  (∀ (d k : Nat) (s : State), d < 4 →
    (s.nodeAt d k = none → exec (.taskCompletion d k) s = .next s) ∧
    (∀ n, s.nodeAt d k = some n → (∀ f, n.st ≠ .done f) → exec (.taskCompletion d k) s = .next s) ∧
    (∀ n f g, s.nodeAt d k = some n → n.st = .done f → s.findGraph n.graph = some g → g.id = n.graph →
      (∀ h ∈ s.graphs, h.id = g.id → h = g) → (∀ m ∈ s.nodes, s.findNode m.id = some m) →
      (∀ m ∈ s.nodes, ∀ x ∈ s.nodes, m.graph = x.graph → m.idx = x.idx → m.idx ≠ 0xFFFF → m = x) → g.nodes < 65536 →
      ∃ t : State, exec (.taskCompletion d k) s = .next t ∧ t.findNode n.id = none ∧
        (∃ h, t.findGraph g.id = some h ∧ h.left = g.left - 1 ∧ h.next = g.next) ∧
        ∀ m ∈ s.nodes, m.id ≠ n.id → m.graph = n.graph → m.st = .waiting → m.idx < g.next → m.idx ≠ 0xFFFF → recDeps m.image ≠ 0 →
          let k := ((List.range 4).filter fun j => recSucc n.image j = m.idx).length
          k ≤ m.deps → ∃ x, t.findNode m.id = some x ∧ x.deps = m.deps - k ∧
            (m.deps ≠ 0 → (x.st = .ready ↔ m.deps = k)) ∧ x.image = m.image ∧ x.slot = m.slot)) ∧
  (∀ (id : Nat) (s : State),
    (s.findGraph id = none → exec (.graphCompletion id) s = .next s) ∧
    (∀ g, s.findGraph id = some g → g.left ≠ 0 → exec (.graphCompletion id) s = .next s) ∧
    (∀ g, s.findGraph id = some g → g.left = 0 → TablesOk s → s.ckpt = none → s.schedAssisted = false →
      (g.done = 0 → ∃ t : State, exec (.graphCompletion id) s = .next t ∧ t.graphs = s.graphs.filter (·.id != id) ∧
        t.mem = s.mem ∧ t.vlc = s.vlc ∧ t.msix = s.msix ++ if g.irq then [(g.die, g.vec)] else []) ∧
      (∀ pa kind, g.done ≠ 0 → access s (queueParty g.die g.queue) .counter g.done 8 .atomic = (s, .ok (.phys pa kind)) →
        ∃ t : State, exec (.graphCompletion id) s = .next t ∧ t.graphs = s.graphs.filter (·.id != id) ∧
          memRead t.mem pa 8 = (memRead s.mem pa 8 + 1) % 2 ^ 64 ∧ (∀ a, ¬ (pa ≤ a ∧ a < pa + 8) → memByte t.mem a = memByte s.mem a) ∧
          t.msix = s.msix ++ if g.irq then [(g.die, g.vec)] else []))) ∧
  (∀ (d a b : Fld) (s : State) (p : Dest), (s.vlc.rx a).toNat % 64 = 0 → p.pa % 64 = 0 → RunsOn s .load .read (s.vlc.rx a) 8 8 p →
    TablesOk s → NoSnoops s s.vlc.core → s.poison = [] → s.isFenced (coreDie s.vlc.core) 7 0 = false →
    spawnTrap s (((s.findNode s.gang.node).map (·.graph)).getD s.fresh)
      (spawnImage (BitVec.ofNat 512 (seen s s.vlc.core p 64)) (s.vlc.rx b)) = none →
    overflowed s (coreDie s.vlc.core) s.gang.queue = [] → (freeSlot s (coreDie s.vlc.core) true).isSome = true →
    ∃ u : State, exec (.spawn d a b) s = .next { u with vlc := (u.vlc.wx d 1).next } ∧ u.nodes.length = s.nodes.length + 1) ∧
  (∀ (q d k : Nat) (m : Node) (rest : List Node) (s : State), q < 1024 → d < 4 → overflowed s d q = m :: rest →
    freeSlot s d (m.idx == 0xFFFF) = some k → (∀ n ∈ s.nodes, s.findNode n.id = some n) →
    ∃ (t : State) (n : Node), exec (.overflowReturn q) s = .next t ∧ t.findNode m.id = some n ∧ n.slot = some k ∧ n.image = m.image ∧
      n.deps = m.deps ∧ n.st = m.st)

/-- R315, R341, R368, R377, R384: the host's placements and post ring, and the posting of records in their slots.  That the ring's address is
taken modulo 2^50 is the model's choice (assumption 23, DEDUCED).
(The model's choices it rests on: assumptions 23, 35, 36, 47.) -/
def Obligations.RecordsAndPosts : Prop :=
  (∀ (d k cl mask : Nat) (s : State), d < 4 →
    (s.nodeAt d k = none → exec (.place d k cl mask) s = .next s) ∧
    (∀ n, s.nodeAt d k = some n → n.st ≠ .ready ∨ n.assisted = false ∨ n.hold ≠ none → exec (.place d k cl mask) s = .next s) ∧
    (∀ n xs, s.nodeAt d k = some n → n.st = .ready → n.assisted = true → n.hold = none → (s.queue n.queue).en = true → landauUp s d = true →
      recKind n.image = 0 → cl < 18 → maskPlace s d cl mask n = some xs → (∀ g ∈ s.gangs, g.node ≠ n.id) →
      ∃ (t : State) (g : Gang), exec (.place d k cl mask) s = .next t ∧ g ∈ t.gangs ∧ g.node = n.id ∧ g.die = d ∧ g.cluster = cl ∧
        g.cores = xs.map (·.1) ∧ g.st = .loading ∧ ∀ c ∈ g.cores, mask.testBit (c % 8) = true) ∧
    (∀ n, s.nodeAt d k = some n → n.st = .ready → n.assisted = true → n.hold = none → (s.queue n.queue).en = true → landauUp s d = true →
      recKind n.image = 0 → 18 ≤ cl ∨ maskPlace s d cl mask n = none →
      ∃ t : State, exec (.place d k cl mask) s = .next t ∧ t.nodes = s.nodes ∧ t.gangs = s.gangs ∧ Recorded t n.queue 0x41 2)) ∧
  (∀ (d : Nat) (w : Word) (s : State), d < 4 →
    let l := s.landauOf d
    let x := w.setWidth 16
    let written := BitVec.ofNat 16 l.postWritten
    ((written - l.postRead).toNat < (x - l.postRead).toNat → exec (.postread d w) s = .next s) ∧
    ((x - l.postRead).toNat ≤ (written - l.postRead).toNat → (∀ n ∈ s.nodes, n.posted = true ∨ n.assisted = false) →
      exec (.postread d w) s = .next (s.modLandau d fun l => { l with postRead := x })) ∧
    (∀ n k, (x - l.postRead).toNat ≤ (written - l.postRead).toNat → written - x ≠ l.postEntries → Memory.wf s.mem = true →
      s.nodes = [n] → n.die = d → n.st = .ready → n.assisted = true → n.posted = false → n.hold = none → n.slot = some k → k < 4096 → n.queue < 1024 →
      n.idx < 65536 → recKind n.image = 0 →
      let pa := hostAddr l.postBase.toNat + 32 * (l.postWritten % l.postEntries.toNat)
      ∃ t : State, exec (.postread d w) s = .next t ∧
        memRead t.mem pa 32 = k + n.queue * 2 ^ 16 + n.idx * 2 ^ 32 + (recShape n.image).toNat * 2 ^ 66 ∧
        (∀ a, ¬ (pa ≤ a ∧ a < pa + 32) → memByte t.mem a = memByte s.mem a) ∧ t.msix = s.msix ++ [(d, 2046)] ∧
        t.nodes = [{ n with posted := true }] ∧ (t.landauOf d).postWritten = l.postWritten + 1)) ∧
  (∀ (d : Nat) (base : Bool) (w : Word) (s : State), d < 4 →
    (s.funcmode.getLsbD 1 = true → exec (.postRingConfig d base w) s = .next s) ∧
    (s.funcmode.getLsbD 1 = false → exec (.postRingConfig d base w) s = .next (s.modLandau d fun l =>
      if base then { l with postBase := w &&& ~~~0x3F, postWritten := 0, postRead := 0 }
      else { l with postEntries := w.setWidth 16, postWritten := 0, postRead := 0 }))) ∧
  (∀ (q : Nat) (s : State), q < 1024 →
    (nextRecord s [] (s.pendRecs.filter fun r => r.queue == q) = none → exec (.recordPost q) s = .next s) ∧
    (∀ r, nextRecord s [] (s.pendRecs.filter fun r => r.queue == q) = some r → Memory.wf s.mem = true → s.ckpt = none →
      ∃ t : State, exec (.recordPost q) s = .next t ∧ t.pendRecs = s.pendRecs.erase r ∧ r.queue = q ∧
        (r.gang = none → r.op = none → t.openRecs = s.openRecs) ∧
        (r.gang.isSome = true ∨ r.op.isSome = true → t.openRecs = s.openRecs ++ [⟨q, r.seq, r.gang, r.op, false⟩]) ∧
        ((s.queue q).frsize = 0 → (t.die (s.queue q).origin).log = (s.die (s.queue q).origin).log ++ [withContext s r] ∧ t.mem = s.mem ∧
          t.msix = s.msix) ∧
        ((s.queue q).frsize ≠ 0 →
          let pa := (s.queue q).frbase.toNat + 128 * (r.seq % (s.queue q).frsize.toNat)
          (memRead s.mem pa 8).testBit 63 = false ∧ memRead t.mem pa 128 = (withContext s r).toNat ∧
          (∀ a, ¬ (pa ≤ a ∧ a < pa + 128) → memByte t.mem a = memByte s.mem a) ∧ t.msix = s.msix ++ [((s.queue q).origin, q)])) ∧
    (∀ r, r.gang = none → withContext s r = r.image) ∧
    (∀ r g d k, r.gang = some g.id → s.findGang g.id = some g → g.st = .saved d k → poolAddr s d k < 2 ^ 64 →
      r.image.extractLsb' 448 64 = 0 → r.image.getLsbD 58 = false → (withContext s r).getLsbD 58 = true ∧
      (withContext s r).extractLsb' 448 64 = BitVec.ofNat 64 (poolAddr s d k)))

/-! ### Engines and Hansom -/

/-- R215, R326, R328, R347, R368 to R370: a copy moves its bytes at their homes, the operation at the head signals its counter once moved,
at the address that the counter has then, and one that faults stops with a record; one that a release still holds does nothing.
(The model's choices it rests on: assumptions 3, 19, 55.) -/
def Obligations.EngineProgress : Prop :=
  (∀ (d e : Nat) (s : State), d < 4 → e < 9 → (s.engines.filter fun o => o.die == d && o.eng == e) = [] →
    exec (.engineCompletion d e) s = .next s ∧ exec (.engineFault d e) s = .next s) ∧
  (∀ (s : State) (o : EngOp), o.die < 4 → o.eng < 9 → engineOps s o.die o.eng = [o] → o.hold.isSome = true →
    exec (.engineCompletion o.die o.eng) s = .next s ∧ exec (.engineFault o.die o.eng) s = .next s) ∧
  (∀ (s : State) (o : EngOp) (rest : List EngOp) (dst src : Nat → Nat) (kind : Nat), o.die < 4 → o.eng < 9 →
    engineOps s o.die o.eng = o :: rest → o.hold = none → o.st = .queued → o.efn = 0 →
    (∀ x ∈ s.engines, x.id = o.id → x = o) → TablesOk s →
    s.ckpt = none → CopyPlaced s o dst src kind →
    ∃ t : State, exec (.engineCompletion o.die o.eng) s = .next t ∧ SameRegisters s.vlc t.vlc ∧
      (∀ i, o.off ≤ i → i < o.len.toNat → memByte t.mem (dst i) = memByte s.mem (src i)) ∧
      (∀ a, (∀ i, o.off ≤ i → i < o.len.toNat → dst i ≠ a) → memByte t.mem a = memByte s.mem a) ∧
      t.engines = s.engines.map fun x => if x = o then { x with off := o.len.toNat, st := .moved } else x) ∧
  (∀ (s : State) (o : EngOp) (rest : List EngOp), o.die < 4 → o.eng < 9 → engineOps s o.die o.eng = o :: rest → o.hold = none →
    o.st = .moved → TablesOk s → s.ckpt = none →
    let ends (t : State) : Prop := exec (.engineCompletion o.die o.eng) s = .next t ∧ SameRegisters s.vlc t.vlc ∧
      t.engines = s.engines.filter (fun x => x.id != o.id) ∧ (∀ g h, o.gang = some g → t.findGang g = some h → h.wdog = 0) ∧
      ∀ n m, o.node = some n → s.findNode n = some m → t.findNode n = some { m with st := .done false }
    (o.ctr = 0 → ∃ t, ends t ∧ t.mem = s.mem) ∧
    (∀ pa kind, o.ctr ≠ 0 → access s (engParty s o) .counter o.ctr 8 .atomic = (s, .ok (.phys pa kind)) →
      ∃ t, ends t ∧ memRead t.mem pa 8 = (memRead s.mem pa 8 + 1) % 2 ^ 64 ∧
        ∀ a, ¬ (pa ≤ a ∧ a < pa + 8) → memByte t.mem a = memByte s.mem a) ∧
    (∀ e, o.ctr ≠ 0 → o.sent = [] → access s (engParty s o) .counter o.ctr 8 .atomic = (s, .error e) →
      (∀ x ∈ s.engines, x.id = o.id → x = o) →
      ∃ (t : State) (r : PendRec), exec (.engineFault o.die o.eng) s = .next t ∧ t.mem = s.mem ∧ t.pendRecs = s.pendRecs ++ [r] ∧
        r.op = some o.id ∧ t.engines = s.engines.map fun x => if x = o then { x with off := o.len.toNat, st := .suspended r.seq } else x)) ∧
  (∀ (s : State) (o : EngOp) (rest : List EngOp) (tr : Trap), o.die < 4 → o.eng < 9 → engineOps s o.die o.eng = o :: rest →
    o.hold = none → o.sent = [] → o.st = .queued → o.efn = 0 → o.off < o.len.toNat → o.core < 576 → o.slot < 4 → o.nodeIdx < 65536 → o.off < 2 ^ 32 →
    engByte s (engParty s o) (o.dst + BitVec.ofNat 64 o.off) .write false = (s, .error tr) →
    (∀ x ∈ s.engines, x.id = o.id → x = o) →
    ∃ (t : State) (r : PendRec), exec (.engineFault o.die o.eng) s = .next t ∧ t.mem = s.mem ∧ t.vlc = s.vlc ∧
      t.pendRecs = s.pendRecs ++ [r] ∧ r.queue = o.queue ∧ r.op = some o.id ∧ r.gang = none ∧ r.seq = (s.queue o.queue).seq ∧
      r.image.extractLsb' 32 9 = tr.code.setWidth 9 ∧ r.image.extractLsb' 60 3 = 1 ∧ r.image.extractLsb' 320 56 = tr.va.setWidth 56 ∧
      r.image.extractLsb' 384 64 = tr.info ∧ r.image.extractLsb' 512 2 = 0 ∧ r.image.extractLsb' 672 32 = BitVec.ofNat 32 o.off ∧
      r.image.extractLsb' 832 64 = o.len ∧ r.image.extractLsb' 896 64 = o.src ∧ r.image.extractLsb' 960 64 = o.dst ∧
      t.engines = s.engines.map fun x => if x = o then { x with st := .suspended r.seq } else x)

/-- R263, R335 to R340, R384: gate records enter the gate queue, held while a release of both streams is still to come, and leave it;
requests arrive; closing counts move on through their queues and arrive; a closed step grants in ascending token index up to the capacity,
and a finished step completes its node, and drops the records of its STEP that came too late.  That a record still queued when the step ends
is late is the model's choice.
(The model's choices it rests on: assumptions 3, 19, 37, 80.) -/
def Obligations.HansomSteps : Prop :=
  (∀ (d a b : Fld) (s : State) (p : Dest), TablesOk s → CachesOk s → Coherent s s.vlc.core →
    let die := coreDie s.vlc.core
    let held := s.gateQ[die]?.getD []
    let n := Nat.min (s.vlc.rx b).toNat (2048 - held.length)
    (s.vlc.rx a).toNat % 8 = 0 → 1 ≤ (s.vlc.rx b).toNat → (s.vlc.rx b).toNat ≤ 64 → s.isFenced die 6 0 = false → s.vlc.core < 576 →
    RunsOn s .load .read (s.vlc.rx a) 8 (gateLength (gateRecords s p n 0) / 8) p →
    ∃ (u : State) (hold : Option Nat), exec (.gate d a b) s = .next { u with vlc := (u.vlc.wx d (BitVec.ofNat 64 n)).next } ∧
      u.gateQ[die]? = some (held ++ (gateRecords s p n 0).map fun r => { r with hold := hold }) ∧
      (s.vlc.vq = [] ∨ s.vlc.inHandler = true → hold = none ∧ SameRegisters s.vlc u.vlc ∧ NoDirtyRc u s.vlc.core) ∧
      (s.vlc.vq ≠ [] → s.vlc.inHandler = false → hold = some s.fresh ∧
        ∃ e, SameRegisters { s.vlc with vq := s.vlc.vq ++ [e] } u.vlc ∧ e.i = .gate d a b ∧ e.xd = BitVec.ofNat 64 s.fresh)) ∧
  (∀ (d a b : Fld) (s : State), s.vlc.vq = [] ∨ s.vlc.inHandler = true →
    ((s.vlc.rx a).toNat % 8 ≠ 0 → exec (.gate d a b) s = .next (takeFault s ⟨0x12, false, (s.vlc.rx a).setWidth 56, s.vlc.pc, 0⟩)) ∧
    ((s.vlc.rx a).toNat % 8 = 0 → s.vlc.rx b = 0 ∨ 64 < (s.vlc.rx b).toNat →
      exec (.gate d a b) s = .next (takeFault s ⟨0x41, false, 0, s.vlc.pc, 6⟩))) ∧
  (∀ (d k : Nat) (s : State), d < 4 → k < 4 →
    (s.findStep d k = none → exec (.gateRecordTake d k) s = .next s ∧ exec (.capacityGrant d k) s = .next s ∧
      ∀ n m, exec (.hdone d k n m) s = .next s) ∧
    (∀ st, s.findStep d k = some st → takeFirst st.stepNo (s.gateQ[d]?.getD []) = none → exec (.gateRecordTake d k) s = .next s) ∧
    (∀ st r rest, s.findStep d k = some st → takeFirst st.stepNo (s.gateQ[d]?.getD []) = some (r, rest) →
      (blkTok st.block ≤ st.taken → st.latePosted = true →
        exec (.gateRecordTake d k) s = .next { s with gateQ := s.gateQ.setIfInBounds d rest }) ∧
      (blkTok st.block ≤ st.taken → st.latePosted = false → ∃ t : State, exec (.gateRecordTake d k) s = .next t ∧
        t.gateQ[d]? = some rest ∧ Recorded t st.queue 0x41 3 ∧ t.findStep d k = some { st with latePosted := true }) ∧
      (st.taken + 1 < blkTok st.block → ∃ (t : State) (x : HStep), exec (.gateRecordTake d k) s = .next t ∧ t.gateQ[d]? = some rest ∧
        t.findStep d k = some x ∧ x.taken = st.taken + 1 ∧ x.closed = st.closed ∧
        (malformed st r = true → x.routed = st.routed ∧ x.badPosted = true ∧ (st.badPosted = false → Recorded t st.queue 0x41 3) ∧
          t.reqTransit = s.reqTransit) ∧
        (malformed st r = false → x.routed = st.routed ++ [routeToken st r.token.toNat (r.logits.map (·.toNat))] ∧
          x.badPosted = st.badPosted ∧
          (st.route = false → t.reqTransit = s.reqTransit ++
            (routeToken st r.token.toNat (r.logits.map (·.toNat))).picks.map fun e =>
              ⟨expertHome st e.1, d, st.stepNo, r.token.toNat, e.1, 1, none, false⟩)))) ∧
    (∀ st, s.findStep d k = some st → (st.waitsHost = true ∨ st.closed = 0) → exec (.capacityGrant d k) s = .next s) ∧
    (∀ st, s.findStep d k = some st → st.waitsHost = false → st.closed ≠ 0 → st.granted < rounds st →
      (∀ e ∈ stepDies st, closedFor s d e st.stepNo (st.granted + 1) = true) → (asked s st (st.granted + 1)).Nodup →
      (∀ x ∈ asked s st (st.granted + 1), x.slot = none) →
      (∀ x ∈ asked s st (st.granted + 1), ∀ y ∈ asked s st (st.granted + 1), x.expert = y.expert → x.token = y.token → x = y) →
      ∃ t : State, exec (.capacityGrant d k) s = .next t ∧ t.findStep d k = some { st with granted := st.granted + 1 } ∧
        ∀ r ∈ asked s st (st.granted + 1), ∃ y ∈ t.reserves,
          let before := ((asked s st (st.granted + 1)).filter fun x => x.expert == r.expert && decide (x.token < r.token)).length
            + grantedCount s.reserves d st.stepNo r.expert
          y = { r with decided := true, slot := if before < expertCap st r.expert then some before else none }) ∧
    (∀ st, s.findStep d k = some st → st.waitsHost = false → st.closed ≠ 0 → st.closed = rounds st → st.granted = rounds st →
      st.rowsDone = true → st.recordsDone = true →
      ∃ t : State, exec (.capacityGrant d k) s = .next t ∧ t.findStep d k = none ∧ t.mem = s.mem ∧
        (∀ n, s.findNode st.node = some n → t.findNode st.node = some { n with st := .done false }) ∧
        (∀ r ∈ t.gateQ[d]?.getD [], r.step.toNat ≠ st.stepNo ∨ r.hold.isSome = true) ∧
        ((∃ r ∈ s.gateQ[d]?.getD [], r.step.toNat = st.stepNo ∧ r.hold = none) → st.latePosted = false → Recorded t st.queue 0x41 3)) ∧
    (∀ st n m, s.findStep d k = some st → n < 65536 → m < 65536 →
      (st.waitsHost = false ∨ st.stepNo ≠ n → exec (.hdone d k n m) s = .next s) ∧
      (st.waitsHost = true → st.stepNo = n → m = 0 → ∃ t : State, exec (.hdone d k n m) s = .next t ∧ t.findStep d k = none ∧
        t.mem = s.mem ∧ ∀ x, s.findNode st.node = some x → t.findNode st.node = some { x with st := .done false }))) ∧
  (∀ (d : Nat) (s : State), d < 4 → TablesOk s →
    (s.reqTransit.find? (fun r => r.home == d) = none → exec (.reservationRequest d) s = .next s) ∧
    (∀ r, s.reqTransit.find? (fun r => r.home == d) = some r → ∃ t : State, exec (.reservationRequest d) s = .next t ∧
      t.reqTransit = s.reqTransit.erase r ∧ t.reserves = s.reserves ++ [{ r with decided := s.hansomFailed.contains (d, r.step) }] ∧
      ∀ k, t.closeCell d k = if k = r.src then { s.closeCell d k with received := (s.closeCell d k).received + 1 } else s.closeCell d k) ∧
    (∀ k, k < 4 →
      (s.closeTransit.find? (fun x => x.home == d && x.src == k) = none → exec (.closingCount d k) s = .next s) ∧
      (∀ x place, s.closeTransit.find? (fun x => x.home == d && x.src == k) = some x →
        (∃ e cl, x.place = .xbar e cl ∧ place = .seam e d) ∨ (∃ e f, x.place = .seam e f ∧ place = .home) →
        (∀ y ∈ s.closeTransit, y.home = d → y.src = k → y.place ≠ place) → ∃ t : State, exec (.closingCount d k) s = .next t ∧
        t.closeTransit = s.closeTransit.erase x ++ [{ x with place := place }] ∧ t.reserves = s.reserves ∧
        t.closeCell d k = s.closeCell d k) ∧
      (∀ x, s.closeTransit.find? (fun x => x.home == d && x.src == k) = some x → x.place = .home → ∃ t : State,
        exec (.closingCount d k) s = .next t ∧ t.closeTransit = s.closeTransit.erase x ∧ t.reserves = s.reserves ∧
        (t.perfOf d x.queue).loarr = (s.perfOf d x.queue).loarr + x.cover ∧
        t.closeCell d k = if x.tag < (s.closeCell d k).tag then s.closeCell d k
          else { s.closeCell d k with count := x.count, tag := x.tag, rnd := x.rnd })))

/-! ### Events of the memory system -/

/-- R20, R193, R207, R213, R214, R254, R260 to R265, R348, R351, R401: LO stores move on in the order of their queue and arrive, lines are
evicted and write-backs arrive, releases are queried and complete, rounds close, page walks and epochs end, waits wake, a full-empty wait
by reading its element, and the checkpoint copies a page; no LO store crosses a fence.  That the sink's address is taken modulo 2^50 is the
model's choice (assumption 23, DEDUCED).
(The model's choices it rests on: assumptions 9, 10, 11, 12, 17, 19, 23, 53, 57.) -/
def Obligations.MemoryEvents : Prop :=
  (∀ (i : Nat) (s : State), s.loTransit[i]? = none → exec (.loStoreArrival i) s = .next s) ∧
  (∀ (i : Nat) (x : LoStore) (s : State), s.loTransit[i]? = some x →
    ((∃ c, x.place = .coupling c ∧ s.isFenced (c / 4) 5 (c % 4) = true) ∨
      ∃ d e, x.place = .seam d e ∧ seamFenced s d e = true) → exec (.loStoreArrival i) s = .next s) ∧
  (∀ (i j : Nat) (x : LoStore) (s : State), s.loTransit[i]? = some x → s.loTransit.findIdx? (sameQueue x) = some j →
    exec (.loStoreArrival i) s = exec (.loStoreArrival j) s) ∧
  (∀ (i : Nat) (x : LoStore) (s : State), s.loTransit[i]? = some x → s.loTransit.findIdx? (sameQueue x) = some i → TablesOk s →
    s.ckpt = none → placeOf x.pa = .device →
    (x.place = .home → ∃ t : State, exec (.loStoreArrival i) s = .next t ∧ SameRegisters s.vlc t.vlc ∧
      t.loTransit = s.loTransit.eraseIdx i ∧
      let old := Tab.get LoTag.reset s.lo (x.pa / 8)
      let takes := old.seq.toNat < x.seq.toNat ∨ old.seq = x.seq ∧ old.prod.toNat ≤ x.prod.toNat
      memRead t.mem x.pa 8 = (if takes then x.val.toNat else memRead s.mem x.pa 8) ∧
      (∀ a, ¬ (x.pa ≤ a ∧ a < x.pa + 8) → memByte t.mem a = memByte s.mem a) ∧
      ∀ k, Tab.get LoTag.reset t.lo k = if k = x.pa / 8 then
        ⟨if takes then x.seq else old.seq, if takes then x.prod else old.prod, old.arrivals + BitVec.ofNat 32 x.cover⟩
        else Tab.get LoTag.reset s.lo k) ∧
    (∀ d cl, x.place = .xbar d cl → (∀ y ∈ s.loTransit, y.pa = x.pa → y = x) → ∃ t : State, exec (.loStoreArrival i) s = .next t ∧
      t.mem = s.mem ∧ t.vlc = s.vlc ∧ ∃ y ∈ t.loTransit, y.pa = x.pa ∧ y.val = x.val ∧ y.seq = x.seq ∧ y.prod = x.prod ∧
        y.place = if homeDie x.pa = d then .home else .seam d (homeDie x.pa))) ∧
  (∀ (core line : Nat) (s : State), core < 576 → TablesOk s → CachesOk s → s.ckpt = none → placeOf (line * 128) = .device →
    let mine (w : WriteBack) : Prop := w.core = core ∧ w.held.line = line
    let newest (k : Nat) : Option WriteBack :=
      (s.writeBacks.filter fun w => decide (mine w) && w.held.dirty.getLsbD k).getLast?
    ((∀ w ∈ s.writeBacks, ¬ mine w) → (∀ l ∈ (s.core core).l1, l.line ≠ line) → exec (.writeBackArrival core line) s = .next s) ∧
    ((∃ w ∈ s.writeBacks, mine w) → ∃ t : State, exec (.writeBackArrival core line) s = .next t ∧ SameRegisters s.vlc t.vlc ∧
      t.writeBacks = s.writeBacks.filter (fun w => decide (¬ mine w)) ∧
      (∀ k, k < 128 → memByte t.mem (line * 128 + k) = match newest k with
        | some w => w.held.data.extractLsb' (8 * k) 8
        | none => memByte s.mem (line * 128 + k)) ∧
      ∀ a, a / 128 ≠ line → memByte t.mem a = memByte s.mem a) ∧
    (∀ l ∈ (s.core core).l1, l.line = line → (∀ w ∈ s.writeBacks, ¬ mine w) →
      ∃ t : State, exec (.writeBackArrival core line) s = .next t ∧ t.vlc = s.vlc ∧ t.mem = s.mem ∧
        (t.core core).l1 = (s.core core).l1.filter (fun x => x.line != line) ∧
        if l.dirty = 0 then t.writeBacks = s.writeBacks else ∃ r, t.writeBacks = s.writeBacks ++ [⟨core, r, l⟩])) ∧
  (∀ (core rnd unit : Nat) (s : State), core < 576 → TablesOk s →
    (∃ t : State, exec (.releaseQuery core rnd unit) s = .next t ∧ t = { s with cores := t.cores } ∧
      t.core core = { s.core core with outs := (t.core core).outs } ∧
      (t.core core).outs = (s.core core).outs.map fun r =>
        if r.round.toNat = rnd ∧ Tab.get 0 s.arrivals (arrivalKey core rnd unit) = Tab.get 0 r.counts unit then
          { r with counts := Tab.set 0 r.counts unit 0 } else r) ∧
    (∃ t : State, exec (.releaseCompletion core rnd) s = .next t ∧ t = { s with cores := t.cores, arrivals := t.arrivals } ∧
      (∀ x ∈ t.arrivals, x ∈ s.arrivals) ∧
      t.core core = { s.core core with
        outs := (s.core core).outs.filter fun r => !(decide (r.round.toNat = rnd) && decide (r.counts = [])) }) ∧
    (((s.core core).sent.all fun x => decide (x.2 < 2 ^ 32 - 2)) = true → exec (.roundAutoClose core) s = .next s) ∧
    (((s.core core).sent.all fun x => decide (x.2 < 2 ^ 32 - 2)) = false → ∃ t : State, exec (.roundAutoClose core) s = .next t ∧
      t = { s with cores := t.cores, arrivals := t.arrivals } ∧
      t.core core = { s.core core with round := (s.core core).round + 1, sent := [] })) ∧
  (∀ (d q va : Nat) (acc : Acc) (s : State), d < 4 → q < 1024 →
    (0x00FFFF8000000000 ≤ va ∨ (tlbFind s (queueParty d q) va).isSome = true → exec (.pageWalk d q va acc) s = .next s) ∧
    (∀ u l1 l2 pa, va < 0x00FFFF8000000000 → tlbFind s (queueParty d q) va = none →
      leavesOf s (queueParty d q) (BitVec.ofNat 64 va) acc = (u, .ok (l1, l2, pa)) → exec (.pageWalk d q va acc) s = .next u ∧
      ∃ e ∈ u.tlb, e.die = d ∧ e.tenant = (s.queue q).tenant ∧ e.s1root = (s.queue q).s1root ∧ e.s2root = (s.queue q).s2root ∧
        e.level = Nat.min l1.level l2.level ∧ e.vpage = va / 2 ^ levelBits e.level ∧
        e.pa = pa / 2 ^ levelBits e.level * 2 ^ levelBits e.level ∧ e.s1 = l1 ∧ e.s2 = l2) ∧
    (∀ u tr, va < 0x00FFFF8000000000 → tlbFind s (queueParty d q) va = none →
      leavesOf s (queueParty d q) (BitVec.ofNat 64 va) acc = (u, .error tr) → exec (.pageWalk d q va acc) s = .next u)) ∧
  (∀ (d : Nat) (s : State), d < 4 → TablesOk s →
    ((s.die d).cycles < (s.die d).epoch + 2 ^ 20 → exec (.pageModeEpoch d) s = .next s) ∧
    ((s.die d).epoch + 2 ^ 20 ≤ (s.die d).cycles → s.funcmode.getLsbD 2 = true →
      exec (.pageModeEpoch d) s = .next (s.modDie d fun x => { x with epoch := x.epoch + 2 ^ 20 })) ∧
    ((s.die d).epoch + 2 ^ 20 ≤ (s.die d).cycles → s.funcmode.getLsbD 2 = false → ∃ t : State, exec (.pageModeEpoch d) s = .next t ∧
      t.mem = s.mem ∧ t.vlc = s.vlc ∧ ∀ p, Tab.get PageMode.reset t.modes p =
        let m := Tab.get PageMode.reset s.modes p
        if p % 4 ≠ d ∨ m = PageMode.reset then m
        else { m with rr := 0, rw := 0, replicated :=
          if m.so then false else if m.replicated then decide (m.rw < 16) else decide (256 ≤ m.rr ∧ 64 * m.rw ≤ m.rr) })) ∧
  (∀ (s : State) (w : Wait) (sc : Scope), s.vlc.core < 576 → s.vlc.slot < 4 → s.vlc.status = .satisfied w →
    ((∃ pa thr, w = .counter pa thr sc ∨ w = .progress pa thr sc) ∨ (∃ b, w = .barrier b) ∧ sc = .gang) →
    ∃ u : State, exec (.waitWake s.vlc.core s.vlc.slot) s = .next { u with vlc := u.vlc.next } ∧ SameRegisters s.vlc u.vlc ∧
      u.vlc.pc = s.vlc.pc ∧ u.vlc.status = .running ∧ u.mem = s.mem ∧
      (TablesOk s → leavesL1 s s.vlc.core sc → Acquired u s.vlc.core)) ∧
  (∀ (s : State), (∀ b, s.vlc.status ≠ .satisfied b) → (∀ k, s.vlc.vwait ≠ .served k) → s.vlc.status ≠ .absent → s.vlc.core < 576 →
    s.vlc.slot < 4 → exec (.waitWake s.vlc.core s.vlc.slot) s = .next s) ∧
  (∀ (s : State) (e : VEntry) (consume : Bool) (pg : BitVec 2) (d a : Fld) (off : Nat), s.vlc.core < 576 → s.vlc.slot < 4 →
    s.vlc.status = .running → s.vlc.vwait = .served 0 → s.vlc.vq = [e] → s.vlc.fan = none → s.vlc.vstart = 0 →
    e.i = (if consume then .vldFec pg d a else .vldFe pg d a) → e.strip = none → e.ahead = 0 → e.vl = 1 → e.d < 256 →
    e.vt = ⟨.e32, .e32, 0, .undisturbed, false, .i⟩ → s.vlc.active pg 0 = true →
    accessIn .plain s s.me .fe e.xa 4 .read = (s, .ok (.ls s.vlc.core off)) → feServed s s.vlc.core s.vlc.slot (off / 16) = true →
    ∃ t : State, exec (.waitWake s.vlc.core s.vlc.slot) s = .next t ∧ t.vlc.vq = [] ∧ t.vlc.vwait = .no ∧ t.vlc.pc = s.vlc.pc ∧
      t.vlc.x = s.vlc.x ∧ t.vlc.vf.elem e.d 32 0 = memRead s.mem (lsAddr s.vlc.core off) 4 ∧ t.mem = s.mem ∧
      (∀ g, (t.core s.vlc.core).fe.contains g = true ↔ (s.core s.vlc.core).fe.contains g = true ∧ ¬ (consume = true ∧ g = off / 16)) ∧
      ∀ g, t.findGang s.vlc.gang = some g → g.wdog = 0) ∧
  (∀ (s : State), (s.ckpt = none → exec .checkpointCopy s = .next s) ∧
    (∀ c, s.ckpt = some c → Memory.wf s.mem = true →
      (c.page * 65536 < deviceEnd → c.early.contains c.page = true → exec .checkpointCopy s = .next { s with
        ckpt := some { c with page := c.page + 1, early := c.early.filter (· != c.page) } }) ∧
      (c.page * 65536 < deviceEnd → c.early.contains c.page = false → ∃ t : State, exec .checkpointCopy s = .next t ∧
        t = { s with mem := t.mem, ckpt := some { c with page := c.page + 1, early := c.early.filter (· != c.page) } } ∧
        (∀ k, k < 65536 → memByte t.mem (hostAddr c.sink + c.page * 65536 + k) = memByte s.mem (c.page * 65536 + k)) ∧
        ∀ a, ¬ (hostAddr c.sink + c.page * 65536 ≤ a ∧ a < hostAddr c.sink + c.page * 65536 + 65536) → memByte t.mem a = memByte s.mem a) ∧
      (deviceEnd ≤ c.page * 65536 → ∃ ws, exec .checkpointCopy s =
        .next (finishCmd { s with ckpt := none, ckptTable := some (c.sink, ws) } 0 c.cmdTag c.irq 0))))
end

