-- ==== Sys2Proof/Laws/Memory.lean ====
section
/-! SUPPORT. The laws of sparse tables and of memory: what a read finds after a write, and that every operation keeps the
canonical form. -/

namespace Sys2Proof.Machine

/-! ### Sparse tables -/

section
variable {α : Type} [DecidableEq α] (d : α)

theorem Tab.wfFrom_mono {t : Tab α} {lo lo' : Nat} (h : lo' ≤ lo) (w : Tab.wfFrom d lo t = true) :
    Tab.wfFrom d lo' t = true := by
  cases t with
  | nil => rfl
  | cons x t =>
    simp only [Tab.wfFrom, Bool.and_eq_true, decide_eq_true_eq] at w ⊢
    exact ⟨⟨Nat.le_trans h w.1.1, w.1.2⟩, w.2⟩

/-- Below its first key a table reads as its default. -/
theorem Tab.get_of_lt {t : Tab α} {lo a : Nat} (w : Tab.wfFrom d lo t = true) (h : a < lo) : Tab.get d t a = d := by
  cases t with
  | nil => rfl
  | cons x t =>
    simp only [Tab.wfFrom, Bool.and_eq_true, decide_eq_true_eq] at w
    have h1 : a < x.1 := Nat.lt_of_lt_of_le h w.1.1
    simp [Tab.get, Nat.ne_of_lt h1, h1]

/-- A read after a write in canonical form. -/
theorem Tab.get_set {t : Tab α} {lo : Nat} (w : Tab.wfFrom d lo t = true) (a b : Nat) (x : α) :
    Tab.get d (Tab.set d t a x) b = if b = a then x else Tab.get d t b := by
  induction t generalizing lo with
  | nil =>
    by_cases hx : x = d
    · simp [Tab.set, Tab.get, hx]
    · by_cases hb : b = a
      · simp [Tab.set, Tab.get, hx, hb]
      · simp [Tab.set, Tab.get, hx, hb]
  | cons y t ih =>
    obtain ⟨k, v⟩ := y
    simp only [Tab.wfFrom, Bool.and_eq_true, decide_eq_true_eq] at w
    obtain ⟨⟨hk, hv⟩, ht⟩ := w
    unfold Tab.set
    by_cases hlt : a < k
    · rw [if_pos hlt]
      by_cases hx : x = d
      · rw [if_pos hx]
        by_cases hb : b = a
        · subst hb; simp [Tab.get, Nat.ne_of_lt hlt, hlt, hx]
        · rw [if_neg hb]
      · rw [if_neg hx]
        by_cases hb : b = a
        · simp [Tab.get, hb]
        · by_cases hb2 : b < a
          · have : b < k := Nat.lt_trans hb2 hlt
            simp [Tab.get, hb, hb2, Nat.ne_of_lt this, this]
          · rw [if_neg hb, Tab.get, if_neg hb, if_neg hb2]
    · rw [if_neg hlt]
      by_cases hak : a = k
      · subst hak
        rw [if_pos rfl]
        by_cases hx : x = d
        · rw [if_pos hx]
          by_cases hb : b = a
          · subst hb
            rw [if_pos rfl, hx]
            exact Tab.get_of_lt d ht (Nat.lt_succ_self b)
          · rw [if_neg hb, Tab.get, if_neg hb]
            by_cases hb2 : b < a
            · rw [if_pos hb2]
              exact Tab.get_of_lt d ht (Nat.lt_succ_of_lt hb2)
            · rw [if_neg hb2]
        · rw [if_neg hx]
          by_cases hb : b = a
          · simp [Tab.get, hb]
          · simp [Tab.get, hb]
      · rw [if_neg hak]
        have hka : k < a := by omega
        by_cases hb : b = k
        · subst hb
          have : b ≠ a := Nat.ne_of_lt hka
          simp [Tab.get, this]
        · by_cases hb2 : b < k
          · have : b ≠ a := by omega
            simp [Tab.get, hb, hb2, this]
          · rw [Tab.get, if_neg hb, if_neg hb2, ih ht, Tab.get, if_neg hb, if_neg hb2]

/-- A write keeps the canonical form. -/
theorem Tab.wfFrom_set {t : Tab α} {lo : Nat} (w : Tab.wfFrom d lo t = true) (a : Nat) (x : α) (h : lo ≤ a) :
    Tab.wfFrom d lo (Tab.set d t a x) = true := by
  induction t generalizing lo with
  | nil =>
    by_cases hx : x = d
    · simp [Tab.set, Tab.wfFrom, hx]
    · simp [Tab.set, Tab.wfFrom, hx, h]
  | cons y t ih =>
    obtain ⟨k, v⟩ := y
    have w0 := w
    simp only [Tab.wfFrom, Bool.and_eq_true, decide_eq_true_eq] at w
    obtain ⟨⟨hk, hv⟩, ht⟩ := w
    unfold Tab.set
    by_cases hlt : a < k
    · rw [if_pos hlt]
      by_cases hx : x = d
      · rw [if_pos hx]; exact w0
      · rw [if_neg hx]
        have h2 : a + 1 ≤ k := hlt
        simp only [Tab.wfFrom, Bool.and_eq_true, decide_eq_true_eq]
        exact ⟨⟨h, hx⟩, ⟨h2, hv⟩, ht⟩
    · rw [if_neg hlt]
      by_cases hak : a = k
      · subst hak
        rw [if_pos rfl]
        by_cases hx : x = d
        · rw [if_pos hx]; exact Tab.wfFrom_mono d (by omega) ht
        · rw [if_neg hx]
          simp only [Tab.wfFrom, Bool.and_eq_true, decide_eq_true_eq]
          exact ⟨⟨h, hx⟩, ht⟩
      · rw [if_neg hak]
        simp only [Tab.wfFrom, Bool.and_eq_true, decide_eq_true_eq]
        exact ⟨⟨hk, hv⟩, ih ht (by omega)⟩

theorem Tab.wf_set {t : Tab α} (w : Tab.wf d t = true) (a : Nat) (x : α) : Tab.wf d (Tab.set d t a x) = true :=
  Tab.wfFrom_set d w a x (Nat.zero_le a)

theorem Tab.wf_mod {t : Tab α} (w : Tab.wf d t = true) (a : Nat) (f : α → α) : Tab.wf d (Tab.mod d t a f) = true :=
  Tab.wf_set d w a _

/-- Dropping entries keeps the canonical form. -/
theorem Tab.wfFrom_filter {t : Tab α} {lo : Nat} (w : Tab.wfFrom d lo t = true) (p : Nat × α → Bool) :
    Tab.wfFrom d lo (t.filter p) = true := by
  induction t generalizing lo with
  | nil => rfl
  | cons y t ih =>
    obtain ⟨k, v⟩ := y
    simp only [Tab.wfFrom, Bool.and_eq_true, decide_eq_true_eq] at w
    obtain ⟨⟨hk, hv⟩, ht⟩ := w
    rw [List.filter_cons]
    split
    · simp only [Tab.wfFrom, Bool.and_eq_true, decide_eq_true_eq]
      exact ⟨⟨hk, hv⟩, ih ht⟩
    · exact Tab.wfFrom_mono d (by omega) (ih ht)

theorem Tab.wf_filter {t : Tab α} (w : Tab.wf d t = true) (p : Nat × α → Bool) : Tab.wf d (t.filter p) = true :=
  Tab.wfFrom_filter d w p

theorem Tab.wfFrom_mapAll {t : Tab α} {lo : Nat} (w : Tab.wfFrom d lo t = true) (f : Nat → α → α) :
    Tab.wfFrom d lo (Tab.mapAll d t f) = true := by
  unfold Tab.mapAll
  induction t generalizing lo with
  | nil => rfl
  | cons y t ih =>
    obtain ⟨k, v⟩ := y
    simp only [Tab.wfFrom, Bool.and_eq_true, decide_eq_true_eq] at w
    obtain ⟨⟨hk, -⟩, ht⟩ := w
    rw [List.map_cons, List.filter_cons]
    split
    · have kept := ‹(_ != d) = true›
      simp only [Tab.wfFrom, Bool.and_eq_true, decide_eq_true_eq]
      exact ⟨⟨hk, by simpa using kept⟩, ih ht⟩
    · exact Tab.wfFrom_mono d (by omega) (ih ht)

theorem Tab.wf_mapAll {t : Tab α} (w : Tab.wf d t = true) (f : Nat → α → α) : Tab.wf d (Tab.mapAll d t f) = true :=
  Tab.wfFrom_mapAll d w f

end

/-! ### Memory -/

theorem Memory.wf_nil : Memory.wf [] = true := rfl

theorem Memory.wf_setByte {m : List Host.Cell} (w : Memory.wf m = true) (a : Nat) (b : Byte) :
    Memory.wf (memSetByte m a b) = true := Tab.wf_set _ w a b

theorem Memory.wf_filter {m : List Host.Cell} (w : Memory.wf m = true) (p : Host.Cell → Bool) :
    Memory.wf (m.filter p) = true := Tab.wf_filter _ w p

theorem Memory.wf_write {m : List Host.Cell} (w : Memory.wf m = true) (a n v : Nat) : Memory.wf (memWrite m a n v) = true := by
  induction n generalizing m a v with
  | zero => exact w
  | succ n ih => exact ih (Memory.wf_setByte w a _) (a + 1) (v / 256)

theorem Memory.wf_writeBytes {m : List Host.Cell} (w : Memory.wf m = true) (a : Nat) (bs : List Byte) :
    Memory.wf (memWriteBytes m a bs) = true := by
  induction bs generalizing m a with
  | nil => exact w
  | cons b bs ih => exact ih (Memory.wf_setByte w a b) (a + 1)

/-- Writing bytes one by one, each at an address of its own, keeps the canonical form. -/
theorem Memory.wf_foldl {β : Type} {m : List Host.Cell} (w : Memory.wf m = true) (l : List β) (addr : β → Nat)
    (val : β → Byte) : Memory.wf (l.foldl (fun m x => memSetByte m (addr x) (val x)) m) = true := by
  induction l generalizing m with
  | nil => exact w
  | cons x l ih => exact ih (Memory.wf_setByte w _ _)

theorem memByte_setByte {m : List Host.Cell} (w : Memory.wf m = true) (a b : Nat) (x : Byte) :
    memByte (memSetByte m a x) b = if b = a then x else memByte m b := Tab.get_set _ w a b x

/-- A write of `n` bytes: byte `k` of the value at `a + k`, and every other address as it was. -/
theorem memByte_write {m : List Host.Cell} (w : Memory.wf m = true) (a n v b : Nat) :
    memByte (memWrite m a n v) b =
      if a ≤ b ∧ b < a + n then BitVec.ofNat 8 (v / 256 ^ (b - a)) else memByte m b := by
  induction n generalizing m a v with
  | zero =>
    simp [memWrite]
  | succ n ih =>
    rw [memWrite, ih (Memory.wf_setByte w a _), memByte_setByte w]
    by_cases h1 : b = a
    · subst h1
      have h2 : ¬(b + 1 ≤ b ∧ b < b + 1 + n) := by omega
      have h3 : b ≤ b ∧ b < b + (n + 1) := by omega
      simp
    · by_cases h2 : a + 1 ≤ b ∧ b < a + 1 + n
      · have h3 : a ≤ b ∧ b < a + (n + 1) := by omega
        rw [if_pos h2, if_pos h3]
        have h4 : b - a = (b - (a + 1)) + 1 := by omega
        rw [h4, Nat.pow_succ, Nat.mul_comm, Nat.div_div_eq_div_mul]
      · have h3 : ¬(a ≤ b ∧ b < a + (n + 1)) := by omega
        rw [if_neg h2, if_neg h1, if_neg h3]

/-- A number read from bytes that agree is the same number. -/
theorem memRead_congr {m m' : List Host.Cell} (a n : Nat) (h : ∀ k, k < n → memByte m (a + k) = memByte m' (a + k)) :
    memRead m a n = memRead m' a n := by
  induction n generalizing a with
  | zero => rfl
  | succ n ih =>
    have h0 := h 0 (Nat.succ_pos n)
    have h1 := ih (a + 1) fun k hk => by
      have := h (k + 1) (by omega)
      simpa [Nat.add_assoc, Nat.add_comm 1 k] using this
    simp only [Nat.add_zero] at h0
    rw [memRead, memRead, h0, h1]

/-- A write leaves a read of other addresses as it was. -/
theorem memRead_write_ne {m : List Host.Cell} (w : Memory.wf m = true) (a n v b k : Nat) (h : b + k ≤ a ∨ a + n ≤ b) :
    memRead (memWrite m a n v) b k = memRead m b k := by
  refine memRead_congr b k fun j hj => ?_
  rw [memByte_write w, if_neg (by omega)]

theorem memRead_lt (m : List Host.Cell) (a n : Nat) : memRead m a n < 256 ^ n := by
  induction n generalizing a with
  | zero => simp [memRead]
  | succ n ih =>
    have h1 := ih (a + 1)
    have h2 := (memByte m a).isLt
    rw [memRead, Nat.pow_succ]
    omega

/-- Reading back a written number (R6). -/
theorem memRead_write {m : List Host.Cell} (w : Memory.wf m = true) (a n v : Nat) :
    memRead (memWrite m a n v) a n = v % 256 ^ n := by
  induction n generalizing m a v with
  | zero => simp [memRead, Nat.mod_one]
  | succ n ih =>
    have h0 : memByte (memWrite m a (n + 1) v) a = BitVec.ofNat 8 v := by
      rw [memByte_write w, if_pos (by omega)]; simp
    have h1 : memRead (memWrite m a (n + 1) v) (a + 1) n = v / 256 % 256 ^ n := by
      rw [memWrite]; exact ih (Memory.wf_setByte w a _) (a + 1) (v / 256)
    have h2 : 256 ^ (n + 1) = 256 * 256 ^ n := by rw [Nat.pow_succ, Nat.mul_comm]
    rw [memRead, h0, h1, BitVec.toNat_ofNat, h2, Nat.mod_mul]

end Sys2Proof.Machine
end

