-- ==== Sys2Proof/Laws/Operations.lean ====
section
/-! SUPPORT. What each shared operation of the machine can answer, said once, so that a proof about an instruction cites it
and unfolds none of them. -/

namespace Sys2Proof.Machine

/-! ### Faults (R363, R364) -/

/-- A fault enters the handler of its VLC or suspends the VLC for the host, after the count of R355; where a halt has come first it is
recorded for the resume. -/
theorem takeFault_cases (s : State) (f : FaultInfo) :
    let c := countPoisonFault s f.code (coreDie s.vlc.core)
    (haltFirst s = true ∧ takeFault s f = s.modVlc fun v => { v with pendFault := some f }) ∨
    (haltFirst s = false ∧ goesToHost s.vlc f = false ∧ takeFault s f = { c with vlc := enterHandler c.vlc f }) ∨
    (haltFirst s = false ∧ goesToHost s.vlc f = true ∧ takeFault s f = suspendToHost c f) := by
  have v : (countPoisonFault s f.code (coreDie s.vlc.core)).vlc = s.vlc := by
    unfold countPoisonFault
    split <;> rfl
  cases first : haltFirst s
  · simp only [takeFault, first, deliverFault, v]
    cases h : goesToHost s.vlc f
    · exact .inr (.inl ⟨trivial, rfl, by simp⟩)
    · exact .inr (.inr ⟨trivial, rfl, by simp⟩)
  · exact .inl ⟨rfl, by simp [takeFault, first]⟩

/-- A gang that is not halting takes its faults at once. -/
theorem haltFirst_of_not_halting (s : State) (h : ∀ why, s.gang.st ≠ .halting why) : haltFirst s = false := by
  unfold haltFirst
  split
  · exact absurd ‹_› (h _)
  · rfl

/-- The count of R355 changes the counters of one die and nothing else. -/
theorem countPoisonFault_eq (s : State) (code : BitVec 8) (d : Nat) :
    countPoisonFault s code d = { s with dies := (countPoisonFault s code d).dies } ∧
    (code ≠ fcPOISON → countPoisonFault s code d = s) := by
  unfold countPoisonFault
  split
  · exact ⟨rfl, fun h => absurd ‹_› h⟩
  · exact ⟨rfl, fun _ => rfl⟩

/-- Entering the handler keeps every register of the program, the windows, the queue and the tables. -/
theorem enterHandler_keeps (v : Vlc) (f : FaultInfo) :
    (enterHandler v f).x = v.x ∧ (enterHandler v f).vf = v.vf ∧ (enterHandler v f).vq = v.vq ∧ (enterHandler v f).plans = v.plans ∧
    (enterHandler v f).wins = v.wins ∧ (enterHandler v f).winv = v.winv ∧ (enterHandler v f).vstart = v.vstart ∧
    (enterHandler v f).loop = v.loop ∧ (enterHandler v f).fflags = v.fflags := ⟨rfl, rfl, rfl, rfl, rfl, rfl, rfl, rfl, rfl⟩

/-- A stop of the scalar unit: the instruction waits for the entries before it, or its fault is taken. -/
theorem scalarStop_cases (s : State) (t : Trap) :
    (s.vlc.vq ≠ [] ∧ s.vlc.inHandler = false ∧ scalarStop s t = .next s) ∨
    ((s.vlc.vq = [] ∨ s.vlc.inHandler = true) ∧ scalarStop s t = .next (scalarFault s t)) := by
  unfold scalarStop stall
  by_cases h : s.vlc.vq ≠ [] ∧ (!s.vlc.inHandler) = true
  · exact .inl ⟨h.1, by simpa using h.2, if_pos h⟩
  · refine .inr ⟨?_, if_neg h⟩
    by_cases q : s.vlc.vq = []
    · exact .inl q
    · refine .inr ?_
      cases hh : s.vlc.inHandler
      · exact absurd ⟨q, by simp [hh]⟩ h
      · rfl

/-- A range instruction that stops part way waits with nothing done while entries are queued, and else raises its fault over what it did
(R59, R248). -/
theorem rangeStop_cases (s t : State) (tr : Trap) :
    (s.vlc.vq ≠ [] ∧ s.vlc.inHandler = false ∧ rangeStop s t tr = .next s) ∨
    ((s.vlc.vq = [] ∨ s.vlc.inHandler = true) ∧ rangeStop s t tr = .next (scalarFault t tr)) := by
  unfold rangeStop stall
  by_cases q : s.vlc.vq = []
  · exact .inr ⟨.inl q, if_neg fun h => h.1 q⟩
  · cases hh : s.vlc.inHandler
    · exact .inl ⟨q, rfl, if_pos ⟨q, by simp⟩⟩
    · exact .inr ⟨.inr rfl, if_neg fun h => by simp at h⟩

/-- The end of a scalar instruction is always a next state. -/
theorem finishScalar_next (s : State) (r : Res) : ∃ t, finishScalar s r = .next t := by
  cases r <;> exact ⟨_, rfl⟩

theorem scalarStop_next (s : State) (t : Trap) : ∃ u, scalarStop s t = .next u := by
  obtain ⟨-, -, h⟩ | ⟨-, h⟩ := scalarStop_cases s t <;> exact ⟨_, h⟩

/-! ### Strips and waiting reads (R149, R152, R192) -/

/-- Without strips there is nothing to settle. -/
theorem settleFan_of_none {v : Vlc} (h : v.fan = none) : settleFan v = v := by
  simp [settleFan, endStrips, h]

theorem settle_of_none {s : State} (h : s.vlc.fan = none) : s.settle = s := by
  simp [State.settle, State.modVlc, settleFan_of_none h]

/-- A VLC that waits for no granule leaves no queue. -/
theorem feLeave_of_absent {s : State} {core slot : Nat} (h : ∀ x ∈ (s.core core).feq, x.2 ≠ slot) : feLeave s core slot = s := by
  have none_ : ((s.core core).feq.any fun x => x.2 == slot) = false := by simpa using h
  simp [feLeave, none_]

/-! ### The vector queue (R36 to R41) -/

/-- A vector instruction is refused by its checks, waits for room, or is put at the end of the queue, where it is performed at once
when it is the head and the schedule of the vector half is empty. -/
theorem issue_cases (sp : VSpec) (body : VBody) (e : VEntry) (s : State) :
    let s' := s.modVlc fun v => { v.next with vq := v.vq ++ [e] }
    (∃ t, specTrap e.word sp s.vlc = some t ∧ issue sp body e s = scalarStop s t) ∨
    (specTrap e.word sp s.vlc = none ∧ queueRoom s.vlc e.i = false ∧ issue sp body e s = .next s) ∨
    (specTrap e.word sp s.vlc = none ∧ s.vlc.vq = [] ∧ s.vlc.sched = [] ∧ issue sp body e s = .next (runHead body e s')) ∨
    (specTrap e.word sp s.vlc = none ∧ s.vlc.vq = [] ∧ s.vlc.sched ≠ [] ∧
      issue sp body e s = .next (s'.modVlc fun v => { v with sched := s.vlc.sched.tail })) ∨
    (specTrap e.word sp s.vlc = none ∧ s.vlc.vq ≠ [] ∧ queueRoom s.vlc e.i = true ∧ issue sp body e s = .next s') := by
  cases h : specTrap e.word sp s.vlc with
  | some t => exact .inl ⟨t, rfl, by simp only [issue, h]⟩
  | none =>
    refine .inr ?_
    cases room : queueRoom s.vlc e.i
    · exact .inl ⟨rfl, rfl, by simp [issue, h, room, stall]⟩
    · by_cases q : s.vlc.vq = []
      · cases l : s.vlc.sched with
        | nil =>
          refine .inr (.inl ⟨rfl, q, rfl, ?_⟩)
          simp only [issue, h, room, q, l]
          simp
        | cons m rest =>
          refine .inr (.inr (.inl ⟨rfl, q, by simp, ?_⟩))
          simp only [issue, h, room, q, l]
          simp
      · exact .inr (.inr (.inr ⟨rfl, q, rfl, by simp [issue, h, room, q]⟩))

theorem issue_next (sp : VSpec) (body : VBody) (e : VEntry) (s : State) : ∃ t, issue sp body e s = .next t := by
  obtain ⟨t, -, h⟩ | ⟨-, -, h⟩ | ⟨-, -, -, h⟩ | ⟨-, -, -, h⟩ | ⟨-, -, -, h⟩ := issue_cases sp body e s
  · rw [h]; exact scalarStop_next s t
  all_goals exact ⟨_, h⟩

/-! ### Accesses (R218 to R220) -/

/-- An accepted access is aligned, translates, and no rule of its place, of the bus or of poison stops it. -/
theorem accessIn_ok {m : Mode} {s t : State} {p : Party} {rule : AccRule} {va : Word} {n : Nat} {acc : Acc} {d : Dest}
    (h : accessIn m s p rule va n acc = (t, .ok d)) :
    va.toNat % n = 0 ∧ translate s p va n acc = (t, .ok d) ∧ placeRule rule va n acc d = none ∧
    (∀ pa kind, d = .phys pa kind → busRule t p.die va pa = none) ∧ (readsMem acc = true → poisonRule t p m va n d = none) := by
  unfold accessIn at h
  by_cases al : va.toNat % n ≠ 0
  · simp [al] at h
  rw [if_neg al] at h
  rcases tr : translate s p va n acc with ⟨u, e | d'⟩
  · simp [tr] at h
  cases pl : placeRule rule va n acc d' with
  | some _ => simp [tr, pl] at h
  | none =>
    have key : (u, (Except.ok d' : Except Trap Dest)) = (t, .ok d) ∧ (∀ pa kind, d' = .phys pa kind → busRule u p.die va pa = none) ∧
        (readsMem acc = true → poisonRule u p m va n d' = none) := by
      cases d' with
      | phys pa kind =>
        cases bus : busRule u p.die va pa with
        | some _ => simp [tr, pl, bus] at h
        | none =>
          cases po : (if readsMem acc then poisonRule u p m va n (.phys pa kind) else none) with
          | some _ => simp [tr, pl, bus, po] at h
          | none =>
            refine ⟨by simpa [tr, pl, bus, po] using h, fun _ _ e => ?_, fun r => by simpa [r] using po⟩
            cases e
            exact bus
      | ls a b =>
        cases po : (if readsMem acc then poisonRule u p m va n (.ls a b) else none) with
        | some _ => simp [tr, pl, po] at h
        | none => exact ⟨by simpa [tr, pl, po] using h, (fun _ _ e => nomatch e), fun r => by simpa [r] using po⟩
    obtain ⟨e, bus, po⟩ := key
    simp only [Prod.mk.injEq, Except.ok.injEq] at e
    obtain ⟨rfl, rfl⟩ := e
    exact ⟨by simpa using al, rfl, pl, bus, po⟩

/-- A misaligned access raises ALIGN at its address and changes nothing. -/
theorem accessIn_misaligned (m : Mode) (s : State) (p : Party) (rule : AccRule) (va : Word) (n : Nat) (acc : Acc) (h : va.toNat % n ≠ 0) :
    accessIn m s p rule va n acc = (s, .error (trapAt fcALIGN va 0)) := by
  unfold accessIn
  exact if_pos h

/-! ### Commands (R385) -/

/-- A command on a die of the package completes with a status of its own, without effect, or with its effect and status 0. -/
theorem runCmd_cases (c : Cmd) (d : Nat) (s : State) (r : CmdRes) (h : d < 4) :
    (∃ k, r = .error k ∧ runCmd c d s r = .next (Cmd.done c s d k)) ∨ (∃ t, r = .ok t ∧ runCmd c d s r = .next (Cmd.done c t d 0)) := by
  unfold runCmd
  rw [if_neg (by omega)]
  cases r with
  | error k => exact .inl ⟨k, rfl, rfl⟩
  | ok t => exact .inr ⟨t, rfl, rfl⟩

/-- The checks that come before a command's own: a reserved bit gives status 1, a command of CD0 elsewhere status 2. -/
theorem cmdCheck_cases (c : Cmd) (d : Nat) (bad cd0 : Bool) (r : CmdRes) :
    ((c.rsv ≠ 0 ∨ bad = true) ∧ cmdCheck c d bad cd0 r = .error 1) ∨
    (c.rsv = 0 ∧ bad = false ∧ cd0 = true ∧ d ≠ 0 ∧ cmdCheck c d bad cd0 r = .error 2) ∨
    (c.rsv = 0 ∧ bad = false ∧ (cd0 = false ∨ d = 0) ∧ cmdCheck c d bad cd0 r = r) := by
  unfold cmdCheck
  by_cases a : c.rsv ≠ 0 ∨ bad = true
  · exact .inl ⟨a, if_pos a⟩
  · have a1 : c.rsv = 0 := by simpa using fun h => a (.inl h)
    have a2 : bad = false := by simpa using fun h => a (.inr h)
    rw [if_neg a]
    by_cases b : cd0 = true ∧ d ≠ 0
    · exact .inr (.inl ⟨a1, a2, b.1, b.2, if_pos b⟩)
    · refine .inr (.inr ⟨a1, a2, ?_, if_neg b⟩)
      cases cd0
      · exact .inl rfl
      · exact .inr (by simpa using b)

/-! ### The parts of a kernel image (R399, R427) -/

theorem nextBoundary_mod (n : Nat) : nextBoundary n % 65536 = 0 := Nat.mul_mod_left _ _

theorem le_nextBoundary (n : Nat) : n ≤ nextBoundary n := by
  unfold nextBoundary
  omega

@[simp] theorem applySymbols_fst (vs : List (Nat × Byte)) (x : Segment) : (applySymbols vs x).1 = x.1 := rfl

/-- Applying symbols changes no length. -/
@[simp] theorem applySymbols_length (vs : List (Nat × Byte)) (x : Segment) : (applySymbols vs x).2.length = x.2.length := by
  unfold applySymbols
  generalize x.2 = bs
  induction vs generalizing bs with
  | nil => rfl
  | cons v vs ih =>
    rw [List.foldl_cons, ih]
    split <;> simp

/-- No part stands below the place where its list begins. -/
theorem placeParts_ge (parts : List (List Byte)) : ∀ (n : Nat), ∀ x ∈ placeParts n parts, n ≤ x.1 := by
  induction parts with
  | nil => intro n x h; exact nomatch h
  | cons bs t ih =>
    intro n x h
    obtain rfl | h := List.mem_cons.mp h
    · exact Nat.le_refl _
    · have := ih _ x h
      have := le_nextBoundary (n + bs.length)
      omega

/-! ### The granules of a region (R191) -/

/-- Emptying a region keeps exactly the full granules outside it. -/
theorem mem_emptyRegion (base len g : Nat) (fe : List Nat) :
    g ∈ emptyRegion base len fe ↔ g ∈ fe ∧ ¬ (base ≤ g * 16 ∧ g * 16 < base + len) := by
  simp only [emptyRegion, List.mem_filter, Bool.not_eq_true', Bool.and_eq_false_iff, decide_eq_false_iff_not]
  exact and_congr_right fun _ => by omega

/-! ### Homes (R205, R354, R356) -/

/-- A read of a line changes only the residency and the counts of its home. -/
theorem readReach_eq (s : State) (pa die q : Nat) (so : Bool) (cls : Rcl) :
    readReach s pa die q so cls =
      { s with modes := (readReach s pa die q so cls).modes, l2 := (readReach s pa die q so cls).l2, perf := (readReach s pa die q so cls).perf } := by
  have touch (u : State) (a d : Nat) (b : Bool) : touchL2 u d a q cls b =
      { u with l2 := (touchL2 u d a q cls b).l2, perf := (touchL2 u d a q cls b).perf } := by
    unfold touchL2
    dsimp only
    repeat' split
    all_goals rfl
  have note (u : State) : noteSo u pa so = { u with modes := (noteSo u pa so).modes, l2 := (noteSo u pa so).l2, perf := (noteSo u pa so).perf } := by
    unfold noteSo changeMode
    dsimp only
    repeat' split
    all_goals rfl
  have count (u : State) (w : Bool) : countRemote u pa die q w = { u with modes := (countRemote u pa die q w).modes } := by
    unfold countRemote
    repeat' split
    all_goals rfl
  have reach (u : State) : reachHome u pa die q false so true cls =
      { u with modes := (reachHome u pa die q false so true cls).modes, l2 := (reachHome u pa die q false so true cls).l2
               perf := (reachHome u pa die q false so true cls).perf } := by
    unfold reachHome
    split
    · rw [count, touch, note]
    · rfl
  unfold readReach
  dsimp only
  split
  · rw [touch]
  · split
    · rw [touch, reach]
    · rw [reach]

/-! ### Tags of peer copies (R394) -/

/-- The tag of a new operation is that of no live peer copy, as long as fewer than 65,536 operations stand in the engines. -/
theorem freeTag_free (s : State) (k : Nat) (h : s.engines.length < 65536) : ∀ o ∈ s.engines, o.efn = 1 → o.tag ≠ freeTag s k := by
  intro o ho he eq
  let held := (s.engines.filter fun o => o.efn == 1).map (·.tag)
  let tags := (List.range (held.length + 1)).map fun j => (k + j) % 65536
  have small : held.length + 1 ≤ 65536 := by
    have := List.length_filter_le (fun o : EngOp => o.efn == 1) s.engines
    simp only [held, List.length_map]
    omega
  have mine : o.tag ∈ held := List.mem_map_of_mem (List.mem_filter.mpr ⟨ho, by simpa using he⟩)
  have apart : tags.Nodup := List.Nodup.map_on (fun x hx y hy hxy => by
    have := List.mem_range.mp hx
    have := List.mem_range.mp hy
    omega) List.nodup_range
  cases found : tags.find? fun t => !held.contains t with
  | some t =>
    have free : held.contains t = false := by simpa using List.find?_some found
    have : freeTag s k = t := by simp only [freeTag]; exact congrArg (·.getD 0) found
    rw [← this, ← eq] at free
    exact absurd mine (by simpa using free)
  | none =>
    have sub : tags ⊆ held := fun t ht => by simpa using List.find?_eq_none.mp found t ht
    have := (List.subperm_of_subset apart sub).length_le
    simp [tags] at this

end Sys2Proof.Machine
end

