-- ==== Sys2Proof/Laws/State.lean ====
section
/-! SUPPORT. What each named update of a state, a VLC and a gang leaves in every field: one lemma per field per update, so
that no proof unfolds a record update. -/

namespace Sys2Proof.Machine

/-! ### State.modVlc -/

@[simp] theorem State.modVlc_vlc (s : State) (f : Vlc → Vlc) : (s.modVlc f).vlc = f s.vlc := rfl
@[simp] theorem State.modVlc_others (s : State) (f : Vlc → Vlc) : (s.modVlc f).others = s.others := rfl
@[simp] theorem State.modVlc_gangs (s : State) (f : Vlc → Vlc) : (s.modVlc f).gangs = s.gangs := rfl
@[simp] theorem State.modVlc_cores (s : State) (f : Vlc → Vlc) : (s.modVlc f).cores = s.cores := rfl
@[simp] theorem State.modVlc_mem (s : State) (f : Vlc → Vlc) : (s.modVlc f).mem = s.mem := rfl
@[simp] theorem State.modVlc_poison (s : State) (f : Vlc → Vlc) : (s.modVlc f).poison = s.poison := rfl
@[simp] theorem State.modVlc_lo (s : State) (f : Vlc → Vlc) : (s.modVlc f).lo = s.lo := rfl
@[simp] theorem State.modVlc_loTransit (s : State) (f : Vlc → Vlc) : (s.modVlc f).loTransit = s.loTransit := rfl
@[simp] theorem State.modVlc_writeBacks (s : State) (f : Vlc → Vlc) : (s.modVlc f).writeBacks = s.writeBacks := rfl
@[simp] theorem State.modVlc_snoops (s : State) (f : Vlc → Vlc) : (s.modVlc f).snoops = s.snoops := rfl
@[simp] theorem State.modVlc_arrivals (s : State) (f : Vlc → Vlc) : (s.modVlc f).arrivals = s.arrivals := rfl
@[simp] theorem State.modVlc_seqCounter (s : State) (f : Vlc → Vlc) : (s.modVlc f).seqCounter = s.seqCounter := rfl
@[simp] theorem State.modVlc_watches (s : State) (f : Vlc → Vlc) : (s.modVlc f).watches = s.watches := rfl
@[simp] theorem State.modVlc_l2 (s : State) (f : Vlc → Vlc) : (s.modVlc f).l2 = s.l2 := rfl
@[simp] theorem State.modVlc_modes (s : State) (f : Vlc → Vlc) : (s.modVlc f).modes = s.modes := rfl
@[simp] theorem State.modVlc_tlb (s : State) (f : Vlc → Vlc) : (s.modVlc f).tlb = s.tlb := rfl
@[simp] theorem State.modVlc_walkCache (s : State) (f : Vlc → Vlc) : (s.modVlc f).walkCache = s.walkCache := rfl
@[simp] theorem State.modVlc_queues (s : State) (f : Vlc → Vlc) : (s.modVlc f).queues = s.queues := rfl
@[simp] theorem State.modVlc_nodes (s : State) (f : Vlc → Vlc) : (s.modVlc f).nodes = s.nodes := rfl
@[simp] theorem State.modVlc_graphs (s : State) (f : Vlc → Vlc) : (s.modVlc f).graphs = s.graphs := rfl
@[simp] theorem State.modVlc_landau (s : State) (f : Vlc → Vlc) : (s.modVlc f).landau = s.landau := rfl
@[simp] theorem State.modVlc_perf (s : State) (f : Vlc → Vlc) : (s.modVlc f).perf = s.perf := rfl
@[simp] theorem State.modVlc_engines (s : State) (f : Vlc → Vlc) : (s.modVlc f).engines = s.engines := rfl
@[simp] theorem State.modVlc_rx (s : State) (f : Vlc → Vlc) : (s.modVlc f).rx = s.rx := rfl
@[simp] theorem State.modVlc_gateQ (s : State) (f : Vlc → Vlc) : (s.modVlc f).gateQ = s.gateQ := rfl
@[simp] theorem State.modVlc_steps (s : State) (f : Vlc → Vlc) : (s.modVlc f).steps = s.steps := rfl
@[simp] theorem State.modVlc_reserves (s : State) (f : Vlc → Vlc) : (s.modVlc f).reserves = s.reserves := rfl
@[simp] theorem State.modVlc_closing (s : State) (f : Vlc → Vlc) : (s.modVlc f).closing = s.closing := rfl
@[simp] theorem State.modVlc_closeTransit (s : State) (f : Vlc → Vlc) : (s.modVlc f).closeTransit = s.closeTransit := rfl
@[simp] theorem State.modVlc_reqTransit (s : State) (f : Vlc → Vlc) : (s.modVlc f).reqTransit = s.reqTransit := rfl
@[simp] theorem State.modVlc_hansomFailed (s : State) (f : Vlc → Vlc) : (s.modVlc f).hansomFailed = s.hansomFailed := rfl
@[simp] theorem State.modVlc_ports (s : State) (f : Vlc → Vlc) : (s.modVlc f).ports = s.ports := rfl
@[simp] theorem State.modVlc_dies (s : State) (f : Vlc → Vlc) : (s.modVlc f).dies = s.dies := rfl
@[simp] theorem State.modVlc_funcmode (s : State) (f : Vlc → Vlc) : (s.modVlc f).funcmode = s.funcmode := rfl
@[simp] theorem State.modVlc_bootCount (s : State) (f : Vlc → Vlc) : (s.modVlc f).bootCount = s.bootCount := rfl
@[simp] theorem State.modVlc_quoteCount (s : State) (f : Vlc → Vlc) : (s.modVlc f).quoteCount = s.quoteCount := rfl
@[simp] theorem State.modVlc_cert (s : State) (f : Vlc → Vlc) : (s.modVlc f).cert = s.cert := rfl
@[simp] theorem State.modVlc_keys (s : State) (f : Vlc → Vlc) : (s.modVlc f).keys = s.keys := rfl
@[simp] theorem State.modVlc_fenced (s : State) (f : Vlc → Vlc) : (s.modVlc f).fenced = s.fenced := rfl
@[simp] theorem State.modVlc_demand (s : State) (f : Vlc → Vlc) : (s.modVlc f).demand = s.demand := rfl
@[simp] theorem State.modVlc_pendRecs (s : State) (f : Vlc → Vlc) : (s.modVlc f).pendRecs = s.pendRecs := rfl
@[simp] theorem State.modVlc_openRecs (s : State) (f : Vlc → Vlc) : (s.modVlc f).openRecs = s.openRecs := rfl
@[simp] theorem State.modVlc_ckpt (s : State) (f : Vlc → Vlc) : (s.modVlc f).ckpt = s.ckpt := rfl
@[simp] theorem State.modVlc_ckptTable (s : State) (f : Vlc → Vlc) : (s.modVlc f).ckptTable = s.ckptTable := rfl
@[simp] theorem State.modVlc_msix (s : State) (f : Vlc → Vlc) : (s.modVlc f).msix = s.msix := rfl
@[simp] theorem State.modVlc_hostData (s : State) (f : Vlc → Vlc) : (s.modVlc f).hostData = s.hostData := rfl
@[simp] theorem State.modVlc_inputs (s : State) (f : Vlc → Vlc) : (s.modVlc f).inputs = s.inputs := rfl
@[simp] theorem State.modVlc_fresh (s : State) (f : Vlc → Vlc) : (s.modVlc f).fresh = s.fresh := rfl
@[simp] theorem State.modVlc_tick (s : State) (f : Vlc → Vlc) : (s.modVlc f).tick = s.tick := rfl

/-! ### State.mapVlcs -/

@[simp] theorem State.mapVlcs_vlc (s : State) (f : Vlc → Vlc) : (s.mapVlcs f).vlc = f s.vlc := rfl
@[simp] theorem State.mapVlcs_others (s : State) (f : Vlc → Vlc) : (s.mapVlcs f).others = s.others.map f := rfl
@[simp] theorem State.mapVlcs_gangs (s : State) (f : Vlc → Vlc) : (s.mapVlcs f).gangs = s.gangs := rfl
@[simp] theorem State.mapVlcs_cores (s : State) (f : Vlc → Vlc) : (s.mapVlcs f).cores = s.cores := rfl
@[simp] theorem State.mapVlcs_mem (s : State) (f : Vlc → Vlc) : (s.mapVlcs f).mem = s.mem := rfl
@[simp] theorem State.mapVlcs_poison (s : State) (f : Vlc → Vlc) : (s.mapVlcs f).poison = s.poison := rfl
@[simp] theorem State.mapVlcs_lo (s : State) (f : Vlc → Vlc) : (s.mapVlcs f).lo = s.lo := rfl
@[simp] theorem State.mapVlcs_loTransit (s : State) (f : Vlc → Vlc) : (s.mapVlcs f).loTransit = s.loTransit := rfl
@[simp] theorem State.mapVlcs_writeBacks (s : State) (f : Vlc → Vlc) : (s.mapVlcs f).writeBacks = s.writeBacks := rfl
@[simp] theorem State.mapVlcs_snoops (s : State) (f : Vlc → Vlc) : (s.mapVlcs f).snoops = s.snoops := rfl
@[simp] theorem State.mapVlcs_arrivals (s : State) (f : Vlc → Vlc) : (s.mapVlcs f).arrivals = s.arrivals := rfl
@[simp] theorem State.mapVlcs_seqCounter (s : State) (f : Vlc → Vlc) : (s.mapVlcs f).seqCounter = s.seqCounter := rfl
@[simp] theorem State.mapVlcs_watches (s : State) (f : Vlc → Vlc) : (s.mapVlcs f).watches = s.watches := rfl
@[simp] theorem State.mapVlcs_l2 (s : State) (f : Vlc → Vlc) : (s.mapVlcs f).l2 = s.l2 := rfl
@[simp] theorem State.mapVlcs_modes (s : State) (f : Vlc → Vlc) : (s.mapVlcs f).modes = s.modes := rfl
@[simp] theorem State.mapVlcs_tlb (s : State) (f : Vlc → Vlc) : (s.mapVlcs f).tlb = s.tlb := rfl
@[simp] theorem State.mapVlcs_walkCache (s : State) (f : Vlc → Vlc) : (s.mapVlcs f).walkCache = s.walkCache := rfl
@[simp] theorem State.mapVlcs_queues (s : State) (f : Vlc → Vlc) : (s.mapVlcs f).queues = s.queues := rfl
@[simp] theorem State.mapVlcs_nodes (s : State) (f : Vlc → Vlc) : (s.mapVlcs f).nodes = s.nodes := rfl
@[simp] theorem State.mapVlcs_graphs (s : State) (f : Vlc → Vlc) : (s.mapVlcs f).graphs = s.graphs := rfl
@[simp] theorem State.mapVlcs_landau (s : State) (f : Vlc → Vlc) : (s.mapVlcs f).landau = s.landau := rfl
@[simp] theorem State.mapVlcs_perf (s : State) (f : Vlc → Vlc) : (s.mapVlcs f).perf = s.perf := rfl
@[simp] theorem State.mapVlcs_engines (s : State) (f : Vlc → Vlc) : (s.mapVlcs f).engines = s.engines := rfl
@[simp] theorem State.mapVlcs_rx (s : State) (f : Vlc → Vlc) : (s.mapVlcs f).rx = s.rx := rfl
@[simp] theorem State.mapVlcs_gateQ (s : State) (f : Vlc → Vlc) : (s.mapVlcs f).gateQ = s.gateQ := rfl
@[simp] theorem State.mapVlcs_steps (s : State) (f : Vlc → Vlc) : (s.mapVlcs f).steps = s.steps := rfl
@[simp] theorem State.mapVlcs_reserves (s : State) (f : Vlc → Vlc) : (s.mapVlcs f).reserves = s.reserves := rfl
@[simp] theorem State.mapVlcs_closing (s : State) (f : Vlc → Vlc) : (s.mapVlcs f).closing = s.closing := rfl
@[simp] theorem State.mapVlcs_closeTransit (s : State) (f : Vlc → Vlc) : (s.mapVlcs f).closeTransit = s.closeTransit := rfl
@[simp] theorem State.mapVlcs_reqTransit (s : State) (f : Vlc → Vlc) : (s.mapVlcs f).reqTransit = s.reqTransit := rfl
@[simp] theorem State.mapVlcs_hansomFailed (s : State) (f : Vlc → Vlc) : (s.mapVlcs f).hansomFailed = s.hansomFailed := rfl
@[simp] theorem State.mapVlcs_ports (s : State) (f : Vlc → Vlc) : (s.mapVlcs f).ports = s.ports := rfl
@[simp] theorem State.mapVlcs_dies (s : State) (f : Vlc → Vlc) : (s.mapVlcs f).dies = s.dies := rfl
@[simp] theorem State.mapVlcs_funcmode (s : State) (f : Vlc → Vlc) : (s.mapVlcs f).funcmode = s.funcmode := rfl
@[simp] theorem State.mapVlcs_bootCount (s : State) (f : Vlc → Vlc) : (s.mapVlcs f).bootCount = s.bootCount := rfl
@[simp] theorem State.mapVlcs_quoteCount (s : State) (f : Vlc → Vlc) : (s.mapVlcs f).quoteCount = s.quoteCount := rfl
@[simp] theorem State.mapVlcs_cert (s : State) (f : Vlc → Vlc) : (s.mapVlcs f).cert = s.cert := rfl
@[simp] theorem State.mapVlcs_keys (s : State) (f : Vlc → Vlc) : (s.mapVlcs f).keys = s.keys := rfl
@[simp] theorem State.mapVlcs_fenced (s : State) (f : Vlc → Vlc) : (s.mapVlcs f).fenced = s.fenced := rfl
@[simp] theorem State.mapVlcs_demand (s : State) (f : Vlc → Vlc) : (s.mapVlcs f).demand = s.demand := rfl
@[simp] theorem State.mapVlcs_pendRecs (s : State) (f : Vlc → Vlc) : (s.mapVlcs f).pendRecs = s.pendRecs := rfl
@[simp] theorem State.mapVlcs_openRecs (s : State) (f : Vlc → Vlc) : (s.mapVlcs f).openRecs = s.openRecs := rfl
@[simp] theorem State.mapVlcs_ckpt (s : State) (f : Vlc → Vlc) : (s.mapVlcs f).ckpt = s.ckpt := rfl
@[simp] theorem State.mapVlcs_ckptTable (s : State) (f : Vlc → Vlc) : (s.mapVlcs f).ckptTable = s.ckptTable := rfl
@[simp] theorem State.mapVlcs_msix (s : State) (f : Vlc → Vlc) : (s.mapVlcs f).msix = s.msix := rfl
@[simp] theorem State.mapVlcs_hostData (s : State) (f : Vlc → Vlc) : (s.mapVlcs f).hostData = s.hostData := rfl
@[simp] theorem State.mapVlcs_inputs (s : State) (f : Vlc → Vlc) : (s.mapVlcs f).inputs = s.inputs := rfl
@[simp] theorem State.mapVlcs_fresh (s : State) (f : Vlc → Vlc) : (s.mapVlcs f).fresh = s.fresh := rfl
@[simp] theorem State.mapVlcs_tick (s : State) (f : Vlc → Vlc) : (s.mapVlcs f).tick = s.tick := rfl

/-! ### State.setCore -/

@[simp] theorem State.setCore_vlc (s : State) (c : Nat) (k : CoreSt) : (s.setCore c k).vlc = s.vlc := rfl
@[simp] theorem State.setCore_others (s : State) (c : Nat) (k : CoreSt) : (s.setCore c k).others = s.others := rfl
@[simp] theorem State.setCore_gangs (s : State) (c : Nat) (k : CoreSt) : (s.setCore c k).gangs = s.gangs := rfl
@[simp] theorem State.setCore_cores (s : State) (c : Nat) (k : CoreSt) : (s.setCore c k).cores = Tab.set CoreSt.reset s.cores c k := rfl
@[simp] theorem State.setCore_mem (s : State) (c : Nat) (k : CoreSt) : (s.setCore c k).mem = s.mem := rfl
@[simp] theorem State.setCore_poison (s : State) (c : Nat) (k : CoreSt) : (s.setCore c k).poison = s.poison := rfl
@[simp] theorem State.setCore_lo (s : State) (c : Nat) (k : CoreSt) : (s.setCore c k).lo = s.lo := rfl
@[simp] theorem State.setCore_loTransit (s : State) (c : Nat) (k : CoreSt) : (s.setCore c k).loTransit = s.loTransit := rfl
@[simp] theorem State.setCore_writeBacks (s : State) (c : Nat) (k : CoreSt) : (s.setCore c k).writeBacks = s.writeBacks := rfl
@[simp] theorem State.setCore_snoops (s : State) (c : Nat) (k : CoreSt) : (s.setCore c k).snoops = s.snoops := rfl
@[simp] theorem State.setCore_arrivals (s : State) (c : Nat) (k : CoreSt) : (s.setCore c k).arrivals = s.arrivals := rfl
@[simp] theorem State.setCore_seqCounter (s : State) (c : Nat) (k : CoreSt) : (s.setCore c k).seqCounter = s.seqCounter := rfl
@[simp] theorem State.setCore_watches (s : State) (c : Nat) (k : CoreSt) : (s.setCore c k).watches = s.watches := rfl
@[simp] theorem State.setCore_l2 (s : State) (c : Nat) (k : CoreSt) : (s.setCore c k).l2 = s.l2 := rfl
@[simp] theorem State.setCore_modes (s : State) (c : Nat) (k : CoreSt) : (s.setCore c k).modes = s.modes := rfl
@[simp] theorem State.setCore_tlb (s : State) (c : Nat) (k : CoreSt) : (s.setCore c k).tlb = s.tlb := rfl
@[simp] theorem State.setCore_walkCache (s : State) (c : Nat) (k : CoreSt) : (s.setCore c k).walkCache = s.walkCache := rfl
@[simp] theorem State.setCore_queues (s : State) (c : Nat) (k : CoreSt) : (s.setCore c k).queues = s.queues := rfl
@[simp] theorem State.setCore_nodes (s : State) (c : Nat) (k : CoreSt) : (s.setCore c k).nodes = s.nodes := rfl
@[simp] theorem State.setCore_graphs (s : State) (c : Nat) (k : CoreSt) : (s.setCore c k).graphs = s.graphs := rfl
@[simp] theorem State.setCore_landau (s : State) (c : Nat) (k : CoreSt) : (s.setCore c k).landau = s.landau := rfl
@[simp] theorem State.setCore_perf (s : State) (c : Nat) (k : CoreSt) : (s.setCore c k).perf = s.perf := rfl
@[simp] theorem State.setCore_engines (s : State) (c : Nat) (k : CoreSt) : (s.setCore c k).engines = s.engines := rfl
@[simp] theorem State.setCore_rx (s : State) (c : Nat) (k : CoreSt) : (s.setCore c k).rx = s.rx := rfl
@[simp] theorem State.setCore_gateQ (s : State) (c : Nat) (k : CoreSt) : (s.setCore c k).gateQ = s.gateQ := rfl
@[simp] theorem State.setCore_steps (s : State) (c : Nat) (k : CoreSt) : (s.setCore c k).steps = s.steps := rfl
@[simp] theorem State.setCore_reserves (s : State) (c : Nat) (k : CoreSt) : (s.setCore c k).reserves = s.reserves := rfl
@[simp] theorem State.setCore_closing (s : State) (c : Nat) (k : CoreSt) : (s.setCore c k).closing = s.closing := rfl
@[simp] theorem State.setCore_closeTransit (s : State) (c : Nat) (k : CoreSt) : (s.setCore c k).closeTransit = s.closeTransit := rfl
@[simp] theorem State.setCore_reqTransit (s : State) (c : Nat) (k : CoreSt) : (s.setCore c k).reqTransit = s.reqTransit := rfl
@[simp] theorem State.setCore_hansomFailed (s : State) (c : Nat) (k : CoreSt) : (s.setCore c k).hansomFailed = s.hansomFailed := rfl
@[simp] theorem State.setCore_ports (s : State) (c : Nat) (k : CoreSt) : (s.setCore c k).ports = s.ports := rfl
@[simp] theorem State.setCore_dies (s : State) (c : Nat) (k : CoreSt) : (s.setCore c k).dies = s.dies := rfl
@[simp] theorem State.setCore_funcmode (s : State) (c : Nat) (k : CoreSt) : (s.setCore c k).funcmode = s.funcmode := rfl
@[simp] theorem State.setCore_bootCount (s : State) (c : Nat) (k : CoreSt) : (s.setCore c k).bootCount = s.bootCount := rfl
@[simp] theorem State.setCore_quoteCount (s : State) (c : Nat) (k : CoreSt) : (s.setCore c k).quoteCount = s.quoteCount := rfl
@[simp] theorem State.setCore_cert (s : State) (c : Nat) (k : CoreSt) : (s.setCore c k).cert = s.cert := rfl
@[simp] theorem State.setCore_keys (s : State) (c : Nat) (k : CoreSt) : (s.setCore c k).keys = s.keys := rfl
@[simp] theorem State.setCore_fenced (s : State) (c : Nat) (k : CoreSt) : (s.setCore c k).fenced = s.fenced := rfl
@[simp] theorem State.setCore_demand (s : State) (c : Nat) (k : CoreSt) : (s.setCore c k).demand = s.demand := rfl
@[simp] theorem State.setCore_pendRecs (s : State) (c : Nat) (k : CoreSt) : (s.setCore c k).pendRecs = s.pendRecs := rfl
@[simp] theorem State.setCore_openRecs (s : State) (c : Nat) (k : CoreSt) : (s.setCore c k).openRecs = s.openRecs := rfl
@[simp] theorem State.setCore_ckpt (s : State) (c : Nat) (k : CoreSt) : (s.setCore c k).ckpt = s.ckpt := rfl
@[simp] theorem State.setCore_ckptTable (s : State) (c : Nat) (k : CoreSt) : (s.setCore c k).ckptTable = s.ckptTable := rfl
@[simp] theorem State.setCore_msix (s : State) (c : Nat) (k : CoreSt) : (s.setCore c k).msix = s.msix := rfl
@[simp] theorem State.setCore_hostData (s : State) (c : Nat) (k : CoreSt) : (s.setCore c k).hostData = s.hostData := rfl
@[simp] theorem State.setCore_inputs (s : State) (c : Nat) (k : CoreSt) : (s.setCore c k).inputs = s.inputs := rfl
@[simp] theorem State.setCore_fresh (s : State) (c : Nat) (k : CoreSt) : (s.setCore c k).fresh = s.fresh := rfl
@[simp] theorem State.setCore_tick (s : State) (c : Nat) (k : CoreSt) : (s.setCore c k).tick = s.tick := rfl

/-! ### State.modCore -/

@[simp] theorem State.modCore_vlc (s : State) (c : Nat) (f : CoreSt → CoreSt) : (s.modCore c f).vlc = s.vlc := rfl
@[simp] theorem State.modCore_others (s : State) (c : Nat) (f : CoreSt → CoreSt) : (s.modCore c f).others = s.others := rfl
@[simp] theorem State.modCore_gangs (s : State) (c : Nat) (f : CoreSt → CoreSt) : (s.modCore c f).gangs = s.gangs := rfl
@[simp] theorem State.modCore_cores (s : State) (c : Nat) (f : CoreSt → CoreSt) :
    (s.modCore c f).cores = Tab.set CoreSt.reset s.cores c (f (s.core c)) := rfl
@[simp] theorem State.modCore_mem (s : State) (c : Nat) (f : CoreSt → CoreSt) : (s.modCore c f).mem = s.mem := rfl
@[simp] theorem State.modCore_poison (s : State) (c : Nat) (f : CoreSt → CoreSt) : (s.modCore c f).poison = s.poison := rfl
@[simp] theorem State.modCore_lo (s : State) (c : Nat) (f : CoreSt → CoreSt) : (s.modCore c f).lo = s.lo := rfl
@[simp] theorem State.modCore_loTransit (s : State) (c : Nat) (f : CoreSt → CoreSt) : (s.modCore c f).loTransit = s.loTransit := rfl
@[simp] theorem State.modCore_writeBacks (s : State) (c : Nat) (f : CoreSt → CoreSt) : (s.modCore c f).writeBacks = s.writeBacks := rfl
@[simp] theorem State.modCore_snoops (s : State) (c : Nat) (f : CoreSt → CoreSt) : (s.modCore c f).snoops = s.snoops := rfl
@[simp] theorem State.modCore_arrivals (s : State) (c : Nat) (f : CoreSt → CoreSt) : (s.modCore c f).arrivals = s.arrivals := rfl
@[simp] theorem State.modCore_seqCounter (s : State) (c : Nat) (f : CoreSt → CoreSt) : (s.modCore c f).seqCounter = s.seqCounter := rfl
@[simp] theorem State.modCore_watches (s : State) (c : Nat) (f : CoreSt → CoreSt) : (s.modCore c f).watches = s.watches := rfl
@[simp] theorem State.modCore_l2 (s : State) (c : Nat) (f : CoreSt → CoreSt) : (s.modCore c f).l2 = s.l2 := rfl
@[simp] theorem State.modCore_modes (s : State) (c : Nat) (f : CoreSt → CoreSt) : (s.modCore c f).modes = s.modes := rfl
@[simp] theorem State.modCore_tlb (s : State) (c : Nat) (f : CoreSt → CoreSt) : (s.modCore c f).tlb = s.tlb := rfl
@[simp] theorem State.modCore_walkCache (s : State) (c : Nat) (f : CoreSt → CoreSt) : (s.modCore c f).walkCache = s.walkCache := rfl
@[simp] theorem State.modCore_queues (s : State) (c : Nat) (f : CoreSt → CoreSt) : (s.modCore c f).queues = s.queues := rfl
@[simp] theorem State.modCore_nodes (s : State) (c : Nat) (f : CoreSt → CoreSt) : (s.modCore c f).nodes = s.nodes := rfl
@[simp] theorem State.modCore_graphs (s : State) (c : Nat) (f : CoreSt → CoreSt) : (s.modCore c f).graphs = s.graphs := rfl
@[simp] theorem State.modCore_landau (s : State) (c : Nat) (f : CoreSt → CoreSt) : (s.modCore c f).landau = s.landau := rfl
@[simp] theorem State.modCore_perf (s : State) (c : Nat) (f : CoreSt → CoreSt) : (s.modCore c f).perf = s.perf := rfl
@[simp] theorem State.modCore_engines (s : State) (c : Nat) (f : CoreSt → CoreSt) : (s.modCore c f).engines = s.engines := rfl
@[simp] theorem State.modCore_rx (s : State) (c : Nat) (f : CoreSt → CoreSt) : (s.modCore c f).rx = s.rx := rfl
@[simp] theorem State.modCore_gateQ (s : State) (c : Nat) (f : CoreSt → CoreSt) : (s.modCore c f).gateQ = s.gateQ := rfl
@[simp] theorem State.modCore_steps (s : State) (c : Nat) (f : CoreSt → CoreSt) : (s.modCore c f).steps = s.steps := rfl
@[simp] theorem State.modCore_reserves (s : State) (c : Nat) (f : CoreSt → CoreSt) : (s.modCore c f).reserves = s.reserves := rfl
@[simp] theorem State.modCore_closing (s : State) (c : Nat) (f : CoreSt → CoreSt) : (s.modCore c f).closing = s.closing := rfl
@[simp] theorem State.modCore_closeTransit (s : State) (c : Nat) (f : CoreSt → CoreSt) : (s.modCore c f).closeTransit = s.closeTransit := rfl
@[simp] theorem State.modCore_reqTransit (s : State) (c : Nat) (f : CoreSt → CoreSt) : (s.modCore c f).reqTransit = s.reqTransit := rfl
@[simp] theorem State.modCore_hansomFailed (s : State) (c : Nat) (f : CoreSt → CoreSt) : (s.modCore c f).hansomFailed = s.hansomFailed := rfl
@[simp] theorem State.modCore_ports (s : State) (c : Nat) (f : CoreSt → CoreSt) : (s.modCore c f).ports = s.ports := rfl
@[simp] theorem State.modCore_dies (s : State) (c : Nat) (f : CoreSt → CoreSt) : (s.modCore c f).dies = s.dies := rfl
@[simp] theorem State.modCore_funcmode (s : State) (c : Nat) (f : CoreSt → CoreSt) : (s.modCore c f).funcmode = s.funcmode := rfl
@[simp] theorem State.modCore_bootCount (s : State) (c : Nat) (f : CoreSt → CoreSt) : (s.modCore c f).bootCount = s.bootCount := rfl
@[simp] theorem State.modCore_quoteCount (s : State) (c : Nat) (f : CoreSt → CoreSt) : (s.modCore c f).quoteCount = s.quoteCount := rfl
@[simp] theorem State.modCore_cert (s : State) (c : Nat) (f : CoreSt → CoreSt) : (s.modCore c f).cert = s.cert := rfl
@[simp] theorem State.modCore_keys (s : State) (c : Nat) (f : CoreSt → CoreSt) : (s.modCore c f).keys = s.keys := rfl
@[simp] theorem State.modCore_fenced (s : State) (c : Nat) (f : CoreSt → CoreSt) : (s.modCore c f).fenced = s.fenced := rfl
@[simp] theorem State.modCore_demand (s : State) (c : Nat) (f : CoreSt → CoreSt) : (s.modCore c f).demand = s.demand := rfl
@[simp] theorem State.modCore_pendRecs (s : State) (c : Nat) (f : CoreSt → CoreSt) : (s.modCore c f).pendRecs = s.pendRecs := rfl
@[simp] theorem State.modCore_openRecs (s : State) (c : Nat) (f : CoreSt → CoreSt) : (s.modCore c f).openRecs = s.openRecs := rfl
@[simp] theorem State.modCore_ckpt (s : State) (c : Nat) (f : CoreSt → CoreSt) : (s.modCore c f).ckpt = s.ckpt := rfl
@[simp] theorem State.modCore_ckptTable (s : State) (c : Nat) (f : CoreSt → CoreSt) : (s.modCore c f).ckptTable = s.ckptTable := rfl
@[simp] theorem State.modCore_msix (s : State) (c : Nat) (f : CoreSt → CoreSt) : (s.modCore c f).msix = s.msix := rfl
@[simp] theorem State.modCore_hostData (s : State) (c : Nat) (f : CoreSt → CoreSt) : (s.modCore c f).hostData = s.hostData := rfl
@[simp] theorem State.modCore_inputs (s : State) (c : Nat) (f : CoreSt → CoreSt) : (s.modCore c f).inputs = s.inputs := rfl
@[simp] theorem State.modCore_fresh (s : State) (c : Nat) (f : CoreSt → CoreSt) : (s.modCore c f).fresh = s.fresh := rfl
@[simp] theorem State.modCore_tick (s : State) (c : Nat) (f : CoreSt → CoreSt) : (s.modCore c f).tick = s.tick := rfl

/-! ### State.modGang -/

@[simp] theorem State.modGang_vlc (s : State) (g : Nat) (f : Gang → Gang) : (s.modGang g f).vlc = s.vlc := rfl
@[simp] theorem State.modGang_others (s : State) (g : Nat) (f : Gang → Gang) : (s.modGang g f).others = s.others := rfl
@[simp] theorem State.modGang_gangs (s : State) (g : Nat) (f : Gang → Gang) :
    (s.modGang g f).gangs = s.gangs.map fun x => if x.id = g then f x else x := rfl
@[simp] theorem State.modGang_cores (s : State) (g : Nat) (f : Gang → Gang) : (s.modGang g f).cores = s.cores := rfl
@[simp] theorem State.modGang_mem (s : State) (g : Nat) (f : Gang → Gang) : (s.modGang g f).mem = s.mem := rfl
@[simp] theorem State.modGang_poison (s : State) (g : Nat) (f : Gang → Gang) : (s.modGang g f).poison = s.poison := rfl
@[simp] theorem State.modGang_lo (s : State) (g : Nat) (f : Gang → Gang) : (s.modGang g f).lo = s.lo := rfl
@[simp] theorem State.modGang_loTransit (s : State) (g : Nat) (f : Gang → Gang) : (s.modGang g f).loTransit = s.loTransit := rfl
@[simp] theorem State.modGang_writeBacks (s : State) (g : Nat) (f : Gang → Gang) : (s.modGang g f).writeBacks = s.writeBacks := rfl
@[simp] theorem State.modGang_snoops (s : State) (g : Nat) (f : Gang → Gang) : (s.modGang g f).snoops = s.snoops := rfl
@[simp] theorem State.modGang_arrivals (s : State) (g : Nat) (f : Gang → Gang) : (s.modGang g f).arrivals = s.arrivals := rfl
@[simp] theorem State.modGang_seqCounter (s : State) (g : Nat) (f : Gang → Gang) : (s.modGang g f).seqCounter = s.seqCounter := rfl
@[simp] theorem State.modGang_watches (s : State) (g : Nat) (f : Gang → Gang) : (s.modGang g f).watches = s.watches := rfl
@[simp] theorem State.modGang_l2 (s : State) (g : Nat) (f : Gang → Gang) : (s.modGang g f).l2 = s.l2 := rfl
@[simp] theorem State.modGang_modes (s : State) (g : Nat) (f : Gang → Gang) : (s.modGang g f).modes = s.modes := rfl
@[simp] theorem State.modGang_tlb (s : State) (g : Nat) (f : Gang → Gang) : (s.modGang g f).tlb = s.tlb := rfl
@[simp] theorem State.modGang_walkCache (s : State) (g : Nat) (f : Gang → Gang) : (s.modGang g f).walkCache = s.walkCache := rfl
@[simp] theorem State.modGang_queues (s : State) (g : Nat) (f : Gang → Gang) : (s.modGang g f).queues = s.queues := rfl
@[simp] theorem State.modGang_nodes (s : State) (g : Nat) (f : Gang → Gang) : (s.modGang g f).nodes = s.nodes := rfl
@[simp] theorem State.modGang_graphs (s : State) (g : Nat) (f : Gang → Gang) : (s.modGang g f).graphs = s.graphs := rfl
@[simp] theorem State.modGang_landau (s : State) (g : Nat) (f : Gang → Gang) : (s.modGang g f).landau = s.landau := rfl
@[simp] theorem State.modGang_perf (s : State) (g : Nat) (f : Gang → Gang) : (s.modGang g f).perf = s.perf := rfl
@[simp] theorem State.modGang_engines (s : State) (g : Nat) (f : Gang → Gang) : (s.modGang g f).engines = s.engines := rfl
@[simp] theorem State.modGang_rx (s : State) (g : Nat) (f : Gang → Gang) : (s.modGang g f).rx = s.rx := rfl
@[simp] theorem State.modGang_gateQ (s : State) (g : Nat) (f : Gang → Gang) : (s.modGang g f).gateQ = s.gateQ := rfl
@[simp] theorem State.modGang_steps (s : State) (g : Nat) (f : Gang → Gang) : (s.modGang g f).steps = s.steps := rfl
@[simp] theorem State.modGang_reserves (s : State) (g : Nat) (f : Gang → Gang) : (s.modGang g f).reserves = s.reserves := rfl
@[simp] theorem State.modGang_closing (s : State) (g : Nat) (f : Gang → Gang) : (s.modGang g f).closing = s.closing := rfl
@[simp] theorem State.modGang_closeTransit (s : State) (g : Nat) (f : Gang → Gang) : (s.modGang g f).closeTransit = s.closeTransit := rfl
@[simp] theorem State.modGang_reqTransit (s : State) (g : Nat) (f : Gang → Gang) : (s.modGang g f).reqTransit = s.reqTransit := rfl
@[simp] theorem State.modGang_hansomFailed (s : State) (g : Nat) (f : Gang → Gang) : (s.modGang g f).hansomFailed = s.hansomFailed := rfl
@[simp] theorem State.modGang_ports (s : State) (g : Nat) (f : Gang → Gang) : (s.modGang g f).ports = s.ports := rfl
@[simp] theorem State.modGang_dies (s : State) (g : Nat) (f : Gang → Gang) : (s.modGang g f).dies = s.dies := rfl
@[simp] theorem State.modGang_funcmode (s : State) (g : Nat) (f : Gang → Gang) : (s.modGang g f).funcmode = s.funcmode := rfl
@[simp] theorem State.modGang_bootCount (s : State) (g : Nat) (f : Gang → Gang) : (s.modGang g f).bootCount = s.bootCount := rfl
@[simp] theorem State.modGang_quoteCount (s : State) (g : Nat) (f : Gang → Gang) : (s.modGang g f).quoteCount = s.quoteCount := rfl
@[simp] theorem State.modGang_cert (s : State) (g : Nat) (f : Gang → Gang) : (s.modGang g f).cert = s.cert := rfl
@[simp] theorem State.modGang_keys (s : State) (g : Nat) (f : Gang → Gang) : (s.modGang g f).keys = s.keys := rfl
@[simp] theorem State.modGang_fenced (s : State) (g : Nat) (f : Gang → Gang) : (s.modGang g f).fenced = s.fenced := rfl
@[simp] theorem State.modGang_demand (s : State) (g : Nat) (f : Gang → Gang) : (s.modGang g f).demand = s.demand := rfl
@[simp] theorem State.modGang_pendRecs (s : State) (g : Nat) (f : Gang → Gang) : (s.modGang g f).pendRecs = s.pendRecs := rfl
@[simp] theorem State.modGang_openRecs (s : State) (g : Nat) (f : Gang → Gang) : (s.modGang g f).openRecs = s.openRecs := rfl
@[simp] theorem State.modGang_ckpt (s : State) (g : Nat) (f : Gang → Gang) : (s.modGang g f).ckpt = s.ckpt := rfl
@[simp] theorem State.modGang_ckptTable (s : State) (g : Nat) (f : Gang → Gang) : (s.modGang g f).ckptTable = s.ckptTable := rfl
@[simp] theorem State.modGang_msix (s : State) (g : Nat) (f : Gang → Gang) : (s.modGang g f).msix = s.msix := rfl
@[simp] theorem State.modGang_hostData (s : State) (g : Nat) (f : Gang → Gang) : (s.modGang g f).hostData = s.hostData := rfl
@[simp] theorem State.modGang_inputs (s : State) (g : Nat) (f : Gang → Gang) : (s.modGang g f).inputs = s.inputs := rfl
@[simp] theorem State.modGang_fresh (s : State) (g : Nat) (f : Gang → Gang) : (s.modGang g f).fresh = s.fresh := rfl
@[simp] theorem State.modGang_tick (s : State) (g : Nat) (f : Gang → Gang) : (s.modGang g f).tick = s.tick := rfl

/-! ### State.modQueue -/

@[simp] theorem State.modQueue_vlc (s : State) (q : Nat) (f : QueuePage → QueuePage) : (s.modQueue q f).vlc = s.vlc := rfl
@[simp] theorem State.modQueue_others (s : State) (q : Nat) (f : QueuePage → QueuePage) : (s.modQueue q f).others = s.others := rfl
@[simp] theorem State.modQueue_gangs (s : State) (q : Nat) (f : QueuePage → QueuePage) : (s.modQueue q f).gangs = s.gangs := rfl
@[simp] theorem State.modQueue_cores (s : State) (q : Nat) (f : QueuePage → QueuePage) : (s.modQueue q f).cores = s.cores := rfl
@[simp] theorem State.modQueue_mem (s : State) (q : Nat) (f : QueuePage → QueuePage) : (s.modQueue q f).mem = s.mem := rfl
@[simp] theorem State.modQueue_poison (s : State) (q : Nat) (f : QueuePage → QueuePage) : (s.modQueue q f).poison = s.poison := rfl
@[simp] theorem State.modQueue_lo (s : State) (q : Nat) (f : QueuePage → QueuePage) : (s.modQueue q f).lo = s.lo := rfl
@[simp] theorem State.modQueue_loTransit (s : State) (q : Nat) (f : QueuePage → QueuePage) : (s.modQueue q f).loTransit = s.loTransit := rfl
@[simp] theorem State.modQueue_writeBacks (s : State) (q : Nat) (f : QueuePage → QueuePage) : (s.modQueue q f).writeBacks = s.writeBacks := rfl
@[simp] theorem State.modQueue_snoops (s : State) (q : Nat) (f : QueuePage → QueuePage) : (s.modQueue q f).snoops = s.snoops := rfl
@[simp] theorem State.modQueue_arrivals (s : State) (q : Nat) (f : QueuePage → QueuePage) : (s.modQueue q f).arrivals = s.arrivals := rfl
@[simp] theorem State.modQueue_seqCounter (s : State) (q : Nat) (f : QueuePage → QueuePage) : (s.modQueue q f).seqCounter = s.seqCounter := rfl
@[simp] theorem State.modQueue_watches (s : State) (q : Nat) (f : QueuePage → QueuePage) : (s.modQueue q f).watches = s.watches := rfl
@[simp] theorem State.modQueue_l2 (s : State) (q : Nat) (f : QueuePage → QueuePage) : (s.modQueue q f).l2 = s.l2 := rfl
@[simp] theorem State.modQueue_modes (s : State) (q : Nat) (f : QueuePage → QueuePage) : (s.modQueue q f).modes = s.modes := rfl
@[simp] theorem State.modQueue_tlb (s : State) (q : Nat) (f : QueuePage → QueuePage) : (s.modQueue q f).tlb = s.tlb := rfl
@[simp] theorem State.modQueue_walkCache (s : State) (q : Nat) (f : QueuePage → QueuePage) : (s.modQueue q f).walkCache = s.walkCache := rfl
@[simp] theorem State.modQueue_queues (s : State) (q : Nat) (f : QueuePage → QueuePage) :
    (s.modQueue q f).queues = Tab.set QueuePage.reset s.queues q (f (s.queue q)) := rfl
@[simp] theorem State.modQueue_nodes (s : State) (q : Nat) (f : QueuePage → QueuePage) : (s.modQueue q f).nodes = s.nodes := rfl
@[simp] theorem State.modQueue_graphs (s : State) (q : Nat) (f : QueuePage → QueuePage) : (s.modQueue q f).graphs = s.graphs := rfl
@[simp] theorem State.modQueue_landau (s : State) (q : Nat) (f : QueuePage → QueuePage) : (s.modQueue q f).landau = s.landau := rfl
@[simp] theorem State.modQueue_perf (s : State) (q : Nat) (f : QueuePage → QueuePage) : (s.modQueue q f).perf = s.perf := rfl
@[simp] theorem State.modQueue_engines (s : State) (q : Nat) (f : QueuePage → QueuePage) : (s.modQueue q f).engines = s.engines := rfl
@[simp] theorem State.modQueue_rx (s : State) (q : Nat) (f : QueuePage → QueuePage) : (s.modQueue q f).rx = s.rx := rfl
@[simp] theorem State.modQueue_gateQ (s : State) (q : Nat) (f : QueuePage → QueuePage) : (s.modQueue q f).gateQ = s.gateQ := rfl
@[simp] theorem State.modQueue_steps (s : State) (q : Nat) (f : QueuePage → QueuePage) : (s.modQueue q f).steps = s.steps := rfl
@[simp] theorem State.modQueue_reserves (s : State) (q : Nat) (f : QueuePage → QueuePage) : (s.modQueue q f).reserves = s.reserves := rfl
@[simp] theorem State.modQueue_closing (s : State) (q : Nat) (f : QueuePage → QueuePage) : (s.modQueue q f).closing = s.closing := rfl
@[simp] theorem State.modQueue_closeTransit (s : State) (q : Nat) (f : QueuePage → QueuePage) : (s.modQueue q f).closeTransit = s.closeTransit := rfl
@[simp] theorem State.modQueue_reqTransit (s : State) (q : Nat) (f : QueuePage → QueuePage) : (s.modQueue q f).reqTransit = s.reqTransit := rfl
@[simp] theorem State.modQueue_hansomFailed (s : State) (q : Nat) (f : QueuePage → QueuePage) : (s.modQueue q f).hansomFailed = s.hansomFailed := rfl
@[simp] theorem State.modQueue_ports (s : State) (q : Nat) (f : QueuePage → QueuePage) : (s.modQueue q f).ports = s.ports := rfl
@[simp] theorem State.modQueue_dies (s : State) (q : Nat) (f : QueuePage → QueuePage) : (s.modQueue q f).dies = s.dies := rfl
@[simp] theorem State.modQueue_funcmode (s : State) (q : Nat) (f : QueuePage → QueuePage) : (s.modQueue q f).funcmode = s.funcmode := rfl
@[simp] theorem State.modQueue_bootCount (s : State) (q : Nat) (f : QueuePage → QueuePage) : (s.modQueue q f).bootCount = s.bootCount := rfl
@[simp] theorem State.modQueue_quoteCount (s : State) (q : Nat) (f : QueuePage → QueuePage) : (s.modQueue q f).quoteCount = s.quoteCount := rfl
@[simp] theorem State.modQueue_cert (s : State) (q : Nat) (f : QueuePage → QueuePage) : (s.modQueue q f).cert = s.cert := rfl
@[simp] theorem State.modQueue_keys (s : State) (q : Nat) (f : QueuePage → QueuePage) : (s.modQueue q f).keys = s.keys := rfl
@[simp] theorem State.modQueue_fenced (s : State) (q : Nat) (f : QueuePage → QueuePage) : (s.modQueue q f).fenced = s.fenced := rfl
@[simp] theorem State.modQueue_demand (s : State) (q : Nat) (f : QueuePage → QueuePage) : (s.modQueue q f).demand = s.demand := rfl
@[simp] theorem State.modQueue_pendRecs (s : State) (q : Nat) (f : QueuePage → QueuePage) : (s.modQueue q f).pendRecs = s.pendRecs := rfl
@[simp] theorem State.modQueue_openRecs (s : State) (q : Nat) (f : QueuePage → QueuePage) : (s.modQueue q f).openRecs = s.openRecs := rfl
@[simp] theorem State.modQueue_ckpt (s : State) (q : Nat) (f : QueuePage → QueuePage) : (s.modQueue q f).ckpt = s.ckpt := rfl
@[simp] theorem State.modQueue_ckptTable (s : State) (q : Nat) (f : QueuePage → QueuePage) : (s.modQueue q f).ckptTable = s.ckptTable := rfl
@[simp] theorem State.modQueue_msix (s : State) (q : Nat) (f : QueuePage → QueuePage) : (s.modQueue q f).msix = s.msix := rfl
@[simp] theorem State.modQueue_hostData (s : State) (q : Nat) (f : QueuePage → QueuePage) : (s.modQueue q f).hostData = s.hostData := rfl
@[simp] theorem State.modQueue_inputs (s : State) (q : Nat) (f : QueuePage → QueuePage) : (s.modQueue q f).inputs = s.inputs := rfl
@[simp] theorem State.modQueue_fresh (s : State) (q : Nat) (f : QueuePage → QueuePage) : (s.modQueue q f).fresh = s.fresh := rfl
@[simp] theorem State.modQueue_tick (s : State) (q : Nat) (f : QueuePage → QueuePage) : (s.modQueue q f).tick = s.tick := rfl

/-! ### State.modDie -/

@[simp] theorem State.modDie_vlc (s : State) (d : Nat) (f : Die → Die) : (s.modDie d f).vlc = s.vlc := rfl
@[simp] theorem State.modDie_others (s : State) (d : Nat) (f : Die → Die) : (s.modDie d f).others = s.others := rfl
@[simp] theorem State.modDie_gangs (s : State) (d : Nat) (f : Die → Die) : (s.modDie d f).gangs = s.gangs := rfl
@[simp] theorem State.modDie_cores (s : State) (d : Nat) (f : Die → Die) : (s.modDie d f).cores = s.cores := rfl
@[simp] theorem State.modDie_mem (s : State) (d : Nat) (f : Die → Die) : (s.modDie d f).mem = s.mem := rfl
@[simp] theorem State.modDie_poison (s : State) (d : Nat) (f : Die → Die) : (s.modDie d f).poison = s.poison := rfl
@[simp] theorem State.modDie_lo (s : State) (d : Nat) (f : Die → Die) : (s.modDie d f).lo = s.lo := rfl
@[simp] theorem State.modDie_loTransit (s : State) (d : Nat) (f : Die → Die) : (s.modDie d f).loTransit = s.loTransit := rfl
@[simp] theorem State.modDie_writeBacks (s : State) (d : Nat) (f : Die → Die) : (s.modDie d f).writeBacks = s.writeBacks := rfl
@[simp] theorem State.modDie_snoops (s : State) (d : Nat) (f : Die → Die) : (s.modDie d f).snoops = s.snoops := rfl
@[simp] theorem State.modDie_arrivals (s : State) (d : Nat) (f : Die → Die) : (s.modDie d f).arrivals = s.arrivals := rfl
@[simp] theorem State.modDie_seqCounter (s : State) (d : Nat) (f : Die → Die) : (s.modDie d f).seqCounter = s.seqCounter := rfl
@[simp] theorem State.modDie_watches (s : State) (d : Nat) (f : Die → Die) : (s.modDie d f).watches = s.watches := rfl
@[simp] theorem State.modDie_l2 (s : State) (d : Nat) (f : Die → Die) : (s.modDie d f).l2 = s.l2 := rfl
@[simp] theorem State.modDie_modes (s : State) (d : Nat) (f : Die → Die) : (s.modDie d f).modes = s.modes := rfl
@[simp] theorem State.modDie_tlb (s : State) (d : Nat) (f : Die → Die) : (s.modDie d f).tlb = s.tlb := rfl
@[simp] theorem State.modDie_walkCache (s : State) (d : Nat) (f : Die → Die) : (s.modDie d f).walkCache = s.walkCache := rfl
@[simp] theorem State.modDie_queues (s : State) (d : Nat) (f : Die → Die) : (s.modDie d f).queues = s.queues := rfl
@[simp] theorem State.modDie_nodes (s : State) (d : Nat) (f : Die → Die) : (s.modDie d f).nodes = s.nodes := rfl
@[simp] theorem State.modDie_graphs (s : State) (d : Nat) (f : Die → Die) : (s.modDie d f).graphs = s.graphs := rfl
@[simp] theorem State.modDie_landau (s : State) (d : Nat) (f : Die → Die) : (s.modDie d f).landau = s.landau := rfl
@[simp] theorem State.modDie_perf (s : State) (d : Nat) (f : Die → Die) : (s.modDie d f).perf = s.perf := rfl
@[simp] theorem State.modDie_engines (s : State) (d : Nat) (f : Die → Die) : (s.modDie d f).engines = s.engines := rfl
@[simp] theorem State.modDie_rx (s : State) (d : Nat) (f : Die → Die) : (s.modDie d f).rx = s.rx := rfl
@[simp] theorem State.modDie_gateQ (s : State) (d : Nat) (f : Die → Die) : (s.modDie d f).gateQ = s.gateQ := rfl
@[simp] theorem State.modDie_steps (s : State) (d : Nat) (f : Die → Die) : (s.modDie d f).steps = s.steps := rfl
@[simp] theorem State.modDie_reserves (s : State) (d : Nat) (f : Die → Die) : (s.modDie d f).reserves = s.reserves := rfl
@[simp] theorem State.modDie_closing (s : State) (d : Nat) (f : Die → Die) : (s.modDie d f).closing = s.closing := rfl
@[simp] theorem State.modDie_closeTransit (s : State) (d : Nat) (f : Die → Die) : (s.modDie d f).closeTransit = s.closeTransit := rfl
@[simp] theorem State.modDie_reqTransit (s : State) (d : Nat) (f : Die → Die) : (s.modDie d f).reqTransit = s.reqTransit := rfl
@[simp] theorem State.modDie_hansomFailed (s : State) (d : Nat) (f : Die → Die) : (s.modDie d f).hansomFailed = s.hansomFailed := rfl
@[simp] theorem State.modDie_ports (s : State) (d : Nat) (f : Die → Die) : (s.modDie d f).ports = s.ports := rfl
@[simp] theorem State.modDie_dies (s : State) (d : Nat) (f : Die → Die) : (s.modDie d f).dies = s.dies.setIfInBounds d (f (s.die d)) := rfl
@[simp] theorem State.modDie_funcmode (s : State) (d : Nat) (f : Die → Die) : (s.modDie d f).funcmode = s.funcmode := rfl
@[simp] theorem State.modDie_bootCount (s : State) (d : Nat) (f : Die → Die) : (s.modDie d f).bootCount = s.bootCount := rfl
@[simp] theorem State.modDie_quoteCount (s : State) (d : Nat) (f : Die → Die) : (s.modDie d f).quoteCount = s.quoteCount := rfl
@[simp] theorem State.modDie_cert (s : State) (d : Nat) (f : Die → Die) : (s.modDie d f).cert = s.cert := rfl
@[simp] theorem State.modDie_keys (s : State) (d : Nat) (f : Die → Die) : (s.modDie d f).keys = s.keys := rfl
@[simp] theorem State.modDie_fenced (s : State) (d : Nat) (f : Die → Die) : (s.modDie d f).fenced = s.fenced := rfl
@[simp] theorem State.modDie_demand (s : State) (d : Nat) (f : Die → Die) : (s.modDie d f).demand = s.demand := rfl
@[simp] theorem State.modDie_pendRecs (s : State) (d : Nat) (f : Die → Die) : (s.modDie d f).pendRecs = s.pendRecs := rfl
@[simp] theorem State.modDie_openRecs (s : State) (d : Nat) (f : Die → Die) : (s.modDie d f).openRecs = s.openRecs := rfl
@[simp] theorem State.modDie_ckpt (s : State) (d : Nat) (f : Die → Die) : (s.modDie d f).ckpt = s.ckpt := rfl
@[simp] theorem State.modDie_ckptTable (s : State) (d : Nat) (f : Die → Die) : (s.modDie d f).ckptTable = s.ckptTable := rfl
@[simp] theorem State.modDie_msix (s : State) (d : Nat) (f : Die → Die) : (s.modDie d f).msix = s.msix := rfl
@[simp] theorem State.modDie_hostData (s : State) (d : Nat) (f : Die → Die) : (s.modDie d f).hostData = s.hostData := rfl
@[simp] theorem State.modDie_inputs (s : State) (d : Nat) (f : Die → Die) : (s.modDie d f).inputs = s.inputs := rfl
@[simp] theorem State.modDie_fresh (s : State) (d : Nat) (f : Die → Die) : (s.modDie d f).fresh = s.fresh := rfl
@[simp] theorem State.modDie_tick (s : State) (d : Nat) (f : Die → Die) : (s.modDie d f).tick = s.tick := rfl

/-! ### State.modLandau -/

@[simp] theorem State.modLandau_vlc (s : State) (d : Nat) (f : Landau → Landau) : (s.modLandau d f).vlc = s.vlc := rfl
@[simp] theorem State.modLandau_others (s : State) (d : Nat) (f : Landau → Landau) : (s.modLandau d f).others = s.others := rfl
@[simp] theorem State.modLandau_gangs (s : State) (d : Nat) (f : Landau → Landau) : (s.modLandau d f).gangs = s.gangs := rfl
@[simp] theorem State.modLandau_cores (s : State) (d : Nat) (f : Landau → Landau) : (s.modLandau d f).cores = s.cores := rfl
@[simp] theorem State.modLandau_mem (s : State) (d : Nat) (f : Landau → Landau) : (s.modLandau d f).mem = s.mem := rfl
@[simp] theorem State.modLandau_poison (s : State) (d : Nat) (f : Landau → Landau) : (s.modLandau d f).poison = s.poison := rfl
@[simp] theorem State.modLandau_lo (s : State) (d : Nat) (f : Landau → Landau) : (s.modLandau d f).lo = s.lo := rfl
@[simp] theorem State.modLandau_loTransit (s : State) (d : Nat) (f : Landau → Landau) : (s.modLandau d f).loTransit = s.loTransit := rfl
@[simp] theorem State.modLandau_writeBacks (s : State) (d : Nat) (f : Landau → Landau) : (s.modLandau d f).writeBacks = s.writeBacks := rfl
@[simp] theorem State.modLandau_snoops (s : State) (d : Nat) (f : Landau → Landau) : (s.modLandau d f).snoops = s.snoops := rfl
@[simp] theorem State.modLandau_arrivals (s : State) (d : Nat) (f : Landau → Landau) : (s.modLandau d f).arrivals = s.arrivals := rfl
@[simp] theorem State.modLandau_seqCounter (s : State) (d : Nat) (f : Landau → Landau) : (s.modLandau d f).seqCounter = s.seqCounter := rfl
@[simp] theorem State.modLandau_watches (s : State) (d : Nat) (f : Landau → Landau) : (s.modLandau d f).watches = s.watches := rfl
@[simp] theorem State.modLandau_l2 (s : State) (d : Nat) (f : Landau → Landau) : (s.modLandau d f).l2 = s.l2 := rfl
@[simp] theorem State.modLandau_modes (s : State) (d : Nat) (f : Landau → Landau) : (s.modLandau d f).modes = s.modes := rfl
@[simp] theorem State.modLandau_tlb (s : State) (d : Nat) (f : Landau → Landau) : (s.modLandau d f).tlb = s.tlb := rfl
@[simp] theorem State.modLandau_walkCache (s : State) (d : Nat) (f : Landau → Landau) : (s.modLandau d f).walkCache = s.walkCache := rfl
@[simp] theorem State.modLandau_queues (s : State) (d : Nat) (f : Landau → Landau) : (s.modLandau d f).queues = s.queues := rfl
@[simp] theorem State.modLandau_nodes (s : State) (d : Nat) (f : Landau → Landau) : (s.modLandau d f).nodes = s.nodes := rfl
@[simp] theorem State.modLandau_graphs (s : State) (d : Nat) (f : Landau → Landau) : (s.modLandau d f).graphs = s.graphs := rfl
@[simp] theorem State.modLandau_landau (s : State) (d : Nat) (f : Landau → Landau) :
    (s.modLandau d f).landau = s.landau.setIfInBounds d (f (s.landauOf d)) := rfl
@[simp] theorem State.modLandau_perf (s : State) (d : Nat) (f : Landau → Landau) : (s.modLandau d f).perf = s.perf := rfl
@[simp] theorem State.modLandau_engines (s : State) (d : Nat) (f : Landau → Landau) : (s.modLandau d f).engines = s.engines := rfl
@[simp] theorem State.modLandau_rx (s : State) (d : Nat) (f : Landau → Landau) : (s.modLandau d f).rx = s.rx := rfl
@[simp] theorem State.modLandau_gateQ (s : State) (d : Nat) (f : Landau → Landau) : (s.modLandau d f).gateQ = s.gateQ := rfl
@[simp] theorem State.modLandau_steps (s : State) (d : Nat) (f : Landau → Landau) : (s.modLandau d f).steps = s.steps := rfl
@[simp] theorem State.modLandau_reserves (s : State) (d : Nat) (f : Landau → Landau) : (s.modLandau d f).reserves = s.reserves := rfl
@[simp] theorem State.modLandau_closing (s : State) (d : Nat) (f : Landau → Landau) : (s.modLandau d f).closing = s.closing := rfl
@[simp] theorem State.modLandau_closeTransit (s : State) (d : Nat) (f : Landau → Landau) : (s.modLandau d f).closeTransit = s.closeTransit := rfl
@[simp] theorem State.modLandau_reqTransit (s : State) (d : Nat) (f : Landau → Landau) : (s.modLandau d f).reqTransit = s.reqTransit := rfl
@[simp] theorem State.modLandau_hansomFailed (s : State) (d : Nat) (f : Landau → Landau) : (s.modLandau d f).hansomFailed = s.hansomFailed := rfl
@[simp] theorem State.modLandau_ports (s : State) (d : Nat) (f : Landau → Landau) : (s.modLandau d f).ports = s.ports := rfl
@[simp] theorem State.modLandau_dies (s : State) (d : Nat) (f : Landau → Landau) : (s.modLandau d f).dies = s.dies := rfl
@[simp] theorem State.modLandau_funcmode (s : State) (d : Nat) (f : Landau → Landau) : (s.modLandau d f).funcmode = s.funcmode := rfl
@[simp] theorem State.modLandau_bootCount (s : State) (d : Nat) (f : Landau → Landau) : (s.modLandau d f).bootCount = s.bootCount := rfl
@[simp] theorem State.modLandau_quoteCount (s : State) (d : Nat) (f : Landau → Landau) : (s.modLandau d f).quoteCount = s.quoteCount := rfl
@[simp] theorem State.modLandau_cert (s : State) (d : Nat) (f : Landau → Landau) : (s.modLandau d f).cert = s.cert := rfl
@[simp] theorem State.modLandau_keys (s : State) (d : Nat) (f : Landau → Landau) : (s.modLandau d f).keys = s.keys := rfl
@[simp] theorem State.modLandau_fenced (s : State) (d : Nat) (f : Landau → Landau) : (s.modLandau d f).fenced = s.fenced := rfl
@[simp] theorem State.modLandau_demand (s : State) (d : Nat) (f : Landau → Landau) : (s.modLandau d f).demand = s.demand := rfl
@[simp] theorem State.modLandau_pendRecs (s : State) (d : Nat) (f : Landau → Landau) : (s.modLandau d f).pendRecs = s.pendRecs := rfl
@[simp] theorem State.modLandau_openRecs (s : State) (d : Nat) (f : Landau → Landau) : (s.modLandau d f).openRecs = s.openRecs := rfl
@[simp] theorem State.modLandau_ckpt (s : State) (d : Nat) (f : Landau → Landau) : (s.modLandau d f).ckpt = s.ckpt := rfl
@[simp] theorem State.modLandau_ckptTable (s : State) (d : Nat) (f : Landau → Landau) : (s.modLandau d f).ckptTable = s.ckptTable := rfl
@[simp] theorem State.modLandau_msix (s : State) (d : Nat) (f : Landau → Landau) : (s.modLandau d f).msix = s.msix := rfl
@[simp] theorem State.modLandau_hostData (s : State) (d : Nat) (f : Landau → Landau) : (s.modLandau d f).hostData = s.hostData := rfl
@[simp] theorem State.modLandau_inputs (s : State) (d : Nat) (f : Landau → Landau) : (s.modLandau d f).inputs = s.inputs := rfl
@[simp] theorem State.modLandau_fresh (s : State) (d : Nat) (f : Landau → Landau) : (s.modLandau d f).fresh = s.fresh := rfl
@[simp] theorem State.modLandau_tick (s : State) (d : Nat) (f : Landau → Landau) : (s.modLandau d f).tick = s.tick := rfl

/-! ### State.modPerf -/

@[simp] theorem State.modPerf_vlc (s : State) (d q : Nat) (f : QueuePerf → QueuePerf) : (s.modPerf d q f).vlc = s.vlc := rfl
@[simp] theorem State.modPerf_others (s : State) (d q : Nat) (f : QueuePerf → QueuePerf) : (s.modPerf d q f).others = s.others := rfl
@[simp] theorem State.modPerf_gangs (s : State) (d q : Nat) (f : QueuePerf → QueuePerf) : (s.modPerf d q f).gangs = s.gangs := rfl
@[simp] theorem State.modPerf_cores (s : State) (d q : Nat) (f : QueuePerf → QueuePerf) : (s.modPerf d q f).cores = s.cores := rfl
@[simp] theorem State.modPerf_mem (s : State) (d q : Nat) (f : QueuePerf → QueuePerf) : (s.modPerf d q f).mem = s.mem := rfl
@[simp] theorem State.modPerf_poison (s : State) (d q : Nat) (f : QueuePerf → QueuePerf) : (s.modPerf d q f).poison = s.poison := rfl
@[simp] theorem State.modPerf_lo (s : State) (d q : Nat) (f : QueuePerf → QueuePerf) : (s.modPerf d q f).lo = s.lo := rfl
@[simp] theorem State.modPerf_loTransit (s : State) (d q : Nat) (f : QueuePerf → QueuePerf) : (s.modPerf d q f).loTransit = s.loTransit := rfl
@[simp] theorem State.modPerf_writeBacks (s : State) (d q : Nat) (f : QueuePerf → QueuePerf) : (s.modPerf d q f).writeBacks = s.writeBacks := rfl
@[simp] theorem State.modPerf_snoops (s : State) (d q : Nat) (f : QueuePerf → QueuePerf) : (s.modPerf d q f).snoops = s.snoops := rfl
@[simp] theorem State.modPerf_arrivals (s : State) (d q : Nat) (f : QueuePerf → QueuePerf) : (s.modPerf d q f).arrivals = s.arrivals := rfl
@[simp] theorem State.modPerf_seqCounter (s : State) (d q : Nat) (f : QueuePerf → QueuePerf) : (s.modPerf d q f).seqCounter = s.seqCounter := rfl
@[simp] theorem State.modPerf_watches (s : State) (d q : Nat) (f : QueuePerf → QueuePerf) : (s.modPerf d q f).watches = s.watches := rfl
@[simp] theorem State.modPerf_l2 (s : State) (d q : Nat) (f : QueuePerf → QueuePerf) : (s.modPerf d q f).l2 = s.l2 := rfl
@[simp] theorem State.modPerf_modes (s : State) (d q : Nat) (f : QueuePerf → QueuePerf) : (s.modPerf d q f).modes = s.modes := rfl
@[simp] theorem State.modPerf_tlb (s : State) (d q : Nat) (f : QueuePerf → QueuePerf) : (s.modPerf d q f).tlb = s.tlb := rfl
@[simp] theorem State.modPerf_walkCache (s : State) (d q : Nat) (f : QueuePerf → QueuePerf) : (s.modPerf d q f).walkCache = s.walkCache := rfl
@[simp] theorem State.modPerf_queues (s : State) (d q : Nat) (f : QueuePerf → QueuePerf) : (s.modPerf d q f).queues = s.queues := rfl
@[simp] theorem State.modPerf_nodes (s : State) (d q : Nat) (f : QueuePerf → QueuePerf) : (s.modPerf d q f).nodes = s.nodes := rfl
@[simp] theorem State.modPerf_graphs (s : State) (d q : Nat) (f : QueuePerf → QueuePerf) : (s.modPerf d q f).graphs = s.graphs := rfl
@[simp] theorem State.modPerf_landau (s : State) (d q : Nat) (f : QueuePerf → QueuePerf) : (s.modPerf d q f).landau = s.landau := rfl
@[simp] theorem State.modPerf_perf (s : State) (d q : Nat) (f : QueuePerf → QueuePerf) :
    (s.modPerf d q f).perf = Tab.mod QueuePerf.reset s.perf (q * 4 + d) f := rfl
@[simp] theorem State.modPerf_engines (s : State) (d q : Nat) (f : QueuePerf → QueuePerf) : (s.modPerf d q f).engines = s.engines := rfl
@[simp] theorem State.modPerf_rx (s : State) (d q : Nat) (f : QueuePerf → QueuePerf) : (s.modPerf d q f).rx = s.rx := rfl
@[simp] theorem State.modPerf_gateQ (s : State) (d q : Nat) (f : QueuePerf → QueuePerf) : (s.modPerf d q f).gateQ = s.gateQ := rfl
@[simp] theorem State.modPerf_steps (s : State) (d q : Nat) (f : QueuePerf → QueuePerf) : (s.modPerf d q f).steps = s.steps := rfl
@[simp] theorem State.modPerf_reserves (s : State) (d q : Nat) (f : QueuePerf → QueuePerf) : (s.modPerf d q f).reserves = s.reserves := rfl
@[simp] theorem State.modPerf_closing (s : State) (d q : Nat) (f : QueuePerf → QueuePerf) : (s.modPerf d q f).closing = s.closing := rfl
@[simp] theorem State.modPerf_closeTransit (s : State) (d q : Nat) (f : QueuePerf → QueuePerf) : (s.modPerf d q f).closeTransit = s.closeTransit := rfl
@[simp] theorem State.modPerf_reqTransit (s : State) (d q : Nat) (f : QueuePerf → QueuePerf) : (s.modPerf d q f).reqTransit = s.reqTransit := rfl
@[simp] theorem State.modPerf_hansomFailed (s : State) (d q : Nat) (f : QueuePerf → QueuePerf) : (s.modPerf d q f).hansomFailed = s.hansomFailed := rfl
@[simp] theorem State.modPerf_ports (s : State) (d q : Nat) (f : QueuePerf → QueuePerf) : (s.modPerf d q f).ports = s.ports := rfl
@[simp] theorem State.modPerf_dies (s : State) (d q : Nat) (f : QueuePerf → QueuePerf) : (s.modPerf d q f).dies = s.dies := rfl
@[simp] theorem State.modPerf_funcmode (s : State) (d q : Nat) (f : QueuePerf → QueuePerf) : (s.modPerf d q f).funcmode = s.funcmode := rfl
@[simp] theorem State.modPerf_bootCount (s : State) (d q : Nat) (f : QueuePerf → QueuePerf) : (s.modPerf d q f).bootCount = s.bootCount := rfl
@[simp] theorem State.modPerf_quoteCount (s : State) (d q : Nat) (f : QueuePerf → QueuePerf) : (s.modPerf d q f).quoteCount = s.quoteCount := rfl
@[simp] theorem State.modPerf_cert (s : State) (d q : Nat) (f : QueuePerf → QueuePerf) : (s.modPerf d q f).cert = s.cert := rfl
@[simp] theorem State.modPerf_keys (s : State) (d q : Nat) (f : QueuePerf → QueuePerf) : (s.modPerf d q f).keys = s.keys := rfl
@[simp] theorem State.modPerf_fenced (s : State) (d q : Nat) (f : QueuePerf → QueuePerf) : (s.modPerf d q f).fenced = s.fenced := rfl
@[simp] theorem State.modPerf_demand (s : State) (d q : Nat) (f : QueuePerf → QueuePerf) : (s.modPerf d q f).demand = s.demand := rfl
@[simp] theorem State.modPerf_pendRecs (s : State) (d q : Nat) (f : QueuePerf → QueuePerf) : (s.modPerf d q f).pendRecs = s.pendRecs := rfl
@[simp] theorem State.modPerf_openRecs (s : State) (d q : Nat) (f : QueuePerf → QueuePerf) : (s.modPerf d q f).openRecs = s.openRecs := rfl
@[simp] theorem State.modPerf_ckpt (s : State) (d q : Nat) (f : QueuePerf → QueuePerf) : (s.modPerf d q f).ckpt = s.ckpt := rfl
@[simp] theorem State.modPerf_ckptTable (s : State) (d q : Nat) (f : QueuePerf → QueuePerf) : (s.modPerf d q f).ckptTable = s.ckptTable := rfl
@[simp] theorem State.modPerf_msix (s : State) (d q : Nat) (f : QueuePerf → QueuePerf) : (s.modPerf d q f).msix = s.msix := rfl
@[simp] theorem State.modPerf_hostData (s : State) (d q : Nat) (f : QueuePerf → QueuePerf) : (s.modPerf d q f).hostData = s.hostData := rfl
@[simp] theorem State.modPerf_inputs (s : State) (d q : Nat) (f : QueuePerf → QueuePerf) : (s.modPerf d q f).inputs = s.inputs := rfl
@[simp] theorem State.modPerf_fresh (s : State) (d q : Nat) (f : QueuePerf → QueuePerf) : (s.modPerf d q f).fresh = s.fresh := rfl
@[simp] theorem State.modPerf_tick (s : State) (d q : Nat) (f : QueuePerf → QueuePerf) : (s.modPerf d q f).tick = s.tick := rfl

/-! ### State.sendMsix -/

@[simp] theorem State.sendMsix_vlc (s : State) (d k : Nat) : (s.sendMsix d k).vlc = s.vlc := rfl
@[simp] theorem State.sendMsix_others (s : State) (d k : Nat) : (s.sendMsix d k).others = s.others := rfl
@[simp] theorem State.sendMsix_gangs (s : State) (d k : Nat) : (s.sendMsix d k).gangs = s.gangs := rfl
@[simp] theorem State.sendMsix_cores (s : State) (d k : Nat) : (s.sendMsix d k).cores = s.cores := rfl
@[simp] theorem State.sendMsix_mem (s : State) (d k : Nat) : (s.sendMsix d k).mem = s.mem := rfl
@[simp] theorem State.sendMsix_poison (s : State) (d k : Nat) : (s.sendMsix d k).poison = s.poison := rfl
@[simp] theorem State.sendMsix_lo (s : State) (d k : Nat) : (s.sendMsix d k).lo = s.lo := rfl
@[simp] theorem State.sendMsix_loTransit (s : State) (d k : Nat) : (s.sendMsix d k).loTransit = s.loTransit := rfl
@[simp] theorem State.sendMsix_writeBacks (s : State) (d k : Nat) : (s.sendMsix d k).writeBacks = s.writeBacks := rfl
@[simp] theorem State.sendMsix_snoops (s : State) (d k : Nat) : (s.sendMsix d k).snoops = s.snoops := rfl
@[simp] theorem State.sendMsix_arrivals (s : State) (d k : Nat) : (s.sendMsix d k).arrivals = s.arrivals := rfl
@[simp] theorem State.sendMsix_seqCounter (s : State) (d k : Nat) : (s.sendMsix d k).seqCounter = s.seqCounter := rfl
@[simp] theorem State.sendMsix_watches (s : State) (d k : Nat) : (s.sendMsix d k).watches = s.watches := rfl
@[simp] theorem State.sendMsix_l2 (s : State) (d k : Nat) : (s.sendMsix d k).l2 = s.l2 := rfl
@[simp] theorem State.sendMsix_modes (s : State) (d k : Nat) : (s.sendMsix d k).modes = s.modes := rfl
@[simp] theorem State.sendMsix_tlb (s : State) (d k : Nat) : (s.sendMsix d k).tlb = s.tlb := rfl
@[simp] theorem State.sendMsix_walkCache (s : State) (d k : Nat) : (s.sendMsix d k).walkCache = s.walkCache := rfl
@[simp] theorem State.sendMsix_queues (s : State) (d k : Nat) : (s.sendMsix d k).queues = s.queues := rfl
@[simp] theorem State.sendMsix_nodes (s : State) (d k : Nat) : (s.sendMsix d k).nodes = s.nodes := rfl
@[simp] theorem State.sendMsix_graphs (s : State) (d k : Nat) : (s.sendMsix d k).graphs = s.graphs := rfl
@[simp] theorem State.sendMsix_landau (s : State) (d k : Nat) : (s.sendMsix d k).landau = s.landau := rfl
@[simp] theorem State.sendMsix_perf (s : State) (d k : Nat) : (s.sendMsix d k).perf = s.perf := rfl
@[simp] theorem State.sendMsix_engines (s : State) (d k : Nat) : (s.sendMsix d k).engines = s.engines := rfl
@[simp] theorem State.sendMsix_rx (s : State) (d k : Nat) : (s.sendMsix d k).rx = s.rx := rfl
@[simp] theorem State.sendMsix_gateQ (s : State) (d k : Nat) : (s.sendMsix d k).gateQ = s.gateQ := rfl
@[simp] theorem State.sendMsix_steps (s : State) (d k : Nat) : (s.sendMsix d k).steps = s.steps := rfl
@[simp] theorem State.sendMsix_reserves (s : State) (d k : Nat) : (s.sendMsix d k).reserves = s.reserves := rfl
@[simp] theorem State.sendMsix_closing (s : State) (d k : Nat) : (s.sendMsix d k).closing = s.closing := rfl
@[simp] theorem State.sendMsix_closeTransit (s : State) (d k : Nat) : (s.sendMsix d k).closeTransit = s.closeTransit := rfl
@[simp] theorem State.sendMsix_reqTransit (s : State) (d k : Nat) : (s.sendMsix d k).reqTransit = s.reqTransit := rfl
@[simp] theorem State.sendMsix_hansomFailed (s : State) (d k : Nat) : (s.sendMsix d k).hansomFailed = s.hansomFailed := rfl
@[simp] theorem State.sendMsix_ports (s : State) (d k : Nat) : (s.sendMsix d k).ports = s.ports := rfl
@[simp] theorem State.sendMsix_dies (s : State) (d k : Nat) : (s.sendMsix d k).dies = s.dies := rfl
@[simp] theorem State.sendMsix_funcmode (s : State) (d k : Nat) : (s.sendMsix d k).funcmode = s.funcmode := rfl
@[simp] theorem State.sendMsix_bootCount (s : State) (d k : Nat) : (s.sendMsix d k).bootCount = s.bootCount := rfl
@[simp] theorem State.sendMsix_quoteCount (s : State) (d k : Nat) : (s.sendMsix d k).quoteCount = s.quoteCount := rfl
@[simp] theorem State.sendMsix_cert (s : State) (d k : Nat) : (s.sendMsix d k).cert = s.cert := rfl
@[simp] theorem State.sendMsix_keys (s : State) (d k : Nat) : (s.sendMsix d k).keys = s.keys := rfl
@[simp] theorem State.sendMsix_fenced (s : State) (d k : Nat) : (s.sendMsix d k).fenced = s.fenced := rfl
@[simp] theorem State.sendMsix_demand (s : State) (d k : Nat) : (s.sendMsix d k).demand = s.demand := rfl
@[simp] theorem State.sendMsix_pendRecs (s : State) (d k : Nat) : (s.sendMsix d k).pendRecs = s.pendRecs := rfl
@[simp] theorem State.sendMsix_openRecs (s : State) (d k : Nat) : (s.sendMsix d k).openRecs = s.openRecs := rfl
@[simp] theorem State.sendMsix_ckpt (s : State) (d k : Nat) : (s.sendMsix d k).ckpt = s.ckpt := rfl
@[simp] theorem State.sendMsix_ckptTable (s : State) (d k : Nat) : (s.sendMsix d k).ckptTable = s.ckptTable := rfl
@[simp] theorem State.sendMsix_msix (s : State) (d k : Nat) : (s.sendMsix d k).msix = s.msix ++ [(d, k)] := rfl
@[simp] theorem State.sendMsix_hostData (s : State) (d k : Nat) : (s.sendMsix d k).hostData = s.hostData := rfl
@[simp] theorem State.sendMsix_inputs (s : State) (d k : Nat) : (s.sendMsix d k).inputs = s.inputs := rfl
@[simp] theorem State.sendMsix_fresh (s : State) (d k : Nat) : (s.sendMsix d k).fresh = s.fresh := rfl
@[simp] theorem State.sendMsix_tick (s : State) (d k : Nat) : (s.sendMsix d k).tick = s.tick := rfl

/-! ### State.progress -/

@[simp] theorem State.progress_vlc (s : State) (g : Nat) : (s.progress g).vlc = s.vlc := rfl
@[simp] theorem State.progress_others (s : State) (g : Nat) : (s.progress g).others = s.others := rfl
@[simp] theorem State.progress_gangs (s : State) (g : Nat) :
    (s.progress g).gangs = s.gangs.map fun x => if x.id = g then { x with wdog := 0 } else x := rfl
@[simp] theorem State.progress_cores (s : State) (g : Nat) : (s.progress g).cores = s.cores := rfl
@[simp] theorem State.progress_mem (s : State) (g : Nat) : (s.progress g).mem = s.mem := rfl
@[simp] theorem State.progress_poison (s : State) (g : Nat) : (s.progress g).poison = s.poison := rfl
@[simp] theorem State.progress_lo (s : State) (g : Nat) : (s.progress g).lo = s.lo := rfl
@[simp] theorem State.progress_loTransit (s : State) (g : Nat) : (s.progress g).loTransit = s.loTransit := rfl
@[simp] theorem State.progress_writeBacks (s : State) (g : Nat) : (s.progress g).writeBacks = s.writeBacks := rfl
@[simp] theorem State.progress_snoops (s : State) (g : Nat) : (s.progress g).snoops = s.snoops := rfl
@[simp] theorem State.progress_arrivals (s : State) (g : Nat) : (s.progress g).arrivals = s.arrivals := rfl
@[simp] theorem State.progress_seqCounter (s : State) (g : Nat) : (s.progress g).seqCounter = s.seqCounter := rfl
@[simp] theorem State.progress_watches (s : State) (g : Nat) : (s.progress g).watches = s.watches := rfl
@[simp] theorem State.progress_l2 (s : State) (g : Nat) : (s.progress g).l2 = s.l2 := rfl
@[simp] theorem State.progress_modes (s : State) (g : Nat) : (s.progress g).modes = s.modes := rfl
@[simp] theorem State.progress_tlb (s : State) (g : Nat) : (s.progress g).tlb = s.tlb := rfl
@[simp] theorem State.progress_walkCache (s : State) (g : Nat) : (s.progress g).walkCache = s.walkCache := rfl
@[simp] theorem State.progress_queues (s : State) (g : Nat) : (s.progress g).queues = s.queues := rfl
@[simp] theorem State.progress_nodes (s : State) (g : Nat) : (s.progress g).nodes = s.nodes := rfl
@[simp] theorem State.progress_graphs (s : State) (g : Nat) : (s.progress g).graphs = s.graphs := rfl
@[simp] theorem State.progress_landau (s : State) (g : Nat) : (s.progress g).landau = s.landau := rfl
@[simp] theorem State.progress_perf (s : State) (g : Nat) : (s.progress g).perf = s.perf := rfl
@[simp] theorem State.progress_engines (s : State) (g : Nat) : (s.progress g).engines = s.engines := rfl
@[simp] theorem State.progress_rx (s : State) (g : Nat) : (s.progress g).rx = s.rx := rfl
@[simp] theorem State.progress_gateQ (s : State) (g : Nat) : (s.progress g).gateQ = s.gateQ := rfl
@[simp] theorem State.progress_steps (s : State) (g : Nat) : (s.progress g).steps = s.steps := rfl
@[simp] theorem State.progress_reserves (s : State) (g : Nat) : (s.progress g).reserves = s.reserves := rfl
@[simp] theorem State.progress_closing (s : State) (g : Nat) : (s.progress g).closing = s.closing := rfl
@[simp] theorem State.progress_closeTransit (s : State) (g : Nat) : (s.progress g).closeTransit = s.closeTransit := rfl
@[simp] theorem State.progress_reqTransit (s : State) (g : Nat) : (s.progress g).reqTransit = s.reqTransit := rfl
@[simp] theorem State.progress_hansomFailed (s : State) (g : Nat) : (s.progress g).hansomFailed = s.hansomFailed := rfl
@[simp] theorem State.progress_ports (s : State) (g : Nat) : (s.progress g).ports = s.ports := rfl
@[simp] theorem State.progress_dies (s : State) (g : Nat) : (s.progress g).dies = s.dies := rfl
@[simp] theorem State.progress_funcmode (s : State) (g : Nat) : (s.progress g).funcmode = s.funcmode := rfl
@[simp] theorem State.progress_bootCount (s : State) (g : Nat) : (s.progress g).bootCount = s.bootCount := rfl
@[simp] theorem State.progress_quoteCount (s : State) (g : Nat) : (s.progress g).quoteCount = s.quoteCount := rfl
@[simp] theorem State.progress_cert (s : State) (g : Nat) : (s.progress g).cert = s.cert := rfl
@[simp] theorem State.progress_keys (s : State) (g : Nat) : (s.progress g).keys = s.keys := rfl
@[simp] theorem State.progress_fenced (s : State) (g : Nat) : (s.progress g).fenced = s.fenced := rfl
@[simp] theorem State.progress_demand (s : State) (g : Nat) : (s.progress g).demand = s.demand := rfl
@[simp] theorem State.progress_pendRecs (s : State) (g : Nat) : (s.progress g).pendRecs = s.pendRecs := rfl
@[simp] theorem State.progress_openRecs (s : State) (g : Nat) : (s.progress g).openRecs = s.openRecs := rfl
@[simp] theorem State.progress_ckpt (s : State) (g : Nat) : (s.progress g).ckpt = s.ckpt := rfl
@[simp] theorem State.progress_ckptTable (s : State) (g : Nat) : (s.progress g).ckptTable = s.ckptTable := rfl
@[simp] theorem State.progress_msix (s : State) (g : Nat) : (s.progress g).msix = s.msix := rfl
@[simp] theorem State.progress_hostData (s : State) (g : Nat) : (s.progress g).hostData = s.hostData := rfl
@[simp] theorem State.progress_inputs (s : State) (g : Nat) : (s.progress g).inputs = s.inputs := rfl
@[simp] theorem State.progress_fresh (s : State) (g : Nat) : (s.progress g).fresh = s.fresh := rfl
@[simp] theorem State.progress_tick (s : State) (g : Nat) : (s.progress g).tick = s.tick := rfl

/-! ### State.clearVstart -/

@[simp] theorem State.clearVstart_vlc (s : State) : (s.clearVstart).vlc = { s.vlc with vstart := 0 } := rfl
@[simp] theorem State.clearVstart_others (s : State) : (s.clearVstart).others = s.others := rfl
@[simp] theorem State.clearVstart_gangs (s : State) : (s.clearVstart).gangs = s.gangs := rfl
@[simp] theorem State.clearVstart_cores (s : State) : (s.clearVstart).cores = s.cores := rfl
@[simp] theorem State.clearVstart_mem (s : State) : (s.clearVstart).mem = s.mem := rfl
@[simp] theorem State.clearVstart_poison (s : State) : (s.clearVstart).poison = s.poison := rfl
@[simp] theorem State.clearVstart_lo (s : State) : (s.clearVstart).lo = s.lo := rfl
@[simp] theorem State.clearVstart_loTransit (s : State) : (s.clearVstart).loTransit = s.loTransit := rfl
@[simp] theorem State.clearVstart_writeBacks (s : State) : (s.clearVstart).writeBacks = s.writeBacks := rfl
@[simp] theorem State.clearVstart_snoops (s : State) : (s.clearVstart).snoops = s.snoops := rfl
@[simp] theorem State.clearVstart_arrivals (s : State) : (s.clearVstart).arrivals = s.arrivals := rfl
@[simp] theorem State.clearVstart_seqCounter (s : State) : (s.clearVstart).seqCounter = s.seqCounter := rfl
@[simp] theorem State.clearVstart_watches (s : State) : (s.clearVstart).watches = s.watches := rfl
@[simp] theorem State.clearVstart_l2 (s : State) : (s.clearVstart).l2 = s.l2 := rfl
@[simp] theorem State.clearVstart_modes (s : State) : (s.clearVstart).modes = s.modes := rfl
@[simp] theorem State.clearVstart_tlb (s : State) : (s.clearVstart).tlb = s.tlb := rfl
@[simp] theorem State.clearVstart_walkCache (s : State) : (s.clearVstart).walkCache = s.walkCache := rfl
@[simp] theorem State.clearVstart_queues (s : State) : (s.clearVstart).queues = s.queues := rfl
@[simp] theorem State.clearVstart_nodes (s : State) : (s.clearVstart).nodes = s.nodes := rfl
@[simp] theorem State.clearVstart_graphs (s : State) : (s.clearVstart).graphs = s.graphs := rfl
@[simp] theorem State.clearVstart_landau (s : State) : (s.clearVstart).landau = s.landau := rfl
@[simp] theorem State.clearVstart_perf (s : State) : (s.clearVstart).perf = s.perf := rfl
@[simp] theorem State.clearVstart_engines (s : State) : (s.clearVstart).engines = s.engines := rfl
@[simp] theorem State.clearVstart_rx (s : State) : (s.clearVstart).rx = s.rx := rfl
@[simp] theorem State.clearVstart_gateQ (s : State) : (s.clearVstart).gateQ = s.gateQ := rfl
@[simp] theorem State.clearVstart_steps (s : State) : (s.clearVstart).steps = s.steps := rfl
@[simp] theorem State.clearVstart_reserves (s : State) : (s.clearVstart).reserves = s.reserves := rfl
@[simp] theorem State.clearVstart_closing (s : State) : (s.clearVstart).closing = s.closing := rfl
@[simp] theorem State.clearVstart_closeTransit (s : State) : (s.clearVstart).closeTransit = s.closeTransit := rfl
@[simp] theorem State.clearVstart_reqTransit (s : State) : (s.clearVstart).reqTransit = s.reqTransit := rfl
@[simp] theorem State.clearVstart_hansomFailed (s : State) : (s.clearVstart).hansomFailed = s.hansomFailed := rfl
@[simp] theorem State.clearVstart_ports (s : State) : (s.clearVstart).ports = s.ports := rfl
@[simp] theorem State.clearVstart_dies (s : State) : (s.clearVstart).dies = s.dies := rfl
@[simp] theorem State.clearVstart_funcmode (s : State) : (s.clearVstart).funcmode = s.funcmode := rfl
@[simp] theorem State.clearVstart_bootCount (s : State) : (s.clearVstart).bootCount = s.bootCount := rfl
@[simp] theorem State.clearVstart_quoteCount (s : State) : (s.clearVstart).quoteCount = s.quoteCount := rfl
@[simp] theorem State.clearVstart_cert (s : State) : (s.clearVstart).cert = s.cert := rfl
@[simp] theorem State.clearVstart_keys (s : State) : (s.clearVstart).keys = s.keys := rfl
@[simp] theorem State.clearVstart_fenced (s : State) : (s.clearVstart).fenced = s.fenced := rfl
@[simp] theorem State.clearVstart_demand (s : State) : (s.clearVstart).demand = s.demand := rfl
@[simp] theorem State.clearVstart_pendRecs (s : State) : (s.clearVstart).pendRecs = s.pendRecs := rfl
@[simp] theorem State.clearVstart_openRecs (s : State) : (s.clearVstart).openRecs = s.openRecs := rfl
@[simp] theorem State.clearVstart_ckpt (s : State) : (s.clearVstart).ckpt = s.ckpt := rfl
@[simp] theorem State.clearVstart_ckptTable (s : State) : (s.clearVstart).ckptTable = s.ckptTable := rfl
@[simp] theorem State.clearVstart_msix (s : State) : (s.clearVstart).msix = s.msix := rfl
@[simp] theorem State.clearVstart_hostData (s : State) : (s.clearVstart).hostData = s.hostData := rfl
@[simp] theorem State.clearVstart_inputs (s : State) : (s.clearVstart).inputs = s.inputs := rfl
@[simp] theorem State.clearVstart_fresh (s : State) : (s.clearVstart).fresh = s.fresh := rfl
@[simp] theorem State.clearVstart_tick (s : State) : (s.clearVstart).tick = s.tick := rfl

/-! ### State.retire -/

@[simp] theorem State.retire_vlc (s : State) (d : Fld) (w : Word) : (s.retire d w).vlc = (s.vlc.wx d w).next := rfl
@[simp] theorem State.retire_others (s : State) (d : Fld) (w : Word) : (s.retire d w).others = s.others := rfl
@[simp] theorem State.retire_gangs (s : State) (d : Fld) (w : Word) : (s.retire d w).gangs = s.gangs := rfl
@[simp] theorem State.retire_cores (s : State) (d : Fld) (w : Word) : (s.retire d w).cores = s.cores := rfl
@[simp] theorem State.retire_mem (s : State) (d : Fld) (w : Word) : (s.retire d w).mem = s.mem := rfl
@[simp] theorem State.retire_poison (s : State) (d : Fld) (w : Word) : (s.retire d w).poison = s.poison := rfl
@[simp] theorem State.retire_lo (s : State) (d : Fld) (w : Word) : (s.retire d w).lo = s.lo := rfl
@[simp] theorem State.retire_loTransit (s : State) (d : Fld) (w : Word) : (s.retire d w).loTransit = s.loTransit := rfl
@[simp] theorem State.retire_writeBacks (s : State) (d : Fld) (w : Word) : (s.retire d w).writeBacks = s.writeBacks := rfl
@[simp] theorem State.retire_snoops (s : State) (d : Fld) (w : Word) : (s.retire d w).snoops = s.snoops := rfl
@[simp] theorem State.retire_arrivals (s : State) (d : Fld) (w : Word) : (s.retire d w).arrivals = s.arrivals := rfl
@[simp] theorem State.retire_seqCounter (s : State) (d : Fld) (w : Word) : (s.retire d w).seqCounter = s.seqCounter := rfl
@[simp] theorem State.retire_watches (s : State) (d : Fld) (w : Word) : (s.retire d w).watches = s.watches := rfl
@[simp] theorem State.retire_l2 (s : State) (d : Fld) (w : Word) : (s.retire d w).l2 = s.l2 := rfl
@[simp] theorem State.retire_modes (s : State) (d : Fld) (w : Word) : (s.retire d w).modes = s.modes := rfl
@[simp] theorem State.retire_tlb (s : State) (d : Fld) (w : Word) : (s.retire d w).tlb = s.tlb := rfl
@[simp] theorem State.retire_walkCache (s : State) (d : Fld) (w : Word) : (s.retire d w).walkCache = s.walkCache := rfl
@[simp] theorem State.retire_queues (s : State) (d : Fld) (w : Word) : (s.retire d w).queues = s.queues := rfl
@[simp] theorem State.retire_nodes (s : State) (d : Fld) (w : Word) : (s.retire d w).nodes = s.nodes := rfl
@[simp] theorem State.retire_graphs (s : State) (d : Fld) (w : Word) : (s.retire d w).graphs = s.graphs := rfl
@[simp] theorem State.retire_landau (s : State) (d : Fld) (w : Word) : (s.retire d w).landau = s.landau := rfl
@[simp] theorem State.retire_perf (s : State) (d : Fld) (w : Word) : (s.retire d w).perf = s.perf := rfl
@[simp] theorem State.retire_engines (s : State) (d : Fld) (w : Word) : (s.retire d w).engines = s.engines := rfl
@[simp] theorem State.retire_rx (s : State) (d : Fld) (w : Word) : (s.retire d w).rx = s.rx := rfl
@[simp] theorem State.retire_gateQ (s : State) (d : Fld) (w : Word) : (s.retire d w).gateQ = s.gateQ := rfl
@[simp] theorem State.retire_steps (s : State) (d : Fld) (w : Word) : (s.retire d w).steps = s.steps := rfl
@[simp] theorem State.retire_reserves (s : State) (d : Fld) (w : Word) : (s.retire d w).reserves = s.reserves := rfl
@[simp] theorem State.retire_closing (s : State) (d : Fld) (w : Word) : (s.retire d w).closing = s.closing := rfl
@[simp] theorem State.retire_closeTransit (s : State) (d : Fld) (w : Word) : (s.retire d w).closeTransit = s.closeTransit := rfl
@[simp] theorem State.retire_reqTransit (s : State) (d : Fld) (w : Word) : (s.retire d w).reqTransit = s.reqTransit := rfl
@[simp] theorem State.retire_hansomFailed (s : State) (d : Fld) (w : Word) : (s.retire d w).hansomFailed = s.hansomFailed := rfl
@[simp] theorem State.retire_ports (s : State) (d : Fld) (w : Word) : (s.retire d w).ports = s.ports := rfl
@[simp] theorem State.retire_dies (s : State) (d : Fld) (w : Word) : (s.retire d w).dies = s.dies := rfl
@[simp] theorem State.retire_funcmode (s : State) (d : Fld) (w : Word) : (s.retire d w).funcmode = s.funcmode := rfl
@[simp] theorem State.retire_bootCount (s : State) (d : Fld) (w : Word) : (s.retire d w).bootCount = s.bootCount := rfl
@[simp] theorem State.retire_quoteCount (s : State) (d : Fld) (w : Word) : (s.retire d w).quoteCount = s.quoteCount := rfl
@[simp] theorem State.retire_cert (s : State) (d : Fld) (w : Word) : (s.retire d w).cert = s.cert := rfl
@[simp] theorem State.retire_keys (s : State) (d : Fld) (w : Word) : (s.retire d w).keys = s.keys := rfl
@[simp] theorem State.retire_fenced (s : State) (d : Fld) (w : Word) : (s.retire d w).fenced = s.fenced := rfl
@[simp] theorem State.retire_demand (s : State) (d : Fld) (w : Word) : (s.retire d w).demand = s.demand := rfl
@[simp] theorem State.retire_pendRecs (s : State) (d : Fld) (w : Word) : (s.retire d w).pendRecs = s.pendRecs := rfl
@[simp] theorem State.retire_openRecs (s : State) (d : Fld) (w : Word) : (s.retire d w).openRecs = s.openRecs := rfl
@[simp] theorem State.retire_ckpt (s : State) (d : Fld) (w : Word) : (s.retire d w).ckpt = s.ckpt := rfl
@[simp] theorem State.retire_ckptTable (s : State) (d : Fld) (w : Word) : (s.retire d w).ckptTable = s.ckptTable := rfl
@[simp] theorem State.retire_msix (s : State) (d : Fld) (w : Word) : (s.retire d w).msix = s.msix := rfl
@[simp] theorem State.retire_hostData (s : State) (d : Fld) (w : Word) : (s.retire d w).hostData = s.hostData := rfl
@[simp] theorem State.retire_inputs (s : State) (d : Fld) (w : Word) : (s.retire d w).inputs = s.inputs := rfl
@[simp] theorem State.retire_fresh (s : State) (d : Fld) (w : Word) : (s.retire d w).fresh = s.fresh := rfl
@[simp] theorem State.retire_tick (s : State) (d : Fld) (w : Word) : (s.retire d w).tick = s.tick := rfl

/-! ### State.pass -/

@[simp] theorem State.pass_vlc (s : State) : (s.pass).vlc = s.vlc.next := rfl
@[simp] theorem State.pass_others (s : State) : (s.pass).others = s.others := rfl
@[simp] theorem State.pass_gangs (s : State) : (s.pass).gangs = s.gangs := rfl
@[simp] theorem State.pass_cores (s : State) : (s.pass).cores = s.cores := rfl
@[simp] theorem State.pass_mem (s : State) : (s.pass).mem = s.mem := rfl
@[simp] theorem State.pass_poison (s : State) : (s.pass).poison = s.poison := rfl
@[simp] theorem State.pass_lo (s : State) : (s.pass).lo = s.lo := rfl
@[simp] theorem State.pass_loTransit (s : State) : (s.pass).loTransit = s.loTransit := rfl
@[simp] theorem State.pass_writeBacks (s : State) : (s.pass).writeBacks = s.writeBacks := rfl
@[simp] theorem State.pass_snoops (s : State) : (s.pass).snoops = s.snoops := rfl
@[simp] theorem State.pass_arrivals (s : State) : (s.pass).arrivals = s.arrivals := rfl
@[simp] theorem State.pass_seqCounter (s : State) : (s.pass).seqCounter = s.seqCounter := rfl
@[simp] theorem State.pass_watches (s : State) : (s.pass).watches = s.watches := rfl
@[simp] theorem State.pass_l2 (s : State) : (s.pass).l2 = s.l2 := rfl
@[simp] theorem State.pass_modes (s : State) : (s.pass).modes = s.modes := rfl
@[simp] theorem State.pass_tlb (s : State) : (s.pass).tlb = s.tlb := rfl
@[simp] theorem State.pass_walkCache (s : State) : (s.pass).walkCache = s.walkCache := rfl
@[simp] theorem State.pass_queues (s : State) : (s.pass).queues = s.queues := rfl
@[simp] theorem State.pass_nodes (s : State) : (s.pass).nodes = s.nodes := rfl
@[simp] theorem State.pass_graphs (s : State) : (s.pass).graphs = s.graphs := rfl
@[simp] theorem State.pass_landau (s : State) : (s.pass).landau = s.landau := rfl
@[simp] theorem State.pass_perf (s : State) : (s.pass).perf = s.perf := rfl
@[simp] theorem State.pass_engines (s : State) : (s.pass).engines = s.engines := rfl
@[simp] theorem State.pass_rx (s : State) : (s.pass).rx = s.rx := rfl
@[simp] theorem State.pass_gateQ (s : State) : (s.pass).gateQ = s.gateQ := rfl
@[simp] theorem State.pass_steps (s : State) : (s.pass).steps = s.steps := rfl
@[simp] theorem State.pass_reserves (s : State) : (s.pass).reserves = s.reserves := rfl
@[simp] theorem State.pass_closing (s : State) : (s.pass).closing = s.closing := rfl
@[simp] theorem State.pass_closeTransit (s : State) : (s.pass).closeTransit = s.closeTransit := rfl
@[simp] theorem State.pass_reqTransit (s : State) : (s.pass).reqTransit = s.reqTransit := rfl
@[simp] theorem State.pass_hansomFailed (s : State) : (s.pass).hansomFailed = s.hansomFailed := rfl
@[simp] theorem State.pass_ports (s : State) : (s.pass).ports = s.ports := rfl
@[simp] theorem State.pass_dies (s : State) : (s.pass).dies = s.dies := rfl
@[simp] theorem State.pass_funcmode (s : State) : (s.pass).funcmode = s.funcmode := rfl
@[simp] theorem State.pass_bootCount (s : State) : (s.pass).bootCount = s.bootCount := rfl
@[simp] theorem State.pass_quoteCount (s : State) : (s.pass).quoteCount = s.quoteCount := rfl
@[simp] theorem State.pass_cert (s : State) : (s.pass).cert = s.cert := rfl
@[simp] theorem State.pass_keys (s : State) : (s.pass).keys = s.keys := rfl
@[simp] theorem State.pass_fenced (s : State) : (s.pass).fenced = s.fenced := rfl
@[simp] theorem State.pass_demand (s : State) : (s.pass).demand = s.demand := rfl
@[simp] theorem State.pass_pendRecs (s : State) : (s.pass).pendRecs = s.pendRecs := rfl
@[simp] theorem State.pass_openRecs (s : State) : (s.pass).openRecs = s.openRecs := rfl
@[simp] theorem State.pass_ckpt (s : State) : (s.pass).ckpt = s.ckpt := rfl
@[simp] theorem State.pass_ckptTable (s : State) : (s.pass).ckptTable = s.ckptTable := rfl
@[simp] theorem State.pass_msix (s : State) : (s.pass).msix = s.msix := rfl
@[simp] theorem State.pass_hostData (s : State) : (s.pass).hostData = s.hostData := rfl
@[simp] theorem State.pass_inputs (s : State) : (s.pass).inputs = s.inputs := rfl
@[simp] theorem State.pass_fresh (s : State) : (s.pass).fresh = s.fresh := rfl
@[simp] theorem State.pass_tick (s : State) : (s.pass).tick = s.tick := rfl

/-! ### Vlc.setX -/

@[simp] theorem Vlc.setX_core (v : Vlc) (n : Nat) (w : Word) :
    (v.setX n w).core = v.core := by unfold Vlc.setX; split <;> rfl
@[simp] theorem Vlc.setX_slot (v : Vlc) (n : Nat) (w : Word) :
    (v.setX n w).slot = v.slot := by unfold Vlc.setX; split <;> rfl
@[simp] theorem Vlc.setX_gang (v : Vlc) (n : Nat) (w : Word) :
    (v.setX n w).gang = v.gang := by unfold Vlc.setX; split <;> rfl
@[simp] theorem Vlc.setX_member (v : Vlc) (n : Nat) (w : Word) :
    (v.setX n w).member = v.member := by unfold Vlc.setX; split <;> rfl
@[simp] theorem Vlc.setX_status (v : Vlc) (n : Nat) (w : Word) :
    (v.setX n w).status = v.status := by unfold Vlc.setX; split <;> rfl
@[simp] theorem Vlc.setX_pc (v : Vlc) (n : Nat) (w : Word) :
    (v.setX n w).pc = v.pc := by unfold Vlc.setX; split <;> rfl
@[simp] theorem Vlc.setX_x (v : Vlc) (n : Nat) (w : Word) :
    (v.setX n w).x = if n = 0 then v.x else v.x.setIfInBounds n w := by unfold Vlc.setX; split <;> rfl
@[simp] theorem Vlc.setX_vf (v : Vlc) (n : Nat) (w : Word) :
    (v.setX n w).vf = v.vf := by unfold Vlc.setX; split <;> rfl
@[simp] theorem Vlc.setX_poison (v : Vlc) (n : Nat) (w : Word) :
    (v.setX n w).poison = v.poison := by unfold Vlc.setX; split <;> rfl
@[simp] theorem Vlc.setX_vl (v : Vlc) (n : Nat) (w : Word) :
    (v.setX n w).vl = v.vl := by unfold Vlc.setX; split <;> rfl
@[simp] theorem Vlc.setX_vt (v : Vlc) (n : Nat) (w : Word) :
    (v.setX n w).vt = v.vt := by unfold Vlc.setX; split <;> rfl
@[simp] theorem Vlc.setX_vstart (v : Vlc) (n : Nat) (w : Word) :
    (v.setX n w).vstart = v.vstart := by unfold Vlc.setX; split <;> rfl
@[simp] theorem Vlc.setX_vidx (v : Vlc) (n : Nat) (w : Word) :
    (v.setX n w).vidx = v.vidx := by unfold Vlc.setX; split <;> rfl
@[simp] theorem Vlc.setX_vrem (v : Vlc) (n : Nat) (w : Word) :
    (v.setX n w).vrem = v.vrem := by unfold Vlc.setX; split <;> rfl
@[simp] theorem Vlc.setX_vscope (v : Vlc) (n : Nat) (w : Word) :
    (v.setX n w).vscope = v.vscope := by unfold Vlc.setX; split <;> rfl
@[simp] theorem Vlc.setX_mvl (v : Vlc) (n : Nat) (w : Word) :
    (v.setX n w).mvl = v.mvl := by unfold Vlc.setX; split <;> rfl
@[simp] theorem Vlc.setX_tsm (v : Vlc) (n : Nat) (w : Word) :
    (v.setX n w).tsm = v.tsm := by unfold Vlc.setX; split <;> rfl
@[simp] theorem Vlc.setX_tsn (v : Vlc) (n : Nat) (w : Word) :
    (v.setX n w).tsn = v.tsn := by unfold Vlc.setX; split <;> rfl
@[simp] theorem Vlc.setX_tsk (v : Vlc) (n : Nat) (w : Word) :
    (v.setX n w).tsk = v.tsk := by unfold Vlc.setX; split <;> rfl
@[simp] theorem Vlc.setX_wins (v : Vlc) (n : Nat) (w : Word) :
    (v.setX n w).wins = v.wins := by unfold Vlc.setX; split <;> rfl
@[simp] theorem Vlc.setX_winv (v : Vlc) (n : Nat) (w : Word) :
    (v.setX n w).winv = v.winv := by unfold Vlc.setX; split <;> rfl
@[simp] theorem Vlc.setX_fflags (v : Vlc) (n : Nat) (w : Word) :
    (v.setX n w).fflags = v.fflags := by unfold Vlc.setX; split <;> rfl
@[simp] theorem Vlc.setX_frm (v : Vlc) (n : Nat) (w : Word) :
    (v.setX n w).frm = v.frm := by unfold Vlc.setX; split <;> rfl
@[simp] theorem Vlc.setX_rot (v : Vlc) (n : Nat) (w : Word) :
    (v.setX n w).rot = v.rot := by unfold Vlc.setX; split <;> rfl
@[simp] theorem Vlc.setX_pseq (v : Vlc) (n : Nat) (w : Word) :
    (v.setX n w).pseq = v.pseq := by unfold Vlc.setX; split <;> rfl
@[simp] theorem Vlc.setX_faultRegs (v : Vlc) (n : Nat) (w : Word) :
    (v.setX n w).faultRegs = v.faultRegs := by unfold Vlc.setX; split <;> rfl
@[simp] theorem Vlc.setX_handlerPc (v : Vlc) (n : Nat) (w : Word) :
    (v.setX n w).handlerPc = v.handlerPc := by unfold Vlc.setX; split <;> rfl
@[simp] theorem Vlc.setX_handlerEn (v : Vlc) (n : Nat) (w : Word) :
    (v.setX n w).handlerEn = v.handlerEn := by unfold Vlc.setX; split <;> rfl
@[simp] theorem Vlc.setX_inHandler (v : Vlc) (n : Nat) (w : Word) :
    (v.setX n w).inHandler = v.inHandler := by unfold Vlc.setX; split <;> rfl
@[simp] theorem Vlc.setX_dvec (v : Vlc) (n : Nat) (w : Word) :
    (v.setX n w).dvec = v.dvec := by unfold Vlc.setX; split <;> rfl
@[simp] theorem Vlc.setX_dcode (v : Vlc) (n : Nat) (w : Word) :
    (v.setX n w).dcode = v.dcode := by unfold Vlc.setX; split <;> rfl
@[simp] theorem Vlc.setX_rpc (v : Vlc) (n : Nat) (w : Word) :
    (v.setX n w).rpc = v.rpc := by unfold Vlc.setX; split <;> rfl
@[simp] theorem Vlc.setX_vq (v : Vlc) (n : Nat) (w : Word) :
    (v.setX n w).vq = v.vq := by unfold Vlc.setX; split <;> rfl
@[simp] theorem Vlc.setX_loop (v : Vlc) (n : Nat) (w : Word) :
    (v.setX n w).loop = v.loop := by unfold Vlc.setX; split <;> rfl
@[simp] theorem Vlc.setX_loopSerial (v : Vlc) (n : Nat) (w : Word) :
    (v.setX n w).loopSerial = v.loopSerial := by unfold Vlc.setX; split <;> rfl
@[simp] theorem Vlc.setX_fan (v : Vlc) (n : Nat) (w : Word) :
    (v.setX n w).fan = v.fan := by unfold Vlc.setX; split <;> rfl
@[simp] theorem Vlc.setX_plans (v : Vlc) (n : Nat) (w : Word) :
    (v.setX n w).plans = v.plans := by unfold Vlc.setX; split <;> rfl
@[simp] theorem Vlc.setX_queuedWait (v : Vlc) (n : Nat) (w : Word) :
    (v.setX n w).queuedWait = v.queuedWait := by unfold Vlc.setX; split <;> rfl
@[simp] theorem Vlc.setX_vwait (v : Vlc) (n : Nat) (w : Word) :
    (v.setX n w).vwait = v.vwait := by unfold Vlc.setX; split <;> rfl
@[simp] theorem Vlc.setX_pendFault (v : Vlc) (n : Nat) (w : Word) :
    (v.setX n w).pendFault = v.pendFault := by unfold Vlc.setX; split <;> rfl
@[simp] theorem Vlc.setX_run (v : Vlc) (n : Nat) (w : Word) :
    (v.setX n w).run = v.run := by unfold Vlc.setX; split <;> rfl
@[simp] theorem Vlc.setX_barrier (v : Vlc) (n : Nat) (w : Word) :
    (v.setX n w).barrier = v.barrier := by unfold Vlc.setX; split <;> rfl
@[simp] theorem Vlc.setX_yielded (v : Vlc) (n : Nat) (w : Word) :
    (v.setX n w).yielded = v.yielded := by unfold Vlc.setX; split <;> rfl
@[simp] theorem Vlc.setX_stepping (v : Vlc) (n : Nat) (w : Word) :
    (v.setX n w).stepping = v.stepping := by unfold Vlc.setX; split <;> rfl
@[simp] theorem Vlc.setX_sched (v : Vlc) (n : Nat) (w : Word) :
    (v.setX n w).sched = v.sched := by unfold Vlc.setX; split <;> rfl

/-! ### Vlc.enterHandler -/

@[simp] theorem enterHandler_core (v : Vlc) (f : FaultInfo) :
    (enterHandler v f).core = v.core := rfl
@[simp] theorem enterHandler_slot (v : Vlc) (f : FaultInfo) :
    (enterHandler v f).slot = v.slot := rfl
@[simp] theorem enterHandler_gang (v : Vlc) (f : FaultInfo) :
    (enterHandler v f).gang = v.gang := rfl
@[simp] theorem enterHandler_member (v : Vlc) (f : FaultInfo) :
    (enterHandler v f).member = v.member := rfl
@[simp] theorem enterHandler_status (v : Vlc) (f : FaultInfo) :
    (enterHandler v f).status = .running := rfl
@[simp] theorem enterHandler_pc (v : Vlc) (f : FaultInfo) :
    (enterHandler v f).pc = v.handlerPc.zeroExtend 64 <<< 2 := rfl
@[simp] theorem enterHandler_x (v : Vlc) (f : FaultInfo) :
    (enterHandler v f).x = v.x := rfl
@[simp] theorem enterHandler_vf (v : Vlc) (f : FaultInfo) :
    (enterHandler v f).vf = v.vf := rfl
@[simp] theorem enterHandler_poison (v : Vlc) (f : FaultInfo) :
    (enterHandler v f).poison = v.poison := rfl
@[simp] theorem enterHandler_vl (v : Vlc) (f : FaultInfo) :
    (enterHandler v f).vl = v.vl := rfl
@[simp] theorem enterHandler_vt (v : Vlc) (f : FaultInfo) :
    (enterHandler v f).vt = v.vt := rfl
@[simp] theorem enterHandler_vstart (v : Vlc) (f : FaultInfo) :
    (enterHandler v f).vstart = v.vstart := rfl
@[simp] theorem enterHandler_vidx (v : Vlc) (f : FaultInfo) :
    (enterHandler v f).vidx = v.vidx := rfl
@[simp] theorem enterHandler_vrem (v : Vlc) (f : FaultInfo) :
    (enterHandler v f).vrem = v.vrem := rfl
@[simp] theorem enterHandler_vscope (v : Vlc) (f : FaultInfo) :
    (enterHandler v f).vscope = v.vscope := rfl
@[simp] theorem enterHandler_mvl (v : Vlc) (f : FaultInfo) :
    (enterHandler v f).mvl = v.mvl := rfl
@[simp] theorem enterHandler_tsm (v : Vlc) (f : FaultInfo) :
    (enterHandler v f).tsm = v.tsm := rfl
@[simp] theorem enterHandler_tsn (v : Vlc) (f : FaultInfo) :
    (enterHandler v f).tsn = v.tsn := rfl
@[simp] theorem enterHandler_tsk (v : Vlc) (f : FaultInfo) :
    (enterHandler v f).tsk = v.tsk := rfl
@[simp] theorem enterHandler_wins (v : Vlc) (f : FaultInfo) :
    (enterHandler v f).wins = v.wins := rfl
@[simp] theorem enterHandler_winv (v : Vlc) (f : FaultInfo) :
    (enterHandler v f).winv = v.winv := rfl
@[simp] theorem enterHandler_fflags (v : Vlc) (f : FaultInfo) :
    (enterHandler v f).fflags = v.fflags := rfl
@[simp] theorem enterHandler_frm (v : Vlc) (f : FaultInfo) :
    (enterHandler v f).frm = v.frm := rfl
@[simp] theorem enterHandler_rot (v : Vlc) (f : FaultInfo) :
    (enterHandler v f).rot = v.rot := rfl
@[simp] theorem enterHandler_pseq (v : Vlc) (f : FaultInfo) :
    (enterHandler v f).pseq = v.pseq := rfl
@[simp] theorem enterHandler_faultRegs (v : Vlc) (f : FaultInfo) :
    (enterHandler v f).faultRegs = faultRegsOf f := rfl
@[simp] theorem enterHandler_handlerPc (v : Vlc) (f : FaultInfo) :
    (enterHandler v f).handlerPc = v.handlerPc := rfl
@[simp] theorem enterHandler_handlerEn (v : Vlc) (f : FaultInfo) :
    (enterHandler v f).handlerEn = false := rfl
@[simp] theorem enterHandler_inHandler (v : Vlc) (f : FaultInfo) :
    (enterHandler v f).inHandler = true := rfl
@[simp] theorem enterHandler_dvec (v : Vlc) (f : FaultInfo) :
    (enterHandler v f).dvec = f.vec := rfl
@[simp] theorem enterHandler_dcode (v : Vlc) (f : FaultInfo) :
    (enterHandler v f).dcode = f.code := rfl
@[simp] theorem enterHandler_rpc (v : Vlc) (f : FaultInfo) :
    (enterHandler v f).rpc = if f.vec then v.pc else f.pc + (if afterCode f.code then 4 else 0) := rfl
@[simp] theorem enterHandler_vq (v : Vlc) (f : FaultInfo) :
    (enterHandler v f).vq = v.vq := rfl
@[simp] theorem enterHandler_loop (v : Vlc) (f : FaultInfo) :
    (enterHandler v f).loop = v.loop := rfl
@[simp] theorem enterHandler_loopSerial (v : Vlc) (f : FaultInfo) :
    (enterHandler v f).loopSerial = v.loopSerial := rfl
@[simp] theorem enterHandler_fan (v : Vlc) (f : FaultInfo) :
    (enterHandler v f).fan = v.fan := rfl
@[simp] theorem enterHandler_plans (v : Vlc) (f : FaultInfo) :
    (enterHandler v f).plans = v.plans := rfl
@[simp] theorem enterHandler_queuedWait (v : Vlc) (f : FaultInfo) :
    (enterHandler v f).queuedWait = false := rfl
@[simp] theorem enterHandler_vwait (v : Vlc) (f : FaultInfo) :
    (enterHandler v f).vwait = v.vwait := rfl
@[simp] theorem enterHandler_pendFault (v : Vlc) (f : FaultInfo) :
    (enterHandler v f).pendFault = v.pendFault := rfl
@[simp] theorem enterHandler_run (v : Vlc) (f : FaultInfo) :
    (enterHandler v f).run = v.run := rfl
@[simp] theorem enterHandler_barrier (v : Vlc) (f : FaultInfo) :
    (enterHandler v f).barrier = v.barrier := rfl
@[simp] theorem enterHandler_yielded (v : Vlc) (f : FaultInfo) :
    (enterHandler v f).yielded = v.yielded := rfl
@[simp] theorem enterHandler_stepping (v : Vlc) (f : FaultInfo) :
    (enterHandler v f).stepping = v.stepping := rfl
@[simp] theorem enterHandler_sched (v : Vlc) (f : FaultInfo) :
    (enterHandler v f).sched = v.sched := rfl

/-! ### Writing through a field -/

theorem Vlc.wx_eq (v : Vlc) (d : Fld) (w : Word) : v.wx d w = v.setX (xNum v.wins d) w := rfl

/-- Reading back a register: the written value at its own number, and every other register as it was; register 0 reads as
zero (R92). -/
theorem Vlc.getX_setX (v : Vlc) (n m : Nat) (w : Word) (hn : n < 256) :
    (v.setX n w).getX m = if m = n ∧ n ≠ 0 then w else v.getX m := by
  unfold Vlc.getX
  by_cases hm : m = 0
  · subst hm
    have : ¬(0 = n ∧ n ≠ 0) := fun h => h.2 h.1.symm
    simp [this]
  · rw [Vlc.setX_x]
    by_cases h0 : n = 0
    · simp [h0, hm]
    · by_cases h : m = n
      · subst h; simp [hm, hn]
      · have h' : ¬ n = m := fun e => h e.symm
        simp [h0, h, hm, h']

/-- A field names one of the 256 scalar registers under every WINS (R51). -/
theorem xNum_lt (wins : Fin 5) (f : Fld) : xNum wins f < 256 := by
  have h1 := f.isLt
  have h2 := wins.isLt
  unfold xNum
  split <;> omega

/-- A field names one of the 256 vector names under every WINV (R51). -/
theorem vNum_lt (winv : Fin 3) (f : Fld) : vNum winv f < 256 := by
  have h1 := f.isLt
  have h2 := winv.isLt
  unfold vNum
  omega

end Sys2Proof.Machine
end

