-- ==== Sys2Proof/Tests/Slice0.lean ====
section
/-! SUPPORT. Tests: ill-formed terms that the checks refuse, words that decode to what the encoding tables say, small results from
the rules, and for every statement of the certificates concrete states and operands that meet its hypotheses. -/

namespace Sys2Proof.Tests

open Sys2Proof.Machine

set_option maxRecDepth 100000
set_option exponentiation.threshold 2000
set_option Elab.async false

/-! ### A small device -/

def leaf (page kind : Nat) : Leaf := ⟨page, 0, kind, true, true, true⟩

def entry (va pa kind : Nat) : TlbEntry := ⟨0, 0, 0, 0, va / 65536, 0, pa, leaf pa kind, leaf pa 1⟩

/-- A gang of two VLCs on core 0, with 64 KiB of LS and the matrix unit. -/
def gang : Gang :=
  { Gang.blank with id := 7, node := 40, queue := 3, cores := [0], lsBase := [0], members := 2, shape := 1 + 2 * 16 + 4 * 256 + 2 ^ 17, st := .resident }

/-- x5 = 0 and x6 = 65536 address an RC page and an LO page, x7 = 2, x8 the LS window. -/
def vlc : Vlc :=
  ((({ Vlc.reset with gang := 7, status := .running, vl := 1 } : Vlc).setX 6 0x10000).setX 7 2).setX 8 0x00FFFF8000000000

def world : State := { State.reset with gangs := [gang], tlb := [entry 0 0x30000 1, entry 0x10000 0x70000 3], vlc := vlc, fresh := 100 }

/-- The device with another VLC at the front. -/
def withVlc (f : Vlc → Vlc) : State := { world with vlc := f vlc }

/-- The device in handler state, and with a busy vector queue. -/
def inHandler : State := withVlc fun v => { v with inHandler := true, handlerEn := false, faultRegs := ⟨0x60, 0, 400, 0⟩, dcode := 0x60, rpc := 404 }

def queued (i : Instr) : VEntry :=
  ⟨i, encode i, 8, 0, 0, 0, 0, 0, 0, 1, Vtype.reset, 0, 0, 4, 0, 0, 0, 0, 0, false, none, none, false, 0⟩

def busy : State := withVlc fun v => { v with vq := [queued (.vadd 0 true 1 2 0)] }

/-! ### Well-formed terms -/

/-- HANDLER is written by `handlerReturn` and has no `ctl` write of its own; a loop has a body; class 0 and 1 are not targets; `vid`
without K has B = 0: the terms that the checks refuse. -/
theorem wf_refuses :
    (Instr.ctlWr 1 2 0x058).wf = false ∧ (Instr.ctlSet 1 2 0x058).wf = false ∧ (Instr.ctlClr 1 2 0x058).wf = false ∧
    (Instr.vloop false 0 5).wf = false ∧ (Instr.vloopw true 0 5).wf = false ∧ (Instr.vcvt 0 (.fp .i false) 4 0).wf = false ∧
    (Instr.vcvt 0 (.fp .n true) 4 0).wf = false ∧ (Instr.vid 0 false 1 2).wf = false := by decide

/-! ### Words, field by field or as the rules of spec/ print them (R49 to R58) -/

theorem decode_scalar :
    decode (0b000001#6 ++ 0b01011#5 ++ 0b0010110#7 ++ 0b0010101#7 ++ 0b0010100#7) = .ok (.mulh 20 21 22) ∧
    decode (0b000001#6 ++ 0b10101#5 ++ 0b0000000#7 ++ 0b0000110#7 ++ 0b0000101#7) = .ok (.clz 5 6) ∧
    decode (0b001100#6 ++ 0b00000#5 ++ 0b0000110#7 ++ 0b0000101#7 ++ 0b0000010#7) = .ok (.beq 5 6 2) ∧
    decode (0x37E0057D : BitVec 32) = .ok (.bne 10 0 0xFFD) := by decide

theorem decode_control :
    decode (0x5C06400A : BitVec 32) = .ok (.ctlRd 10 0x019) ∧ decode (0x5E160280 : BitVec 32) = .ok (.handlerReturn .set 0 5) ∧
    decode (0x60000500 : BitVec 32) = .ok (.trap 10) ∧ decode (0x60608100 : BitVec 32) = .ok (.wbase 2 2) ∧
    decode (0x6120000A : BitVec 32) = .ok (.ctxid 10) := by decide

theorem decode_configuration :
    decode (0b011001#6 ++ 0x9C0#12 ++ 0b0001011#7 ++ 0b0001010#7) = .ok (.vcfgi 10 11 0x9C0) ∧
    decode (0x6803058A : BitVec 32) = .ok (.vcfg 10 11 12) ∧ decode (0x6E00008A : BitVec 32) = .ok (.vloop true 1 10) ∧
    decode (0x6820050B : BitVec 32) = .ok (.mmode 11 10) := by decide

theorem decode_vector :
    decode (0b011111#6 ++ 0b11#2 ++ 0b1#1 ++ 0b10#2 ++ 0b0000110#7 ++ 0b0000010#7 ++ 0b0000100#7) = .ok (.vmacc 3 true 4 2 6) ∧
    decode (0x84E54084 : BitVec 32) = .ok (.vcmple 0 true 4 1 21) ∧ decode (0x94830409 : BitVec 32) = .ok (.vxchg 0 9 8 12) ∧
    decode (0x98188008 : BitVec 32) = .ok (.vcvt 0 (.int false .e8 true) 8 0) ∧
    decode (0x98E48008 : BitVec 32) = .ok (.vid 0 true 8 18) := by decide

/-- K = 0 and B = 1 select the form of `vmv` with a scalar destination (R131). -/
theorem decode_moves :
    decode (0b100010#6 ++ 0b00#2 ++ 0b0#1 ++ 0b01#2 ++ 0b0000001#7 ++ 0b0001000#7 ++ 0b0000101#7) = .ok (.vmvXv 5 8) ∧
    decode (0x9002440A : BitVec 32) = .ok (.vredsum 0 false 10 8 9) ∧ decode (0xA40140C3 : BitVec 32) = .ok (.vcompress 67 1 5) := by decide

theorem decode_memory :
    decode (0x4A7FC505 : BitVec 32) = .ok (.ldI32 5 10 0x1FF) ∧ decode (0x4EE1457E : BitVec 32) = .ok (.st32 5 10 0x3FE) ∧
    decode (0x5003058A : BitVec 32) = .ok (.amoAdd false 10 11 12) ∧ decode (0x5323058A : BitVec 32) = .ok (.amoCas true 10 11 12) ∧
    decode (0x5670458C : BitVec 32) = .ok (.stRel .gang .w64 12 11 1) := by decide

theorem decode_vector_memory :
    decode (0xA922C508 : BitVec 32) = .ok (.vldS 1 8 10 11) ∧ decode (0xA8880508 : BitVec 32) = .ok (.vldSeg 0 2 8 10) ∧
    decode (0xAC430508 : BitVec 32) = .ok (.vstNtf 0 8 10 12) ∧ decode (0xB0200508 : BitVec 32) = .ok (.vstSc 0 8 10) := by decide

theorem decode_tables_and_matrix :
    decode (0xC042C505 : BitVec 32) = .ok (.tidSet 5 10 11) ∧ decode (0xB422C503 : BitVec 32) = .ok (.planMkm 0 3 10 11) ∧
    decode (0xB8630209 : BitVec 32) = .ok (.pscMax 0 9 4 12) ∧ decode (0xC902C500 : BitVec 32) = .ok (.mma 1 0 10 11) ∧
    decode (0xCC614200 : BitVec 32) = .ok (.mwr 0 0 4 5) := by decide

theorem decode_tasks_and_ordering :
    decode (0xD003058A : BitVec 32) = .ok (.spawn 10 11 12) ∧ decode (0xD4424E0A : BitVec 32) = .ok (.coll 10 28 9) ∧
    decode (0xD8230584 : BitVec 32) = .ok (.cwait 4 11 12) ∧ decode (0xDC62C502 : BitVec 32) = .ok (.thint .keep 10 11) ∧
    decode (0x58540000 : BitVec 32) = .ok (.fenceFull .sys) := by decide

/-- Words that R58 lists as illegal. -/
theorem decode_illegal :
    (decode (0x07000000 : BitVec 32)).toOption = none ∧ (decode (0x1B000000 : BitVec 32)).toOption = none ∧
    (decode (0x9C800001 : BitVec 32)).toOption = none ∧ (decode (0xE4000000 : BitVec 32)).toOption = none := by decide

/-! ### Encoding, decoding and the step: what the statements assume -/

theorem witness_EncodeDecodeRoundTrip : (Instr.vstNtf 3 127 8 5).wf = true ∧ (Instr.vstNtf 3 127 8 5).hasWord = true := by decide

theorem witness_DecodeEncodeRoundTrip : decode (0xAC430508 : BitVec 32) = .ok (.vstNtf 0 8 10 12) := by decide

/-- A word at the VLC's pc. -/
def placed (w : Nat) : State := { world with mem := memWrite [] 0x30000 4 w }

theorem witness_StepRunsDecoded :
    (placed 0x0403450A).inputs = [] ∧ (placed 0x0403450A).tick % 2 = 0 ∧ (placed 0x0403450A).gangs.find? watchdogDue = none ∧
    (placed 0x0403450A).vlc.pendFault = none ∧ canIssue (placed 0x0403450A) (placed 0x0403450A).vlc = true ∧
    (placed 0x0403450A).vlc.yielded = false ∧ (placed 0x0403450A).vlc.vq = [] ∧
    (fetchWord (placed 0x0403450A)).2 = .ok 0x0403450A ∧ decode (0x0403450A : BitVec 32) = .ok (.add 10 10 13) ∧
    (∃ u, exec (.add 10 10 13) (placed 0x0403450A) = .next u ∧ issuedBy (.add 10 10 13) (placed 0x0403450A) u = true) := by
  refine ⟨rfl, rfl, by decide +kernel, rfl, by decide +kernel, rfl, rfl, by decide +kernel, by decide, _, rfl, by decide +kernel⟩

/-- The word 0 is no instruction: it raises the illegal-instruction fault. -/
theorem witness_StepRunsDecoded_illegal :
    (fetchWord (placed 0)).2 = .ok 0 ∧ (∃ e, decode (0 : BitVec 32) = .error e) ∧ ∃ u, exec (.illegalWord 0) (placed 0) = .next u :=
  ⟨by decide +kernel, ⟨_, rfl⟩, _, rfl⟩

theorem witness_PlacedWordIsFetched :
    0x0403450A < 2 ^ 32 ∧ (State.reset.die (coreDie State.reset.vlc.core)).throttle = false ∧ TablesOk State.reset ∧
    l2Holds (({ State.reset with l2 := [⟨0, 0, 0, .normal, [], 0, 0, 0⟩] } : State).withFetchWord 32 0x0403450A) 0 0 = true := by
  decide +kernel

/-! ### The invariants -/

theorem witness_StepKeepsMemoryCanonical : Memory.wf (placed 0x0403450A).mem = true := by decide +kernel

theorem tablesOk : TablesOk world := by unfold TablesOk; decide +kernel

theorem cachesOk : CachesOk world := fun _ => ⟨List.nodup_nil, fun _ h => nomatch h⟩

/-- Where no core holds a line, nothing is in transit and nothing is poisoned, a core sees what stands at the homes. -/
theorem coherent {s : State} (c : Nat) (h1 : ∀ k, (s.core k).l1 = []) (h2 : s.snoops = []) (h3 : s.poison = []) (h4 : s.writeBacks = []) :
    Coherent s c := by
  refine ⟨fun x hx => by simp [h2] at hx, ⟨h3, fun k l hl => by simp [h1] at hl, fun w hw => by simp [h4] at hw⟩, fun d k => ?_⟩
  cases d <;> simp [seenByte, homeByte, findLine, h1]

theorem kindHeld {s : State} (c : Nat) (d : Dest) (h1 : ∀ k, (s.core k).l1 = []) (h4 : s.writeBacks = []) : KindHeld s c d := by
  cases d with
  | ls _ _ => trivial
  | phys pa kind => exact fun _ _ => ⟨fun l hl => by simp [findLine, h1] at hl, fun w hw => by simp [h4] at hw⟩

theorem onlyCaches (s : State) : OnlyCaches s s := ⟨rfl, fun _ => rfl⟩

theorem fewSent {s : State} (c : Nat) (h : s.core c = CoreSt.reset) : FewSent s c := fun _ => by
  rw [h]
  exact (by decide : 0 + 0 + 8192 < 2 ^ 32 - 1)

theorem noSnoops : NoSnoops world 0 := fun _ h => nomatch h

/-- A core without lines holds no dirty byte of an SO line. -/
theorem soClean {s : State} (c : Nat) (h : ∀ k, (s.core k).l1 = []) : SoClean s c := fun k _ l hl _ => by rw [h k] at hl; exact nomatch hl

theorem worldCoherent : Coherent world 0 := coherent 0 (fun _ => rfl) rfl rfl rfl

theorem cachesPlaced : CachesPlaced world 0 := And.intro (fun _ _ _ h => nomatch h) (fun _ h => nomatch h)

theorem worldHolds (d : Dest) : KindHeld world 0 d := kindHeld 0 d (fun _ => rfl) rfl

theorem witness_StepKeepsTables : TablesOk (placed 0x0403450A) ∧ ∃ t, exec (.add 10 10 13) (placed 0x0403450A) = .next t :=
  ⟨by unfold TablesOk; decide +kernel, _, rfl⟩

theorem witness_StepKeepsCaches : TablesOk world ∧ CachesOk world := ⟨tablesOk, cachesOk⟩

/-! ### The scalar unit -/

theorem witness_ScalarResult :
    scalarValue (.addi 10 7 0xFFF) vlc = some (10, 1) ∧ scalarValue (.flimm .fp16 10 0x3E00) vlc = some (10, 0x3FC00000) := by
  decide +kernel

/-- Both ways a branch goes. -/
theorem witness_BranchesAndJumps :
    branchOf (.beq 5 0 0x7FF) vlc = some (true, 0x7FF) ∧ branchOf (.bltn 7 5 1) vlc = some (false, 1) ∧
    ((vlc.rx 6 + (1 : BitVec 12).signExtend 64 * 4).extractLsb' 0 2 = 0) ∧
    ((vlc.rx 7 + (1 : BitVec 12).signExtend 64 * 4).extractLsb' 0 2 ≠ 0 ∧ vlc.vq = []) := by decide +kernel

/-! ### Vector registers -/

theorem ready : VecReady vlc := ⟨rfl, rfl, rfl, rfl, rfl, nofun⟩

theorem running : VecRunning vlc := ⟨ready, by decide, rfl, .inl rfl⟩

/-- Element-wise arithmetic with a scalar, at the last group of the file, and a widening sum. -/
theorem witness_VectorArithmetic :
    (∃ r, arithmeticRule (.vadd 0 true 127 2 7) vlc = some r ∧ r.ok) ∧ (∃ r, widthRule (.vwadd 0 false 4 2 3) vlc = some r ∧ r.ok) ∧
    (∃ r, widthRule (.vnclip 0 true 4 2 7) vlc = some r ∧ r.ok) ∧ VecRunning vlc :=
  ⟨⟨_, rfl, by decide, by decide, by decide, by decide, by decide⟩, ⟨_, rfl, by decide, by decide, by decide, by decide, .inr (by decide),
    fun _ => ⟨by decide, .inr (by decide), by decide⟩, by decide⟩, ⟨_, rfl, by decide, by decide, by decide, .inr (.inr (by decide)), by decide⟩, running⟩

theorem witness_VectorMovement :
    (∃ r, movementRule (.vmerge 1 false 4 2 3) vlc = some r ∧ r.ok) ∧ (∃ r, movementRule (.vid 0 true 4 7) vlc = some r ∧ r.ok) ∧
    (∃ r, movementRule (.vslup 0 4 2 7) vlc = some r ∧ r.ok) ∧ VecRunning vlc :=
  ⟨⟨_, rfl, by decide, by decide, fun _ => ⟨by decide, by decide⟩⟩, ⟨_, rfl, by decide, by decide⟩,
    ⟨_, rfl, by decide, by decide, .inr (by decide), trivial⟩, running⟩

/-- FP32 elements under ROT with blocks of 16, and integers of 8 bits. -/
def turning : State := withVlc fun v => { v with vt := { v.vt with cls := .fp32 }, rot := 32, vl := 16 }

def bytes : State := withVlc fun v => { v with vt := { v.vt with sew := .e8, mew := .e8 }, vl := 5 }

theorem witness_VectorBlocks :
    (∃ r, rotationRule (.vrot 0 4 2) turning = some r ∧ r.ok) ∧ VecRunning turning.vlc ∧ (dotRule 0 4 2 3 bytes.vlc).ok ∧
    VecRunning bytes.vlc ∧ (expandRule 4 2 15 vlc).ok ∧ vlc.vstart = 0 :=
  ⟨⟨_, rfl, by decide, by decide, by decide⟩, ⟨⟨rfl, rfl, rfl, rfl, rfl, nofun⟩, by decide, rfl, .inl rfl⟩,
    ⟨.inl (by decide), by decide, by decide, by decide, by decide⟩, ⟨⟨rfl, rfl, rfl, rfl, rfl, nofun⟩, by decide, rfl, .inl rfl⟩,
    ⟨by decide, by decide, by decide, .inr (by decide)⟩, rfl⟩

theorem witness_PredicateResults :
    (∃ r, compareRule (.vcmplt 0 true 15 2 7) vlc = some r ∧ r.ok) ∧
    (∃ ok b, predicateRule (.pandn 0 15 1 2) vlc = some (0, 15, ok, b) ∧ ok) ∧
    (∃ ok b, predicateRule (.psif 1 15 2) vlc = some (1, 15, ok, b) ∧ ok) ∧
    (∃ ok w, scanRule (.pfirst 0 5 15) vlc = some (5, ok, w) ∧ ok) ∧ VecRunning vlc ∧ vlc.vstart = 0 :=
  ⟨⟨_, rfl, by decide, by decide, by decide, by decide⟩, ⟨_, _, rfl, by decide, by decide, by decide⟩,
    ⟨_, _, rfl, by decide, by decide, by decide⟩, ⟨_, _, rfl, by decide⟩, running, rfl⟩

theorem witness_VectorListResults :
    (∃ r, listRule (.vredsum 0 true 4 2 7) vlc = some r ∧ r.ok) ∧ (∃ r, listRule (.vcidx 4 7 15) vlc = some r ∧ r.ok) ∧
    (clsRange vlc.vt.cls 0 4 ∧ 16 ≤ vlc.vt.sew.bits ∧ groupOk (vNum vlc.winv 4) 1 ∧ groupOk (vNum vlc.winv 2) 1 ∧
      apart (vNum vlc.winv 4) 1 (vNum vlc.winv 2) 1) ∧ VecRunning vlc ∧ vlc.vstart = 0 ∧ vlc.poison = [] :=
  ⟨⟨_, rfl, by decide, by decide, by decide, .inr (by decide), by decide⟩, ⟨_, rfl, by decide, by decide, by decide, by decide⟩,
    ⟨by decide, by decide, by decide, by decide, .inr (by decide)⟩, running, rfl, rfl⟩

/-! ### Scalar memory, releases and fences -/

theorem witness_ScalarLoad :
    loadForm (.ldI32 4 5 0x1FF) (vlc.setX 5 4) = some (4, true, 4, 0) ∧ loadForm (.ld64 4 8 1) vlc = some (8, false, 4, 0x00FFFF8000000008) ∧
    access world world.me .load 0 4 .read = (world, .ok (.phys 0x30000 1)) ∧
    access world world.me .load 0x00FFFF8000000008 8 .read = (world, .ok (.ls 0 8)) ∧ (Dest.ls 0 8).pa % 8 = 0 ∧
    TablesOk world ∧ NoSnoops world 0 :=
  ⟨by decide +kernel, by decide +kernel, rfl, rfl, by decide, tablesOk, noSnoops⟩

/-- A store to an RC page, and one to an LO cell. -/
theorem witness_ScalarStore :
    storeForm (.st8 7 5 0) vlc = some (1, 7, 0) ∧ access world world.me .store 0 1 .write = (world, .ok (.phys 0x30000 1)) ∧
    (Dest.phys 0x30000 1).isLo = false ∧ storeForm (.st64 7 6 0) vlc = some (8, 7, 0x10000) ∧
    access world world.me .store 0x10000 8 .write = (world, .ok (.phys 0x70000 3)) ∧ (Dest.phys 0x70000 3).isLo = true ∧
    TablesOk world ∧ CachesOk world ∧ NoSnoops world 0 ∧ KindHeld world 0 (.phys 0x30000 1) ∧ KindHeld world 0 (.phys 0x70000 3) :=
  ⟨by decide +kernel, rfl, rfl, by decide +kernel, rfl, rfl, tablesOk, cachesOk, noSnoops, worldHolds _, worldHolds _⟩

theorem witness_AtomicUpdate :
    (∃ f, atomicForm (.amoMin true 4 5 7) = some (4, true, 4, 5, 7, f)) ∧
    access world world.me .atomic (vlc.rx 5) 4 .atomic = (world, .ok (.phys 0x30000 1)) ∧ TablesOk world ∧
    access world world.me .counter (vlc.rx 5) 8 .atomic = (world, .ok (.phys 0x30000 1)) ∧
    access world world.me .cread (vlc.rx 6) 8 .read = (world, .ok (.phys 0x70000 3)) ∧ (5 : BitVec 7).toNat < 6 ∧
    access world world.me .counter (vlc.rx 5) 8 .read = (world, .ok (.phys 0x30000 1)) ∧
    access world world.me .pwait (vlc.rx 6) 8 .read = (world, .ok (.phys 0x70000 3)) ∧ SoClean world 0 :=
  ⟨⟨_, rfl⟩, rfl, tablesOk, rfl, rfl, by decide, rfl, rfl, soClean 0 fun _ => rfl⟩

theorem witness_AcquireLoadReleaseStore :
    accessIn .plain world world.me .load (vlc.rx 5 + (0 : BitVec 6).signExtend 64 * BitVec.ofNat 64 8) 8 .read
      = (world, .ok (.phys 0x30000 1)) ∧
    accessIn .bypass world world.me .load (vlc.rx 5 + (0 : BitVec 6).signExtend 64 * BitVec.ofNat 64 1) 1 .read
      = (world, .ok (.phys 0x30000 1)) ∧
    access world world.me .store (vlc.rx 5 + (0 : BitVec 6).signExtend 64 * BitVec.ofNat 64 8) 8 .write
      = (world, .ok (.phys 0x30000 1)) ∧
    access world world.me .store (vlc.rx 6 + (0 : BitVec 6).signExtend 64 * BitVec.ofNat 64 8) 8 .write
      = (world, .ok (.phys 0x70000 3)) ∧ leavesL1 world 0 .dev ∧ TablesOk world ∧ NoSnoops world 0 ∧
    CachesOk world ∧ KindHeld world 0 (.phys 0x30000 1) ∧ KindHeld world 0 (.phys 0x70000 3) ∧ FewSent world 0 :=
  ⟨rfl, rfl, rfl, rfl, by decide +kernel, tablesOk, noSnoops, cachesOk, worldHolds _, worldHolds _, fewSent 0 rfl⟩

/-- A VLC whose queue holds a load. -/
def fetching : State := withVlc fun v => { v with vq := [queued (.vadd 0 true 1 2 0), queued (.vld 0 1 5)] }

/-- Queued arithmetic holds no fence; a queued load holds one, but not in handler state. -/
theorem witness_FenceEffects :
    NoVectorAccess vlc ∧ NoVectorAccess busy.vlc ∧ ¬ NoVectorAccess fetching.vlc ∧ fetching.vlc.inHandler = false ∧
    inHandler.vlc.inHandler = true ∧ TablesOk world ∧ leavesL1 world 0 .gang ∧ ¬ leavesL1 world 0 .ctx ∧
    (∀ c, ((world.core c).l1.map (·.line)).Nodup) ∧ CachesPlaced world 0 ∧ NoSnoops world 0 ∧ FewSent world 0 :=
  ⟨by decide +kernel, by decide +kernel, by decide +kernel, rfl, rfl, tablesOk, by decide +kernel, by decide +kernel, fun c => (cachesOk c).1, cachesPlaced, noSnoops,
    fewSent 0 rfl⟩

theorem witness_AccessKeepsRegisters :
    (tlbFind world world.me 0xFFFF).isSome = true ∧ 0x00FFFF8000000000 ≤ (vlc.rx 8).toNat := by decide +kernel

/-! ### Control registers and system instructions -/

/-- A VLC whose sequence counter stands at 9: a smaller value is refused (R346). -/
def counted : State := withVlc fun v => { v with pseq := 9 }

/-- A read-only register, an accepted and a refused write on the scalar path, and an accepted and a refused write on the queue path. -/
theorem witness_CtlAccess :
    ctlForm (.ctlRd 4 0x000) = some (.rd, 4, 0, 0) ∧ ctlFixed 0x1FF ∧ ctlKnown 0x1FF ∧ ¬ ctlOnQueue 0x019 ∧
    ctlForm (.ctlWr 4 7 0x019) = some (.wr, 4, 7, 0x019) ∧ ctlKnown 0x019 ∧ ¬ ctlFixed 0x019 ∧
    ctlAccepts world 0x019 (ctlResult .wr (ctlGet world 0x019) (vlc.rx 7)) ∧
    ¬ ctlAccepts world 0x019 (ctlResult .wr (ctlGet world 0x019) 5) ∧ (world.findGang vlc.gang).isSome = true ∧
    ctlForm (.ctlSet 4 7 0x002) = some (.set, 4, 7, 2) ∧ ctlOnQueue 0x002 ∧ VecReady vlc ∧
    ctlAccepts world 0x002 (ctlResult .set (ctlGet world 0x002) (vlc.rx 7)) ∧
    (ctlForm (.ctlWr 4 7 0x040) = some (.wr, 4, 7, 0x040) ∧ ctlOnQueue 0x040 ∧ ctlKnown 0x040 ∧ ¬ ctlFixed 0x040 ∧ VecReady counted.vlc ∧
      (counted.findGang counted.vlc.gang).isSome = true ∧
      ¬ ctlAccepts counted 0x040 (ctlResult .wr (ctlGet counted 0x040) (counted.vlc.rx 7)) ∧
      ∀ x ∈ (counted.core counted.vlc.core).feq, x.2 ≠ counted.vlc.slot) :=
  ⟨rfl, by decide, by decide, by decide, rfl, by decide, by decide, (show (ctlResult .wr (ctlGet world 25) (vlc.rx 7) &&& ctlMask 25).toNat < 5 by decide +kernel),
    (show ¬ (ctlResult .wr (ctlGet world 25) 5 &&& ctlMask 25).toNat < 5 by decide +kernel), rfl, rfl, by decide,
    ready, trivial, ⟨rfl, by decide, by decide, by decide, ⟨rfl, rfl, rfl, rfl, rfl, nofun⟩, rfl,
      (show ¬ counted.vlc.pseq.toNat ≤ (ctlResult .wr (ctlGet counted 64) (counted.vlc.rx 7) &&& ctlMask 64).toNat by decide +kernel), nofun⟩⟩

/-- The largest window bases, and the first that are none. -/
theorem witness_SystemInstructions :
    (4 : Fld).toNat = (4 : Fin 5).val ∧ (2 : Fld).toNat = (2 : Fin 3).val ∧ 4 < (5 : Fld).toNat ∧
    ((4 : Fld).toNat ≤ 4 ∧ 2 < (3 : Fld).toNat) ∧ vlc.vq = [] ∧ vlc.core < 576 ∧ vlc.slot < 4 := by decide +kernel

/-- One of two members, and the last member of a gang. -/
theorem witness_VlcsRetire :
    world.findGang vlc.gang = some gang ∧ vlc.vq = [] ∧ vlc.inHandler = false ∧ vlc.member < 32 ∧ TablesOk world ∧ gang.st = .resident ∧
    (∃ m, m < gang.members ∧ (gang.exited ||| BitVec.twoPow 32 vlc.member).getLsbD m = false) ∧
    (∀ m, m < ({ gang with members := 1 } : Gang).members → (gang.exited ||| BitVec.twoPow 32 vlc.member).getLsbD m = true) ∧
    (busy.vlc.vq ≠ [] ∧ busy.vlc.inHandler = false) ∧ gang.members ≤ 32 ∧ vlc.status = .running :=
  ⟨rfl, rfl, rfl, by decide, tablesOk, rfl, ⟨1, by decide⟩, by decide, ⟨nofun, rfl⟩, by decide, rfl⟩

/-! ### Faults and the handler -/

def armed : State := withVlc fun v => { v with handlerEn := true, handlerPc := 100 }

theorem witness_FaultEntersHandler :
    armed.vlc.handlerEn = true ∧ ¬ (((0x60 : BitVec 8) = 0x10 ∨ (0x60 : BitVec 8) = 0x11) ∧ (0 : Word).extractLsb' 2 2 = 2) ∧
    ¬ (((0x14 : BitVec 8) = 0x10 ∨ (0x14 : BitVec 8) = 0x11) ∧ (8 : Word).extractLsb' 2 2 = 2) := by decide

/-- No handler, and a translation fault of a stage that the host answers whatever HANDLER holds. -/
theorem witness_FaultGoesToHost :
    world.findGang vlc.gang = some gang ∧ vlc.core < 576 ∧ vlc.slot < 4 ∧ (0x60 : BitVec 8) ≠ 0x14 ∧ vlc.handlerEn = false ∧
    (armed.vlc.handlerEn = true ∧ ((0x10 : BitVec 8) = 0x10 ∨ (0x10 : BitVec 8) = 0x11) ∧ (8 : Word).extractLsb' 2 2 = 2) ∧
    NotHalting world :=
  ⟨rfl, by decide, by decide, by decide, rfl, ⟨rfl, by decide⟩, nofun⟩

theorem witness_TrapsRaise :
    raises (.trap 7) vlc = some (0x60, 2) ∧ raises .ebreak vlc = some (0x61, 0) ∧ raises (.illegalWord 0) vlc = some (0x01, 0) ∧
    vlc.vq = [] ∧ (busy.vlc.vq ≠ [] ∧ busy.vlc.inHandler = false) ∧ inHandler.vlc.inHandler = true ∧
    (Instr.vadd 0 true 4 2 7).wf = true ∧ entersQueue (.vadd 0 true 4 2 7) = true ∧ (Instr.vloop true 1 7).wf = true :=
  ⟨by decide +kernel, rfl, rfl, rfl, ⟨nofun, rfl⟩, rfl, by decide, by decide, by decide⟩

/-- EN written as 1 in handler state, and as 0; a firmware gang. -/
theorem witness_HandlerReturns :
    (inHandler.vlc.inHandler = true ∧ (ctlResult .set (ctlGet inHandler 0x058) 1).getLsbD 0 = true) ∧
    (ctlResult .clr (ctlGet armed 0x058) 1).getLsbD 0 = false ∧ armed.vlc.inHandler = false ∧
    (({ inHandler with gangs := [{ gang with firmware := true }] } : State).gang.firmware = true) ∧
    (world.gang.firmware = false ∧ vlc.vq = []) := by decide +kernel

/-! ### Vector configuration, strip loops and matrix mode -/

def looping : Vlc := { vlc with loop := some ⟨16, 2, false, true, 0, 1, 0⟩, vrem := 3, pc := 20 }

/-- 8-bit integers in groups of eight names (VLMAX 2048), and FP32 in 8-bit elements, which fails; a loop that is entered and one that
is left at once; a branch back into the body, one out of it, and both ends of a strip. -/
theorem witness_ConfigurationAndStrips :
    (∃ t : Vtype, t.word = ((0x9C0 : BitVec 12).extractLsb' 9 3 ++ (0x9C0 : BitVec 12)).setWidth 64 ∧ t.cls.isFp = false) ∧
    (∃ t : Vtype, t.word = 0x2402 ∧ t.cls.isFp = true ∧ t.sew.bits ≠ t.cls.container) ∧
    (1 : BitVec 16) ≠ 0 ∧ vlc.inHandler = false ∧ vlc.loop = none ∧ vlc.rx 5 = 0 ∧ vlc.rx 7 ≠ 0 ∧ (looping.loop ≠ none ∧ looping.vq = []) ∧
    (∃ l, looping.loop = some l ∧ 0 < l.len ∧ l.len < 65536 ∧ l.after = 24 ∧ (16 : Word) ≠ l.after ∧ ((16 : Word) - l.start).toNat < 4 * l.len ∧
      ¬ ((28 : Word) - l.start).toNat < 4 * l.len ∧ looping.vrem - BitVec.ofNat 64 l.handed ≠ 0 ∧
      (1 : Word) - BitVec.ofNat 64 l.handed = 0) :=
  ⟨⟨⟨.e32, .e32, 3, .dead, false, .i⟩, by decide, rfl⟩, ⟨⟨.e8, .e8, 0, .undisturbed, false, .fp32⟩, by decide, rfl, by decide⟩, by decide,
    rfl, rfl, by decide +kernel, by decide +kernel, ⟨nofun, rfl⟩, ⟨_, rfl, by decide⟩⟩

theorem witness_MatrixModeAndShape :
    shapeMatrix world.gang.shape = true ∧ (vlc.setX 9 64).rx 9 = 64 ∧
    ((CoreSt.reset.accOwner ≠ some 0 ∧ (world.core 0).accOwner = none) ∧ ({ CoreSt.reset with accOwner := some 1 } : CoreSt).accOwner ≠ some 0) ∧
    shapeMatrix (2 : BitVec 18) = false ∧ ¬ (vlc.rx 7 = 16 ∨ vlc.rx 7 = 32 ∨ vlc.rx 7 = 64) ∧ vlc.vq = [] ∧ vlc.inHandler = false ∧
    (({ world with cores := [(0, { CoreSt.reset with accOwner := some 0 })] } : State).core vlc.core).accOwner = some vlc.slot ∧ VecReady vlc ∧
    ({ vlc with mvl := 16 } : Vlc).mvl ≠ 0 ∧ vlc.mvl = 0 :=
  ⟨by decide +kernel, by decide +kernel, ⟨⟨by decide, rfl⟩, by decide⟩, by decide, by decide +kernel, rfl, rfl, rfl, ready, by decide, rfl⟩

/-! ### Vector memory -/

/-- An instruction of one element is placed when its first element is. -/
theorem placed_one {s : State} {m : Mode} {rule : AccRule} {acc : Acc} {r : MemRule} {p : Nat → Nat → Dest} {j : Nat} (hv : s.vlc.vl = 1)
    (hf : r.fields = 1) (h : accessIn m s s.me rule (r.va 0 0) (dataBytes s.vlc) acc = (s, .ok (p 0 0)))
    (ha : (p 0 0).pa % dataBytes s.vlc = 0) : Placed s m rule acc r p j := by
  intro i f hi _
  obtain ⟨-, hi, -, hk⟩ := hi
  obtain rfl : i = 0 := by omega
  obtain rfl : f = 0 := by omega
  exact ⟨h, ha⟩

def rc (_ _ : Nat) : Dest := .phys 0x30000 1

/-- Through the L1, at the home, and in the one order of sequentially consistent accesses. -/
theorem witness_VectorLoads :
    (∃ r, memRule (.vld 0 127 5) vlc = some r ∧ throughL1 (.vld 0 127 5) vlc = some .load ∧ r.ok ∧ Placed world .plain .load .read r rc 1) ∧
    (∃ r, memRule (.vldSeg 0 0 127 5) vlc = some r ∧ throughL1 (.vldSeg 0 0 127 5) vlc = some .load ∧ r.ok ∧
      Placed world .plain .load .read r rc 1) ∧
    (∃ r, memRule (.vldNc 0 127 5) vlc = some r ∧ atHome (.vldNc 0 127 5) vlc = some .load ∧ r.ok ∧ Placed world .bypass .load .read r rc 1) ∧
    (∃ r, memRule (.vldSc 0 127 5) vlc = some r ∧ atHome (.vldSc 0 127 5) vlc = some .sc ∧ r.ok ∧ Placed world .bypass .sc .read r rc 1) ∧
    VecRunning vlc ∧ TablesOk world ∧ CachesOk world ∧ NoSnoops world 0 ∧ NoPoison world ∧ world.ckpt = none ∧ world.isFenced 0 8 0 = false :=
  ⟨⟨_, rfl, rfl, ⟨⟨nofun, by decide, by decide⟩, .inl trivial⟩, placed_one rfl rfl rfl (by decide)⟩,
    ⟨_, rfl, rfl, ⟨⟨nofun, by decide, by decide⟩, by decide⟩, placed_one rfl rfl rfl (by decide)⟩,
    ⟨_, rfl, rfl, ⟨⟨nofun, by decide, by decide⟩, .inl trivial⟩, placed_one rfl rfl rfl (by decide)⟩,
    ⟨_, rfl, rfl, ⟨⟨nofun, by decide, by decide⟩, .inr (by decide)⟩, placed_one rfl rfl rfl (by decide)⟩, running, tablesOk, cachesOk, noSnoops,
    worldCoherent.2.1, rfl, rfl⟩

/-- Two elements, the second on the LO page, where a 4-byte access is refused. -/
def straddling : State := withVlc fun v => { v.setX 5 0xFFFC with vl := 2 }

/-- Granule 0 of core 0 is full. -/
def full : State := { world with cores := [(0, { CoreSt.reset with fe := [0] })] }

theorem witness_PartialVectorLoads :
    (∃ r, memRule (.vldFf 0 4 5 9) vlc = some r ∧ r.ok ∧ Placed world .plain .load .read r rc 1) ∧
    (∃ r, memRule (.vldFf 0 4 5 9) straddling.vlc = some r ∧ r.ok ∧ Placed straddling .plain .load .read r (fun _ _ => .phys 0x3FFFC 1) 1 ∧
      ActsOn straddling.vlc r 1 0 ∧ ActsOn straddling.vlc r 0 0 ∧
      ∃ e, access straddling straddling.me .load (r.va 1 0) (dataBytes straddling.vlc) .read = (straddling, .error e)) ∧
    VecRunning straddling.vlc ∧ TablesOk straddling ∧ CachesOk straddling ∧ NoSnoops straddling 0 ∧ straddling.poison = [] ∧
    (∃ r, memRule (.vldFec 0 4 8) full.vlc = some r ∧ r.ok ∧ Placed full .plain .fe .read r (fun _ _ => .ls 0 0) 1 ∧ TablesOk full ∧
      VecRunning full.vlc ∧ feServed full 0 0 0 = true ∧
      ∀ i j, ActsOn full.vlc r i 0 → ActsOn full.vlc r j 0 → i ≠ j → (0 : Nat) / 16 ≠ 0 / 16) := by
  refine ⟨⟨_, rfl, ⟨⟨nofun, by decide, by decide⟩, .inr (by decide)⟩, placed_one rfl rfl rfl (by decide)⟩,
    ⟨_, rfl, ⟨⟨nofun, by decide, by decide⟩, .inr (by decide)⟩, ?_, ⟨by decide, by decide, by decide, by decide⟩,
      ⟨by decide, by decide, by decide, by decide⟩, _, rfl⟩, ⟨⟨rfl, rfl, rfl, rfl, rfl, nofun⟩, by decide, rfl, .inl rfl⟩,
    by unfold TablesOk; decide +kernel, (fun c => cachesOk c), (fun _ h => nomatch h), rfl, ⟨_, rfl, ⟨⟨nofun, by decide, by decide⟩, .inr (by decide)⟩, placed_one rfl rfl rfl (by decide), by decide +kernel,
      ⟨⟨rfl, rfl, rfl, rfl, rfl, nofun⟩, by decide, rfl, .inl rfl⟩, by decide +kernel, ?_⟩⟩
  · intro i f h hj
    obtain ⟨-, -, -, hk⟩ := h
    obtain rfl : i = 0 := by omega
    obtain rfl : f = 0 := Nat.lt_one_iff.mp hk
    exact ⟨rfl, by decide⟩
  · intro i j hi hj
    obtain ⟨-, hi, -⟩ := hi
    obtain ⟨-, hj, -⟩ := hj
    change i < 1 at hi
    change j < 1 at hj
    omega

theorem placesRc (r : MemRule) : StorePlaces world r rc := ⟨fun _ _ _ => worldHolds _, fun _ _ _ _ _ _ => fun _ => rfl⟩

/-- Through the L1, at the home, in the one order, and into the granules of the own LS. -/
theorem witness_VectorStores :
    (∃ r, memRule (.vstS 1 4 5 7) vlc = some r ∧ storeAccess (.vstS 1 4 5 7) = some .store ∧ r.ok ∧ Placed world .plain .store .write r rc 1) ∧
    (∃ r, memRule (.vstRel 0 4 5) vlc = some r ∧ storeAccess (.vstRel 0 4 5) = some .store ∧ r.ok ∧ Placed world .plain .store .write r rc 1) ∧
    (∃ r, memRule (.vstSc 0 4 5) vlc = some r ∧ storeAccess (.vstSc 0 4 5) = some .sc ∧ r.ok ∧ Placed world .plain .sc .write r rc 1) ∧
    (∃ r, memRule (.vstFe 0 4 8) vlc = some r ∧ storeAccess (.vstFe 0 4 8) = some .fe ∧ r.ok ∧
      Placed world .plain .fe .write r (fun _ _ => .ls 0 0) 1) ∧
    (∀ pg d a b, Instr.vstSc 0 4 5 ≠ .vstNtf pg d a b) ∧ VecRunning vlc ∧ TablesOk world ∧ CachesOk world ∧ CachesPlaced world vlc.core ∧
    NoSnoops world 0 ∧ (∀ r, StorePlaces world r rc) ∧ (∀ r, StorePlaces world r fun _ _ => .ls 0 0) ∧ FewSent world 0 ∧
    world.ckpt = none ∧ world.isFenced 0 8 0 = false ∧ vlc.vl ≠ 0 ∧ leavesL1 world vlc.core (scopeOfCode vlc.vscope.toNat) :=
  ⟨⟨_, rfl, rfl, ⟨⟨nofun, by decide, by decide⟩, by decide⟩, placed_one rfl rfl rfl (by decide)⟩,
    ⟨_, rfl, rfl, ⟨⟨nofun, by decide, by decide⟩, .inr (by decide)⟩, placed_one rfl rfl rfl (by decide)⟩,
    ⟨_, rfl, rfl, ⟨⟨nofun, by decide, by decide⟩, .inr (by decide)⟩, placed_one rfl rfl rfl (by decide)⟩,
    ⟨_, rfl, rfl, ⟨⟨nofun, by decide, by decide⟩, .inr (by decide)⟩, placed_one rfl rfl rfl (by decide)⟩,
    nofun, running, tablesOk, cachesOk, cachesPlaced, noSnoops, placesRc, (fun _ => ⟨fun _ _ _ => worldHolds _, fun _ _ _ _ _ _ => trivial⟩),
    fewSent 0 rfl, rfl, rfl, by decide, by decide +kernel⟩

def dwords : State := withVlc fun v => { v with vt := { v.vt with sew := .e64, mew := .e64 } }

/-- A progress cell beside the elements, and elements that are LO cells. -/
theorem witness_NotifyingStores :
    (∃ r, memRule (.vstNtf 0 4 5 6) vlc = some r ∧ r.ok ∧ Placed world .plain .store .write r rc 1 ∧
      access world world.me .md (vlc.rx 6) 8 .write = (world, .ok (.phys 0x70000 3)) ∧
      StorePlaces world r rc ∧ ∀ i f, ActsOn vlc r i f → (rc i f).pa ≠ (Dest.phys 0x70000 3).pa) ∧
    TablesOk world ∧ CachesOk world ∧ CachesPlaced world 0 ∧ NoSnoops world 0 ∧
    (∃ r, memRule (.vstMd 0 true 4 6) dwords.vlc = some r ∧ r.ok ∧ Placed dwords .plain .md .write r (fun _ _ => .phys 0x70000 3) 1) ∧
    VecRunning dwords.vlc :=
  ⟨⟨_, rfl, ⟨⟨nofun, by decide, by decide⟩, .inr (by decide)⟩, placed_one rfl rfl rfl (by decide), rfl, placesRc _,
      fun _ _ _ => (by decide : (0x30000 : Nat) ≠ 0x70000)⟩, tablesOk, cachesOk, cachesPlaced, noSnoops,
    ⟨_, rfl, ⟨⟨⟨nofun, by decide, by decide⟩, .inr (by decide)⟩, by decide, by decide⟩, placed_one rfl rfl rfl (by decide)⟩,
    ⟨⟨rfl, rfl, rfl, rfl, rfl, nofun⟩, by decide, rfl, .inl rfl⟩⟩

/-- The same with VL = 0. -/
theorem witness_NotifyingStores_empty :
    (∃ r, memRule (.vstNtf 0 4 5 6) (withVlc fun v => { v with vl := 0 }).vlc = some r ∧ r.ok ∧
      Placed (withVlc fun v => { v with vl := 0 }) .plain .store .write r rc 0) ∧ (withVlc fun v => { v with vl := 0 }).vlc.vl = 0 :=
  ⟨⟨_, rfl, ⟨⟨nofun, by decide, by decide⟩, .inr (by decide)⟩, fun _ _ _ h => absurd h (Nat.not_lt_zero _)⟩, rfl⟩

/-! ### Tensor identifiers -/

/-- A tensor of 16 bytes in one dimension. -/
def descriptor : Nat := 2 ^ 63 + 2 * 2 ^ 73 + 16 * 2 ^ 128

def described : State :=
  { world with gangs := [{ gang with tids := [(4, BitVec.ofNat 512 descriptor)] }], mem := memWrite [] 0x30000 64 descriptor }

theorem witness_TensorIdentifiers :
    VecReady vlc ∧ vlc.vstart = 0 ∧ described.findGang described.vlc.gang = some { gang with tids := [(4, BitVec.ofNat 512 descriptor)] } ∧
    (vlc.rx 7).toNat < 8 ∧
    EntryOk (setField (BitVec.ofNat 512 descriptor).toNat (64 * (vlc.rx 7).toNat) 64 (vlc.rx 7).toNat) ∧
    (vlc.rx 5).toNat % 64 = 0 ∧ RunsOn described .load .read (vlc.rx 5) 8 8 (.phys 0x30000 1) ∧
    EntryOk (seen described 0 (.phys 0x30000 1) 64) ∧ RunsOn world .store .write (vlc.rx 5) 8 8 (.phys 0x30000 1) ∧
    (Dest.phys 0x30000 1).isLo = false ∧ TablesOk world ∧ world.ckpt = none ∧ Tab.wf 0 described.gang.tids = true ∧ TablesOk described ∧
    CachesOk described ∧ NoSnoops described 0 ∧ described.poison = [] ∧ CachesOk world ∧ NoSnoops world 0 ∧ KindHeld world 0 (.phys 0x30000 1) := by
  refine ⟨ready, rfl, rfl, by decide +kernel, fun _ => ?_, by decide +kernel, ?_, fun _ => ?_, ?_, rfl, tablesOk, rfl, by decide +kernel,
    by decide +kernel, (fun c => cachesOk c), (fun _ h => nomatch h), rfl, cachesOk, noSnoops, worldHolds _⟩
  · intro k hk; interval_cases k <;> simp only [DescriptorCheck] <;> decide +kernel
  · intro k hk; interval_cases k <;> exact ⟨rfl, by decide⟩
  · intro k hk; interval_cases k <;> simp only [DescriptorCheck] <;> decide +kernel
  · intro k hk; interval_cases k <;> exact ⟨rfl, by decide⟩

/-- The tensor of `described` with a reserved bit set, in memory. -/
def reserved : State := { described with mem := memWrite [] 0x30000 64 (descriptor + 2 ^ 505) }

/-- A dword index of 65536; a first extent of 0, which check 5 refuses; and a reserved bit, which check 1 refuses. -/
theorem witness_TensorIdentifiers_checks :
    (∀ x ∈ (described.core described.vlc.core).feq, x.2 ≠ described.vlc.slot) ∧ 7 < (vlc.rx 6).toNat ∧ (vlc.rx 7).toNat < 8 ∧
    FirstFailing (setField (described.gang.tid 4).toNat (64 * (vlc.rx 7).toNat) 64 (vlc.rx 0).toNat) 5 ∧
    RunsOn reserved .load .read (vlc.rx 5) 8 8 (.phys 0x30000 1) ∧ TablesOk reserved ∧ FirstFailing (seen reserved 0 (.phys 0x30000 1) 64) 1 := by
  refine ⟨nofun, by decide +kernel, by decide +kernel, ⟨by decide +kernel, ?_, ?_⟩, ?_, by decide +kernel, ⟨by decide +kernel, ?_, ?_⟩⟩
  · simp only [DescriptorCheck]; decide +kernel
  · intro k hk; interval_cases k <;> simp only [DescriptorCheck] <;> decide +kernel
  · intro k hk; interval_cases k <;> exact ⟨rfl, by decide⟩
  · simp only [DescriptorCheck]; decide +kernel
  · intro k hk; interval_cases k; trivial

/-! ### Plans -/

def indexed : State := withVlc fun v => { (v.setX 9 (2 + 2 ^ 48 + 2 ^ 61)) with vt := { v.vt with cls := .n } }

theorem one_array (k : Nat) (hk : k < 1) :
    access indexed indexed.me .planArray (indexed.vlc.rx 5 + BitVec.ofNat 64 (4 * k)) 4 .read = (indexed, .ok (.phys 0x30000 1)) ∧
      (Dest.phys 0x30000 1).pa % 4 = 0 := by
  obtain rfl : k = 0 := by omega
  exact ⟨rfl, by decide⟩

theorem witness_PlanBuilds :
    (VecReady indexed.vlc ∧ indexed.vlc.vstart = 0 ∧ indexed.vlc.poison = [] ∧ TablesOk indexed ∧ (31 : Fld).toNat < 32 ∧ indexed.vlc.vt.cls = .n ∧
      16 ≤ indexed.vlc.vt.sew.bits ∧ groupOk (vNum indexed.vlc.winv 4) (2 ^ indexed.vlc.vt.grp.val) ∧
      indexed.vlc.vl ≤ vlmaxOf indexed.vlc.vt ∧ 0 < (indexed.vlc.rx 7).toNat % 2 ^ 33 ∧ (indexed.vlc.rx 7).toNat % 2 ^ 33 ≤ 2 ^ 32 ∧
      (indexed.vlc.rx 7).getLsbD 63 = false ∧ field (indexed.vlc.rx 7).toNat 33 30 = 0 ∧
      FreeRun indexed 31 4095 ((10 * indexed.vlc.vl + 15) / 16)) ∧
    (indexed.ckpt = none ∧ CachesOk indexed ∧ NoPoison indexed ∧ SoClean indexed 0 ∧ indexed.vlc.core < 576 ∧ field (indexed.vlc.rx 9).toNat 33 15 = 0 ∧ field (indexed.vlc.rx 9).toNat 61 2 = 1 ∧
      field (indexed.vlc.rx 9).toNat 48 13 = 1 ∧ (indexed.vlc.rx 9).toNat % 2 ^ 33 = 2 ∧ (indexed.vlc.rx 5).toNat % 2 ^ (1 + 1) = 0 ∧
      (∀ k, k < 1 → access indexed indexed.me .planArray (indexed.vlc.rx 5 + BitVec.ofNat 64 (4 * k)) 4 .read = (indexed, .ok (.phys 0x30000 1)) ∧
        (Dest.phys 0x30000 1).pa % 4 = 0) ∧ FreeRun indexed 31 4095 ((10 * 1 + 15) / 16)) :=
  ⟨⟨⟨rfl, rfl, rfl, rfl, rfl, nofun⟩, rfl, rfl, by decide +kernel, by decide, rfl, by decide, by decide, by decide, by decide +kernel, by decide +kernel,
    by decide +kernel, by decide +kernel, ⟨0, 65536, rfl, by decide, by decide, by decide +kernel⟩⟩,
    ⟨rfl, (fun c => cachesOk c), (coherent 0 (fun _ => rfl) rfl rfl rfl).2.1, soClean 0 fun _ => rfl, by decide,
      by decide +kernel, by decide +kernel, by decide +kernel,
      by decide +kernel, by decide +kernel, one_array,
      ⟨0, 65536, rfl, by decide, by decide, by decide +kernel⟩⟩⟩

/-- A plan of two positions with two targets, unbound. -/
def plan : Plan := ⟨0, 0, 0, 0, 2, 1, 2, 1, false, false, 1, [(0, 0, 1), (1, 1, 1)], [0, 1], 4094⟩

def planned : State :=
  { withVlc (fun v => { v with plans := [(1, plan), (2, { plan with granule := 4092 })] }) with
    mem := (List.range 84).foldr (fun k m => (0x30000 + k, objectByte plan k) :: m) [] |>.filter fun x => x.2 ≠ 0 }

theorem plan_legal : PlanLegal plan := by unfold PlanLegal; decide +kernel

theorem plan_built : BuiltFrom [(true, some 0), (true, some 1)] plan := by
  refine ⟨rfl, by decide, fun t => ⟨?_, ?_⟩, by decide, by decide, by decide, by decide, by decide, [[0, 1]], rfl, rfl, by decide, ?_⟩
  · rintro ⟨e, he, rfl⟩
    simp only [plan, List.mem_cons, List.not_mem_nil, or_false] at he
    rcases he with rfl | rfl
    · exact ⟨0, rfl⟩
    · exact ⟨1, rfl⟩
  · rintro ⟨i, hi⟩
    match i with
    | 0 => exact ⟨(0, 0, 1), by decide, by simpa using hi⟩
    | 1 => exact ⟨(1, 1, 1), by decide, by simpa using hi⟩
    | n + 2 => simp at hi
  · intro j k t hk ht
    match j with
    | 0 => omega
    | n + 1 => simp at ht

theorem witness_PlanOperations :
    (VecReady planned.vlc ∧ planned.vlc.vstart = 0 ∧ TablesOk planned ∧ planned.ckpt = none ∧ planned.vlc.plan 1 = some plan ∧
      planned.vlc.plan 2 = some { plan with granule := 4092 } ∧ plan.st ≠ 3 ∧ plan.inverse = false ∧ plan.ls = false ∧
      CachesOk planned ∧ NoSnoops planned 0 ∧ Coherent planned 0 ∧
      ∀ k, k < 64 + bodyLength plan → KindHeld planned 0 (plusDest (.phys 0x30000 1) k)) ∧
    FreeRun planned 3 4090 ((bodyLength plan + 15) / 16) ∧ plan.positions.length = plan.count ∧ FreeRun planned 3 4090 ((10 * plan.count + 15) / 16) ∧
    (PlanLegal plan ∧ (Dest.phys 0x30000 1).isLo = false ∧ (planned.vlc.rx 5).toNat % 64 = 0 ∧
      RunsOn planned .store .write (planned.vlc.rx 5) 8 (8 + plan.entries.length) (.phys 0x30000 1) ∧
      RunsOn planned .store .write (planned.vlc.rx 5 + BitVec.ofNat 64 (64 + 8 * plan.entries.length)) 2 plan.count
        (plusDest (.phys 0x30000 1) (64 + 8 * plan.entries.length))) ∧
    (RunsOn planned .load .read (planned.vlc.rx 5) 8 (8 + plan.entries.length) (.phys 0x30000 1) ∧
      RunsOn planned .load .read (planned.vlc.rx 5 + BitVec.ofNat 64 (64 + 8 * plan.entries.length)) 2 plan.count
        (plusDest (.phys 0x30000 1) (64 + 8 * plan.entries.length)) ∧
      (∀ k, k < 64 + bodyLength plan → seenByte planned 0 (.phys 0x30000 1) k = objectByte plan k) ∧
      (∃ xs, BuiltFrom xs plan ∧ xs.length ≤ 4096 ∧ ∀ x ∈ xs, ∀ t, x.2 = some t → inside plan.ls plan.bound t = some t ∧ t < 2 ^ 32) ∧
      1 ≤ plan.st ∧ plan.st ≤ 3 ∧ plan.iw < 3 ∧ plan.bound < 2 ^ 64 ∧ plan.blen < 2 ^ 32 ∧ plan.wseed < 2 ^ 32 ∧
      plan.entries.foldl (fun (n : Option Nat) e => match n with
        | some k => if e.2.1 = k then some (k + e.2.2) else none
        | none => none) (some 0) = some (plan.count - plan.oobn)) := by
  refine ⟨⟨⟨rfl, rfl, rfl, rfl, rfl, nofun⟩, rfl, by decide +kernel, rfl, rfl, rfl, by decide, rfl, rfl, (fun c => cachesOk c),
    (fun _ h => nomatch h), coherent 0 (fun _ => rfl) rfl rfl rfl, fun _ _ => kindHeld 0 _ (fun _ => rfl) rfl⟩,
    ⟨0, 65536, rfl, by decide, by decide, by decide +kernel⟩, rfl, ⟨0, 65536, rfl, by decide, by decide, by decide +kernel⟩,
    ⟨plan_legal, rfl, by decide +kernel, ?_, ?_⟩, ?_, ?_, by decide +kernel, ⟨_, plan_built, by decide, ?_⟩, by decide, by decide, by decide,
    by decide, by decide, by decide, by decide⟩
  · intro k hk; change k < 10 at hk; interval_cases k <;> exact ⟨rfl, by decide⟩
  · intro k hk; change k < 2 at hk; interval_cases k <;> exact ⟨rfl, by decide⟩
  · intro k hk; change k < 10 at hk; interval_cases k <;> exact ⟨rfl, by decide⟩
  · intro k hk; change k < 2 at hk; interval_cases k <;> exact ⟨rfl, by decide⟩
  · intro x hx t ht
    simp only [List.mem_cons, List.not_mem_nil, or_false] at hx
    rcases hx with rfl | rfl <;> (simp only [Option.some.injEq] at ht; subst ht; decide)

/-- A gather and a scatter of one element: element 0 has target 0. -/
theorem witness_PlanApplies :
    (∀ i r, i = Instr.pga 0 4 1 5 ∧ r = (⟨0, 4, 1, 5, none⟩ : ApplyRule) ∨ i = Instr.psc 0 4 2 5 ∧ r = (⟨0, 4, 2, 5, some .set⟩ : ApplyRule) →
      applyRule i = some r ∧ AppliesTo planned r { plan with inverse := r.op.isSome } fun e => if e.1 = 0 then some (.phys 0x30000 1) else none) ∧
    PlanLegal plan ∧ VecReady planned.vlc ∧ planned.vlc.poison = [] ∧ planned.vlc.vl ≤ vlmaxOf planned.vlc.vt ∧ TablesOk planned ∧
    CachesOk planned ∧ NoPoison planned ∧ Coherent planned 0 ∧ SoClean planned 0 ∧ (planned.core planned.vlc.core).lsPoison = [] ∧ 8 ≤ planned.vlc.vt.mew.bits ∧ planned.vlc.vt.cls.isFp = false ∧
    groupOk (vNum planned.vlc.winv 4) (2 ^ planned.vlc.vt.grp.val) ∧ (planned.vlc.vt.mew.bits = planned.vlc.vt.sew.bits ∧ clsRange planned.vlc.vt.cls 0 4) := by
  refine ⟨?_, plan_legal, ⟨rfl, rfl, rfl, rfl, rfl, nofun⟩, rfl, by decide, by decide +kernel, (fun c => cachesOk c),
    (coherent 0 (fun _ => rfl) rfl rfl rfl).2.1, coherent 0 (fun _ => rfl) rfl rfl rfl, soClean 0 (fun _ => rfl), rfl, by decide, rfl, by decide, by decide, by decide⟩
  rintro i r (⟨rfl, rfl⟩ | ⟨rfl, rfl⟩) <;> refine ⟨rfl, fun e he hr => ?_⟩ <;>
    (simp only [plan, List.mem_cons, List.not_mem_nil, or_false] at he
     rcases he with rfl | rfl
     · exact ⟨.phys 0x30000 1, rfl, by decide, rfl⟩
     · exact absurd (by decide +kernel) hr)

/-! ### Matrix instructions -/

/-- The descriptor of a tensor of one byte in two dimensions, at address 0. -/
def oneElement : Nat := 0x1000000010000000000000000000000010000000100000000001004008000000000000000

def matrix : State :=
  { withVlc (fun v => { (v.setX 9 4).setX 10 5 with mvl := 16, tsm := 16, tsn := 16, tsk := 16 }) with
    gangs := [{ gang with tids := (List.range 2).map fun k =>
      (4 + k, BitVec.ofNat 512 (oneElement)) }] }

theorem tile_ready : TileReady matrix 15 := ⟨by decide, by decide, rfl, by decide +kernel⟩

theorem witness_AccumulatorElements :
    outerForm (.mxw 3 15 2 3) = some (.over, 3, 15, 2, 3) ∧ VecReady matrix.vlc ∧ matrix.vlc.poison = [] ∧ TablesOk matrix ∧ TileReady matrix 15 ∧
    matrix.vlc.vstart = 0 ∧ matrix.vlc.vt.sew.bits < 64 ∧ groupOk (vNum matrix.vlc.winv 2) (2 ^ matrix.vlc.vt.grp.val) ∧
    groupOk (vNum matrix.vlc.winv 3) (2 ^ matrix.vlc.vt.grp.val) ∧ (matrix.vlc.vf.tagOf (vNum matrix.vlc.winv 2)).getLsbD 5 = false ∧
    (matrix.vlc.vf.tagOf (vNum matrix.vlc.winv 3)).getLsbD 5 = false ∧ matrix.vlc.vl ≤ vlmaxOf matrix.vlc.vt ∧ matrix.vlc.vt.sew = .e32 ∧
    clsRange matrix.vlc.vt.cls 0 2 ∧ ((matrix.vlc.rx 7).toNat < 512 ∧ (matrix.vlc.rx 7).toNat % 256 < matrix.vlc.mvl) ∧
    (((256 + 15 : Nat) < 512) ∧ (256 + 15) % 256 < matrix.vlc.mvl) :=
  ⟨rfl, ⟨rfl, rfl, rfl, rfl, rfl, nofun⟩, rfl, by decide +kernel, tile_ready, rfl, by decide, by decide, by decide, by decide +kernel, by decide +kernel,
    by decide, rfl, by decide, by decide +kernel, by decide⟩

/-- The tensors 4 and 5, one element each, as a tile. -/
def tile (t : Nat) : TileSpec := ⟨descOf (oneElement), 0, 0, t⟩

def job : Job := ⟨.ints, .tensor (tile 4), tile 5, .i, 8, none, false, false, [[0]], [0]⟩

/-- A state that differs in the caches of core 0. -/
theorem onlyCore0 {u : State} (h : u = { matrix with
      cores := u.cores, l2 := u.l2, modes := u.modes, perf := u.perf, writeBacks := u.writeBacks, snoops := u.snoops, arrivals := u.arrivals })
    (k : CoreSt) (hu : u.cores = [(0, k)])
    (hk : k = { CoreSt.reset with l1 := k.l1, l1miss := k.l1miss, sent := k.sent, round := k.round }) : OnlyCaches matrix u := by
  refine ⟨h, fun c => ?_⟩
  have base : matrix.core c = CoreSt.reset := rfl
  have get : u.core c = if c = 0 then k else CoreSt.reset := by
    show Tab.get CoreSt.reset u.cores c = _
    rw [hu]
    cases c with
    | zero => rfl
    | succ n =>
      simp only [Tab.get]
      rw [if_neg (Nat.succ_ne_zero n), if_neg (Nat.succ_ne_zero n), if_neg (Nat.not_lt_zero _)]
  rw [base, get]
  split
  · exact hk
  · rfl

theorem reads_zero : ReadsAs matrix (tile 4).d [0, 0, 0, 0] 0 :=
  ⟨(readTensor matrix.me none (tile 4).d [0, 0, 0, 0] matrix).1, rfl, onlyCore0 rfl _ rfl rfl⟩

theorem witness_TensorProducts :
    (productJob (.mma 0 0 9 10) matrix = some (0, 0, 9, .ok job)) ∧
    OperandsAre matrix 0 job ⟨fun _ _ => 0, fun _ _ => none, fun _ _ _ => 0, fun _ _ _ => none, fun _ => 0⟩ ∧ VecReady matrix.vlc ∧
    matrix.vlc.poison = [] ∧ TablesOk matrix ∧ TileReady matrix 0 ∧ matrix.vlc.tsm ≠ 0 ∧ matrix.vlc.tsm ≤ matrix.vlc.mvl ∧
    matrix.vlc.tsn ≤ matrix.vlc.mvl ∧ matrix.vlc.vstart = 0 ∧ CachesOk matrix ∧ Coherent matrix 0 := by
  refine ⟨by decide +kernel, ⟨fun t ht => ⟨nofun, fun i hi b hb => ?_⟩, fun i hi c hc b hb => ?_⟩, ⟨rfl, rfl, rfl, rfl, rfl, nofun⟩, rfl, by decide +kernel,
    ⟨by decide, by decide, rfl, by decide +kernel⟩, by decide, by decide, by decide, rfl, (fun c => cachesOk c), coherent 0 (fun _ => rfl) rfl rfl rfl⟩
  · obtain rfl : t = tile 4 := by cases ht; rfl
    obtain rfl : b = [0] := by simpa [job] using hb
    have : i = 0 := by
      simp only [productRow, job, Bool.and_eq_true, decide_eq_true_eq] at hi
      have : (tile 4).o0 + i < 1 := hi.1.2
      change 0 + i < 1 at this
      omega
    subst this
    refine ⟨fun k hk => ?_, nofun⟩
    obtain rfl : k = 0 := by simpa using hk
    exact reads_zero
  · obtain rfl : b = [0] := by simpa [job] using hb
    obtain rfl : c = 0 := by simpa [job] using hc
    refine ⟨fun k hk => ?_, nofun⟩
    obtain rfl : k = 0 := by simpa using hk
    exact reads_zero

theorem active_one {i j : Nat} (h : tileActive matrix.vlc 0 (tile 4) i j = true) : i = 0 ∧ j = 0 := by
  simp only [tileActive, Bool.and_eq_true, decide_eq_true_eq] at h
  have h1 : 0 + i < 1 := h.1.2
  have h2 : 0 + j < 1 := h.2
  omega

theorem witness_TileStoresAndLoads :
    specOf matrix.gang (matrix.vlc.rx 9) = .ok (tile 4) ∧ tileRot matrix.gang (tile 4) matrix.vlc.tsm matrix.vlc.tsn = none ∧
    (∀ i j, tileActive matrix.vlc 0 (tile 4) i j = true →
      ScalesAs matrix (tile 4).d [(tile 4).o0 + i, (tile 4).o1 + j, 0, 0] none ∧
      ReadsAs matrix (tile 4).d [(tile 4).o0 + i, (tile 4).o1 + j, 0, 0] 0 ∧
      access matrix matrix.me .tensorWrite ((tile 4).d.place [(tile 4).o0 + i, (tile 4).o1 + j, 0, 0]).1 ((tile 4).d.width / 8) .write
        = (matrix, .ok (.phys 0x30000 1)) ∧ (Dest.phys 0x30000 1).pa % ((tile 4).d.width / 8) = 0 ∧ KindHeld matrix 0 (.phys 0x30000 1)) ∧
    SameKind (.phys 0x30000 1) (.phys 0x30000 1) ∧ Coherent matrix 0 ∧ 8 ≤ (tile 4).d.width ∧ (tile 4).d.sck = 0 ∧
    (∀ i j k l, tileActive matrix.vlc 0 (tile 4) i j = true → tileActive matrix.vlc 0 (tile 4) k l = true → (i, j) = (k, l)) ∧
    TablesOk matrix ∧ CachesOk matrix ∧ matrix.ckpt = none ∧ TileReady matrix 0 := by
  refine ⟨by decide +kernel, by decide +kernel, fun i j h => ?_, (fun _ => rfl), coherent 0 (fun _ => rfl) rfl rfl rfl,
    by decide, by decide, fun i j k l h h' => ?_, by decide +kernel,
    fun _ => ⟨List.nodup_nil, fun _ h => nomatch h⟩, rfl, ⟨by decide, by decide, rfl, by decide +kernel⟩⟩
  · obtain ⟨rfl, rfl⟩ := active_one h
    exact ⟨⟨_, rfl, onlyCaches _⟩, reads_zero, rfl, by decide, kindHeld 0 _ (fun _ => rfl) rfl⟩
  · obtain ⟨rfl, rfl⟩ := active_one h
    obtain ⟨rfl, rfl⟩ := active_one h'
    rfl

/-! ### Counters, ranges, engines and tasks -/

/-- A counter, a wait that its counter meets, one that it does not, and the first undefined scope. -/
theorem witness_CountersAndWaits :
    (∃ f, counterForm (.cinc 4 5 7) vlc = some (4, 5, f)) ∧ access world world.me .counter (vlc.rx 5) 8 .atomic = (world, .ok (.phys 0x30000 1)) ∧
    access world world.me .cread (vlc.rx 6) 8 .read = (world, .ok (.phys 0x70000 3)) ∧ TablesOk world ∧ world.ckpt = none ∧ SoClean world 0 ∧
    (∃ mk, waitForm (.cwait 5 5 5) vlc = some (.counter, 5, 5, 0, mk)) ∧ access world world.me .counter (vlc.rx 5) 8 .read = (world, .ok (.phys 0x30000 1)) ∧
    (vlc.rx 5).toNat ≤ homeNat world 0 (.phys 0x30000 1) 8 ∧ homeNat world 0 (.phys 0x30000 1) 8 < (vlc.rx 7).toNat ∧
    (∃ mk, waitForm (.pwait 0 6 7) vlc = some (.pwait, 0, 6, 2, mk)) ∧ access world world.me .pwait (vlc.rx 6) 8 .read = (world, .ok (.phys 0x70000 3)) ∧
    (∃ mk, waitForm (.cwait 6 5 7) vlc = some (.counter, 6, 5, 2, mk)) ∧ vlc.vq = [] :=
  ⟨⟨_, rfl⟩, rfl, rfl, tablesOk, rfl, soClean 0 (fun _ => rfl), ⟨_, rfl⟩, rfl, by decide +kernel, by decide +kernel, ⟨_, rfl⟩, rfl, ⟨_, rfl⟩, rfl⟩

def ranged : State := withVlc fun v => v.setX 9 256

theorem witness_RangeInstructions :
    RangeOk 128 (ranged.vlc.rx 5) (ranged.vlc.rx 9) ∧ PagesAt ranged .read (ranged.vlc.rx 5) (ranged.vlc.rx 9) (fun _ => .phys 0x30000 1) ∧
    PagesAt ranged .write (ranged.vlc.rx 5) (ranged.vlc.rx 9) (fun _ => .phys 0x30000 1) ∧ TablesOk ranged ∧ CachesOk ranged ∧
    CachesPlaced ranged 0 ∧ ranged.ckpt = none ∧ RangeOk 16 (ranged.vlc.rx 8) (ranged.vlc.rx 9) ∧
    regionOf ranged.gang 0 = some (0, 65536) ∧ 0x00FFFF8000000000 ≤ (ranged.vlc.rx 8).toNat ∧
    (ranged.vlc.rx 8).toNat - 0x00FFFF8000000000 + (ranged.vlc.rx 9).toNat ≤ 65536 ∧ liveBodies ranged 7 0 = [] ∧
    rangeRun ranged 128 (ranged.vlc.rx 9) = (ranged.vlc.rx 9, false) ∧ rangeRun ranged 16 (ranged.vlc.rx 9) = (ranged.vlc.rx 9, false) ∧
    NotHalting ranged := by
  have parts : rangeParts (ranged.vlc.rx 5) (ranged.vlc.rx 9) = [(0, 256)] := by decide +kernel
  refine ⟨by decide +kernel, ?_, ?_, by decide +kernel, (fun c => cachesOk c), And.intro (fun _ _ _ h => nomatch h) (fun _ h => nomatch h), rfl, by decide +kernel, rfl,
    by decide +kernel, by decide +kernel, rfl, rfl, rfl, nofun⟩ <;>
  · intro x hx
    rw [parts] at hx
    obtain rfl : x = (0, 256) := by simpa using hx
    exact .inr ⟨rfl, fun pa kind h => by cases h; rfl⟩

/-- A halting gang, where the halt stops the instruction before its first line. -/
def haltingRange : State := { ranged with gangs := [{ gang with st := .halting .host }] }

theorem witness_RangeInstructions_halt (first : Config.rangeCut 0 = 0) :
    rangeRun haltingRange 128 (ranged.vlc.rx 9) = (0, true) ∧ rangeRun haltingRange 16 (ranged.vlc.rx 9) = (0, true) ∧
    PagesAt haltingRange .read (ranged.vlc.rx 5) 0 (fun _ => .phys 0x30000 1) ∧
    PagesAt haltingRange .write (ranged.vlc.rx 5) 0 (fun _ => .phys 0x30000 1) := by
  have n : (0 : Nat) < (ranged.vlc.rx 9).toNat := by decide +kernel
  have parts : rangeParts (ranged.vlc.rx 5) 0 = [] := by decide +kernel
  have cut (unit : Nat) : rangeRun haltingRange unit (ranged.vlc.rx 9) = (0, true) := by
    change (if unit * Config.rangeCut 0 < (ranged.vlc.rx 9).toNat then (BitVec.ofNat 64 (unit * Config.rangeCut 0), true) else _ : Word × Bool) = _
    rw [first, Nat.mul_zero, if_pos n]
    rfl
  refine ⟨cut 128, cut 16, ?_, ?_⟩ <;>
  · intro x hx
    rw [parts] at hx
    exact nomatch hx

/-- A copy from byte 32768 of the first page to byte 0, a queue that is full, and a collective of one die. -/
def copying : State := withVlc fun v => ((v.setX 21 0x8000).setX 22 256)

def engOp : EngOp := ⟨50, 0, 0, 0, 3, 0, 0x8000, 256, 0, 0, [], 0, .queued, none, 0, some 7, 0, 0, 0, 65536, 0, [], none⟩

def collective : State :=
  { world with mem := [(0x30000, 1)] }

theorem witness_EngineIssue :
    engineForm (.copy 4 20) copying.vlc = some (0, 4, 20, 0) ∧ xNum copying.vlc.wins 20 = 20 ∧
    EngineAccepts copying 0 (copying.vlc.getX 20) (copying.vlc.getX 21) (copying.vlc.getX 22) 0 [] false ∧
    CounterAccepted copying (copying.vlc.getX 23) ∧ CounterAccepted copying 8 ∧ ¬ 32 ≤ (copying.engines.filter fun o => o.die == 0 && o.eng == 0).length ∧
    32 ≤ (({ copying with engines := List.replicate 32 engOp } : State).engines.filter fun o => o.die == 0 && o.eng == 0).length ∧
    EngineAccepts collective 2 0 0x8000 256 0 [0] false ∧ copying.vlc.vq = [] ∧ (busy.vlc.vq ≠ [] ∧ busy.vlc.inHandler = false) ∧
    (engineForm (.copyp 4 20) vlc = some (1, 4, 20, 0) ∧ vlc.getX 22 = 0 ∧ vlc.getX 23 = 0 ∧ ∀ o ∈ world.engines, o.id ≠ world.fresh) := by
  refine ⟨rfl, by decide, ?_, ?_, ?_, by decide, by decide +kernel, ⟨rfl, ⟨(readHomeDwords collective collective.me 0 8).1, [1, 0, 0, 0, 0, 0, 0, 0], rfl, by decide +kernel, rfl⟩,
    by decide, by decide, rfl⟩, rfl, ⟨nofun, rfl⟩, rfl, by decide +kernel, by decide +kernel, nofun⟩
  · exact ⟨rfl, by decide +kernel, by decide +kernel, by decide +kernel, .phys 0x30000 1, rfl, rfl, rfl⟩
  · exact .inl rfl
  · exact .inr ⟨.phys 0x30008 1, rfl⟩

/-- A barrier of two members, and of one; a record that waits for nothing; and a gang that may be replaced. -/
def spawning : State :=
  { world with mem := [(0x30000 + 16, 0x21), (0x30000 + 17, 4)] ++ ((List.range 8).map fun k => (0x30000 + 56 + k, 0xFF)) }

def readyNode : Node := ⟨41, 1, 3, 0, some 0, 0, BitVec.ofNat 512 ((1 + 2 * 16 + 4 * 256) * 2 ^ 128), 0, .ready, 7, 0, 2 ^ 64, none, none, none, false, false, none⟩

def offering : State :=
  ({ world with
    nodes := [readyNode]
    queues := [(3, { QueuePage.reset with en := true, mask := BitVec.allOnes 576 })] } : State).modDie 0 fun x =>
      { x with poolCount := 1, phase := 12 }

theorem witness_TaskInstructions :
    (world.findGang vlc.gang = some gang ∧ vlc.member < 32 ∧ vlc.barrier ≠ some (7, true) ∧
      ({ vlc with barrier := some (7, true) } : Vlc).barrier = some (7, true) ∧ leavesL1 world 0 .gang ∧
      (¬ ∀ m, m < gang.members → gang.exited.getLsbD m = true ∨ ((gang.arrive[7]?.getD 0) ||| BitVec.twoPow 32 vlc.member).getLsbD m = true) ∧
      ∀ m, m < ({ gang with members := 1 } : Gang).members → gang.exited.getLsbD m = true ∨
        ((gang.arrive[7]?.getD 0) ||| BitVec.twoPow 32 vlc.member).getLsbD m = true) ∧
    ((vlc.rx 5).toNat % 64 = 0 ∧ RunsOn spawning .load .read (vlc.rx 5) 8 8 (.phys 0x30000 1) ∧ TablesOk spawning ∧
      spawning.isFenced 0 7 0 = false ∧ spawning.funcmode.getLsbD 1 = false ∧ spawning.nodes = [] ∧
      recordRefused (BitVec.ofNat 512 (seen spawning 0 (.phys 0x30000 1) 64)) 0 = none ∧
      recDeps (BitVec.ofNat 512 (seen spawning 0 (.phys 0x30000 1) 64)) = 0 ∧ NoSnoops spawning 0 ∧ spawning.poison = [] ∧ vlc.vq = [] ∧
      busy.vlc.vq ≠ [] ∧ busy.vlc.inHandler = false) ∧
    ((¬ ∃ n ∈ world.nodes, couldReplace world world.gang n = true) ∧ freePool world 0 = none ∧ offering.gang.st = .resident ∧
      offering.isFenced 0 7 0 = false ∧ couldReplace offering offering.gang readyNode = true ∧ freePool offering 0 = some 0 ∧
      offering.findGang 7 = some offering.gang) := by
  refine ⟨⟨rfl, by decide, nofun, rfl, by decide +kernel, by decide, by decide⟩, ⟨by decide +kernel, fun k hk => ?_, by decide +kernel, rfl, rfl, rfl,
    by decide +kernel, by decide +kernel, (fun _ h => nomatch h), rfl, rfl, nofun, rfl⟩,
    ⟨(fun ⟨_, h, _⟩ => nomatch h), rfl, rfl, by decide +kernel, by decide +kernel, rfl, rfl⟩⟩
  interval_cases k <;> exact ⟨rfl, by decide⟩

/-! ### The host -/

/-- A launch that is taken and one that is dropped, a queue with EN 0 and with EN 1, and a placed gang of the queue. -/
theorem witness_HostPages :
    LaunchOk offering 3 true (BitVec.ofNat 512 (2 ^ 128)) ∧ ¬ LaunchOk offering 3 false (BitVec.ofNat 512 (2 ^ 128)) ∧ ¬ LaunchOk world 1023 true 0 ∧
    TablesOk offering ∧ (offering.queue 3).en = true ∧ (world.queue 1023).en = false ∧ (∀ g ∈ offering.gangs, offering.findGang g.id = some g) ∧
    (gang.queue = 3 ∧ Machine.placed gang = true ∧ gang.st = .resident) ∧ (5 : Word).getLsbD 2 = true ∧ (1 : Word).getLsbD 2 = false ∧
    (0 : Word).extractLsb' 0 8 = 0 ∧ 14 ≤ ((14 : Word).extractLsb' 0 8).toNat := by decide +kernel

def opened (st : GangState) (p : Option Nat) : State :=
  { world with openRecs := [⟨3, 1, some 7, none, false⟩], gangs := [{ gang with st := st, pool := p, awaits := [1] }],
               nodes := [{ readyNode with id := 40, st := .saved }] }

def openedOp (n : Option Nat) : State :=
  { world with openRecs := [⟨3, 1, none, some 50, false⟩], engines := [{ engOp with st := .suspended 1, node := n }] }

theorem witness_HostAnswers :
    openRecord world 1023 0 = none ∧ openRecord (opened (.halted .fault) none) 3 1 = some ⟨3, 1, some 7, none, false⟩ ∧
    (opened (.halted .fault) none).findGang 7 = some { gang with st := .halted .fault, awaits := [1] } ∧
    ([1] : List Nat).erase 1 = [] ∧ ([1, 2] : List Nat).erase 1 ≠ [] ∧
    openRecord (opened (.saved 0 0) none) 3 1 = some ⟨3, 1, some 7, none, false⟩ ∧
    (opened (.saved 0 0) none).findGang 7 = some { gang with st := .saved 0 0, awaits := [1] } ∧
    (opened (.saved 0 0) none).findNode gang.node = some { readyNode with id := 40, st := .saved } ∧
    (opened (.saved 0 0) none).schedAssisted = false ∧ openRecord (openedOp none) 3 1 = some ⟨3, 1, none, some 50, false⟩ ∧
    (openedOp none).engines.find? (fun x => x.id == 50 && x.st == .suspended 1) = some { engOp with st := .suspended 1 } ∧
    (openedOp (some 41)).engines.find? (fun x => x.id == 50 && x.st == .suspended 1) = some { engOp with st := .suspended 1, node := some 41 } ∧
    ∀ x ∈ (openedOp none).engines, x.id = 50 → x = { engOp with st := .suspended 1 } :=
  ⟨rfl, rfl, rfl, rfl, by decide, rfl, rfl, rfl, rfl, rfl, rfl, rfl, fun x hx _ => List.mem_singleton.mp hx⟩

/-! ### Commands, links, the board and errors -/

def cmd : Cmd := ⟨0, false, 1, 0, 0, 0, 0, 0, 0, 0⟩

/-- A device whose four dies are up, and one whose pools are in use. -/
def up : State := { State.reset with dies := Vector.replicate 4 { Die.reset with phase := 11, pooled := true } }

/-- A device whose first die has made its certificate, and whose other dies were booted again. -/
def rebooted : State := up.modDie 0 fun x => { x with phase := 12 }

def busyPool : State := State.reset.modDie 0 fun x => { x with poolUsed := [0] }

def certified : State := { State.reset with cert := [1], quoteCount := 2 ^ 20 - 1 }

/-- A module image: its header, a native text of no bytes for generation 1, and a signature section of 32 zero bytes. -/
def module : List Host.Cell :=
  [(0, 0x4B), (1, 0x4D), (2, 0x44), (3, 0x41), (4, 1), (6, 2), (16, 2), (17, 1), (21, 1), (32, 7), (37, 1), (40, 32)]

/-- An empty image is refused for its header; the module is loaded where the free values take its digest and link it. -/
theorem witness_load (digest : Config.sha256 (memReadBytes module 0 256) = List.replicate 32 0)
    :
    loadImage [] [] 0 = .error 1 ∧ loadImage (memReadBytes module 0 288) [] (2 ^ 20) = .ok [(0, [])] := by
  refine ⟨by decide +kernel, ?_⟩
  have bad : imageHeaderBad (memReadBytes module 0 288) = false := by decide +kernel
  have secs : sections (bytesNat (memReadBytes module 0 256)) (field (bytesNat (memReadBytes module 0 256)) 48 16)
      = [⟨2, 1, 256, 0⟩, ⟨7, 0, 256, 32⟩] := by decide +kernel
  have signed : (memReadBytes module 0 288).take 256 = memReadBytes module 0 256 := by decide +kernel
  have sig : (sectionBytes (memReadBytes module 0 288) ⟨7, 0, 256, 32⟩).take 32 = List.replicate 32 0 := by decide +kernel
  have text : nativeText (memReadBytes module 0 288) [⟨2, 1, 256, 0⟩, ⟨7, 0, 256, 32⟩] = .ok [] := rfl
  have last : ([⟨2, 1, 256, 0⟩, ⟨7, 0, 256, 32⟩] : List Section).getLast? = some ⟨7, 0, 256, 32⟩ := rfl
  simp only [loadImage, bad, secs, last, signed, sig, digest, text, ne_eq, not_true_eq_false, false_and, if_false, Bool.false_eq_true]
  have parts : imageParts (memReadBytes module 0 288) [⟨2, 1, 256, 0⟩, ⟨7, 0, 256, 32⟩] = [] := by decide +kernel
  have applied : ∀ (vs : List (Nat × Byte)) (n : Nat), applySymbols vs (n, []) = (n, []) := by
    intro vs n
    unfold applySymbols
    induction vs with
    | nil => rfl
    | cons v vs ih => simpa using ih
  have linked : linkImage [] [] = [(0, [])] := congrArg (· :: []) (applied _ 0)
  rw [parts, linked, if_neg (by decide)]

/-- R427: parts stand one after another on 64 KiB boundaries. -/
theorem test_parts_on_boundaries :
    placeParts 0 [[1, 2], [3], [4]] = [(0, [1, 2]), (65536, [3]), (131072, [4])] ∧ nextBoundary 65536 = 65536 := by decide

/-- A die whose boot memory begins with the magic number of a firmware image. -/
def booting : Die := { Die.reset with phase := 3, bootbuf := [(0, 0x46), (1, 0x4D), (2, 0x44), (3, 0x41)] }

/-- What its boot memory holds is a firmware image where the free values accept its signature and its key. -/
theorem witness_boot
    (sign : Config.hssVerify (bootBytes booting 64) ((bootBytes booting (64 + hssLength)).drop 64)
      (Config.hssSigningKey ((bootBytes booting (64 + hssLength)).drop 64)) = true)
    (root : Config.sha256 (Config.hssSigningKey ((bootBytes booting (64 + hssLength)).drop 64)) = Config.fusedRootHash) :
    booting.phase = 3 ∧ imageGood booting (64 + hssLength) = true := by
  have zero : memRead booting.bootbuf 0 64 = 0x41444D46 := by decide +kernel
  have small : decide (64 + hssLength ≤ 2 ^ 23) = true := by decide
  have f0 : field (1094995270 : Nat) 0 32 = 1094995270 := by decide
  have f1 : field (1094995270 : Nat) 64 32 = 0 := by decide
  have sv : booting.minSv = 0 := rfl
  refine ⟨rfl, ?_⟩
  simp only [imageGood, zero, f0, f1, Nat.add_zero, sign, root, sv, small]
  simp

theorem witness_HostCommands :
    (commandOf (.fmode 1 { cmd with rsv := 1 }) = some (1, { cmd with rsv := 1 }, false, true) ∧
      commandOf (.keyreg 0 { cmd with d1 := 4096 }) = some (0, { cmd with d1 := 4096 }, true, true) ∧
      commandOf (.quote 3 cmd) = some (3, cmd, false, true)) ∧
    ((∃ d, d < 4 ∧ ((State.reset.die d).phase < 11 ∨ (State.reset.die d).pooled = false)) ∧
      (∀ d, d < 4 → 11 ≤ (up.die d).phase ∧ (up.die d).pooled = true) ∧ (up.die 0).phase = 11 ∧
      (∀ d, d < 4 → 11 ≤ (rebooted.die d).phase ∧ (rebooted.die d).pooled = true) ∧ (rebooted.die 0).phase ≠ 11 ∧ (rebooted.die 3).phase = 11 ∧
      up.bootCount < 32768 ∧
      (busyPool.die 0).poolUsed ≠ [] ∧ (State.reset.die 3).poolUsed = [] ∧ ({ cmd with d1 := 1 } : Cmd).d1.toNat % 2 ^ 24 ≠ 0 ∧
      cmd.d1.toNat + ({ cmd with d2 := 1 } : Cmd).d2.toNat * 2 ^ 24 ≤ deviceEnd) ∧
    (deviceEnd ≤ ({ cmd with d1 := 2 ^ 50 } : Cmd).d1.toNat ∧ cmd.d1.toNat < deviceEnd ∧ State.reset.funcmode.getLsbD 2 = false ∧
      ({ State.reset with funcmode := 63 } : State).funcmode.getLsbD 2 = true ∧ knownSo ({ State.reset with funcmode := 63 } : State) 0 = false ∧
      homeDie 0 ≠ 3 ∧ homeDie 0 = 0 ∧ TablesOk State.reset) ∧
    (cmd.d1 &&& ~~~0x30FFF = 0 ∧ (0x20FFF : Word) &&& ~~~0x30FFF = 0 ∧ (0x20FFF : Word).extractLsb' 16 2 ≠ 3) ∧
    (unitRange 8 ≤ 1 ∧ 143 < unitRange 0 ∧ ({ State.reset with fenced := [(0, 0, 143)] } : State).isFenced 0 0 143 = true ∧
      State.reset.isFenced 0 0 143 = false) ∧
    (({ State.reset with ckpt := some ⟨0, 0, [], 0, false⟩ } : State).ckpt.isSome = true ∧ State.reset.ckpt = none ∧
      Memory.wf State.reset.mem = true ∧ State.reset.funcmode.getLsbD 5 = false ∧ ({ State.reset with funcmode := 63 } : State).funcmode.getLsbD 5 = true ∧
      (∃ q ∈ offering.queues, q.2.en = true) ∧ (∀ q ∈ State.reset.queues, q.2.en = false) ∧ (∀ g ∈ State.reset.gangs, Machine.placed g = false) ∧
      State.reset.cert = [] ∧ certified.cert ≠ [] ∧ certified.quoteCount < 2 ^ 20) ∧
    ((up.die 0).phase ≠ 3 ∧ (up.die 0).phase ≠ 4 ∧ ((State.reset.modDie 0 fun x => { x with phase := 3 }).die 0).phase = 3 ∧
      imageGood ((State.reset.modDie 0 fun x => { x with phase := 3 }).die 0) 0 = false) := by
  refine ⟨by decide +kernel, ⟨⟨0, by decide +kernel⟩, ?_, rfl, ?_, by decide +kernel, rfl, by decide +kernel, by decide +kernel,
    by decide +kernel, by decide +kernel, by decide +kernel⟩, by decide +kernel, by decide +kernel, by decide +kernel, ⟨rfl, rfl, rfl, rfl, by decide, ⟨_, List.mem_singleton_self _, rfl⟩, nofun, nofun, rfl, nofun,
      by decide⟩, by decide +kernel, by decide +kernel, by decide +kernel, rfl⟩
  all_goals
    intro d hd
    interval_cases d <;> exact ⟨by decide +kernel, rfl⟩

/-- A flit of a class for the port at its first sequence number. -/
def flit (cls : Nat) (ws : List Word) : BitVec 2048 := makeFlit { Port.reset with txSeq := Port.reset.rxNext, taken := true } cls ws

def copyFlit : BitVec 2048 := flit 0 (requestHead 0x30000 2 0 (2 ^ 40 - 1) ++ [1, 2])

def loFlit : BitVec 2048 := flit 1 (requestHead 0x70000 1 0 (5 + 2 ^ 44) ++ [9])

def collFlit : BitVec 2048 := flit 2 (requestHead 8 1 0 3 ++ [7])

theorem witness_HostMemoryAndLink :
    deviceEnd - 1 + ([1] : List Byte).length ≤ deviceEnd ∧ State.reset.ckpt = none ∧ TablesOk State.reset ∧
    ({ State.reset with fenced := [(3, 5, 3)] } : State).isFenced 3 5 3 = true ∧ ({ State.reset with fenced := [] } : State).isFenced 0 5 0 = false ∧
    (Port.reset.ilimit.toNat ≤ Port.reset.ibase.toNat ∧ ({ Port.reset with ilimit := 65536 } : Port).ibase.toNat < 65536) ∧
    (flitBad (flit 3 []) = false ∧ (({ Port.reset with rxNext := 1 } : Port).rxNext - (flit 3 []).extractLsb' 0 12).toNat = 1) ∧
    flitBad 1 = true ∧ 1024 < (({ Port.reset with rxNext := 1025 } : Port).rxNext - (flit 3 []).extractLsb' 0 12).toNat ∧
    ((Port.reset.rxNext - (flit 3 []).extractLsb' 0 12).toNat = 0 ∧ ((flit 3 []).extractLsb' 12 4).toNat = 3 ∧ (flit 3 []).getLsbD 29 = false ∧
      Port.reset.outq = [] ∧ Port.reset.nak = false ∧ Port.reset.ackDue = false ∧ Port.reset.freed = Vector.replicate 3 0) ∧
    (flitBad copyFlit = false ∧ (copyFlit.extractLsb' 12 4).toNat = 0 ∧
      parseRequests 0 30 (flitPayload copyFlit) = some [⟨0x30000, 0, 2 ^ 40 - 1, [1, 2]⟩]) ∧
    (flitBad loFlit = false ∧ (loFlit.extractLsb' 12 4).toNat = 1 ∧ parseRequests 1 30 (flitPayload loFlit) = some [⟨0x70000, 0, 5 + 2 ^ 44, [9]⟩] ∧
      ∀ y ∈ State.reset.loTransit, y.pa ≠ 0x70000) ∧
    (flitBad collFlit = false ∧ (collFlit.extractLsb' 12 4).toNat = 2 ∧ parseRequests 2 30 (flitPayload collFlit) = some [⟨8, 0, 3, [7]⟩]) := by
  decide +kernel

/-- A VLC with a dead name, and with a strip in flight that has its own row of name 3. -/
def striped : State := withVlc fun v => { v with
  vf := { v.vf with dead := 2 }, fan := some ⟨0, [⟨4, { v.vf with wrote := 8, dead := 2 }, [], none⟩], [], [], 0⟩ }

/-- A VLC of another gang is untouched by the debug page; one of the named queue's is halted, stepped and released. -/
theorem witness_BoardAndErrors :
    TablesOk world ∧ ((State.reset.modDie 3 fun x => { x with phase := 1 }).die 3).phase = 1 ∧ (world.die 3).phase ≠ 1 ∧
    (∀ g ∈ world.gangs, world.findGang g.id = some g) ∧ (gang.die = 0 ∧ Machine.placed gang = true ∧ ∀ f, gang.st ≠ .releasing f) ∧
    world.findVlc 0 0 = some vlc ∧ unitRange 8 = 1 ∧ (({ State.reset with fenced := [(3, 8, 0)] } : State).isFenced 3 8 0 = true) ∧
    (world.gangOf vlc.gang).queue = 3 ∧ (world.die 0).qsel ≠ 3 ∧ ((world.modDie 0 fun x => { x with qsel := 3 }).die 0).qsel = 3 ∧
    vlc.status = .running ∧ ({ vlc with status := .debug } : Vlc).status = .debug ∧
    (TablesOk striped ∧ striped.findVlc 0 0 = some striped.vlc ∧ striped.vlc.vf.dead.getLsbD 1 = true ∧ striped.vlc.vf.dead.getLsbD 3 = false ∧
      ∃ f y, striped.vlc.fan = some f ∧ y ∈ f.strips ∧ y.k = 4 ∧ (∀ z ∈ f.strips, z.k = 4 → z = y) ∧ y.vf.wrote.getLsbD 3 = true ∧
        y.vf.dead.getLsbD 3 = false) :=
  ⟨tablesOk, rfl, by decide +kernel, by decide +kernel, ⟨rfl, rfl, nofun⟩, rfl, rfl, rfl, rfl, by decide +kernel, rfl, rfl, rfl,
    ⟨by decide +kernel, rfl, by decide +kernel, by decide +kernel, _, _, rfl, List.mem_singleton_self _, rfl, fun _ hz _ => List.mem_singleton.mp hz,
      by decide +kernel, by decide +kernel⟩⟩

/-! ### Gangs, Landau and records -/

def withGang (f : Gang → Gang) : State := { world with gangs := [f gang] }

/-- The nodes of a gang: its own, with the gang's shape. -/
def ownNode : Node := { readyNode with id := 40, image := BitVec.ofNat 512 ((1 + 2 * 16 + 4 * 256 + 2 ^ 17) * 2 ^ 128), st := .running }

def cellsOf (a n k : Nat) : List Host.Cell :=
  ((List.range k).map fun i => (a + i, BitVec.ofNat 8 (n / 2 ^ (8 * i)))).filter fun x => x.2 ≠ 0

def restoring : State :=
  let s := withGang fun g => { g with st := .restoring 0 0, savedLs := [[(65535, 9)]], savedFe := [[4095]] }
  { s with
    nodes := [ownNode]
    mem := cellsOf 0 (recordLength s s.gang + 2 ^ 48 + (1 + 2 * 16 + 4 * 256 + 2 ^ 17) * 2 ^ 128) 32 }

/-- A node whose descriptor block of one descriptor stands at address 0. -/
def blockNode : Node := { ownNode with image := BitVec.ofNat 512 (2 ^ 56 * 2 ^ 384) }

def loading : State := { withGang fun g => { g with st := .loading } with nodes := [blockNode], mem := cellsOf 0x30000 oneElement 64 }

/-- VLCs of another gang in every slot of core 0, one of them with a strip beyond its own rows. -/
def crowded : State :=
  { world with others := (List.range 3).map fun k => { Vlc.reset with
      slot := k + 1, gang := 8, status := .running, fan := if k = 0 then some ⟨0, (List.range 2).map fun j => ⟨j, Vlc.reset.vf, [], none⟩, [], [], 0⟩ else none,
      vf := { Vlc.reset.vf with dead := 0 } } }

theorem witness_GangLife :
    State.reset.findGang 7 = none ∧ (withGang fun g => { g with st := .halting .host }).findGang 7 = some { gang with st := .halting .host } ∧
    ((withGang fun g => { g with st := .halted .host, pool := some 0 }).findGang 7 = some { gang with st := .halted .host, pool := some 0 } ∧
      (∀ o ∈ world.engines, o.gang = some 7 → namesLs o = false) ∧ world.vlcs = [vlc] ∧ (∀ c, (world.core c).l1 = []) ∧
      Memory.wf world.mem = true ∧ recordLength world gang ≤ 2 ^ 24 ∧ gang.members < 2 ^ 16 ∧ poolAddr world 0 0 + 2 ^ 24 ≤ deviceEnd ∧
      vlc.member = 0 ∧ gang.killed = false ∧ (∀ n ∈ world.nodes, n.claim ≠ some 7) ∧ world.writeBacks = [] ∧ world.ckpt = none ∧ vlc.status ≠ .absent ∧
      rowsFree world gang = true ∧ rowsFree crowded gang = false) ∧
    (restoring.findGang 7 = some restoring.gang ∧ restoring.gang.st = .restoring 0 0 ∧ restoring.findNode 40 = some ownNode ∧
      headerFits restoring restoring.gang 0 0 ownNode = true ∧ TablesOk restoring ∧ (([(65535, 9)] : List Host.Cell).map (·.1)).Nodup ∧
      headerFits { restoring with mem := [] } restoring.gang 0 0 ownNode = false) ∧
    (releasedAll world 7 = true ∧ releasedAll { world with cores := [(0, { CoreSt.reset with outs := [⟨0, [], 7⟩] })] } 7 = false ∧
      ∀ c, ∀ l ∈ (world.core c).l1, l.line * 128 < deviceEnd) ∧
    ((ownNode.image.extractLsb' 384 64).extractLsb' 56 8 = 0 ∧
      ((BitVec.ofNat 512 ((2 ^ 56 + 1) * 2 ^ 384)).extractLsb' 384 64 : Word).extractLsb' 0 6 ≠ 0 ∧
      loading.gang.st = .loading ∧ (blockNode.image.extractLsb' 384 64).extractLsb' 56 8 = 1 ∧
      (∃ u, blockDescs loading 0 blockNode = (u, .ok [(0, BitVec.ofNat 512 oneElement)]) ∧ u.gangs = loading.gangs) ∧ Tab.wf 0 gang.tids = true) ∧
    (gang.wdog < 2 ^ gang.hbwin.toNat ∧ (∀ d k, gang.st ≠ .saved d k) ∧ (∀ f, gang.st ≠ .releasing f) ∧
      (∀ d k, loading.gang.st ≠ .saved d k) ∧ (∀ f, loading.gang.st ≠ .releasing f) ∧
      2 ^ gang.hbwin.toNat ≤ ({ gang with wdog := 2 ^ gang.hbwin.toNat } : Gang).wdog) :=
  ⟨rfl, rfl, ⟨rfl, nofun, rfl, fun _ => rfl, by decide +kernel, by decide +kernel, by decide, by decide +kernel, rfl, rfl, nofun, rfl, rfl, nofun, by decide +kernel,
      by decide +kernel⟩,
    ⟨rfl, rfl, rfl, by decide +kernel, by decide +kernel, by decide, by decide +kernel⟩,
    ⟨by decide +kernel, by decide +kernel, fun _ _ h => nomatch h⟩,
    ⟨by decide +kernel, by decide +kernel, rfl, by decide +kernel, ⟨(blockDescs loading 0 blockNode).1, rfl, rfl⟩, by decide +kernel⟩,
    ⟨by decide +kernel, nofun, nofun, nofun, nofun, Nat.le_refl _⟩⟩

/-- The gang of `offering` is gone; a node that no cluster of its die could hold for 2,048 cycles; and a second die that is up. -/
def free : State := { offering with gangs := [], vlc := Vlc.reset }

def lending : State :=
  ({ free with nodes := [{ readyNode with noPlace := some 0 }], dies := free.dies.map fun x => { x with phase := 11, cycles := 2048 } } : State)

def graph : Graph := ⟨1, 3, 0, 0, 0, 1, false, 8, true, 2045, 1, 0, [], false⟩

def reading (m : List Host.Cell) : State := { spawning with graphs := [graph], mem := m, dies := offering.dies }

def doneNode : Node := { readyNode with idx := 0, st := .done false, image := BitVec.ofNat 512 (2 ^ 448 + 0xFFFFFFFFFFFF * 2 ^ 464) }

def waitingNode : Node := { readyNode with id := 42, slot := some 1, idx := 1, st := .waiting, deps := 1, image := BitVec.ofNat 512 (2 ^ 32) }

def completing : State := { free with nodes := [doneNode, waitingNode], graphs := [{ graph with nodes := 2, next := 2, left := 2 }] }

theorem witness_NodesAndGraphs :
    (landauUp State.reset 3 = false ∧ candidates free 3 = [] ∧ lendable free readyNode = false ∧ readingGraph free 0 = none) ∧
    (landauUp free 0 = true ∧ candidates free 0 = [readyNode] ∧ placeable free readyNode = true ∧ readyNode.queue < 1024 ∧
      1 ≤ (free.queue 3).weight ∧ (∀ n ∈ free.nodes, free.findNode n.id = some n) ∧ (free.landauOf 0).visiting = false ∧
      (free.landauOf 0).visit = none ∧ recKind readyNode.image = 0 ∧ ∀ g ∈ free.gangs, g.node ≠ 41) ∧
    (landauUp lending 0 = true ∧ (byLevel (oldestNodes (candidates lending 0))).find? (fun n => lendable lending n && (lendPlace lending n).isSome)
        = some { readyNode with noPlace := some 0 } ∧ lendPlace lending { readyNode with noPlace := some 0 } = some (1, 0, [(144, 0)])) ∧
    (landauUp (reading spawning.mem) 0 = true ∧ readingGraph (reading spawning.mem) 0 = some graph ∧
      (∃ u ws, readHomeDwords (reading spawning.mem) (queueParty 0 3) 0 8 = (u, .ok ws) ∧ recordRefused (record512 ws) 1 = none ∧
        overflowed u 0 3 = [] ∧ freeSlot u 0 false = some 0 ∧ u.nodes = [] ∧ u.graphs = [graph] ∧ u.fresh = 100) ∧
      (∃ u ws, readHomeDwords (reading ((0x30006, 1) :: spawning.mem)) (queueParty 0 3) 0 8 = (u, .ok ws) ∧
        recordRefused (record512 ws) 1 = some .queue ∧ ∀ j, j < 4 → recSucc (record512 ws) j = 0xFFFF)) ∧
    (completing.nodeAt 0 2 = none ∧ completing.nodeAt 0 1 = some waitingNode ∧ (∀ f, waitingNode.st ≠ .done f) ∧ completing.nodeAt 0 0 = some doneNode ∧
      (∀ m ∈ completing.nodes, completing.findNode m.id = some m) ∧
      (∀ m ∈ completing.nodes, ∀ x ∈ completing.nodes, m.graph = x.graph → m.idx = x.idx → m.idx ≠ 0xFFFF → m = x) ∧
      recDeps waitingNode.image ≠ 0 ∧ ((List.range 4).filter fun j => recSucc doneNode.image j = waitingNode.idx).length = waitingNode.deps) ∧
    (world.findGraph 1 = none ∧ graph.left ≠ 0 ∧ ({ graph with left := 0 } : Graph).left = 0 ∧ world.schedAssisted = false ∧
      ({ graph with done := 0 } : Graph).done = 0 ∧ access world (queueParty 0 3) .counter graph.done 8 .atomic = (world, .ok (.phys 0x30008 1))) ∧
    (overflowed { free with nodes := [{ readyNode with slot := none }] } 0 3 = [{ readyNode with slot := none }] ∧
      freeSlot { free with nodes := [{ readyNode with slot := none }] } 0 false = some 0) := by
  refine ⟨by decide +kernel, by decide +kernel, by decide +kernel, ⟨by decide +kernel, rfl, ?_, ?_⟩, ⟨rfl, rfl, nofun, rfl, by decide +kernel, ?_,
    by decide +kernel, by decide +kernel⟩, ⟨rfl, by decide, rfl, rfl, rfl, rfl⟩, rfl, by decide +kernel⟩
  · exact ⟨(readHomeDwords (reading spawning.mem) (queueParty 0 3) 0 8).1, _, rfl, by decide +kernel, rfl, by decide +kernel, rfl, rfl, rfl⟩
  · exact ⟨(readHomeDwords (reading ((0x30006, 1) :: spawning.mem)) (queueParty 0 3) 0 8).1, _, rfl, by decide +kernel, by decide +kernel⟩
  · intro m hm x hx _ e _
    simp only [completing, List.mem_cons, List.not_mem_nil, or_false] at hm hx
    rcases hm with rfl | rfl <;> rcases hx with rfl | rfl <;> first | rfl | exact absurd e (by decide)

theorem witness_NodesAndGraphs_spawn :
    spawnTrap spawning 100 (spawnImage (BitVec.ofNat 512 (seen spawning 0 (.phys 0x30000 1) 64)) (vlc.rx 5)) = none ∧
    ((spawning.findNode spawning.gang.node).map (·.graph)).getD spawning.fresh = 100 ∧ overflowed spawning 0 3 = [] ∧
    (freeSlot spawning 0 true).isSome = true ∧ spawning.isFenced 0 7 0 = false := by decide +kernel

def assisted : State := { free with nodes := [{ readyNode with assisted := true }], funcmode := 2 }

def pendRec : PendRec := ⟨3, 1, 2 ^ 63, none, none⟩

def recorded (size : Word) (g : Option Nat) : State :=
  { world with
    gangs := [{ gang with st := .saved 0 0 }]
    queues := [(3, { QueuePage.reset with frsize := size })]
    pendRecs := [{ pendRec with gang := g }] }

theorem witness_RecordsAndPosts :
    (assisted.nodeAt 0 1 = none ∧ free.nodeAt 0 0 = some readyNode ∧ readyNode.assisted = false ∧
      assisted.nodeAt 0 0 = some { readyNode with assisted := true } ∧ (assisted.queue 3).en = true ∧ landauUp assisted 0 = true ∧
      recKind readyNode.image = 0 ∧ readyNode.hold = none ∧ maskPlace assisted 0 17 128 { readyNode with assisted := true } = some [(143, 0)] ∧
      maskPlace assisted 0 0 3 { readyNode with assisted := true } = none) ∧
    (((BitVec.ofNat 16 (State.reset.landauOf 3).postWritten - (State.reset.landauOf 3).postRead).toNat
        < ((1 : Word).setWidth 16 - (State.reset.landauOf 3).postRead).toNat) ∧
      (((0 : Word).setWidth 16 - (State.reset.landauOf 3).postRead).toNat
        ≤ (BitVec.ofNat 16 (State.reset.landauOf 3).postWritten - (State.reset.landauOf 3).postRead).toNat) ∧
      (∀ n ∈ free.nodes, n.posted = true ∨ n.assisted = false) ∧
      BitVec.ofNat 16 ((assisted.modLandau 0 fun l => { l with postEntries := 4 }).landauOf 0).postWritten - (0 : Word).setWidth 16 ≠
        ((assisted.modLandau 0 fun l => { l with postEntries := 4 }).landauOf 0).postEntries ∧ Memory.wf assisted.mem = true) ∧
    (assisted.funcmode.getLsbD 1 = true ∧ free.funcmode.getLsbD 1 = false) ∧
    (nextRecord world [] (world.pendRecs.filter fun r => r.queue == 1023) = none ∧
      nextRecord (recorded 0 none) [] ((recorded 0 none).pendRecs.filter fun r => r.queue == 3) = some pendRec ∧
      nextRecord (recorded 1 (some 7)) [] ((recorded 1 (some 7)).pendRecs.filter fun r => r.queue == 3) = some { pendRec with gang := some 7 } ∧
      ((recorded 0 none).queue 3).frsize = 0 ∧ ((recorded 1 none).queue 3).frsize ≠ 0 ∧ Memory.wf (recorded 1 none).mem = true ∧
      (recorded 1 (some 7)).findGang 7 = some { gang with st := .saved 0 0 } ∧ poolAddr (recorded 1 none) 0 0 < 2 ^ 64 ∧
      pendRec.image.extractLsb' 448 64 = 0 ∧ pendRec.image.getLsbD 58 = false) := by
  refine ⟨by decide +kernel, by decide +kernel, ⟨rfl, rfl⟩, rfl, rfl, rfl, rfl, by decide, by decide +kernel, rfl, by decide +kernel, by decide +kernel,
    by decide +kernel⟩

/-! ### Engines, Hansom and the memory system -/

def withOp (o : EngOp) : State := { world with engines := [o] }

/-- A page that stage 1 does not let be written. -/
def shut : State :=
  { world with tlb := [⟨0, 0, 0, 0, 2, 0, 0x80000, ⟨0x80000, 0, 1, true, false, true⟩, leaf 0x80000 1⟩], engines := [{ engOp with dst := 0x20000 }] }

/-- A copy of one byte, one whose destination may not be written, and one whose bytes have moved. -/
theorem witness_EngineProgress :
    (world.engines.filter fun o => o.die == 3 && o.eng == 8) = [] ∧
    (engineOps (withOp { engOp with len := 1 }) 0 0 = [{ engOp with len := 1 }] ∧ (∀ x ∈ (withOp { engOp with len := 1 }).engines, x.id = 50 → x = { engOp with len := 1 }) ∧
      TablesOk (withOp { engOp with len := 1 }) ∧ CopyPlaced (withOp { engOp with len := 1 }) { engOp with len := 1 } (fun _ => 0x30000) (fun _ => 0x38000) 1) ∧
    engineOps (withOp { engOp with hold := some 1 }) 0 0 = [{ engOp with hold := some 1 }] ∧ engOp.sent = [] ∧
    (engineOps (withOp { engOp with st := .moved, ctr := 8 }) 0 0 = [{ engOp with st := .moved, ctr := 8 }] ∧ engOp.ctr = 0 ∧ engOp.efn ≠ 2 ∧
      access (withOp { engOp with st := .moved, ctr := 8 }) (engParty world engOp) .counter 8 8 .atomic
        = (withOp { engOp with st := .moved, ctr := 8 }, .ok (.phys 0x30008 1)) ∧
      ∃ e, access (withOp { engOp with st := .moved, ctr := 4 }) (engParty world engOp) .counter 4 8 .atomic
        = (withOp { engOp with st := .moved, ctr := 4 }, .error e)) ∧
    (engOp.off < engOp.len.toNat ∧ ∃ tr, engByte shut (engParty shut { engOp with dst := 0x20000 }) (0x20000 + BitVec.ofNat 64 0) .write false
        = (shut, .error tr)) := by
  refine ⟨rfl, ⟨rfl, fun x hx _ => List.mem_singleton.mp hx, by decide +kernel, by decide, rfl, by decide, fun i hi hl => ?_⟩, rfl, rfl,
    ⟨rfl, rfl, by decide, rfl, _, rfl⟩, by decide, ?_⟩
  · obtain rfl : i = 0 := by change i < 1 at hl; omega
    refine ⟨rfl, by decide, ⟨1, by decide, rfl⟩, by decide, fun j hj hl => ⟨show (0x30000 : Nat) ≠ 0x38000 by decide, fun h => ?_⟩⟩
    exact absurd (by change j < 1 at hl; omega : 0 = j) h
  · exact ⟨_, rfl⟩

/-- A step of die 0 with two tokens and one expert, in rank order, and its gate record. -/
def blockOf (tokens : Nat) : BitVec 512 := BitVec.ofNat 512 (5 * 2 ^ 64 + 2 ^ 80 + tokens * 2 ^ 128)

def hstep : HStep :=
  ⟨0, 0, 41, 3, 5, blockOf 2, BitVec.ofNat 512 1, [BitVec.ofNat 64 (2 ^ 24)], [0], false, 0, [], [], false, false, 0, 0, false, false, false⟩

def gateRec : GateRec := ⟨0, 5, [0], 3, none⟩

def stepping (st : HStep) (q : List GateRec) : State :=
  { world with steps := [st], gateQ := world.gateQ.setIfInBounds 0 q, nodes := [{ readyNode with st := .running }] }

def request : Reserve := ⟨0, 0, 5, 0, 0, 1, none, false⟩

theorem witness_HansomSteps :
    ((vlc.rx 5).toNat % 8 = 0 ∧ (vlc.rx 7).toNat ≤ 64 ∧ vlc.vq = [] ∧ world.isFenced 0 6 0 = false ∧
      RunsOn world .load .read (vlc.rx 5) 8 (gateLength (gateRecords world (.phys 0x30000 1) 2 0) / 8) (.phys 0x30000 1)) ∧
    ((vlc.setX 5 4).rx 5).toNat % 8 ≠ 0 ∧ vlc.rx 5 = 0 ∧ 64 < ((vlc.setX 9 65).rx 9).toNat ∧
    world.findStep 3 3 = none ∧ (stepping hstep []).findStep 0 0 = some hstep ∧ takeFirst 5 [{ gateRec with step := 6 }] = none ∧
    takeFirst 5 [{ gateRec with step := 6 }, gateRec] = some (gateRec, [{ gateRec with step := 6 }]) ∧
    (blkTok hstep.block ≤ ({ hstep with taken := 2 } : HStep).taken ∧ hstep.taken + 1 < blkTok hstep.block ∧ malformed hstep gateRec = false ∧
      malformed hstep { gateRec with token := 2 } = true) ∧
    ((stepping { hstep with closed := 1 } []).closeCell 0 0).count = 0 ∧
    (hstep.waitsHost = false ∧ hstep.closed = 0 ∧ hstep.granted < rounds hstep ∧
      (∀ e ∈ stepDies hstep, closedFor { stepping { hstep with closed := 1 } [] with closing := [(cellKey 0 0, ⟨1, 5, 1, 1, 0⟩)], reserves := [request] } 0 e 5 1
        = true) ∧
      asked { stepping { hstep with closed := 1 } [] with reserves := [request] } { hstep with closed := 1 } 1 = [request] ∧ request.slot = none) ∧
    (∃ r ∈ (stepping { hstep with closed := 1 } [gateRec]).gateQ[0]?.getD [], r.step.toNat = hstep.stepNo ∧ r.hold = none) ∧
    rounds hstep = 1 ∧ (({ hstep with closed := 1, granted := 1, rowsDone := true, recordsDone := true } : HStep).closed = rounds hstep) ∧
    ({ hstep with waitsHost := true } : HStep).stepNo = 5 ∧
    (world.reqTransit.find? (fun r => r.home == 3) = none ∧
      ({ world with reqTransit := [request] } : State).reqTransit.find? (fun r => r.home == 0) = some request) ∧
    (world.closeTransit.find? (fun x => x.home == 3 && x.src == 3) = none ∧
      ({ world with closeTransit := [⟨3, 0, 5, 1, 0, 0, 3, .home⟩] } : State).closeTransit.find? (fun x => x.home == 0 && x.src == 3)
        = some ⟨3, 0, 5, 1, 0, 0, 3, .home⟩ ∧
      closeNext ⟨3, 0, 5, 1, 0, 0, 3, .xbar 3 18⟩ = some (.seam 3 0) ∧ closeNext ⟨3, 0, 5, 1, 0, 0, 3, .seam 3 0⟩ = some .home) ∧
    TablesOk world ∧ CachesOk world ∧ Coherent world 0 ∧ (busy.vlc.vq ≠ [] ∧ busy.vlc.inHandler = false) := by
  have empty : gateLength (gateRecords world (.phys 0x30000 1) 2 0) / 8 = 2 := by decide +kernel
  refine ⟨⟨by decide +kernel, by decide +kernel, rfl, rfl, ?_⟩, by decide +kernel, by decide +kernel, by decide +kernel, rfl, rfl, by decide, by decide,
    by decide +kernel, by decide +kernel, by decide +kernel, ⟨gateRec, by decide +kernel⟩, by decide +kernel, by decide +kernel, rfl, by decide +kernel,
    by decide +kernel, tablesOk, cachesOk, worldCoherent, nofun, rfl⟩
  rw [empty]
  intro k hk
  interval_cases k <;> exact ⟨rfl, by decide⟩

def loStore (p : LoPlace) : LoStore := ⟨0x70000, 9, 5, 0, 1, false, 3, p⟩

def dirtyLine : L1Line := ⟨1536, BitVec.allOnes 128, 1, 7, false, false, 3, .normal, 0⟩

/-- Two levels of tables and a leaf that maps addresses to themselves. -/
def tables : State := { world with tlb := [], mem := [(0, 1), (1, 0x20), (0x2000, 0x3F)] }

/-- An LO store before the fenced coupling 0, and one before the fenced seam from die 0 to die 1. -/
theorem witness_MemoryEvents_fences :
    ({ world with fenced := [(0, 5, 0)] } : State).isFenced 0 5 0 = true ∧ (loStore (.coupling 0)).place = .coupling 0 ∧
    seamFenced { world with fenced := [(0, 4, seamPort 0 1)] } 0 1 = true := by decide +kernel

/-- `vld.fe` of the full granule 0 of the own LS, whose wait has been served. -/
def feEntry : VEntry := { queued (.vldFe 0 4 8) with d := 4, xa := 0x00FFFF8000000000 }

def served : State :=
  { world with vlc := { vlc with vq := [feEntry], vwait := .served 0 }, cores := [(0, { CoreSt.reset with fe := [0], feq := [(0, 0)] })] }

theorem witness_MemoryEvents_fullEmpty :
    served.vlc.status = .running ∧ served.vlc.vwait = .served 0 ∧ served.vlc.vq = [feEntry] ∧ served.vlc.fan = none ∧ served.vlc.vstart = 0 ∧
    feEntry.i = .vldFe 0 4 8 ∧ feEntry.strip = none ∧ feEntry.ahead = 0 ∧ feEntry.vl = 1 ∧ feEntry.d < 256 ∧
    feEntry.vt = ⟨.e32, .e32, 0, .undisturbed, false, .i⟩ ∧ served.vlc.active 0 0 = true ∧
    accessIn .plain served served.me .fe feEntry.xa 4 .read = (served, .ok (.ls 0 0)) ∧ feServed served 0 0 0 = true :=
  ⟨rfl, rfl, rfl, rfl, rfl, rfl, rfl, rfl, rfl, by decide, rfl, by decide +kernel, rfl, by decide +kernel⟩

theorem witness_MemoryEvents :
    (world.loTransit[0]? = none ∧ ({ world with loTransit := [loStore .home] } : State).loTransit[0]? = some (loStore .home) ∧
      [loStore .home, loStore .home].findIdx? (sameQueue (loStore .home)) = some 0 ∧
      placeOf 0x70000 = .device ∧ (loStore (.xbar 0 17)).place = .xbar 0 17 ∧ homeDie 0x70000 = 3) ∧
    (placeOf (1536 * 128) = .device ∧ dirtyLine ∈ (({ world with cores := [(575, { CoreSt.reset with l1 := [dirtyLine] })] } : State).core 575).l1 ∧
      (∀ w ∈ world.writeBacks, ¬ (w.core = 575 ∧ w.held.line = 1536)) ∧
      ∃ w ∈ ({ world with writeBacks := [⟨575, 0, dirtyLine⟩] } : State).writeBacks, w.core = 575 ∧ w.held.line = 1536) ∧
    (((CoreSt.reset.sent.all fun x => decide (x.2 < 2 ^ 32 - 2)) = true) ∧
      (({ CoreSt.reset with sent := [(0, 2 ^ 32 - 2)] } : CoreSt).sent.all fun x => decide (x.2 < 2 ^ 32 - 2)) = false) ∧
    ((tlbFind world (queueParty 0 3) 0).isSome = true ∧ tlbFind tables (queueParty 3 3) 0x00FFFF7FFFFFFFFF = none ∧ (∃ u l1 l2 pa,
      leavesOf tables (queueParty 3 3) 65536 .read = (u, .ok (l1, l2, pa))) ∧
      ∃ u tr, leavesOf { tables with mem := [] } (queueParty 3 3) 65536 .read = (u, .error tr)) ∧
    ((world.die 3).cycles < (world.die 3).epoch + 2 ^ 20 ∧
      ((world.modDie 3 fun x => { x with cycles := 2 ^ 20 }).die 3).epoch + 2 ^ 20 ≤ ((world.modDie 3 fun x => { x with cycles := 2 ^ 20 }).die 3).cycles ∧
      world.funcmode.getLsbD 2 = false ∧ ({ world with funcmode := 4 } : State).funcmode.getLsbD 2 = true) ∧
    (({ vlc with status := .satisfied (.barrier 7) } : Vlc).status = .satisfied (.barrier 7) ∧ leavesL1 world 0 .gang ∧
      ({ vlc with status := .satisfied (.counter 0x30000 2 .dev) } : Vlc).status = .satisfied (.counter 0x30000 2 .dev) ∧ leavesL1 world 0 .dev) ∧
    ((∀ b, vlc.status ≠ .satisfied b) ∧ (∀ k, vlc.vwait ≠ .served k) ∧ vlc.status ≠ .absent) ∧
    (world.ckpt = none ∧ Memory.wf world.mem = true ∧ 0 * 65536 < deviceEnd ∧ ([0] : List Nat).contains 0 = true ∧ ([] : List Nat).contains 0 = false ∧
      deviceEnd ≤ (deviceEnd / 65536) * 65536) := by
  refine ⟨⟨rfl, rfl, by decide, by decide, rfl, by decide⟩, ⟨by decide, List.mem_singleton_self _, nofun, _, List.mem_singleton_self _, rfl, rfl⟩, by decide +kernel, ⟨by decide +kernel, by decide +kernel, ?_, ?_⟩,
    by decide +kernel, ⟨rfl, by decide +kernel, rfl, by decide +kernel⟩, ⟨nofun, nofun, nofun⟩, by decide +kernel⟩
  · exact ⟨(leavesOf tables (queueParty 3 3) 65536 .read).1, _, _, _, rfl⟩
  · exact ⟨(leavesOf { tables with mem := [] } (queueParty 3 3) 65536 .read).1, _, rfl⟩

/-! ### Results from the rules -/

/-- Scalar register `n` after an instruction. -/
def after (i : Instr) (s : State) (n : Fld) : Option Word :=
  match exec i s with
  | .next t => some (t.vlc.rx n)
  | _ => none

def pcAfter (i : Instr) (s : State) : Option Word :=
  match exec i s with
  | .next t => some t.vlc.pc
  | _ => none

/-- x9 = −2^63, x10 = −1, x7 = 2. -/
def edges : State := withVlc fun v => (v.setX 9 0x8000000000000000).setX 10 0xFFFFFFFFFFFFFFFF

/-- R94: wrapping, the shift amount's six bits, the signed and unsigned high products, and the edges of division. -/
theorem test_scalar_results :
    after (.add 11 10 7) edges 11 = some 1 ∧ after (.shl 11 7 10) edges 11 = some 0 ∧ after (.sar 11 9 10) edges 11 = some 0xFFFFFFFFFFFFFFFF ∧
    after (.mulh 11 10 10) edges 11 = some 0 ∧ after (.mulhn 11 10 10) edges 11 = some 0xFFFFFFFFFFFFFFFE ∧
    after (.div 11 9 10) edges 11 = some 0x8000000000000000 ∧ after (.rem 11 9 10) edges 11 = some 0 ∧
    after (.divn 11 7 5) edges 11 = some 0xFFFFFFFFFFFFFFFF ∧ after (.rem 11 10 7) edges 11 = some 0xFFFFFFFFFFFFFFFF ∧
    after (.clz 11 5 ) edges 11 = some 64 ∧ after (.min 11 9 7) edges 11 = some 0x8000000000000000 := by decide +kernel

/-- R92: x0 reads zero and keeps nothing, and a source may be the destination. -/
theorem test_x0 : after (.add 0 7 7) edges 0 = some 0 ∧ after (.add 7 7 7) edges 7 = some 4 := by decide +kernel

/-- R96, R98: a signed immediate, and a branch backward from pc 0. -/
theorem test_immediates_and_branches :
    after (.lui 11 0x40000) edges 11 = some 0xFFFFFFFFC0000000 ∧ pcAfter (.bne 7 5 0xFFF) edges = some 0xFFFFFFFFFFFFFFFC ∧
    pcAfter (.blt 7 9 5) edges = some 4 ∧ pcAfter (.bltn 7 9 5) edges = some 20 := by decide +kernel

/-- R223: a signed load of a byte, from memory that lists it. -/
theorem test_load_sign : after (.ldI8 11 5 0) { edges with mem := [(0x30000, 0x80)] } 11 = some 0xFFFFFFFFFFFFFF80 := by decide +kernel

end Sys2Proof.Tests
end

/-! ## Machine family: reset and the entry of the handler -/

namespace Sys2Proof.Machine

/-- An unlisted core, queue or die of the reset state reads as its reset value. -/
theorem State.reset_core (c : Nat) : State.reset.core c = CoreSt.reset := rfl

theorem State.reset_queue (q : Nat) : State.reset.queue q = QueuePage.reset := rfl

theorem State.reset_die_phase (d : Nat) : (State.reset.die d).phase = 0 := by
  show ((Vector.replicate 4 Die.reset)[d]?.getD Die.reset).phase = 0
  by_cases h : d < 4
  · simp [h, Die.reset]
  · simp [h, Die.reset]

/-- Settles O6. -/
theorem resetValues : Obligations.ResetValues := by
  unfold Obligations.ResetValues
  refine ⟨rfl, by decide, rfl, rfl, rfl, rfl, rfl, rfl, rfl, rfl, rfl, rfl, rfl, rfl, rfl, ?_, ?_, ?_, ?_, ?_, ?_⟩
  · exact fun q => congrArg QueuePage.en (State.reset_queue q)
  · exact fun q => congrArg QueuePage.prio (State.reset_queue q)
  · exact fun q => congrArg QueuePage.cfg (State.reset_queue q)
  · exact fun c => ⟨rfl, rfl, rfl, rfl⟩
  · exact State.reset_die_phase
  · exact fun a => rfl

/-! ### Faults that enter the handler (R108, R363, R364) -/

/-- The fault code register holds VEC above the code (R108). -/
theorem faultRegsOf_eq (f : FaultInfo) :
    faultRegsOf f = ⟨BitVec.ofBool f.vec ++ f.code, f.va, f.pc.setWidth 56, f.info⟩ := by
  have hc : BitVec.ofNat 9 (f.code.toNat + if f.vec then 256 else 0) = BitVec.ofBool f.vec ++ f.code := by
    apply BitVec.eq_of_toNat_eq
    have := f.code.isLt
    rw [BitVec.toNat_append, ← Nat.shiftLeft_add_eq_or_of_lt this]
    cases f.vec
    · simp; omega
    · simp; omega
  have hp : BitVec.ofNat 56 f.pc.toNat = f.pc.setWidth 56 := by
    apply BitVec.eq_of_toNat_eq
    simp
  rw [faultRegsOf, hc, hp]

/-- The handler's address is HANDLER.PC × 4 (R364). -/
theorem handlerPc_times_four (p : BitVec 54) : p.zeroExtend 64 <<< 2 = ((p ++ 0#2).setWidth 64 : Word) := by
  apply BitVec.eq_of_toNat_eq
  have := p.isLt
  simp only [BitVec.toNat_shiftLeft, BitVec.toNat_setWidth, BitVec.toNat_append, BitVec.toNat_ofNat, Nat.shiftLeft_eq,
    Nat.zero_mod, Nat.or_zero]
  omega

/-- Where the code goes on once a fault is served (R117). -/
theorem afterCode_iff (c : BitVec 8) : afterCode c = true ↔ c = 0x60 ∨ c = 0x61 := by
  simp [afterCode, fcTRAP, fcBREAK]

/-- With HANDLER.EN set only a stage-2 translation fault goes to the host (R363). -/
theorem goesToHost_eq_false {v : Vlc} {f : FaultInfo} (en : v.handlerEn = true)
    (st : ¬ ((f.code = 0x10 ∨ f.code = 0x11) ∧ f.info.extractLsb' 2 2 = 2)) : goesToHost v f = false := by
  have field_eq : field f.info.toNat 2 2 = (f.info.extractLsb' 2 2).toNat := by
    simp [field, BitVec.extractLsb'_toNat, Nat.shiftRight_eq_div_pow]
  have two : (f.info.extractLsb' 2 2).toNat = 2 ↔ f.info.extractLsb' 2 2 = 2 := by
    rw [← BitVec.toNat_inj]; rfl
  simp only [goesToHost, en, field_eq, fcXLATE, fcPROT, Bool.not_true, Bool.false_or, Bool.and_eq_false_iff, Bool.or_eq_false_iff,
    beq_eq_false_iff_ne, ne_eq, two]
  by_cases h : f.code = 0x10 ∨ f.code = 0x11
  · exact .inr fun e => st ⟨h, e⟩
  · exact .inl ⟨fun e => h (.inl e), fun e => h (.inr e)⟩

/-- The VLC in its handler, in the words of R364. -/
theorem enterHandler_eq (v : Vlc) (f : FaultInfo) : enterHandler v f = { v with
    faultRegs := ⟨BitVec.ofBool f.vec ++ f.code, f.va, f.pc.setWidth 56, f.info⟩
    handlerEn := false
    inHandler := true
    status := .running
    queuedWait := false
    dvec := f.vec
    dcode := f.code
    rpc := if f.vec then v.pc else if f.code = 0x60 ∨ f.code = 0x61 then f.pc + 4 else f.pc
    pc := (v.handlerPc ++ 0#2).setWidth 64 } := by
  have back : f.pc + (if afterCode f.code then 4 else 0) = if f.code = 0x60 ∨ f.code = 0x61 then f.pc + 4 else f.pc := by
    by_cases h : f.code = 0x60 ∨ f.code = 0x61
    · rw [if_pos h, if_pos ((afterCode_iff _).mpr h)]
    · rw [if_neg h, if_neg (fun e => h ((afterCode_iff _).mp e))]
      exact BitVec.add_zero _
  rw [enterHandler, faultRegsOf_eq, handlerPc_times_four, back]

/-- A fault is delivered at once, or a halt of the gang has come first and records it (R32). -/
theorem takeFault_delivers (s : State) (f : FaultInfo) : takeFault s f = deliverFault s f ∨
    takeFault s f = { s with vlc := { s.vlc with pendFault := some f } } ∧ ∃ why, s.gang.st = .halting why := by
  cases first : haltFirst s
  · exact .inl (by simp [takeFault, first])
  · refine .inr ⟨by simp [takeFault, first, State.modVlc], ?_⟩
    unfold haltFirst at first
    split at first
    · exact ⟨_, ‹_›⟩
    · exact absurd first (by simp)

/-- Settles O29, by `takeFault_delivers` and the handler's registers of `enterHandler_eq`. -/
theorem faultEntersHandler : Obligations.FaultEntersHandler := by
  unfold Obligations.FaultEntersHandler
  refine ⟨takeFault_delivers, fun s f en st => ?_⟩
  have keep : (countPoisonFault s f.code (coreDie s.vlc.core)).vlc = s.vlc := by
    rw [(countPoisonFault_eq s f.code _).1]
  simp only [deliverFault, keep, goesToHost_eq_false en st, enterHandler_eq]
  rfl

end Sys2Proof.Machine


/-! ## Machine family: a release under a checkpoint whose copy runs past the host window -/

namespace Sys2Proof.Machine

/-- A dirty RC line of page 1. -/
def sinkLine : L1Line := ⟨512, 1, 1, 0, false, false, 0, .normal, 0⟩

/-- A core holds a dirty line of page 1 while a checkpoint runs whose sink is the last page of the host window (R401): page 1 of device
memory goes to the first address behind the window. -/
def sinkState : State :=
  { State.reset with
    cores := [(0, { CoreSt.reset with l1 := [sinkLine] })]
    mem := [(65536, 7)]
    ckpt := some ⟨2 ^ 50 - 65536, 0, [], 0, false⟩ }

theorem sinkState_tables : TablesOk sinkState := by decide +kernel

theorem sinkState_core (c : Nat) : (sinkState.core c).l1 = if c = 0 then [sinkLine] else [] := by
  cases c <;> rfl

theorem sinkState_l1Cores : l1Cores sinkState 0 = [0] := by decide +kernel

theorem sinkState_placed : CachesPlaced sinkState 0 := by
  rw [CachesPlaced, sinkState_l1Cores]
  refine ⟨fun c hc l hl => ?_, fun w hw => nomatch hw⟩
  rw [List.mem_singleton.mp hc] at hl ⊢
  rw [sinkState_core] at hl
  rw [List.mem_singleton.mp hl]
  exact ⟨by decide +kernel, by decide +kernel, fun w hw => nomatch hw⟩

/-- The release writes the line back, and the page's copy changes the byte behind the host window. -/
theorem sinkState_release :
    homeByte (releaseAt sinkState 0 .dev) 0 (.phys 0xC000000000000 0) 0 = 7 ∧ homeByte sinkState 0 (.phys 0xC000000000000 0) 0 = 0 := by
  decide +kernel

/-- Refutes O23: its last clause says that a release changes no byte which an access at the home finds, outside host memory or with no
checkpoint running.  With a checkpoint whose sink lies near the end of the host window (R401), the copy that the write-back of the release
makes first runs past the window, and a byte at a peer's address (R185) changes: `sinkState`. -/
theorem not_fenceEffects : ¬ Obligations.FenceEffects := by
  unfold Obligations.FenceEffects
  rintro ⟨-, -, -, -, keeps⟩
  have lines (c : Nat) : ((sinkState.core c).l1.map (·.line)).Nodup := by
    rw [sinkState_core]
    split <;> decide
  have same := keeps sinkState .dev 0 sinkState_tables lines sinkState_placed (fun x hx => nomatch hx) (.phys 0xC000000000000 0) 0 rfl
    (.inr (Nat.zero_le _)) (.inl (by decide))
  rw [sinkState_release.1, sinkState_release.2] at same
  exact absurd same (by decide)

end Sys2Proof.Machine


/-! ## Machine family: a full-empty read on a state whose table of cores lists a core twice -/

namespace Sys2Proof.Machine

/-- A gang with 16 KiB of LS at the bottom of core 0. -/
def twiceGang : Gang := { Gang.blank with cores := [0], lsBase := [0], members := 1, shape := 1 + 16 + 256 }

/-- A `vld.fec` of one element at the bottom of the LS window. -/
def twiceEntry : VEntry := { capture Vlc.reset (.vldFec 0 8 5) 8 5 0 0 0x00FFFF8000000000 0 with vl := 1 }

/-- The granule that the read waits for is full; the table of cores lists core 0 a second time, with another granule full. -/
def twiceState : State :=
  { State.reset with
    vlc := { Vlc.reset with status := .running, vwait := .served 0, vq := [twiceEntry] }
    gangs := [twiceGang]
    cores := [(0, { CoreSt.reset with fe := [0] }), (0, { CoreSt.reset with fe := [1] })] }

theorem twiceState_access :
    accessIn .plain twiceState twiceState.me .fe twiceEntry.xa 4 .read = (twiceState, .ok (.ls 0 0)) := by rfl

/-- Emptying the granule leaves core 0 at its reset value, whose entry leaves the table: the second entry of core 0 comes to light. -/
theorem twiceState_wakes : (match exec (.waitWake 0 0) twiceState with
    | .next t => (t.core 0).fe
    | _ => []) = [1] := by decide +kernel

/-- Refutes O60: its clause on a full-empty wait says nothing of the tables of the state, and fails where the table of cores is not in
canonical form: `twiceState`. -/
theorem not_memoryEvents : ¬ Obligations.MemoryEvents := by
  unfold Obligations.MemoryEvents
  rintro ⟨-, -, -, -, -, -, -, -, -, -, wake, -⟩
  obtain ⟨t, run, -, -, -, -, -, -, full, -⟩ := wake twiceState twiceEntry true 0 8 5 0 (by decide) (by decide) rfl rfl rfl rfl rfl rfl rfl rfl
    rfl (by decide) rfl (by decide +kernel) twiceState_access (by decide +kernel)
  have emptied := twiceState_wakes
  have here : exec (.waitWake 0 0) twiceState = .next t := run
  rw [here] at emptied
  have left := (full 1).mp (show (t.core 0).fe.contains 1 = true by rw [show (t.core 0).fe = [1] from emptied]; rfl)
  exact absurd left.1 (by decide +kernel)

end Sys2Proof.Machine


/-! ## Machine family: a retirement on a state whose table of cores lists a core twice -/

namespace Sys2Proof.Machine

/-- A released gang with 16 KiB of LS at the bottom of core 0. -/
def leavingGang : Gang := { Gang.blank with st := .releasing false, cores := [0], lsBase := [0], shape := 1 + 16 + 256 }

/-- A dirty line at the first byte of core 0's LS. -/
def hiddenLine : L1Line := ⟨lsAddr 0 0 / 128, 1, 1, 7, false, false, 0, .normal, 0⟩

/-- Core 0 holds one full granule and nothing else; the table of cores lists core 0 a second time, with the dirty line. -/
def leavingState : State :=
  { State.reset with
    gangs := [leavingGang]
    cores := [(0, { CoreSt.reset with fe := [0] }), (0, { CoreSt.reset with l1 := [hiddenLine] })] }

theorem leavingState_l1 (c : Nat) : (leavingState.core c).l1 = [] := by
  cases c <;> rfl

/-- Clearing the gang's LS leaves core 0 at its reset value, whose entry leaves the table: the second entry comes to light, and its line
is written back to the region that was cleared. -/
theorem leavingState_retires : (match exec (.gangRetirement 0) leavingState with
    | .next t => memByte t.mem (lsAddr 0 0 + 0)
    | _ => 0) = 7 := by decide +kernel

/-- Refutes O55: its clause on retirement says nothing of the tables of the state, and fails where the table of cores is not in canonical
form: `leavingState`. -/
theorem not_gangLife : ¬ Obligations.GangLife := by
  unfold Obligations.GangLife
  rintro ⟨-, -, -, -, retire, -⟩
  obtain ⟨t, run, -, -, cleared⟩ := (retire leavingState leavingGang false rfl rfl).2 rfl (fun n hn => nomatch hn)
  have here : exec (.gangRetirement 0) leavingState = .next t := run
  have back := leavingState_retires
  rw [here] at back
  have gone := (cleared (by decide) rfl (fun c l hl => by rw [leavingState_l1] at hl; exact nomatch hl) (fun w hw => nomatch hw)).2
    (0, 0) (List.mem_singleton_self _) 0 (by decide)
  exact absurd (back.symm.trans gone) (by decide)

end Sys2Proof.Machine


/-! ## Machine family: what the operations of memory leave unchanged -/

namespace Sys2Proof.Machine

/-- A table in canonical form reads back what was last written at a key. -/
theorem State.core_modCore {s : State} (wf : Tab.wf CoreSt.reset s.cores = true) (c b : Nat) (f : CoreSt → CoreSt) :
    (s.modCore c f).core b = if b = c then f (s.core c) else s.core b := Tab.get_set _ wf c b _

theorem State.modCore_wf {s : State} (wf : Tab.wf CoreSt.reset s.cores = true) (c : Nat) (f : CoreSt → CoreSt) :
    Tab.wf CoreSt.reset (s.modCore c f).cores = true := Tab.wf_set _ wf c _

/-- A VLC while memory is accessed: its plans may turn stale and its wait may be satisfied (R302, R346, R348). -/
structure VlcKept (v w : Vlc) : Prop where
  rest : w = { v with status := w.status, plans := w.plans }
  status : w.status = v.status ∨ ∃ x, v.status = .waiting x ∧ w.status = .satisfied x

/-- A core while memory is accessed: only its L1, its rounds and its translations change (R193, R213, R260). -/
def CoreKept (k m : CoreSt) : Prop :=
  m = { k with l1 := m.l1, l1miss := m.l1miss, round := m.round, sent := m.sent, outs := m.outs, tlb := m.tlb }

/-- What the operations of memory leave unchanged: everything but memory, caches, counters of accesses and what waits for memory. -/
structure MemKept (s t : State) : Prop where
  rest : t = { s with
    vlc := t.vlc, others := t.others, cores := t.cores, mem := t.mem, poison := t.poison, lo := t.lo, writeBacks := t.writeBacks
    snoops := t.snoops, arrivals := t.arrivals, l2 := t.l2, modes := t.modes, tlb := t.tlb, walkCache := t.walkCache, perf := t.perf
    demand := t.demand, dies := t.dies, ckpt := t.ckpt }
  vlc : VlcKept s.vlc t.vlc
  others : List.Forall₂ VlcKept s.others t.others
  coresWf : Tab.wf CoreSt.reset s.cores = true → Tab.wf CoreSt.reset t.cores = true
  core : Tab.wf CoreSt.reset s.cores = true → ∀ c, CoreKept (s.core c) (t.core c)

namespace VlcKept

@[refl] theorem refl (v : Vlc) : VlcKept v v := ⟨rfl, .inl rfl⟩

theorem trans {u v w : Vlc} (a : VlcKept u v) (b : VlcKept v w) : VlcKept u w where
  rest := b.rest.trans (congrArg (fun x : Vlc => { x with status := w.status, plans := w.plans }) a.rest)
  status := by
    obtain e | ⟨x, e, f⟩ := b.status
    · rw [e]; exact a.status
    · obtain g | ⟨y, g, h⟩ := a.status
      · exact .inr ⟨x, g ▸ e, f⟩
      · exact absurd (h.symm.trans e) (by simp)

theorem sameRegisters {v w : Vlc} (h : VlcKept v w) : SameRegisters v w :=
  h.rest.trans (congrArg (fun x : Vlc => { v with
    pc := x.pc, status := w.status, plans := w.plans, queuedWait := x.queuedWait, vwait := x.vwait, barrier := x.barrier }) h.rest.symm)

/-- A VLC that waits for nothing keeps its status. -/
theorem status_eq {v w : Vlc} (h : VlcKept v w) (n : ∀ x, v.status ≠ .waiting x) : w.status = v.status := by
  obtain e | ⟨x, e, -⟩ := h.status
  · exact e
  · exact absurd e (n x)

theorem gang {v w : Vlc} (h : VlcKept v w) : w.gang = v.gang := (congrArg Vlc.gang h.rest : _)
theorem core {v w : Vlc} (h : VlcKept v w) : w.core = v.core := (congrArg Vlc.core h.rest : _)
theorem vq {v w : Vlc} (h : VlcKept v w) : w.vq = v.vq := (congrArg Vlc.vq h.rest : _)
theorem pc {v w : Vlc} (h : VlcKept v w) : w.pc = v.pc := (congrArg Vlc.pc h.rest : _)

theorem forall₂_refl (l : List Vlc) : List.Forall₂ VlcKept l l := List.forall₂_same.mpr fun v _ => refl v

theorem forall₂_trans {as bs cs : List Vlc} (h : List.Forall₂ VlcKept as bs) (k : List.Forall₂ VlcKept bs cs) :
    List.Forall₂ VlcKept as cs := by
  induction h generalizing cs with
  | nil => cases k; exact .nil
  | cons a _ ih =>
    cases k with
    | cons b k => exact .cons (a.trans b) (ih k)

theorem of_mem {as bs : List Vlc} (h : List.Forall₂ VlcKept as bs) {w : Vlc} (m : w ∈ bs) : ∃ v ∈ as, VlcKept v w := by
  induction h with
  | nil => exact nomatch m
  | cons a _ ih =>
    obtain rfl | m := List.mem_cons.mp m
    · exact ⟨_, List.mem_cons_self, a⟩
    · obtain ⟨v, hv, k⟩ := ih m
      exact ⟨v, List.mem_cons_of_mem _ hv, k⟩

end VlcKept

namespace CoreKept

@[refl] theorem refl (k : CoreSt) : CoreKept k k := rfl

theorem trans {k m n : CoreSt} (a : CoreKept k m) (b : CoreKept m n) : CoreKept k n :=
  Eq.trans b (congrArg (fun x : CoreSt => { x with
    l1 := n.l1, l1miss := n.l1miss, round := n.round, sent := n.sent, outs := n.outs, tlb := n.tlb }) a)

theorem accOwner {k m : CoreSt} (h : CoreKept k m) : m.accOwner = k.accOwner := (congrArg CoreSt.accOwner h : _)

end CoreKept

namespace MemKept

@[refl] theorem refl (s : State) : MemKept s s :=
  ⟨rfl, .refl _, VlcKept.forall₂_refl _, id, fun _ _ => .refl _⟩

theorem trans {s t u : State} (a : MemKept s t) (b : MemKept t u) : MemKept s u where
  rest := b.rest.trans (congrArg (fun x : State => { x with
    vlc := u.vlc, others := u.others, cores := u.cores, mem := u.mem, poison := u.poison, lo := u.lo, writeBacks := u.writeBacks
    snoops := u.snoops, arrivals := u.arrivals, l2 := u.l2, modes := u.modes, tlb := u.tlb, walkCache := u.walkCache, perf := u.perf
    demand := u.demand, dies := u.dies, ckpt := u.ckpt }) a.rest)
  vlc := a.vlc.trans b.vlc
  others := VlcKept.forall₂_trans a.others b.others
  coresWf := fun w => b.coresWf (a.coresWf w)
  core := fun w c => (a.core w c).trans (b.core (a.coresWf w) c)

/-- Operations that keep, one after the other, keep. -/
theorem foldl {α : Type} {f : State → α → State} (h : ∀ s x, MemKept s (f s x)) (l : List α) (s : State) : MemKept s (l.foldl f s) := by
  induction l generalizing s with
  | nil => exact refl s
  | cons x l ih => exact (h s x).trans (ih _)

/-- A change of nothing but memory, caches and counts. -/
theorem of_fields {s t : State} (h : t = { s with
    mem := t.mem, poison := t.poison, lo := t.lo, writeBacks := t.writeBacks, snoops := t.snoops, arrivals := t.arrivals, l2 := t.l2
    modes := t.modes, tlb := t.tlb, walkCache := t.walkCache, perf := t.perf, demand := t.demand, dies := t.dies, ckpt := t.ckpt } := by rfl) :
    MemKept s t := by
  rw [h]
  exact ⟨rfl, .refl _, VlcKept.forall₂_refl _, id, fun _ _ => .refl _⟩

theorem modCore {s : State} {f : CoreSt → CoreSt} (c : Nat) (h : ∀ k, CoreKept k (f k) := by exact fun _ => rfl) : MemKept s (s.modCore c f) where
  rest := rfl
  vlc := .refl _
  others := VlcKept.forall₂_refl _
  coresWf := fun w => State.modCore_wf w c f
  core := fun w b => by
    rw [State.core_modCore w]
    split
    · subst b
      exact h _
    · rfl

theorem mapVlcs {s : State} {f : Vlc → Vlc} (h : ∀ v, VlcKept v (f v)) : MemKept s (s.mapVlcs f) where
  rest := rfl
  vlc := h _
  others := by
    rw [State.mapVlcs_others]
    exact List.forall₂_map_right_iff.mpr (List.forall₂_same.mpr fun v _ => h v)
  coresWf := id
  core := fun _ _ => .refl _

section
variable {s t : State} (h : MemKept s t)
include h

/-- Every VLC stems from one before. -/
theorem of_mem {w : Vlc} (m : w ∈ t.vlcs) : ∃ v ∈ s.vlcs, VlcKept v w := by
  obtain rfl | m := List.mem_cons.mp m
  · exact ⟨s.vlc, List.mem_cons_self, h.vlc⟩
  · obtain ⟨v, hv, k⟩ := VlcKept.of_mem h.others m
    exact ⟨v, List.mem_cons_of_mem _ hv, k⟩

theorem gangs : t.gangs = s.gangs := (congrArg State.gangs h.rest : _)
theorem nodes : t.nodes = s.nodes := (congrArg State.nodes h.rest : _)
theorem graphs : t.graphs = s.graphs := (congrArg State.graphs h.rest : _)
theorem engines : t.engines = s.engines := (congrArg State.engines h.rest : _)
theorem queues : t.queues = s.queues := (congrArg State.queues h.rest : _)
theorem fenced : t.fenced = s.fenced := (congrArg State.fenced h.rest : _)
theorem fresh : t.fresh = s.fresh := (congrArg State.fresh h.rest : _)
theorem funcmode : t.funcmode = s.funcmode := (congrArg State.funcmode h.rest : _)
theorem tick : t.tick = s.tick := (congrArg State.tick h.rest : _)
theorem inputs : t.inputs = s.inputs := (congrArg State.inputs h.rest : _)
theorem landau : t.landau = s.landau := (congrArg State.landau h.rest : _)
theorem pendRecs : t.pendRecs = s.pendRecs := (congrArg State.pendRecs h.rest : _)

theorem findGang (g : Nat) : t.findGang g = s.findGang g := by simp only [State.findGang, h.gangs]
theorem gangOf (g : Nat) : t.gangOf g = s.gangOf g := by simp only [State.gangOf, h.findGang]
theorem gang : t.gang = s.gang := by rw [State.gang, h.gangOf, h.vlc.gang, State.gang]
theorem queue (q : Nat) : t.queue q = s.queue q := by simp only [State.queue, h.queues]
theorem isFused (d c : Nat) : Machine.isFused t d c = Machine.isFused s d c := by
  simp only [Machine.isFused, State.isFenced, h.fenced, h.gangs]
theorem l1Core (c pa : Nat) : Machine.l1Core t c pa = Machine.l1Core s c pa := by simp only [Machine.l1Core, h.isFused]
theorem l1Cores (c : Nat) : Machine.l1Cores t c = Machine.l1Cores s c := by simp only [Machine.l1Cores, h.isFused]

end

end MemKept

/-! ### Writes performed at a home (R199, R254, R302, R346) -/

theorem copyFirst_kept (s : State) (pa : Nat) : MemKept s (copyFirst s pa) := by
  unfold copyFirst
  split
  · rfl
  · dsimp only
    split
    · rfl
    · exact .of_fields

theorem copyPages_kept (s : State) (pa n : Nat) : MemKept s (copyPages s pa n) := .foldl (fun s _ => copyFirst_kept s _) _ _

theorem markStale_kept (s : State) (core slot plan : Nat) : MemKept s (markStale s core slot plan) := by
  unfold markStale State.modVlcAt
  refine .mapVlcs fun v => ?_
  dsimp only
  repeat' split
  · exact ⟨rfl, .inl rfl⟩
  · rfl
  · rfl
  · rfl

theorem markWatched_kept (s : State) (pa n : Nat) : MemKept s (markWatched s pa n) := .foldl (fun s _ => markStale_kept s _ _ _) _ _

theorem wakeCounters_kept (s : State) (pa n : Nat) : MemKept s (wakeCounters s pa n) := by
  refine .mapVlcs fun v => ?_
  split
  · split
    · exact ⟨rfl, .inr ⟨_, ‹_›, rfl⟩⟩
    · rfl
  · rfl

theorem mergeL2_kept (s : State) (line : Nat) (mask : BitVec 128) : MemKept s (mergeL2 s line mask) := by
  unfold mergeL2
  split
  · exact .of_fields
  · rfl

theorem homeWrite_kept (s : State) (pa : Nat) (bs : List Byte) : MemKept s (homeWrite s pa bs) := by
  have merged (u : State) : MemKept u (if placeOf pa = .device then (rangeMasks pa bs.length).foldl (fun s (x : Nat × BitVec 128) => mergeL2 s x.1 x.2) u else u) := by
    split
    · exact .foldl (fun s (x : Nat × BitVec 128) => mergeL2_kept s x.1 x.2) _ _
    · rfl
  exact ((((copyPages_kept s pa bs.length).trans (merged _)).trans .of_fields).trans (markWatched_kept _ _ _)).trans
    (wakeCounters_kept _ _ _)

/-! ### L2 lines and page modes (R197, R205) -/

theorem touchL2_kept (s : State) (die pa q : Nat) (cls : Rcl) (alloc : Bool) : MemKept s (touchL2 s die pa q cls alloc) := by
  unfold touchL2
  dsimp only
  repeat' split
  all_goals exact .of_fields

theorem changeMode_kept (s : State) (page : Nat) (m : PageMode) : MemKept s (changeMode s page m) := by
  unfold changeMode
  dsimp only
  repeat' split
  all_goals exact .of_fields

theorem noteSo_kept (s : State) (pa : Nat) (so : Bool) : MemKept s (noteSo s pa so) := by
  unfold noteSo
  split
  · exact changeMode_kept _ _ _
  · rfl

theorem countRemote_kept (s : State) (pa die q : Nat) (write : Bool) : MemKept s (countRemote s pa die q write) := by
  unfold countRemote
  split
  · rfl
  · exact .of_fields

theorem reachHome_kept (s : State) (pa die q : Nat) (write so alloc : Bool) (cls : Rcl) :
    MemKept s (reachHome s pa die q write so alloc cls) := by
  unfold reachHome
  split
  · exact ((noteSo_kept s pa so).trans (touchL2_kept _ _ _ _ _ _)).trans (countRemote_kept _ _ _ _ _)
  · rfl

theorem readReach_kept (s : State) (pa die q : Nat) (so : Bool) (cls : Rcl) : MemKept s (readReach s pa die q so cls) := by
  have h := readReach_eq s pa die q so cls
  generalize readReach s pa die q so cls = t at h ⊢
  rw [h]
  exact .of_fields

/-! ### Rounds of a core (R260, R351) -/

theorem keepRounds_kept (s : State) (core : Nat) : MemKept s (keepRounds s core) := .of_fields

theorem closeRound_kept (s : State) (core : Nat) : MemKept s (closeRound s core) :=
  (MemKept.modCore core).trans (keepRounds_kept _ core)

theorem countSent_kept (s : State) (core pa : Nat) : MemKept s (countSent s core pa) := by
  unfold countSent
  dsimp only
  split
  · exact .modCore core
  · exact (closeRound_kept s core).trans (.modCore core)

theorem countArrived_kept (s : State) (core : Nat) (round : BitVec 8) (pa : Nat) : MemKept s (countArrived s core round pa) := .of_fields

/-! ### Write-backs and updates in transit (R193, R254, R274) -/

theorem poisonSectors_kept (s : State) (secs : List Nat) : MemKept s (poisonSectors s secs) := by
  refine .foldl (fun s sec => ?_) _ _
  split
  · rfl
  · exact .of_fields

theorem arrive_kept (s : State) (w : WriteBack) : MemKept s (arrive s w) := by
  have counted (u : State) (n : Nat) : MemKept u (if w.held.uo then u else countArrived u w.core w.round n) := by
    split
    · rfl
    · exact countArrived_kept _ _ _ _
  exact (((((((copyFirst_kept s _).trans (reachHome_kept _ _ _ _ _ _ _ _)).trans (mergeL2_kept _ _ _)).trans .of_fields).trans
    (poisonSectors_kept _ _)).trans (counted _ _)).trans (markWatched_kept _ _ _)).trans (wakeCounters_kept _ _ _)

theorem depart_kept (s : State) (core : Nat) (l : L1Line) : MemKept s (depart s core l) := by
  unfold depart
  split
  · rfl
  · dsimp only
    split
    · exact .of_fields
    · exact (countSent_kept _ _ _).trans .of_fields

theorem deliverWhere_kept (s : State) (f : WriteBack → Bool) : MemKept s (deliverWhere s f) := by
  unfold deliverWhere
  split
  · exact MemKept.trans (t := { s with writeBacks := s.writeBacks.filter fun w => !f w }) .of_fields (.foldl arrive_kept _ _)
  · rfl

theorem deliverLine_kept (s : State) (core line : Nat) : MemKept s (deliverLine s core line) := deliverWhere_kept _ _

theorem writeBack_kept (s : State) (core : Nat) (l : L1Line) : MemKept s (writeBack s core l) :=
  (depart_kept s core l).trans (deliverLine_kept _ _ _)

theorem cleanLine_kept (s : State) (core : Nat) (l : L1Line) : MemKept s (cleanLine s core l) :=
  (writeBack_kept s core l).trans (.modCore core)

theorem dropLine_kept (s : State) (core pa : Nat) : MemKept s (dropLine s core pa) := .modCore _

theorem snoopWhere_kept (s : State) (f : Snoop → Bool) : MemKept s (snoopWhere s f) := by
  unfold snoopWhere
  split
  · exact MemKept.trans (t := { s with snoops := (snoopSplit s f s.snoops).2 }) .of_fields
      (.foldl (fun s (x : Snoop) => .modCore x.core) _ _)
  · rfl

theorem snoopAt_kept (s : State) (core : Nat) : MemKept s (snoopAt s core) := snoopWhere_kept _ _

theorem bypass_kept (s : State) (core pa : Nat) : MemKept s (bypass s core pa) := by
  have own : MemKept s (deliverLine (snoopAt s core) (l1Core s core pa) (pa / 128)) := (snoopAt_kept s core).trans (deliverLine_kept _ _ _)
  unfold bypass
  dsimp only
  split
  · exact own
  · exact (own.trans (writeBack_kept _ _ _)).trans (dropLine_kept _ _ _)

/-! ### The L1 (R193) -/

theorem makeRoom_kept (s : State) (core line : Nat) : MemKept s (makeRoom s core line) := by
  unfold makeRoom
  dsimp only
  repeat' split
  · rfl
  · rfl
  · exact (depart_kept _ _ _).trans (.modCore core)

theorem putLine_kept (s : State) (core pa : Nat) (l : L1Line) : MemKept s (putLine s core pa l) := by
  unfold putLine
  dsimp only
  split
  · exact .modCore _
  · exact (makeRoom_kept _ _ _).trans (.modCore _)

theorem fillLine_kept (s : State) (core pa q : Nat) (uo so : Bool) (cls : Rcl) : MemKept s (fillLine s core pa q uo so cls) := by
  have snooped : MemKept s (if so then snoopAt s core else snoopWhere s fun x => x.core == l1Core s core pa && x.pa / 128 == pa / 128) := by
    split
    · exact snoopAt_kept _ _
    · exact snoopWhere_kept _ _
  exact ((snooped.trans (readReach_kept _ _ _ _ _ _)).trans (.modCore _)).trans (putLine_kept _ _ _ _)

theorem l1Load_kept (s : State) (core pa n q : Nat) (uo so : Bool) (cls : Rcl) : MemKept s (l1Load s core pa n q uo so cls).1 := by
  have filled : MemKept s (if l1Hit s core pa n then s else fillLine s core pa q uo so cls) := by
    split
    · rfl
    · exact fillLine_kept _ _ _ _ _ _ _
  unfold l1Load
  dsimp only
  split
  · exact filled
  · exact filled

/-! ### Releases and acquires (R260, R261) -/

theorem writeBackRc_kept (s : State) (core : Nat) : MemKept s (writeBackRc s core) := by
  refine .foldl (fun s c => (deliverWhere_kept s _).trans (.foldl (fun s l => ?_) _ _)) _ _
  split
  · rfl
  · exact cleanLine_kept _ _ _

theorem beginRelease_kept (s : State) (core g : Nat) : MemKept s (beginRelease s core g) :=
  (((writeBackRc_kept s core).trans (snoopWhere_kept _ _)).trans (.modCore core)).trans (closeRound_kept _ _)

theorem evictUo_kept (s : State) (core : Nat) : MemKept s (evictUo s core) := by
  refine (deliverWhere_kept s _).trans (.foldl (fun s l => ?_) _ _)
  split
  · exact (writeBack_kept _ _ _).trans (.modCore core)
  · rfl

theorem beginGangRelease_kept (s : State) (g : Gang) : MemKept s (beginGangRelease s g) :=
  (MemKept.foldl evictUo_kept _ _).trans (.foldl (fun s c => beginRelease_kept s c g.id) _ _)

theorem releaseAt_kept (s : State) (core : Nat) (sc : Scope) : MemKept s (releaseAt s core sc) := by
  have whole : MemKept s (closeRound (snoopWhere (writeBackRc s core) fun x => x.src == core) core) :=
    ((writeBackRc_kept s core).trans (snoopWhere_kept _ _)).trans (closeRound_kept _ _)
  have fused (b : Bool) : MemKept s (if b then s else closeRound (snoopWhere (writeBackRc s core) fun x => x.src == core) core) := by
    split
    · rfl
    · exact whole
  cases sc with
  | ctx => rfl
  | gang => exact fused _
  | cluster => exact fused _
  | die => exact whole
  | dev => exact whole
  | sys => exact whole

theorem acquireAt_kept (s : State) (core : Nat) (sc : Scope) : MemKept s (acquireAt s core sc) := by
  unfold acquireAt
  dsimp only
  split
  · rfl
  · split
    · exact snoopAt_kept _ _
    · exact (snoopAt_kept _ _).trans (.foldl (fun s c => .modCore c) _ _)

/-! ### Translation and access (R210 to R219) -/

theorem keepWalk_kept (s : State) (p : Party) (e : TlbEntry) (es : List WalkEntry) : MemKept s (keepWalk s p e es) := by
  unfold keepWalk
  dsimp only
  split
  · exact MemKept.trans .of_fields (.modCore _)
  · exact .of_fields

theorem serveDemand_kept {s t : State} {q pte : Nat} (h : serveDemand s q pte = some t) : MemKept s t := by
  unfold serveDemand at h
  split at h
  · exact absurd h (by simp)
  · split at h
    · exact absurd h (by simp)
    · rw [← Option.some.inj h]
      exact (((copyFirst_kept s _).trans .of_fields).trans (markWatched_kept _ _ _)).trans (homeWrite_kept _ _ _)

theorem countWalk_kept (s : State) (p : Party) (as : List (Nat × Bool)) : MemKept s (countWalk s p as) :=
  .foldl (fun s _ => reachHome_kept s _ _ _ _ _ _ _) _ _

theorem walkLeaves_kept (p : Party) (va : Word) (acc : Acc) (n : Nat) (s : State) : MemKept s (walkLeaves s p va acc n).1 := by
  induction n generalizing s with
  | zero => rfl
  | succ n ih =>
    have counted (as : List (Nat × Bool)) : MemKept s (countWalk s p as) := countWalk_kept s p as
    unfold walkLeaves
    dsimp only
    split
    · exact (counted _).trans (keepWalk_kept _ _ _ _)
    · exact counted _
    · split
      · exact ((counted _).trans (serveDemand_kept ‹_›)).trans (ih _)
      · exact counted _

theorem leavesOf_kept (s : State) (p : Party) (va : Word) (acc : Acc) : MemKept s (leavesOf s p va acc).1 := by
  unfold leavesOf
  split
  · rfl
  · exact MemKept.trans .of_fields (walkLeaves_kept _ _ _ _ _)

theorem translate_kept (s : State) (p : Party) (va : Word) (n : Nat) (acc : Acc) : MemKept s (translate s p va n acc).1 := by
  have leaves := leavesOf_kept s p va acc
  unfold translate
  dsimp only
  split
  · rfl
  · split
    · rfl
    · split
      · repeat' split
        all_goals rfl
      · split
        next u t h => rwa [h] at leaves
        next u l1 l2 pa h =>
          rw [h] at leaves
          split
          · exact leaves
          · exact leaves

theorem accessIn_kept (m : Mode) (s : State) (p : Party) (rule : AccRule) (va : Word) (n : Nat) (acc : Acc) :
    MemKept s (accessIn m s p rule va n acc).1 := by
  have translated := translate_kept s p va n acc
  unfold accessIn
  dsimp only
  split
  · rfl
  · split
    next u t h => rwa [h] at translated
    next u d h =>
      rw [h] at translated
      repeat' split
      all_goals exact translated

theorem loadAt_kept (s : State) (p : Party) (d : Dest) (n : Nat) (m : Mode) (cls : Rcl) : MemKept s (loadAt s p d n m cls).1 := by
  unfold loadAt
  cases d with
  | ls c off => rfl
  | phys pa kind =>
    dsimp only
    split
    · exact reachHome_kept _ _ _ _ _ _ _ _
    · cases m with
      | plain => exact l1Load_kept _ _ _ _ _ _ _ _
      | bypass => exact (bypass_kept _ _ _).trans (reachHome_kept _ _ _ _ _ _ _ _)

theorem Dest.reach_kept (d : Dest) (s : State) (p : Party) (cls : Rcl) : MemKept s (d.reach s p cls) := by
  cases d with
  | ls c off => rfl
  | phys pa kind => exact readReach_kept _ _ _ _ _ _

theorem fetchWord_kept (s : State) : MemKept s (fetchWord s).1 := by
  have translated := translate_kept s s.me s.vlc.pc 4 .execute
  unfold fetchWord
  dsimp only
  split
  next u e h => rwa [h] at translated
  next u d h =>
    rw [h] at translated
    repeat' split
    · exact translated
    · exact translated
    · exact translated
    · exact translated.trans (d.reach_kept _ _ _)

theorem readMem_kept (s : State) (p : Party) (rule : AccRule) (va : Word) (n : Nat) (m : Mode) : MemKept s (readMem s p rule va n m).1 := by
  have checked := accessIn_kept m s p rule va n .read
  unfold readMem
  split
  next u e h => rwa [h] at checked
  next u d h =>
    rw [h] at checked
    exact checked.trans (loadAt_kept _ _ _ _ _ _)

theorem readDwords_kept (p : Party) (rule : AccRule) (k : Nat) (s : State) (va : Word) : MemKept s (readDwords s p rule va k).1 := by
  induction k generalizing s va with
  | zero => rfl
  | succ k ih =>
    have first := readMem_kept s p rule va 8 .plain
    unfold readDwords
    split
    next u e h => rwa [h] at first
    next u v h =>
      rw [h] at first
      have rest := ih u (va + 8)
      split
      next w e g => rw [g] at rest; exact first.trans rest
      next w vs g => rw [g] at rest; exact first.trans rest

theorem readHome_kept (s : State) (p : Party) (va : Word) (n : Nat) : MemKept s (readHome s p va n).1 := by
  have checked := accessIn_kept (modeOf .load .read) s p .load va n .read
  unfold readHome access
  split
  next u e h => rwa [h] at checked
  next u d h =>
    rw [h] at checked
    exact checked.trans (d.reach_kept _ _ _)

theorem readHomeDwords_kept (p : Party) (k : Nat) (s : State) (va : Word) : MemKept s (readHomeDwords s p va k).1 := by
  induction k generalizing s va with
  | zero => rfl
  | succ k ih =>
    have first := readHome_kept s p va 8
    unfold readHomeDwords
    split
    next u e h => rwa [h] at first
    next u v h =>
      rw [h] at first
      have rest := ih u (va + 8)
      split
      next w e g => rw [g] at rest; exact first.trans rest
      next w vs g => rw [g] at rest; exact first.trans rest

end Sys2Proof.Machine


/-! ## Machine family: the turn of the VLC at the front -/

namespace Sys2Proof.Machine

/-- A VLC at the front that can issue, and has not yielded, keeps its turn. -/
theorem readyVlc_front {s : State} (can : canIssue s s.vlc = true) (y : s.vlc.yielded = false) : readyVlc s = some s := by
  simp [readyVlc, Nat.mul_add, bringReady, can, y]

/-- On an even step with nothing due, the move is the turn of a VLC at the front that can issue. -/
theorem nextMove_turn {s : State} (i : s.inputs = []) (even : s.tick % 2 = 0) (dog : s.gangs.find? watchdogDue = none)
    (can : canIssue s s.vlc = true) (y : s.vlc.yielded = false) : nextMove s = .turn s := by
  simp [nextMove, dog, i, even, vlcMove, readyVlc_front can y]

/-- With no entry queued, no register is awaited (R38, R39). -/
theorem hazard_of_empty {v : Vlc} (h : v.vq = []) (i : Instr) : hazard v i = false := by
  simp [hazard, h]

/-- With no entry queued and no fault recorded, the scalar unit runs the instruction of the word that it fetches. -/
theorem turnOf_run {s t : State} {w : BitVec 32} (f : s.vlc.pendFault = none) (q : s.vlc.vq = []) (fetch : fetchWord s = (t, .ok w)) :
    turnOf s = .run (instrOf w) t false := by
  have q' : t.vlc.vq = [] := by
    have kept := fetchWord_kept s
    rw [fetch] at kept
    rw [kept.vlc.vq, q]
  simp [turnOf, f, vectorReady, q, scalarTurn, fetch, hazard_of_empty q']

/-- Settles O4, by `nextMove_turn` and `turnOf_run`. -/
theorem stepRunsDecoded : Obligations.StepRunsDecoded := by
  unfold Obligations.StepRunsDecoded
  intro s t u w i inputs even dog can y f q fetch dec run
  have instr : instrOf w = i := by
    obtain d | ⟨⟨e, d⟩, rfl⟩ := dec <;> simp [instrOf, d]
  have stepped : step s = vlcStep s := by rw [step, nextMove_turn inputs even dog can y]
  have turn : turnOf s = .run i t false := instr ▸ turnOf_run f q fetch
  rw [stepped, vlcStep, turn]
  constructor
  · intro h
    simp [run, h]
  · intro h
    simp [run, h]

end Sys2Proof.Machine


/-! ## Machine family: gangs, barriers and the members that leave -/

namespace Sys2Proof.Machine

/-! ### Finding a gang that changes -/

/-- A change of the gangs of one identifier, seen at any identifier. -/
theorem State.findGang_modGang (s : State) (g k : Nat) {f : Gang → Gang} (keep : ∀ x, (f x).id = x.id) :
    (s.modGang g f).findGang k = (s.findGang k).map fun x => if x.id = g then f x else x := by
  rw [State.findGang, State.modGang_gangs, List.find?_map]
  have same : ((fun x : Gang => x.id == k) ∘ fun x => if x.id = g then f x else x) = fun x => x.id == k := by
    funext x
    simp only [Function.comp_apply]
    split
    · rw [keep]
    · rfl
  rw [same]
  rfl

theorem State.findGang_id {s : State} {g : Nat} {x : Gang} (h : s.findGang g = some x) : x.id = g := by
  simpa using List.find?_some h

theorem State.findGang_modGang_self {s : State} {g : Nat} {x : Gang} {f : Gang → Gang} (h : s.findGang g = some x)
    (keep : ∀ x, (f x).id = x.id) : (s.modGang g f).findGang g = some (f x) := by
  rw [State.findGang_modGang s g g keep, h]
  simp [State.findGang_id h]

theorem State.gangOf_eq {s : State} {g : Nat} {x : Gang} (h : s.findGang g = some x) : s.gangOf g = x := by
  simp [State.gangOf, h]

/-- The bit of a member in EXITED and ARRIVE. -/
theorem memberBit_eq (m : Nat) : memberBit m = BitVec.twoPow 32 m := by
  apply BitVec.eq_of_toNat_eq
  simp [memberBit]

/-! ### What a dropped release lets go on (R34, R259) -/

/-- Posts to the host and held operations: they touch no gang, no VLC and no core. -/
def HoldKept (s t : State) : Prop :=
  t = { s with mem := t.mem, landau := t.landau, nodes := t.nodes, engines := t.engines, gateQ := t.gateQ, msix := t.msix }

namespace HoldKept

@[refl] theorem refl (s : State) : HoldKept s s := rfl

theorem trans {s t u : State} (a : HoldKept s t) (b : HoldKept t u) : HoldKept s u :=
  Eq.trans b (congrArg (fun x : State => { x with
    mem := u.mem, landau := u.landau, nodes := u.nodes, engines := u.engines, gateQ := u.gateQ, msix := u.msix }) a)

theorem foldl {α : Type} {f : State → α → State} (h : ∀ s x, HoldKept s (f s x)) (l : List α) (s : State) : HoldKept s (l.foldl f s) := by
  induction l generalizing s with
  | nil => rfl
  | cons x l ih => exact (h s x).trans (ih _)

theorem gangs {s t : State} (h : HoldKept s t) : t.gangs = s.gangs := (congrArg State.gangs h : _)
theorem vlc {s t : State} (h : HoldKept s t) : t.vlc = s.vlc := (congrArg State.vlc h : _)

end HoldKept

theorem postOne_kept (s : State) (n : Node) (slot : Nat) : HoldKept s (postOne s n slot) := by
  unfold postOne
  dsimp only
  generalize memWrite _ _ _ _ = m
  rfl

theorem postHeld_kept (d k : Nat) (s : State) : HoldKept s (postHeld d k s) := by
  induction k generalizing s with
  | zero => rfl
  | succ k ih =>
    unfold postHeld
    dsimp only
    repeat' split
    · rfl
    · exact (postOne_kept _ _ _).trans (ih _)
    · rfl

/-- A change of nodes, engines and gate records, and perhaps the posts that follow. -/
theorem HoldKept.post {s t : State} (h : HoldKept s t) : HoldKept s (if t.schedAssisted then (List.range 4).foldl postAll t else t) := by
  split
  · exact h.trans (.foldl (fun s d => postHeld_kept d _ s) _ _)
  · exact h

theorem freeHold_kept (s : State) (h : Nat) : HoldKept s (freeHold s h) := by
  unfold freeHold
  exact HoldKept.post rfl

theorem dropHolds_kept (s : State) (q : List VEntry) : HoldKept s (dropHolds s q) := .foldl (fun s _ => freeHold_kept s _) _ _

/-- What no step of a sequence changes, the sequence does not change. -/
theorem foldl_same {α β γ : Type} {f : β → α → β} (p : β → γ) (h : ∀ s x, p (f s x) = p s) (l : List α) (s : β) : p (l.foldl f s) = p s := by
  induction l generalizing s with
  | nil => rfl
  | cons x l ih => exact (ih _).trans (h s x)

theorem State.mapVlcs_vlcs (s : State) (f : Vlc → Vlc) : (s.mapVlcs f).vlcs = s.vlcs.map f := rfl

/-- The members of a gang retire: every gang stays, and each VLC of this one is absent or has retired with an empty queue. -/
theorem retireAll_gangs (s : State) (g : Nat) : (retireAll s g).gangs = s.gangs :=
  foldl_same State.gangs (f := fun s (v : Vlc) => dropHolds (dropAccumulator s v.core v.slot) v.vq)
    (fun _ _ => (dropHolds_kept _ _).gangs) _ _

theorem retireAll_vlc (s : State) (g : Nat) : (retireAll s g).vlc = if s.vlc.gang = g ∧ s.vlc.status ≠ .absent then s.vlc.retired else s.vlc := by
  have same := foldl_same State.vlc (f := fun s (v : Vlc) => dropHolds (dropAccumulator s v.core v.slot) v.vq)
    (fun _ _ => (dropHolds_kept _ _).vlc) (s.gangVlcs g) s
  unfold retireAll State.mapVlcs
  dsimp only
  rw [same]

theorem retireAll_vlcs (s : State) (g : Nat) : ∀ v ∈ (retireAll s g).vlcs, v.gang = g → v.status = .absent ∨ v.status = .retired ∧ v.vq = [] := by
  intro v hv hg
  unfold retireAll at hv
  rw [State.mapVlcs_vlcs] at hv
  obtain ⟨u, -, rfl⟩ := List.mem_map.mp hv
  by_cases left : u.gang = g ∧ u.status ≠ .absent
  · simp [left, Vlc.retired]
  · rw [if_neg left] at hg ⊢
    exact .inl (by simpa [hg] using left)

/-! ### Full-empty queues (R192) -/

/-- Serving the reads of a core changes only which element a vector half waits for. -/
theorem feWake_eq (s : State) (core : Nat) :
    feWake s core = { s with vlc := { s.vlc with vwait := (feWake s core).vlc.vwait }, others := (feWake s core).others } := by
  unfold feWake State.mapVlcs
  dsimp only
  congr 1
  split
  · split <;> rfl
  · rfl

/-- A VLC that leaves the queues of a core's LS: but for what the vector halves wait for, only those queues change. -/
theorem feLeave_eq (s : State) (core slot : Nat) : ∃ q, feLeave s core slot =
    { (s.modCore core fun k => { k with feq := q }) with
      vlc := { s.vlc with vwait := (feLeave s core slot).vlc.vwait }, others := (feLeave s core slot).others } ∨ feLeave s core slot = s := by
  by_cases h : ((s.core core).feq.any fun x => x.2 == slot) = true
  · refine ⟨(s.core core).feq.filter fun x => x.2 != slot, .inl ?_⟩
    have eq : feLeave s core slot = feWake (s.modCore core fun k => { k with feq := k.feq.filter fun x => x.2 != slot }) core := by
      simp [feLeave, h]
    rw [eq, feWake_eq]
    rfl
  · exact ⟨[], .inr (by simp [feLeave, h])⟩

theorem feLeave_gangs (s : State) (core slot : Nat) : (feLeave s core slot).gangs = s.gangs := by
  obtain ⟨q, h | h⟩ := feLeave_eq s core slot <;> rw [h]
  rfl

theorem feLeave_vlc (s : State) (core slot : Nat) : ∃ w, (feLeave s core slot).vlc = { s.vlc with vwait := w } := by
  obtain ⟨q, h | h⟩ := feLeave_eq s core slot <;> rw [h]
  · exact ⟨_, rfl⟩
  · exact ⟨_, rfl⟩

/-- A VLC that leaves the queues gives up no accumulator. -/
theorem feLeave_accOwner {s : State} (wf : Tab.wf CoreSt.reset s.cores = true) (core slot c : Nat) :
    ((feLeave s core slot).core c).accOwner = (s.core c).accOwner := by
  obtain ⟨q, h | h⟩ := feLeave_eq s core slot <;> rw [h]
  show ((s.modCore core fun k => { k with feq := q }).core c).accOwner = _
  rw [State.core_modCore wf]
  split
  · subst c; rfl
  · rfl

theorem feLeave_coresWf {s : State} (wf : Tab.wf CoreSt.reset s.cores = true) (core slot : Nat) :
    Tab.wf CoreSt.reset (feLeave s core slot).cores = true := by
  obtain ⟨q, h | h⟩ := feLeave_eq s core slot <;> rw [h]
  · exact State.modCore_wf wf core fun k => { k with feq := q }
  · exact wf

/-- Taking reads out of the queues of cores keeps every gang, and of the VLC at the front all but what its vector half waits for. -/
theorem feWake_foldl (slots : Nat → List Nat) (cs : List Nat) (s : State) :
    let t := cs.foldl (fun s c => feWake (s.modCore c fun k => { k with feq := k.feq.filter fun x => !(slots c).contains x.2 }) c) s
    t.gangs = s.gangs ∧ ∃ w, t.vlc = { s.vlc with vwait := w } := by
  induction cs generalizing s with
  | nil => exact ⟨rfl, s.vlc.vwait, rfl⟩
  | cons c cs ih =>
    obtain ⟨gangs, w, vlc⟩ := ih (feWake (s.modCore c fun k => { k with feq := k.feq.filter fun x => !(slots c).contains x.2 }) c)
    refine ⟨gangs.trans ?_, w, vlc.trans ?_⟩
    · rw [feWake_eq]; rfl
    · rw [feWake_eq]; rfl

theorem leaveGranules_kept (s : State) (g : Gang) :
    (leaveGranules s g).gangs = s.gangs ∧ ∃ w, (leaveGranules s g).vlc = { s.vlc with vwait := w } := feWake_foldl _ _ _

/-! ### Barriers (R333) -/

/-- A state in which barriers may have completed: arrivals are forgotten, and waits for them are satisfied. -/
structure BarrierKept (s t : State) : Prop where
  rest : t = { s with vlc := t.vlc, others := t.others, gangs := t.gangs }
  vlc : t.vlc = { s.vlc with status := t.vlc.status, barrier := t.vlc.barrier }
  status : t.vlc.status = s.vlc.status ∨ ∃ x, s.vlc.status = .waiting x ∧ t.vlc.status = .satisfied x
  gang : ∀ k x, s.findGang k = some x → ∃ y, t.findGang k = some y ∧ y = { x with arrive := y.arrive }

namespace BarrierKept

theorem refl (s : State) : BarrierKept s s := ⟨rfl, rfl, .inl rfl, fun _ x h => ⟨x, h, rfl⟩⟩

theorem trans {s t u : State} (a : BarrierKept s t) (b : BarrierKept t u) : BarrierKept s u where
  rest := b.rest.trans (congrArg (fun x : State => { x with vlc := u.vlc, others := u.others, gangs := u.gangs }) a.rest)
  vlc := b.vlc.trans (congrArg (fun x : Vlc => { x with status := u.vlc.status, barrier := u.vlc.barrier }) a.vlc)
  status := by
    obtain e | ⟨x, e, f⟩ := b.status
    · rw [e]; exact a.status
    · obtain g | ⟨y, g, h⟩ := a.status
      · exact .inr ⟨x, g ▸ e, f⟩
      · exact absurd (h.symm.trans e) (by simp)
  gang := fun k x h => by
    obtain ⟨y, hy, ey⟩ := a.gang k x h
    obtain ⟨z, hz, ez⟩ := b.gang k y hy
    exact ⟨z, hz, ez.trans (congrArg (fun w : Gang => { w with arrive := z.arrive }) ey)⟩

theorem foldl {α : Type} {f : State → α → State} (h : ∀ s x, BarrierKept s (f s x)) (l : List α) (s : State) :
    BarrierKept s (l.foldl f s) := by
  induction l generalizing s with
  | nil => exact refl s
  | cons x l ih => exact (h s x).trans (ih _)

end BarrierKept

theorem completeBarrier_findGang (s : State) (g id k : Nat) : (completeBarrier s g id).findGang k =
    (s.findGang k).map fun x => if x.id = g then { x with arrive := x.arrive.setIfInBounds id 0 } else x :=
  State.findGang_modGang s g k fun _ => rfl

theorem completeBarrier_kept (s : State) (g id : Nat) : BarrierKept s (completeBarrier s g id) where
  rest := rfl
  vlc := by
    unfold completeBarrier State.mapVlcs
    dsimp only [State.modGang_vlc]
    repeat' split
    all_goals rfl
  status := by
    unfold completeBarrier State.mapVlcs
    dsimp only [State.modGang_vlc]
    repeat' split
    · exact .inl rfl
    · exact .inr ⟨_, ‹_›, rfl⟩
    · exact .inl rfl
    · exact .inl rfl
  gang := fun k x h => by
    refine ⟨_, by rw [completeBarrier_findGang, h]; rfl, ?_⟩
    dsimp only
    split <;> rfl

theorem checkBarriers_kept (s : State) (g : Nat) : BarrierKept s (checkBarriers s g) := by
  refine .foldl (fun s id => ?_) _ _
  dsimp only
  split
  · exact completeBarrier_kept _ _ _
  · exact .refl _

/-! ### The last member (R25) -/

theorem allExited_iff (g : Gang) : allExited g = true ↔ ∀ m, m < g.members → g.exited.getLsbD m = true := by
  simp [allExited]

/-- A gang whose members have all retired, on its cores, begins its release; otherwise nothing ends. -/
theorem endIfLast_cases {s : State} {g : Nat} {x : Gang} (found : s.findGang g = some x) :
    (endIfLast s g = beginGangRelease (s.modGang g fun x => { x with st := .releasing false }) x ∧ allExited x = true) ∨
    (endIfLast s g = s ∧ ¬ (allExited x = true ∧ x.st = .resident)) := by
  unfold endIfLast
  rw [State.gangOf_eq found]
  dsimp only
  split
  next all =>
    split
    · exact .inl ⟨rfl, all⟩
    · exact .inl ⟨rfl, all⟩
    · exact .inl ⟨rfl, all⟩
    next st _ _ => exact .inr ⟨rfl, fun h => st h.2⟩
  next more => exact .inr ⟨rfl, fun h => more h.1⟩

/-- What is found of a gang behind its end: only its state and its release have changed. -/
theorem endIfLast_kept {s : State} {g : Nat} {x : Gang} (found : s.findGang g = some x) :
    ∃ h t, (endIfLast s g).findGang g = some h ∧ h = { x with st := h.st } ∧ (allExited x = true → x.st = .resident → h.st = .releasing false) ∧
      (allExited x = false → h.st = x.st) ∧ MemKept t (endIfLast s g) ∧ t.vlc = s.vlc ∧ t.others = s.others ∧ t.cores = s.cores := by
  obtain ⟨e, all⟩ | ⟨e, no⟩ := endIfLast_cases found
  · have kept := beginGangRelease_kept (s.modGang g fun x => { x with st := .releasing false }) x
    rw [e]
    refine ⟨{ x with st := .releasing false }, _, ?_, rfl, fun _ _ => rfl, fun a => absurd (a.symm.trans all) (by simp), kept, rfl, rfl, rfl⟩
    rw [kept.findGang]
    exact State.findGang_modGang_self found fun _ => rfl
  · rw [e]
    exact ⟨x, s, found, rfl, fun a r => absurd ⟨a, r⟩ no, fun _ => rfl, .refl s, rfl, rfl, rfl⟩

/-! ### The arrival at a barrier (R32, R333) -/

/-- The VLC at the front has released and arrived at a barrier of its gang. -/
def arriveAt (s : State) (k : Nat) : State :=
  ((releaseAt s s.vlc.core .gang).modVlc fun v => { v with barrier := none }).modGang s.vlc.gang fun g => { g with
    arrive := g.arrive.setIfInBounds k ((g.arrive[k]?.getD 0) ||| memberBit s.vlc.member) }

/-- A VLC that finds its barrier satisfied goes on without arriving. -/
theorem execGbar_satisfied {id : Fld} {s : State} (h8 : id.toNat < 8) (sat : s.vlc.barrier = some (id.toNat, true)) :
    exec (.gbar id) s = .next
      (acquireAt ((releaseAt s s.vlc.core .gang).modVlc fun v => { v with barrier := none }) s.vlc.core .gang).pass := by
  show execGbar id s = _
  simp [execGbar, Nat.not_le.mpr h8, sat]

/-- The last arrival completes the barrier. -/
theorem execGbar_last {id : Fld} {s : State} (h8 : id.toNat < 8) (sat : s.vlc.barrier ≠ some (id.toNat, true))
    (last : barrierDone (arriveAt s id.toNat).gang id.toNat = true) :
    exec (.gbar id) s = .next (acquireAt (completeBarrier (arriveAt s id.toNat) s.vlc.gang id.toNat) s.vlc.core .gang).pass := by
  show execGbar id s = _
  unfold execGbar
  rw [if_neg (Nat.not_le.mpr h8)]
  dsimp only
  rw [if_neg sat]
  exact if_pos last

/-- An arrival that is not the last waits. -/
theorem execGbar_waits {id : Fld} {s : State} (h8 : id.toNat < 8) (sat : s.vlc.barrier ≠ some (id.toNat, true))
    (last : barrierDone (arriveAt s id.toNat).gang id.toNat = false) :
    exec (.gbar id) s = .next ((arriveAt s id.toNat).modVlc fun v => { v with status := .waiting (.barrier id.toNat), queuedWait := true }) := by
  show execGbar id s = _
  unfold execGbar
  rw [if_neg (Nat.not_le.mpr h8)]
  dsimp only
  rw [if_neg sat]
  exact if_neg (Bool.eq_false_iff.mp last)

theorem arriveAt_vlc (s : State) (k : Nat) : (arriveAt s k).vlc = { (releaseAt s s.vlc.core .gang).vlc with barrier := none } := rfl

theorem arriveAt_sameRegisters (s : State) (k : Nat) : SameRegisters s.vlc (arriveAt s k).vlc := by
  have kept := (releaseAt_kept s s.vlc.core .gang).vlc.rest
  rw [arriveAt_vlc]
  generalize (releaseAt s s.vlc.core .gang).vlc = v at kept ⊢
  rw [kept]
  rfl

theorem arriveAt_pc (s : State) (k : Nat) : (arriveAt s k).vlc.pc = s.vlc.pc := (releaseAt_kept s s.vlc.core .gang).vlc.pc

end Sys2Proof.Machine


/-! ## Machine family: the retirement of VLCs -/

namespace Sys2Proof.Machine

/-! ### The next word -/

/-- The end of a strip goes on at the body, or behind it when nothing remains (R146). -/
theorem stripEnd_pc (v : Vlc) (l : Loop) : (stripEnd v l).pc =
    if (v.vrem - BitVec.ofNat 64 l.handed).toNat = 0 then l.start + BitVec.ofNat 64 (4 * l.len) else l.start := by
  unfold stripEnd handOut
  dsimp only
  split <;> rfl

/-- Where a VLC goes on depends on its loop and handler state, not on what it waits for or its plans. -/
theorem Vlc.next_pc_congr (v : Vlc) (st : VStatus) (ps : Tab Plan) (b : Option (Nat × Bool)) :
    ({ v with status := st, plans := ps, barrier := b } : Vlc).next.pc = v.next.pc := by
  rcases loop : v.loop with _ | l <;> rcases handler : v.inHandler with _ | _
  · simp [Vlc.next, Vlc.goto, loop, handler]
  · simp [Vlc.next, Vlc.goto, loop, handler]
  · simp only [Vlc.next, Vlc.goto, loop, handler]
    by_cases stop : v.pc + 4 = l.start + BitVec.ofNat 64 (4 * l.len)
    · simp only [stop, if_true, stripEnd_pc]
    · simp only [stop, if_false]
      split <;> rfl
  · simp [Vlc.next, Vlc.goto, loop, handler]

/-! ### `vexit` (R25) -/

/-- The VLC at the front has retired: it holds no accumulator and stands in no queue, and EXITED names it. -/
def leftMember (s : State) : State :=
  (feLeave (dropAccumulator (s.modVlc Vlc.retired) s.vlc.core s.vlc.slot) s.vlc.core s.vlc.slot).modGang s.vlc.gang fun g =>
    { g with exited := g.exited ||| memberBit s.vlc.member }

/-- `vexit` with an empty queue: the VLC retires, and barriers and the gang may end with it. -/
theorem exec_vexit {s : State} (q : s.vlc.vq = []) (h : s.vlc.inHandler = false) :
    exec .vexit s = .next (endIfLast (checkBarriers (leftMember s) s.vlc.gang) s.vlc.gang) := by
  show execVexit s = _
  have dropped : dropHolds s s.vlc.vq = s := by rw [q]; rfl
  unfold execVexit retireMember
  rw [h, if_neg Bool.false_ne_true, if_neg (not_not.mpr q)]
  dsimp only
  rw [dropped]
  rfl

theorem leftMember_vlc (s : State) : ∃ w, (leftMember s).vlc = { s.vlc.retired with vwait := w } := by
  obtain ⟨w, h⟩ := feLeave_vlc (dropAccumulator (s.modVlc Vlc.retired) s.vlc.core s.vlc.slot) s.vlc.core s.vlc.slot
  exact ⟨w, h⟩

theorem leftMember_findGang {s : State} {g : Nat} {x : Gang} (hg : s.vlc.gang = g) (found : s.findGang g = some x) :
    (leftMember s).findGang g = some { x with exited := x.exited ||| BitVec.twoPow 32 s.vlc.member } := by
  subst g
  rw [← memberBit_eq]
  refine State.findGang_modGang_self (f := fun g => { g with exited := g.exited ||| memberBit s.vlc.member }) ?_ fun _ => rfl
  rw [State.findGang, feLeave_gangs]
  exact found

theorem leftMember_coresWf {s : State} (wf : Tab.wf CoreSt.reset s.cores = true) : Tab.wf CoreSt.reset (leftMember s).cores = true := by
  rw [leftMember, State.modGang_cores]
  exact feLeave_coresWf (State.modCore_wf (s := s.modVlc Vlc.retired) wf _ _) _ _

theorem leftMember_accOwner {s : State} (wf : Tab.wf CoreSt.reset s.cores = true) :
    ((leftMember s).core s.vlc.core).accOwner =
      if (s.core s.vlc.core).accOwner = some s.vlc.slot then none else (s.core s.vlc.core).accOwner := by
  have wf' : Tab.wf CoreSt.reset (s.modVlc Vlc.retired).cores = true := wf
  have left := feLeave_accOwner (s := dropAccumulator (s.modVlc Vlc.retired) s.vlc.core s.vlc.slot) (State.modCore_wf wf' _ _)
    s.vlc.core s.vlc.slot s.vlc.core
  rw [show ((leftMember s).core s.vlc.core).accOwner = _ from left, dropAccumulator, State.core_modCore wf', if_pos rfl]
  show (if (s.core s.vlc.core).accOwner = some s.vlc.slot then _ else _ : CoreSt).accOwner = _
  split <;> rfl

/-- What a retired member leaves behind its barriers, and behind the end of its gang. -/
theorem vexit_retires (s : State) (g : Gang) (found : s.findGang s.vlc.gang = some g) (q : s.vlc.vq = []) (nh : s.vlc.inHandler = false)
    (wf : Tab.wf CoreSt.reset s.cores = true) :
    ∃ t h, exec .vexit s = .next t ∧ t.vlc.status = .retired ∧ t.findGang s.vlc.gang = some h ∧
      SameRegisters { s.vlc with loop := none, fan := none, pendFault := none } t.vlc ∧
      h.exited = g.exited ||| BitVec.twoPow 32 s.vlc.member ∧
      (t.core s.vlc.core).accOwner = (if (s.core s.vlc.core).accOwner = some s.vlc.slot then none else (s.core s.vlc.core).accOwner) ∧
      ((∀ m, m < g.members → h.exited.getLsbD m = true) → g.st = .resident → h.st = .releasing false) ∧
      ((∃ m, m < g.members ∧ h.exited.getLsbD m = false) → h.st = g.st) := by
  obtain ⟨w, left⟩ := leftMember_vlc s
  have bars := checkBarriers_kept (leftMember s) s.vlc.gang
  obtain ⟨y, found', hy⟩ := bars.gang _ _ (leftMember_findGang rfl found)
  have exited : y.exited = g.exited ||| BitVec.twoPow 32 s.vlc.member := (congrArg Gang.exited hy : _)
  have members : y.members = g.members := (congrArg Gang.members hy : _)
  have state : y.st = g.st := (congrArg Gang.st hy : _)
  have cores : (checkBarriers (leftMember s) s.vlc.gang).cores = (leftMember s).cores := (congrArg State.cores bars.rest : _)
  have status : (checkBarriers (leftMember s) s.vlc.gang).vlc.status = .retired := by
    obtain e | ⟨x, e, -⟩ := bars.status
    · rw [e, left]; rfl
    · rw [left] at e; exact absurd e (by simp [Vlc.retired])
  have regs := bars.vlc
  rw [left] at regs
  have wf' := leftMember_coresWf wf
  have owner := leftMember_accOwner wf
  have run := exec_vexit q nh
  rw [State.core, ← cores] at owner
  rw [← cores] at wf'
  generalize checkBarriers (leftMember s) s.vlc.gang = b at found' cores status regs wf' owner run
  obtain ⟨h, t, foundh, hh, last, more, kept, vlc, -, cores'⟩ := endIfLast_kept found'
  refine ⟨_, h, run, ?_, foundh, ?_, ?_, ?_, ?_, ?_⟩
  · rw [kept.vlc.status_eq (by rw [vlc, status]; simp), vlc, status]
  · have same := kept.vlc.rest
    rw [vlc, regs] at same
    generalize (endIfLast b s.vlc.gang).vlc = u at same ⊢
    rw [same, SameRegisters, Vlc.retired, q]
  · rw [← exited]; exact (congrArg Gang.exited hh : _)
  · have core := (kept.core (cores' ▸ wf') s.vlc.core).accOwner
    rw [core, State.core, cores', owner]
  · intro all st
    have e : h.exited = y.exited := (congrArg Gang.exited hh : _)
    exact last ((allExited_iff y).mpr fun m hm => e ▸ all m (members ▸ hm)) (state.trans st)
  · rintro ⟨m, hm, off⟩
    have e : h.exited = y.exited := (congrArg Gang.exited hh : _)
    refine (more (Bool.eq_false_iff.mpr fun all => ?_)).trans state
    rw [e, (allExited_iff y).mp all m (members ▸ hm)] at off
    exact absurd off (by simp)

/-! ### `tend` (R25) -/

theorem allExited_allOnes {g : Gang} (few : g.members ≤ 32) (all : g.exited = BitVec.allOnes 32) : allExited g = true :=
  (allExited_iff g).mpr fun m hm => by
    rw [all, BitVec.getLsbD_allOnes]
    exact decide_eq_true (Nat.lt_of_lt_of_le hm few)

/-- `tend` retires every member of a gang on its cores, whose release begins. -/
theorem tend_retires (s : State) (g : Gang) (found : s.findGang s.vlc.gang = some g) (st : g.st = .resident) (few : g.members ≤ 32)
    (run : s.vlc.status = .running) :
    ∃ t h, exec .tend s = .next t ∧ t.findGang s.vlc.gang = some h ∧ h.st = .releasing false ∧ h.exited = BitVec.allOnes 32 ∧
      t.vlc.status = .retired ∧ t.vlc.vq = [] ∧
      ∀ v ∈ t.vlcs, v.gang = s.vlc.gang → v.status = .absent ∨ v.status = .retired ∧ v.vq = [] := by
  obtain ⟨gangs, w, vlc⟩ := leaveGranules_kept s s.gang
  have run' : exec .tend s = .next (endIfLast ((retireAll (leaveGranules s s.gang) s.vlc.gang).modGang s.vlc.gang fun g =>
      { g with exited := BitVec.allOnes 32 }) s.vlc.gang) := rfl
  have gone := retireAll_vlc (leaveGranules s s.gang) s.vlc.gang
  have none_left := retireAll_vlcs (leaveGranules s s.gang) s.vlc.gang
  have gangs' := retireAll_gangs (leaveGranules s s.gang) s.vlc.gang
  rw [vlc, if_pos ⟨rfl, by simp [run]⟩] at gone
  generalize retireAll (leaveGranules s s.gang) s.vlc.gang = r at *
  have found' : (r.modGang s.vlc.gang fun g => { g with exited := BitVec.allOnes 32 }).findGang s.vlc.gang =
      some { g with exited := BitVec.allOnes 32 } :=
    State.findGang_modGang_self (by rw [State.findGang, gangs', gangs]; exact found) fun _ => rfl
  obtain ⟨h, t, foundh, hh, last, -, kept, tv, tos, -⟩ := endIfLast_kept found'
  refine ⟨_, h, run', foundh, last (allExited_allOnes few rfl) st, (congrArg Gang.exited hh : _), ?_, ?_, fun v hv hg => ?_⟩
  · rw [kept.vlc.status_eq (by rw [tv, State.modGang_vlc, gone]; simp [Vlc.retired]), tv, State.modGang_vlc, gone]; rfl
  · rw [kept.vlc.vq, tv, State.modGang_vlc, gone]; rfl
  · obtain ⟨u, hu, k⟩ := kept.of_mem hv
    have hu' : u ∈ r.vlcs := by
      rw [State.vlcs, tv, tos] at hu
      exact hu
    obtain e | ⟨e, q⟩ := none_left u hu' (k.gang ▸ hg)
    · exact .inl (by rw [k.status_eq (by simp [e]), e])
    · exact .inr ⟨by rw [k.status_eq (by simp [e]), e], by rw [k.vq, q]⟩

/-! ### `gbar` and `tyield` (R333, R334) -/

/-- Behind an acquire the VLC goes on where it would have gone before what satisfied its barrier. -/
theorem acquire_pass_pc {s : State} {v : Vlc} (c : Nat) (st : VStatus) (ps : Tab Plan) (b : Option (Nat × Bool))
    (h : s.vlc = { v with status := st, plans := ps, barrier := b }) : (acquireAt s c .gang).pass.vlc.pc = v.next.pc := by
  have kept := (acquireAt_kept s c .gang).vlc.rest
  show (acquireAt s c .gang).vlc.next.pc = _
  rw [h] at kept
  rw [kept]
  exact Vlc.next_pc_congr v _ _ b

/-- `gbar` goes on or waits. -/
theorem gbar_goes_on_or_waits (id : Fld) (s : State) (h8 : id.toNat < 8) : ∃ t : State, exec (.gbar id) s = .next t ∧
    (t.vlc.pc = s.vlc.next.pc ∨ t.vlc.pc = s.vlc.pc ∧ t.vlc.status = .waiting (.barrier id.toNat)) := by
  have rel := (releaseAt_kept s s.vlc.core .gang).vlc.rest
  by_cases sat : s.vlc.barrier = some (id.toNat, true)
  · refine ⟨_, execGbar_satisfied h8 sat, .inl (acquire_pass_pc _ (releaseAt s s.vlc.core .gang).vlc.status
      (releaseAt s s.vlc.core .gang).vlc.plans none ?_)⟩
    rw [State.modVlc_vlc]
    exact congrArg (fun v : Vlc => { v with barrier := none }) rel
  · cases last : barrierDone (arriveAt s id.toNat).gang id.toNat
    · exact ⟨_, execGbar_waits h8 sat last, .inr ⟨arriveAt_pc s id.toNat, rfl⟩⟩
    · have done := (completeBarrier_kept (arriveAt s id.toNat) s.vlc.gang id.toNat).vlc
      rw [arriveAt_vlc] at done
      refine ⟨_, execGbar_last h8 sat last, .inl (acquire_pass_pc _ (completeBarrier (arriveAt s id.toNat) s.vlc.gang id.toNat).vlc.status
        (releaseAt s s.vlc.core .gang).vlc.plans (completeBarrier (arriveAt s id.toNat) s.vlc.gang id.toNat).vlc.barrier ?_)⟩
      generalize (completeBarrier (arriveAt s id.toNat) s.vlc.gang id.toNat).vlc = u at done ⊢
      rw [done, rel]

/-- A request for a halt touches no VLC. -/
theorem requestHalt_vlc {s t : State} {g : Gang} {why : HaltWhy} (h : requestHalt s g why = some t) : t.vlc = s.vlc := by
  unfold requestHalt at h
  split at h
  · exact absurd h (by simp)
  · rw [← Option.some.inj h]; rfl

/-- `tyield` goes on. -/
theorem tyield_goes_on (s : State) : ∃ t : State, exec .tyield s = .next t ∧ t.vlc = s.vlc.next := by
  show ∃ t, execTyield s = .next t ∧ _
  unfold execTyield
  dsimp only
  split
  · refine ⟨_, rfl, ?_⟩
    cases r : requestHalt s.pass s.pass.gang .tyield with
    | none => rfl
    | some t => exact requestHalt_vlc r
  · exact ⟨_, rfl, rfl⟩

/-- Settles O28. -/
theorem vlcsRetire : Obligations.VlcsRetire := by
  unfold Obligations.VlcsRetire
  refine ⟨fun s g found q nh _ ok => ?_, fun s q nh => ?_, tend_retires, gbar_goes_on_or_waits, tyield_goes_on⟩
  · obtain ⟨-, wf, -⟩ := ok
    exact vexit_retires s g found q nh wf
  · show execVexit s = _
    simp [execVexit, nh, q, stall]

end Sys2Proof.Machine


/-! ## Machine family: releases clean, acquires invalidate (R260, R261) -/

namespace Sys2Proof.Machine

/-- The L1 of every core holds what it held. -/
def L1Same (s t : State) : Prop := Tab.wf CoreSt.reset s.cores = true → ∀ c, (t.core c).l1 = (s.core c).l1

theorem L1Same.of_cores {s t : State} (h : t.cores = s.cores) : L1Same s t := fun _ c => by rw [State.core, h]; rfl

theorem L1Same.modCore (s : State) (c : Nat) {f : CoreSt → CoreSt} (h : ∀ k, (f k).l1 = k.l1 := by exact fun _ => rfl) :
    L1Same s (s.modCore c f) := fun wf b => by
  rw [State.core_modCore wf]
  split
  · subst b; exact h _
  · rfl

theorem L1Same.trans {s t u : State} (k : MemKept s t) (a : L1Same s t) (b : L1Same t u) : L1Same s u :=
  fun wf c => (b (k.coresWf wf) c).trans (a wf c)

/-! ### Writes at homes touch no core -/

theorem copyFirst_cores (s : State) (pa : Nat) : (copyFirst s pa).cores = s.cores := by
  unfold copyFirst
  split
  · rfl
  · dsimp only
    split <;> rfl

theorem touchL2_cores (s : State) (die pa q : Nat) (cls : Rcl) (alloc : Bool) : (touchL2 s die pa q cls alloc).cores = s.cores := by
  unfold touchL2
  dsimp only
  repeat' split
  all_goals rfl

theorem noteSo_cores (s : State) (pa : Nat) (so : Bool) : (noteSo s pa so).cores = s.cores := by
  unfold noteSo changeMode
  dsimp only
  repeat' split
  all_goals rfl

theorem countRemote_cores (s : State) (pa die q : Nat) (write : Bool) : (countRemote s pa die q write).cores = s.cores := by
  unfold countRemote
  split <;> rfl

theorem reachHome_cores (s : State) (pa die q : Nat) (write so alloc : Bool) (cls : Rcl) :
    (reachHome s pa die q write so alloc cls).cores = s.cores := by
  unfold reachHome
  split
  · rw [countRemote_cores, touchL2_cores, noteSo_cores]
  · rfl

theorem mergeL2_cores (s : State) (line : Nat) (mask : BitVec 128) : (mergeL2 s line mask).cores = s.cores := by
  unfold mergeL2
  split <;> rfl

theorem poisonSectors_cores (s : State) (secs : List Nat) : (poisonSectors s secs).cores = s.cores :=
  foldl_same State.cores (fun s sec => by split <;> rfl) _ _

theorem markWatched_cores (s : State) (pa n : Nat) : (markWatched s pa n).cores = s.cores :=
  foldl_same State.cores (f := fun s (w : Watch) => markStale s w.core w.slot w.plan) (fun _ _ => rfl) _ _

theorem arrive_cores (s : State) (w : WriteBack) : (arrive s w).cores = s.cores := by
  have counted (u : State) (n : Nat) : (if w.held.uo then u else countArrived u w.core w.round n).cores = u.cores := by
    split <;> rfl
  unfold arrive wakeCounters
  dsimp only
  rw [State.mapVlcs_cores, markWatched_cores, counted, poisonSectors_cores]
  dsimp only
  rw [mergeL2_cores, reachHome_cores, copyFirst_cores]

theorem deliverWhere_cores (s : State) (f : WriteBack → Bool) : (deliverWhere s f).cores = s.cores := by
  unfold deliverWhere
  split
  · exact foldl_same State.cores arrive_cores _ _
  · rfl

/-! ### Sending the dirty bytes of a line -/

theorem closeRound_l1 (s : State) (core : Nat) : L1Same s (closeRound s core) :=
  L1Same.modCore s core (f := fun c => { c with round := c.round + 1, sent := [] })

theorem countSent_l1 (s : State) (core pa : Nat) : L1Same s (countSent s core pa) := by
  unfold countSent
  dsimp only
  split
  · exact .modCore s core
  · exact (closeRound_l1 s core).trans (closeRound_kept s core) (.modCore _ core)

theorem depart_l1 (s : State) (core : Nat) (l : L1Line) : L1Same s (depart s core l) := by
  unfold depart
  split
  · exact .of_cores rfl
  · dsimp only
    split
    · exact .of_cores rfl
    · exact countSent_l1 s core _

theorem writeBack_l1 (s : State) (core : Nat) (l : L1Line) : L1Same s (writeBack s core l) :=
  (depart_l1 s core l).trans (depart_kept s core l) (.of_cores (deliverWhere_cores _ _))

/-- Cleaning a line leaves every copy of it in that L1 with no dirty byte, and every other line as it was. -/
theorem cleanLine_l1 {s : State} (wf : Tab.wf CoreSt.reset s.cores = true) (core : Nat) (l : L1Line) (c : Nat) :
    ((cleanLine s core l).core c).l1 =
      if c = core then (s.core core).l1.map fun x => if x.line = l.line then { x with dirty := 0, bad := 0 } else x else (s.core c).l1 := by
  have same := writeBack_l1 s core l wf
  rw [cleanLine, State.core_modCore ((writeBack_kept s core l).coresWf wf)]
  split
  · dsimp only; rw [same]
  · exact same c

/-! ### What a release leaves (R260) -/

/-- No byte of an RC line of a core's own L1 is dirty. -/
def CleanRc (s : State) (c : Nat) : Prop := ∀ l ∈ (s.core c).l1, l.uo = false → l.so = false → l.dirty = 0

/-- Cleaning a line makes no L1 dirty. -/
theorem CleanRc.cleanLine {s : State} {b : Nat} (h : CleanRc s b) (wf : Tab.wf CoreSt.reset s.cores = true) (c : Nat) (l : L1Line) :
    CleanRc (Machine.cleanLine s c l) b := by
  intro x hx uo so
  rw [cleanLine_l1 wf] at hx
  split at hx
  · subst b
    obtain ⟨y, hy, rfl⟩ := List.mem_map.mp hx
    by_cases same : y.line = l.line
    · rw [if_pos same]
    · rw [if_neg same] at uo so ⊢
      exact h y hy uo so
  · exact h x hx uo so

/-- The lines of an L1 are cleaned one after the other: the dirty RC lines are among those still to come. -/
theorem cleanLines_clean {c : Nat} (ls : List L1Line) {s : State} (wf : Tab.wf CoreSt.reset s.cores = true)
    (left : ∀ l ∈ (s.core c).l1, l.uo = false → l.so = false → l.dirty ≠ 0 → l ∈ ls) :
    CleanRc (ls.foldl (fun s l => if l.uo || l.so then s else Machine.cleanLine s c l) s) c := by
  induction ls generalizing s with
  | nil => exact fun l hl uo so => by_contra fun d => nomatch left l hl uo so d
  | cons x ls ih =>
    rw [List.foldl_cons]
    by_cases skip : (x.uo || x.so) = true
    · rw [if_pos skip]
      refine ih wf fun l hl uo so d => (List.mem_cons.mp (left l hl uo so d)).resolve_left fun e => ?_
      subst l
      rw [uo, so] at skip
      exact absurd skip (by simp)
    · rw [if_neg skip]
      refine ih ((cleanLine_kept s c x).coresWf wf) fun l hl uo so d => ?_
      rw [cleanLine_l1 wf, if_pos rfl] at hl
      obtain ⟨y, hy, rfl⟩ := List.mem_map.mp hl
      by_cases same : y.line = x.line
      · rw [if_pos same] at d
        exact absurd rfl d
      · rw [if_neg same] at uo so d ⊢
        exact (List.mem_cons.mp (left y hy uo so d)).resolve_left fun e => same (congrArg L1Line.line e)

theorem cleanLines_kept (c : Nat) (ls : List L1Line) (s : State) :
    MemKept s (ls.foldl (fun s l => if l.uo || l.so then s else Machine.cleanLine s c l) s) := by
  refine .foldl (fun s l => ?_) _ _
  split
  · rfl
  · exact cleanLine_kept _ _ _

theorem cleanLines_keeps {c b : Nat} (ls : List L1Line) {s : State} (wf : Tab.wf CoreSt.reset s.cores = true) (h : CleanRc s b) :
    CleanRc (ls.foldl (fun s l => if l.uo || l.so then s else Machine.cleanLine s c l) s) b := by
  induction ls generalizing s with
  | nil => exact h
  | cons x ls ih =>
    rw [List.foldl_cons]
    split
    · exact ih wf h
    · exact ih ((cleanLine_kept s c x).coresWf wf) (h.cleanLine wf c x)

/-- The write-backs of RC lines leave every L1 that serves the core clean. -/
theorem writeBackRc_clean {s : State} (wf : Tab.wf CoreSt.reset s.cores = true) (core : Nat) :
    ∀ c ∈ l1Cores s core, CleanRc (writeBackRc s core) c := by
  have fold (cs : List Nat) (done : List Nat) (u : State) (wf : Tab.wf CoreSt.reset u.cores = true) (h : ∀ c ∈ done, CleanRc u c) :
      ∀ c ∈ done ++ cs, CleanRc (cs.foldl (fun s c => (s.core c).l1.foldl (fun s l => if l.uo || l.so then s else Machine.cleanLine s c l)
        (deliverWhere s fun w => w.core == c && !w.held.uo)) u) c := by
    induction cs generalizing done u with
    | nil => simpa using h
    | cons c cs ih =>
      intro b hb
      have arrived := deliverWhere_cores u fun w => w.core == c && !w.held.uo
      have core (k : Nat) : (deliverWhere u fun w => w.core == c && !w.held.uo).core k = u.core k := by
        rw [State.core, arrived]; rfl
      have wf' : Tab.wf CoreSt.reset (deliverWhere u fun w => w.core == c && !w.held.uo).cores = true := by rw [arrived]; exact wf
      refine ih (done ++ [c]) _ ((cleanLines_kept c _ _).coresWf wf') (fun k hk => ?_) b (by simpa using hb)
      obtain hk | hk := List.mem_append.mp hk
      · exact cleanLines_keeps _ wf' fun l hl => h k hk l (core k ▸ hl)
      · rw [List.mem_singleton.mp hk]
        exact cleanLines_clean _ wf' fun l hl _ _ _ => core c ▸ hl
  exact fun c hc => fold (l1Cores s core) [] s wf (fun _ h => nomatch h) c hc

/-- The update of a copy of an SO line leaves what is dirty. -/
theorem snoopWhere_clean {s : State} (wf : Tab.wf CoreSt.reset s.cores = true) (f : Snoop → Bool) {c : Nat} (h : CleanRc s c) :
    CleanRc (snoopWhere s f) c := by
  have fold (xs : List Snoop) (u : State) (wf : Tab.wf CoreSt.reset u.cores = true) (h : CleanRc u c) :
      CleanRc (xs.foldl (fun s x => s.modCore x.core (snoopCore x.pa x.bytes)) u) c := by
    induction xs generalizing u with
    | nil => exact h
    | cons x xs ih =>
      refine ih _ (State.modCore_wf wf _ _) fun l hl uo so => ?_
      rw [State.core_modCore wf] at hl
      split at hl
      · subst c
        obtain ⟨y, hy, rfl⟩ := List.mem_map.mp hl
        by_cases upd : y.line = x.pa / 128 ∧ y.so = true
        · rw [if_pos upd] at uo so ⊢
          exact h y hy uo so
        · rw [if_neg upd] at uo so ⊢
          exact h y hy uo so
      · exact h l hl uo so
  unfold snoopWhere
  split
  · exact fold _ { s with snoops := (snoopSplit s f s.snoops).2 } wf h
  · exact h

/-- A release that leaves the L1 leaves no byte of an RC line dirty. -/
theorem releaseAt_noDirtyRc {s : State} (wf : Tab.wf CoreSt.reset s.cores = true) {core : Nat} {sc : Scope} (leaves : leavesL1 s core sc) :
    NoDirtyRc (releaseAt s core sc) core := by
  have whole : releaseAt s core sc = closeRound (snoopWhere (writeBackRc s core) fun x => x.src == core) core := by
    obtain ⟨ctx, fused⟩ := leaves
    cases sc with
    | ctx => exact absurd rfl ctx
    | gang => exact if_neg fun h => fused ⟨h, .inl rfl⟩
    | cluster => exact if_neg fun h => fused ⟨h, .inr rfl⟩
    | die => rfl
    | dev => rfl
    | sys => rfl
  have wf1 := (writeBackRc_kept s core).coresWf wf
  have wf2 := (snoopWhere_kept (writeBackRc s core) fun x => x.src == core).coresWf wf1
  intro c hc l hl
  rw [(releaseAt_kept s core sc).l1Cores] at hc
  rw [whole, closeRound_l1 _ core wf2] at hl
  exact snoopWhere_clean wf1 _ (writeBackRc_clean wf core c hc) l hl

/-! ### What an acquire leaves (R261) -/

/-- Of the RC and UO lines of an L1 only dirty bytes stay valid. -/
def dropClean (k : CoreSt) : CoreSt :=
  { k with l1 := (k.l1.map fun l => if l.so then l else { l with valid := l.dirty }).filter fun l => l.valid != 0 }

theorem dropClean_valid (k : CoreSt) : ∀ l ∈ (dropClean k).l1, l.so = false → l.valid = l.dirty := by
  intro l hl so
  obtain ⟨y, hy, rfl⟩ := List.mem_map.mp (List.mem_of_mem_filter hl)
  by_cases held : y.so = true
  · rw [if_pos held] at so
    exact absurd (so.symm.trans held) (by simp)
  · rw [if_neg held]

/-- An acquire that leaves the L1 leaves only dirty bytes of its RC and UO lines valid. -/
theorem acquireAt_acquired {s : State} (wf : Tab.wf CoreSt.reset s.cores = true) {core : Nat} {sc : Scope} (leaves : leavesL1 s core sc) :
    Acquired (acquireAt s core sc) core := by
  have fold (cs : List Nat) (done : List Nat) (u : State) (wf : Tab.wf CoreSt.reset u.cores = true)
      (h : ∀ c ∈ done, ∀ l ∈ (u.core c).l1, l.so = false → l.valid = l.dirty) :
      ∀ c ∈ done ++ cs, ∀ l ∈ ((cs.foldl (fun s c => s.modCore c dropClean) u).core c).l1, l.so = false → l.valid = l.dirty := by
    induction cs generalizing done u with
    | nil => simpa using h
    | cons c cs ih =>
      intro b hb
      refine ih (done ++ [c]) _ (State.modCore_wf wf _ _) (fun k hk l hl => ?_) b (by simpa using hb)
      rw [State.core_modCore wf] at hl
      split at hl
      · exact dropClean_valid _ l hl
      · exact h k ((List.mem_append.mp hk).resolve_right fun e => absurd (List.mem_singleton.mp e) ‹_›) l hl
  have eq : acquireAt s core sc = (l1Cores s core).foldl (fun s c => s.modCore c dropClean) (snoopAt s core) := by
    rw [← (snoopAt_kept s core).l1Cores core]
    unfold acquireAt
    dsimp only
    rw [if_neg leaves.1, if_neg leaves.2]
    rfl
  intro c hc
  rw [(acquireAt_kept s core sc).l1Cores] at hc
  rw [eq]
  exact fold (l1Cores s core) [] _ ((snoopAt_kept s core).coresWf wf) (fun _ h => nomatch h) c hc

end Sys2Proof.Machine


/-! ## Machine family: translations that a cache holds (R213) -/

namespace Sys2Proof.Machine

/-- What enters a cache stands in it. -/
theorem mem_cacheIn {α : Type} [DecidableEq α] (cap victim : Nat) (l : List α) (x : α) : x ∈ cacheIn cap victim l x := by
  unfold cacheIn
  split
  · assumption
  · split <;> simp

theorem mem_keepWalk (s : State) (p : Party) (e : TlbEntry) (es : List WalkEntry) : e ∈ (keepWalk s p e es).tlb := by
  unfold keepWalk
  dsimp only
  split
  · exact List.mem_append_right _ (mem_cacheIn _ _ _ _)
  · exact List.mem_append_right _ (mem_cacheIn _ _ _ _)

/-- A walk leaves its translation where the next access finds it. -/
theorem tlbFind_keepWalk (s u : State) (p : Party) (va : Nat) (l1 l2 : Leaf) (pa : Nat) (es : List WalkEntry) (h : u.queues = s.queues) :
    (tlbFind (keepWalk s p (walkEntry u p.die p.queue va l1 l2 pa) es) p va).isSome = true := by
  have mem := mem_keepWalk s p (walkEntry u p.die p.queue va l1 l2 pa) es
  have queue : (keepWalk s p (walkEntry u p.die p.queue va l1 l2 pa) es).queue p.queue = u.queue p.queue := by
    rw [(keepWalk_kept _ _ _ _).queue, State.queue, ← h]; rfl
  unfold tlbFind
  dsimp only
  rw [queue, Option.isSome_or, Bool.or_eq_true]
  refine .inr (List.find?_isSome.mpr ⟨_, mem, ?_⟩)
  simp [walkEntry]

theorem walkLeaves_cached {p : Party} {va : Word} {acc : Acc} (n : Nat) {s t : State} {x : Leaf × Leaf × Nat}
    (h : walkLeaves s p va acc n = (t, .ok x)) : (tlbFind t p va.toNat).isSome = true := by
  induction n generalizing s with
  | zero => simp [walkLeaves] at h
  | succ n ih =>
    unfold walkLeaves at h
    dsimp only at h
    split at h
    · simp only [Prod.mk.injEq] at h
      rw [← h.1]
      exact tlbFind_keepWalk _ _ _ _ _ _ _ _ rfl
    · simp at h
    · split at h
      · exact ih h
      · simp at h

/-- An accepted translation that changes nothing is cached, or lies in the LS window. -/
theorem translate_cached {s : State} {p : Party} {va : Word} {n : Nat} {acc : Acc} {d : Dest} (h : translate s p va n acc = (s, .ok d)) :
    lsWindow ≤ va.toNat ∨ (tlbFind s p va.toNat).isSome = true := by
  by_cases w : lsWindow ≤ va.toNat
  · exact .inl w
  · refine .inr ?_
    have small : ¬ (va.toNat ≥ 2 ^ 56) ∧ ¬ (va.toNat ≥ lsWindow + lsBytes) := by
      unfold lsWindow lsBytes at *
      omega
    unfold translate at h
    dsimp only at h
    rw [if_neg small.1, if_neg small.2, if_neg w] at h
    unfold leavesOf at h
    cases f : tlbFind s p va.toNat with
    | some e => rfl
    | none =>
      rw [f] at h
      dsimp only at h
      rcases walked : walkLeaves (s.modPerf p.die p.queue fun x => { x with walks := x.walks + 1 }) p va acc 12 with ⟨t, e | x⟩
      · rw [walked] at h; simp at h
      · rw [walked] at h
        dsimp only at h
        have same : t = s := by
          split at h
          · simp at h
          · simp only [Prod.mk.injEq] at h; exact h.1
        rw [← f, ← same]
        exact walkLeaves_cached _ walked

/-- Such a translation is the same wherever the TLBs and the queues are. -/
theorem translate_congr {s u : State} {p : Party} {va : Word} {n : Nat} {acc : Acc} {d : Dest} (h : translate s p va n acc = (s, .ok d))
    (tlb : u.tlb = s.tlb) (queues : u.queues = s.queues) (core : (u.core p.core).tlb = (s.core p.core).tlb) :
    translate u p va n acc = (u, .ok d) := by
  have found : tlbFind u p va.toNat = tlbFind s p va.toNat := by
    unfold tlbFind
    dsimp only
    rw [core, tlb, State.queue, queues]
    rfl
  have cached := translate_cached h
  unfold translate at h ⊢
  dsimp only at h ⊢
  by_cases a : va.toNat ≥ 2 ^ 56
  · rw [if_pos a] at h; simp at h
  by_cases b : va.toNat ≥ lsWindow + lsBytes
  · rw [if_neg a, if_pos b] at h; simp at h
  rw [if_neg a, if_neg b] at h ⊢
  by_cases c : va.toNat ≥ lsWindow
  · rw [if_pos c] at h ⊢
    by_cases ex : acc = .execute
    · rw [if_pos ex] at h; simp at h
    by_cases len : va.toNat - lsWindow + n > p.lsLen
    · rw [if_neg ex, if_pos len] at h; simp at h
    rw [if_neg ex, if_neg len] at h ⊢
    split at h
    · simp at h
    · next body =>
      simp only [Prod.mk.injEq, true_and] at h
      rw [if_neg body, h]
  · rw [if_neg c] at h ⊢
    obtain ⟨e, he⟩ := Option.isSome_iff_exists.mp (cached.resolve_left c)
    unfold leavesOf at h ⊢
    rw [found, he]
    rw [he] at h
    dsimp only at h ⊢
    split at h
    · simp at h
    · simp only [Prod.mk.injEq, true_and] at h
      rw [h]

/-! ### What the state of the L2 does not change -/

/-- Two states that differ only in the lines of the L2, the modes of pages and the counts of accesses. -/
def L2Alike (s t : State) : Prop := ∃ a b c, t = { s with l2 := a, modes := b, perf := c }

namespace L2Alike

@[refl] theorem refl (s : State) : L2Alike s s := ⟨_, _, _, rfl⟩

theorem symm {s t : State} (h : L2Alike s t) : L2Alike t s := by
  obtain ⟨a, b, c, rfl⟩ := h
  exact ⟨_, _, _, rfl⟩

theorem trans {s t u : State} (h : L2Alike s t) (k : L2Alike t u) : L2Alike s u := by
  obtain ⟨a, b, c, rfl⟩ := h
  obtain ⟨a', b', c', rfl⟩ := k
  exact ⟨_, _, _, rfl⟩

theorem foldl {α : Type} {f : State → α → State} (h : ∀ s t x, L2Alike s t → L2Alike (f s x) (f t x)) (l : List α) {s t : State}
    (k : L2Alike s t) : L2Alike (l.foldl f s) (l.foldl f t) := by
  induction l generalizing s t with
  | nil => exact k
  | cons x l ih => exact ih (h s t x k)

theorem poison {s t : State} (h : L2Alike s t) : t.poison = s.poison := by obtain ⟨a, b, c, rfl⟩ := h; rfl
theorem mem {s t : State} (h : L2Alike s t) : t.mem = s.mem := by obtain ⟨a, b, c, rfl⟩ := h; rfl
theorem cores {s t : State} (h : L2Alike s t) : t.cores = s.cores := by obtain ⟨a, b, c, rfl⟩ := h; rfl
theorem vlc {s t : State} (h : L2Alike s t) : t.vlc = s.vlc := by obtain ⟨a, b, c, rfl⟩ := h; rfl
theorem fenced {s t : State} (h : L2Alike s t) : t.fenced = s.fenced := by obtain ⟨a, b, c, rfl⟩ := h; rfl
theorem engines {s t : State} (h : L2Alike s t) : t.engines = s.engines := by obtain ⟨a, b, c, rfl⟩ := h; rfl
theorem l1Core {s t : State} (h : L2Alike s t) (core pa : Nat) : Machine.l1Core t core pa = Machine.l1Core s core pa := by
  obtain ⟨a, b, c, rfl⟩ := h; rfl
theorem findLine {s t : State} (h : L2Alike s t) (core pa : Nat) : Machine.findLine t core pa = Machine.findLine s core pa := by
  obtain ⟨a, b, c, rfl⟩ := h; rfl

end L2Alike

theorem touchL2_alike (s : State) (die pa q : Nat) (cls : Rcl) (alloc : Bool) : L2Alike s (touchL2 s die pa q cls alloc) := by
  unfold touchL2
  dsimp only
  repeat' split
  all_goals exact ⟨_, _, _, rfl⟩

theorem noteSo_alike (s : State) (pa : Nat) (so : Bool) : L2Alike s (noteSo s pa so) := by
  unfold noteSo changeMode
  dsimp only
  repeat' split
  all_goals exact ⟨_, _, _, rfl⟩

theorem countRemote_alike (s : State) (pa die q : Nat) (write : Bool) : L2Alike s (countRemote s pa die q write) := by
  unfold countRemote
  split
  · rfl
  · exact ⟨_, _, _, rfl⟩

theorem reachHome_alike (s : State) (pa die q : Nat) (write so alloc : Bool) (cls : Rcl) :
    L2Alike s (reachHome s pa die q write so alloc cls) := by
  unfold reachHome
  split
  · exact ((noteSo_alike _ _ _).trans (touchL2_alike _ _ _ _ _ _)).trans (countRemote_alike _ _ _ _ _)
  · rfl

theorem mergeL2_alike (s : State) (line : Nat) (mask : BitVec 128) : L2Alike s (mergeL2 s line mask) := by
  unfold mergeL2
  split
  · exact ⟨_, _, _, rfl⟩
  · rfl

/-! Operations that do not read the L2 do the same to both. -/

theorem copyFirst_alike {s t : State} (h : L2Alike s t) (pa : Nat) : L2Alike (copyFirst s pa) (copyFirst t pa) := by
  obtain ⟨a, b, c, rfl⟩ := h
  unfold copyFirst
  dsimp only
  split
  · exact ⟨_, _, _, rfl⟩
  · split
    · exact ⟨_, _, _, rfl⟩
    · exact ⟨_, _, _, rfl⟩

theorem poisonSectors_alike {s t : State} (h : L2Alike s t) (secs : List Nat) : L2Alike (poisonSectors s secs) (poisonSectors t secs) := by
  refine .foldl (fun s t sec h => ?_) secs h
  obtain ⟨a, b, c, rfl⟩ := h
  dsimp only
  split
  · exact ⟨_, _, _, rfl⟩
  · exact ⟨_, _, _, rfl⟩

theorem markWatched_alike {s t : State} (h : L2Alike s t) (pa n : Nat) : L2Alike (markWatched s pa n) (markWatched t pa n) := by
  obtain ⟨a, b, c, rfl⟩ := h
  exact .foldl (fun s t w h => by obtain ⟨a, b, c, rfl⟩ := h; exact ⟨_, _, _, rfl⟩) _ ⟨_, _, _, rfl⟩

theorem wakeCounters_alike {s t : State} (h : L2Alike s t) (pa n : Nat) : L2Alike (wakeCounters s pa n) (wakeCounters t pa n) := by
  obtain ⟨a, b, c, rfl⟩ := h
  exact ⟨_, _, _, rfl⟩

theorem arrive_alike {s t : State} (w : WriteBack) (h : L2Alike s t) : L2Alike (arrive s w) (arrive t w) := by
  have counted {u v : State} (n : Nat) (h : L2Alike u v) :
      L2Alike (if w.held.uo then u else countArrived u w.core w.round n) (if w.held.uo then v else countArrived v w.core w.round n) := by
    obtain ⟨a, b, c, rfl⟩ := h
    split <;> exact ⟨_, _, _, rfl⟩
  have merged : L2Alike (mergeL2 (reachHome (copyFirst s (w.held.line * 128)) (w.held.line * 128) (coreDie w.core) w.held.queue true false true
      w.held.cls) w.held.line w.held.dirty) (mergeL2 (reachHome (copyFirst t (w.held.line * 128)) (w.held.line * 128) (coreDie w.core)
      w.held.queue true false true w.held.cls) w.held.line w.held.dirty) :=
    (((mergeL2_alike _ _ _).symm.trans (reachHome_alike _ _ _ _ _ _ _ _).symm).trans (copyFirst_alike h _)).trans
      ((reachHome_alike _ _ _ _ _ _ _ _).trans (mergeL2_alike _ _ _))
  unfold arrive
  dsimp only
  obtain ⟨a, b, c, e⟩ := merged
  rw [e]
  exact wakeCounters_alike (markWatched_alike (counted _ (poisonSectors_alike ⟨_, _, _, rfl⟩ _)) _ _) _ _

theorem deliverWhere_alike {s t : State} (h : L2Alike s t) (f : WriteBack → Bool) : L2Alike (deliverWhere s f) (deliverWhere t f) := by
  obtain ⟨a, b, c, rfl⟩ := h
  unfold deliverWhere
  dsimp only
  split
  · exact .foldl (fun _ _ w h => arrive_alike w h) _ ⟨_, _, _, rfl⟩
  · exact ⟨_, _, _, rfl⟩

theorem countSent_alike {s t : State} (h : L2Alike s t) (core pa : Nat) : L2Alike (countSent s core pa) (countSent t core pa) := by
  obtain ⟨a, b, c, rfl⟩ := h
  unfold countSent
  by_cases few : Tab.get 0 (s.core core).sent (addressee pa (coreDie core)) + 1 < 2 ^ 32 - 1
  · have few' : Tab.get 0 (({ s with l2 := a, modes := b, perf := c } : State).core core).sent (addressee pa (coreDie core)) + 1 < 2 ^ 32 - 1 := few
    dsimp only
    rw [if_pos few, if_pos few']
    exact ⟨_, _, _, rfl⟩
  · have few' : ¬ Tab.get 0 (({ s with l2 := a, modes := b, perf := c } : State).core core).sent (addressee pa (coreDie core)) + 1 < 2 ^ 32 - 1 :=
      few
    dsimp only
    rw [if_neg few, if_neg few']
    exact ⟨_, _, _, rfl⟩

theorem depart_alike {s t : State} (h : L2Alike s t) (core : Nat) (l : L1Line) : L2Alike (depart s core l) (depart t core l) := by
  have sent : L2Alike (if l.uo then s else countSent s core (l.line * 128)) (if l.uo then t else countSent t core (l.line * 128)) := by
    split
    · exact h
    · exact countSent_alike h _ _
  unfold depart
  split
  · exact h
  · dsimp only
    obtain ⟨a, b, c, e⟩ := sent
    rw [e]
    exact ⟨_, _, _, rfl⟩

theorem writeBack_alike {s t : State} (h : L2Alike s t) (core : Nat) (l : L1Line) : L2Alike (writeBack s core l) (writeBack t core l) :=
  deliverWhere_alike (depart_alike h core l) _

theorem snoopWhere_alike {s t : State} (h : L2Alike s t) (f : Snoop → Bool) : L2Alike (snoopWhere s f) (snoopWhere t f) := by
  obtain ⟨a, b, c, rfl⟩ := h
  have split_same (xs : List Snoop) : snoopSplit { s with l2 := a, modes := b, perf := c } f xs = snoopSplit s f xs := by
    induction xs with
    | nil => rfl
    | cons x xs ih => rw [snoopSplit, snoopSplit, ih]; rfl
  unfold snoopWhere
  dsimp only
  rw [split_same]
  split
  · exact .foldl (fun s t x h => by obtain ⟨a, b, c, rfl⟩ := h; exact ⟨_, _, _, rfl⟩) _ ⟨_, _, _, rfl⟩
  · exact ⟨_, _, _, rfl⟩

theorem bypass_alike {s t : State} (h : L2Alike s t) (core pa : Nat) : L2Alike (bypass s core pa) (bypass t core pa) := by
  have snooped : L2Alike (snoopAt s core) (snoopAt t core) := by
    have cores : l1Cores t core = l1Cores s core := by obtain ⟨a, b, c, rfl⟩ := h; rfl
    rw [snoopAt, snoopAt, cores]
    exact snoopWhere_alike h _
  have own : L2Alike (deliverLine (snoopAt s core) (l1Core s core pa) (pa / 128)) (deliverLine (snoopAt t core) (l1Core t core pa) (pa / 128)) := by
    rw [h.l1Core]
    exact deliverWhere_alike snooped _
  unfold bypass
  dsimp only
  rw [own.findLine, own.l1Core]
  generalize deliverLine (snoopAt s core) (l1Core s core pa) (pa / 128) = u at own ⊢
  generalize deliverLine (snoopAt t core) (l1Core t core pa) (pa / 128) = v at own ⊢
  split
  · exact own
  · obtain ⟨a, b, c, e⟩ := writeBack_alike own (l1Core u core pa) ‹_›
    rw [e]
    exact ⟨_, _, _, rfl⟩

/-- An access that is aligned, translates without a change and meets no rule is accepted. -/
theorem accessIn_accepts {m : Mode} {s : State} {p : Party} {rule : AccRule} {va : Word} {n : Nat} {acc : Acc} {d : Dest}
    (al : va.toNat % n = 0) (tr : translate s p va n acc = (s, .ok d)) (pl : placeRule rule va n acc d = none)
    (bus : ∀ pa kind, d = .phys pa kind → busRule s p.die va pa = none) (po : readsMem acc = true → poisonRule s p m va n d = none) :
    accessIn m s p rule va n acc = (s, .ok d) := by
  have po' : (if readsMem acc then poisonRule s p m va n d else none) = none := by
    split
    · exact po ‹_›
    · rfl
  unfold accessIn
  rw [if_neg (by simpa using al), tr]
  dsimp only
  rw [pl]
  cases d with
  | ls c off =>
    dsimp only
    rw [po']
  | phys pa kind =>
    dsimp only
    rw [bus pa kind rfl, po']

theorem poisonedAt_congr {s t : State} (h : t.poison = s.poison) (pa n : Nat) : poisonedAt t pa n = poisonedAt s pa n := by
  rw [poisonedAt, h]; rfl

/-- An accepted atomic access to a counter is accepted whatever the L2 holds. -/
theorem access_counter_congr {s t : State} {p : Party} {va : Word} {d : Dest} (h : access s p .counter va 8 .atomic = (s, .ok d))
    (a : L2Alike s t) : access t p .counter va 8 .atomic = (t, .ok d) := by
  obtain ⟨al, tr, pl, bus, po⟩ := accessIn_ok h
  have same : t.tlb = s.tlb ∧ t.queues = s.queues := by obtain ⟨_, _, _, rfl⟩ := a; exact ⟨rfl, rfl⟩
  refine accessIn_accepts al (translate_congr tr same.1 same.2 (by rw [State.core, a.cores]; rfl)) pl (fun pa kind e => ?_) fun _ => ?_
  · rw [← bus pa kind e]
    obtain ⟨_, _, _, rfl⟩ := a
    rfl
  · rw [← po rfl]
    cases d with
    | ls c off => rw [poisonRule, poisonRule, State.core, a.cores]; rfl
    | phys pa kind =>
      show poisonRule t p .bypass va 8 (.phys pa kind) = poisonRule s p .bypass va 8 (.phys pa kind)
      simp [poisonRule, poisonedAt_congr a.poison, poisonedAt_congr (bypass_alike a p.core pa).poison]

end Sys2Proof.Machine


/-! ## Machine family: engine operations that a core issues (R326 to R330) -/

namespace Sys2Proof.Machine

/-- The operands in the register block of an engine instruction. -/
def blockArgs (v : Vlc) (efn n : Nat) (opt : Word) : EngArgs := ⟨efn, v.getX n, v.getX (n + 1), v.getX (n + 2), v.getX (n + 3), opt⟩

/-- The engine of an operation that a core issues. -/
def issueEngine (v : Vlc) (efn : Nat) : Nat := if efn = 2 then 8 else coreCluster v.core % 8

/-- Where an operation of the VLC at the front comes from. -/
def issuer (s : State) (efn : Nat) : EngFrom :=
  ⟨coreDie s.vlc.core, issueEngine s.vlc efn, s.gang.queue, none, ((s.findNode s.gang.node).map (·.idx)).getD 0xFFFF, some s.vlc.gang,
    s.vlc.core, s.vlc.slot, s.me.lsBase, s.me.lsLen⟩

theorem exec_engine {i : Instr} {s : State} {efn : Nat} {d a : Fld} {opt : Word} (h : engineForm i s.vlc = some (efn, d, a, opt)) :
    exec i s = engInstr i efn d a opt s := by
  unfold engineForm at h
  split at h
  · simp only [Option.some.injEq, Prod.mk.injEq] at h
    obtain ⟨rfl, rfl, rfl, rfl⟩ := h
    rfl
  · simp only [Option.some.injEq, Prod.mk.injEq] at h
    obtain ⟨rfl, rfl, rfl, rfl⟩ := h
    rfl
  · simp only [Option.some.injEq, Prod.mk.injEq] at h
    obtain ⟨rfl, rfl, rfl, rfl⟩ := h
    rfl
  · exact absurd h (by simp)

/-- A counter that is accepted passes the checks of an issue, whatever the L2 holds. -/
theorem checkCounter_accepted {s t : State} {ctr : Word} (h : CounterAccepted s ctr) (a : L2Alike s t) :
    ∃ d, checkCounter t s.me ctr = (t, .ok d) := by
  unfold checkCounter
  obtain rfl | ⟨d, h⟩ := h
  · exact ⟨none, if_pos rfl⟩
  · by_cases zero : ctr = 0
    · exact ⟨none, if_pos zero⟩
    · rw [if_neg zero, access_counter_congr h a]
      exact ⟨some d, rfl⟩

/-- Operands that R328 to R330 accept, with a counter that R343 accepts, pass the checks of an issue. -/
theorem engChecks_accepts {s : State} {efn n : Nat} {opt : Word} {group : List Nat} {host : Bool}
    (h : EngineAccepts s efn (s.vlc.getX n) (s.vlc.getX (n + 1)) (s.vlc.getX (n + 2)) opt group host)
    (c : CounterAccepted s (s.vlc.getX (n + 3))) :
    ∃ t is, engChecks s s.me (blockArgs s.vlc efn n opt) = (t, .ok is) ∧ is.members = group ∧ L2Alike s t := by
  unfold EngineAccepts at h
  unfold engChecks
  by_cases coll : efn = 2
  · rw [if_pos coll] at h
    rw [if_pos (show (blockArgs s.vlc efn n opt).efn = 2 from coll)]
    obtain ⟨good, ⟨u, ws, read, members, same⟩, rank, root, -⟩ := h
    have alike : L2Alike s u := ⟨_, _, _, same⟩
    obtain ⟨d, ctr⟩ := checkCounter_accepted c alike
    have table : readHomeDwords s s.me ((s.queue s.me.queue).colltab + BitVec.ofNat 64 (64 * optGroup opt)) 8 = (u, .ok ws) := read
    have fits : ¬ (optRank opt ≥ group.length ∨ optOp opt = 4 ∧ optRoot opt ≥ group.length) := by
      rintro (r | ⟨o, r⟩)
      · omega
      · have := root o; omega
    refine ⟨u, ⟨group, touchesHost u s.me (s.vlc.getX n) || touchesHost u s.me (s.vlc.getX (n + 1))⟩, ?_, rfl, alike⟩
    simp only [collChecks, blockArgs, good, table, members, if_neg fits, ctr]
    rfl
  · rw [if_neg coll] at h
    rw [if_neg (show ¬ (blockArgs s.vlc efn n opt).efn = 2 from coll)]
    obtain ⟨rfl, some_, few, apart, d, tr, peer, -⟩ := h
    obtain ⟨e, ctr⟩ := checkCounter_accepted c (.refl s)
    have nonzero : (s.vlc.getX (n + 2)).toNat ≠ 0 := fun e => some_ (BitVec.eq_of_toNat_eq e)
    have clear : rangesOverlap (s.vlc.getX n).toNat (s.vlc.getX (n + 1)).toNat (s.vlc.getX (n + 2)).toNat = false := by
      simp only [rangesOverlap, Bool.and_eq_false_iff, decide_eq_false_iff_not]
      omega
    have first : firstDest s s.me (efn == 1) (s.vlc.getX n) = (s, .ok d) := by
      simp only [firstDest, tr, peer]
      cases h : efn == 1 <;> simp_all
    refine ⟨s, ⟨[], d.isHost || touchesHost s s.me (s.vlc.getX (n + 1))⟩, ?_, rfl, .refl s⟩
    simp only [copyChecks, blockArgs, if_neg nonzero, if_neg (Nat.not_lt.mpr few), clear, first, ctr]
    rfl

/-- The scope of the release of an issue. -/
def issueScope (is : Issued) : Scope := if is.host then .sys else .dev

/-- The operation that an issue puts into its engine's queue over the state behind its release. -/
def issuedOp (s t : State) (efn n : Nat) (opt : Word) (is : Issued) (hold : Option Nat) : EngOp :=
  mkOp t.fresh (freeTag t.takeFresh.1 t.fresh) (issuer s efn) (blockArgs s.vlc efn n opt) is hold

/-- An issue whose checks pass waits while the queue of its engine is full. -/
theorem engInstr_full {i : Instr} {s t : State} {efn : Nat} {d a : Fld} {opt : Word} {is : Issued} (lo : 3 ≤ xNum s.vlc.wins a)
    (hi : xNum s.vlc.wins a ≤ 252) (ok : engChecks s s.me (blockArgs s.vlc efn (xNum s.vlc.wins a) opt) = (t, .ok is))
    (full : 32 ≤ (s.engines.filter fun o => o.die == coreDie s.vlc.core && o.eng == issueEngine s.vlc efn).length) :
    engInstr i efn d a opt s = .next s := by
  have good : regBlockBad (xNum s.vlc.wins a) = false := by
    simp only [regBlockBad, Bool.or_eq_false_iff, decide_eq_false_iff_not]
    omega
  unfold blockArgs at ok
  simp only [engInstr, good, ok]
  exact if_pos full

/-- An issue whose checks pass puts its operation at the end of the queue, behind its release. -/
theorem engInstr_queues {i : Instr} {s t : State} {efn : Nat} {d a : Fld} {opt : Word} {is : Issued} (lo : 3 ≤ xNum s.vlc.wins a)
    (hi : xNum s.vlc.wins a ≤ 252) (ok : engChecks s s.me (blockArgs s.vlc efn (xNum s.vlc.wins a) opt) = (t, .ok is))
    (room : ¬ 32 ≤ (s.engines.filter fun o => o.die == coreDie s.vlc.core && o.eng == issueEngine s.vlc efn).length) :
    engInstr i efn d a opt s =
      let r := releaseBoth t i (issueScope is)
      let op := issuedOp s r.1 efn (xNum s.vlc.wins a) opt is r.2
      .next ((signalNow { r.1.takeFresh.1 with engines := r.1.engines ++ [op] } op).retire d 1) := by
  have good : regBlockBad (xNum s.vlc.wins a) = false := by
    simp only [regBlockBad, Bool.or_eq_false_iff, decide_eq_false_iff_not]
    omega
  unfold blockArgs at ok
  simp only [engInstr, good, ok]
  exact if_neg room

/-- An operation with something to move signals later. -/
theorem signalNow_later {s : State} {op : EngOp} (h : op.efn = 2 ∨ op.len ≠ 0) : signalNow s op = s := by
  unfold signalNow
  exact if_pos (h.elim .inl fun h => .inr (.inl h))

/-- A held or empty copy that names no counter and waits for no release ends at once. -/
theorem signalNow_ends {s : State} {op : EngOp} (efn : op.efn ≠ 2) (len : op.len = 0) (hold : op.hold = none) (ctr : op.ctr = 0) :
    signalNow s op = endOp s op := by
  unfold signalNow
  rw [if_neg (by simp [efn, len, hold])]
  simp [signalOp, checkCounter, ctr]

/-- With an empty vector queue, or in the handler, the release is done at once (R34, R259). -/
theorem releaseBoth_now {s : State} (h : s.vlc.vq = [] ∨ s.vlc.inHandler = true) (i : Instr) (sc : Scope) :
    releaseBoth s i sc = (releaseAt s s.vlc.core sc, none) := if_pos h

/-- Otherwise it stands at the end of the vector queue (R34, R259). -/
theorem releaseBoth_later {s : State} (q : s.vlc.vq ≠ []) (h : s.vlc.inHandler = false) (i : Instr) (sc : Scope) : ∃ e, e.i = i ∧
    e.xd = BitVec.ofNat 64 s.fresh ∧
    releaseBoth s i sc = ({ (s.modVlc fun v => { v with vq := v.vq ++ [e] }) with fresh := s.fresh + 1 }, some s.fresh) :=
  ⟨{ capture s.vlc i 0 0 0 (BitVec.ofNat 64 s.fresh) 0 0 with vscope := scopeRank sc }, rfl, rfl, if_neg fun n => n.elim q (by simp [h])⟩

theorem releaseBoth_engines (s : State) (i : Instr) (sc : Scope) : (releaseBoth s i sc).1.engines = s.engines := by
  unfold releaseBoth
  split
  · exact (releaseAt_kept s _ sc).engines
  · rfl

/-- The scope of an issue reaches beyond the L1. -/
theorem issueScope_leaves (s : State) (core : Nat) (is : Issued) : leavesL1 s core (issueScope is) := by
  unfold issueScope
  split <;> simp [leavesL1]

/-- The scalar unit goes on behind an issue whose operation signals later. -/
theorem engInstr_puts {i : Instr} {s t : State} {efn : Nat} {d a : Fld} {opt : Word} {is : Issued} (lo : 3 ≤ xNum s.vlc.wins a)
    (hi : xNum s.vlc.wins a ≤ 252) (ok : engChecks s s.me (blockArgs s.vlc efn (xNum s.vlc.wins a) opt) = (t, .ok is))
    (room : ¬ 32 ≤ (s.engines.filter fun o => o.die == coreDie s.vlc.core && o.eng == issueEngine s.vlc efn).length)
    (moves : efn = 2 ∨ s.vlc.getX (xNum s.vlc.wins a + 2) ≠ 0) {r : State} {hold : Option Nat}
    (rel : releaseBoth t i (issueScope is) = (r, hold)) :
    engInstr i efn d a opt s =
      let u : State := { r with fresh := r.fresh + 1, engines := r.engines ++ [issuedOp s r efn (xNum s.vlc.wins a) opt is hold] }
      .next { u with vlc := (u.vlc.wx d 1).next } := by
  rw [engInstr_queues lo hi ok room, rel]
  dsimp only
  rw [signalNow_later (op := issuedOp s r efn (xNum s.vlc.wins a) opt is hold) moves]
  rfl

/-- The fields of an operation that has something to move. -/
theorem issuedOp_st {s t : State} {efn n : Nat} {opt : Word} {is : Issued} {hold : Option Nat} (moves : efn = 2 ∨ s.vlc.getX (n + 2) ≠ 0) :
    (issuedOp s t efn n opt is hold).st = .queued :=
  if_neg fun h : efn ≠ 2 ∧ s.vlc.getX (n + 2) = 0 => moves.elim h.1 fun m => m h.2

/-- Operands that are accepted move something. -/
theorem EngineAccepts.moves {s : State} {efn : Nat} {dst src len opt : Word} {group : List Nat} {host : Bool}
    (h : EngineAccepts s efn dst src len opt group host) : efn = 2 ∨ len ≠ 0 := by
  unfold EngineAccepts at h
  by_cases coll : efn = 2
  · exact .inl coll
  · rw [if_neg coll] at h
    exact .inr h.2.1

/-- Progress of a gang resets its watchdog (R358). -/
theorem State.progress_wdog {s : State} {g : Nat} {x : Gang} (h : (s.progress g).findGang g = some x) : x.wdog = 0 := by
  rw [State.progress, State.findGang_modGang s g g (f := fun x => { x with wdog := 0 }) fun _ => rfl] at h
  obtain ⟨y, hy, rfl⟩ := Option.map_eq_some_iff.mp h
  rw [if_pos (State.findGang_id hy)]

/-- A new operation that ends at once leaves the engines as they were. -/
theorem filter_new_op {l : List EngOp} {op : EngOp} (fresh : ∀ o ∈ l, o.id ≠ op.id) : (l ++ [op]).filter (fun o => o.id != op.id) = l := by
  rw [List.filter_append, List.filter_eq_self.mpr fun o ho => by simpa using fresh o ho]
  simp

/-- Settles O48. -/
theorem engineIssue : Obligations.EngineIssue := by
  unfold Obligations.EngineIssue
  refine ⟨fun i s efn d a opt group host form => ?_, fun i s efn d a opt form copy now => ?_⟩
  · intro n x eng lo hi accepts counter busy
    obtain ⟨t, is, ok, members, alike⟩ := engChecks_accepts accepts counter
    have moves := accepts.moves
    rw [exec_engine form]
    refine ⟨fun full => engInstr_full lo hi ok full, fun room => ?_⟩
    obtain ⟨l2, modes, perf, rfl⟩ := alike
    have tags {u : State} (e : u.engines = s.engines) (k : Nat) (few : s.engines.length < 65536) :
        ∀ o ∈ s.engines, o.efn = 1 → o.tag ≠ freeTag u k := e ▸ freeTag_free u k (e ▸ few)
    by_cases now : s.vlc.vq = [] ∨ s.vlc.inHandler = true
    · have kept := releaseAt_kept { s with l2 := l2, modes := modes, perf := perf } s.vlc.core (issueScope is)
      have puts := engInstr_puts (i := i) (d := d) lo hi ok room moves 
        (releaseBoth_now (s := { s with l2 := l2, modes := modes, perf := perf }) now i (issueScope is))
      refine ⟨_, _, puts, by dsimp only; rw [kept.engines], rfl, rfl, rfl, rfl, rfl, rfl, rfl, rfl, rfl, members, rfl, issuedOp_st moves, rfl,
        rfl, rfl, rfl, rfl, fun few => tags kept.engines _ few, fun _ => ⟨kept.vlc.sameRegisters, kept.fresh, rfl, fun ok => ?_⟩,
        fun q h => absurd now (by simp [q, h])⟩
      obtain ⟨-, wf, -⟩ := ok
      exact releaseAt_noDirtyRc (s := { s with l2 := l2, modes := modes, perf := perf }) wf (issueScope_leaves _ _ is)
    · have q : s.vlc.vq ≠ [] := fun e => now (.inl e)
      have h : s.vlc.inHandler = false := by simpa using fun e => now (.inr e)
      obtain ⟨e, ei, ex, rel⟩ := releaseBoth_later (s := { s with l2 := l2, modes := modes, perf := perf }) q h i (issueScope is)
      have puts := engInstr_puts (i := i) (d := d) lo hi ok room moves rel
      exact ⟨_, _, puts, rfl, rfl, rfl, rfl, rfl, rfl, rfl, rfl, rfl, rfl, members, rfl, issuedOp_st moves, rfl, rfl, rfl, rfl, rfl,
        fun few => tags rfl _ few, fun c => absurd c now, fun _ _ => ⟨rfl, rfl, rfl, rfl, e, rfl, ei, ex⟩⟩
  · intro n lo hi len ctr room fresh
    have ok : engChecks s s.me (blockArgs s.vlc efn n opt) = (s, .ok ⟨[], false⟩) := by
      unfold engChecks
      rw [if_neg (show ¬ (blockArgs s.vlc efn n opt).efn = 2 from copy)]
      simp [copyChecks, blockArgs, len, ctr, checkCounter]
    have room' : ¬ 32 ≤ (s.engines.filter fun o => o.die == coreDie s.vlc.core && o.eng == issueEngine s.vlc efn).length := by
      rw [issueEngine, if_neg copy]
      omega
    have kept := releaseAt_kept s s.vlc.core .dev
    have queued := engInstr_queues (i := i) (d := d) lo hi ok room'
    rw [releaseBoth_now now] at queued
    dsimp only at queued
    rw [signalNow_ends (op := issuedOp s (releaseAt s s.vlc.core (issueScope ⟨[], false⟩)) efn n opt ⟨[], false⟩ none) copy len rfl ctr] at queued
    rw [exec_engine form, queued]
    refine ⟨_, rfl, kept.vlc.sameRegisters, ?_, fun g found => ?_⟩
    · refine (filter_new_op (l := (releaseAt s s.vlc.core .dev).engines) fun o ho => ?_).trans kept.engines
      rw [kept.engines] at ho
      exact fun e => fresh o ho (e.trans kept.fresh)
    · exact State.progress_wdog found

end Sys2Proof.Machine


/-! ## Machine family: the bytes that a load of a core finds (R193, R221) -/

namespace Sys2Proof.Machine

/-! ### Bytes of a number -/

/-- Bit `i` of a number with a field replaced. -/
theorem testBit_setField (n lo len v i : Nat) :
    (setField n lo len v).testBit i = if lo ≤ i ∧ i < lo + len then v.testBit (i - lo) else n.testBit i := by
  have parts : n = 2 ^ lo * (2 ^ len * (n / 2 ^ (lo + len)) + n / 2 ^ lo % 2 ^ len) + n % 2 ^ lo := by
    rw [Nat.pow_add, ← Nat.div_div_eq_div_mul, Nat.div_add_mod, Nat.div_add_mod]
  have eq : setField n lo len v = 2 ^ lo * (2 ^ len * (n / 2 ^ (lo + len)) + v % 2 ^ len) + n % 2 ^ lo := by
    unfold setField field
    generalize v % 2 ^ len = w
    generalize hm : n / 2 ^ lo % 2 ^ len = m at parts ⊢
    generalize n / 2 ^ (lo + len) = h at parts ⊢
    generalize n % 2 ^ lo = l at parts ⊢
    rw [Nat.mul_add] at parts ⊢
    rw [Nat.mul_comm (2 ^ lo) m] at parts
    rw [Nat.mul_comm (2 ^ lo) w]
    omega
  have low : n % 2 ^ lo < 2 ^ lo := Nat.mod_lt _ (Nat.two_pow_pos lo)
  have new : v % 2 ^ len < 2 ^ len := Nat.mod_lt _ (Nat.two_pow_pos len)
  rw [eq, Nat.testBit_two_pow_mul_add _ low]
  by_cases below : i < lo
  · rw [if_pos below, if_neg (by omega), Nat.testBit_mod_two_pow]
    simp [below]
  · rw [if_neg below, Nat.testBit_two_pow_mul_add _ new]
    by_cases inside : i < lo + len
    · rw [if_pos (by omega), if_pos (by omega), Nat.testBit_mod_two_pow]
      simp [show i - lo < len by omega]
    · rw [if_neg (by omega), if_neg (by omega), Nat.testBit_div_two_pow]
      congr 1
      omega

/-- Setting bytes one by one: bit `i` is that of its byte where the byte is set, and as it was elsewhere. -/
theorem testBit_setBytes (p : Nat → Bool) (v : Nat → Nat) (ks : List Nat) (d i : Nat) :
    (ks.foldl (fun d k => if p k then setField d (8 * k) 8 (v k) else d) d).testBit i =
      if i / 8 ∈ ks ∧ p (i / 8) = true then (v (i / 8)).testBit (i % 8) else d.testBit i := by
  induction ks generalizing d with
  | nil => simp
  | cons k ks ih =>
    rw [List.foldl_cons, ih]
    by_cases later : i / 8 ∈ ks ∧ p (i / 8) = true
    · rw [if_pos later, if_pos ⟨List.mem_cons_of_mem _ later.1, later.2⟩]
    · rw [if_neg later]
      by_cases here : i / 8 = k
      · subst here
        by_cases set : p (i / 8) = true
        · rw [if_pos set, if_pos ⟨List.mem_cons_self, set⟩, testBit_setField, if_pos (by omega)]
          congr 1
          omega
        · rw [if_neg set, if_neg fun h => set h.2]
      · have other : ¬ (i / 8 ∈ k :: ks ∧ p (i / 8) = true) := fun h => later ⟨(List.mem_cons.mp h.1).resolve_left here, h.2⟩
        rw [if_neg other]
        split
        · rw [testBit_setField, if_neg (by omega)]
        · rfl

/-- Byte `k` of a line whose bytes have been set. -/
theorem extractByte_setBytes (p : Nat → Bool) (v : Nat → Byte) (d : BitVec 1024) {k : Nat} (hk : k < 128) :
    (BitVec.ofNat 1024 ((List.range 128).foldl (fun d k => if p k then setField d (8 * k) 8 (v k).toNat else d) d.toNat)).extractLsb' (8 * k) 8 =
      if p k then v k else d.extractLsb' (8 * k) 8 := by
  apply BitVec.eq_of_getLsbD_eq
  intro i hi
  have byte : (8 * k + i) / 8 = k := by omega
  have bit : (8 * k + i) % 8 = i := by omega
  rw [BitVec.getLsbD_extractLsb', BitVec.getLsbD_ofNat, testBit_setBytes p (fun k => (v k).toNat), byte, bit]
  simp only [hi, decide_true, Bool.true_and, show 8 * k + i < 1024 by omega, List.mem_range, hk, true_and]
  split
  · exact (BitVec.testBit_toNat _)
  · rw [BitVec.testBit_toNat, BitVec.getLsbD_extractLsb']
    simp [hi]

/-- `n` bytes as a little-endian number. -/
def bytesSum (f : Nat → Byte) : Nat → Nat
  | 0 => 0
  | n + 1 => bytesSum f n + (f n).toNat * 256 ^ n

theorem bytesSum_congr {f g : Nat → Byte} {n : Nat} (h : ∀ k, k < n → f k = g k) : bytesSum f n = bytesSum g n := by
  induction n with
  | zero => rfl
  | succ n ih => rw [bytesSum, bytesSum, ih fun k hk => h k (by omega), h n (by omega)]

theorem bytesSum_add (f : Nat → Byte) (m n : Nat) : bytesSum f (m + n) = bytesSum f m + 256 ^ m * bytesSum (fun k => f (m + k)) n := by
  induction n with
  | zero => simp [bytesSum]
  | succ n ih =>
    rw [← Nat.add_assoc, bytesSum, ih, bytesSum, Nat.mul_add, Nat.pow_add]
    ring

theorem bytesSum_lt (f : Nat → Byte) (n : Nat) : bytesSum f n < 256 ^ n := by
  induction n with
  | zero => simp [bytesSum]
  | succ n ih =>
    have := (f n).isLt
    have : (f n).toNat * 256 ^ n ≤ 255 * 256 ^ n := Nat.mul_le_mul_right _ (by omega)
    rw [bytesSum, Nat.pow_succ]
    omega

theorem seen_eq_bytesSum (s : State) (core : Nat) (d : Dest) (n : Nat) : seen s core d n = bytesSum (seenByte s core d) n := by
  induction n with
  | zero => rfl
  | succ n ih => rw [seen, ih, bytesSum]

theorem memRead_eq_bytesSum (m : List Host.Cell) (a n : Nat) : memRead m a n = bytesSum (fun k => memByte m (a + k)) n := by
  induction n generalizing a with
  | zero => rfl
  | succ n ih =>
    rw [memRead, ih, Nat.add_comm n 1, bytesSum_add]
    simp [bytesSum, Nat.add_assoc]

/-- A field of whole bytes of a line. -/
theorem field_eq_bytesSum (x : BitVec 1024) (o n : Nat) :
    field x.toNat (8 * o) (8 * n) = bytesSum (fun k => x.extractLsb' (8 * (o + k)) 8) n := by
  induction n with
  | zero => simp [field, bytesSum, Nat.mod_one]
  | succ n ih =>
    rw [bytesSum, ← ih]
    unfold field
    rw [BitVec.extractLsb'_toNat, Nat.shiftRight_eq_div_pow, Nat.mul_add, Nat.mul_add, Nat.pow_add, Nat.mul_one, Nat.mod_mul,
      show (256 : Nat) = 2 ^ 8 from rfl, ← Nat.pow_mul, Nat.pow_add, ← Nat.div_div_eq_div_mul]
    ring

/-! ### Moves between caches -/

/-- Only caches, what they have in transit and the counts of accesses change. -/
structure CachesMoved (s t : State) : Prop where
  rest : t = { s with
    cores := t.cores, l2 := t.l2, modes := t.modes, perf := t.perf, writeBacks := t.writeBacks, snoops := t.snoops, arrivals := t.arrivals }
  coresWf : Tab.wf CoreSt.reset s.cores = true → Tab.wf CoreSt.reset t.cores = true
  core : Tab.wf CoreSt.reset s.cores = true → ∀ c, t.core c = { s.core c with
    l1 := (t.core c).l1, l1miss := (t.core c).l1miss, sent := (t.core c).sent, round := (t.core c).round }

namespace CachesMoved

@[refl] theorem refl (s : State) : CachesMoved s s := ⟨rfl, id, fun _ _ => rfl⟩

theorem trans {s t u : State} (a : CachesMoved s t) (b : CachesMoved t u) : CachesMoved s u where
  rest := b.rest.trans (congrArg (fun x : State => { x with
    cores := u.cores, l2 := u.l2, modes := u.modes, perf := u.perf, writeBacks := u.writeBacks, snoops := u.snoops
    arrivals := u.arrivals }) a.rest)
  coresWf := fun w => b.coresWf (a.coresWf w)
  core := fun w c => (b.core (a.coresWf w) c).trans (congrArg (fun x : CoreSt => { x with
    l1 := (u.core c).l1, l1miss := (u.core c).l1miss, sent := (u.core c).sent, round := (u.core c).round }) (a.core w c))

theorem modCore {s : State} (c : Nat) {f : CoreSt → CoreSt}
    (h : ∀ k, f k = { k with l1 := (f k).l1, l1miss := (f k).l1miss, sent := (f k).sent, round := (f k).round } := by exact fun _ => rfl) :
    CachesMoved s (s.modCore c f) where
  rest := rfl
  coresWf := fun w => State.modCore_wf w c f
  core := fun w b => by
    rw [State.core_modCore w]
    split
    · subst b
      exact h _
    · rfl

theorem of_alike {s t : State} (h : L2Alike s t) : CachesMoved s t := by
  obtain ⟨a, b, c, rfl⟩ := h
  exact ⟨rfl, id, fun _ _ => rfl⟩

theorem mem {s t : State} (h : CachesMoved s t) : t.mem = s.mem := (congrArg State.mem h.rest : _)
theorem poison {s t : State} (h : CachesMoved s t) : t.poison = s.poison := (congrArg State.poison h.rest : _)
theorem vlc {s t : State} (h : CachesMoved s t) : t.vlc = s.vlc := (congrArg State.vlc h.rest : _)
theorem gangs {s t : State} (h : CachesMoved s t) : t.gangs = s.gangs := (congrArg State.gangs h.rest : _)
theorem fenced {s t : State} (h : CachesMoved s t) : t.fenced = s.fenced := (congrArg State.fenced h.rest : _)
theorem tlb {s t : State} (h : CachesMoved s t) : t.tlb = s.tlb := (congrArg State.tlb h.rest : _)
theorem queues {s t : State} (h : CachesMoved s t) : t.queues = s.queues := (congrArg State.queues h.rest : _)

theorem l1Core {s t : State} (h : CachesMoved s t) (c pa : Nat) : Machine.l1Core t c pa = Machine.l1Core s c pa := by
  have fused (d c : Nat) : isFused t d c = isFused s d c := by rw [isFused, State.isFenced, h.fenced, h.gangs]; rfl
  rw [Machine.l1Core, fused]
  rfl

end CachesMoved

theorem countSent_moved (s : State) (core pa : Nat) : CachesMoved s (countSent s core pa) := by
  unfold countSent
  dsimp only
  split
  · exact .modCore core
  · exact ((CachesMoved.modCore core).trans (t := s.modCore core fun c => { c with round := c.round + 1, sent := [] })
      (u := closeRound s core) ⟨rfl, id, fun _ _ => rfl⟩).trans (.modCore core)

theorem depart_moved (s : State) (core : Nat) (l : L1Line) : CachesMoved s (depart s core l) := by
  have sent : CachesMoved s (if l.uo then s else countSent s core (l.line * 128)) := by
    split
    · rfl
    · exact countSent_moved _ _ _
  unfold depart
  split
  · rfl
  · exact sent.trans ⟨rfl, id, fun _ _ => rfl⟩

theorem makeRoom_moved (s : State) (core line : Nat) : CachesMoved s (makeRoom s core line) := by
  unfold makeRoom
  dsimp only
  repeat' split
  · rfl
  · rfl
  · exact (depart_moved _ _ _).trans (.modCore core)

theorem putLine_moved (s : State) (core pa : Nat) (l : L1Line) : CachesMoved s (putLine s core pa l) := by
  unfold putLine
  dsimp only
  split
  · exact .modCore _
  · exact (makeRoom_moved _ _ _).trans (.modCore _)

theorem readReach_alike (s : State) (pa die q : Nat) (so : Bool) (cls : Rcl) : L2Alike s (readReach s pa die q so cls) :=
  ⟨_, _, _, readReach_eq s pa die q so cls⟩

/-- With no update in transit to the L1s of a core, none arrives there. -/
theorem snoopWhere_none {s : State} {f : Snoop → Bool} (h : ∀ x ∈ s.snoops, f x = false) : snoopWhere s f = s := by
  unfold snoopWhere
  exact if_neg (by simpa using h)

end Sys2Proof.Machine


/-! ## Machine family: a line as its core sees it (R193, R221, R257) -/

namespace Sys2Proof.Machine

/-- Byte `k` of a line. -/
def L1Line.byte (l : L1Line) (k : Nat) : Byte := l.data.extractLsb' (8 * k) 8

/-- The byte of an address as a core sees it: a valid byte of its L1, else the byte below it. -/
def lineByte (s : State) (core a : Nat) : Byte :=
  match findLine s core a with
  | some l => if l.valid.getLsbD (a % 128) then l.byte (a % 128) else belowL1 s core a
  | none => belowL1 s core a

theorem seenByte_device {pa kind : Nat} (dev : placeOf pa = .device) (k3 : kind ≠ 3) (s : State) (core k : Nat) :
    seenByte s core (.phys pa kind) k = lineByte s core (pa + k) := if_pos ⟨dev, k3⟩

theorem seenByte_home {pa kind : Nat} (h : ¬ (placeOf pa = .device ∧ kind ≠ 3)) (s : State) (core k : Nat) :
    seenByte s core (.phys pa kind) k = memByte s.mem (pa + k) := if_neg h

/-! ### The bytes of a core's write-backs in transit -/

/-- The bytes of a write-back show under those of a line that are not valid. -/
def showUnder (l : L1Line) (w : WriteBack) : L1Line :=
  let m := w.held.dirty &&& ~~~l.valid
  if m = 0 then l
  else { l with
    valid := l.valid ||| m
    data := BitVec.ofNat 1024 ((maskedBytes w.held m).foldl (fun (d : Nat) x => setField d (8 * x.1) 8 x.2.toNat) l.data.toNat) }

theorem ownLine_eq (s : State) (core pa : Nat) (l : L1Line) : ownLine s core pa l =
    (s.writeBacks.filter fun w => w.core == l1Core s core pa && w.held.line == pa / 128).reverse.foldl showUnder l := rfl

theorem showUnder_line (l : L1Line) (w : WriteBack) : (showUnder l w).line = l.line := by
  unfold showUnder
  dsimp only
  split <;> rfl

theorem showUnder_valid (l : L1Line) (w : WriteBack) {k : Nat} (hk : k < 128) :
    (showUnder l w).valid.getLsbD k = (l.valid.getLsbD k || w.held.dirty.getLsbD k) := by
  have bits : (l.valid ||| (w.held.dirty &&& ~~~l.valid)).getLsbD k = (l.valid.getLsbD k || w.held.dirty.getLsbD k) := by
    simp only [BitVec.getLsbD_or, BitVec.getLsbD_and, BitVec.getLsbD_not, hk, decide_true, Bool.true_and]
    cases l.valid.getLsbD k <;> simp
  unfold showUnder
  dsimp only
  split
  next none_ => rw [none_] at bits; rw [← bits]; simp
  · exact bits

theorem showUnder_byte (l : L1Line) (w : WriteBack) {k : Nat} (hk : k < 128) :
    (showUnder l w).byte k = if l.valid.getLsbD k = false ∧ w.held.dirty.getLsbD k = true then w.held.byte k else l.byte k := by
  have bit : (w.held.dirty &&& ~~~l.valid).getLsbD k = true ↔ l.valid.getLsbD k = false ∧ w.held.dirty.getLsbD k = true := by
    simp only [BitVec.getLsbD_and, BitVec.getLsbD_not, hk, decide_true, Bool.true_and, Bool.and_eq_true, Bool.not_eq_true']
    exact and_comm
  have set := extractByte_setBytes (fun k => (w.held.dirty &&& ~~~l.valid).getLsbD k) w.held.byte l.data hk
  have fold : (maskedBytes w.held (w.held.dirty &&& ~~~l.valid)).foldl (fun (d : Nat) x => setField d (8 * x.1) 8 x.2.toNat) l.data.toNat =
      (List.range 128).foldl (fun d k => if (w.held.dirty &&& ~~~l.valid).getLsbD k then setField d (8 * k) 8 (w.held.byte k).toNat else d)
        l.data.toNat := by
    rw [maskedBytes, List.foldl_filterMap]
    congr 1
    funext d j
    by_cases set : (w.held.dirty &&& ~~~l.valid).getLsbD j = true
    · rw [if_pos set, if_pos set]
      rfl
    · rw [if_neg set, if_neg set]
  rw [← fold] at set
  unfold showUnder
  dsimp only
  split
  next none_ => rw [if_neg fun h => by have := bit.mpr h; rw [none_] at this; simp at this]
  next =>
    rw [L1Line.byte]
    dsimp only
    rw [set]
    by_cases h : (w.held.dirty &&& ~~~l.valid).getLsbD k = true
    · rw [if_pos h, if_pos (bit.mp h)]
    · rw [if_neg h, if_neg fun e => h (bit.mpr e)]
      rfl

/-- A line with write-backs under it, the newest first: its own valid bytes, and the newest of the others. -/
theorem showUnder_foldl (ws : List WriteBack) (l : L1Line) {k : Nat} (hk : k < 128) :
    (ws.foldl showUnder l).line = l.line ∧
    (ws.foldl showUnder l).valid.getLsbD k = (l.valid.getLsbD k || (ws.find? fun w => w.held.dirty.getLsbD k).isSome) ∧
    (ws.foldl showUnder l).byte k = if l.valid.getLsbD k then l.byte k else
      ((ws.find? fun w => w.held.dirty.getLsbD k).map fun w => w.held.byte k).getD (l.byte k) := by
  induction ws generalizing l with
  | nil => simp
  | cons w ws ih =>
    obtain ⟨line, valid, byte⟩ := ih (showUnder l w)
    rw [List.foldl_cons, line, valid, byte, showUnder_line, showUnder_valid l w hk, showUnder_byte l w hk, List.find?_cons]
    refine ⟨rfl, ?_, ?_⟩
    · cases l.valid.getLsbD k <;> cases w.held.dirty.getLsbD k <;> simp
    · cases l.valid.getLsbD k <;> cases w.held.dirty.getLsbD k <;> simp

theorem inTransit_eq (s : State) (core a : Nat) : inTransit s core a =
    ((s.writeBacks.filter fun w => w.core == l1Core s core a && w.held.line == a / 128).reverse.find? fun w =>
      w.held.dirty.getLsbD (a % 128)).map fun w => w.held.byte (a % 128) := by
  unfold inTransit
  rw [← List.getLast?_filter, List.filter_filter]
  congr 3
  funext w
  simp only [Bool.and_comm, Bool.and_left_comm]

/-- The L1 that holds a line is the same for every byte of the line. -/
theorem l1Core_line {a b : Nat} (h : a / 128 = b / 128) (s : State) (core : Nat) : l1Core s core a = l1Core s core b := by
  rw [l1Core, l1Core, h]

theorem findLine_line {a b : Nat} (h : a / 128 = b / 128) (s : State) (core : Nat) : findLine s core a = findLine s core b := by
  rw [findLine, findLine, l1Core_line h, h]

/-- The line that a core fills: its own valid bytes and those in transit are valid, and show what the core sees. -/
theorem ownLine_sees (s : State) {core pa a : Nat} (h : a / 128 = pa / 128) (q : Nat) (uo so : Bool) (cls : Rcl) :
    let l := ownLine s core pa ((findLine s core pa).getD (blankLine (pa / 128) q uo so cls))
    l.line = pa / 128 ∧ lineByte s core a = if l.valid.getLsbD (a % 128) then l.byte (a % 128) else memByte s.mem a := by
  have hk : a % 128 < 128 := Nat.mod_lt _ (by omega)
  dsimp only
  rw [ownLine_eq]
  have transit := inTransit_eq s core a
  rw [l1Core_line h, h] at transit
  generalize (s.writeBacks.filter fun w => w.core == l1Core s core pa && w.held.line == pa / 128).reverse = ws at transit ⊢
  rw [lineByte, findLine_line h, belowL1, transit]
  cases found : findLine s core pa with
  | none =>
    obtain ⟨line, valid, byte⟩ := showUnder_foldl ws (blankLine (pa / 128) q uo so cls) hk
    rw [Option.getD_none, line, valid, byte]
    refine ⟨rfl, ?_⟩
    cases ws.find? fun w => w.held.dirty.getLsbD (a % 128) <;> simp [blankLine]
  | some l =>
    obtain ⟨line, valid, byte⟩ := showUnder_foldl ws l hk
    rw [Option.getD_some, line, valid, byte]
    refine ⟨by simpa using List.find?_some found, ?_⟩
    dsimp only
    cases ws.find? fun w => w.held.dirty.getLsbD (a % 128) <;> cases l.valid.getLsbD (a % 128) <;> simp

/-! ### Holding a line -/

theorem makeRoom_l1_sub {s : State} (wf : Tab.wf CoreSt.reset s.cores = true) (c line : Nat) :
    ∀ x ∈ ((makeRoom s c line).core c).l1, x ∈ (s.core c).l1 := by
  unfold makeRoom
  dsimp only
  split
  · exact fun x hx => hx
  · split
    · exact fun x hx => hx
    · intro x hx
      rw [State.core_modCore ((depart_kept _ _ _).coresWf wf), if_pos rfl] at hx
      have := List.mem_of_mem_filter hx
      rwa [depart_l1 s c _ wf] at this

/-- The L1 that serves a core holds a line that it has been given. -/
theorem findLine_putLine {s : State} (wf : Tab.wf CoreSt.reset s.cores = true) {core pa a : Nat} (h : a / 128 = pa / 128) {l : L1Line}
    (line : l.line = pa / 128) : findLine (putLine s core pa l) core a = some l := by
  rw [findLine_line h, findLine, (putLine_kept s core pa l).l1Core]
  unfold putLine
  dsimp only
  split
  next held =>
    rw [State.core_modCore wf, if_pos rfl, List.find?_map]
    have same : ((fun x : L1Line => x.line == pa / 128) ∘ fun x => if x.line = pa / 128 then l else x) = fun x => x.line == pa / 128 := by
      funext x
      simp only [Function.comp_apply]
      split
      · simp [*]
      · rfl
    rw [same]
    obtain ⟨x, hx⟩ := Option.isSome_iff_exists.mp (List.find?_isSome.mpr (List.any_eq_true.mp held))
    rw [hx]
    have : x.line = pa / 128 := by simpa using List.find?_some hx
    simp [this]
  next fresh =>
    rw [State.core_modCore ((makeRoom_kept _ _ _).coresWf wf), if_pos rfl, List.find?_append]
    have none_ : (((makeRoom s (l1Core s core pa) (pa / 128)).core (l1Core s core pa)).l1.find? fun x => x.line == pa / 128) = none :=
      List.find?_eq_none.mpr fun x hx e => fresh (List.any_eq_true.mpr ⟨x, makeRoom_l1_sub wf _ _ x hx, e⟩)
    rw [none_]
    simp [line]

/-- With no poisoned sector every byte of a line may be filled. -/
theorem cleanBytes_all {s : State} (h : s.poison = []) (line : Nat) : cleanBytes s line = BitVec.allOnes 128 := by
  unfold cleanBytes
  simp only [h, List.contains_nil, Bool.false_eq_true, if_false]
  decide

theorem l1Core_mem (s : State) (core pa : Nat) : l1Core s core pa ∈ l1Cores s core := by
  unfold l1Core l1Cores
  split
  · exact List.mem_map.mpr ⟨pa / 128 % 8, List.mem_range.mpr (Nat.mod_lt _ (by omega)), rfl⟩
  · exact List.mem_singleton_self _

/-- What a core sees of an address comes from its L1, its write-backs and memory. -/
theorem lineByte_congr {s t : State} {core a : Nat} (line : findLine t core a = findLine s core a) (wb : t.writeBacks = s.writeBacks)
    (mem : t.mem = s.mem) (l1 : l1Core t core a = l1Core s core a) : lineByte t core a = lineByte s core a := by
  have below : belowL1 t core a = belowL1 s core a := by simp only [belowL1, inTransit, wb, mem, l1]
  rw [lineByte, lineByte, line, below]

/-- The line of an address, with every byte valid that can be filled. -/
def filledLine (s : State) (core pa q : Nat) (uo so : Bool) (cls : Rcl) : L1Line :=
  let l := ownLine s core pa ((findLine s core pa).getD (blankLine (pa / 128) q uo so cls))
  let m := cleanBytes s (pa / 128) &&& ~~~l.valid
  { l with
    valid := l.valid ||| m
    data := BitVec.ofNat 1024 ((List.range 128).foldl (fun (d : Nat) k =>
      if m.getLsbD k then setField d (8 * k) 8 (memByte s.mem (pa / 128 * 128 + k)).toNat else d) l.data.toNat) }

/-- A filled line holds every byte that the core sees. -/
theorem filledLine_sees {s : State} (clean : s.poison = []) {core pa a : Nat} (h : a / 128 = pa / 128) (q : Nat) (uo so : Bool) (cls : Rcl) :
    (filledLine s core pa q uo so cls).line = pa / 128 ∧ (filledLine s core pa q uo so cls).valid.getLsbD (a % 128) = true ∧
    (filledLine s core pa q uo so cls).byte (a % 128) = lineByte s core a := by
  have hk : a % 128 < 128 := Nat.mod_lt _ (by omega)
  have place : pa / 128 * 128 + a % 128 = a := by omega
  obtain ⟨line, sees⟩ := ownLine_sees s (core := core) h q uo so cls
  unfold filledLine
  generalize ownLine s core pa ((findLine s core pa).getD (blankLine (pa / 128) q uo so cls)) = l at line sees ⊢
  have set := extractByte_setBytes (fun k => (cleanBytes s (pa / 128) &&& ~~~l.valid).getLsbD k) (fun k => memByte s.mem (pa / 128 * 128 + k))
    l.data hk
  have bit : (cleanBytes s (pa / 128) &&& ~~~l.valid).getLsbD (a % 128) = !l.valid.getLsbD (a % 128) := by
    rw [cleanBytes_all clean, BitVec.getLsbD_and, BitVec.getLsbD_allOnes, BitVec.getLsbD_not]
    simp [hk]
  rw [place, bit] at set
  refine ⟨line, ?_, ?_⟩
  · rw [BitVec.getLsbD_or, bit]
    cases l.valid.getLsbD (a % 128) <;> rfl
  · rw [sees, L1Line.byte]
    dsimp only
    rw [set]
    cases l.valid.getLsbD (a % 128) <;> rfl

theorem fillLine_eq {s : State} {core : Nat} (none_ : NoSnoops s core) (pa q : Nat) (uo so : Bool) (cls : Rcl) :
    let r := (readReach s pa (coreDie core) q so cls).modCore core fun k => { k with l1miss := k.l1miss + 1 }
    fillLine s core pa q uo so cls = putLine r core pa (filledLine r core pa q uo so cls) := by
  have quiet : (if so then snoopAt s core else snoopWhere s fun x => x.core == l1Core s core pa && x.pa / 128 == pa / 128) = s := by
    split
    · exact snoopWhere_none fun x hx => by simpa using none_ x hx
    · refine snoopWhere_none fun x hx => ?_
      have : x.core ≠ l1Core s core pa := fun e => none_ x hx (e ▸ l1Core_mem s core pa)
      simp [this]
  unfold fillLine
  dsimp only
  rw [quiet]
  rfl

theorem makeRoom_snoops (s : State) (c line : Nat) : (makeRoom s c line).snoops = s.snoops := by
  have sent (u : State) (l : L1Line) : (depart u c l).snoops = u.snoops := by
    unfold depart countSent
    dsimp only
    repeat' split
    all_goals rfl
  unfold makeRoom
  dsimp only
  repeat' split
  · rfl
  · rfl
  · exact sent s _

theorem putLine_snoops (s : State) (core pa : Nat) (l : L1Line) : (putLine s core pa l).snoops = s.snoops := by
  unfold putLine
  dsimp only
  split
  · rfl
  · exact makeRoom_snoops _ _ _

/-- The line that a core fetches holds every byte that the core sees (R193). -/
theorem fillLine_sees {s : State} (wf : Tab.wf CoreSt.reset s.cores = true) {core : Nat} (none_ : NoSnoops s core) (clean : s.poison = [])
    (pa q : Nat) (uo so : Bool) (cls : Rcl) :
    CachesMoved s (fillLine s core pa q uo so cls) ∧ (fillLine s core pa q uo so cls).snoops = s.snoops ∧
    ∃ l, ∀ a, a / 128 = pa / 128 → findLine (fillLine s core pa q uo so cls) core a = some l ∧ l.valid.getLsbD (a % 128) = true ∧
      l.byte (a % 128) = lineByte s core a := by
  have alike := readReach_alike s pa (coreDie core) q so cls
  have eq := fillLine_eq none_ pa q uo so cls
  dsimp only at eq
  have reached : CachesMoved s ((readReach s pa (coreDie core) q so cls).modCore core fun k => { k with l1miss := k.l1miss + 1 }) :=
    (CachesMoved.of_alike alike).trans (.modCore _)
  have l1 : L1Same s ((readReach s pa (coreDie core) q so cls).modCore core fun k => { k with l1miss := k.l1miss + 1 }) :=
    (L1Same.of_cores alike.cores).trans (readReach_kept _ _ _ _ _ _) (.modCore _ _)
  have wb : ((readReach s pa (coreDie core) q so cls).modCore core fun k => { k with l1miss := k.l1miss + 1 }).writeBacks =
      s.writeBacks := by obtain ⟨a, b, c, e⟩ := alike; rw [e]; rfl
  have sn : ((readReach s pa (coreDie core) q so cls).modCore core fun k => { k with l1miss := k.l1miss + 1 }).snoops =
      s.snoops := by obtain ⟨a, b, c, e⟩ := alike; rw [e]; rfl
  rw [eq]
  generalize (readReach s pa (coreDie core) q so cls).modCore core (fun k => { k with l1miss := k.l1miss + 1 }) = r at *
  have sees {a : Nat} (h : a / 128 = pa / 128) := filledLine_sees (s := r) (reached.poison.trans clean) (core := core) h q uo so cls
  have same (a : Nat) : lineByte r core a = lineByte s core a := by
    refine lineByte_congr ?_ wb reached.mem (reached.l1Core core a)
    rw [findLine, findLine, reached.l1Core, l1 wf]
  refine ⟨reached.trans (putLine_moved _ _ _ _), (putLine_snoops _ _ _ _).trans sn, filledLine r core pa q uo so cls, fun a h => ?_⟩
  obtain ⟨line, valid, byte⟩ := sees h
  exact ⟨findLine_putLine (reached.coresWf wf) h line, valid, byte.trans (same a)⟩

theorem lineMask_bit {o n k : Nat} (hk : k < n) (fits : o + k < 128) : (lineMask o n).getLsbD (o + k) = true := by
  rw [lineMask, BitVec.getLsbD_ofNat, Nat.testBit_mul_two_pow, Nat.add_sub_cancel_left, Nat.testBit_two_pow_sub_one]
  simp [fits, hk]

/-- A load through the L1 finds the bytes that the core sees, and leaves what it sees of the line (R193, R221). -/
theorem l1Load_sees {s : State} (wf : Tab.wf CoreSt.reset s.cores = true) {core : Nat} (none_ : NoSnoops s core) (clean : s.poison = [])
    (pa n q : Nat) (uo so : Bool) (cls : Rcl) (fits : pa % 128 + n ≤ 128) :
    CachesMoved s (l1Load s core pa n q uo so cls).1 ∧ (l1Load s core pa n q uo so cls).1.snoops = s.snoops ∧
    (l1Load s core pa n q uo so cls).2 = bytesSum (fun k => lineByte s core (pa + k)) n ∧
    ∀ a, a / 128 = pa / 128 → lineByte (l1Load s core pa n q uo so cls).1 core a = lineByte s core a := by
  have place (k : Nat) (hk : k < n) : (pa + k) / 128 = pa / 128 ∧ (pa + k) % 128 = pa % 128 + k := by omega
  unfold l1Load
  by_cases hit : l1Hit s core pa n = true
  · rw [if_pos hit]
    unfold l1Hit at hit
    cases found : findLine s core pa with
    | none => rw [found] at hit; exact absurd hit (by simp)
    | some l =>
      rw [found] at hit
      dsimp only at hit ⊢
      rw [found]
      refine ⟨.refl s, rfl, ?_, fun _ _ => rfl⟩
      dsimp only
      rw [field_eq_bytesSum]
      refine bytesSum_congr fun k hk => ?_
      obtain ⟨line, off⟩ := place k hk
      have valid : l.valid.getLsbD (pa % 128 + k) = true := by
        have mask := congrArg (fun m : BitVec 128 => m.getLsbD (pa % 128 + k)) (beq_iff_eq.mp hit)
        rw [BitVec.getLsbD_and, lineMask_bit hk (by omega)] at mask
        simpa using mask
      rw [lineByte, findLine_line line, found, off]
      dsimp only
      rw [if_pos valid]
      rfl
  · rw [if_neg hit]
    obtain ⟨moved, snoops, l, sees⟩ := fillLine_sees wf none_ clean pa q uo so cls
    obtain ⟨found, -, -⟩ := sees pa rfl
    dsimp only
    rw [found]
    refine ⟨moved, snoops, ?_, fun a h => ?_⟩
    · dsimp only
      rw [field_eq_bytesSum]
      refine bytesSum_congr fun k hk => ?_
      obtain ⟨line, off⟩ := place k hk
      obtain ⟨-, -, byte⟩ := sees (pa + k) line
      rw [← byte, off]
      rfl
    · obtain ⟨found, valid, byte⟩ := sees a h
      rw [lineByte, found]
      dsimp only
      rw [if_pos valid, byte]

end Sys2Proof.Machine


/-! ## Machine family: a record that a core reads (R223, R318) -/

namespace Sys2Proof.Machine

/-- The dwords of a record, while a core reads them: only caches move, and what the core sees of the record stays. -/
structure ReadMoved (s t : State) (core : Nat) (p : Dest) : Prop where
  moved : CachesMoved s t
  snoops : t.snoops = s.snoops
  sees : ∀ k, k < 64 → seenByte t core p k = seenByte s core p k

theorem ReadMoved.refl (s : State) (core : Nat) (p : Dest) : ReadMoved s s core p := ⟨.refl s, rfl, fun _ _ => rfl⟩

theorem ReadMoved.trans {s t u : State} {core : Nat} {p : Dest} (a : ReadMoved s t core p) (b : ReadMoved t u core p) :
    ReadMoved s u core p :=
  ⟨a.moved.trans b.moved, b.snoops.trans a.snoops, fun k hk => (b.sees k hk).trans (a.sees k hk)⟩

/-- The place of an address does not change within 64 bytes. -/
theorem placeOf_add {pa k : Nat} (al : pa % 64 = 0) (hk : k < 64) : placeOf (pa + k) = placeOf pa := by
  have dev : pa + k < deviceEnd ↔ pa < deviceEnd := by unfold deviceEnd; omega
  have host : (2 ^ 51 ≤ pa + k ∧ pa + k < 0xC000000000000) ↔ (2 ^ 51 ≤ pa ∧ pa < 0xC000000000000) := by omega
  have peer : (pa + k) / 2 ^ 48 = pa / 2 ^ 48 := by omega
  have port : (pa + k) / 2 ^ 44 = pa / 2 ^ 44 := by omega
  simp only [placeOf, dev, host, peer, port]

/-- A dword of an aligned record: its value, and what the read leaves. -/
theorem loadAt_sees {s : State} (wf : Tab.wf CoreSt.reset s.cores = true) {p : Party} (none_ : NoSnoops s p.core) (clean : s.poison = [])
    {d : Dest} (al : d.pa % 64 = 0) {j : Nat} (hj : j < 8) :
    ReadMoved s (loadAt s p (plusDest d (8 * j)) 8 .plain).1 p.core d ∧
    (loadAt s p (plusDest d (8 * j)) 8 .plain).2 = bytesSum (fun k => seenByte s p.core d (8 * j + k)) 8 := by
  cases d with
  | ls c off =>
    refine ⟨.refl _ _ _, ?_⟩
    show memRead s.mem (lsAddr c (off + 8 * j)) 8 = _
    rw [memRead_eq_bytesSum]
    refine bytesSum_congr fun k _ => ?_
    show memByte s.mem _ = memByte s.mem _
    congr 1
    unfold lsAddr
    omega
  | phys pa kind =>
    have al' : pa % 64 = 0 := al
    have place := placeOf_add al' (show 8 * j < 64 by omega)
    by_cases line : placeOf pa = .device ∧ kind ≠ 3
    · obtain ⟨dev, k3⟩ := line
      have load : loadAt s p (plusDest (.phys pa kind) (8 * j)) 8 .plain = l1Load s p.core (pa + 8 * j) 8 p.queue (kind == 2) (kind == 0) .normal := by
        show (if placeOf (pa + 8 * j) ≠ .device ∨ kind = 3 then _ else _) = _
        exact if_neg (by simp [place, dev, k3])
      obtain ⟨moved, snoops, value, sees⟩ := l1Load_sees wf none_ clean (pa + 8 * j) 8 p.queue (kind == 2) (kind == 0) .normal (by omega)
      rw [load]
      refine ⟨⟨moved, snoops, fun k hk => ?_⟩, value.trans (bytesSum_congr fun k hk => ?_)⟩
      · rw [seenByte_device dev k3, seenByte_device dev k3]
        exact sees _ (by omega)
      · rw [seenByte_device dev k3, Nat.add_assoc]
    · have load : loadAt s p (plusDest (.phys pa kind) (8 * j)) 8 .plain =
          (reachHome s (pa + 8 * j) p.die p.queue false true true .normal,
            memRead (reachHome s (pa + 8 * j) p.die p.queue false true true .normal).mem (pa + 8 * j) 8) := by
        show (if placeOf (pa + 8 * j) ≠ .device ∨ kind = 3 then _ else _) = _
        refine if_pos ?_
        rw [place]
        by_cases dev : placeOf pa = .device
        · exact .inr (by_contra fun k3 => line ⟨dev, k3⟩)
        · exact .inl dev
      have alike := reachHome_alike s (pa + 8 * j) p.die p.queue false true true .normal
      rw [load]
      refine ⟨⟨.of_alike alike, ?_, fun k _ => ?_⟩, ?_⟩
      · obtain ⟨a, b, c, e⟩ := alike; dsimp only; rw [e]
      · rw [seenByte_home line, seenByte_home line, alike.mem]
      · dsimp only
        rw [alike.mem, memRead_eq_bytesSum]
        exact bytesSum_congr fun k _ => by rw [seenByte_home line, Nat.add_assoc]

/-- A load that is accepted stays accepted while only caches move. -/
theorem access_load_congr {s t : State} (wf : Tab.wf CoreSt.reset s.cores = true) (clean : s.poison = []) {p : Party} {va : Word} {n : Nat}
    {d : Dest} (h : access s p .load va n .read = (s, .ok d)) (m : CachesMoved s t) : accessIn .plain t p .load va n .read = (t, .ok d) := by
  obtain ⟨al, tr, pl, bus, po⟩ := accessIn_ok h
  refine accessIn_accepts al (translate_congr tr m.tlb m.queues (by rw [m.core wf])) pl (fun pa kind e => ?_) fun _ => ?_
  · rw [← bus pa kind e]
    unfold busRule seamFenced State.isFenced
    rw [m.fenced]
  · cases d with
    | ls c off =>
      rw [← po rfl, poisonRule, poisonRule, m.core wf]
    | phys pa kind =>
      have none_ : poisonedAt t pa n = false := by simp [poisonedAt, m.poison, clean]
      simp [poisonRule, none_]

theorem NoSnoops.moved {s t : State} {core : Nat} (h : NoSnoops s core) (m : CachesMoved s t) (sn : t.snoops = s.snoops) : NoSnoops t core := by
  have cores : l1Cores t core = l1Cores s core := by
    have fused (d c : Nat) : isFused t d c = isFused s d c := by rw [isFused, State.isFenced, m.fenced, m.gangs]; rfl
    rw [l1Cores, fused]
    rfl
  intro x hx
  rw [cores]
  exact h x (sn ▸ hx)

theorem dwordsNat_cons (w : Nat) (ws : List Word) (h : w < 2 ^ 64) : dwordsNat (BitVec.ofNat 64 w :: ws) = w + 2 ^ 64 * dwordsNat ws := by
  rw [dwordsNat, BitVec.toNat_ofNat, Nat.mod_eq_of_lt h]

/-- The dwords of an aligned record that a core reads are the bytes that it sees (R223). -/
theorem readDwords_sees {s : State} {va : Word} {p : Dest} (on : RunsOn s .load .read va 8 8 p) (wf : Tab.wf CoreSt.reset s.cores = true)
    (none_ : NoSnoops s s.vlc.core) (clean : s.poison = []) (al : p.pa % 64 = 0) (k j : Nat) (hk : j + k = 8) {u : State}
    (m : ReadMoved s u s.vlc.core p) : ∃ t ws, readDwords u s.me .load (va + BitVec.ofNat 64 (8 * j)) k = (t, .ok ws) ∧
      ReadMoved s t s.vlc.core p ∧ dwordsNat ws = bytesSum (fun i => seenByte s s.vlc.core p (8 * j + i)) (8 * k) := by
  induction k generalizing j u with
  | zero => exact ⟨u, [], rfl, m, rfl⟩
  | succ k ih =>
    have checked := access_load_congr wf clean (on j (by omega)).1 m.moved
    obtain ⟨read, value⟩ := loadAt_sees (s := u) (p := s.me) (d := p) (m.moved.coresWf wf) (none_.moved m.moved m.snoops) (m.moved.poison.trans clean)
      al (show j < 8 by omega)
    obtain ⟨t, ws, rest, moved, sum⟩ := ih (j + 1) (by omega) (m.trans read)
    have next : va + BitVec.ofNat 64 (8 * j) + 8 = va + BitVec.ofNat 64 (8 * (j + 1)) := by
      rw [BitVec.add_assoc, Nat.mul_add, BitVec.ofNat_add]
      rfl
    refine ⟨t, BitVec.ofNat 64 (bytesSum (fun i => seenByte u s.vlc.core p (8 * j + i)) 8) :: ws, ?_, moved, ?_⟩
    · rw [readDwords, readMem, checked]
      dsimp only
      rw [next, rest, value]
      rfl
    · have same : bytesSum (fun i => seenByte u s.vlc.core p (8 * j + i)) 8 = bytesSum (fun i => seenByte s s.vlc.core p (8 * j + i)) 8 :=
        bytesSum_congr fun i _ => m.sees _ (by omega)
      rw [dwordsNat_cons _ _ (bytesSum_lt _ 8), sum, same, show 8 * (k + 1) = 8 + 8 * k by omega, bytesSum_add]
      congr 2
      exact bytesSum_congr fun i _ => by congr 1; omega

/-- A record that a core reads. -/
theorem readRecord_sees {s : State} {va : Word} {p : Dest} (on : RunsOn s .load .read va 8 8 p) (wf : Tab.wf CoreSt.reset s.cores = true)
    (none_ : NoSnoops s s.vlc.core) (clean : s.poison = []) (al : p.pa % 64 = 0) : ∃ t ws, readDwords s s.me .load va 8 = (t, .ok ws) ∧
      CachesMoved s t ∧ record512 ws = BitVec.ofNat 512 (seen s s.vlc.core p 64) := by
  obtain ⟨t, ws, read, moved, sum⟩ := readDwords_sees on wf none_ clean al 8 0 rfl (.refl s _ p)
  refine ⟨t, ws, by simpa using read, moved.moved, ?_⟩
  rw [record512, sum, seen_eq_bytesSum]
  simp

end Sys2Proof.Machine


/-! ## Machine family: nodes that are posted, become ready and take slots (R27, R322 to R324) -/

namespace Sys2Proof.Machine

/-! ### Nodes that change under their identifiers -/

theorem State.findNode_id {s : State} {k : Nat} {n : Node} (h : s.findNode k = some n) : n.id = k := by simpa using List.find?_some h

/-- Where every node changes under its identifier, the node of an identifier changes. -/
theorem State.findNode_map {s t : State} {f : Node → Node} (h : t.nodes = s.nodes.map f) (keep : ∀ n ∈ s.nodes, (f n).id = n.id) (k : Nat) :
    t.findNode k = (s.findNode k).map f := by
  rw [State.findNode, State.findNode, h]
  generalize s.nodes = ns at keep
  induction ns with
  | nil => rfl
  | cons n ns ih =>
    simp only [List.map_cons, List.find?_cons, keep n (List.mem_cons_self ..)]
    split
    · rfl
    · exact ih fun m hm => keep m (List.mem_cons_of_mem _ hm)

/-- Every node is the one of its identifier. -/
def NodeIds (s : State) : Prop := ∀ n ∈ s.nodes, s.findNode n.id = some n

theorem NodeIds.map {s t : State} {f : Node → Node} (ids : NodeIds s) (h : t.nodes = s.nodes.map f) (keep : ∀ n ∈ s.nodes, (f n).id = n.id) :
    NodeIds t := by
  intro m hm
  rw [h] at hm
  obtain ⟨n, hn, rfl⟩ := List.mem_map.mp hm
  rw [State.findNode_map h keep, keep n hn, ids n hn]
  rfl

theorem NodeIds.eq {s : State} (ids : NodeIds s) {m n : Node} (hm : m ∈ s.nodes) (hn : n ∈ s.nodes) (h : m.id = n.id) : m = n := by
  have a := ids m hm
  rw [h, ids n hn] at a
  exact (Option.some.inj a).symm

/-! ### Posts (R384) -/

/-- The state when nodes have been posted to the host. -/
structure Posted (s t : State) : Prop where
  rest : t = { s with mem := t.mem, landau := t.landau, nodes := t.nodes, msix := t.msix }
  nodes : ∃ f : Node → Node, (∀ n, f n = { n with posted := (f n).posted }) ∧ t.nodes = s.nodes.map f

namespace Posted

@[refl] theorem refl (s : State) : Posted s s := ⟨rfl, id, fun _ => rfl, (List.map_id _).symm⟩

theorem trans {s t u : State} (a : Posted s t) (b : Posted t u) : Posted s u where
  rest := Eq.trans b.rest (congrArg (fun x : State => { x with mem := u.mem, landau := u.landau, nodes := u.nodes, msix := u.msix }) a.rest)
  nodes := by
    obtain ⟨f, hf, mf⟩ := a.nodes
    obtain ⟨g, hg, mg⟩ := b.nodes
    refine ⟨g ∘ f, fun n => ?_, by rw [mg, mf, List.map_map]⟩
    exact (hg (f n)).trans (congrArg (fun x : Node => { x with posted := (g (f n)).posted }) (hf n))

end Posted

theorem postOne_posted (s : State) (n : Node) (slot : Nat) : Posted s (postOne s n slot) where
  rest := by
    unfold postOne
    dsimp only
    generalize memWrite _ _ _ _ = m
    rfl
  nodes := by
    refine ⟨fun x => if x.id = n.id then { x with posted := true } else x, fun x => ?_, ?_⟩
    · dsimp only
      split <;> rfl
    · unfold postOne
      dsimp only
      generalize memWrite _ _ _ _ = m
      rfl

theorem postHeld_posted (d k : Nat) (s : State) : Posted s (postHeld d k s) := by
  induction k generalizing s with
  | zero => rfl
  | succ k ih =>
    unfold postHeld
    dsimp only
    repeat' split
    · rfl
    · exact (postOne_posted _ _ _).trans (ih _)
    · rfl

theorem postAll_posted (s : State) (d : Nat) : Posted s (postAll s d) := postHeld_posted d _ s

/-! ### Becoming ready (R27, R323) -/

/-- The node as it stands when it becomes ready. -/
def readied (s : State) (n x : Node) : Node := { x with
  st := .ready
  level := (s.queue n.queue).pri
  since := (s.die n.die).cycles
  order := 2 ^ 64 + s.fresh
  noPlace := none
  claim := none
  assisted := s.schedAssisted
  posted := false }

theorem makeReady_eq (s : State) (n : Node) : makeReady s n =
    if s.schedAssisted then postAll ({ s with fresh := s.fresh + 1 }.modNode n.id (readied s n)) n.die
    else { s with fresh := s.fresh + 1 }.modNode n.id (readied s n) := rfl

/-- A node becomes ready, and where the host assists it is posted. -/
theorem makeReady_posted (s : State) (n : Node) : Posted ({ s with fresh := s.fresh + 1 }.modNode n.id (readied s n)) (makeReady s n) := by
  rw [makeReady_eq]
  split
  · exact postAll_posted _ _
  · rfl

/-- A node that waits, with nothing left to wait for. -/
def isFree (s : State) (n : Node) : Prop := n.st = .waiting ∧ n.deps = 0 ∧ heldByOrder s n = false

theorem readyIfFree_free {s : State} {id : Nat} {n : Node} (h : s.findNode id = some n) (free : isFree s n) : readyIfFree s id = makeReady s n := by
  obtain ⟨st, deps, held⟩ := free
  rw [readyIfFree, h]
  exact if_pos ⟨st, deps, by simp [held]⟩

theorem readyIfFree_held {s : State} {id : Nat} {n : Node} (h : s.findNode id = some n) (held : ¬ isFree s n) : readyIfFree s id = s := by
  rw [readyIfFree, h]
  exact if_neg fun f => held ⟨f.1, f.2.1, by simpa using f.2.2⟩

theorem readyIfFree_none {s : State} {id : Nat} (h : s.findNode id = none) : readyIfFree s id = s := by rw [readyIfFree, h]

/-- What becoming ready leaves of the device, and of a node. -/
structure ReadyKept (s t : State) : Prop where
  rest : t = { s with mem := t.mem, landau := t.landau, nodes := t.nodes, msix := t.msix, fresh := t.fresh }
  nodes : ∃ f : Node → Node, t.nodes = s.nodes.map f ∧ ∀ n, f n = { n with
    st := (f n).st, level := (f n).level, since := (f n).since, order := (f n).order, noPlace := (f n).noPlace, claim := (f n).claim
    assisted := (f n).assisted, posted := (f n).posted }

theorem ReadyKept.refl (s : State) : ReadyKept s s := ⟨rfl, id, (List.map_id _).symm, fun _ => rfl⟩

theorem ReadyKept.trans {s t u : State} (a : ReadyKept s t) (b : ReadyKept t u) : ReadyKept s u where
  rest := Eq.trans b.rest (congrArg (fun x : State => { x with
    mem := u.mem, landau := u.landau, nodes := u.nodes, msix := u.msix, fresh := u.fresh }) a.rest)
  nodes := by
    obtain ⟨f, mf, hf⟩ := a.nodes
    obtain ⟨g, mg, hg⟩ := b.nodes
    refine ⟨g ∘ f, by rw [mg, mf, List.map_map], fun n => (hg (f n)).trans ?_⟩
    exact congrArg (fun x : Node => { x with
      st := (g (f n)).st, level := (g (f n)).level, since := (g (f n)).since, order := (g (f n)).order, noPlace := (g (f n)).noPlace
      claim := (g (f n)).claim, assisted := (g (f n)).assisted, posted := (g (f n)).posted }) (hf n)

theorem Posted.readyKept {s t : State} (h : Posted s t) : ReadyKept s t where
  rest := h.rest.trans (congrArg (fun x : State => { s with mem := x.mem, landau := x.landau, nodes := x.nodes, msix := x.msix, fresh := x.fresh })
    h.rest.symm)
  nodes := by
    obtain ⟨f, hf, mf⟩ := h.nodes
    exact ⟨f, mf, fun n => by rw [hf n]⟩

theorem readyIfFree_kept (s : State) (id : Nat) : ReadyKept s (readyIfFree s id) := by
  unfold readyIfFree
  repeat' split
  · refine ReadyKept.trans ⟨rfl, fun x => if x.id = _ then readied s _ x else x, rfl, fun n => ?_⟩ (makeReady_posted s _).readyKept
    dsimp only
    split <;> rfl
  · exact .refl s
  · exact .refl s

/-- A node that is free is ready at its queue's priority. -/
theorem readyIfFree_ready {s : State} {id : Nat} {n : Node} (h : s.findNode id = some n) (free : isFree s n) :
    ∃ m, (readyIfFree s id).findNode id = some m ∧ m.st = .ready ∧ m.level = (s.queue n.queue).pri ∧ m = { n with
      st := m.st, level := m.level, since := m.since, order := m.order, noPlace := m.noPlace, claim := m.claim
      assisted := m.assisted, posted := m.posted } := by
  obtain ⟨f, hf, mf⟩ := (makeReady_posted s n).nodes
  have ready := State.findNode_map (s := s) (t := { s with fresh := s.fresh + 1 }.modNode n.id (readied s n))
    (f := fun x => if x.id = n.id then readied s n x else x) rfl (fun x _ => by split <;> rfl) id
  have posted := State.findNode_map mf (fun x _ => by rw [hf x]) id
  rw [ready, h, Option.map_some, if_pos rfl, Option.map_some] at posted
  rw [readyIfFree_free h free]
  refine ⟨_, posted, ?_, ?_, ?_⟩ <;> rw [hf] <;> rfl

/-- Any other node is at most posted. -/
theorem readyIfFree_other {s : State} {id k : Nat} {n : Node} (h : s.findNode k = some n) (ne : k ≠ id) :
    ∃ m, (readyIfFree s id).findNode k = some m ∧ m = { n with posted := m.posted } := by
  cases found : s.findNode id with
  | none => exact ⟨n, by rw [readyIfFree_none found, h], rfl⟩
  | some x =>
    by_cases free : isFree s x
    · obtain ⟨f, hf, mf⟩ := (makeReady_posted s x).nodes
      have ready := State.findNode_map (s := s) (t := { s with fresh := s.fresh + 1 }.modNode x.id (readied s x))
        (f := fun y => if y.id = x.id then readied s x y else y) rfl (fun y _ => by split <;> rfl) k
      have posted := State.findNode_map mf (fun y _ => by rw [hf y]) k
      have nid : n.id ≠ x.id := by rwa [State.findNode_id h, State.findNode_id found]
      rw [ready, h, Option.map_some, if_neg nid, Option.map_some] at posted
      exact ⟨f n, by rw [readyIfFree_free found free, posted], hf n⟩
    · exact ⟨n, by rw [readyIfFree_held found free, h], rfl⟩

end Sys2Proof.Machine


/-! ## Machine family: the task instructions (R332 to R334) -/

namespace Sys2Proof.Machine

/-! ### `gbar` -/

theorem SameRegisters.trans {u v w : Vlc} (a : SameRegisters u v) (b : SameRegisters v w) : SameRegisters u w :=
  Eq.trans b (congrArg (fun x : Vlc => { x with
    pc := w.pc, status := w.status, plans := w.plans, queuedWait := w.queuedWait, vwait := w.vwait, barrier := w.barrier }) a)

/-- Arrivals of a gang change no fusion of a cluster (R194). -/
theorem isFused_modGang (s : State) (g d c : Nat) {f : Gang → Gang}
    (keep : ∀ x, (f x).die = x.die ∧ (f x).cluster = x.cluster ∧ (f x).shape = x.shape ∧ (f x).st = x.st) :
    isFused (s.modGang g f) d c = isFused s d c := by
  unfold isFused
  rw [State.modGang_gangs, List.any_map]
  congr 2
  funext x
  simp only [Function.comp_apply]
  split
  · obtain ⟨h1, h2, h3, h4⟩ := keep x
    rw [h1, h2, h3, h4]
  · rfl

theorem arriveAt_isFused (s : State) (k d c : Nat) : isFused (arriveAt s k) d c = isFused s d c :=
  (isFused_modGang _ _ d c (f := fun g => { g with arrive := g.arrive.setIfInBounds k ((g.arrive[k]?.getD 0) ||| memberBit s.vlc.member) })
    fun _ => ⟨rfl, rfl, rfl, rfl⟩).trans ((releaseAt_kept s s.vlc.core .gang).isFused d c)

theorem completeBarrier_isFused (s : State) (g id d c : Nat) : isFused (completeBarrier s g id) d c = isFused s d c :=
  isFused_modGang s g d c (f := fun x => { x with arrive := x.arrive.setIfInBounds id 0 }) fun _ => ⟨rfl, rfl, rfl, rfl⟩

/-- The gang of an arrival. -/
theorem arriveAt_findGang {s : State} {g : Gang} (found : s.findGang s.vlc.gang = some g) (k : Nat) :
    (arriveAt s k).findGang s.vlc.gang = some { g with
      arrive := g.arrive.setIfInBounds k ((g.arrive[k]?.getD 0) ||| BitVec.twoPow 32 s.vlc.member) } := by
  rw [← memberBit_eq]
  refine State.findGang_modGang_self
    (f := fun g => { g with arrive := g.arrive.setIfInBounds k ((g.arrive[k]?.getD 0) ||| memberBit s.vlc.member) }) ?_ fun _ => rfl
  exact ((releaseAt_kept s s.vlc.core .gang).findGang _).trans found

theorem arriveAt_vlc_gang (s : State) (k : Nat) : (arriveAt s k).vlc.gang = s.vlc.gang := (releaseAt_kept s s.vlc.core .gang).vlc.gang

/-- Whether an arrival is the last: every member has retired or has arrived. -/
theorem barrierDone_arriveAt {s : State} {g : Gang} (found : s.findGang s.vlc.gang = some g) {k : Nat} (hk : k < 8) :
    barrierDone (arriveAt s k).gang k = true ↔ ∀ m, m < g.members →
      g.exited.getLsbD m = true ∨ ((g.arrive[k]?.getD 0) ||| BitVec.twoPow 32 s.vlc.member).getLsbD m = true := by
  have gang := State.gangOf_eq (arriveAt_findGang found k)
  rw [← arriveAt_vlc_gang s k] at gang
  have slot : ∀ (a : Vector (BitVec 32) 8) (x : BitVec 32), (a.setIfInBounds k x)[k]? = some x := by
    intro a x
    simp [hk]
  rw [State.gang, gang, barrierDone]
  dsimp only
  rw [slot]
  simp only [Option.getD_some, List.all_eq_true, List.mem_range, BitVec.getLsbD_or, Bool.or_eq_true]

/-- The slots of ARRIVE behind an arrival or a completed barrier. -/
theorem arrive_set (a : Vector (BitVec 32) 8) (x : BitVec 32) {k : Nat} (hk : k < 8) (j : Nat) :
    (a.setIfInBounds k x)[j]? = if j = k then some x else a[j]? := by
  by_cases e : j = k
  · subst e
    simp [hk]
  · rw [if_neg e]
    exact Vector.getElem?_setIfInBounds_ne (Ne.symm e)

theorem gbar_last {id : Fld} {s : State} {g : Gang} (h8 : id.toNat < 8) (found : s.findGang s.vlc.gang = some g)
    (sat : s.vlc.barrier ≠ some (id.toNat, true))
    (all : ∀ m, m < g.members → g.exited.getLsbD m = true ∨
      ((g.arrive[id.toNat]?.getD 0) ||| BitVec.twoPow 32 s.vlc.member).getLsbD m = true) :
    ∃ (u : State) (h : Gang), exec (.gbar id) s = .next { u with vlc := u.vlc.next } ∧
      SameRegisters s.vlc u.vlc ∧ u.findGang s.vlc.gang = some h ∧ h.arrive[id.toNat]? = some 0 ∧ h.exited = g.exited ∧
      (∀ k, k < 8 → k ≠ id.toNat → h.arrive[k]? = g.arrive[k]?) ∧
      (∀ v ∈ u.others, v.gang = s.vlc.gang → v.status ≠ .waiting (.barrier id.toNat)) ∧
      (TablesOk s → leavesL1 s s.vlc.core .gang → Acquired u s.vlc.core) := by
  have last := (barrierDone_arriveAt found h8).mpr all
  have kept := acquireAt_kept (completeBarrier (arriveAt s id.toNat) s.vlc.gang id.toNat) s.vlc.core .gang
  have regs := (completeBarrier_kept (arriveAt s id.toNat) s.vlc.gang id.toNat).vlc
  have regs' : SameRegisters (arriveAt s id.toNat).vlc (completeBarrier (arriveAt s id.toNat) s.vlc.gang id.toNat).vlc := by
    generalize (completeBarrier (arriveAt s id.toNat) s.vlc.gang id.toNat).vlc = v at regs ⊢
    rw [regs]
    rfl
  have foundc := completeBarrier_findGang (arriveAt s id.toNat) s.vlc.gang id.toNat s.vlc.gang
  rw [arriveAt_findGang found] at foundc
  refine ⟨_, { g with arrive := (g.arrive.setIfInBounds id.toNat
      ((g.arrive[id.toNat]?.getD 0) ||| BitVec.twoPow 32 s.vlc.member)).setIfInBounds id.toNat 0 },
    execGbar_last h8 sat last, ((arriveAt_sameRegisters s _).trans regs').trans kept.vlc.sameRegisters, ?_, ?_, rfl, ?_, ?_, ?_⟩
  · rw [kept.findGang, foundc]
    simp [State.findGang_id found]
  · rw [arrive_set _ _ h8, if_pos rfl]
  · intro k _ ne
    rw [arrive_set _ _ h8, if_neg ne, arrive_set _ _ h8, if_neg ne]
  · intro v hv hg st
    obtain ⟨w, hw, k⟩ := VlcKept.of_mem kept.others hv
    have wst : w.status = .waiting (.barrier id.toNat) := by
      obtain e | ⟨x, -, f⟩ := k.status
      · exact e ▸ st
      · exact absurd (st.symm.trans f) (by simp)
    obtain ⟨x, -, rfl⟩ := List.mem_map.mp hw
    have wg : (if x.gang ≠ s.vlc.gang then x else if x.status = .waiting (.barrier id.toNat) then
        { x with status := .satisfied (.barrier id.toNat) } else if x.barrier = some (id.toNat, false) then
        { x with barrier := some (id.toNat, true) } else x).gang = s.vlc.gang := k.gang.symm.trans hg
    split at wst
    · next ne => rw [if_pos ne] at wg; exact ne wg
    · split at wst
      · exact absurd wst (by simp)
      · split at wst
        · exact ‹¬ x.status = _› wst
        · exact ‹¬ x.status = _› wst
  · intro ok leaves
    obtain ⟨-, wf, -⟩ := ok
    refine acquireAt_acquired (s := completeBarrier (arriveAt s id.toNat) s.vlc.gang id.toNat)
      ((releaseAt_kept s s.vlc.core .gang).coresWf wf) ?_
    rw [leavesL1, completeBarrier_isFused, arriveAt_isFused]
    exact leaves

theorem gbar_more {id : Fld} {s : State} {g : Gang} (h8 : id.toNat < 8) (found : s.findGang s.vlc.gang = some g)
    (sat : s.vlc.barrier ≠ some (id.toNat, true))
    (more : ¬ ∀ m, m < g.members → g.exited.getLsbD m = true ∨
      ((g.arrive[id.toNat]?.getD 0) ||| BitVec.twoPow 32 s.vlc.member).getLsbD m = true) :
    ∃ (u : State) (h : Gang), exec (.gbar id) s = .next u ∧ SameRegisters s.vlc u.vlc ∧
      u.vlc.pc = s.vlc.pc ∧ u.vlc.status = .waiting (.barrier id.toNat) ∧ u.findGang s.vlc.gang = some h ∧
      h.arrive[id.toNat]? = some ((g.arrive[id.toNat]?.getD 0) ||| BitVec.twoPow 32 s.vlc.member) ∧ h.exited = g.exited ∧
      (TablesOk s → leavesL1 s s.vlc.core .gang → NoDirtyRc u s.vlc.core) := by
  have last := Bool.eq_false_iff.mpr fun e => more ((barrierDone_arriveAt found h8).mp e)
  refine ⟨_, _, execGbar_waits h8 sat last, (arriveAt_sameRegisters s id.toNat).trans rfl, arriveAt_pc s id.toNat, rfl,
    arriveAt_findGang found id.toNat, ?_, rfl, ?_⟩
  · rw [arrive_set _ _ h8, if_pos rfl]
  · intro ok leaves
    obtain ⟨-, wf, -⟩ := ok
    have clean := releaseAt_noDirtyRc wf leaves
    intro c hc
    refine clean c ?_
    have cores : l1Cores (arriveAt s id.toNat) s.vlc.core = l1Cores (releaseAt s s.vlc.core .gang) s.vlc.core := by
      rw [(releaseAt_kept s s.vlc.core .gang).l1Cores, l1Cores, arriveAt_isFused]
      rfl
    exact cores ▸ hc

theorem gbar_satisfied {id : Fld} {s : State} (h8 : id.toNat < 8) (sat : s.vlc.barrier = some (id.toNat, true)) :
    ∃ u : State, exec (.gbar id) s = .next { u with vlc := u.vlc.next } ∧ SameRegisters s.vlc u.vlc ∧ u.vlc.barrier = none ∧
      u.gangs = s.gangs ∧ (TablesOk s → leavesL1 s s.vlc.core .gang → Acquired u s.vlc.core) := by
  have rel := releaseAt_kept s s.vlc.core .gang
  have kept := acquireAt_kept ((releaseAt s s.vlc.core .gang).modVlc fun v => { v with barrier := none }) s.vlc.core .gang
  refine ⟨_, execGbar_satisfied h8 sat, (arriveAt_sameRegisters s 0).trans kept.vlc.sameRegisters, (congrArg Vlc.barrier kept.vlc.rest : _),
    kept.gangs.trans rel.gangs, fun ok leaves => ?_⟩
  obtain ⟨-, wf, -⟩ := ok
  refine acquireAt_acquired (s := (releaseAt s s.vlc.core .gang).modVlc fun v => { v with barrier := none }) (rel.coresWf wf) ?_
  have fused := rel.isFused (coreDie s.vlc.core) (coreCluster s.vlc.core)
  show Scope.gang ≠ .ctx ∧ ¬ (isFused (releaseAt s s.vlc.core .gang) _ _ = true ∧ _)
  rw [fused]
  exact leaves

/-! ### `tyield` -/

/-- Going on to the next word leaves a VLC in its gang. -/
theorem Vlc.next_gang (v : Vlc) : v.next.gang = v.gang := by
  have strip (l : Loop) : (stripEnd v l).gang = v.gang := by
    unfold stripEnd handOut
    dsimp only
    split <;> rfl
  unfold Vlc.next Vlc.goto
  split
  · dsimp only
    repeat' split
    · exact strip _
    · rfl
    · rfl
  · rfl

/-- What `tyield` does: it offers the place of the gang, or just goes on. -/
theorem exec_tyield (s : State) : exec .tyield s = .next
    (if s.gang.st = .resident ∧ s.isFenced s.gang.die 7 0 = false ∧ ∃ n ∈ s.nodes, couldReplace { s with vlc := s.vlc.next } s.gang n = true then
      (requestHalt { s with vlc := s.vlc.next } s.gang .tyield).getD { s with vlc := s.vlc.next }
    else { s with vlc := s.vlc.next }) := by
  have gang : s.pass.gang = s.gang := by
    show s.gangOf s.vlc.next.gang = _
    rw [Vlc.next_gang, State.gang]
  have same : (s.pass.gang.st = .resident ∧ (!s.pass.isFenced s.pass.gang.die 7 0) = true ∧
      (s.pass.nodes.any fun n => couldReplace s.pass s.pass.gang n) = true) ↔
      (s.gang.st = .resident ∧ s.isFenced s.gang.die 7 0 = false ∧ ∃ n ∈ s.nodes, couldReplace { s with vlc := s.vlc.next } s.gang n = true) := by
    rw [gang, Bool.not_eq_true', List.any_eq_true]
    rfl
  show execTyield s = _
  unfold execTyield
  dsimp only
  by_cases offered : s.gang.st = .resident ∧ s.isFenced s.gang.die 7 0 = false ∧
      ∃ n ∈ s.nodes, couldReplace { s with vlc := s.vlc.next } s.gang n = true
  · rw [if_pos offered, if_pos (same.mpr offered), gang]
    rfl
  · rw [if_neg offered, if_neg fun h => offered (same.mp h)]
    rfl

/-- A request for a halt takes a pool record, and only the gang changes. -/
theorem requestHalt_eq {s : State} {g : Gang} {k : Nat} (free : freePool s g.die = some k) (why : HaltWhy) :
    requestHalt s g why = some ((takePool s g.die k).modGang g.id fun g => { g with pool := some k, st := .halting why }) := by
  rw [requestHalt, free]

/-- `tyield` offers the place of its gang. -/
theorem tyield_offers {s : State} {k : Nat} (offered : s.gang.st = .resident ∧ s.isFenced s.gang.die 7 0 = false ∧
      ∃ n ∈ s.nodes, couldReplace { s with vlc := s.vlc.next } s.gang n = true)
    (found : s.findGang s.vlc.gang = some s.gang) (free : freePool s s.gang.die = some k) :
    ∃ (u : State) (h : Gang), exec .tyield s = .next u ∧ u.vlc = s.vlc.next ∧ u.findGang s.vlc.gang = some h ∧
      h.st = .halting .tyield ∧ h.pool = some k ∧ u.mem = s.mem := by
  have halt := requestHalt_eq (s := { s with vlc := s.vlc.next }) (g := s.gang) free .tyield
  have run := exec_tyield s
  rw [if_pos offered, halt] at run
  have turned := State.findGang_modGang (takePool { s with vlc := s.vlc.next } s.gang.die k) s.gang.id s.vlc.gang
    (f := fun g => { g with pool := some k, st := .halting .tyield }) fun _ => rfl
  have found' : (takePool { s with vlc := s.vlc.next } s.gang.die k).findGang s.vlc.gang = some s.gang := found
  rw [found', Option.map_some, if_pos rfl] at turned
  exact ⟨_, _, run, rfl, turned, rfl, rfl, rfl⟩

/-! ### `spawn` (R332) -/

/-- The record of a spawn with x[B] as its ARG (R332). -/
theorem spawnImage_eq (raw : BitVec 512) (b : Word) : spawnImage raw b =
    if b = 0 then raw else raw &&& ~~~ ((BitVec.allOnes 64).setWidth 512 <<< 320) ||| (b.setWidth 512 <<< 320) := by
  unfold spawnImage
  by_cases zero : b = 0
  · simp [zero]
  · rw [if_pos zero, if_neg zero]
    apply BitVec.eq_of_getLsbD_eq
    intro i hi
    rw [recWithArg, BitVec.getLsbD_ofNat, testBit_setField]
    simp only [BitVec.getLsbD_or, BitVec.getLsbD_and, BitVec.getLsbD_not, BitVec.getLsbD_shiftLeft, BitVec.getLsbD_setWidth,
      BitVec.getLsbD_allOnes, BitVec.testBit_toNat, hi, decide_true, Bool.true_and]
    by_cases lo : i < 320
    · rw [if_neg (by omega)]
      simp [lo]
    · by_cases inside : i < 384
      · rw [if_pos (by omega)]
        simp [show i - 320 < 64 by omega, show ¬ i < 320 by omega, show i - 320 < 512 by omega]
      · rw [if_neg (by omega)]
        have : b.getLsbD (i - 320) = false := BitVec.getLsbD_of_ge _ _ (by omega)
        simp [this, show ¬ i - 320 < 64 by omega]

theorem slotTaken_iff (s : State) (d k : Nat) : slotTaken s d k = true ↔ ∃ n ∈ s.nodes, n.die = d ∧ n.slot = some k := by
  simp [slotTaken]

/-- The first free slot of a range. -/
theorem firstFree_eq {s : State} {d k : Nat} (free : slotTaken s d k = false) (n lo : Nat) (range : lo ≤ k ∧ k < lo + n)
    (below : ∀ j, lo ≤ j → j < k → slotTaken s d j = true) : firstFree s d n lo = some k := by
  induction n generalizing lo with
  | zero => omega
  | succ n ih =>
    unfold firstFree
    by_cases here : lo = k
    · subst lo
      rw [if_neg (by simp [free])]
    · rw [if_pos (below lo (Nat.le_refl _) (by omega))]
      exact ih (lo + 1) (by omega) fun j hj hk => below j (by omega) hk

theorem firstFree_none {s : State} {d : Nat} (n lo : Nat) (full : ∀ j, lo ≤ j → j < lo + n → slotTaken s d j = true) :
    firstFree s d n lo = none := by
  induction n generalizing lo with
  | zero => rfl
  | succ n ih =>
    unfold firstFree
    rw [if_pos (full lo (Nat.le_refl _) (by omega))]
    exact ih (lo + 1) fun j hj hk => full j (by omega) (by omega)

/-- A spawned node takes the lowest free slot of its die, of 4,096 (R322). -/
theorem freeSlot_lowest {s : State} {d k : Nat} (free : slotTaken s d k = false) (hk : k < 4096)
    (below : ∀ j, j < k → slotTaken s d j = true) : freeSlot s d true = some k := by
  unfold freeSlot
  by_cases ord : k < 3840
  · rw [firstFree_eq free 3840 0 (by omega) fun j _ hj => below j hj]
  · rw [firstFree_none 3840 0 fun j _ hj => below j (by omega)]
    exact firstFree_eq free 256 3840 (by omega) fun j _ hj => below j hj

/-- With every node in a slot and none assisted, nothing returns and nothing is posted. -/
theorem returnAll_none {s : State} {d q : Nat} (slots : ∀ n ∈ s.nodes, n.slot.isSome = true ∧ n.assisted = false) : returnAll s d q = s := by
  have none_left : overflowed s d q = [] := List.filter_eq_nil_iff.mpr fun n hn => by
    have := (slots n hn).1
    cases h : n.slot with
    | none => rw [h] at this; exact absurd this (by simp)
    | some k => simp
  have held : (s.nodes.filter fun n => n.die == d && n.st == .ready && n.assisted && !n.posted && n.slot.isSome && n.hold.isNone) = [] :=
    List.filter_eq_nil_iff.mpr fun n hn => by simp [(slots n hn).2]
  rw [returnAll, none_left]
  show postHeld d s.nodes.length s = s
  cases s.nodes.length with
  | zero => rfl
  | succ k => rw [postHeld, held]; rfl

/-- A node spawned into a slot, before it becomes ready. -/
def placedChild (s : State) (graph q die slot : Nat) (image : BitVec 512) (spawner hold : Option Nat) : Node :=
  { newNode s s.fresh graph q die 0xFFFF image 0 spawner hold with slot := some slot }

/-- The state with a node more in a graph. -/
def withChild (s : State) (graph : Nat) (n : Node) : State := { s with
  fresh := s.fresh + 1
  nodes := s.nodes ++ [n]
  graphs := s.graphs.map fun g => if g.id = graph then { g with left := g.left + 1 } else g }

/-- The state once that node is ready. -/
def withReady (s : State) (graph : Nat) (n : Node) : State :=
  { withChild s graph n with fresh := s.fresh + 2, nodes := s.nodes ++ [readied (withChild s graph n) n n] }

/-- A change of the last node of a list of nodes with other identifiers. -/
theorem modNode_last {ns : List Node} {m : Node} {k : Nat} (hm : m.id = k) (f : Node → Node) (others : ∀ n ∈ ns, n.id ≠ k) :
    (ns ++ [m]).map (fun x => if x.id = k then f x else x) = ns ++ [f m] := by
  have same : ns.map (fun x => if x.id = k then f x else x) = ns.map id :=
    List.map_congr_left fun n hn => if_neg (others n hn)
  rw [List.map_append, same, List.map_id, List.map_singleton, if_pos hm]

/-- The last node of a list of nodes with other identifiers is found. -/
theorem find_last {ns : List Node} {m : Node} {k : Nat} (hm : m.id = k) (others : ∀ n ∈ ns, n.id ≠ k) :
    (ns ++ [m]).find? (fun x => x.id == k) = some m := by
  have none_ : ns.find? (fun x => x.id == k) = none := List.find?_eq_none.mpr fun n hn => by simpa using others n hn
  rw [List.find?_append, none_]
  simp [hm]

/-- A spawned node waits for no order of graphs. -/
theorem heldByOrder_spawned {s : State} {n : Node} (h : n.idx = 0xFFFF) : heldByOrder s n = false := by
  unfold heldByOrder
  split
  · rfl
  · simp [h]

/-- No node overflows. -/
theorem overflowed_none {s : State} {d q : Nat} (slots : ∀ n ∈ s.nodes, n.slot.isSome = true) : overflowed s d q = [] :=
  List.filter_eq_nil_iff.mpr fun n hn => by simp [Option.isSome_iff_ne_none.mp (slots n hn)]

/-- With no node overflowing, a spawned node takes the lowest free slot of its die. -/
theorem arrivalSlot_lowest {s : State} {die slot : Nat} (q : Nat) (slots : ∀ n ∈ s.nodes, n.slot.isSome = true) (small : slot < 4096)
    (free : ∀ n ∈ s.nodes, n.die = die → n.slot ≠ some slot) (below : ∀ k, k < slot → ∃ n ∈ s.nodes, n.die = die ∧ n.slot = some k) :
    arrivalSlot s die q true = some slot := by
  rw [arrivalSlot, overflowed_none slots]
  refine freeSlot_lowest (Bool.eq_false_iff.mpr fun h => ?_) small fun j hj => (slotTaken_iff _ _ _).mpr (below j hj)
  obtain ⟨n, hn, hd, hs⟩ := (slotTaken_iff _ _ _).mp h
  exact free n hn hd hs

/-- A spawned node arrives in the lowest free slot. -/
theorem arriveNode_child {s : State} {die slot : Nat} (graph q : Nat) (image : BitVec 512) (spawner hold : Option Nat)
    (nodes : ∀ n ∈ s.nodes, n.slot.isSome = true ∧ n.assisted = false) (small : slot < 4096)
    (free : ∀ n ∈ s.nodes, n.die = die → n.slot ≠ some slot) (below : ∀ k, k < slot → ∃ n ∈ s.nodes, n.die = die ∧ n.slot = some k) (id : Nat) :
    arriveNode s (newNode s id graph q die 0xFFFF image 0 spawner hold) =
      ({ s with nodes := s.nodes ++ [{ newNode s id graph q die 0xFFFF image 0 spawner hold with slot := some slot }] }, .slot) := by
  unfold arriveNode newNode
  dsimp only
  rw [returnAll_none nodes, show ((0xFFFF : Nat) == 0xFFFF) = true from rfl,
    arrivalSlot_lowest q (fun n hn => (nodes n hn).1) small free below]

/-- A node spawned while no node overflows and the host does not assist takes the lowest free slot, and is ready (R332). -/
theorem spawnNode_slot {s : State} {die slot : Nat} (graph q : Nat) (image : BitVec 512) (spawner hold : Option Nat)
    (nodes : ∀ n ∈ s.nodes, n.id < s.fresh ∧ n.assisted = false ∧ n.slot.isSome = true) (assist : s.schedAssisted = false)
    (small : slot < 4096) (free : ∀ n ∈ s.nodes, n.die = die → n.slot ≠ some slot)
    (below : ∀ k, k < slot → ∃ n ∈ s.nodes, n.die = die ∧ n.slot = some k) :
    spawnNode s graph q die image spawner hold =
      (withReady s graph (placedChild s graph q die slot image spawner hold), .slot) := by
  have others : ∀ n ∈ s.nodes, n.id ≠ s.fresh := fun n hn => Nat.ne_of_lt (nodes n hn).1
  have arrived := arriveNode_child (s := { s with fresh := s.fresh + 1 }) graph q image spawner hold
    (fun n hn => ⟨(nodes n hn).2.2, (nodes n hn).2.1⟩) small free below s.fresh
  generalize hm : placedChild s graph q die slot image spawner hold = m
  have id_ : m.id = s.fresh := by rw [← hm]; rfl
  have whole : spawnNode s graph q die image spawner hold = (readyIfFree (withChild s graph m) s.fresh, .slot) := by
    unfold spawnNode State.takeFresh
    dsimp only
    rw [arrived, ← hm]
    rfl
  have found : (withChild s graph m).findNode s.fresh = some m := find_last id_ others
  have ready : readyIfFree (withChild s graph m) s.fresh = makeReady (withChild s graph m) m := by
    rw [readyIfFree, found]
    refine if_pos ⟨?_, ?_, ?_⟩
    · rw [← hm]; rfl
    · rw [← hm]; rfl
    · rw [heldByOrder_spawned (by rw [← hm]; rfl)]
      rfl
  have last := modNode_last id_ (readied (withChild s graph m) m) others
  have quiet : ¬ (withChild s graph m).schedAssisted = true := fun h => Bool.false_ne_true (assist.symm.trans h)
  rw [whole, ready, makeReady_eq, if_neg quiet, id_]
  exact congrArg (fun ns => (({ withChild s graph m with fresh := s.fresh + 2, nodes := ns } : State), Arrival.slot)) last

theorem spawnTrap_none {s : State} {graph : Nat} {image : BitVec 512}
    (ok : recordRefused image (((s.findGraph graph).map (·.nodes)).getD 0) = none) (deps : recDeps image = 0) :
    spawnTrap s graph image = none := by
  rw [spawnTrap, ok]
  exact if_neg fun h => h deps

/-- A spawn whose checks pass completes behind its release. -/
theorem exec_spawn {d a b : Fld} {s t u w : State} {ws : List Word} {hold : Option Nat} (al : (s.vlc.rx a).toNat % 64 = 0)
    (read : readDwords s s.me .load (s.vlc.rx a) 8 = (t, .ok ws)) (open_ : t.isFenced (coreDie t.vlc.core) 7 0 = false)
    (ok : spawnTrap t (((t.findNode t.gang.node).map (·.graph)).getD t.fresh) (spawnImage (record512 ws) (t.vlc.rx b)) = none)
    (rel : releaseBoth t (.spawn d a b) .dev = (u, hold))
    (put : spawnNode u (((t.findNode t.gang.node).map (·.graph)).getD t.fresh) t.gang.queue (coreDie t.vlc.core)
      (spawnImage (record512 ws) (t.vlc.rx b)) (some t.vlc.gang) hold = (w, .slot)) :
    exec (.spawn d a b) s = .next (w.retire d 1) := by
  show execSpawn d a b s = _
  unfold execSpawn
  dsimp only
  rw [if_neg (by simp [al]), read]
  dsimp only
  rw [open_, ok, rel]
  dsimp only
  rw [put]
  rfl

/-- A release of both streams for the whole device: made at once, or at the end of the vector queue (R259). -/
theorem releaseBoth_dev {s : State} (wf : Tab.wf CoreSt.reset s.cores = true) (i : Instr) : ∃ u hold, releaseBoth s i .dev = (u, hold) ∧
    u.nodes = s.nodes ∧ u.graphs = s.graphs ∧ u.queues = s.queues ∧ u.funcmode = s.funcmode ∧ s.fresh ≤ u.fresh ∧
    (s.vlc.vq = [] ∨ s.vlc.inHandler = true → SameRegisters s.vlc u.vlc ∧ NoDirtyRc u s.vlc.core ∧ hold = none) ∧
    (s.vlc.vq ≠ [] → s.vlc.inHandler = false → hold = some s.fresh ∧
      ∃ e, SameRegisters { s.vlc with vq := s.vlc.vq ++ [e] } u.vlc ∧ e.i = i ∧ e.xd = BitVec.ofNat 64 s.fresh) := by
  by_cases now : s.vlc.vq = [] ∨ s.vlc.inHandler = true
  · have kept := releaseAt_kept s s.vlc.core .dev
    refine ⟨_, _, releaseBoth_now now i .dev, kept.nodes, kept.graphs, kept.queues, kept.funcmode, Nat.le_of_eq kept.fresh.symm,
      fun _ => ⟨kept.vlc.sameRegisters, releaseAt_noDirtyRc wf (by simp [leavesL1]), rfl⟩, fun q h => ?_⟩
    exact absurd now fun n => n.elim q (by simp [h])
  · obtain ⟨queued, free⟩ := not_or.mp now
    obtain ⟨e, ei, ex, rel⟩ := releaseBoth_later queued (Bool.eq_false_iff.mpr free) i .dev
    exact ⟨_, _, rel, rfl, rfl, rfl, rfl, Nat.le_succ _, fun n => absurd n now, fun _ _ => ⟨rfl, e, rfl, ei, ex⟩⟩

/-- A spawn whose record can be read and passes its checks adds its node behind a release of both streams (R259, R332). -/
theorem spawn_released {d a b : Fld} {s : State} {p : Dest} (al : (s.vlc.rx a).toNat % 64 = 0) (pal : p.pa % 64 = 0)
    (on : RunsOn s .load .read (s.vlc.rx a) 8 8 p) (tables : TablesOk s) (snoops : NoSnoops s s.vlc.core) (clean : s.poison = [])
    (open_ : s.isFenced (coreDie s.vlc.core) 7 0 = false)
    (trap : spawnTrap s (((s.findNode s.gang.node).map (·.graph)).getD s.fresh)
      (spawnImage (BitVec.ofNat 512 (seen s s.vlc.core p 64)) (s.vlc.rx b)) = none) :
    ∃ u hold, u.nodes = s.nodes ∧ u.graphs = s.graphs ∧ u.queues = s.queues ∧ u.funcmode = s.funcmode ∧ s.fresh ≤ u.fresh ∧
      (s.vlc.vq = [] ∨ s.vlc.inHandler = true → SameRegisters s.vlc u.vlc ∧ NoDirtyRc u s.vlc.core ∧ hold = none) ∧
      (s.vlc.vq ≠ [] → s.vlc.inHandler = false → hold = some s.fresh ∧
        ∃ e, SameRegisters { s.vlc with vq := s.vlc.vq ++ [e] } u.vlc ∧ e.i = .spawn d a b ∧ e.xd = BitVec.ofNat 64 s.fresh) ∧
      ∀ w, spawnNode u (((s.findNode s.gang.node).map (·.graph)).getD s.fresh) s.gang.queue (coreDie s.vlc.core)
        (spawnImage (BitVec.ofNat 512 (seen s s.vlc.core p 64)) (s.vlc.rx b)) (some s.vlc.gang) hold = (w, .slot) →
        exec (.spawn d a b) s = .next (w.retire d 1) := by
  obtain ⟨-, wf, -⟩ := tables
  obtain ⟨t, ws, read, moved, sees⟩ := readRecord_sees on wf snoops clean pal
  have kept : MemKept s t := by
    have k := readDwords_kept s.me .load 8 s (s.vlc.rx a)
    rwa [read] at k
  have vlc := moved.vlc
  rw [← sees] at trap ⊢
  have same : ((t.findNode t.gang.node).map (·.graph)).getD t.fresh = ((s.findNode s.gang.node).map (·.graph)).getD s.fresh := by
    simp only [State.findNode, kept.nodes, kept.gang, kept.fresh]
  have open' : t.isFenced (coreDie t.vlc.core) 7 0 = false := by
    rw [vlc, State.isFenced, kept.fenced]
    exact open_
  have trap' : spawnTrap t (((s.findNode s.gang.node).map (·.graph)).getD s.fresh) (spawnImage (record512 ws) (s.vlc.rx b)) = none := by
    rw [spawnTrap, State.findGraph, kept.graphs]
    exact trap
  obtain ⟨u, hold, rel, unodes, ugraphs, uqueues, ufunc, ufresh, now, later⟩ := releaseBoth_dev (kept.coresWf wf) (.spawn d a b)
  rw [vlc] at now later
  rw [kept.fresh] at later
  refine ⟨u, hold, unodes.trans kept.nodes, ugraphs.trans kept.graphs, uqueues.trans kept.queues, ufunc.trans kept.funcmode,
    kept.fresh ▸ ufresh, now, later, fun w put => exec_spawn al read open' ?_ rel ?_⟩
  · rw [same, vlc]
    exact trap'
  · rw [same, vlc, kept.gang]
    exact put

/-- `spawn` adds a ready node in the lowest free slot (R332). -/
theorem spawn_adds {d a b : Fld} {s : State} {p : Dest} {slot : Nat} (al : (s.vlc.rx a).toNat % 64 = 0) (pal : p.pa % 64 = 0)
    (on : RunsOn s .load .read (s.vlc.rx a) 8 8 p) (tables : TablesOk s) (snoops : NoSnoops s s.vlc.core) (clean : s.poison = [])
    (image : BitVec 512) (himage : image = spawnImage (BitVec.ofNat 512 (seen s s.vlc.core p 64)) (s.vlc.rx b))
    (graph : Nat) (hgraph : graph = ((s.findNode s.gang.node).map (·.graph)).getD s.fresh)
    (open_ : s.isFenced (coreDie s.vlc.core) 7 0 = false) (ok : recordRefused image (((s.findGraph graph).map (·.nodes)).getD 0) = none)
    (deps : recDeps image = 0) (assist : s.funcmode.getLsbD 1 = false)
    (nodes : ∀ n ∈ s.nodes, n.id < s.fresh ∧ n.assisted = false ∧ n.slot.isSome = true)
    (small : slot < 4096) (free : ∀ n ∈ s.nodes, n.die = coreDie s.vlc.core → n.slot ≠ some slot)
    (below : ∀ k, k < slot → ∃ n ∈ s.nodes, n.die = coreDie s.vlc.core ∧ n.slot = some k) :
    ∃ u : State, exec (.spawn d a b) s = .next { u with vlc := (u.vlc.wx d 1).next } ∧
      ∃ n, u.nodes = s.nodes ++ [n] ∧ n.slot = some slot ∧ n.image = image ∧ n.graph = graph ∧ n.queue = s.gang.queue ∧
        n.die = coreDie s.vlc.core ∧ n.idx = 0xFFFF ∧ n.deps = 0 ∧ n.st = .ready ∧ n.spawner = some s.vlc.gang ∧ n.claim = none ∧
        n.level = (s.queue s.gang.queue).pri ∧
        u.graphs = (s.graphs.map fun g => if g.id = graph then { g with left := g.left + 1 } else g) ∧
        (s.vlc.vq = [] ∨ s.vlc.inHandler = true → SameRegisters s.vlc u.vlc ∧ NoDirtyRc u s.vlc.core ∧ n.hold = none) ∧
        (s.vlc.vq ≠ [] → s.vlc.inHandler = false → n.hold = some s.fresh ∧
          ∃ e, SameRegisters { s.vlc with vq := s.vlc.vq ++ [e] } u.vlc ∧ e.i = .spawn d a b ∧ e.xd = BitVec.ofNat 64 s.fresh) := by
  subst hgraph himage
  obtain ⟨u, hold, unodes, ugraphs, uqueues, ufunc, ufresh, now, later, run⟩ := spawn_released al pal on tables snoops clean open_
    (spawnTrap_none ok deps)
  rw [← unodes] at nodes free below ⊢
  have put := spawnNode_slot (((s.findNode s.gang.node).map (·.graph)).getD s.fresh) s.gang.queue
    (spawnImage (BitVec.ofNat 512 (seen s s.vlc.core p 64)) (s.vlc.rx b)) (some s.vlc.gang) hold
    (fun n hn => ⟨Nat.lt_of_lt_of_le (nodes n hn).1 ufresh, (nodes n hn).2⟩)
    (by rw [State.schedAssisted, ufunc]; exact assist) small free below
  refine ⟨_, run _ put, _, rfl, rfl, rfl, rfl, rfl, rfl, rfl, rfl, rfl, rfl, rfl, ?_, ?_, now, later⟩
  · exact congrArg (fun q : Tab QueuePage => (Tab.get QueuePage.reset q s.gang.queue).pri) uqueues
  · exact congrArg (List.map _) ugraphs

theorem tyield_stays {s : State} (h : ¬ (s.gang.st = .resident ∧ s.isFenced s.gang.die 7 0 = false ∧
      ∃ n ∈ s.nodes, couldReplace { s with vlc := s.vlc.next } s.gang n = true) ∨ freePool s s.gang.die = none) :
    exec .tyield s = .next { s with vlc := s.vlc.next } := by
  rw [exec_tyield]
  split
  · next offered =>
    have full : freePool { s with vlc := s.vlc.next } s.gang.die = none := h.resolve_left fun n => n offered
    rw [requestHalt, full]
    rfl
  · rfl

/-- Settles O49: `gbar` by its three cases (satisfied, the last arrival, any other), `spawn` by the record that its load sees and the slot
that its node takes, and `tyield` by the halt that it requests. -/
theorem taskInstructions : Obligations.TaskInstructions := by
  refine ⟨fun id s g h8 found _ => ⟨gbar_last h8 found, gbar_more h8 found, gbar_satisfied h8⟩, ?_,
    fun s => ⟨tyield_stays, fun offered found k free => tyield_offers offered found free⟩⟩
  intro d a b s p slot al pal on tables snoops clean die raw img graph open_ ok deps assist nodes small free below
  exact spawn_adds al pal on tables snoops clean img (spawnImage_eq raw _).symm graph rfl open_ ok deps assist nodes small free below

end Sys2Proof.Machine


/-! ## Machine family: slots and the overflow region (R322, R324) -/

namespace Sys2Proof.Machine

/-- The state when nodes without a slot, on the dies that `dies` names, may have been given one, and nodes have been posted. -/
structure SlotsGiven (dies : Nat → Prop) (s t : State) : Prop where
  rest : t = { s with mem := t.mem, landau := t.landau, nodes := t.nodes, msix := t.msix }
  nodes : ∃ f : Node → Node, t.nodes = s.nodes.map f ∧ ∀ n ∈ s.nodes, f n = { n with slot := (f n).slot, posted := (f n).posted } ∧
    (n.slot ≠ none ∨ ¬ dies n.die → (f n).slot = n.slot)

namespace SlotsGiven

theorem refl (dies : Nat → Prop) (s : State) : SlotsGiven dies s s := ⟨rfl, id, (List.map_id _).symm, fun _ _ => ⟨rfl, fun _ => rfl⟩⟩

theorem trans {dies : Nat → Prop} {s t u : State} (a : SlotsGiven dies s t) (b : SlotsGiven dies t u) : SlotsGiven dies s u where
  rest := Eq.trans b.rest (congrArg (fun x : State => { x with mem := u.mem, landau := u.landau, nodes := u.nodes, msix := u.msix }) a.rest)
  nodes := by
    obtain ⟨f, mf, hf⟩ := a.nodes
    obtain ⟨g, mg, hg⟩ := b.nodes
    refine ⟨g ∘ f, by rw [mg, mf, List.map_map], fun n hn => ?_⟩
    obtain ⟨ef, sf⟩ := hf n hn
    obtain ⟨eg, sg⟩ := hg (f n) (mf ▸ List.mem_map_of_mem hn)
    refine ⟨eg.trans (congrArg (fun x : Node => { x with slot := (g (f n)).slot, posted := (g (f n)).posted }) ef), fun keep => ?_⟩
    have first := sf keep
    refine (sg ?_).trans first
    rw [first, show (f n).die = n.die from (congrArg Node.die ef : _)]
    exact keep

theorem mono {dies more : Nat → Prop} {s t : State} (h : SlotsGiven dies s t) (sub : ∀ d, dies d → more d) : SlotsGiven more s t where
  rest := h.rest
  nodes := by
    obtain ⟨f, mf, hf⟩ := h.nodes
    exact ⟨f, mf, fun n hn => ⟨(hf n hn).1, fun k => (hf n hn).2 (k.imp id fun nd hd => nd (sub _ hd))⟩⟩

theorem ids {dies : Nat → Prop} {s t : State} (h : SlotsGiven dies s t) (ids : NodeIds s) : NodeIds t := by
  obtain ⟨f, mf, hf⟩ := h.nodes
  exact ids.map mf fun n hn => (congrArg Node.id (hf n hn).1 : _)

/-- A node that has a slot, or stands on another die, keeps it. -/
theorem findNode {dies : Nat → Prop} {s t : State} (h : SlotsGiven dies s t) {k : Nat} {n : Node} (found : s.findNode k = some n)
    (keep : n.slot ≠ none ∨ ¬ dies n.die) : ∃ m, t.findNode k = some m ∧ m = { n with posted := m.posted } := by
  obtain ⟨f, mf, hf⟩ := h.nodes
  obtain ⟨e, slot⟩ := hf n (List.mem_of_find?_eq_some found)
  refine ⟨f n, ?_, ?_⟩
  · rw [State.findNode_map mf fun n hn => (congrArg Node.id (hf n hn).1 : _), found]
    rfl
  · rw [e, slot keep]

end SlotsGiven

theorem Posted.slotsGiven {s t : State} (h : Posted s t) (dies : Nat → Prop) : SlotsGiven dies s t where
  rest := h.rest
  nodes := by
    obtain ⟨f, hf, mf⟩ := h.nodes
    exact ⟨f, mf, fun n _ => ⟨by rw [hf n], fun _ => by rw [hf n]⟩⟩

/-- Giving the first overflowed node of a queue a slot. -/
theorem giveSlot_slotsGiven {s : State} {d q k : Nat} {n : Node} {rest : List Node} (ids : NodeIds s) (h : overflowed s d q = n :: rest) :
    SlotsGiven (· = d) s (s.modNode n.id fun x => { x with slot := some k }) where
  rest := rfl
  nodes := by
    have mem : n ∈ overflowed s d q := h ▸ List.mem_cons_self ..
    obtain ⟨hn, is⟩ := List.mem_filter.mp mem
    simp only [Bool.and_eq_true, beq_iff_eq] at is
    obtain ⟨⟨die, -⟩, slot⟩ := is
    refine ⟨fun x => if x.id = n.id then { x with slot := some k } else x, rfl, fun x hx => ?_⟩
    dsimp only
    by_cases e : x.id = n.id
    · obtain rfl := ids.eq hx hn e
      simp [slot, die]
    · simp [e]

theorem returnNodes_slotsGiven (d q k : Nat) {s : State} (ids : NodeIds s) : SlotsGiven (· = d) s (returnNodes d q k s) := by
  induction k generalizing s with
  | zero => exact .refl _ s
  | succ k ih =>
    unfold returnNodes
    split
    · exact .refl _ s
    · next n rest h =>
      split
      · exact .refl _ s
      · next slot _ =>
        have given := giveSlot_slotsGiven (k := slot) ids h
        exact given.trans (ih (given.ids ids))

theorem returnAll_slotsGiven (d q : Nat) {s : State} (ids : NodeIds s) : SlotsGiven (· = d) s (returnAll s d q) :=
  (returnNodes_slotsGiven d q _ ids).trans ((postAll_posted _ d).slotsGiven _)

theorem returnAlls_slotsGiven (q : Nat) (ds : List Nat) {s : State} (ids : NodeIds s) :
    SlotsGiven (· ∈ ds) s (ds.foldl (fun s d => returnAll s d q) s) := by
  induction ds generalizing s with
  | nil => exact .refl _ s
  | cons d ds ih =>
    have first := returnAll_slotsGiven d q ids
    exact (first.mono fun e he => by simp [he]).trans ((ih (first.ids ids)).mono fun e he => List.mem_cons_of_mem _ he)

/-- Dies on which no slot is given keep their overflowed nodes. -/
theorem SlotsGiven.overflowed {dies : Nat → Prop} {s t : State} (h : SlotsGiven dies s t) {d : Nat} (q : Nat) (out : ¬ dies d) :
    ∃ f : Node → Node, overflowed t d q = (overflowed s d q).map f ∧ ∀ n ∈ overflowed s d q, f n = { n with posted := (f n).posted } := by
  obtain ⟨f, mf, hf⟩ := h.nodes
  refine ⟨f, ?_, fun n hn => ?_⟩
  · rw [Machine.overflowed, Machine.overflowed, mf, List.filter_map]
    refine congrArg _ (List.filter_congr fun n hn => ?_)
    obtain ⟨e, slot⟩ := hf n hn
    rw [Function.comp_apply, show (f n).die = n.die from (congrArg Node.die e : _), show (f n).queue = n.queue from (congrArg Node.queue e : _)]
    by_cases here : n.die = d
    · rw [slot (.inr (here ▸ out))]
    · rw [beq_false_of_ne here]
      rfl
  · obtain ⟨mem, is⟩ := List.mem_filter.mp hn
    simp only [Bool.and_eq_true, beq_iff_eq] at is
    obtain ⟨⟨die, -⟩, -⟩ := is
    obtain ⟨e, slot⟩ := hf n mem
    rw [e, slot (.inr (die ▸ out))]

/-- The free slots of a die depend on the slots of its nodes. -/
theorem freeSlot_congr {s t : State} {d : Nat} (same : ∀ k, slotTaken t d k = slotTaken s d k) (b : Bool) : freeSlot t d b = freeSlot s d b := by
  have first (n lo : Nat) : firstFree t d n lo = firstFree s d n lo := by
    induction n generalizing lo with
    | zero => rfl
    | succ n ih => rw [firstFree, firstFree, same, ih]
  rw [freeSlot, freeSlot, first, first]

/-- Dies on which no slot is given keep their free slots. -/
theorem SlotsGiven.freeSlot {dies : Nat → Prop} {s t : State} (h : SlotsGiven dies s t) {d : Nat} (out : ¬ dies d) (b : Bool) :
    freeSlot t d b = freeSlot s d b := by
  obtain ⟨f, mf, hf⟩ := h.nodes
  refine freeSlot_congr (fun k => ?_) b
  rw [slotTaken, slotTaken, mf, List.any_map]
  rw [Bool.eq_iff_iff]
  simp only [List.any_eq_true, Function.comp_apply]
  refine exists_congr fun n => and_congr_right fun hn => ?_
  obtain ⟨e, slot⟩ := hf n hn
  rw [show (f n).die = n.die from (congrArg Node.die e : _)]
  by_cases here : n.die = d
  · rw [slot (.inr (here ▸ out))]
  · rw [beq_false_of_ne here]
    simp

/-- The first overflowed node of a queue on a die takes the free slot (R324). -/
theorem returnAll_first {s : State} {d q k : Nat} {m : Node} {rest : List Node} (ids : NodeIds s) (o : overflowed s d q = m :: rest)
    (free : freeSlot s d (m.idx == 0xFFFF) = some k) :
    ∃ n, (returnAll s d q).findNode m.id = some n ∧ n = { m with slot := some k, posted := n.posted } := by
  have mem : m ∈ s.nodes := (List.mem_filter.mp (o ▸ List.mem_cons_self .. : m ∈ overflowed s d q)).1
  have given := giveSlot_slotsGiven (k := k) ids o
  have ids' := given.ids ids
  have now : (s.modNode m.id fun x => { x with slot := some k }).findNode m.id = some { m with slot := some k } := by
    rw [State.findNode_map (f := fun x => if x.id = m.id then { x with slot := some k } else x) rfl
      (fun x _ => by split <;> rfl), ids m mem]
    simp
  have whole : returnAll s d q = postAll (returnNodes d q rest.length (s.modNode m.id fun x => { x with slot := some k })) d := by
    rw [returnAll, o, List.length_cons, returnNodes, o]
    dsimp only
    rw [free]
  have later := (returnNodes_slotsGiven d q rest.length ids').trans ((postAll_posted _ d).slotsGiven _)
  rw [whole]
  exact later.findNode now (.inl (by simp))

/-- OVERFLOW_RETURN gives the first overflowed node of a queue on a die the free slot there. -/
theorem overflowReturn_first {q d k : Nat} {m : Node} {rest : List Node} {s : State} (hq : q < 1024) (hd : d < 4)
    (o : overflowed s d q = m :: rest) (free : freeSlot s d (m.idx == 0xFFFF) = some k) (ids : NodeIds s) :
    ∃ (t : State) (n : Node), exec (.overflowReturn q) s = .next t ∧ t.findNode m.id = some n ∧ n.slot = some k ∧ n.image = m.image ∧
      n.deps = m.deps ∧ n.st = m.st := by
  obtain ⟨before, after, split_⟩ := List.append_of_mem (List.mem_range.mpr hd)
  have nodup : (before ++ d :: after).Nodup := split_ ▸ List.nodup_range
  have out : d ∉ before := fun h => (List.nodup_append.mp nodup).2.2 d h d (List.mem_cons_self ..) rfl
  have first := returnAlls_slotsGiven q before ids
  obtain ⟨f, ou, ef⟩ := first.overflowed q out
  rw [o, List.map_cons] at ou
  have ex := ef m (o ▸ List.mem_cons_self ..)
  generalize f m = x at ou ex
  have xid : x.id = m.id := (congrArg Node.id ex : _)
  have freeu : freeSlot (before.foldl (fun s d => returnAll s d q) s) d (x.idx == 0xFFFF) = some k := by
    rw [first.freeSlot out, show x.idx = m.idx from (congrArg Node.idx ex : _), free]
  obtain ⟨y, found, ey⟩ := returnAll_first (first.ids ids) ou freeu
  have idsv := (returnAll_slotsGiven d q (first.ids ids)).ids (first.ids ids)
  obtain ⟨n, last, en⟩ := (returnAlls_slotsGiven q after idsv).findNode found (.inl (by rw [ey]; simp))
  refine ⟨_, n, if_neg (Nat.not_le.mpr hq), ?_, ?_, ?_, ?_, ?_⟩
  · rw [split_, List.foldl_append, List.foldl_cons, ← xid]
    exact last
  all_goals rw [en, ey, ex]

end Sys2Proof.Machine


/-! ## Machine family: a task's end, its successors and its graph (R27, R28) -/

namespace Sys2Proof.Machine

/-! ### Graphs that change under their identifiers -/

theorem State.findGraph_id {s : State} {k : Nat} {g : Graph} (h : s.findGraph k = some g) : g.id = k := by simpa using List.find?_some h

theorem State.findGraph_modGraph (s : State) (g k : Nat) {f : Graph → Graph} (keep : ∀ x, (f x).id = x.id) :
    (s.modGraph g f).findGraph k = (s.findGraph k).map fun x => if x.id = g then f x else x := by
  rw [State.findGraph, State.modGraph, List.find?_map]
  have same : ((fun x : Graph => x.id == k) ∘ fun x => if x.id = g then f x else x) = fun x => x.id == k := by
    funext x
    simp only [Function.comp_apply]
    split
    · rw [keep]
    · rfl
  rw [same]
  rfl

theorem State.findGraph_modGraph_self {s : State} {k : Nat} {g : Graph} {f : Graph → Graph} (h : s.findGraph k = some g)
    (keep : ∀ x, (f x).id = x.id) : (s.modGraph k f).findGraph k = some (f g) := by
  rw [State.findGraph_modGraph s k k keep, h]
  simp [State.findGraph_id h]

/-! ### A decrement -/

/-- What decrements leave of every node and graph. -/
structure DecKept (s t : State) : Prop where
  nodes : ∃ f : Node → Node, t.nodes = s.nodes.map f ∧ ∀ n, f n = { n with
    deps := (f n).deps, st := (f n).st, level := (f n).level, since := (f n).since, order := (f n).order, noPlace := (f n).noPlace
    claim := (f n).claim, assisted := (f n).assisted, posted := (f n).posted }
  graphs : ∀ k g, s.findGraph k = some g → ∃ h, t.findGraph k = some h ∧ h = { g with due := h.due }

namespace DecKept

theorem refl (s : State) : DecKept s s := ⟨⟨id, (List.map_id _).symm, fun _ => rfl⟩, fun _ g h => ⟨g, h, rfl⟩⟩

theorem trans {s t u : State} (a : DecKept s t) (b : DecKept t u) : DecKept s u where
  nodes := by
    obtain ⟨f, mf, hf⟩ := a.nodes
    obtain ⟨g, mg, hg⟩ := b.nodes
    refine ⟨g ∘ f, by rw [mg, mf, List.map_map], fun n => (hg (f n)).trans ?_⟩
    exact congrArg (fun x : Node => { x with
      deps := (g (f n)).deps, st := (g (f n)).st, level := (g (f n)).level, since := (g (f n)).since, order := (g (f n)).order
      noPlace := (g (f n)).noPlace, claim := (g (f n)).claim, assisted := (g (f n)).assisted, posted := (g (f n)).posted }) (hf n)
  graphs := fun k g found => by
    obtain ⟨h, fh, eh⟩ := a.graphs k g found
    obtain ⟨i, fi, ei⟩ := b.graphs k h fh
    exact ⟨i, fi, ei.trans (congrArg (fun x : Graph => { x with due := i.due }) eh)⟩

theorem ids {s t : State} (h : DecKept s t) (ids : NodeIds s) : NodeIds t := by
  obtain ⟨f, mf, hf⟩ := h.nodes
  exact ids.map mf fun n _ => (congrArg Node.id (hf n) : _)

/-- A node keeps its place in its graph. -/
theorem findNode {s t : State} (h : DecKept s t) {k : Nat} {n : Node} (found : s.findNode k = some n) :
    ∃ m, t.findNode k = some m ∧ m.graph = n.graph ∧ m.idx = n.idx ∧ m.image = n.image ∧ m.slot = n.slot := by
  obtain ⟨f, mf, hf⟩ := h.nodes
  refine ⟨f n, ?_, ?_⟩
  · rw [State.findNode_map mf fun n _ => (congrArg Node.id (hf n) : _), found]
    rfl
  · exact ⟨(congrArg Node.graph (hf n) : _), (congrArg Node.idx (hf n) : _), (congrArg Node.image (hf n) : _), (congrArg Node.slot (hf n) : _)⟩

theorem findNode_none {s t : State} (h : DecKept s t) {k : Nat} (none_ : s.findNode k = none) : t.findNode k = none := by
  obtain ⟨f, mf, hf⟩ := h.nodes
  rw [State.findNode_map mf fun n _ => (congrArg Node.id (hf n) : _), none_]
  rfl

end DecKept

theorem ReadyKept.decKept {s t : State} (h : ReadyKept s t) : DecKept s t where
  nodes := by
    obtain ⟨f, mf, hf⟩ := h.nodes
    exact ⟨f, mf, fun n => by rw [hf n]⟩
  graphs := fun k g found => by
    have graphs : t.graphs = s.graphs := (congrArg State.graphs h.rest : _)
    exact ⟨g, by rw [State.findGraph, graphs]; exact found, rfl⟩

/-- The node with an index in a graph. -/
def successor (s : State) (graph idx : Nat) : Option Node := s.nodes.find? fun n => n.graph == graph && n.idx == idx

/-- A decrement that comes before its record is read is kept with the graph. -/
theorem decrement_early {s : State} {graph idx : Nat} {g : Graph} (h : s.findGraph graph = some g) (early : g.next ≤ idx) :
    decrement s graph idx = if g.stopped then s else s.modGraph graph fun g => { g with due := g.due ++ [idx] } := by
  rw [decrement, h]
  exact if_pos early

theorem decrement_none {s : State} {graph idx : Nat} {g : Graph} (h : s.findGraph graph = some g) (read : idx < g.next)
    (no : ∀ n, successor s graph idx = some n → ¬ (n.st = .waiting ∧ n.deps ≠ 0)) : decrement s graph idx = s := by
  rw [decrement, h]
  refine (if_neg (Nat.not_le.mpr read)).trans ?_
  show (match successor s graph idx with | none => s | some n => _) = s
  split
  · rfl
  · next n found => exact if_neg (no n found)

/-- A node with one dependence fewer. -/
def lessOne (s : State) (n : Node) : State := s.modNode n.id fun x => { x with deps := x.deps - 1 }

theorem decrement_waits {s : State} {graph idx : Nat} {g : Graph} {n : Node} (h : s.findGraph graph = some g) (read : idx < g.next)
    (found : successor s graph idx = some n) (waits : n.st = .waiting ∧ n.deps ≠ 0) :
    decrement s graph idx = readyIfFree (lessOne s n) n.id := by
  rw [decrement, h]
  refine (if_neg (Nat.not_le.mpr read)).trans ?_
  show (match successor s graph idx with | none => s | some n => _) = _
  rw [found]
  exact if_pos waits

theorem lessOne_kept (s : State) (n : Node) : DecKept s (lessOne s n) where
  nodes := ⟨fun x => if x.id = n.id then { x with deps := x.deps - 1 } else x, rfl, fun x => by dsimp only; split <;> rfl⟩
  graphs := fun _ g h => ⟨g, h, rfl⟩

theorem decrement_kept {s : State} {graph : Nat} {g : Graph} (h : s.findGraph graph = some g) (idx : Nat) : DecKept s (decrement s graph idx) := by
  by_cases early : g.next ≤ idx
  · rw [decrement_early h early]
    split
    · exact .refl s
    · refine ⟨⟨id, (List.map_id _).symm, fun _ => rfl⟩, fun k x found => ?_⟩
      rw [State.findGraph_modGraph (f := fun g => { g with due := g.due ++ [idx] }) s graph k fun _ => rfl, found]
      refine ⟨_, rfl, ?_⟩
      dsimp only
      split <;> rfl
  · by_cases waits : ∃ n, successor s graph idx = some n ∧ n.st = .waiting ∧ n.deps ≠ 0
    · obtain ⟨n, found, w⟩ := waits
      rw [decrement_waits h (Nat.not_le.mp early) found w]
      exact (lessOne_kept s n).trans (readyIfFree_kept _ _).decKept
    · rw [decrement_none h (Nat.not_le.mp early) fun n found w => waits ⟨n, found, w⟩]
      exact .refl s

/-- The nodes that wait, seen from a node that a decrement names. -/
theorem decrement_hit {s : State} {graph idx : Nat} {g : Graph} {n : Node} (h : s.findGraph graph = some g) (read : idx < g.next)
    (found : successor s graph idx = some n) (waits : n.st = .waiting) (deps : n.deps ≠ 0) (self : s.findNode n.id = some n)
    (inner : recDeps n.image ≠ 0) :
    ∃ m, (decrement s graph idx).findNode n.id = some m ∧ m.deps = n.deps - 1 ∧ m.st = if n.deps = 1 then .ready else .waiting := by
  rw [decrement_waits h read found ⟨waits, deps⟩]
  have now : (lessOne s n).findNode n.id = some { n with deps := n.deps - 1 } := by
    rw [State.findNode_map (s := s) (f := fun x => if x.id = n.id then { x with deps := x.deps - 1 } else x) rfl
      (fun x _ => by split <;> rfl), self]
    simp
  by_cases one : n.deps = 1
  · have free : isFree (lessOne s n) { n with deps := n.deps - 1 } := by
      refine ⟨waits, by simp [one], ?_⟩
      unfold heldByOrder
      split
      · rfl
      · simp [inner]
    obtain ⟨m, fm, st, -, e⟩ := readyIfFree_ready now free
    refine ⟨m, fm, (congrArg Node.deps e : _), ?_⟩
    rw [st, if_pos one]
  · have held : ¬ isFree (lessOne s n) { n with deps := n.deps - 1 } := fun f => by
      have := f.2.1
      dsimp only at this
      omega
    rw [readyIfFree_held now held]
    refine ⟨_, now, rfl, ?_⟩
    rw [if_neg one]
    exact waits

/-- Every other node is at most posted. -/
theorem decrement_miss {s : State} {graph idx k : Nat} {g : Graph} {x : Node} (h : s.findGraph graph = some g) (found : s.findNode k = some x)
    (miss : ∀ n, successor s graph idx = some n → n.id ≠ k) :
    ∃ y, (decrement s graph idx).findNode k = some y ∧ y = { x with posted := y.posted } := by
  by_cases early : g.next ≤ idx
  · rw [decrement_early h early]
    split
    · exact ⟨x, found, rfl⟩
    · exact ⟨x, found, rfl⟩
  · by_cases waits : ∃ n, successor s graph idx = some n ∧ n.st = .waiting ∧ n.deps ≠ 0
    · obtain ⟨n, hit, w⟩ := waits
      rw [decrement_waits h (Nat.not_le.mp early) hit w]
      refine readyIfFree_other ?_ (miss n hit).symm
      rw [State.findNode_map (s := s) (t := lessOne s n) (f := fun x => if x.id = n.id then { x with deps := x.deps - 1 } else x) rfl
        (fun x _ => by split <;> rfl), found, Option.map_some, if_neg fun e => miss n hit (e.symm.trans (State.findNode_id found))]
    · rw [decrement_none h (Nat.not_le.mp early) fun n hit w => waits ⟨n, hit, w⟩]
      exact ⟨x, found, rfl⟩

/-! ### The decrements of a task's end -/

/-- The state when a waiting node `m` of a graph has been decremented `c` times. -/
structure Counted (m : Node) (s u : State) (c : Nat) : Prop where
  kept : DecKept s u
  node : ∃ x, u.findNode m.id = some x ∧ x.deps = m.deps - c ∧ x.st = if c = m.deps ∧ m.deps ≠ 0 then .ready else .waiting

/-- One node of a graph per index, but for spawned nodes. -/
def OneIndex (s : State) : Prop := ∀ m ∈ s.nodes, ∀ x ∈ s.nodes, m.graph = x.graph → m.idx = x.idx → m.idx ≠ 0xFFFF → m = x

/-- The node is the successor of its index. -/
theorem DecKept.successor_self {m : Node} {s u : State} (ids : NodeIds s) (mem : m ∈ s.nodes) (one : OneIndex s) (real : m.idx ≠ 0xFFFF)
     (kept : DecKept s u) {x : Node} (found : u.findNode m.id = some x) :
    successor u m.graph m.idx = some x := by
  obtain ⟨f, mf, hf⟩ := kept.nodes
  have first : s.nodes.find? (fun n => n.graph == m.graph && n.idx == m.idx) = some m := by
    obtain ⟨y, hy⟩ : ∃ y, s.nodes.find? (fun n => n.graph == m.graph && n.idx == m.idx) = some y :=
      Option.isSome_iff_exists.mp (List.find?_isSome.mpr ⟨m, mem, by simp⟩)
    have is := List.find?_some hy
    simp only [Bool.and_eq_true, beq_iff_eq] at is
    rw [hy, one m mem y (List.mem_of_find?_eq_some hy) is.1.symm is.2.symm real]
  have same : ((fun n : Node => n.graph == m.graph && n.idx == m.idx) ∘ f) = fun n : Node => n.graph == m.graph && n.idx == m.idx := by
    funext n
    rw [Function.comp_apply, show (f n).graph = n.graph from (congrArg Node.graph (hf n) : _),
      show (f n).idx = n.idx from (congrArg Node.idx (hf n) : _)]
  rw [State.findNode_map mf (fun n _ => (congrArg Node.id (hf n) : _)), ids m mem] at found
  rw [successor, mf, List.find?_map, same, first]
  exact found

section
variable {m : Node} {s : State} (ids : NodeIds s) (mem : m ∈ s.nodes) {g : Graph} (graph : s.findGraph m.graph = some g) (read : m.idx < g.next)
  (one : OneIndex s) (real : m.idx ≠ 0xFFFF) (inner : recDeps m.image ≠ 0)
include ids mem graph read one real inner

/-- A decrement counts for the node whose index it names. -/
theorem Counted.decrement {u : State} {c : Nat} (h : Counted m s u c) (idx : Nat) (enough : idx = m.idx → c < m.deps) :
    Counted m s (decrement u m.graph idx) (if idx = m.idx then c + 1 else c) := by
  obtain ⟨x, found, deps, st⟩ := h.node
  obtain ⟨h', fg, eg⟩ := h.kept.graphs _ g graph
  obtain ⟨y, fy, ygraph, yidx, yimage, -⟩ := h.kept.findNode (ids m mem)
  obtain rfl : x = y := Option.some.inj (found.symm.trans fy)
  have self := h.kept.successor_self ids mem one real found
  refine ⟨h.kept.trans (decrement_kept fg idx), ?_⟩
  by_cases hit : idx = m.idx
  · have lt := enough hit
    subst hit
    have xid := State.findNode_id found
    have next : m.idx < h'.next := by
      rw [show h'.next = g.next from (congrArg Graph.next eg : _)]
      exact read
    rw [if_neg (by omega)] at st
    obtain ⟨z, fz, dz, sz⟩ := decrement_hit fg next self st (by omega) (by rw [xid]; exact found) (by rw [yimage]; exact inner)
    rw [xid] at fz
    refine ⟨z, fz, ?_, ?_⟩
    · rw [if_pos rfl]
      omega
    · rw [if_pos rfl, sz]
      refine if_congr ?_ rfl rfl
      omega
  · rw [if_neg hit]
    obtain ⟨z, fz, ez⟩ := decrement_miss fg (idx := idx) found fun n hn e => by
      have nid := (h.kept.ids ids).eq (List.mem_of_find?_eq_some hn) (List.mem_of_find?_eq_some found) (e.trans (State.findNode_id found).symm)
      have is := List.find?_some hn
      simp only [Bool.and_eq_true, beq_iff_eq] at is
      rw [nid, yidx] at is
      exact hit is.2.symm
    refine ⟨z, fz, ?_, ?_⟩
    · rw [← deps]
      exact (congrArg Node.deps ez : _)
    · rw [← st]
      exact (congrArg Node.st ez : _)

/-- The decrements of a record count for a node once for each successor that names it. -/
theorem Counted.decrements (image : BitVec 512) (js : List Nat) {u : State} {c : Nat} (h : Counted m s u c)
    (enough : c + (js.filter fun j => recSucc image j = m.idx).length ≤ m.deps) :
    Counted m s (js.foldl (fun s j => if recSucc image j = 0xFFFF then s else Machine.decrement s m.graph (recSucc image j)) u)
      (c + (js.filter fun j => recSucc image j = m.idx).length) := by
  induction js generalizing u c with
  | nil => exact h
  | cons j js ih =>
    rw [List.foldl_cons]
    by_cases hit : recSucc image j = m.idx
    · rw [List.filter_cons_of_pos (by simpa using hit), List.length_cons] at enough ⊢
      have step := Counted.decrement ids mem graph read one real inner h (recSucc image j) fun _ => by omega
      rw [if_pos hit] at step
      rw [if_neg fun e => real (hit.symm.trans e), show ∀ k, c + (k + 1) = c + 1 + k by omega]
      exact ih step (by omega)
    · rw [List.filter_cons_of_neg (by simpa using hit)] at enough ⊢
      refine ih ?_ enough
      split
      · exact h
      · have step := Counted.decrement ids mem graph read one real inner h (recSucc image j) fun e => absurd e hit
        rwa [if_neg hit] at step
end

/-- The decrements of a record leave every graph but its early decrements. -/
theorem decrementAll_kept {s : State} {graph : Nat} {g : Graph} (h : s.findGraph graph = some g) (image : BitVec 512) :
    DecKept s (decrementAll s graph image) := by
  unfold decrementAll
  generalize List.range 4 = js
  suffices ∀ u, DecKept s u → DecKept s (js.foldl (fun s j => if recSucc image j = 0xFFFF then s else decrement s graph (recSucc image j)) u) from
    this s (.refl s)
  intro u
  induction js generalizing u with
  | nil => exact id
  | cons j js ih =>
    intro kept
    rw [List.foldl_cons]
    refine ih _ ?_
    split
    · exact kept
    · obtain ⟨h', fg, -⟩ := kept.graphs _ g h
      exact kept.trans (decrement_kept fg _)

/-- The state behind a node that has left. -/
def withoutNode (s : State) (n : Node) : State :=
  match n.spawner with
  | some g => ({ s with nodes := s.nodes.filter fun x => x.id != n.id }).progress g
  | none => { s with nodes := s.nodes.filter fun x => x.id != n.id }

theorem completeNode_eq (s : State) (n : Node) :
    completeNode s n = countDone (decrementAll (withoutNode s n) n.graph n.image) n.graph := rfl

theorem withoutNode_nodes (s : State) (n : Node) : (withoutNode s n).nodes = s.nodes.filter fun x => x.id != n.id := by
  unfold withoutNode
  split <;> rfl

theorem withoutNode_graphs (s : State) (n : Node) : (withoutNode s n).graphs = s.graphs := by
  unfold withoutNode
  split <;> rfl

theorem withoutNode_gone (s : State) (n : Node) : (withoutNode s n).findNode n.id = none := by
  rw [State.findNode, withoutNode_nodes]
  exact List.find?_eq_none.mpr fun x hx => by simpa using (List.mem_filter.mp hx).2

theorem withoutNode_findNode {s : State} {n : Node} {k : Nat} (ne : k ≠ n.id) : (withoutNode s n).findNode k = s.findNode k := by
  rw [State.findNode, withoutNode_nodes, State.findNode, List.find?_filter]
  congr 1
  funext x
  by_cases e : x.id = k
  · simp [e, ne]
  · simp [e]

theorem withoutNode_ids {s : State} (ids : NodeIds s) (n : Node) : NodeIds (withoutNode s n) := by
  intro m hm
  rw [withoutNode_nodes] at hm
  obtain ⟨hs, ne⟩ := List.mem_filter.mp hm
  rw [withoutNode_findNode (by simpa using ne)]
  exact ids m hs

/-- The end of a task (R27): the node leaves, its graph has one fewer left, and every successor that waits counts. -/
theorem taskCompletion_done {d k : Nat} {s : State} {n : Node} {f : Bool} {g : Graph} (hd : d < 4) (at_ : s.nodeAt d k = some n)
    (st : n.st = .done f) (found : s.findGraph n.graph = some g) (gid : g.id = n.graph) (ids : NodeIds s) (one : OneIndex s) :
    ∃ t : State, exec (.taskCompletion d k) s = .next t ∧ t.findNode n.id = none ∧
      (∃ h, t.findGraph g.id = some h ∧ h.left = g.left - 1 ∧ h.next = g.next) ∧
      ∀ m ∈ s.nodes, m.id ≠ n.id → m.graph = n.graph → m.st = .waiting → m.idx < g.next → m.idx ≠ 0xFFFF → recDeps m.image ≠ 0 →
        let k := ((List.range 4).filter fun j => recSucc n.image j = m.idx).length
        k ≤ m.deps → ∃ x, t.findNode m.id = some x ∧ x.deps = m.deps - k ∧
          (m.deps ≠ 0 → (x.st = .ready ↔ m.deps = k)) ∧ x.image = m.image ∧ x.slot = m.slot := by
  have foundw : (withoutNode s n).findGraph n.graph = some g := by
    rw [State.findGraph, withoutNode_graphs]
    exact found
  have kept := decrementAll_kept foundw n.image
  obtain ⟨h, fh, eh⟩ := kept.graphs _ g foundw
  have run : exec (.taskCompletion d k) s = .next (completeNode s n) := by
    show execTaskCompletion d k s = _
    unfold execTaskCompletion
    rw [if_neg (Nat.not_le.mpr hd), at_]
    dsimp only
    rw [st]
  refine ⟨_, run, kept.findNode_none (withoutNode_gone s n), ⟨{ h with left := h.left - 1 }, ?_, ?_, ?_⟩, ?_⟩
  · rw [completeNode_eq, gid, countDone]
    exact State.findGraph_modGraph_self fh fun _ => rfl
  · exact (congrArg (fun x : Graph => x.left - 1) eh : _)
  · exact (congrArg Graph.next eh : _)
  · intro m hm ne mgraph mst read real inner j enough
    have foundm : (withoutNode s n).findNode m.id = some m := (withoutNode_findNode ne).trans (ids m hm)
    have mem : m ∈ (withoutNode s n).nodes := List.mem_of_find?_eq_some foundm
    have one' : OneIndex (withoutNode s n) := by
      rw [OneIndex, withoutNode_nodes]
      exact fun a ha b hb => one a (List.mem_filter.mp ha).1 b (List.mem_filter.mp hb).1
    have start : Counted m (withoutNode s n) (withoutNode s n) 0 := ⟨.refl _, m, foundm, rfl, by rw [if_neg (by omega), mst]⟩
    obtain ⟨-, x, fx, dx, sx⟩ := Counted.decrements (withoutNode_ids ids n) mem (mgraph ▸ foundw) read one' real inner n.image (List.range 4) start
      (by rw [Nat.zero_add]; exact enough)
    obtain ⟨y, fy, -, -, image, slot⟩ := kept.findNode foundm
    rw [Nat.zero_add] at dx sx
    rw [mgraph] at fx
    obtain rfl : x = y := Option.some.inj (fx.symm.trans fy)
    refine ⟨x, fx, dx, fun deps => ?_, image, slot⟩
    rw [sx]
    by_cases all : j = m.deps
    · rw [if_pos ⟨all, deps⟩]
      exact iff_of_true rfl all.symm
    · rw [if_neg fun h => all h.1]
      exact iff_of_false (by simp) (Ne.symm all)

end Sys2Proof.Machine


/-! ## Machine family: a graph completes (R28) -/

namespace Sys2Proof.Machine

/-! ### A write at the home -/

theorem memWriteBytes_natBytes (m : List Host.Cell) (a v n : Nat) : memWriteBytes m a (natBytes v n) = memWrite m a n v := by
  induction n generalizing m a v with
  | zero => rfl
  | succ n ih => exact ih _ _ _

/-- With no checkpoint under way, a write at the home writes its bytes. -/
theorem homeWrite_mem {s : State} (ckpt : s.ckpt = none) (pa : Nat) (bs : List Byte) : (homeWrite s pa bs).mem = memWriteBytes s.mem pa bs := by
  have first (a : Nat) : copyFirst s a = s := by rw [copyFirst, ckpt]
  have pages : copyPages s pa bs.length = s := by
    unfold copyPages
    generalize List.range _ = ks
    induction ks with
    | nil => rfl
    | cons k ks ih => rw [List.foldl_cons, first, ih]
  have merged : (if placeOf pa = .device then (rangeMasks pa bs.length).foldl (fun s (x : Nat × BitVec 128) => mergeL2 s x.1 x.2) s else s).mem = s.mem := by
    split
    · refine foldl_same State.mem (fun u x => ?_) _ s
      obtain ⟨a, b, c, e⟩ := mergeL2_alike u x.1 x.2
      rw [e]
    · rfl
  have marked (u : State) (n : Nat) : (markWatched u pa n).mem = u.mem :=
    foldl_same State.mem (f := fun s (w : Watch) => markStale s w.core w.slot w.plan) (fun _ _ => rfl) _ u
  show (markWatched _ pa bs.length).mem = _
  rw [marked]
  show memWriteBytes (State.mem _) pa bs = _
  rw [pages, merged]

/-- The updates in transit that a write delivers, and the copies that it updates, change cores and their updates only. -/
theorem snoopAll_eq (s : State) (pa : Nat) (bs : List Byte) :
    snoopAll s pa bs = { s with cores := (snoopAll s pa bs).cores, snoops := (snoopAll s pa bs).snoops } := by
  have gone (xs : List Snoop) (u : State) : xs.foldl (fun s x => s.modCore x.core (snoopCore x.pa x.bytes)) u =
      { u with cores := (xs.foldl (fun s x => s.modCore x.core (snoopCore x.pa x.bytes)) u).cores } := by
    induction xs generalizing u with
    | nil => rfl
    | cons x xs ih => exact ih (u.modCore x.core (snoopCore x.pa x.bytes))
  have where_ (f : Snoop → Bool) : snoopWhere s f = { s with cores := (snoopWhere s f).cores, snoops := (snoopWhere s f).snoops } := by
    unfold snoopWhere
    split
    · dsimp only
      rw [gone]
    · rfl
  unfold snoopAll State.mapCores
  dsimp only
  rw [where_]

/-! ### The counter of a graph (R28, R347) -/

/-- What the increment of a counter in memory leaves. -/
theorem moveCounter_phys {s : State} (ckpt : s.ckpt = none) (die q pa kind : Nat) :
    ∃ t, MemKept s t ∧ t.mem = memWrite s.mem pa 8 (memRead s.mem pa 8 + 1) ∧
      ∃ cores snoops, moveCounter s die q (.phys pa kind) = { t with cores := cores, snoops := snoops } := by
  have kept := (reachHome_kept s pa die q false (staysHome kind) false .normal).trans (countRemote_kept _ pa die q true)
  have alike := (reachHome_alike s pa die q false (staysHome kind) false .normal).trans (countRemote_alike _ pa die q true)
  have whole : moveCounter s die q (.phys pa kind) =
      (fun u : State => if kind = 0 then snoopAll (homeWrite u pa (natBytes (memRead u.mem pa 8 + 1) 8)) pa (natBytes (memRead u.mem pa 8 + 1) 8)
        else homeWrite u pa (natBytes (memRead u.mem pa 8 + 1) 8))
      (countRemote (reachHome s pa die q false (staysHome kind) false .normal) pa die q true) := rfl
  generalize countRemote _ pa die q true = u at kept alike whole
  have mem : u.mem = s.mem := by
    obtain ⟨a, b, c, rfl⟩ := alike
    rfl
  have quiet : u.ckpt = none := by
    obtain ⟨a, b, c, rfl⟩ := alike
    exact ckpt
  refine ⟨_, kept.trans (homeWrite_kept u pa (natBytes (memRead u.mem pa 8 + 1) 8)), ?_, ?_⟩
  · rw [homeWrite_mem quiet, memWriteBytes_natBytes, mem]
  · rw [whole]
    dsimp only
    split
    · exact ⟨_, _, snoopAll_eq _ _ _⟩
    · exact ⟨_, _, rfl⟩

/-! ### The graphs that waited (R28) -/

/-- Where the host does not assist, nodes become ready without a post. -/
theorem readyIfFree_quiet {s : State} (assist : s.schedAssisted = false) (id : Nat) :
    readyIfFree s id = { s with nodes := (readyIfFree s id).nodes, fresh := (readyIfFree s id).fresh } := by
  unfold readyIfFree
  repeat' split
  · rw [makeReady_eq, assist]
    rfl
  · rfl
  · rfl

theorem wakeOrdered_quiet {s : State} (assist : s.schedAssisted = false) (q : Nat) :
    wakeOrdered s q = { s with nodes := (wakeOrdered s q).nodes, fresh := (wakeOrdered s q).fresh } := by
  unfold wakeOrdered
  generalize List.map _ _ = ids
  induction ids generalizing s with
  | nil => rfl
  | cons id ids ih =>
    rw [List.foldl_cons, readyIfFree_quiet assist id]
    exact ih (s := { s with nodes := (readyIfFree s id).nodes, fresh := (readyIfFree s id).fresh }) assist

/-- The state without a graph. -/
def withoutGraph (s : State) (id : Nat) : State := { s with graphs := s.graphs.filter fun x => x.id != id }

/-- The end of a graph, behind the increment of its counter. -/
theorem graphCompletion_run {id : Nat} {s t : State} {g : Graph} (found : s.findGraph id = some g) (left : g.left = 0)
    (moved : moveDone s g = t) (assist : t.schedAssisted = false) :
    ∃ u, exec (.graphCompletion id) s = .next u ∧ u.graphs = t.graphs.filter (·.id != id) ∧ u.mem = t.mem ∧ u.vlc = t.vlc ∧
      u.msix = t.msix ++ if g.irq then [(g.die, g.vec)] else [] := by
  have run : exec (.graphCompletion id) s =
      .next (wakeOrdered (withoutGraph (if g.irq then t.sendMsix g.die g.vec else t) id) g.queue) := by
    show execGraphCompletion id s = _
    unfold execGraphCompletion
    rw [found]
    dsimp only
    rw [if_neg (not_not.mpr left), moved]
    rfl
  have quiet := wakeOrdered_quiet (s := withoutGraph (if g.irq then t.sendMsix g.die g.vec else t) id) (by split <;> exact assist) g.queue
  refine ⟨_, run, ?_⟩
  rw [quiet]
  cases g.irq with
  | true => exact ⟨rfl, rfl, rfl, rfl⟩
  | false => exact ⟨rfl, rfl, rfl, (List.append_nil _).symm⟩

theorem graphCompletion_ends {id : Nat} {s : State} {g : Graph} (found : s.findGraph id = some g) (left : g.left = 0) (tables : TablesOk s)
    (ckpt : s.ckpt = none) (assist : s.schedAssisted = false) :
    (g.done = 0 → ∃ t : State, exec (.graphCompletion id) s = .next t ∧ t.graphs = s.graphs.filter (·.id != id) ∧
      t.mem = s.mem ∧ t.vlc = s.vlc ∧ t.msix = s.msix ++ if g.irq then [(g.die, g.vec)] else []) ∧
    (∀ pa kind, g.done ≠ 0 → access s (queueParty g.die g.queue) .counter g.done 8 .atomic = (s, .ok (.phys pa kind)) →
      ∃ t : State, exec (.graphCompletion id) s = .next t ∧ t.graphs = s.graphs.filter (·.id != id) ∧
        memRead t.mem pa 8 = (memRead s.mem pa 8 + 1) % 2 ^ 64 ∧ (∀ a, ¬ (pa ≤ a ∧ a < pa + 8) → memByte t.mem a = memByte s.mem a) ∧
        t.msix = s.msix ++ if g.irq then [(g.die, g.vec)] else []) := by
  obtain ⟨wf, -⟩ := tables
  refine ⟨fun none_ => ?_, fun pa kind done acc => ?_⟩
  · exact graphCompletion_run found left (if_pos none_) assist
  · obtain ⟨t, kept, mem, cores, snoops, moved⟩ := moveCounter_phys ckpt g.die g.queue pa kind
    have done' : moveDone s g = { t with cores := cores, snoops := snoops } := by
      rw [moveDone, if_neg done, acc]
      exact moved
    have quiet : t.schedAssisted = false := by rw [State.schedAssisted, kept.funcmode]; exact assist
    obtain ⟨u, run, graphs, umem, -, msix⟩ := graphCompletion_run found left done' quiet
    refine ⟨u, run, graphs.trans (congrArg (List.filter _) kept.graphs), ?_, fun a out => ?_, ?_⟩
    · rw [umem, show ({ t with cores := cores, snoops := snoops } : State).mem = t.mem from rfl, mem, memRead_write wf, show 256 ^ 8 = 2 ^ 64 from rfl]
    · rw [umem, show ({ t with cores := cores, snoops := snoops } : State).mem = t.mem from rfl, mem, memByte_write wf, if_neg out]
    · rw [msix]
      exact congrArg (· ++ _) ((congrArg State.msix kept.rest : _) : t.msix = s.msix)

end Sys2Proof.Machine


/-! ## Machine family: a node arrives in a slot (R321, R322, R332) -/

namespace Sys2Proof.Machine

theorem slotTaken_congr {s t : State} (h : t.nodes = s.nodes) (d k : Nat) : slotTaken t d k = slotTaken s d k := by rw [slotTaken, h, slotTaken]

theorem overflowed_congr {s t : State} (h : t.nodes = s.nodes) (d q : Nat) : overflowed t d q = overflowed s d q := by
  rw [overflowed, h, overflowed]

/-- The state with a node more. -/
def withNode (s : State) (n : Node) : State := { s with nodes := s.nodes ++ [n] }

/-- With no node of its queue overflowing, a node takes the free slot. -/
theorem arriveNode_slot {s : State} {n : Node} {k : Nat} {spawned : Bool} (is : (n.idx == 0xFFFF) = spawned)
    (none_ : overflowed s n.die n.queue = []) (free : freeSlot s n.die spawned = some k) :
    ∃ t, Posted s t ∧ arriveNode s n = (withNode t { n with slot := some k }, .slot) := by
  have posted := postAll_posted s n.die
  have given := posted.slotsGiven fun _ => False
  have still : overflowed (postAll s n.die) n.die n.queue = [] := by
    obtain ⟨f, e, -⟩ := given.overflowed n.queue (d := n.die) id
    rw [e, none_]
    rfl
  have whole : returnAll s n.die n.queue = postAll s n.die := by
    rw [returnAll, none_]
    rfl
  have chosen : arrivalSlot (postAll s n.die) n.die n.queue spawned = some k := by
    rw [arrivalSlot, still]
    exact (given.freeSlot id spawned).trans free
  refine ⟨_, posted, ?_⟩
  unfold arriveNode
  dsimp only
  rw [is, whole, chosen]
  rfl

/-- A node spawned into a free slot is one node more. -/
theorem spawnNode_more {s : State} (graph : Nat) {q die : Nat} (image : BitVec 512) (spawner hold : Option Nat)
    (none_ : overflowed s die q = []) (free : (freeSlot s die true).isSome = true) :
    ∃ w, spawnNode s graph q die image spawner hold = (w, .slot) ∧ w.nodes.length = s.nodes.length + 1 := by
  obtain ⟨k, hk⟩ := Option.isSome_iff_exists.mp free
  have free' : freeSlot { s with fresh := s.fresh + 1 } die true = some k :=
    (freeSlot_congr (s := s) (t := { s with fresh := s.fresh + 1 }) (fun j => slotTaken_congr rfl die j) true).trans hk
  have none' : overflowed { s with fresh := s.fresh + 1 } die q = [] := (overflowed_congr (s := s) rfl die q).trans none_
  generalize hn : newNode { s with fresh := s.fresh + 1 } s.fresh graph q die 0xFFFF image 0 spawner hold = n
  have idx : (n.idx == 0xFFFF) = true := by rw [← hn]; exact beq_self_eq_true _
  have die_ : n.die = die := by rw [← hn]; rfl
  have queue : n.queue = q := by rw [← hn]; rfl
  obtain ⟨t, posted, arrived⟩ := arriveNode_slot idx (by rw [die_, queue]; exact none') (by rw [die_]; exact free')
  have whole : spawnNode s graph q die image spawner hold = (readyIfFree ((withNode t { n with slot := some k }).modGraph graph fun g =>
      { g with left := g.left + 1 }) s.fresh, .slot) := by
    unfold spawnNode State.takeFresh
    dsimp only
    rw [hn, arrived]
  obtain ⟨f, -, mf⟩ := posted.nodes
  obtain ⟨g, mg, -⟩ := (readyIfFree_kept ((withNode t { n with slot := some k }).modGraph graph fun g =>
      { g with left := g.left + 1 }) s.fresh).nodes
  refine ⟨_, whole, ?_⟩
  rw [mg, List.length_map]
  show (t.nodes ++ [{ n with slot := some k }]).length = _
  rw [mf, List.length_append, List.length_map]
  rfl

theorem spawn_more {d a b : Fld} {s : State} {p : Dest} (al : (s.vlc.rx a).toNat % 64 = 0) (pal : p.pa % 64 = 0)
    (on : RunsOn s .load .read (s.vlc.rx a) 8 8 p) (tables : TablesOk s) (snoops : NoSnoops s s.vlc.core) (clean : s.poison = [])
    (open_ : s.isFenced (coreDie s.vlc.core) 7 0 = false)
    (trap : spawnTrap s (((s.findNode s.gang.node).map (·.graph)).getD s.fresh)
      (spawnImage (BitVec.ofNat 512 (seen s s.vlc.core p 64)) (s.vlc.rx b)) = none)
    (none_ : overflowed s (coreDie s.vlc.core) s.gang.queue = []) (free : (freeSlot s (coreDie s.vlc.core) true).isSome = true) :
    ∃ u : State, exec (.spawn d a b) s = .next { u with vlc := (u.vlc.wx d 1).next } ∧ u.nodes.length = s.nodes.length + 1 := by
  obtain ⟨u, hold, unodes, -, -, -, -, -, -, run⟩ := spawn_released al pal on tables snoops clean open_ trap
  obtain ⟨w, put, length⟩ := spawnNode_more (s := u) (((s.findNode s.gang.node).map (·.graph)).getD s.fresh)
    (spawnImage (BitVec.ofNat 512 (seen s s.vlc.core p 64)) (s.vlc.rx b)) (some s.vlc.gang) hold
    ((overflowed_congr unodes _ _).trans none_) ((congrArg Option.isSome (freeSlot_congr (fun k => slotTaken_congr unodes _ k) _)).trans free)
  exact ⟨w, run w put, length.trans (congrArg (·.length + 1) unodes)⟩

end Sys2Proof.Machine


/-! ## Machine family: reading the records of a graph (R321, R369) -/

namespace Sys2Proof.Machine

/-! ### A record of Landau (R369) -/

/-- The words of a fault record of no VLC that name its code and its source. -/
theorem faultRecord_low (f : FaultInfo) (plain : f.vec = false) (tenant producer : BitVec 12) (idx src : Nat) :
    ∃ x, faultRecord f 0 0 tenant 0 0 producer idx src false 0 = BitVec.ofNat 1024 (f.code.toNat * 2 ^ 32 + src * 2 ^ 60 + 2 ^ 64 * x) := by
  have high (m : Nat) {k : Nat} (h : 64 ≤ k) : 2 ^ 64 ∣ m * 2 ^ k := Dvd.dvd.mul_left (Nat.pow_dvd_pow 2 h) m
  obtain ⟨x, e⟩ : 2 ^ 64 ∣ idx % 65536 * 2 ^ 64 + (producer.toNat * 2 ^ 80 + (0 % 4 * 2 ^ 92 + (coreIdent 0 * 2 ^ 94 + (tenant.toNat * 2 ^ 104 +
      ((0 : Word).toNat * 2 ^ 128 + (0 % 8192 * 2 ^ 192 + (field f.pc.toNat 0 56 * 2 ^ 256 + (f.va.toNat * 2 ^ 320 +
      (f.info.toNat * 2 ^ 384 + (0 : BitVec 512).toNat * 2 ^ 512))))))))) := by
    exact (high _ (by decide)).add ((high _ (by decide)).add ((high _ (by decide)).add ((high _ (by decide)).add ((high _ (by decide)).add
      ((high _ (by decide)).add ((high _ (by decide)).add ((high _ (by decide)).add ((high _ (by decide)).add ((high _ (by decide)).add
      (high _ (by decide)))))))))))
  refine ⟨x, congrArg (BitVec.ofNat 1024) ?_⟩
  rw [← e, plain]
  simp only [Bool.false_eq_true, if_false, Nat.add_zero, Nat.add_assoc]

/-- A field of a record in its first 64 bits, below the bits that posting sets. -/
theorem recordField {a x m lo len : Nat} (small : a < 2 ^ 63) (hm : m < 2 ^ 32) (h32 : 32 ≤ lo) (h63 : lo + len ≤ 63) :
    ((BitVec.ofNat 1024 (a + 2 ^ 64 * x) ||| BitVec.ofNat 1024 (m + 2 ^ 63)).extractLsb' lo len) = BitVec.ofNat len (a / 2 ^ lo) := by
  apply BitVec.eq_of_getLsbD_eq
  intro i hi
  have up : lo + i < 1024 := by omega
  simp only [BitVec.getLsbD_extractLsb', BitVec.getLsbD_or, BitVec.getLsbD_ofNat, hi, up, decide_true, Bool.true_and, Nat.testBit_div_two_pow]
  rw [Nat.add_comm a, Nat.add_comm m, Nat.testBit_two_pow_mul_add x (by omega), if_pos (by omega),
    Nat.testBit_two_pow_add_gt (by omega), Nat.testBit_lt_two_pow (Nat.lt_of_lt_of_le hm (Nat.pow_le_pow_right (by decide) (by omega))),
    Bool.or_false, Nat.add_comm]

theorem postRecord_recorded (s : State) (q src : Nat) (producer : BitVec 12) (idx : Nat) (code : BitVec 8) (info : Nat) (va : Word)
    (h : src < 8) : Recorded (postRecord s q src producer idx code info va) q code src := by
  obtain ⟨x, e⟩ := faultRecord_low ⟨code, false, BitVec.ofNat 56 va.toNat, 0, BitVec.ofNat 64 info⟩ rfl (s.queue q).tenant producer idx src
  have small : code.toNat * 2 ^ 32 + src * 2 ^ 60 < 2 ^ 63 := by
    have := code.isLt
    omega
  have low : (s.queue q).seq % 2 ^ 32 < 2 ^ 32 := Nat.mod_lt _ (by decide)
  refine ⟨_, List.mem_append_right _ (List.mem_singleton_self _), rfl, ?_, ?_, ?_, rfl⟩
  · dsimp only
    rw [e, recordField small low (by decide) (by decide), Nat.add_div_of_dvd_right (Dvd.intro_left _ rfl), Nat.mul_div_cancel _ (by decide)]
    apply BitVec.eq_of_toNat_eq
    have := code.isLt
    rw [BitVec.toNat_ofNat]
    omega
  · dsimp only
    rw [e, recordField small low (by decide) (by decide)]
    congr 1
    have := code.isLt
    omega
  · dsimp only
    rw [e, BitVec.getLsbD_or, BitVec.getLsbD_ofNat (x := _ + 2 ^ 63)]
    have bit : ((s.queue q).seq % 2 ^ 32 + 2 ^ 63).testBit 63 = true := by
      rw [Nat.add_comm, Nat.testBit_two_pow_add_eq, Nat.testBit_lt_two_pow (Nat.lt_of_lt_of_le low (by decide))]
      rfl
    rw [bit]
    simp

/-! ### NODE_RECORD_READ (R321) -/

theorem nodeRecordRead_reads {d : Nat} {s : State} {g : Graph} (hd : d < 4) (up : landauUp s d = true) (reading : readingGraph s d = some g) :
    exec (.nodeRecordRead d) s = .next (readRecord s g) := by
  show execNodeRecordRead d s = _
  unfold execNodeRecordRead
  rw [if_neg (Nat.not_le.mpr hd), up, if_neg (by simp), reading]

/-- The graph that is read stands on the die and has records left. -/
theorem readingGraph_some {d : Nat} {s : State} {g : Graph} (h : readingGraph s d = some g) : g ∈ s.graphs ∧ g.die = d ∧ g.next < g.nodes := by
  have is := List.find?_some h
  simp only [Bool.and_eq_true, beq_iff_eq, decide_eq_true_eq] at is
  exact ⟨List.mem_of_find?_eq_some h, is.1, is.2⟩

/-- A graph that is alone with its identifier is found. -/
theorem findGraph_only {s : State} {g : Graph} (mem : g ∈ s.graphs) (only : ∀ h ∈ s.graphs, h.id = g.id → h = g) : s.findGraph g.id = some g := by
  cases found : s.findGraph g.id with
  | none => exact absurd (List.find?_eq_none.mp found g mem) (by simp)
  | some h => rw [only h (List.mem_of_find?_eq_some found) (State.findGraph_id found)]

/-- The node of a record that has been read. -/
def recordNode (s : State) (g : Graph) (r : BitVec 512) : Node :=
  newNode { s with fresh := s.fresh + 1 } s.fresh g.id g.queue g.die g.next r (recDeps r - g.due.count g.next) none none

theorem readRecord_arrives {s u t : State} {g : Graph} {ws : List Word} (go : g.stopped = false)
    (read : readHomeDwords s (queueParty g.die g.queue) (g.base + BitVec.ofNat 64 (64 * g.next)) 8 = (u, .ok ws))
    (ok : recordRefused (record512 ws) g.nodes = none)
    (put : arriveNode { u with fresh := u.fresh + 1 } (recordNode u g (record512 ws)) = (t, .slot)) :
    readRecord s g = readyIfFree (advanceGraph t g) u.fresh := by
  unfold readRecord State.takeFresh
  rw [go, if_neg Bool.false_ne_true, read]
  dsimp only
  rw [ok]
  dsimp only
  rw [recordNode] at put
  rw [put]

theorem readRecord_refused {s u : State} {g : Graph} {ws : List Word} (go : g.stopped = false)
    (read : readHomeDwords s (queueParty g.die g.queue) (g.base + BitVec.ofNat 64 (64 * g.next)) 8 = (u, .ok ws))
    (bad : recordRefused (record512 ws) g.nodes = some .queue) :
    readRecord s g = refuseRecord u g (some (record512 ws)) fcQUEUE 8 := by
  unfold readRecord
  rw [go, if_neg Bool.false_ne_true, read]
  dsimp only
  rw [bad]

/-- A record that names no successor fails without a decrement. -/
theorem refuseRecord_lone {s : State} {g : Graph} {r : BitVec 512} (lone : ∀ j, j < 4 → g.nodes ≤ recSucc r j) (code : BitVec 8) (info : Nat) :
    refuseRecord s g (some r) code info = countDone (advanceGraph (postIndex s g g.next code info) g) g.id := by
  have still (js : List Nat) (h : ∀ j ∈ js, j < 4) (u : State) :
      js.foldl (fun s j => if recSucc r j < g.nodes then decrement s g.id (recSucc r j) else s) u = u := by
    induction js with
    | nil => rfl
    | cons j js ih =>
      rw [List.foldl_cons, if_neg (Nat.not_lt.mpr (lone j (h j (List.mem_cons_self ..))))]
      exact ih fun i hi => h i (List.mem_cons_of_mem _ hi)
  unfold refuseRecord
  dsimp only
  rw [still _ fun j hj => List.mem_range.mp hj]

/-- The device when a graph's record has arrived as a node. -/
theorem arrived_ready {t : State} {g : Graph} {m : Node} (others : ∀ n ∈ t.nodes, n.id ≠ m.id) (found : t.findGraph g.id = some g)
    (graph : m.graph = g.id) (st : m.st = .waiting) : ∃ n, (readyIfFree (advanceGraph (withNode t m) g) m.id).findNode m.id = some n ∧
      n = { m with
        st := n.st, level := n.level, since := n.since, order := n.order, noPlace := n.noPlace, claim := n.claim
        assisted := n.assisted, posted := n.posted } ∧
      (n.deps ≠ 0 → n.st = .waiting) ∧ (n.deps = 0 → g.ord = false → n.st = .ready ∧ n.level = (t.queue m.queue).pri) ∧
      (readyIfFree (advanceGraph (withNode t m) g) m.id).findGraph g.id = some { g with next := g.next + 1 } := by
  have foundm : (advanceGraph (withNode t m) g).findNode m.id = some m := find_last rfl others
  have foundg : (advanceGraph (withNode t m) g).findGraph g.id = some { g with next := g.next + 1 } :=
    State.findGraph_modGraph_self (s := withNode t m) found fun _ => rfl
  have graphs : (readyIfFree (advanceGraph (withNode t m) g) m.id).findGraph g.id = some { g with next := g.next + 1 } := by
    have same : (readyIfFree (advanceGraph (withNode t m) g) m.id).graphs = (advanceGraph (withNode t m) g).graphs :=
      (congrArg State.graphs (readyIfFree_kept _ _).rest : _)
    rw [State.findGraph, same]
    exact foundg
  by_cases free : isFree (advanceGraph (withNode t m) g) m
  · obtain ⟨n, fn, ready, level, e⟩ := readyIfFree_ready foundm free
    exact ⟨n, fn, e, fun h => absurd ((congrArg Node.deps e : _) : n.deps = m.deps) (by rw [free.2.1]; exact h), fun _ _ => ⟨ready, level⟩, graphs⟩
  · refine ⟨m, by rw [readyIfFree_held foundm free]; exact foundm, rfl, fun _ => st, fun deps ord => absurd ⟨st, deps, ?_⟩ free, graphs⟩
    rw [heldByOrder, graph, foundg]
    dsimp only
    rw [ord]
    rfl

section
variable {d : Nat} {s u : State} {g : Graph} {ws : List Word} (hd : d < 4) (up : landauUp s d = true) (reading : readingGraph s d = some g)
  (go : g.stopped = false) (only : ∀ h ∈ s.graphs, h.id = g.id → h = g)
  (read : readHomeDwords s (queueParty d g.queue) (g.base + BitVec.ofNat 64 (64 * g.next)) 8 = (u, .ok ws))
include hd up reading go only read

/-- A record whose checks pass becomes a node in the free slot (R321, R322). -/
theorem nodeRecordRead_slot {k : Nat} (few : g.nodes ≤ 65535) (ids : ∀ n ∈ s.nodes, n.id < s.fresh)
    (ok : recordRefused (record512 ws) g.nodes = none) (none_ : overflowed u d g.queue = []) (free : freeSlot u d false = some k) :
    ∃ (t : State) (n : Node), exec (.nodeRecordRead d) s = .next t ∧ t.findNode s.fresh = some n ∧ n.slot = some k ∧ n.image = record512 ws ∧
      n.idx = g.next ∧ n.graph = g.id ∧ n.queue = g.queue ∧ n.die = d ∧
      n.deps = ((record512 ws).extractLsb' 32 16).toNat - g.due.count g.next ∧
      (n.deps ≠ 0 → n.st = .waiting) ∧ (n.deps = 0 → g.ord = false → n.st = .ready ∧ n.level = (s.queue g.queue).pri) ∧
      t.findGraph g.id = some { g with next := g.next + 1 } := by
  obtain ⟨mem, die, next⟩ := readingGraph_some reading
  subst die
  have kept : MemKept s u := by
    have h := readHomeDwords_kept (queueParty g.die g.queue) 8 s (g.base + BitVec.ofNat 64 (64 * g.next))
    rwa [read] at h
  have idx : ((recordNode u g (record512 ws)).idx == 0xFFFF) = false := beq_false_of_ne (by show g.next ≠ _; omega)
  obtain ⟨t, posted, put⟩ := arriveNode_slot (s := { u with fresh := u.fresh + 1 }) idx none_
    ((freeSlot_congr (s := u) (t := { u with fresh := u.fresh + 1 }) (fun j => slotTaken_congr rfl g.die j) false).trans free)
  have run := (nodeRecordRead_reads hd up reading).trans (congrArg _ (readRecord_arrives go read ok put))
  have others : ∀ n ∈ t.nodes, n.id ≠ u.fresh := by
    obtain ⟨f, hf, mf⟩ := posted.nodes
    rw [mf]
    intro n hn
    obtain ⟨x, hx, rfl⟩ := List.mem_map.mp hn
    rw [show (f x).id = x.id from (congrArg Node.id (hf x) : _), kept.fresh]
    exact Nat.ne_of_lt (ids x (kept.nodes ▸ hx))
  have found : t.findGraph g.id = some g := by
    rw [State.findGraph, show t.graphs = s.graphs from ((congrArg State.graphs posted.rest : _) : t.graphs = u.graphs).trans kept.graphs]
    exact findGraph_only mem only
  obtain ⟨n, fn, e, waits, ready, graph⟩ := arrived_ready (m := { recordNode u g (record512 ws) with slot := some k }) others found rfl rfl
  have level : t.queue g.queue = s.queue g.queue := by
    rw [State.queue, show t.queues = s.queues from ((congrArg State.queues posted.rest : _) : t.queues = u.queues).trans kept.queues]
    rfl
  refine ⟨_, n, run, kept.fresh ▸ fn, (congrArg Node.slot e : _), (congrArg Node.image e : _), (congrArg Node.idx e : _),
    (congrArg Node.graph e : _), (congrArg Node.queue e : _), (congrArg Node.die e : _), ?_, waits, fun h o => ?_, graph⟩
  · rw [BitVec.extractLsb'_toNat, Nat.shiftRight_eq_div_pow]
    exact (congrArg Node.deps e : _)
  · rw [← level]
    exact ready h o

/-- A record that a rule refuses is reported to the host, and its graph goes on (R321). -/
theorem nodeRecordRead_refused (bad : recordRefused (record512 ws) g.nodes = some .queue) (lone : ∀ j, j < 4 → recSucc (record512 ws) j = 0xFFFF)
    (few : g.nodes < 65535) : ∃ t : State, exec (.nodeRecordRead d) s = .next t ∧ t.nodes = u.nodes ∧ Recorded t g.queue 0x41 2 ∧
      t.findGraph g.id = some { g with next := g.next + 1, left := g.left - 1 } := by
  obtain ⟨mem, die, -⟩ := readingGraph_some reading
  subst die
  have kept : MemKept s u := by
    have h := readHomeDwords_kept (queueParty g.die g.queue) 8 s (g.base + BitVec.ofNat 64 (64 * g.next))
    rwa [read] at h
  have run := (nodeRecordRead_reads hd up reading).trans (congrArg _ ((readRecord_refused go read bad).trans
    (refuseRecord_lone (fun j hj => by rw [lone j hj]; omega) fcQUEUE 8)))
  have found : (postIndex u g g.next fcQUEUE 8).findGraph g.id = some g := by
    show u.graphs.find? _ = _
    rw [kept.graphs]
    exact findGraph_only mem only
  have next := State.findGraph_modGraph_self (f := fun x => { x with next := x.next + 1 }) found fun _ => rfl
  refine ⟨_, run, rfl, ?_, ?_⟩
  · exact postRecord_recorded u g.queue 2 (landauProducer g.die) g.next fcQUEUE 8 0 (by decide)
  · exact State.findGraph_modGraph_self (f := fun x => { x with left := x.left - 1 }) next fun _ => rfl
end

end Sys2Proof.Machine


/-! ## Machine family: the place of a gang (R18, R21 to R23) -/

namespace Sys2Proof.Machine

/-! ### What placing a gang leaves of the device -/

theorem flushCore_kept (s : State) (core : Nat) : MemKept s (flushCore s core) :=
  ((deliverWhere_kept s fun w => w.core == core).trans (.foldl (fun s l => writeBack_kept s core l) _ _)).trans
    (.modCore (f := fun c => { c with l1 := [] }) core)

theorem flushCluster_kept (s : State) (d cl : Nat) : MemKept s (flushCluster s d cl) := .foldl (fun s _ => flushCore_kept s _) _ _

/-- VLCs that keep their places answer for the same ones. -/
theorem forall₂_find {as bs : List Vlc} (h : List.Forall₂ VlcKept as bs) (p : Vlc → Bool) (same : ∀ v w, VlcKept v w → p w = p v) :
    (bs.find? p).isNone = (as.find? p).isNone := by
  induction h with
  | nil => rfl
  | cons k _ ih =>
    rw [List.find?_cons, List.find?_cons, same _ _ k]
    split
    · rfl
    · exact ih

/-- Memory leaves the free places of a core. -/
theorem MemKept.freeSlots {s t : State} (h : MemKept s t) (core : Nat) : freeSlots t core = freeSlots s core := by
  refine List.filter_congr fun k _ => ?_
  refine forall₂_find (List.Forall₂.cons h.vlc h.others) _ fun v w kept => ?_
  have core_ : w.core = v.core := kept.core
  have slot : w.slot = v.slot := (congrArg Vlc.slot kept.rest : _)
  rw [core_, slot]
  obtain e | ⟨x, e, f⟩ := kept.status
  · rw [e]
  · rw [e, f]
    rfl

/-! ### The lowest cluster and its lowest cores (R23) -/

/-- The first number of a range that answers. -/
theorem findSome?_range {α : Type} {f : Nat → Option α} {n : Nat} {b : α} (h : (List.range n).findSome? f = some b) :
    ∃ a, a < n ∧ f a = some b ∧ ∀ j, j < a → f j = none := by
  induction n with
  | zero => exact absurd h (by simp)
  | succ n ih =>
    rw [List.range_succ, List.findSome?_append] at h
    cases first : (List.range n).findSome? f with
    | some c =>
      rw [first] at h
      obtain ⟨a, lt, fa, none_⟩ := ih (first.trans h)
      exact ⟨a, Nat.lt_succ_of_lt lt, fa, none_⟩
    | none =>
      rw [first, Option.none_or] at h
      refine ⟨n, Nat.lt_succ_self n, ?_, fun j hj => List.findSome?_eq_none_iff.mp first j (List.mem_range.mpr hj)⟩
      cases fn : f n with
      | none => simp [fn] at h
      | some c => simpa [fn] using h

theorem clusterPlace_some {s : State} {d cl q : Nat} {sh : BitVec 18} {xs : List (Nat × Nat)} (h : clusterPlace s d cl q sh = some xs) :
    xs = (fittingCores s d cl q sh).take (shapeCores sh) ∧ xs.length = shapeCores sh := by
  unfold clusterPlace at h
  dsimp only at h
  split at h
  · exact absurd h (by simp)
  · next enough =>
    obtain rfl := Option.some.inj h
    exact ⟨rfl, List.length_take_of_le (Nat.not_lt.mp enough)⟩

theorem diePlace_some {s : State} {d q cl : Nat} {sh : BitVec 18} {xs : List (Nat × Nat)} (h : diePlace s d q sh = some (cl, xs)) :
    cl < 18 ∧ inMask s q d cl = true ∧ clusterPlace s d cl q sh = some xs ∧
      ∀ c, c < cl → inMask s q d c = true → (fittingCores s d c q sh).length < shapeCores sh := by
  obtain ⟨a, lt, fa, before⟩ := findSome?_range h
  split at fa
  · next mask =>
    obtain ⟨ys, place, e⟩ := Option.map_eq_some_iff.mp fa
    obtain ⟨rfl, rfl⟩ := Prod.mk.inj e
    refine ⟨lt, mask, place, fun c hc mc => ?_⟩
    have no := before c hc
    rw [if_pos mc, Option.map_eq_none_iff, clusterPlace] at no
    split at no
    · assumption
    · exact absurd no (by simp)
  · exact absurd fa (by simp)

/-- A cluster is closed to a shape, or its cores that fit stand in ascending order. -/
theorem fittingCores_cases (s : State) (d cl q : Nat) (sh : BitVec 18) : fittingCores s d cl q sh = [] ∨
    fittingCores s d cl q sh = (List.range 8).filterMap fun c =>
      (coreFits s q sh (d * 144 + cl * 8 + c)).map fun b => (d * 144 + cl * 8 + c, b) := ite_eq_or_eq ..

/-- The core of every entry, and every core that fits where any does. -/
theorem mem_fittingCores {s : State} {d cl q : Nat} {sh : BitVec 18} {x : Nat × Nat} (h : x ∈ fittingCores s d cl q sh) :
    (∃ k, k < 8 ∧ x.1 = d * 144 + cl * 8 + k) ∧ coreFits s q sh x.1 = some x.2 ∧
      ∀ k b, k < 8 → coreFits s q sh (d * 144 + cl * 8 + k) = some b → (d * 144 + cl * 8 + k, b) ∈ fittingCores s d cl q sh := by
  obtain closed | fit := fittingCores_cases s d cl q sh
  · rw [closed] at h
    exact absurd h (by simp)
  · rw [fit] at h ⊢
    obtain ⟨k, hk, e⟩ := List.mem_filterMap.mp h
    obtain ⟨b, fits, rfl⟩ := Option.map_eq_some_iff.mp e
    refine ⟨⟨k, List.mem_range.mp hk, rfl⟩, fits, fun j b hj fb => List.mem_filterMap.mpr ⟨j, List.mem_range.mpr hj, ?_⟩⟩
    rw [fb]
    rfl

theorem fittingCores_ascend (s : State) (d cl q : Nat) (sh : BitVec 18) : (fittingCores s d cl q sh).Pairwise fun x y => x.1 < y.1 := by
  obtain closed | fit := fittingCores_cases s d cl q sh
  · rw [closed]
    exact List.Pairwise.nil
  · rw [fit]
    refine List.Pairwise.filterMap _ (fun a b lt x hx y hy => ?_) List.pairwise_lt_range
    obtain ⟨p, -, rfl⟩ := Option.map_eq_some_iff.mp hx
    obtain ⟨r, -, rfl⟩ := Option.map_eq_some_iff.mp hy
    exact Nat.add_lt_add_left lt _

/-- A core that fits and lies below a core that is taken is taken. -/
theorem clusterPlace_lowest {s : State} {d cl q : Nat} {sh : BitVec 18} {xs : List (Nat × Nat)} (h : clusterPlace s d cl q sh = some xs)
    {c e : Nat} (hc : c ∈ xs.map (·.1)) (lo : d * 144 + cl * 8 ≤ e) (lt : e < c) (fits : (coreFits s q sh e).isSome = true) :
    e ∈ xs.map (·.1) := by
  obtain ⟨rfl, -⟩ := clusterPlace_some h
  obtain ⟨x, hx, rfl⟩ := List.mem_map.mp hc
  obtain ⟨⟨k, hk, xk⟩, -, all⟩ := mem_fittingCores (List.mem_of_mem_take hx)
  obtain ⟨b, fb⟩ := Option.isSome_iff_exists.mp fits
  obtain ⟨j, rfl⟩ := Nat.exists_eq_add_of_le lo
  have there := all j b (by omega) fb
  rw [← List.take_append_drop (shapeCores sh) (fittingCores s d cl q sh), List.mem_append] at there
  obtain taken | left := there
  · exact List.mem_map.mpr ⟨_, taken, rfl⟩
  · have ordered := fittingCores_ascend s d cl q sh
    rw [← List.take_append_drop (shapeCores sh) (fittingCores s d cl q sh), List.pairwise_append] at ordered
    exact absurd (ordered.2.2 x hx _ left) (by dsimp only; omega)

/-! ### A new gang (R18) -/

/-- The state in which the members of a new gang are made: a cluster that fuses is flushed, and Landau has counted the gang. -/
def preparedFor (s : State) (n : Node) (d cl : Nat) : State :=
  (if shapeFused (recShape n.image) then flushCluster { s with fresh := s.fresh + 1 } d cl else { s with fresh := s.fresh + 1 }).modLandau n.die
    fun l => { l with serial := l.serial + 1 }

/-- The argument of a gang's members: its record's, or for a root without one its graph's. -/
def gangArg (s : State) (n : Node) : Word :=
  if recArg n.image = 0 ∧ (recDeps n.image == 0 && n.idx != 0xFFFF) = true then ((s.findGraph n.graph).map (·.arg)).getD 0
  else BitVec.ofNat 64 (recArg n.image)

/-- The members of a new gang. -/
def newMembers (s : State) (id : Nat) (n : Node) (cores : List Nat) : List Vlc :=
  let places := memberPlaces s cores (shapeContexts (recShape n.image))
  (places.zip (List.range places.length)).map fun p =>
    newVlc s id p.2 places.length (BitVec.ofNat 64 (recP n.image 0)) (gangArg s n) p.1

/-- The new gang of a node. -/
def newGang (s : State) (n : Node) (d cl : Nat) (xs : List (Nat × Nat)) : Gang :=
  let t := preparedFor s n d cl
  { Gang.blank with
    id := s.fresh
    node := n.id
    queue := n.queue
    die := d
    cluster := cl
    cores := xs.map (·.1)
    lsBase := xs.map (·.2)
    tenant := (s.queue n.queue).tenant
    gangid := BitVec.ofNat 64 ((t.landauOf n.die).serial.toNat + n.queue * 2 ^ 32 + n.die * 2 ^ 42)
    shape := recShape n.image
    firmware := Config.firmwareQueue n.queue
    members := (memberPlaces t (xs.map (·.1)) (shapeContexts (recShape n.image))).length
    st := .loading }

theorem placeNew_eq (s : State) (n : Node) (d cl : Nat) (xs : List (Nat × Nat)) : placeNew s n d cl xs =
    (fun u : State => { u with
      others := u.others ++ newMembers (preparedFor s n d cl) s.fresh n (xs.map (·.1))
      gangs := u.gangs ++ [newGang s n d cl xs] })
    (xs.foldl (fun u x => takeCore u s.fresh (s.queue n.queue).tenant (recShape n.image) x) (preparedFor s n d cl)) := rfl

/-- The gang and the members of a node that is placed for the first time. -/
theorem placeNode_new {s : State} {n : Node} {d cl : Nat} {xs : List (Nat × Nat)} (first : ∀ g ∈ s.gangs, g.node ≠ n.id) :
    ∃ u : State, u.vlc = s.vlc ∧ u.others = s.others ∧ u.cores = s.cores ∧ u.gangs = s.gangs ∧ u.queues = s.queues ∧ u.fresh = s.fresh ∧
      newGang u n d cl xs ∈ (placeNode s n d cl xs).gangs ∧
      ∀ v ∈ newMembers (preparedFor u n d cl) s.fresh n (xs.map (·.1)), v ∈ (placeNode s n d cl xs).others := by
  refine ⟨s.modNode n.id fun n => { n with st := .running, noPlace := none }, rfl, rfl, rfl, rfl, rfl, rfl, ?_⟩
  have none_ : s.gangs.find? (fun g => g.node == n.id) = none := List.find?_eq_none.mpr fun g hg => by simpa using first g hg
  have whole : placeNode s n d cl xs = placeNew (s.modNode n.id fun n => { n with st := .running, noPlace := none }) n d cl xs := by
    unfold placeNode
    dsimp only
    rw [show (s.modNode n.id fun n => { n with st := .running, noPlace := none }).gangs = s.gangs from rfl, none_]
  rw [whole, placeNew_eq]
  exact ⟨List.mem_append_right _ (List.mem_singleton_self _), fun v hv => List.mem_append_right _ hv⟩

/-! ### The members (R18, R349) -/

theorem preparedFor_freeSlots (s : State) (n : Node) (d cl core : Nat) : freeSlots (preparedFor s n d cl) core = freeSlots s core := by
  show freeSlots (if _ then _ else _) core = _
  split
  · exact (flushCluster_kept { s with fresh := s.fresh + 1 } d cl).freeSlots core
  · rfl

theorem preparedFor_seq {s : State} (wf : Tab.wf CoreSt.reset s.cores = true) (n : Node) (d cl core : Nat) :
    ((preparedFor s n d cl).core core).q = (s.core core).q := by
  show (State.core (if _ then _ else _) core).q = _
  split
  · exact (congrArg CoreSt.q ((flushCluster_kept { s with fresh := s.fresh + 1 } d cl).core wf core) : _)
  · rfl

/-- Every core gives as many members as the shape has contexts. -/
theorem memberPlaces_length {s : State} {cores : List Nat} {k : Nat} (room : ∀ c ∈ cores, k ≤ (freeSlots s c).length) :
    (memberPlaces s cores k).length = cores.length * k := by
  unfold memberPlaces
  induction cores with
  | nil => simp
  | cons c cores ih =>
    rw [List.flatMap_cons, List.length_append, ih fun e he => room e (List.mem_cons_of_mem _ he), List.length_map,
      List.length_take_of_le (room c (List.mem_cons_self ..)), List.length_cons]
    ring

theorem memberPlaces_core {s : State} {cores : List Nat} {k : Nat} {p : Nat × Nat} (h : p ∈ memberPlaces s cores k) : p.1 ∈ cores := by
  obtain ⟨c, hc, h⟩ := List.mem_flatMap.mp h
  obtain ⟨x, -, rfl⟩ := List.mem_map.mp h
  exact hc

/-- The member of a number. -/
theorem newMembers_get {s : State} {id : Nat} {n : Node} {cores : List Nat} {k : Nat}
    (h : k < (memberPlaces s cores (shapeContexts (recShape n.image))).length) : ∃ p ∈ memberPlaces s cores (shapeContexts (recShape n.image)),
      newVlc s id k (memberPlaces s cores (shapeContexts (recShape n.image))).length (BitVec.ofNat 64 (recP n.image 0)) (gangArg s n) p ∈
        newMembers s id n cores := by
  refine ⟨_, List.getElem_mem h, List.mem_map.mpr ⟨(_, k), ?_, rfl⟩⟩
  refine List.mem_iff_getElem.mpr ⟨k, by simpa using h, ?_⟩
  simp

/-- What a new member starts with. -/
theorem newVlc_starts (s : State) (g member members : Nat) (entry arg : Word) (place : Nat × Nat) :
    let v := newVlc s g member members entry arg place
    v.gang = g ∧ v.member = member ∧ v.status = .running ∧ v.core = place.1 ∧ v.pc = alignPc entry ∧
      v.getX 4 = BitVec.ofNat 64 member ∧ v.getX 5 = BitVec.ofNat 64 members ∧ v.getX 3 = arg ∧ v.vl = 0 ∧ v.pseq = (s.core place.1).q := by
  refine ⟨?_, ?_, ?_, ?_, ?_, ?_, ?_, ?_, ?_, ?_⟩
  all_goals simp [newVlc, Vlc.getX_setX, Vlc.reset]

/-- A word of a record. -/
theorem recWord_eq (r : BitVec 512) (lo : Nat) : BitVec.ofNat 64 (field r.toNat lo 64) = r.extractLsb' lo 64 := by
  apply BitVec.eq_of_toNat_eq
  rw [BitVec.toNat_ofNat, BitVec.extractLsb'_toNat, Nat.shiftRight_eq_div_pow, field, Nat.mod_mod]

/-- A gang's record gives its argument. -/
theorem gangArg_record {s : State} {n : Node} (h : n.image.extractLsb' 320 64 ≠ 0) : gangArg s n = n.image.extractLsb' 320 64 := by
  have field : BitVec.ofNat 64 (recArg n.image) = n.image.extractLsb' 320 64 := recWord_eq n.image 320
  rw [gangArg, if_neg, field]
  intro zero
  rw [zero.1] at field
  exact h field.symm

end Sys2Proof.Machine


/-! ## Machine family: dispatch, lending and aging (R23, R323) -/

namespace Sys2Proof.Machine

/-! ### Picking a node (R323) -/

theorem foldl_max (ns : List Node) (a : Nat) : let r := ns.foldl (fun m n => max m n.level) a
    a ≤ r ∧ (∀ n ∈ ns, n.level ≤ r) ∧ (r = a ∨ ∃ n ∈ ns, n.level = r) := by
  induction ns generalizing a with
  | nil => exact ⟨Nat.le_refl _, fun _ h => absurd h (by simp), .inl rfl⟩
  | cons n ns ih =>
    obtain ⟨lo, all, some_⟩ := ih (max a n.level)
    refine ⟨Nat.le_trans (Nat.le_max_left ..) lo, fun m hm => ?_, ?_⟩
    · obtain rfl | hm := List.mem_cons.mp hm
      · exact Nat.le_trans (Nat.le_max_right ..) lo
      · exact all m hm
    · obtain e | ⟨m, hm, e⟩ := some_
      · obtain l | r := Nat.le_total a n.level
        · exact .inr ⟨n, List.mem_cons_self .., by rw [List.foldl_cons, e, Nat.max_eq_right l]⟩
        · exact .inl (by rw [List.foldl_cons, e, Nat.max_eq_left r])
      · exact .inr ⟨m, List.mem_cons_of_mem _ hm, e⟩

/-- The top level is that of some node, and no node stands above it. -/
theorem topLevel_is {ns : List Node} (h : ns ≠ []) : (∃ n ∈ ns, n.level = topLevel ns) ∧ ∀ n ∈ ns, n.level ≤ topLevel ns := by
  obtain ⟨-, all, zero | some_⟩ := foldl_max ns 0
  · obtain ⟨n, hn⟩ := List.exists_mem_of_ne_nil ns h
    refine ⟨⟨n, hn, ?_⟩, all⟩
    have low := all n hn
    exact Nat.le_antisymm low (by rw [topLevel, zero]; exact Nat.zero_le _)
  · exact ⟨some_, all⟩

/-- The oldest of some nodes: one of them, and none is older. -/
theorem minOrder_is {ns : List Node} (h : ns ≠ []) : ∃ n, minOrder ns = some n ∧ n ∈ ns ∧ ∀ m ∈ ns, n.order ≤ m.order := by
  induction ns with
  | nil => exact absurd rfl h
  | cons n ns ih =>
    rw [minOrder]
    by_cases none_ : ns = []
    · subst none_
      exact ⟨n, rfl, List.mem_singleton_self _, fun m hm => by rw [List.mem_singleton.mp hm]⟩
    · obtain ⟨m, e, mem, old⟩ := ih none_
      rw [e]
      dsimp only
      by_cases le : n.order ≤ m.order
      · refine ⟨n, if_pos le, List.mem_cons_self .., fun x hx => ?_⟩
        obtain rfl | hx := List.mem_cons.mp hx
        · exact Nat.le_refl _
        · exact Nat.le_trans le (old x hx)
      · refine ⟨m, if_neg le, List.mem_cons_of_mem _ mem, fun x hx => ?_⟩
        obtain rfl | hx := List.mem_cons.mp hx
        · omega
        · exact old x hx

/-- The oldest node of a queue at a level. -/
theorem oldestAt_is {ns : List Node} {lvl q : Nat} (h : ∃ n ∈ ns, n.level = lvl ∧ n.queue = q) :
    ∃ n, oldestAt ns lvl q = some n ∧ n ∈ ns ∧ n.level = lvl ∧ n.queue = q ∧ ∀ m ∈ ns, m.level = lvl → m.queue = q → n.order ≤ m.order := by
  obtain ⟨x, hx, lx, qx⟩ := h
  obtain ⟨n, e, mem, old⟩ := minOrder_is (ns := ns.filter fun n => n.level == lvl && n.queue == q)
    (List.ne_nil_of_mem (List.mem_filter.mpr ⟨hx, by simp [lx, qx]⟩))
  obtain ⟨hn, is⟩ := List.mem_filter.mp mem
  simp only [Bool.and_eq_true, beq_iff_eq] at is
  exact ⟨n, e, hn, is.1, is.2, fun m hm l qm => old m (List.mem_filter.mpr ⟨hm, by simp [l, qm]⟩)⟩

/-- The node that the first visit dispatches: the oldest of the lowest queue at the top level. -/
theorem pickNode_first {s : State} {d : Nat} (some_ : candidates s d ≠ [])
    (ok : ∀ n ∈ candidates s d, placeable s n = true ∧ n.queue < 1024 ∧ 1 ≤ (s.queue n.queue).weight)
    (closed : (s.landauOf d).visiting = false) (fresh : (s.landauOf d).visit = none) :
    ∃ n ∈ candidates s d, (∀ m ∈ candidates s d, m.level ≤ n.level ∧
        (m.level = n.level → n.queue ≤ m.queue ∧ (m.queue = n.queue → n.order ≤ m.order))) ∧
      pickNode s d = (dispatchFrom (setDeficit s d n.queue (deficitOf s d n.queue + (s.queue n.queue).weight)) d n.level n.queue
        (candidates s d) n, true) := by
  obtain ⟨⟨x, hx, lx⟩, top⟩ := topLevel_is some_
  generalize hl : topLevel (candidates s d) = lvl at lx top
  have order : visitOrder s d lvl (candidates s d) = (List.range 1024).filter fun q => (candidates s d).any fun n => n.level == lvl && n.queue == q := by
    rw [visitOrder, fresh]
  have mem (m : Node) (hm : m ∈ candidates s d) (l : m.level = lvl) : m.queue ∈ visitOrder s d lvl (candidates s d) := by
    rw [order]
    exact List.mem_filter.mpr ⟨List.mem_range.mpr (ok m hm).2.1, List.any_eq_true.mpr ⟨m, hm, by simp [l]⟩⟩
  have ascend : (visitOrder s d lvl (candidates s d)).Pairwise (· < ·) := order ▸ List.pairwise_lt_range.filter _
  have named (q : Nat) (hq : q ∈ visitOrder s d lvl (candidates s d)) : ∃ n ∈ candidates s d, n.level = lvl ∧ n.queue = q := by
    rw [order] at hq
    obtain ⟨n, hn, is⟩ := List.any_eq_true.mp (List.mem_filter.mp hq).2
    exact ⟨n, hn, by simpa using is⟩
  cases visits : visitOrder s d lvl (candidates s d) with
  | nil => exact absurd (visits ▸ mem x hx lx) (by simp)
  | cons q qs =>
    rw [visits] at ascend
    obtain ⟨n, oldest, hn, nl, nq, old⟩ := oldestAt_is (named q (visits ▸ List.mem_cons_self ..))
    refine ⟨n, hn, fun m hm => ⟨nl ▸ top m hm, fun l => ⟨?_, fun mq => old m hm (l.trans nl) (mq.trans nq)⟩⟩, ?_⟩
    · have := mem m hm (l.trans nl)
      rw [visits] at this
      obtain e | later := List.mem_cons.mp this
      · exact Nat.le_of_eq (nq.trans e.symm)
      · exact nq ▸ Nat.le_of_lt (List.rel_of_pairwise_cons ascend later)
    · subst nq
      have go : visitQueues d lvl (candidates s d) (n.queue :: qs) s =
          (dispatchFrom (setDeficit s d n.queue (deficitOf s d n.queue + (s.queue n.queue).weight)) d lvl n.queue (candidates s d) n, true) := by
        obtain ⟨place, -, weight⟩ := ok n hn
        rw [visitQueues, oldest]
        exact if_pos ⟨by omega, place⟩
      unfold pickNode
      dsimp only
      rw [if_neg (by simpa using some_), hl, closed]
      dsimp only
      rw [visits, go, nl]

/-! ### Dispatch (R18, R23) -/

theorem candidates_die {s : State} {d : Nat} {n : Node} (h : n ∈ candidates s d) : n.die = d := by
  have is := (List.mem_filter.mp h).2
  simp only [Bool.and_eq_true, beq_iff_eq] at is
  exact is.1.1.1.1.1

theorem dispatch_idle {d : Nat} {s : State} (hd : d < 4) (h : landauUp s d = false ∨ candidates s d = []) : exec (.dispatch d) s = .next s := by
  show execDispatch d s = _
  unfold execDispatch
  rw [if_neg (Nat.not_le.mpr hd)]
  by_cases up : landauUp s d = true
  · have none_ := h.resolve_left (by simp [up])
    have pick : pickNode s d = (s, false) := by
      unfold pickNode
      rw [none_]
      rfl
    rw [up, if_neg (by simp), pick]
    dsimp only
    rw [none_]
    rfl
  · rw [if_pos (by simpa using up)]

theorem dispatchNode_places {s : State} {n : Node} (gang : recKind n.image = 0) {cl : Nat} {xs : List (Nat × Nat)}
    (place : diePlace s n.die n.queue (recShape n.image) = some (cl, xs)) : dispatchNode s n = placeNode s n n.die cl xs := by
  unfold dispatchNode
  rw [gang, place]
  rfl

/-- A visit changes only what Landau counts. -/
theorem dispatchFrom_eq (s : State) (d lvl q x : Nat) (ns : List Node) (n : Node) :
    ∃ l, dispatchFrom (setDeficit s d q x) d lvl q ns n = dispatchNode { s with landau := l } n := ⟨_, rfl⟩

theorem freeSlots_congr {s t : State} (vlc : t.vlc = s.vlc) (others : t.others = s.others) (core : Nat) : freeSlots t core = freeSlots s core := by
  simp only [freeSlots, State.findVlc, State.vlcs, vlc, others]

/-- A core that fits a shape has a free place for each of its contexts. -/
theorem coreFits_room {s : State} {q : Nat} {sh : BitVec 18} {c b : Nat} (h : coreFits s q sh c = some b) :
    shapeContexts sh ≤ (freeSlots s c).length := by
  by_contra short
  unfold coreFits at h
  dsimp only at h
  rw [if_pos (Nat.not_le.mp short)] at h
  repeat' split at h
  all_goals exact absurd h (by simp)

/-- The node's gang, where its die has a place for it. -/
theorem placed_gang {s : State} (wf : Tab.wf CoreSt.reset s.cores = true) {n : Node} {d cl : Nat} {xs : List (Nat × Nat)}
    (place : diePlace s d n.queue (recShape n.image) = some (cl, xs)) (first : ∀ g ∈ s.gangs, g.node ≠ n.id) :
    ∃ g ∈ (placeNode s n d cl xs).gangs, g.id = s.fresh ∧ g.node = n.id ∧ g.st = .loading ∧ g.die = d ∧ g.queue = n.queue ∧
      g.tenant = (s.queue n.queue).tenant ∧ g.shape = recShape n.image ∧ g.cluster = cl ∧
      g.cores = xs.map (·.1) ∧ g.lsBase.length = xs.length ∧ g.members = xs.length * shapeContexts (recShape n.image) ∧
      ∀ k, k < g.members → ∃ v ∈ (placeNode s n d cl xs).others, v.gang = g.id ∧ v.member = k ∧ v.status = .running ∧ v.core ∈ g.cores ∧
        v.pc = n.image.extractLsb' 64 64 &&& ~~~3 ∧ v.getX 4 = BitVec.ofNat 64 k ∧ v.getX 5 = BitVec.ofNat 64 g.members ∧
        (n.image.extractLsb' 320 64 ≠ 0 → v.getX 3 = n.image.extractLsb' 320 64) ∧ v.vl = 0 ∧ v.pseq = (s.core v.core).q := by
  obtain ⟨u, uvlc, uothers, ucores, -, uqueues, ufresh, gang, vlcs⟩ := placeNode_new (d := d) (cl := cl) (xs := xs) first
  have slots (c : Nat) : freeSlots (preparedFor u n d cl) c = freeSlots s c :=
    (preparedFor_freeSlots u n d cl c).trans (freeSlots_congr uvlc uothers c)
  have fits : ∀ c ∈ xs.map (·.1), shapeContexts (recShape n.image) ≤ (freeSlots (preparedFor u n d cl) c).length := by
    obtain ⟨-, -, cluster, -⟩ := diePlace_some place
    obtain ⟨taken, -⟩ := clusterPlace_some cluster
    intro c hc
    obtain ⟨x, hx, rfl⟩ := List.mem_map.mp hc
    obtain ⟨-, fit, -⟩ := mem_fittingCores (List.mem_of_mem_take (taken ▸ hx))
    rw [slots]
    exact coreFits_room fit
  have members := memberPlaces_length fits
  rw [List.length_map] at members
  refine ⟨_, gang, ufresh, rfl, rfl, rfl, rfl, ?_, rfl, rfl, rfl, List.length_map .., members, fun k hk => ?_⟩
  · exact congrArg (fun q : Tab QueuePage => (Tab.get QueuePage.reset q n.queue).tenant) uqueues
  · obtain ⟨p, hp, hv⟩ := newMembers_get (id := s.fresh) hk
    obtain ⟨vgang, vmember, vst, vcore, vpc, x4, x5, x3, vl, seq⟩ := newVlc_starts (preparedFor u n d cl) s.fresh k
      (memberPlaces (preparedFor u n d cl) (xs.map (·.1)) (shapeContexts (recShape n.image))).length
      (BitVec.ofNat 64 (recP n.image 0)) (gangArg (preparedFor u n d cl) n) p
    refine ⟨_, vlcs _ hv, vgang.trans ufresh.symm, vmember, vst, vcore ▸ memberPlaces_core hp, ?_, x4, x5, fun h => x3.trans (gangArg_record h),
      vl, ?_⟩
    · exact vpc.trans (congrArg alignPc (recWord_eq n.image 64))
    · rw [seq, vcore, preparedFor_seq (by rw [ucores]; exact wf), State.core, ucores, State.core]

/-- A node of the top level goes to the lowest cluster of its queue's mask that fits, and there to the lowest cores that fit (R18, R23, R323). -/
theorem dispatch_places {d : Nat} {s : State} (hd : d < 4) (up : landauUp s d = true) (tables : TablesOk s) (some_ : candidates s d ≠ [])
    (ok : ∀ n ∈ candidates s d, placeable s n = true ∧ n.queue < 1024 ∧ 1 ≤ (s.queue n.queue).weight)
    (closed : (s.landauOf d).visiting = false) (fresh : (s.landauOf d).visit = none) :
    ∃ (t : State) (n : Node), exec (.dispatch d) s = .next t ∧ n ∈ candidates s d ∧
      (∀ m ∈ candidates s d, m.level ≤ n.level ∧
        (m.level = n.level → n.queue ≤ m.queue ∧ (m.queue = n.queue → n.order ≤ m.order))) ∧
      (recKind n.image = 0 → (∀ g ∈ s.gangs, g.node ≠ n.id) → ∃ g ∈ t.gangs, g.id = s.fresh ∧ g.node = n.id ∧ g.st = .loading ∧
        g.die = d ∧ g.queue = n.queue ∧ g.tenant = (s.queue n.queue).tenant ∧ g.shape = recShape n.image ∧
        g.cores.length = shapeCores g.shape ∧ g.lsBase.length = shapeCores g.shape ∧
        g.members = shapeCores g.shape * shapeContexts g.shape ∧ (∀ c ∈ g.cores, coreDie c = d ∧ coreCluster c = g.cluster) ∧
        (∀ cl, cl < g.cluster → (∀ c, c < 8 → (s.queue n.queue).mask.getLsbD (d * 144 + cl * 8 + c) = true) →
          (fittingCores s d cl n.queue g.shape).length < shapeCores g.shape) ∧
        (∀ c ∈ g.cores, ∀ e, d * 144 + g.cluster * 8 ≤ e → e < c → (coreFits s n.queue g.shape e).isSome = true → e ∈ g.cores) ∧
        (∀ c, c < 8 → (s.queue n.queue).mask.getLsbD (d * 144 + g.cluster * 8 + c) = true) ∧
        ∀ k, k < g.members → ∃ v ∈ t.others, v.gang = g.id ∧ v.member = k ∧ v.status = .running ∧ v.core ∈ g.cores ∧
          v.pc = n.image.extractLsb' 64 64 &&& ~~~3 ∧ v.getX 4 = BitVec.ofNat 64 k ∧ v.getX 5 = BitVec.ofNat 64 g.members ∧
          (n.image.extractLsb' 320 64 ≠ 0 → v.getX 3 = n.image.extractLsb' 320 64) ∧ v.vl = 0 ∧ v.pseq = (s.core v.core).q) := by
  obtain ⟨-, wf, -⟩ := tables
  obtain ⟨n, hn, best, pick⟩ := pickNode_first some_ ok closed fresh
  have run : exec (.dispatch d) s = .next (pickNode s d).1 := by
    show execDispatch d s = _
    unfold execDispatch
    rw [if_neg (Nat.not_le.mpr hd), up, if_neg (by simp), pick]
  refine ⟨_, n, run, hn, best, fun gang first => ?_⟩
  obtain rfl := candidates_die hn
  have placeable_ := (ok n hn).1
  unfold placeable at placeable_
  rw [gang] at placeable_
  obtain ⟨⟨cl, xs⟩, place⟩ := Option.isSome_iff_exists.mp placeable_
  obtain ⟨small, mask, cluster, before⟩ := diePlace_some place
  obtain ⟨taken, length⟩ := clusterPlace_some cluster
  obtain ⟨l, visited⟩ := dispatchFrom_eq s n.die n.level n.queue (deficitOf s n.die n.queue + (s.queue n.queue).weight) (candidates s n.die) n
  have place' : diePlace { s with landau := l } n.die n.queue (recShape n.image) = some (cl, xs) := place
  obtain ⟨g, hg, id, node, st, die, queue, tenant, shape, gcluster, cores, lsBase, members, vlcs⟩ :=
    placed_gang (s := { s with landau := l }) wf place' first
  rw [pick, visited, dispatchNode_places gang place']
  have inside : ∀ k, (∀ c, c < 8 → (s.queue n.queue).mask.getLsbD (n.die * 144 + k * 8 + c) = true) ↔ inMask s n.queue n.die k = true := by
    simp [inMask]
  refine ⟨g, hg, id, node, st, die, queue, tenant, shape, ?_, ?_, ?_, ?_, ?_, ?_, ?_, vlcs⟩
  · rw [cores, List.length_map, length, shape]
  · rw [lsBase, length, shape]
  · rw [members, length, shape]
  · intro c hc
    rw [cores] at hc
    obtain ⟨x, hx, rfl⟩ := List.mem_map.mp hc
    obtain ⟨⟨k, hk, e⟩, -, -⟩ := mem_fittingCores (List.mem_of_mem_take (taken ▸ hx))
    rw [gcluster, e, coreDie, coreCluster]
    omega
  · rw [gcluster, shape]
    exact fun k hk m => before k hk ((inside k).mp m)
  · rw [gcluster, shape, cores]
    exact fun c hc e lo lt fit => clusterPlace_lowest cluster hc lo lt fit
  · rw [gcluster]
    exact (inside cl).mpr mask

/-! ### Lending (R323) -/

theorem mem_byLevel {ns : List Node} {n : Node} (h : n ∈ byLevel ns) : n ∈ ns := by
  obtain ⟨k, -, h⟩ := List.mem_flatMap.mp h
  exact (List.mem_filter.mp h).1

theorem mem_oldestNodes {ns : List Node} {n : Node} (h : n ∈ oldestNodes ns) : n ∈ ns := (List.mem_filter.mp h).1

theorem lend_idle {d : Nat} {s : State} (hd : d < 4)
    (h : landauUp s d = false ∨ (∀ n ∈ candidates s d, lendable s n = false ∨ lendPlace s n = none)) : exec (.lend d) s = .next s := by
  show execLend d s = _
  unfold execLend
  rw [if_neg (Nat.not_le.mpr hd)]
  by_cases up : landauUp s d = true
  · have none_ := h.resolve_left (by simp [up])
    have found : (byLevel (oldestNodes (candidates s d))).find? (fun n => lendable s n && (lendPlace s n).isSome) = none :=
      List.find?_eq_none.mpr fun n hn => by
        obtain e | e := none_ n (mem_oldestNodes (mem_byLevel hn)) <;> simp [e]
    rw [up, if_neg (by simp), found]
  · rw [if_pos (by simpa using up)]

/-- The place of a loan is on another die. -/
theorem lendPlace_some {s : State} {n : Node} {e cl : Nat} {xs : List (Nat × Nat)} (h : lendPlace s n = some (e, cl, xs)) :
    e ≠ n.die ∧ diePlace s e n.queue (recShape n.image) = some (cl, xs) := by
  obtain ⟨d, hd, place⟩ := List.exists_of_findSome?_eq_some h
  obtain ⟨x, hx, eq⟩ := Option.map_eq_some_iff.mp place
  obtain ⟨rfl, rfl, rfl⟩ := by simpa using eq
  exact ⟨by simpa using (List.mem_filter.mp hd).2, hx⟩

/-- A node that leaves its list changes only what Landau counts. -/
theorem leaveList_eq (s : State) (n : Node) : ∃ l, leaveList s n = { s with landau := l } := by
  unfold leaveList
  split
  · exact ⟨_, rfl⟩
  · exact ⟨_, rfl⟩

theorem lend_places {d e cl : Nat} {xs : List (Nat × Nat)} {n : Node} {s : State} (hd : d < 4) (up : landauUp s d = true)
    (found : (byLevel (oldestNodes (candidates s d))).find? (fun n => lendable s n && (lendPlace s n).isSome) = some n)
    (place : lendPlace s n = some (e, cl, xs)) (first : ∀ g ∈ s.gangs, g.node ≠ n.id) :
    e ≠ d ∧ ∃ (t : State) (g : Gang), exec (.lend d) s = .next t ∧ g ∈ t.gangs ∧ g.node = n.id ∧ g.die = e ∧ g.cluster = cl ∧
      g.cores = xs.map (·.1) ∧ g.st = .loading := by
  have die := candidates_die (mem_oldestNodes (mem_byLevel (List.mem_of_find?_eq_some found)))
  refine ⟨die ▸ (lendPlace_some place).1, ?_⟩
  have run : exec (.lend d) s = .next (placeNode (leaveList s n) n e cl xs) := by
    show execLend d s = _
    unfold execLend
    rw [if_neg (Nat.not_le.mpr hd), up, if_neg (by simp), found]
    dsimp only
    rw [place]
  obtain ⟨l, left⟩ := leaveList_eq s n
  rw [left] at run
  obtain ⟨u, -, -, -, -, -, -, gang, -⟩ := placeNode_new (s := { s with landau := l }) (d := e) (cl := cl) (xs := xs) first
  exact ⟨_, _, run, gang, rfl, rfl, rfl, rfl, rfl⟩

/-! ### Aging (R323) -/

theorem aging_ages {d : Nat} (s : State) (hd : d < 4) :
    exec (.aging d) s = .next { s with nodes := s.nodes.map fun n =>
      let prio := (s.queue n.queue).prio
      let age := 2 ^ (prio.extractLsb' 16 6).toNat
      if n.die = d ∧ n.st = .ready ∧ n.assisted = false ∧ n.level < min 7 ((prio.extractLsb' 0 3).toNat + 1) ∧
        n.since + age ≤ (s.die d).cycles then { n with level := n.level + 1, since := n.since + age } else n } := by
  refine (if_neg (Nat.not_le.mpr hd)).trans (congrArg (fun ns => Host.Outcome.next { s with nodes := ns }) (List.map_congr_left fun n _ => ?_))
  have pri : (s.queue n.queue).pri = ((s.queue n.queue).prio.extractLsb' 0 3).toNat := by
    rw [BitVec.extractLsb'_toNat, Nat.shiftRight_eq_div_pow]
    rfl
  have age : (s.queue n.queue).age = ((s.queue n.queue).prio.extractLsb' 16 6).toNat := by
    rw [BitVec.extractLsb'_toNat, Nat.shiftRight_eq_div_pow]
    rfl
  dsimp only
  by_cases here : n.die = d
  · rw [if_pos here, ageNode, pri, age, here]
    simp
  · rw [if_neg here, if_neg fun h => here h.1]

/-! ### The obligation -/

theorem nodeRecordRead_idle {d : Nat} {s : State} (hd : d < 4) (h : landauUp s d = false ∨ readingGraph s d = none) :
    exec (.nodeRecordRead d) s = .next s := by
  show execNodeRecordRead d s = _
  unfold execNodeRecordRead
  rw [if_neg (Nat.not_le.mpr hd)]
  by_cases up : landauUp s d = true
  · rw [up, if_neg (by simp), h.resolve_left (by simp [up])]
  · rw [if_pos (by simpa using up)]

theorem taskCompletion_idle {d k : Nat} {s : State} (hd : d < 4) (h : ∀ n, s.nodeAt d k = some n → ∀ f, n.st ≠ .done f) :
    exec (.taskCompletion d k) s = .next s := by
  show execTaskCompletion d k s = _
  unfold execTaskCompletion
  rw [if_neg (Nat.not_le.mpr hd)]
  split
  · rfl
  · next n at_ =>
    split
    · next f st => exact absurd st (h n at_ f)
    · rfl

theorem graphCompletion_idle {id : Nat} {s : State} (h : ∀ g, s.findGraph id = some g → g.left ≠ 0) : exec (.graphCompletion id) s = .next s := by
  show execGraphCompletion id s = _
  unfold execGraphCompletion
  split
  · rfl
  · next g found => exact if_pos (h g found)

/-- Settles O56, clause by clause: what leaves Landau idle and aging, dispatch, lending, reading a record, the end of a task and of a graph,
`spawn`, and the return from the overflow region. -/
theorem nodesAndGraphs : Obligations.NodesAndGraphs := by
  refine ⟨?_, ?_, ?_, ?_, ?_, ?_, ?_, ?_⟩
  · exact fun d s hd => ⟨dispatch_idle hd, lend_idle hd, nodeRecordRead_idle hd, aging_ages s hd⟩
  · exact fun d s hd up tables some_ ok _ closed fresh => dispatch_places hd up tables some_ ok closed fresh
  · exact fun d e cl xs n s hd up found place first => lend_places hd up found place first
  · intro d k s u g ws hd up reading go few _ ids only read nodes _ _ r
    exact ⟨fun ok none_ free => nodeRecordRead_slot hd up reading go only read few ids ok none_ free,
      fun bad lone few' => nodes ▸ nodeRecordRead_refused hd up reading go only read bad lone few'⟩
  · exact fun d k s hd => ⟨fun none_ => taskCompletion_idle hd fun n at_ => absurd (none_.symm.trans at_) (by simp),
      fun n at_ st => taskCompletion_idle hd fun m am => Option.some.inj (at_.symm.trans am) ▸ st,
      fun n f g at_ st found gid _ ids one _ => taskCompletion_done hd at_ st found gid ids one⟩
  · exact fun id s => ⟨fun none_ => graphCompletion_idle fun g found => absurd (none_.symm.trans found) (by simp),
      fun g found left => graphCompletion_idle fun h fh => Option.some.inj (found.symm.trans fh) ▸ left,
      fun g found left tables ckpt assist => graphCompletion_ends found left tables ckpt assist⟩
  · exact fun d a b s p al pal on tables snoops clean open_ trap none_ free => spawn_more al pal on tables snoops clean open_ trap none_ free
  · exact fun q d k m rest s hq hd o free ids => overflowReturn_first hq hd o free ids

end Sys2Proof.Machine


/-! ## Machine family: a list of results under a VTYPE that `vcfg` refuses -/

namespace Sys2Proof.Machine

theorem field_lt (n lo len : Nat) : field n lo len < 2 ^ len := Nat.mod_lt _ (Nat.two_pow_pos len)

/-- An element holds no more than its width. -/
theorem VFile.elem_lt (f : VFile) (base w i : Nat) : f.elem base w i < 2 ^ w := field_lt _ _ w

/-- A VLC with one element of class E3M2 at SEW 4, where R122 asks for SEW 8, and tails of ones. -/
def tightState : State :=
  { State.reset with vlc := { Vlc.reset with status := .running, vl := 1, vt := ⟨.e4, .e4, 0, .agnostic, false, .e3m2⟩ } }

theorem tightState_running : VecRunning tightState.vlc :=
  ⟨⟨rfl, rfl, rfl, rfl, rfl, nofun⟩, by decide, rfl, .inl rfl⟩

/-- Refutes O18: nothing in the clause on lists of results keeps VTYPE to the pairs of class and SEW that R122 accepts.  Under class E3M2 at
SEW 4 (`tightState`) `vcompress v4, v2, p0` leaves one element and a tail, whose elements of 4 bits would have to hold 63. -/
theorem not_vectorListResults : ¬ Obligations.VectorListResults := by
  unfold Obligations.VectorListResults
  rintro ⟨lists, -, -⟩
  obtain ⟨t, f, -, -, elems, -⟩ := lists (.vcompress 4 2 0) tightState _ rfl
    ⟨by decide, by decide, by decide, .inr (by decide)⟩ tightState_running rfl
  have tail : f.elem 4 4 1 = 63 := elems 1 (by decide)
  have small : f.elem 4 4 1 < 16 := f.elem_lt 4 4 1
  omega

end Sys2Proof.Machine


/-! ## Machine family: an instruction of the vector queue that runs at once (R36, R41) -/

namespace Sys2Proof.Machine

/-! ### The run of an entry at the head -/

/-- Handing out a strip changes the pc and the state of the strip loop alone (R146). -/
theorem handOut_eq (v : Vlc) (l : Loop) : handOut v l = { v with
    pc := (handOut v l).pc, loop := (handOut v l).loop, vl := (handOut v l).vl
    vidx := (handOut v l).vidx, vrem := (handOut v l).vrem } := by
  unfold handOut
  dsimp only
  split <;> rfl

/-- The next word changes the pc and the state of the strip loop alone (R146, R147). -/
theorem Vlc.next_eq (v : Vlc) : v.next =
    { v with pc := v.next.pc, loop := v.next.loop, vl := v.next.vl, vidx := v.next.vidx, vrem := v.next.vrem } := by
  unfold Vlc.next Vlc.goto
  split
  case h_1 l _ _ =>
    dsimp only
    split
    · exact handOut_eq _ _
    · split <;> rfl
  case h_2 => rfl

/-- The state in which the body of an instruction runs that an empty queue has just taken. -/
def headState (s : State) (e : VEntry) : State :=
  s.modVlc fun v => { v.next with vq := [e], vf := v.vf.fresh, run := some ⟨none, none⟩ }

/-- The state after it, over the state that the body leaves. -/
def headDone (t : State) (i : Instr) : State :=
  let u := t.modVlc fun v => { v with vq := v.vq.eraseIdx 0, run := none }
  if countsVcomp i then u.modCore u.vlc.core fun c => { c with vcomp := c.vcomp + 1 } else u

/-- The VLC in which a body runs, over the one that issues it. -/
theorem headState_vlc (s : State) (e : VEntry) : (headState s e).vlc = { s.vlc with
    pc := s.vlc.next.pc, loop := s.vlc.next.loop, vl := s.vlc.next.vl, vidx := s.vlc.next.vidx, vrem := s.vlc.next.vrem
    vq := [e], vf := s.vlc.vf.fresh, run := some ⟨none, none⟩ } :=
  congrArg (fun v : Vlc => { v with vq := [e], vf := s.vlc.vf.fresh, run := some ⟨none, none⟩ }) s.vlc.next_eq

section
variable (s : State) (e : VEntry)

@[simp] theorem headState_core : (headState s e).vlc.core = s.vlc.core := by rw [headState_vlc]
@[simp] theorem headState_vf : (headState s e).vlc.vf = s.vlc.vf.fresh := by rw [headState_vlc]
@[simp] theorem headState_poison : (headState s e).vlc.poison = s.vlc.poison := by rw [headState_vlc]
@[simp] theorem headState_vstart : (headState s e).vlc.vstart = s.vlc.vstart := by rw [headState_vlc]
@[simp] theorem headState_fflags : (headState s e).vlc.fflags = s.vlc.fflags := by rw [headState_vlc]
@[simp] theorem headState_run : (headState s e).vlc.run = some ⟨none, none⟩ := rfl
@[simp] theorem headState_coreAt (c : Nat) : (headState s e).core c = s.core c := rfl

/-- The gang of the VLC is that of the issuing VLC. -/
theorem headState_gang : (headState s e).gang = s.gang := by
  show s.gangOf (headState s e).vlc.gang = s.gangOf s.vlc.gang
  rw [headState_vlc]

/-- So is the party of its accesses. -/
theorem headState_me : (headState s e).me = s.me := by
  have live (g c : Nat) : liveBodies (headState s e) g c = liveBodies s g c := by
    unfold liveBodies State.vlcs
    rw [headState_vlc]
    simp only [List.filter_cons]
    split <;> rfl
  have gang : (headState s e).gangOf s.vlc.gang = s.gangOf s.vlc.gang := rfl
  unfold State.me partyOf
  dsimp only
  rw [live, show (headState s e).vlc.gang = s.vlc.gang by rw [headState_vlc], headState_core, gang]

end

/-- Outside a P = 1 loop no entry belongs to a strip. -/
theorem capture_strip {v : Vlc} (ready : VecReady v) (i : Instr) (d a b : Nat) (xd xa xb : Word) : (capture v i d a b xd xa xb).strip = none := by
  obtain ⟨-, -, -, -, -, plain⟩ := ready
  show (match v.loop with
    | some l => if l.p then some (l.serial, l.strip) else none
    | none => none) = none
  cases h : v.loop with
  | none => rfl
  | some l => simp [plain l h]

/-- Without strips an entry makes nothing ready but the note of what it writes. -/
theorem fanReady_none {v : Vlc} (h : v.fan = none) : fanReady none v = { v with vf := v.vf.fresh } := by
  simp [fanReady, fanMerge, h]

/-- No instruction takes more than two scalar operands into the queue (R15, R36). -/
theorem operandSlots_le (i : Instr) : operandSlots i ≤ 2 := by
  unfold operandSlots
  split
  any_goals split
  all_goals omega

/-- The checks of the scalar unit pass outside the handler and outside P = 1 loops where fields, VTYPE, groups and overlaps do (R58, R125). -/
theorem specTrap_none {v : Vlc} (ready : VecReady v) {sp : VSpec} (w : BitVec 32) (fld : sp.fieldBad = 0) (vt : sp.vtBad = false)
    (groups : ∀ g ∈ sp.groups, g.1 % g.2 = 0) (seg : sp.segBad = false) (overlap : sp.overlap = false) : specTrap w sp v = none := by
  obtain ⟨-, -, -, handler, -, plain⟩ := ready
  have aligned : (sp.groups.any fun g => g.1 % g.2 != 0) = false := by simpa using groups
  unfold specTrap
  cases h : v.loop with
  | none => simp [handler, fld, vt, aligned, seg, overlap]
  | some l => simp [plain l h, handler, fld, vt, aligned, seg, overlap]

/-- An instruction that passes its checks on a ready VLC runs at once, and whole: its body decides what it does. -/
theorem issue_head {sp : VSpec} {body : VBody} {i : Instr} {d a b : Nat} {xd xa xb : Word} {s t : State} (ready : VecReady s.vlc)
    (ok : specTrap (wordOf i) sp s.vlc = none)
    (starts : s.vlc.vstart = 0 ∨ s.vlc.vstart.toNat < entryCount (headState s (capture s.vlc i d a b xd xa xb)).vlc
      (capture s.vlc i d a b xd xa xb) ∨ obeysVstart i = false)
    (run : body (capture s.vlc i d a b xd xa xb) (headState s (capture s.vlc i d a b xd xa xb)) = (t, .done)) :
    issue sp body (capture s.vlc i d a b xd xa xb) s = .next (headDone t i) := by
  have strip := capture_strip ready i d a b xd xa xb
  obtain ⟨vq, sched, -, -, fan, -⟩ := ready
  have room : queueRoom s.vlc i = true := by
    have := operandSlots_le i
    simp only [queueRoom, vq]
    simp
    omega
  generalize he : capture s.vlc i d a b xd xa xb = e at *
  have ei : e.i = i := he ▸ rfl
  have ew : e.word = wordOf i := he ▸ rfl
  have seq : e.seq = none := he ▸ rfl
  have ahead : e.ahead = 0 := he ▸ rfl
  have at_ : s.modVlc (fun v => { v.next with vq := v.vq ++ [e] }) = s.modVlc fun v => { v.next with vq := [e] } := by
    simp [State.modVlc, vq]
  have next : s.vlc.next.fan = none := by rw [s.vlc.next_eq]; exact fan
  have nvf : s.vlc.next.vf = s.vlc.vf := by rw [s.vlc.next_eq]
  have front : ((s.modVlc fun v => { v.next with vq := [e] }).modVlc (fanReady none)).modVlc (fun v =>
      { (stripIn none v) with run := some ⟨none, e.seq⟩, vstart := if e.ahead ≠ 0 ∧ (stripIn none v).vstart = 0 then BitVec.ofNat 13 e.ahead else (stripIn none v).vstart }) =
      headState s e := by
    have ready := fanReady_none (v := { s.vlc.next with vq := [e] }) next
    unfold State.modVlc headState
    dsimp only at ready ⊢
    rw [ready, seq, ahead, nvf]
    rfl
  have entered : ¬ ((headState s e).vlc.vstart.toNat ≠ 0 ∧ (headState s e).vlc.vstart.toNat ≥ entryCount (headState s e).vlc e ∧
      obeysVstart e.i = true) := by
    rw [headState_vstart, ei]
    rintro ⟨nz, ge, obeys⟩
    obtain z | lt | no := starts
    · exact nz (by simp [z])
    · omega
    · simp [no] at obeys
  have whole : runBody body none e (s.modVlc fun v => { v.next with vq := [e] }) = (t, .done) := by
    unfold runBody
    rw [strip]
    dsimp only
    rw [front, if_neg entered, run]
    rfl
  simp only [issue, ew, ok, ei, room, vq, sched, at_]
  simp only [runHead, runEntry, whole, endRun, ei]
  rfl

/-! ### The end of an instruction -/

/-- The registers at the end, where the body has changed the register file, the flags and VSTART. -/
theorem headDone_vlc {s t : State} {e : VEntry} {f : VFile} {fl : BitVec 7} (ready : VecReady s.vlc)
    (vlc : t.vlc = { (headState s e).vlc with vf := f, fflags := fl, vstart := 0 }) (i : Instr) :
    (headDone t i).vlc = { s.vlc.next with vf := f, fflags := fl, vstart := 0 } := by
  have fields : (headDone t i).vlc = { t.vlc with vq := t.vlc.vq.eraseIdx 0, run := none } := by
    unfold headDone
    dsimp only
    split <;> rfl
  obtain ⟨vq, -, run, -, -, -⟩ := ready
  have nvq : s.vlc.next.vq = [] := (congrArg Vlc.vq s.vlc.next_eq).trans vq
  have nrun : s.vlc.next.run = none := (congrArg Vlc.run s.vlc.next_eq).trans run
  rw [fields, vlc]
  show { s.vlc.next with vq := [], run := none, vf := f, fflags := fl, vstart := 0 } = _
  rw [← nvq, ← nrun]

/-- Nothing of the state but the VLC at the front and the count of its core changes at the end. -/
theorem headDone_rest (t : State) (i : Instr) : headDone t i = { t with vlc := (headDone t i).vlc, cores := (headDone t i).cores } := by
  unfold headDone
  dsimp only
  split <;> rfl

theorem headDone_core {t : State} (wf : Tab.wf CoreSt.reset t.cores = true) (i : Instr) (c : Nat) : (headDone t i).core c =
    if c = t.vlc.core ∧ countsVcomp i = true then { t.core c with vcomp := (t.core c).vcomp + 1 } else t.core c := by
  unfold headDone
  dsimp only
  by_cases counts : countsVcomp i = true
  · rw [if_pos counts, State.core_modCore (s := t.modVlc fun v => { v with vq := v.vq.eraseIdx 0, run := none }) wf]
    show (if c = t.vlc.core then _ else t.core c) = _
    by_cases same : c = t.vlc.core
    · rw [if_pos same, if_pos ⟨same, counts⟩, same]
      rfl
    · rw [if_neg same, if_neg fun h => same h.1]
  · rw [if_neg counts, if_neg fun h => counts h.2]
    rfl

/-- The end of an instruction that changes registers alone. -/
theorem headDone_vecDone {s t : State} {e : VEntry} {f : VFile} {fl : BitVec 7} (ready : VecReady s.vlc)
    (wf : Tab.wf CoreSt.reset s.cores = true) {i : Instr} (counts : countsVcomp i = true)
    (eq : t = { headState s e with vlc := { (headState s e).vlc with vf := f, fflags := fl, vstart := 0 } }) :
    VecDone s (headDone t i) f fl := by
  have vlc := headDone_vlc ready (congrArg State.vlc eq) i
  refine ⟨?_, fun c => ?_⟩
  · rw [headDone_rest, vlc]
    dsimp only
    rw [eq]
    rfl
  · have core : t.vlc.core = s.vlc.core := by rw [eq]; exact headState_core s e
    have cores : t.cores = s.cores := by rw [eq]; rfl
    have same : t.core c = s.core c := by rw [State.core, cores]; rfl
    rw [headDone_core (cores ▸ wf), core, same]
    simp only [counts, and_true]

/-- The end of an instruction that changes the flags and the accumulator array of its core. -/
theorem headDone_matrixDone {s t : State} {e : VEntry} {fl : BitVec 7} (ready : VecReady s.vlc) (wf : Tab.wf CoreSt.reset t.cores = true)
    (i : Instr) (eq : t = { headState s e with vlc := { (headState s e).vlc with fflags := fl, vstart := 0 }, cores := t.cores })
    (others : ∀ c, c ≠ s.vlc.core → t.core c = s.core c) : MatrixDone s (headDone t i) s.vlc.vf.fresh := by
  have vlc := headDone_vlc (f := s.vlc.vf.fresh) ready ((congrArg State.vlc eq).trans (by rw [← headState_vf s e])) i
  refine ⟨⟨rfl, rfl, rfl, rfl⟩, ?_, fun c other => ?_⟩
  · rw [headDone_rest, vlc]
    dsimp only
    rw [eq]
    rfl
  · have core : t.vlc.core = s.vlc.core := by rw [eq]; exact headState_core s e
    rw [headDone_core wf, core, if_neg fun h => other h.1, others c other]

/-- The elements of the array are those that the body left. -/
theorem headDone_accBits {t : State} (wf : Tab.wf CoreSt.reset t.cores = true) (i : Instr) (c : Nat) (x : Nat × Nat) :
    accBits ((headDone t i).core c) x = accBits (t.core c) x := by
  rw [headDone_core wf]
  split <;> rfl

end Sys2Proof.Machine


/-! ## Machine family: the accumulator array (R154, R155, R163) -/

namespace Sys2Proof.Machine

/-! ### Cells of the array -/

/-- The view of a mode that is on has the cells of R155. -/
theorem viewCell_eq {m : Nat} (on : m ≠ 0) (t i j : Nat) : viewCell m t i j = arrayCell m t i j := by
  simp [viewCell, arrayCell, on]

/-- Elements of a tile stand in cells of their own. -/
theorem arrayCell_inj {m t i j k l : Nat} (h : arrayCell m t i j = arrayCell m t k l) : i = k ∧ j = l := by
  simp only [arrayCell, Prod.mk.injEq] at h
  omega

/-- A cell of a tile is a column of the array. -/
theorem arrayCell_column {m t i j : Nat} (mode : m = 16 ∨ m = 32 ∨ m = 64) (hj : j < m) : (arrayCell m t i j).2 < 64 := by
  rcases mode with rfl | rfl | rfl <;> simp only [arrayCell] <;> omega

/-- A cell of a tile that exists is a row of the array. -/
theorem arrayCell_row {m t i j : Nat} (mode : m = 16 ∨ m = 32 ∨ m = 64) (tile : t < 64 / m * (64 / m)) (hi : i < m) : (arrayCell m t i j).1 < 64 := by
  rcases mode with rfl | rfl | rfl <;> simp only [arrayCell] <;> omega

/-- A mask bit at a register file is that of R163. -/
theorem maskBit_eq (v : Vlc) (pg : BitVec 2) (off i : Nat) : maskBit v.vf pg off i = maskOf v pg off i := by
  unfold maskBit maskOf
  by_cases all : pg = 0
  · simp [all]
  · rw [if_neg all, decide_eq_false all, Bool.false_or]

/-- An element is the bits that stand in its cell. -/
theorem testBit_accBits (k : CoreSt) (x : Nat × Nat) (i : Nat) :
    (accBits k x).testBit i = (decide (i < 32) && (Tab.get 0 k.acc x.1).toNat.testBit (32 * x.2 + i)) := by
  unfold accBits field
  rw [Nat.testBit_mod_two_pow, Nat.testBit_div_two_pow, Nat.add_comm]

/-- What the array holds after a write to a cell. -/
theorem accBits_accPut {k : CoreSt} (wf : Tab.wf 0 k.acc = true) {x y : Nat × Nat} (hx : x.2 < 64) (hy : y.2 < 64) (v : Nat) :
    accBits (accPut k x v) y = if y = x then v % 2 ^ 32 else accBits k y := by
  apply Nat.eq_of_testBit_eq
  intro i
  have row : Tab.get 0 (accPut k x v).acc y.1 = if y.1 = x.1 then
      BitVec.ofNat 2048 (setField (Tab.get 0 k.acc x.1).toNat (32 * x.2) 32 v) else Tab.get 0 k.acc y.1 := Tab.get_set _ wf x.1 y.1 _
  rw [testBit_accBits, row]
  by_cases low : i < 32
  · by_cases same : y.1 = x.1
    · rw [if_pos same, BitVec.toNat_ofNat, Nat.testBit_mod_two_pow, testBit_setField]
      by_cases cell : y = x
      · subst cell
        rw [if_pos rfl, if_pos (by omega), Nat.testBit_mod_two_pow]
        simp [low, show 32 * y.2 + i < 2048 by omega]
      · have column : y.2 ≠ x.2 := fun h => cell (Prod.ext same h)
        rw [if_neg cell, if_neg (by omega), testBit_accBits, same]
        simp [show 32 * y.2 + i < 2048 by omega]
    · rw [if_neg same, if_neg fun h => same (congrArg Prod.fst h), testBit_accBits]
  · by_cases cell : y = x
    · rw [if_pos cell, Nat.testBit_mod_two_pow]
      simp [low]
    · simp [cell, low, testBit_accBits]

/-! ### Writes to a tile -/

/-- `k'` is the core `k` after writes to the elements of tile `t` that `r` names, and to no other. -/
structure Committed (k : CoreSt) (m t : Nat) (r : CellRule) (k' : CoreSt) : Prop where
  rest : k' = { k with acc := k'.acc }
  clean : k'.accPoison = []
  wf : Tab.wf 0 k'.acc = true
  written : ∀ i j x, i < m → j < m → r i j = some x → accBits k' (arrayCell m t i j) = x % 2 ^ 32
  kept : ∀ y z, y < 64 → z < 64 → (∀ i j x, i < m → j < m → r i j = some x → arrayCell m t i j ≠ (y, z)) → accBits k' (y, z) = accBits k (y, z)

theorem Committed.refl {k : CoreSt} (clean : k.accPoison = []) (wf : Tab.wf 0 k.acc = true) (m t : Nat) :
    Committed k m t (fun _ _ => none) k :=
  ⟨rfl, clean, wf, fun _ _ _ _ _ h => (nomatch h), fun _ _ _ _ _ => rfl⟩

section
variable {k k' : CoreSt} {m t : Nat} {r : CellRule}

/-- Only the rule inside the tile counts. -/
theorem Committed.congr (h : Committed k m t r k') {q : CellRule} (same : ∀ i j, i < m → j < m → q i j = r i j) : Committed k m t q k' where
  rest := h.rest
  clean := h.clean
  wf := h.wf
  written i j x hi hj e := h.written i j x hi hj (same i j hi hj ▸ e)
  kept y z hy hz no := h.kept y z hy hz fun i j x hi hj e => no i j x hi hj (same i j hi hj ▸ e)

/-- One more element is written. -/
theorem Committed.put (mode : m = 16 ∨ m = 32 ∨ m = 64) (h : Committed k m t r k') (p : Nat × Nat) (hp : p.1 < m ∧ p.2 < m) (x : Nat) :
    Committed k m t (fun i j => if (i, j) = p then some x else r i j) (accPut k' (arrayCell m t p.1 p.2) x) := by
  have column := arrayCell_column (t := t) (i := p.1) mode hp.2
  refine ⟨?_, ?_, Tab.wf_set _ h.wf _ _, fun i j y hi hj e => ?_, fun y z hy hz no => ?_⟩
  · rw [h.rest]
    simp [accPut, show k.accPoison = [] by rw [← h.clean, h.rest]]
  · simp [accPut, h.clean]
  · rw [accBits_accPut h.wf column (arrayCell_column mode hj)]
    by_cases at_ : (i, j) = p
    · subst at_
      rw [if_pos rfl] at e ⊢
      rw [Option.some.inj e]
    · rw [if_neg at_] at e
      rw [if_neg fun c => at_ (Prod.ext (arrayCell_inj c).1 (arrayCell_inj c).2)]
      exact h.written i j y hi hj e
  · rw [accBits_accPut h.wf column hz, if_neg fun c => no p.1 p.2 x hp.1 hp.2 (if_pos rfl) c.symm]
    refine h.kept y z hy hz fun i j w hi hj e => ?_
    by_cases at_ : (i, j) = p
    · exact no i j x hi hj (if_pos at_)
    · exact no i j w hi hj ((if_neg at_).trans e)

/-- The elements of a list are written. -/
theorem Committed.puts (mode : m = 16 ∨ m = 32 ∨ m = 64) (g : Nat × Nat → Nat) (ps : List (Nat × Nat)) (inside : ∀ p ∈ ps, p.1 < m ∧ p.2 < m)
    (h : Committed k m t r k') :
    Committed k m t (fun i j => if (i, j) ∈ ps then some (g (i, j)) else r i j)
      ((ps.map fun p => (arrayCell m t p.1 p.2, g p)).foldl (fun k x => accPut k x.1 x.2) k') := by
  induction ps generalizing r k' with
  | nil => exact h.congr fun _ _ _ _ => if_neg (List.not_mem_nil)
  | cons p ps ih =>
    refine (ih (fun q hq => inside q (List.mem_cons_of_mem _ hq)) (h.put mode p (inside p List.mem_cons_self) (g p))).congr
      fun i j _ _ => ?_
    by_cases tail : (i, j) ∈ ps
    · rw [if_pos tail, if_pos (List.mem_cons_of_mem _ tail)]
    · rw [if_neg tail]
      by_cases head : (i, j) = p
      · rw [if_pos head, if_pos (head ▸ List.mem_cons_self), head]
      · rw [if_neg head, if_neg (by simp [head, tail])]

/-- An element of a tile that no write has reached reads as before. -/
theorem Committed.unwritten (mode : m = 16 ∨ m = 32 ∨ m = 64) (tile : t < 64 / m * (64 / m)) (h : Committed k m t r k') {i j : Nat} (hi : i < m) (hj : j < m) (no : r i j = none) :
    accBits k' (arrayCell m t i j) = accBits k (arrayCell m t i j) := by
  refine h.kept _ _ (arrayCell_row (j := j) mode tile hi) (arrayCell_column (i := i) mode hj) fun a b x _ _ e c => ?_
  · obtain ⟨rfl, rfl⟩ := arrayCell_inj c
    simp [no] at e

end

/-- The writes to a core are what an instruction leaves in the array. -/
theorem Committed.arrayHolds {s u : State} {t : Nat} {r : CellRule} {k : CoreSt} (h : Committed (s.core s.vlc.core) s.vlc.mvl t r k)
    (same : ∀ x, accBits (u.core s.vlc.core) x = accBits k x) : ArrayHolds s u t r :=
  ⟨fun i j x hi hj e => (same _).trans (h.written i j x hi hj e), fun y z hy hz no => (same _).trans (h.kept y z hy hz no)⟩

/-! ### Steps in order -/

/-- Steps that each end well, in a turn without an end, keep what every step keeps. -/
theorem iterate_done {f : Nat → State → State × VEnd} {P : Nat → State → Prop} (whole : ∀ k u, P k u → u.vlc.run = some ⟨none, none⟩)
    (n i : Nat) (step : ∀ k u, i ≤ k → k < i + n → P k u → ∃ u', f k u = (u', .done) ∧ P (k + 1) u') (s : State) (h : P i s) :
    ∃ u, iterate f n i s = (u, .done) ∧ P (i + n) u := by
  induction n generalizing i s with
  | zero => exact ⟨s, rfl, h⟩
  | succ n ih =>
    obtain ⟨u, run, next⟩ := step i s (Nat.le_refl _) (by omega) h
    have unspent : s.vlc.spent = false := by simp [Vlc.spent, whole i s h]
    have spend : u.modVlc Vlc.spend = u := by
      have r := whole (i + 1) u next
      have : u.vlc.spend = u.vlc := by simp only [Vlc.spend, r]; rw [show u.vlc = { u.vlc with run := u.vlc.run } from rfl, r]; rfl
      simp [State.modVlc, this]
    obtain ⟨w, last, done⟩ := ih (i + 1) (fun k u ge lt => step k u (by omega) (by omega)) u next
    refine ⟨w, ?_, (show i + (n + 1) = i + 1 + n by omega) ▸ done⟩
    simp [iterate, unspent, run, spend, last]

/-! ### The commit of a row -/

section
variable (u : State) (xs : List ((Nat × Nat) × Nat)) (fl : Fl)

@[simp] theorem commitRow_vlc : (commitRow u xs fl).vlc = u.vlc.orFlags fl := rfl

theorem commitRow_rest : commitRow u xs fl = { u with vlc := u.vlc.orFlags fl, cores := (commitRow u xs fl).cores } := rfl

variable {u}

theorem commitRow_wf (wf : Tab.wf CoreSt.reset u.cores = true) : Tab.wf CoreSt.reset (commitRow u xs fl).cores = true :=
  State.modCore_wf wf u.vlc.core fun k => xs.foldl (fun k (x : (Nat × Nat) × Nat) => accPut k x.1 x.2) k

theorem commitRow_core (wf : Tab.wf CoreSt.reset u.cores = true) (c : Nat) : (commitRow u xs fl).core c =
    if c = u.vlc.core then xs.foldl (fun k x => accPut k x.1 x.2) (u.core u.vlc.core) else u.core c :=
  State.core_modCore wf u.vlc.core c fun k => xs.foldl (fun k (x : (Nat × Nat) × Nat) => accPut k x.1 x.2) k

end

/-! ### Sources without poison -/

/-- Where no word is poisoned a list of elements reads as the register file holds it. -/
theorem readAll_clean {v : Vlc} (clean : v.poison = []) (rs : Reads) :
    readAll v rs = .ok (rs.map fun r => v.vf.elem r.1 r.2.1 r.2.2) := by
  induction rs with
  | nil => rfl
  | cons r rs ih =>
    obtain ⟨b, w, i⟩ := r
    simp [readAll, Vlc.readElem, poisonIn, clean, ih]

/-- Reads in turns pair up. -/
theorem pairUp_flatMap {α : Type} (f g : α → Nat) (xs : List α) : pairUp (xs.flatMap fun x => [f x, g x]) = xs.map fun x => (f x, g x) := by
  induction xs with
  | nil => rfl
  | cons x xs ih => simpa [pairUp] using ih

/-- The array without poison reads as it holds. -/
theorem accGet_clean {k : CoreSt} (clean : k.accPoison = []) (x : Nat × Nat) : accGet k x = .ok (accBits k x) := by
  simp [accGet, clean]

end Sys2Proof.Machine


/-! ## Machine family: outer products, clearing and writing a line of a view (R164 to R166, R181) -/

namespace Sys2Proof.Machine

/-- What an entry has of the configuration of its VLC. -/
structure Captured (e : VEntry) (v : Vlc) : Prop where
  vl : e.vl = v.vl
  vt : e.vt = v.vt
  frm : e.frm = v.frm.toNat
  rot : e.rot = v.rot
  mvl : e.mvl = v.mvl
  tsm : e.tsm = v.tsm
  tsn : e.tsn = v.tsn
  tsk : e.tsk = v.tsk

theorem capture_captured (v : Vlc) (i : Instr) (d a b : Nat) (xd xa xb : Word) : Captured (capture v i d a b xd xa xb) v :=
  ⟨rfl, rfl, rfl, rfl, rfl, rfl, rfl, rfl⟩

/-! ### An instruction that changes the flags and a tile alone -/

/-- `u` is `w` but for the flags and the elements of tile `t` that `r` names. -/
structure MatrixAt (w : State) (t : Nat) (r : CellRule) (u : State) : Prop where
  rest : u = { w with vlc := { w.vlc with fflags := u.vlc.fflags }, cores := u.cores }
  wf : Tab.wf CoreSt.reset u.cores = true
  others : ∀ c, c ≠ w.vlc.core → u.core c = w.core c
  cells : Committed (w.core w.vlc.core) w.vlc.mvl t r (u.core w.vlc.core)

theorem MatrixAt.refl {w : State} (wf : Tab.wf CoreSt.reset w.cores = true) (clean : (w.core w.vlc.core).accPoison = [])
    (acc : Tab.wf 0 (w.core w.vlc.core).acc = true) (t : Nat) : MatrixAt w t (fun _ _ => none) w :=
  ⟨rfl, wf, fun _ _ => rfl, .refl clean acc _ _⟩

section
variable {w u : State} {t : Nat} {r : CellRule}

theorem MatrixAt.congr (h : MatrixAt w t r u) {q : CellRule} (same : ∀ i j, i < w.vlc.mvl → j < w.vlc.mvl → q i j = r i j) :
    MatrixAt w t q u :=
  ⟨h.rest, h.wf, h.others, h.cells.congr same⟩

/-- Nothing of the VLC but the flags differs. -/
theorem MatrixAt.vlc (h : MatrixAt w t r u) : u.vlc = { w.vlc with fflags := u.vlc.fflags } := congrArg State.vlc h.rest

/-- A row is committed. -/
theorem MatrixAt.commit (mode : w.vlc.mvl = 16 ∨ w.vlc.mvl = 32 ∨ w.vlc.mvl = 64) (h : MatrixAt w t r u) (g : Nat × Nat → Nat)
    (ps : List (Nat × Nat)) (inside : ∀ p ∈ ps, p.1 < w.vlc.mvl ∧ p.2 < w.vlc.mvl) (fl : Fl) :
    MatrixAt w t (fun i j => if (i, j) ∈ ps then some (g (i, j)) else r i j)
      (commitRow u (ps.map fun p => (arrayCell w.vlc.mvl t p.1 p.2, g p)) fl) := by
  have core : u.vlc.core = w.vlc.core := by rw [h.vlc]
  refine ⟨?_, commitRow_wf _ _ h.wf, fun c other => ?_, ?_⟩
  · rw [commitRow_rest, h.rest]
    rfl
  · rw [commitRow_core _ _ h.wf, core, if_neg other, h.others c other]
  · rw [commitRow_core _ _ h.wf, core, if_pos rfl]
    exact h.cells.puts mode g ps inside

end

section
variable {s u : State} {e : VEntry} {t : Nat} {r : CellRule}

/-- The end of such an instruction, issued at `s`. -/
theorem MatrixAt.matrixDone (ready : VecReady s.vlc) (h : MatrixAt (headState s e) t r u) (i : Instr) :
    MatrixDone s (headDone u.clearVstart i) s.vlc.vf.fresh := by
  refine headDone_matrixDone (t := u.clearVstart) (e := e) (fl := u.vlc.fflags) ready h.wf i ?_ fun c other => ?_
  · show { u with vlc := { u.vlc with vstart := 0 } } = _
    conv_lhs => rw [h.rest]
    rfl
  · exact h.others c (by rwa [headState_core])

theorem MatrixAt.arrayHolds (h : MatrixAt (headState s e) t r u) (mvl : (headState s e).vlc.mvl = s.vlc.mvl) (i : Instr) :
    ArrayHolds s (headDone u.clearVstart i) t r := by
  have cells := h.cells
  rw [mvl, headState_core] at cells
  exact cells.arrayHolds fun x => headDone_accBits (t := u.clearVstart) h.wf i _ x

end

/-- The flags at the end are those that the body left. -/
theorem headDone_fflags (t : State) (i : Instr) : (headDone t i).vlc.fflags = t.vlc.fflags := by
  unfold headDone
  dsimp only
  split <;> rfl

@[simp] theorem headState_mvl (s : State) (e : VEntry) : (headState s e).vlc.mvl = s.vlc.mvl := by rw [headState_vlc]

/-- At the start nothing of the array is written. -/
theorem matrixAt_head {s : State} {d : Fld} (tables : TablesOk s) (tile : TileReady s d) (e : VEntry) (t : Nat) :
    MatrixAt (headState s e) t (fun _ _ => none) (headState s e) := by
  obtain ⟨-, cores, -⟩ := tables
  obtain ⟨-, -, clean, wf⟩ := tile
  exact .refl (w := headState s e) cores (by rwa [headState_core, headState_coreAt]) (by rwa [headState_core, headState_coreAt]) t

/-- The tile field of an instruction on a tile that exists. -/
theorem tileBad_ready {s : State} {d : Fld} (tile : TileReady s d) (which : Nat) : tileBad s.vlc.mvl d which = 0 := by
  obtain ⟨mode, inside, -⟩ := tile
  have on : s.vlc.mvl ≠ 0 := by omega
  unfold tileBad
  rw [if_neg on, if_neg (by omega)]

/-! ### Outer products (R164, R165) -/

/-- The elements of an outer product in the rows below `k`. -/
def outerRows (op : MxOp) (pg : BitVec 2) (t an bn : Nat) (s : State) (k : Nat) : CellRule := fun r c =>
  if s.vlc.vstart.toNat ≤ r ∧ r < k ∧ maskOf s.vlc pg 0 r = true ∧ maskOf s.vlc pg 4 c = true then
    some (outerElem op s.vlc.vt.cls s.vlc.vt.sew.bits s.vlc.frm.toNat
      (if op = .over then 0 else accBits (s.core s.vlc.core) (arrayCell s.vlc.mvl t r c)) (outerPairs s.vlc pg an bn r c)).1
  else none

/-- A row of an outer product. -/
def outerStep (op : MxOp) (pg : BitVec 2) (e : VEntry) (i : Nat) (s : State) : State × VEnd :=
  if maskBit s.vlc.vf pg 0 i then
    match outerCols op pg e i s (activeCols s.vlc.vf pg e.mvl) with
    | .error t => (s, .fault t)
    | .ok (xs, f) => (commitRow s xs f, .done)
  else (s, .done)

theorem outerBody_eq (op : MxOp) (pg : BitVec 2) (e : VEntry) (s : State) : outerBody op pg e s =
    if tagOn (s.vlc.vf.tagOf e.a) ∨ tagOn (s.vlc.vf.tagOf e.b) then (s, .fault (trapInfo fcROT_TAG 2))
    else thenDone (iterate (outerStep op pg e) (e.mvl - s.vlc.vstart.toNat) s.vlc.vstart.toNat s) id := rfl

section
variable {op : MxOp} {pg : BitVec 2} {e : VEntry} {v : Vlc} {u : State}

/-- A row of an outer product over sources and an array without poison. -/
theorem outerCols_clean (file : u.vlc.vf = v.vf.fresh) (poison : u.vlc.poison = []) (clean : (u.core u.vlc.core).accPoison = [])
    (cap : Captured e v) (on : e.mvl ≠ 0) (i : Nat) (js : List Nat) :
    ∃ fl, outerCols op pg e i u js = .ok (js.map fun j => (arrayCell e.mvl e.d i j, (outerElem op v.vt.cls v.vt.sew.bits e.frm
      (if op = .over then 0 else accBits (u.core u.vlc.core) (arrayCell e.mvl e.d i j)) (outerPairs v pg e.a e.b i j)).1), fl) := by
  induction js with
  | nil => exact ⟨0, rfl⟩
  | cons j js ih =>
    obtain ⟨fl, rest⟩ := ih
    have old : (if op = .over then Except.ok 0 else accGet (u.core u.vlc.core) (arrayCell e.mvl e.d i j)) =
        .ok (if op = .over then 0 else accBits (u.core u.vlc.core) (arrayCell e.mvl e.d i j)) := by
      rw [accGet_clean clean]
      split <;> rfl
    have mask (k : Nat) : maskBit v.vf.fresh pg 8 k = maskOf v pg 8 k := maskBit_eq v pg 8 k
    have pairs : (((List.range (32 / v.vt.sew.bits)).filter fun k => maskBit v.vf.fresh pg 8 k && decide (i * (32 / v.vt.sew.bits) + k < v.vl) &&
        decide (j * (32 / v.vt.sew.bits) + k < v.vl)).map fun k => (v.vf.fresh.elem e.a v.vt.sew.bits (i * (32 / v.vt.sew.bits) + k),
          v.vf.fresh.elem e.b v.vt.sew.bits (j * (32 / v.vt.sew.bits) + k))) = outerPairs v pg e.a e.b i j := by
      simp only [mask]
      rfl
    refine ⟨(outerElem op v.vt.cls v.vt.sew.bits e.frm
      (if op = .over then 0 else accBits (u.core u.vlc.core) (arrayCell e.mvl e.d i j)) (outerPairs v pg e.a e.b i j)).2 ||| fl, ?_⟩
    simp only [outerCols, viewCell_eq on, old, readAll_clean poison, List.map_flatMap, List.map_cons, List.map_nil, pairUp_flatMap, rest, cap.vt, cap.vl, file]
    rw [pairs]

end


section
variable {op : MxOp} {pg : BitVec 2} {s : State} {e : VEntry}

/-- The row of an outer product that follows. -/
theorem outerRows_succ {t an bn : Nat} (k i j : Nat) (row : s.vlc.vstart.toNat ≤ k) : outerRows op pg t an bn s (k + 1) i j =
    if i = k ∧ maskOf s.vlc pg 0 k = true ∧ maskOf s.vlc pg 4 j = true then
      some (outerElem op s.vlc.vt.cls s.vlc.vt.sew.bits s.vlc.frm.toNat
        (if op = .over then 0 else accBits (s.core s.vlc.core) (arrayCell s.vlc.mvl t k j)) (outerPairs s.vlc pg an bn k j)).1
    else outerRows op pg t an bn s k i j := by
  unfold outerRows
  by_cases at_ : i = k
  · subst at_
    simp [row]
  · have : i < k + 1 ↔ i < k := by omega
    simp [at_, this]

/-- The active columns of a row, as elements of the tile. -/
theorem mem_activeCols {f : VFile} {v : Vlc} (mask : ∀ off i, maskBit f pg off i = maskOf v pg off i) {n k r c : Nat} (hc : c < n) :
    (r, c) ∈ (activeCols f pg n).map (fun j => (k, j)) ↔ r = k ∧ maskOf v pg 4 c = true := by
  simp only [List.mem_map, activeCols, List.mem_filter, List.mem_range, mask, Prod.mk.injEq]
  constructor
  · rintro ⟨j, ⟨-, on⟩, rfl, rfl⟩
    exact ⟨rfl, on⟩
  · rintro ⟨rfl, on⟩
    exact ⟨c, ⟨hc, on⟩, rfl, rfl⟩

/-- They stand in the tile. -/
theorem activeCols_inside {f : VFile} {n k : Nat} (row : k < n) (p : Nat × Nat) (hp : p ∈ (activeCols f pg n).map fun j => (k, j)) :
    p.1 < n ∧ p.2 < n := by
  obtain ⟨j, hj, rfl⟩ := List.mem_map.1 hp
  exact ⟨row, List.mem_range.1 (List.mem_of_mem_filter hj)⟩

/-- A row of an outer product is added to the array. -/
theorem outerStep_run (cap : Captured e s.vlc) (poison : s.vlc.poison = []) (mode : s.vlc.mvl = 16 ∨ s.vlc.mvl = 32 ∨ s.vlc.mvl = 64)
    (tile : e.d < 64 / s.vlc.mvl * (64 / s.vlc.mvl)) {k : Nat} (ge : s.vlc.vstart.toNat ≤ k) (row : k < s.vlc.mvl) {u : State}
    (h : MatrixAt (headState s e) e.d (outerRows op pg e.d e.a e.b s k) u) :
    ∃ u', outerStep op pg e k u = (u', .done) ∧ MatrixAt (headState s e) e.d (outerRows op pg e.d e.a e.b s (k + 1)) u' := by
  have file : u.vlc.vf = s.vlc.vf.fresh := by rw [h.vlc, headState_vf]
  have mask (off i : Nat) : maskBit u.vlc.vf pg off i = maskOf s.vlc pg off i := by rw [file]; exact maskBit_eq s.vlc pg off i
  unfold outerStep
  rw [mask]
  by_cases active : maskOf s.vlc pg 0 k = true
  · have core : u.vlc.core = s.vlc.core := by rw [h.vlc, headState_core]
    have cells := h.cells
    rw [headState_core, headState_coreAt, headState_mvl] at cells
    obtain ⟨fl, cols⟩ := outerCols_clean (op := op) (pg := pg) file (by rw [h.vlc, headState_poison, poison])
      (by rw [core]; exact cells.clean) cap (by have := cap.mvl; omega) k (activeCols u.vlc.vf pg e.mvl)
    rw [if_pos active, cols]
    have next := h.commit (by rwa [headState_mvl]) (fun p => (outerElem op s.vlc.vt.cls s.vlc.vt.sew.bits e.frm
      (if op = .over then 0 else accBits (u.core u.vlc.core) (arrayCell e.mvl e.d p.1 p.2)) (outerPairs s.vlc pg e.a e.b p.1 p.2)).1)
      ((activeCols u.vlc.vf pg e.mvl).map fun j => (k, j)) (by rw [headState_mvl, cap.mvl]; exact activeCols_inside row) fl
    rw [List.map_map, headState_mvl, ← cap.mvl] at next
    refine ⟨_, rfl, next.congr fun r c hr hc => ?_⟩
    rw [headState_mvl] at hr hc
    rw [outerRows_succ k r c ge]
    have member := mem_activeCols (k := k) (r := r) mask (cap.mvl ▸ hc : c < e.mvl)
    by_cases at_ : r = k ∧ maskOf s.vlc pg 4 c = true
    · have old := cells.unwritten mode tile hr hc (i := r) (j := c) (if_neg (by omega))
      rw [if_pos (member.2 at_), if_pos ⟨at_.1, active, at_.2⟩, core, cap.mvl, old, cap.frm, at_.1]
    · rw [if_neg fun m => at_ (member.1 m), if_neg fun m => at_ ⟨m.1, m.2.2⟩]
  · rw [if_neg active]
    refine ⟨u, rfl, h.congr fun r c _ _ => ?_⟩
    rw [outerRows_succ k r c ge, if_neg fun m => active m.2.1]

/-- An outer product adds its rows one after the other. -/
theorem outerBody_run (cap : Captured e s.vlc) (poison : s.vlc.poison = []) (mode : s.vlc.mvl = 16 ∨ s.vlc.mvl = 32 ∨ s.vlc.mvl = 64)
    (tile : e.d < 64 / s.vlc.mvl * (64 / s.vlc.mvl)) (start : s.vlc.vstart.toNat ≤ s.vlc.mvl)
    (tagA : (s.vlc.vf.tagOf e.a).getLsbD 5 = false) (tagB : (s.vlc.vf.tagOf e.b).getLsbD 5 = false)
    (fresh : MatrixAt (headState s e) e.d (fun _ _ => none) (headState s e)) :
    ∃ u, outerBody op pg e (headState s e) = (u.clearVstart, .done) ∧
      MatrixAt (headState s e) e.d (outerRows op pg e.d e.a e.b s s.vlc.mvl) u := by
  have tags : ¬ (tagOn ((headState s e).vlc.vf.tagOf e.a) ∨ tagOn ((headState s e).vlc.vf.tagOf e.b)) := by
    rw [headState_vf]
    show ¬ (((s.vlc.vf.tagOf e.a).getLsbD 5 = true) ∨ ((s.vlc.vf.tagOf e.b).getLsbD 5 = true))
    rw [tagA, tagB]
    simp
  have first : MatrixAt (headState s e) e.d (outerRows op pg e.d e.a e.b s s.vlc.vstart.toNat) (headState s e) :=
    fresh.congr fun r c _ _ => if_neg (by omega)
  obtain ⟨u, run, done⟩ := iterate_done (f := outerStep op pg e) (P := fun k u => MatrixAt (headState s e) e.d (outerRows op pg e.d e.a e.b s k) u)
    (fun k u h => by rw [h.vlc, headState_run]) (s.vlc.mvl - s.vlc.vstart.toNat) s.vlc.vstart.toNat
    (fun k u ge lt h => outerStep_run cap poison mode tile ge (by omega) h) (headState s e) first
  rw [Nat.add_sub_cancel' start] at done
  refine ⟨u, ?_, done⟩
  rw [outerBody_eq, if_neg tags, headState_vstart, cap.mvl, run]
  rfl

end

/-- An outer product is issued with its tile and its two groups. -/
theorem exec_outer {i : Instr} {op : MxOp} {pg : BitVec 2} {d a b : Fld} (form : outerForm i = some (op, pg, d, a, b)) (s : State) :
    exec i s = issueOuter i d a b s ∧ bodyOf i = outerBody op pg ∧ ∀ v e, e.i = i → entryCount v e = e.mvl := by
  unfold outerForm at form
  split at form
  · obtain ⟨rfl, rfl, rfl, rfl, rfl⟩ := form
    exact ⟨rfl, rfl, fun v e he => by rw [entryCount, he]⟩
  · obtain ⟨rfl, rfl, rfl, rfl, rfl⟩ := form
    exact ⟨rfl, rfl, fun v e he => by rw [entryCount, he]⟩
  · obtain ⟨rfl, rfl, rfl, rfl, rfl⟩ := form
    exact ⟨rfl, rfl, fun v e he => by rw [entryCount, he]⟩
  · nomatch form

/-- An outer product leaves the sums of R164 and R165 in the array. -/
theorem exec_outer_holds {i : Instr} {s : State} {op : MxOp} {pg : BitVec 2} {d a b : Fld} (form : outerForm i = some (op, pg, d, a, b))
    (ready : VecReady s.vlc) (poison : s.vlc.poison = []) (tables : TablesOk s) (tile : TileReady s d)
    (start : s.vlc.vstart = 0 ∨ s.vlc.vstart.toNat < s.vlc.mvl) (narrow : s.vlc.vt.sew.bits < 64)
    (groupA : groupOk (vNum s.vlc.winv a) (2 ^ s.vlc.vt.grp.val)) (groupB : groupOk (vNum s.vlc.winv b) (2 ^ s.vlc.vt.grp.val))
    (tagA : (s.vlc.vf.tagOf (vNum s.vlc.winv a)).getLsbD 5 = false) (tagB : (s.vlc.vf.tagOf (vNum s.vlc.winv b)).getLsbD 5 = false) :
    ∃ t f, exec i s = .next t ∧ MatrixDone s t f ∧
      ArrayHolds s t d.toNat (outerRows op pg d.toNat (vNum s.vlc.winv a) (vNum s.vlc.winv b) s s.vlc.mvl) := by
  obtain ⟨enter, body, count⟩ := exec_outer form s
  have bad := tileBad_ready tile 1
  have fresh := matrixAt_head tables tile (capture s.vlc i d.toNat (vNum s.vlc.winv a) (vNum s.vlc.winv b) 0 0 0) d.toNat
  obtain ⟨mode, inside, -, -⟩ := tile
  have sew : (s.vlc.vt.sew == .e64) = false := by
    rw [beq_eq_false_iff_ne]
    intro h
    rw [h] at narrow
    exact absurd narrow (by decide)
  obtain ⟨u, run, done⟩ := outerBody_run (op := op) (pg := pg) (capture_captured s.vlc i d.toNat (vNum s.vlc.winv a) (vNum s.vlc.winv b) 0 0 0)
    poison mode inside (by rcases start with h | h <;> simp_all <;> omega) tagA tagB fresh
  have next := issue_head (sp := ⟨tileBad s.vlc.mvl d 1, s.vlc.vt.sew == .e64,
      [(vNum s.vlc.winv a, grpNames s.vlc.vt), (vNum s.vlc.winv b, grpNames s.vlc.vt)], false, false, true⟩) ready
    (specTrap_none ready (wordOf i) bad sew (by simp [grpNames, groupA, groupB]) rfl rfl)
    (start.imp_right fun h => .inl (by rw [count _ _ rfl]; exact h)) run
  refine ⟨_, _, ?_, done.matrixDone ready i, done.arrayHolds (headState_mvl _ _) i⟩
  rw [enter, issueOuter, body]
  exact next


/-! ### Clearing a tile and writing a line (R166, R181) -/

/-- One commit over the elements of a list leaves their values. -/
theorem commit_once {s : State} {e : VEntry} {t : Nat} (mode : s.vlc.mvl = 16 ∨ s.vlc.mvl = 32 ∨ s.vlc.mvl = 64)
    (fresh : MatrixAt (headState s e) t (fun _ _ => none) (headState s e)) (g : Nat × Nat → Nat) (ps : List (Nat × Nat))
    (inside : ∀ p ∈ ps, p.1 < s.vlc.mvl ∧ p.2 < s.vlc.mvl) :
    MatrixAt (headState s e) t (fun i j => if (i, j) ∈ ps then some (g (i, j)) else none)
      (commitRow (headState s e) (ps.map fun p => (arrayCell s.vlc.mvl t p.1 p.2, g p)) 0) := by
  have done := fresh.commit (by rwa [headState_mvl]) g ps (by rwa [headState_mvl]) 0
  rwa [headState_mvl] at done

/-- A commit without flags leaves FFLAGS. -/
theorem commitRow_fflags_zero (u : State) (xs : List ((Nat × Nat) × Nat)) (i : Instr) :
    (headDone (commitRow u xs 0).clearVstart i).vlc.fflags = u.vlc.fflags := by
  rw [headDone_fflags]
  exact BitVec.or_zero

/-- The active elements of a tile. -/
def tileCells (f : VFile) (pg : BitVec 2) (n : Nat) : List (Nat × Nat) :=
  ((List.range n).filter (maskBit f pg 0)).flatMap fun i => (activeCols f pg n).map fun j => (i, j)

theorem mem_tileCells {f : VFile} {v : Vlc} {pg : BitVec 2} (mask : ∀ off i, maskBit f pg off i = maskOf v pg off i) {n r c : Nat}
    (hr : r < n) (hc : c < n) : (r, c) ∈ tileCells f pg n ↔ maskOf v pg 0 r = true ∧ maskOf v pg 4 c = true := by
  simp only [tileCells, List.mem_flatMap, List.mem_filter, List.mem_range, mask, mem_activeCols mask hc]
  constructor
  · rintro ⟨i, ⟨-, row⟩, rfl, col⟩
    exact ⟨row, col⟩
  · rintro ⟨row, col⟩
    exact ⟨r, ⟨hr, row⟩, rfl, col⟩

theorem tileCells_inside {f : VFile} {pg : BitVec 2} {n : Nat} (p : Nat × Nat) (hp : p ∈ tileCells f pg n) : p.1 < n ∧ p.2 < n := by
  obtain ⟨i, hi, hj⟩ := List.mem_flatMap.1 hp
  exact activeCols_inside (List.mem_range.1 (List.mem_of_mem_filter hi)) p hj

/-- `mclr` writes 0 to them. -/
theorem mclrBody_eq {e : VEntry} (on : e.mvl ≠ 0) (pg : BitVec 2) (s : State) : mclrBody pg e (headState s e) =
    ((commitRow (headState s e) ((tileCells s.vlc.vf.fresh pg e.mvl).map fun p => (arrayCell e.mvl e.d p.1 p.2, 0)) 0).clearVstart, .done) := by
  simp only [mclrBody, tileCells, List.map_flatMap, List.map_map, viewCell_eq on, headState_vf]
  rfl

/-- `mclr` clears the active elements of its tile. -/
theorem exec_mclr_holds {pg : BitVec 2} {d : Fld} {s : State} (ready : VecReady s.vlc) (tables : TablesOk s) (tile : TileReady s d)
    (start : s.vlc.vstart = 0) :
    ∃ t f, exec (.mclr pg d) s = .next t ∧ MatrixDone s t f ∧ t.vlc.fflags = s.vlc.fflags ∧
      ArrayHolds s t d.toNat fun r c => if maskOf s.vlc pg 0 r = true ∧ maskOf s.vlc pg 4 c = true then some 0 else none := by
  have bad := tileBad_ready tile 1
  have fresh := matrixAt_head tables tile (capture s.vlc (.mclr pg d) d.toNat (xNum s.vlc.wins 0) (xNum s.vlc.wins 0) 0 (s.vlc.rx 0) (s.vlc.rx 0)) d.toNat
  obtain ⟨mode, -, -, -⟩ := tile
  have done := commit_once mode fresh (fun _ => 0) (tileCells s.vlc.vf.fresh pg s.vlc.mvl) tileCells_inside
  have run := mclrBody_eq (e := capture s.vlc (.mclr pg d) d.toNat (xNum s.vlc.wins 0) (xNum s.vlc.wins 0) 0 (s.vlc.rx 0) (s.vlc.rx 0))
    (show s.vlc.mvl ≠ 0 by omega) pg s
  have next := issue_head (sp := ⟨tileBad s.vlc.mvl d 1, false, [], false, false, true⟩) ready
    (specTrap_none ready _ bad rfl (by simp) rfl rfl) (.inl start) run
  refine ⟨_, _, next, done.matrixDone ready _, ?_, (done.congr fun r c hr hc => ?_).arrayHolds (headState_mvl _ _) _⟩
  · exact (commitRow_fflags_zero _ _ _).trans (headState_fflags _ _)
  · rw [headState_mvl] at hr hc
    simp only [mem_tileCells (f := s.vlc.vf.fresh) (v := s.vlc) (fun off k => maskBit_eq s.vlc pg off k) hr hc]

/-- Row and column of element `k` of a line. -/
def linePlace (l : Nat × Bool) (k : Nat) : Nat × Nat := if l.2 then (k, l.1) else (l.1, k)

theorem lineCell_eq {e : VEntry} (on : e.mvl ≠ 0) (t : Nat) (l : Nat × Bool) (k : Nat) :
    lineCell e t l k = arrayCell e.mvl t (linePlace l k).1 (linePlace l k).2 := by
  unfold lineCell linePlace
  simp only [viewCell_eq on]
  split <;> rfl

/-- A line of the view that x[B] names (R181). -/
theorem lineOf_some {e : VEntry} (small : e.xb.toNat < 512) (line : e.xb.toNat % 256 < e.mvl) :
    lineOf e = some (e.xb.toNat % 256, decide (256 ≤ e.xb.toNat)) := by
  have index : field e.xb.toNat 0 8 = e.xb.toNat % 256 := by simp [field]
  have column : bitOf e.xb.toNat 8 = decide (256 ≤ e.xb.toNat) := by
    by_cases big : 256 ≤ e.xb.toNat
    · simp [bitOf, big, show e.xb.toNat / 256 = 1 by omega]
    · simp [bitOf, big, show e.xb.toNat / 256 = 0 by omega]
  unfold lineOf
  dsimp only
  rw [index, column, if_neg (by omega)]

/-- Its mask bits are those of its rows or columns (R163). -/
theorem lineOn_eq (v : Vlc) (pg : BitVec 2) (l : Nat × Bool) (k : Nat) : lineOn v.vf pg l k = maskOf v pg (if l.2 then 0 else 4) k :=
  maskBit_eq v pg _ k

/-- The elements of a line that `mwr` writes. -/
def lineCells (v : Vlc) (pg : BitVec 2) (l : Nat × Bool) : List (Nat × Nat) :=
  ((List.range (min v.vl v.mvl)).filter fun k => maskOf v pg (if l.2 then 0 else 4) k).map (linePlace l)

theorem mem_lineCells {v : Vlc} {pg : BitVec 2} {l : Nat × Bool} {r c : Nat} (hr : r < v.mvl) (hc : c < v.mvl) :
    (r, c) ∈ lineCells v pg l ↔ (if l.2 then c else r) = l.1 ∧ (if l.2 then r else c) < v.vl ∧
      maskOf v pg (if l.2 then 0 else 4) (if l.2 then r else c) = true := by
  obtain ⟨n, col⟩ := l
  cases col
  case true =>
    simp only [lineCells, linePlace, if_true, List.mem_map, List.mem_filter, List.mem_range, Prod.mk.injEq]
    constructor
    · rintro ⟨k, ⟨lt, on⟩, rfl, rfl⟩
      exact ⟨rfl, by omega, on⟩
    · rintro ⟨rfl, lt, on⟩
      exact ⟨r, ⟨by omega, on⟩, rfl, rfl⟩
  case false =>
    simp only [lineCells, linePlace, Bool.false_eq_true, if_false, List.mem_map, List.mem_filter, List.mem_range, Prod.mk.injEq]
    constructor
    · rintro ⟨k, ⟨lt, on⟩, rfl, rfl⟩
      exact ⟨rfl, by omega, on⟩
    · rintro ⟨rfl, lt, on⟩
      exact ⟨c, ⟨by omega, on⟩, rfl, rfl⟩

theorem lineCells_inside {v : Vlc} {pg : BitVec 2} {l : Nat × Bool} (line : l.1 < v.mvl) (p : Nat × Nat) (hp : p ∈ lineCells v pg l) :
    p.1 < v.mvl ∧ p.2 < v.mvl := by
  obtain ⟨k, hk, rfl⟩ := List.mem_map.1 hp
  have := List.mem_range.1 (List.mem_of_mem_filter hk)
  unfold linePlace
  split <;> exact ⟨by omega, by omega⟩

/-- `mwr` writes the elements of its group to them. -/
theorem mwrBody_eq {e : VEntry} {v : Vlc} {l : Nat × Bool} (cap : Captured e v) (on : e.mvl ≠ 0) (line : lineOf e = some l) {u : State}
    (file : u.vlc.vf = v.vf.fresh) (poison : u.vlc.poison = []) (tag : (v.vf.tagOf e.a).getLsbD 5 = false) (pg : BitVec 2) :
    mwrBody pg e u = ((commitRow u ((lineCells v pg l).map fun p => (arrayCell e.mvl e.d p.1 p.2,
      v.vf.elem e.a 32 (if l.2 then p.1 else p.2))) 0).clearVstart, .done) := by
  have tagOff : tagOn (v.vf.fresh.tagOf e.a) = false := tag
  have element (k : Nat) : v.vf.elem e.a 32 (if l.2 then (linePlace l k).1 else (linePlace l k).2) = v.vf.elem e.a 32 k := by
    unfold linePlace
    split <;> rfl
  have mask : lineOn v.vf.fresh pg l = fun k => maskOf v pg (if l.2 then 0 else 4) k := funext (lineOn_eq v pg l)
  have cells : lineCell e e.d l = fun k => arrayCell e.mvl e.d (linePlace l k).1 (linePlace l k).2 := funext (lineCell_eq on e.d l)
  simp only [mwrBody, line, file, tagOff, Bool.false_eq_true, if_false, readAll_clean poison, mask, cells, lineCells, List.map_map, List.zip_map', cap.vl, cap.mvl,
    Function.comp_def, element]
  rfl

/-- The checks of `mrd` and `mwr` on VTYPE. -/
theorem lineOk_true {t : Vtype} (sew : t.sew = .e32) (cls : clsRange t.cls 0 2) : (!lineOk t) = false := by
  obtain ⟨lo, hi⟩ := cls
  simp [lineOk, clsIn, sew, lo, hi]

/-- `mwr` writes a line of the view. -/
theorem exec_mwr_holds {pg : BitVec 2} {d a b : Fld} {s : State} (ready : VecReady s.vlc) (tables : TablesOk s) (tile : TileReady s d)
    (poison : s.vlc.poison = []) (start : s.vlc.vstart = 0) (sew : s.vlc.vt.sew = .e32) (cls : clsRange s.vlc.vt.cls 0 2)
    (group : groupOk (vNum s.vlc.winv a) (2 ^ s.vlc.vt.grp.val)) (tag : (s.vlc.vf.tagOf (vNum s.vlc.winv a)).getLsbD 5 = false)
    (small : (s.vlc.rx b).toNat < 512) (line : (s.vlc.rx b).toNat % 256 < s.vlc.mvl) :
    ∃ t f, exec (.mwr pg d a b) s = .next t ∧ MatrixDone s t f ∧ t.vlc.fflags = s.vlc.fflags ∧
      ArrayHolds s t d.toNat fun r c =>
        let col := 256 ≤ (s.vlc.rx b).toNat
        let k := if col then r else c
        if (if col then c else r) = (s.vlc.rx b).toNat % 256 ∧ k < s.vlc.vl ∧ maskOf s.vlc pg (if col then 0 else 4) k = true then
          some (s.vlc.vf.elem (vNum s.vlc.winv a) 32 k) else none := by
  have bad := tileBad_ready tile 1
  generalize he : capture s.vlc (.mwr pg d a b) d.toNat (vNum s.vlc.winv a) (xNum s.vlc.wins b) 0 0 (s.vlc.rx b) = e
  have cap : Captured e s.vlc := he ▸ capture_captured ..
  have ex : e.xb = s.vlc.rx b := by rw [← he]; rfl
  have ea : e.a = vNum s.vlc.winv a := by rw [← he]; rfl
  have ed : e.d = d.toNat := by rw [← he]; rfl
  have fresh := matrixAt_head tables tile e e.d
  obtain ⟨mode, -, -, -⟩ := tile
  have done := commit_once mode fresh (fun p => s.vlc.vf.elem e.a 32 (if decide (256 ≤ e.xb.toNat) then p.1 else p.2))
    (lineCells s.vlc pg (e.xb.toNat % 256, decide (256 ≤ e.xb.toNat))) (lineCells_inside (by rwa [ex]))
  have run := mwrBody_eq (u := headState s e) cap (by rw [cap.mvl]; omega) (lineOf_some (by rwa [ex]) (by rwa [ex, cap.mvl])) (headState_vf s e)
    (by rwa [headState_poison]) (by rwa [ea]) pg
  rw [cap.mvl] at run
  rw [← ed, ← ea, ← ex]
  subst he
  have next := issue_head (sp := ⟨tileBad s.vlc.mvl d 1, !lineOk s.vlc.vt, [(vNum s.vlc.winv a, grpNames s.vlc.vt)], false, false, true⟩) ready
    (specTrap_none ready _ bad (lineOk_true sew cls) (by simpa [grpNames] using group) rfl rfl) (.inl start) run
  refine ⟨_, _, next, done.matrixDone ready _, ?_, (done.congr fun r c hr hc => ?_).arrayHolds (headState_mvl _ _) _⟩
  · exact (commitRow_fflags_zero _ _ _).trans (headState_fflags _ _)
  · rw [headState_mvl] at hr hc
    simp only [mem_lineCells hr hc, decide_eq_true_eq]

end Sys2Proof.Machine


/-! ## Machine family: the elements of a group under writes and tails (R118, R120, R124, R128) -/

namespace Sys2Proof.Machine

/-! ### Rows and names -/

/-- Bit `m` of a mask of one name. -/
theorem getLsbD_onename {n m : Nat} (hm : m < 256) : (BitVec.ofNat 256 (2 ^ n)).getLsbD m = decide (n = m) := by
  rw [BitVec.getLsbD_ofNat, Nat.testBit_two_pow]
  simp [hm]

section
variable (f : VFile) (base w i x : Nat)

theorem VFile.dead_setElem {m : Nat} (hm : m < 256) : (f.setElem base w i x).dead.getLsbD m =
    (f.dead.getLsbD m && decide (m ≠ base + i * w / 2048)) := by
  show (f.dead &&& ~~~ BitVec.ofNat 256 (2 ^ (base + i * w / 2048))).getLsbD m = _
  rw [BitVec.getLsbD_and, BitVec.getLsbD_not, getLsbD_onename hm]
  simp [hm, eq_comm]

/-- A row after a write of an element. -/
theorem VFile.row_setElem {m : Nat} (hm : m < 256) : (f.setElem base w i x).row m =
    if m = base + i * w / 2048 then setField (f.row m) (i * w % 2048) w x % 2 ^ 2048 else f.row m := by
  unfold VFile.row
  rw [VFile.dead_setElem f base w i x hm]
  by_cases at_ : m = base + i * w / 2048
  · subst at_
    have written : (f.setElem base w i x).v[base + i * w / 2048]? =
        some (BitVec.ofNat 2048 (setField (f.row (base + i * w / 2048)) (i * w % 2048) w x)) := by
      show (f.v.setIfInBounds _ _)[_]? = _
      rw [Vector.getElem?_setIfInBounds_self_of_lt hm]
    rw [written, if_pos rfl]
    simp [VFile.row]
  · have other : (f.setElem base w i x).v[m]? = f.v[m]? := Vector.getElem?_setIfInBounds_ne (Ne.symm at_)
    rw [other, if_neg at_]
    simp [at_]

theorem VFile.dead_kill (n : Nat) {m : Nat} (hm : m < 256) : (f.kill n).dead.getLsbD m = (f.dead.getLsbD m || decide (m = n)) := by
  show (f.dead ||| BitVec.ofNat 256 (2 ^ n)).getLsbD m = _
  rw [BitVec.getLsbD_or, getLsbD_onename hm]
  simp [eq_comm]

/-- A row after the release of a name. -/
theorem VFile.row_kill (n : Nat) {m : Nat} (hm : m < 256) : (f.kill n).row m = if m = n then 0 else f.row m := by
  unfold VFile.row
  rw [VFile.dead_kill f n hm]
  by_cases at_ : m = n
  · simp [at_]
  · have other : (f.kill n).v[m]? = f.v[m]? := Vector.getElem?_setIfInBounds_ne (Ne.symm at_)
    rw [other]
    simp [at_]

/-- Bit `b` of an element. -/
theorem VFile.testBit_elem (b : Nat) : (f.elem base w i).testBit b =
    (decide (b < w) && (f.row (base + i * w / 2048)).testBit (i * w % 2048 + b)) := by
  unfold VFile.elem field
  rw [Nat.testBit_mod_two_pow, Nat.testBit_div_two_pow, Nat.add_comm b]

end

/-! ### Elements of one width in a group -/

/-- A width that fills a row, with the elements of a row. -/
theorem elem_place {w per : Nat} (fills : per * w = 2048) (i : Nat) : i * w / 2048 = i / per ∧ i * w % 2048 = i % per * w := by
  have pos : 0 < w := Nat.pos_of_ne_zero (by rintro rfl; simp at fills)
  rw [← fills]
  exact ⟨Nat.mul_div_mul_right _ _ pos, Nat.mul_mod_mul_right _ _ _⟩

/-- Two elements of a row do not overlap, and none leaves it. -/
theorem elem_apart {w per i j : Nat} (h : i % per < j % per) : i % per * w + w ≤ j % per * w := by
  rw [← Nat.succ_mul]
  exact Nat.mul_le_mul_right w h

theorem elem_in_row {w per : Nat} (fills : per * w = 2048) (i : Nat) : i % per * w + w ≤ 2048 := by
  have pos : 0 < per := Nat.pos_of_ne_zero (by rintro rfl; simp at fills)
  rw [← Nat.succ_mul, ← fills]
  exact Nat.mul_le_mul_right w (Nat.mod_lt i pos)

/-- An element after a write of an element of the group. -/
theorem VFile.elem_setElem {f : VFile} {base w per i j : Nat} (fills : per * w = 2048) (hj : base + j / per < 256) (x : Nat) :
    (f.setElem base w i x).elem base w j = if j = i then x % 2 ^ w else f.elem base w j := by
  obtain ⟨rowi, offi⟩ := elem_place fills i
  obtain ⟨rowj, offj⟩ := elem_place fills j
  apply Nat.eq_of_testBit_eq
  intro b
  have inRow := elem_in_row fills j
  rw [VFile.testBit_elem, rowj, offj, VFile.row_setElem f base w i x hj, rowi, offi]
  by_cases low : b < w
  · by_cases same : j / per = i / per
    · rw [if_pos (by omega), Nat.testBit_mod_two_pow, testBit_setField]
      by_cases at_ : j = i
      · subst at_
        rw [if_pos rfl, if_pos (by omega), Nat.testBit_mod_two_pow]
        simp [low, show j % per * w + b < 2048 by omega]
      · have : ¬ (i % per * w ≤ j % per * w + b ∧ j % per * w + b < i % per * w + w) := by
          rcases Nat.lt_trichotomy (i % per) (j % per) with lt | eq | gt
          · have := elem_apart (w := w) lt
            omega
          · exact absurd (by rw [← Nat.div_add_mod j per, ← Nat.div_add_mod i per, same, eq]) at_
          · have := elem_apart (w := w) gt
            omega
        rw [if_neg at_, if_neg this, VFile.testBit_elem, rowj, offj]
        simp [show j % per * w + b < 2048 by omega]
    · rw [if_neg (by omega), if_neg (by rintro rfl; exact same rfl), VFile.testBit_elem, rowj, offj]
  · by_cases at_ : j = i
    · rw [if_pos at_, Nat.testBit_mod_two_pow]
      simp [low]
    · rw [if_neg at_, VFile.testBit_elem]
      simp [low]

/-- The file `g` holds `val` in the elements of a group below `lim`, and is `f` outside the group. -/
structure Elems (f : VFile) (base names w lim : Nat) (g : VFile) (val : Nat → Nat) : Prop where
  elem : ∀ i, i < lim → g.elem base w i = val i
  outside : ∀ n, n < 256 → n < base ∨ base + names ≤ n → g.row n = f.row n ∧ g.dead.getLsbD n = f.dead.getLsbD n
  tag : g.tag = f.tag
  p : g.p = f.p

theorem Elems.refl (f : VFile) (base names w lim : Nat) : Elems f base names w lim f fun i => f.elem base w i :=
  ⟨fun _ _ => rfl, fun _ _ _ => ⟨rfl, rfl⟩, rfl, rfl⟩

section
variable {f g : VFile} {base names w per : Nat} {val : Nat → Nat}

theorem Elems.congr {lim : Nat} (h : Elems f base names w lim g val) {val' : Nat → Nat} (same : ∀ i, i < lim → val' i = val i) :
    Elems f base names w lim g val' :=
  ⟨fun i hi => (h.elem i hi).trans (same i hi).symm, h.outside, h.tag, h.p⟩

/-- The name of an element of a group. -/
theorem elem_name {i : Nat} (hi : i < names * per) : i / per < names := Nat.div_lt_of_lt_mul (by rwa [Nat.mul_comm])

/-- One element is written. -/
theorem Elems.set (fills : per * w = 2048) (fits : base + names ≤ 256) (h : Elems f base names w (names * per) g val) {i : Nat}
    (hi : i < names * per) (x : Nat) : Elems f base names w (names * per) (g.setElem base w i x) fun j => if j = i then x % 2 ^ w else val j := by
  have name := elem_name hi
  refine ⟨fun j hj => ?_, fun n hn out => ?_, h.tag, h.p⟩
  · have := elem_name hj
    rw [VFile.elem_setElem fills (by omega), h.elem j hj]
  · have other : n ≠ base + i * w / 2048 := by
      rw [(elem_place fills i).1]
      generalize i / per = q at name
      omega
    rw [VFile.row_setElem g base w i x hn, if_neg other, VFile.dead_setElem g base w i x hn, (h.outside n hn out).1, (h.outside n hn out).2]
    simp [other]

/-- The elements of a list are written. -/
theorem Elems.sets (fills : per * w = 2048) (fits : base + names ≤ 256) (on : Nat → Bool) (idx y : Nat → Nat) (ks : List Nat)
    (inside : ∀ k ∈ ks, on k = true → idx k < names * per) (h : Elems f base names w (names * per) g val) :
    Elems f base names w (names * per) (ks.foldl (fun g k => if on k then g.setElem base w (idx k) (y (idx k)) else g) g)
      fun j => if j ∈ (ks.filter on).map idx then y j % 2 ^ w else val j := by
  induction ks generalizing g val with
  | nil => exact h.congr fun i _ => by simp
  | cons k ks ih =>
    by_cases here : on k = true
    · rw [List.foldl_cons, if_pos here]
      refine (ih (fun q hq => inside q (List.mem_cons_of_mem _ hq)) (h.set fills fits (inside k List.mem_cons_self here) (y (idx k)))).congr
        fun j _ => ?_
      rw [List.filter_cons_of_pos here, List.map_cons]
      by_cases at_ : j = idx k
      · simp [at_]
      · simp only [List.mem_cons, at_, false_or, if_false]
    · rw [List.foldl_cons, if_neg here]
      refine (ih (fun q hq => inside q (List.mem_cons_of_mem _ hq)) h).congr fun j _ => ?_
      rw [List.filter_cons_of_neg here]

/-- A name of the group is released: its elements read 0. -/
theorem Elems.kill (fills : per * w = 2048) (fits : base + names ≤ 256) (h : Elems f base names w (names * per) g val) {k : Nat}
    (hk : k < names) : Elems f base names w (names * per) (g.kill (base + k)) fun j => if j / per = k then 0 else val j := by
  refine ⟨fun j hj => ?_, fun n hn out => ?_, h.tag, h.p⟩
  · have name := elem_name hj
    have row := (elem_place fills j).1
    rw [← h.elem j hj]
    unfold VFile.elem
    rw [VFile.row_kill g (base + k) (by omega), row]
    by_cases at_ : j / per = k
    · rw [if_pos (by omega), if_pos at_]
      simp [field]
    · rw [if_neg (by omega), if_neg at_]
  · have other : n ≠ base + k := by omega
    rw [VFile.row_kill g _ hn, if_neg other, VFile.dead_kill g _ hn, (h.outside n hn out).1, (h.outside n hn out).2]
    simp [other]

/-! ### The tail -/

/-- The ones of an agnostic tail. -/
theorem onesElem_mod (c : Cls) (hw : 6 ≤ w) : onesElem c w % 2 ^ w = if c = .e3m2 ∨ c = .e2m3 then 63 else 2 ^ w - 1 := by
  have pos : 0 < 2 ^ w := Nat.two_pow_pos w
  unfold onesElem fpMask
  split
  · have big : 2 ^ 6 ≤ 2 ^ w := Nat.pow_le_pow_right (by decide) hw
    have split6 : 2 ^ w = 64 * 2 ^ (w - 6) := by
      rw [show (64 : Nat) = 2 ^ 6 from rfl, ← Nat.pow_add, Nat.add_sub_cancel' hw]
    have ones : (2 ^ w - 1) % 64 = 63 := by omega
    rw [ones, Nat.mod_eq_of_lt (by omega)]
  · exact Nat.mod_eq_of_lt (by omega)

/-- The names of a tail that dies: released where the tail fills them, else zeroed from element `c` up. -/
def deadTail (base w n c per : Nat) (g : VFile) (k : Nat) : VFile :=
  if k * 2048 ≥ c * w then g.kill (base + k)
  else (List.range (min (n - c) per)).foldl (fun g j =>
    let i := k * per + (per - 1 - j)
    if i ≥ c then g.setElem base w i 0 else g) g

theorem Elems.deadTail (fills : per * w = 2048) (fits : base + names ≤ 256) (c k : Nat) (hk : k < names)
    (h : Elems f base names w (names * per) g val) :
    Elems f base names w (names * per) (deadTail base w (names * per) c per g k) fun j => if c ≤ j ∧ j / per = k then 0 else val j := by
  have pos : 0 < per := Nat.pos_of_ne_zero (by rintro rfl; simp at fills)
  have wpos : 0 < w := Nat.pos_of_ne_zero (by rintro rfl; simp at fills)
  have next : k * per + per ≤ names * per := by
    rw [← Nat.succ_mul]
    exact Nat.mul_le_mul_right per hk
  have bounds (j : Nat) : j / per = k ↔ k * per ≤ j ∧ j < k * per + per := by
    rw [Nat.div_eq_iff pos]
    omega
  have row : k * 2048 ≥ c * w ↔ c ≤ k * per := by
    rw [← fills, ← Nat.mul_assoc]
    exact Nat.mul_le_mul_right_iff wpos
  unfold Machine.deadTail
  by_cases full : c ≤ k * per
  · rw [if_pos (row.2 full)]
    refine (h.kill fills fits hk).congr fun j _ => ?_
    by_cases at_ : j / per = k
    · have := (bounds j).1 at_
      rw [if_pos at_, if_pos ⟨by omega, at_⟩]
    · rw [if_neg at_, if_neg fun h => at_ h.2]
  · rw [if_neg fun h => full (row.1 h)]
    have step := h.sets fills fits (fun j => decide (k * per + (per - 1 - j) ≥ c)) (fun j => k * per + (per - 1 - j)) (fun _ => 0)
      (List.range (min (names * per - c) per)) fun j hj _ => by have := List.mem_range.1 hj; omega
    simp only [decide_eq_true_eq] at step
    refine step.congr fun j _ => ?_
    have member : j ∈ ((List.range (min (names * per - c) per)).filter fun j => decide (k * per + (per - 1 - j) ≥ c)).map
        (fun j => k * per + (per - 1 - j)) ↔ c ≤ j ∧ j / per = k := by
      rw [bounds]
      simp only [List.mem_map, List.mem_filter, List.mem_range, decide_eq_true_eq]
      constructor
      · rintro ⟨i, ⟨lt, ge⟩, rfl⟩
        omega
      · rintro ⟨ge, lo, hi⟩
        exact ⟨k * per + per - 1 - j, by omega, by omega⟩
    simp only [member, Nat.zero_mod]

/-- The tails of the names of a group. -/
theorem Elems.deadTails (fills : per * w = 2048) (fits : base + names ≤ 256) (c : Nat) {m : Nat} (hm : m ≤ names)
    (h : Elems f base names w (names * per) g val) :
    Elems f base names w (names * per) ((List.range m).foldl (Machine.deadTail base w (names * per) c per) g)
      fun j => if c ≤ j ∧ j / per < m then 0 else val j := by
  induction m with
  | zero => exact h.congr fun j _ => by simp
  | succ m ih =>
    rw [List.range_succ, List.foldl_append]
    refine ((ih (by omega)).deadTail fills fits c m (by omega)).congr fun j _ => ?_
    by_cases here : c ≤ j ∧ j / per = m
    · rw [if_pos here, if_pos ⟨here.1, by omega⟩]
    · rw [if_neg here]
      have : (c ≤ j ∧ j / per < m + 1) ↔ c ≤ j ∧ j / per < m := by
        generalize j / per = q at here ⊢
        omega
      simp only [this]

/-- A group after its tail (R124). -/
theorem Elems.tail (fills : per * w = 2048) (fits : base + names ≤ 256) (small : names * per ≤ 4096) (wide : 6 ≤ w) (t : Vtype) (cls : Cls)
    (c : Nat) (h : Elems f base names w (names * per) g val) :
    Elems f base names w (names * per) (g.tail t cls base names w c) fun j => if c ≤ j then tailValue t cls w (val j) else val j := by
  have wpos : 0 < w := by omega
  have perEq : 2048 / w = per := by rw [← fills, Nat.mul_div_cancel _ wpos]
  have count : min 4096 (names * 2048 / w) = names * per := by
    rw [← fills, ← Nat.mul_assoc, Nat.mul_div_cancel _ wpos, Nat.min_eq_right small]
  unfold VFile.tail tailValue
  cases t.tp
  case undisturbed => exact h.congr fun j _ => by simp
  case agnostic =>
    rw [count]
    have step := h.sets fills fits (fun _ => true) (fun k => c + k) (fun _ => onesElem cls w) (List.range (names * per - c)) fun k hk _ => by
      have := List.mem_range.1 hk
      omega
    refine step.congr fun j hj => ?_
    have member : j ∈ ((List.range (names * per - c)).filter fun _ => true).map (fun k => c + k) ↔ c ≤ j := by
      simp only [List.filter_true, List.mem_map, List.mem_range]
      constructor
      · rintro ⟨k, -, rfl⟩
        omega
      · intro ge
        exact ⟨j - c, by omega, by omega⟩
    simp only [member, onesElem_mod cls wide]
  case dead =>
    rw [count, perEq]
    refine (h.deadTails fills fits c (Nat.le_refl _)).congr fun j hj => ?_
    simp only [elem_name hj, and_true]

end

/-! ### Tags -/

/-- The tag of a name after the tag of a group is set (R128). -/
theorem VFile.tagOf_setTag (f : VFile) (base names : Nat) (t : BitVec 6) {m : Nat} (hm : m < 256) :
    (f.setTag base names t).tagOf m = if base ≤ m ∧ m < base + names then t else f.tagOf m := by
  unfold VFile.setTag VFile.tagOf
  induction names with
  | zero => rw [if_neg (by omega)]; rfl
  | succ n ih =>
    simp only [List.range_succ, List.foldl_append, List.foldl_cons, List.foldl_nil] at ih ⊢
    by_cases at_ : m = base + n
    · subst at_
      rw [Vector.getElem?_setIfInBounds_self_of_lt hm, if_pos (by omega)]
      rfl
    · rw [Vector.getElem?_setIfInBounds_ne (Ne.symm at_), ih]
      have : (base ≤ m ∧ m < base + (n + 1)) ↔ base ≤ m ∧ m < base + n := by omega
      simp only [this]

end Sys2Proof.Machine


/-! ## Machine family: reading a line of a view (R181) -/

namespace Sys2Proof.Machine

/-- Without poison a write of elements changes the register file alone. -/
theorem writeElems_clean {v : Vlc} (clean : v.poison = []) (base w : Nat) (ks : List Nat) (y : Nat → Nat) :
    ks.foldl (fun v k => v.writeElem base w k (y k)) v = { v with vf := ks.foldl (fun f k => f.setElem base w k (y k)) v.vf } := by
  induction ks generalizing v with
  | nil => rfl
  | cons k ks ih =>
    have step : v.writeElem base w k (y k) = { v with vf := v.vf.setElem base w k (y k) } := by
      simp [Vlc.writeElem, clean]
    rw [List.foldl_cons, List.foldl_cons, step]
    exact ih clean

theorem setFile_clean {v : Vlc} (clean : v.poison = []) (f : VFile) : v.setFile f = { v with vf := f } := by
  simp [Vlc.setFile, clean]

/-- The cells of a line without poison. -/
theorem accGetAll_clean {k : CoreSt} (clean : k.accPoison = []) (xs : List (Nat × Nat)) : accGetAll k xs = .ok (xs.map (accBits k)) := by
  induction xs with
  | nil => rfl
  | cons x xs ih => simp [accGetAll, accGet_clean clean, ih]

/-- The register file that `mrd` leaves where VL is not 0, over the values of the line. -/
def lineFile (v : Vlc) (pg : BitVec 2) (l : Nat × Bool) (base names : Nat) (y : Nat → Nat) (f : VFile) : VFile :=
  let on := fun k => maskOf v pg (if l.2 then 0 else 4) k
  let f := ((List.range (min v.vl v.mvl)).filter on).foldl (fun f k => f.setElem base 32 k (y k)) f
  let f := ((List.range v.vl).filter fun k => on k && decide (v.mvl ≤ k)).foldl (fun f k => f.setElem base 32 k 0) f
  let f := ((List.range v.vl).filter fun k => !on k && v.vt.mz).foldl (fun f k => f.setElem base 32 k 0) f
  (f.tail v.vt v.vt.cls base names 32 v.vl).setTag base names 0

section
variable {e : VEntry} {v : Vlc} {l : Nat × Bool} {u : State} (cap : Captured e v) (line : lineOf e = some l)
include cap line

/-- `mrd` of no elements changes nothing. -/
theorem mrdBody_empty (empty : v.vl = 0) (pg : BitVec 2) : mrdBody pg e u = (u.clearVstart, .done) := by
  simp [mrdBody, line, cap.vl, empty]

/-- `mrd` changes the register file alone. -/
theorem mrdBody_eq (pos : v.vl ≠ 0) (on : e.mvl ≠ 0) (file : u.vlc.vf = v.vf.fresh) (poison : u.vlc.poison = [])
    (clean : (u.core u.vlc.core).accPoison = []) (pg : BitVec 2) :
    mrdBody pg e u = ((u.modVlc fun w => { w with vf := lineFile v pg l e.d (grpNames v.vt) (fun k => accBits (u.core u.vlc.core)
      (arrayCell e.mvl e.a (linePlace l k).1 (linePlace l k).2)) v.vf.fresh }).clearVstart, .done) := by
  have mask : lineOn v.vf.fresh pg l = fun k => maskOf v pg (if l.2 then 0 else 4) k := funext (lineOn_eq v pg l)
  have cells : lineCell e e.a l = fun k => arrayCell e.mvl e.a (linePlace l k).1 (linePlace l k).2 := funext (lineCell_eq on e.a l)
  have pairs (ks : List Nat) (y : Nat → Nat) (w : Vlc) : (ks.zip (ks.map y)).foldl (fun w x => w.writeElem e.d 32 x.1 x.2) w =
      ks.foldl (fun w k => w.writeElem e.d 32 k (y k)) w := by
    rw [← List.map_id ks, List.map_map, List.zip_map', List.foldl_map]
    simp
  unfold mrdBody
  rw [line]
  dsimp only
  rw [if_neg (by rwa [cap.vl]), file, mask, cells, accGetAll_clean clean]
  dsimp only
  rw [List.map_map, pairs, writeElems_clean poison, writeElems_clean (y := fun _ => 0) (by exact poison), file, cap.vl, cap.vt, cap.mvl]
  rw [setFile_clean (by exact poison)]
  rfl

end

/-- A group at the registers of a field is inside the register file (R51, R123). -/
theorem group_fits {winv : Fin 3} {d : Fld} {n : Fin 4} (aligned : groupOk (vNum winv d) (2 ^ n.val)) : vNum winv d + 2 ^ n.val ≤ 256 := by
  have small : d.toNat < 128 := d.isLt
  unfold groupOk vNum at *
  have := winv.isLt
  have := n.isLt
  interval_cases n.val <;> omega

/-- Elements of a list are written with values of their own. -/
theorem Elems.writes {f g : VFile} {base names w per : Nat} {val : Nat → Nat} (fills : per * w = 2048) (fits : base + names ≤ 256)
    (ks : List Nat) (y : Nat → Nat) (inside : ∀ k ∈ ks, k < names * per) (h : Elems f base names w (names * per) g val) :
    Elems f base names w (names * per) (ks.foldl (fun g k => g.setElem base w k (y k)) g) fun j => if j ∈ ks then y j % 2 ^ w else val j := by
  have all := h.sets fills fits (fun _ => true) id y ks fun k hk _ => inside k hk
  simpa only [if_true, id, List.filter_true, List.map_id] using all

/-- What an element of a line is before the tail is written: read, zeroed, or kept. -/
def lineValue (v : Vlc) (pg : BitVec 2) (l : Nat × Bool) (y old : Nat → Nat) (k : Nat) : Nat :=
  if maskOf v pg (if l.2 then 0 else 4) k then (if k < v.mvl then y k else 0) % 2 ^ 32
  else if v.vt.mz then 0 else old k

/-- The elements of the group before the tail. -/
theorem lineFile_elems {v : Vlc} {pg : BitVec 2} {l : Nat × Bool} {base : Nat} (y : Nat → Nat) (fits : base + grpNames v.vt ≤ 256)
    (vl : v.vl ≤ grpNames v.vt * 64) : ∃ g, Elems v.vf.fresh base (grpNames v.vt) 32 (grpNames v.vt * 64) g (fun k => if v.vl ≤ k then
      tailValue v.vt v.vt.cls 32 (v.vf.elem base 32 k) else lineValue v pg l y (fun k => v.vf.elem base 32 k) k) ∧
      lineFile v pg l base (grpNames v.vt) y v.vf.fresh = g.setTag base (grpNames v.vt) 0 := by
  have below {p : Nat → Bool} {n k : Nat} (hk : k ∈ (List.range n).filter p) : k < n := List.mem_range.1 (List.mem_of_mem_filter hk)
  have grp : grpNames v.vt * 64 ≤ 4096 := by
    unfold grpNames
    have := v.vt.grp.isLt
    interval_cases v.vt.grp.val <;> decide
  have read := (Elems.refl v.vf.fresh base (grpNames v.vt) 32 (grpNames v.vt * 64)).writes (per := 64) (by decide) fits
    ((List.range (min v.vl v.mvl)).filter fun k => maskOf v pg (if l.2 then 0 else 4) k) y fun k hk => by have := below hk; omega
  have zeroed := read.writes (by decide) fits
    ((List.range v.vl).filter fun k => maskOf v pg (if l.2 then 0 else 4) k && decide (v.mvl ≤ k)) (fun _ => 0) fun k hk => by
      have := below hk
      omega
  have cleared := zeroed.writes (by decide) fits
    ((List.range v.vl).filter fun k => !maskOf v pg (if l.2 then 0 else 4) k && v.vt.mz) (fun _ => 0) fun k hk => by
      have := below hk
      omega
  refine ⟨_, (cleared.tail (by decide) fits grp (by decide) v.vt v.vt.cls v.vl).congr fun k _ => ?_, rfl⟩
  simp only [List.mem_filter, List.mem_range, lineValue]
  by_cases low : v.vl ≤ k
  · simp only [if_pos low, Nat.not_lt.2 low, false_and, if_false, show ¬ k < min v.vl v.mvl by omega]
    rfl
  · rw [if_neg low, if_neg low]
    by_cases on : maskOf v pg (if l.2 then 0 else 4) k = true
    · by_cases inside : k < v.mvl
      · simp [on, inside, show k < v.vl by omega, Nat.not_le.2 inside]
      · simp [on, inside, show k < v.vl by omega, Nat.not_lt.1 inside]
    · by_cases mz : v.vt.mz = true
      · simp [on, mz, show k < v.vl by omega]
      · simp only [on, mz]
        simp
        rfl

/-- The groups and tags after `mrd`. -/
theorem lineFile_holds {v : Vlc} {pg : BitVec 2} {l : Nat × Bool} {base : Nat} (y : Nat → Nat) (fits : base + grpNames v.vt ≤ 256)
    (vl : v.vl ≤ grpNames v.vt * 64) (pos : v.vl ≠ 0) (cls : clsRange v.vt.cls 0 2) :
    GroupHolds v ⟨fun k => maskOf v pg (if l.2 then 0 else 4) k, 0, v.vl, base, 32, grpNames v.vt, grpNames v.vt * 64, v.vt.cls, True,
      fun k => some (if k < v.mvl then y k else 0), fun _ => 0, 0, 0⟩ (lineFile v pg l base (grpNames v.vt) y v.vf.fresh) := by
  obtain ⟨g, holds, eq⟩ := lineFile_elems (pg := pg) (l := l) y fits vl
  have full : ¬ (v.vt.cls = .e3m2 ∨ v.vt.cls = .e2m3) := by
    obtain ⟨-, hi⟩ := cls
    rintro (h | h) <;> rw [h] at hi <;> exact absurd hi (by decide)
  rw [eq]
  refine ⟨fun k hk => (holds.elem k (Nat.lt_of_lt_of_le hk vl)).trans ?_, fun k ge lt => (holds.elem k lt).trans ?_, holds.outside, fun n hn => ?_, holds.p⟩
  · dsimp only at hk ⊢
    rw [if_neg (Nat.not_le.2 hk), if_neg (Nat.not_lt_zero k), lineValue, if_neg full]
  · dsimp only at ge ⊢
    rw [if_pos ge, if_neg pos]
  · rw [VFile.tagOf_setTag _ _ _ _ hn]
    have same : g.tagOf n = v.vf.tagOf n := by
      unfold VFile.tagOf
      rw [holds.tag]
      rfl
    simp only [same, pos, ne_eq, not_false_iff, true_and]

/-- A body that leaves the register file alone changed. -/
theorem headDone_file {s : State} {e : VEntry} (ready : VecReady s.vlc) (wf : Tab.wf CoreSt.reset s.cores = true) {i : Instr}
    (counts : countsVcomp i = true) (f : VFile) :
    VecDone s (headDone ((headState s e).modVlc fun w => { w with vf := f }).clearVstart i) f s.vlc.fflags := by
  rw [← headState_fflags s e]
  exact headDone_vecDone ready wf counts rfl

/-- VLMAX of a group of 32-bit elements. -/
theorem vlmaxOf_e32 {t : Vtype} (sew : t.sew = .e32) : vlmaxOf t ≤ grpNames t * 64 := by
  unfold vlmaxOf grpNames
  rw [sew]
  show min 4096 (2 ^ t.grp.val * 2048 / 32) ≤ _
  omega

/-- `mrd` reads a line of the view into a group. -/
theorem exec_mrd_holds {pg : BitVec 2} {d a b : Fld} {s : State} (ready : VecReady s.vlc) (tables : TablesOk s) (tile : TileReady s a)
    (poison : s.vlc.poison = []) (start : s.vlc.vstart = 0) (vl : s.vlc.vl ≤ vlmaxOf s.vlc.vt) (sew : s.vlc.vt.sew = .e32)
    (cls : clsRange s.vlc.vt.cls 0 2) (group : groupOk (vNum s.vlc.winv d) (2 ^ s.vlc.vt.grp.val))
    (small : (s.vlc.rx b).toNat < 512) (line : (s.vlc.rx b).toNat % 256 < s.vlc.mvl) :
    let l := ((s.vlc.rx b).toNat % 256, decide (256 ≤ (s.vlc.rx b).toNat))
    ∃ t f, exec (.mrd pg d a b) s = .next t ∧ VecDone s t f s.vlc.fflags ∧
      GroupHolds s.vlc ⟨fun k => maskOf s.vlc pg (if l.2 then 0 else 4) k, 0, s.vlc.vl, vNum s.vlc.winv d, 32, grpNames s.vlc.vt,
        grpNames s.vlc.vt * 64, s.vlc.vt.cls, True, fun k => some (if k < s.vlc.mvl then accBits (s.core s.vlc.core)
          (arrayCell s.vlc.mvl a.toNat (linePlace l k).1 (linePlace l k).2) else 0), fun _ => 0, 0, 0⟩ f := by
  intro l
  have bad := tileBad_ready tile 2
  have cores : Tab.wf CoreSt.reset s.cores = true := tables.2.1
  obtain ⟨mode, -, clean, -⟩ := tile
  have fits := group_fits group
  generalize he : capture s.vlc (.mrd pg d a b) (vNum s.vlc.winv d) a.toNat (xNum s.vlc.wins b) 0 0 (s.vlc.rx b) = e
  have cap : Captured e s.vlc := he ▸ capture_captured ..
  have ex : e.xb = s.vlc.rx b := by rw [← he]; rfl
  have ed : e.d = vNum s.vlc.winv d := by rw [← he]; rfl
  have ea : e.a = a.toNat := by rw [← he]; rfl
  have named : lineOf e = some l := by rw [lineOf_some (by rwa [ex]) (by rwa [ex, cap.mvl]), ex]
  have enter {t : State} (run : mrdBody pg e (headState s e) = (t, .done)) : exec (.mrd pg d a b) s = .next (headDone t (.mrd pg d a b)) := by
    subst he
    exact issue_head (sp := ⟨tileBad s.vlc.mvl a 2, !lineOk s.vlc.vt, [(vNum s.vlc.winv d, grpNames s.vlc.vt)], false, false, true⟩) ready
      (specTrap_none ready _ bad (lineOk_true sew cls) (by simpa [grpNames] using group) rfl rfl) (.inl start) run
  by_cases empty : s.vlc.vl = 0
  · refine ⟨_, _, enter (mrdBody_empty cap named empty pg), headDone_file (e := e) (i := .mrd pg d a b) ready cores rfl s.vlc.vf.fresh, ?_⟩
    refine ⟨fun k hk => ?_, fun k _ _ => (if_pos empty).symm, fun _ _ _ => ⟨rfl, rfl⟩, fun n _ => ?_, rfl⟩
    · exact absurd (empty ▸ hk : k < 0) (Nat.not_lt_zero k)
    · simp only [empty, ne_eq, not_true, false_and, if_false]
      rfl
  · have run := mrdBody_eq (u := headState s e) cap named empty (by rw [cap.mvl]; omega) (headState_vf s e) (by rwa [headState_poison])
      (by rwa [headState_core, headState_coreAt]) pg
    refine ⟨_, _, enter run, headDone_file ready cores rfl _, ?_⟩
    rw [headState_core, headState_coreAt, cap.mvl, ea, ed]
    exact lineFile_holds _ fits (Nat.le_trans vl (vlmaxOf_e32 sew)) empty cls


theorem arrayCell_linePlace (m t : Nat) (l : Nat × Bool) (k : Nat) : arrayCell m t (linePlace l k).1 (linePlace l k).2 =
    if l.2 then arrayCell m t k l.1 else arrayCell m t l.1 k := by
  unfold linePlace
  split <;> rfl

/-- Settles O43: each form leaves on its tile the writes of `MatrixAt`, row by row for an outer product and in one commit for `mclr` and
`mwr`; `mrd` leaves the file of `lineFile_holds`. -/
theorem accumulatorElements : Obligations.AccumulatorElements := by
  unfold Obligations.AccumulatorElements
  refine ⟨?_, fun pg d s ready tables tile start => exec_mclr_holds ready tables tile start, ?_, ?_⟩
  · intro i s op pg d a b form ready poison tables tile start narrow groupA groupB tagA tagB
    obtain ⟨t, f, run, done, array, others⟩ := exec_outer_holds form ready poison tables tile start narrow groupA groupB tagA tagB
    have rows (r c : Nat) (hr : r < s.vlc.mvl) : outerRows op pg d.toNat (vNum s.vlc.winv a) (vNum s.vlc.winv b) s s.vlc.mvl r c =
        if s.vlc.vstart.toNat ≤ r ∧ maskOf s.vlc pg 0 r = true ∧ maskOf s.vlc pg 4 c = true then
          some (outerElem op s.vlc.vt.cls s.vlc.vt.sew.bits s.vlc.frm.toNat
            (if op = .over then 0 else accBits (s.core s.vlc.core) (arrayCell s.vlc.mvl d.toNat r c))
            (outerPairs s.vlc pg (vNum s.vlc.winv a) (vNum s.vlc.winv b) r c)).1
        else none := by
      simp only [outerRows, hr, true_and]
    exact ⟨t, f, run, done, fun r c x hr hc e => array r c x hr hc ((rows r c hr).trans e),
      fun y z hy hz no => others y z hy hz fun r c x hr hc e => no r c x hr hc ((rows r c hr).symm.trans e)⟩
  · intro pg d a b s ready tables tile poison start vl sew cls group x line col small inside
    obtain ⟨t, f, run, done, holds⟩ := exec_mrd_holds ready tables tile poison start vl sew cls group small inside
    refine ⟨t, f, run, done, ?_⟩
    simp only [arrayCell_linePlace, decide_eq_true_eq] at holds
    exact holds
  · intro pg d a b s ready tables tile poison start sew cls group tag x line col small inside
    exact exec_mwr_holds ready tables tile poison start sew cls group tag small inside

end Sys2Proof.Machine


/-! ## Machine family: what a core sees while it reads (R193, R221, R257) -/

namespace Sys2Proof.Machine

/-! ### The bytes of a core at every address -/

/-- The byte of an address that stands at its home once the core's own dirty bytes have reached it. -/
def homeLine (s : State) (core a : Nat) : Byte :=
  match findLine s core a with
  | some l => if l.dirty.getLsbD (a % 128) then l.byte (a % 128) else belowL1 s core a
  | none => belowL1 s core a

/-- The core sees `V`, which also stands at the homes; no update and no poison is on its way, and each line stands once in an L1. -/
structure Sees (V : Nat → Byte) (core : Nat) (s : State) : Prop where
  wf : Tab.wf CoreSt.reset s.cores = true
  quiet : NoSnoops s core
  clean : s.poison = []
  single : ∀ c, ((s.core c).l1.map (·.line)).Nodup
  line : ∀ a, lineByte s core a = V a
  home : ∀ a, homeLine s core a = V a

/-- A core that is coherent sees what stands at the homes (R193). -/
theorem Sees.of_coherent {s : State} {core : Nat} (wf : Tab.wf CoreSt.reset s.cores = true) (caches : CachesOk s) (coherent : Coherent s core) :
    Sees (lineByte s core) core s := by
  obtain ⟨quiet, ⟨clean, -, -⟩, same⟩ := coherent
  refine ⟨wf, quiet, clean, fun c => (caches c).1, fun _ => rfl, fun a => ?_⟩
  have device : placeOf 0 = .device ∧ (0 : Nat) ≠ 3 := by decide
  have at_ := same (.phys 0 0) a
  rw [seenByte_device device.1 device.2, Nat.zero_add] at at_
  rw [at_, homeByte]
  simp only [device, ne_eq, and_self, if_true, Nat.zero_add]
  rfl

section
variable {V : Nat → Byte} {core : Nat} {s t : State}

/-- Sources of the bytes that have not changed. -/
structure SameBytes (s t : State) : Prop where
  wf : Tab.wf CoreSt.reset t.cores = true
  l1 : ∀ c, (t.core c).l1 = (s.core c).l1
  writeBacks : t.writeBacks = s.writeBacks
  snoops : t.snoops = s.snoops
  mem : t.mem = s.mem
  poison : t.poison = s.poison
  fenced : t.fenced = s.fenced
  gangs : t.gangs = s.gangs

theorem SameBytes.isFused (h : SameBytes s t) (d c : Nat) : isFused t d c = isFused s d c := by
  rw [Machine.isFused, State.isFenced, h.fenced, h.gangs]
  rfl

theorem SameBytes.l1Core (h : SameBytes s t) (c a : Nat) : l1Core t c a = l1Core s c a := by
  rw [Machine.l1Core, h.isFused]
  rfl

theorem SameBytes.l1Cores (h : SameBytes s t) (c : Nat) : l1Cores t c = l1Cores s c := by
  rw [Machine.l1Cores, h.isFused]
  rfl

theorem SameBytes.findLine (h : SameBytes s t) (c a : Nat) : findLine t c a = findLine s c a := by
  rw [Machine.findLine, h.l1Core, h.l1]
  rfl

theorem SameBytes.belowL1 (h : SameBytes s t) (c a : Nat) : belowL1 t c a = belowL1 s c a := by
  simp only [Machine.belowL1, inTransit, h.writeBacks, h.mem, h.l1Core]

theorem Sees.congr (h : Sees V core s) (same : SameBytes s t) : Sees V core t where
  wf := same.wf
  quiet x hx := by
    rw [same.l1Cores]
    exact h.quiet x (same.snoops ▸ hx)
  clean := same.poison.trans h.clean
  single c := same.l1 c ▸ h.single c
  line a := by rw [← h.line a, lineByte, lineByte, same.findLine, same.belowL1]
  home a := by rw [← h.home a, homeLine, homeLine, same.findLine, same.belowL1]

/-- The line of an address after an L1 has changed. -/
theorem findLine_modCore (wf : Tab.wf CoreSt.reset s.cores = true) (c : Nat) (f : CoreSt → CoreSt) (a : Nat) :
    findLine (s.modCore c f) core a =
      if l1Core s core a = c then (f (s.core c)).l1.find? (fun l => l.line == a / 128) else findLine s core a := by
  have l1 : l1Core (s.modCore c f) core a = l1Core s core a := rfl
  rw [findLine, l1, State.core_modCore wf]
  split <;> rfl

/-! ### A line that leaves an L1 -/

/-- Where a line has been sent home, its dirty bytes are in transit, before those that were there. -/
theorem inTransit_depart (c : Nat) (l : L1Line) (a : Nat) : inTransit (depart s c l) core a =
    if c = l1Core s core a ∧ l.line = a / 128 ∧ l.dirty.getLsbD (a % 128) = true then some (l.byte (a % 128)) else inTransit s core a := by
  by_cases clean : l.dirty = 0
  · have none_ : ¬ l.dirty.getLsbD (a % 128) = true := by simp [clean]
    rw [depart, if_pos clean, if_neg fun h => none_ h.2.2]
  · have l1 : l1Core (depart s c l) core a = l1Core s core a := (depart_moved s c l).l1Core core a
    have sent (u : State) : (countSent u c (l.line * 128)).writeBacks = u.writeBacks := by
      unfold countSent
      dsimp only
      split <;> rfl
    have wb : ∃ r, (depart s c l).writeBacks = s.writeBacks ++ [⟨c, r, l⟩] := by
      unfold depart
      rw [if_neg clean]
      dsimp only
      split
      · exact ⟨_, rfl⟩
      · exact ⟨_, by rw [sent]⟩
    obtain ⟨r, wb⟩ := wb
    unfold inTransit
    rw [l1, wb, List.filter_append]
    by_cases here : c = l1Core s core a ∧ l.line = a / 128 ∧ l.dirty.getLsbD (a % 128) = true
    · rw [if_pos here, List.filter_cons_of_pos (by simp [here.1, here.2.1, here.2.2]), List.filter_nil, List.getLast?_append]
      rfl
    · rw [if_neg here, List.filter_cons_of_neg, List.filter_nil, List.append_nil]
      simp only [Bool.and_eq_true, beq_iff_eq]
      exact fun h => here ⟨h.1.1, h.1.2, h.2⟩

/-- A line that is given up, its dirty bytes on their way home. -/
def giveUp (s : State) (c : Nat) (l : L1Line) : State :=
  (depart s c l).modCore c fun k => { k with l1 := k.l1.filter fun x => x.line != l.line }

theorem giveUp_moved (c : Nat) (l : L1Line) : CachesMoved s (giveUp s c l) := (depart_moved s c l).trans (.modCore c)

theorem depart_snoops (c : Nat) (l : L1Line) : (depart s c l).snoops = s.snoops := by
  unfold depart countSent
  dsimp only
  repeat' split
  all_goals rfl

theorem giveUp_l1 (wf : Tab.wf CoreSt.reset s.cores = true) (c : Nat) (l : L1Line) (b : Nat) : ((giveUp s c l).core b).l1 =
    if b = c then (s.core c).l1.filter fun x => x.line != l.line else (s.core b).l1 := by
  rw [giveUp, State.core_modCore ((depart_moved s c l).coresWf wf)]
  have same := depart_l1 s c l wf
  split
  · dsimp only
    rw [same]
  · exact same b

/-- Of a list with one element of each key, the element of a key is found. -/
theorem find?_of_mem {ls : List L1Line} (single : (ls.map (·.line)).Nodup) {l : L1Line} (mem : l ∈ ls) :
    ls.find? (fun x => x.line == l.line) = some l := by
  induction ls with
  | nil => nomatch mem
  | cons x ls ih =>
    rw [List.map_cons, List.nodup_cons] at single
    rw [List.find?_cons]
    by_cases at_ : x.line = l.line
    · have : x = l := by
        rcases List.mem_cons.1 mem with rfl | tail
        · rfl
        · exact absurd (List.mem_map.2 ⟨l, tail, at_.symm⟩) single.1
      simp [this]
    · have tail : l ∈ ls := (List.mem_cons.1 mem).resolve_left fun e => at_ (e ▸ rfl)
      simp only [beq_eq_false_iff_ne.2 at_]
      exact ih single.2 tail

/-- Giving up a line leaves what the core sees: its own bytes are in transit, the others stand below (R193). -/
theorem Sees.giveUp (h : Sees V core s) {c : Nat} {l : L1Line} (mem : l ∈ (s.core c).l1) : Sees V core (giveUp s c l) := by
  have moved := giveUp_moved (s := s) c l
  have l1Same (a : Nat) : l1Core (Machine.giveUp s c l) core a = l1Core s core a := moved.l1Core core a
  have transit (a : Nat) : inTransit (Machine.giveUp s c l) core a = inTransit (depart s c l) core a := rfl
  have below (a : Nat) (other : ¬ (c = l1Core s core a ∧ l.line = a / 128)) : belowL1 (Machine.giveUp s c l) core a = belowL1 s core a := by
    rw [belowL1, transit, inTransit_depart, if_neg fun e => other ⟨e.1, e.2.1⟩, moved.mem]
    rfl
  have found (a : Nat) (other : ¬ (c = l1Core s core a ∧ l.line = a / 128)) : findLine (Machine.giveUp s c l) core a = findLine s core a := by
    rw [findLine, findLine, l1Same, giveUp_l1 h.wf]
    by_cases here : l1Core s core a = c
    · rw [if_pos here, here, List.find?_filter]
      congr 1
      funext x
      have line : l.line ≠ a / 128 := fun e => other ⟨here.symm, e⟩
      by_cases at_ : x.line = a / 128
      · simp [at_, line.symm]
      · simp [at_]
    · rw [if_neg here]
  have gone (a : Nat) (here : c = l1Core s core a ∧ l.line = a / 128) :
      findLine (Machine.giveUp s c l) core a = none ∧ belowL1 (Machine.giveUp s c l) core a = V a := by
    obtain ⟨at_, line⟩ := here
    refine ⟨?_, ?_⟩
    · rw [findLine, l1Same, giveUp_l1 h.wf, ← at_, if_pos rfl, List.find?_filter, List.find?_eq_none]
      simp [line]
    · have held : findLine s core a = some l := by
        rw [findLine, ← at_, ← line]
        exact find?_of_mem (h.single c) mem
      have home := h.home a
      rw [homeLine, held] at home
      rw [belowL1, transit, inTransit_depart, moved.mem]
      by_cases dirty : l.dirty.getLsbD (a % 128) = true
      · rw [if_pos ⟨at_, line, dirty⟩]
        dsimp only at home
        rwa [if_pos dirty] at home
      · rw [if_neg fun e => dirty e.2.2]
        dsimp only at home
        rwa [if_neg dirty] at home
  refine ⟨moved.coresWf h.wf, h.quiet.moved moved (depart_snoops c l), moved.poison.trans h.clean, fun b => ?_, fun a => ?_, fun a => ?_⟩
  · rw [giveUp_l1 h.wf]
    split
    · exact (h.single c).sublist (List.filter_sublist.map _)
    · exact h.single b
  · by_cases here : c = l1Core s core a ∧ l.line = a / 128
    · rw [lineByte, (gone a here).1, ← (gone a here).2]
    · rw [← h.line a, lineByte, lineByte, found a here, below a here]
  · by_cases here : c = l1Core s core a ∧ l.line = a / 128
    · rw [homeLine, (gone a here).1, ← (gone a here).2]
    · rw [← h.home a, homeLine, homeLine, found a here, below a here]

theorem Sees.makeRoom (h : Sees V core s) (c line : Nat) : Sees V core (makeRoom s c line) := by
  unfold Machine.makeRoom
  dsimp only
  split
  · exact h
  · split
    · exact h
    · next l at_ => exact h.giveUp (List.mem_of_mem_filter (List.mem_of_getElem? at_))

end


section
variable {V : Nat → Byte} {core : Nat} {s t : State}

/-! ### A line that enters an L1 -/

/-- A line that shows at every byte what the core sees; its bytes that are not dirty stand below. -/
structure Shows (V : Nat → Byte) (core : Nat) (s : State) (pa : Nat) (l : L1Line) : Prop where
  line : l.line = pa / 128
  byte : ∀ a, a / 128 = pa / 128 → l.valid.getLsbD (a % 128) = true ∧ l.byte (a % 128) = V a
  below : ∀ a, a / 128 = pa / 128 → l.dirty.getLsbD (a % 128) = false → belowL1 s core a = V a

/-- An L1 that takes a line in the place of what it held of it leaves what the core sees. -/
theorem Sees.take (h : Sees V core s) {pa : Nat} {l : L1Line} (shows : Shows V core s pa l) (f : CoreSt → CoreSt)
    (found : ∀ n, (f (s.core (l1Core s core pa))).l1.find? (fun x => x.line == n) =
      if n = pa / 128 then some l else (s.core (l1Core s core pa)).l1.find? fun x => x.line == n)
    (single : ((f (s.core (l1Core s core pa))).l1.map (·.line)).Nodup) : Sees V core (s.modCore (l1Core s core pa) f) := by
  have below (a : Nat) : belowL1 (s.modCore (l1Core s core pa) f) core a = belowL1 s core a := rfl
  have inside (a : Nat) (at_ : a / 128 = pa / 128) : findLine (s.modCore (l1Core s core pa) f) core a = some l := by
    rw [findLine_modCore h.wf, if_pos (l1Core_line at_ s core), found, if_pos at_]
  have outside (a : Nat) (at_ : a / 128 ≠ pa / 128) : findLine (s.modCore (l1Core s core pa) f) core a = findLine s core a := by
    rw [findLine_modCore h.wf]
    split
    next here => rw [found, if_neg at_, ← here, findLine]
    next => rfl
  refine ⟨State.modCore_wf h.wf _ _, h.quiet, h.clean, fun b => ?_, fun a => ?_, fun a => ?_⟩
  · rw [State.core_modCore h.wf]
    split
    · exact single
    · exact h.single b
  · by_cases at_ : a / 128 = pa / 128
    · rw [lineByte, inside a at_]
      dsimp only
      rw [if_pos (shows.byte a at_).1, (shows.byte a at_).2]
    · rw [← h.line a, lineByte, lineByte, outside a at_, below]
  · by_cases at_ : a / 128 = pa / 128
    · rw [homeLine, inside a at_]
      dsimp only
      by_cases dirty : l.dirty.getLsbD (a % 128) = true
      · rw [if_pos dirty, (shows.byte a at_).2]
      · rw [if_neg dirty, below]
        exact shows.below a at_ (by simpa using dirty)
    · rw [← h.home a, homeLine, homeLine, outside a at_, below]

/-- Holding a line that shows what the core sees leaves what it sees. -/
theorem Sees.putLine (h : Sees V core s) {pa : Nat} {l : L1Line} (shows : Shows V core s pa l) : Sees V core (putLine s core pa l) := by
  unfold Machine.putLine
  dsimp only
  split
  next held =>
    refine h.take shows _ (fun n => ?_) ?_
    · rw [List.find?_map]
      obtain ⟨x, mem, at_⟩ := List.any_eq_true.1 held
      by_cases same : n = pa / 128
      · subst same
        have pred : ((fun x : L1Line => x.line == pa / 128) ∘ fun x => if x.line = pa / 128 then l else x) = fun x => x.line == pa / 128 := by
          funext y
          simp only [Function.comp_apply]
          split
          · simp [shows.line, *]
          · rfl
        have key : x.line = pa / 128 := by simpa using at_
        rw [pred, if_pos rfl, ← key, find?_of_mem (h.single _) mem]
        simp [key]
      · have pred : ((fun x : L1Line => x.line == n) ∘ fun x => if x.line = pa / 128 then l else x) = fun x => x.line == n := by
          funext y
          simp only [Function.comp_apply]
          split
          next at_ => simp [shows.line, at_]
          · rfl
        rw [pred, if_neg same]
        cases found : (s.core (l1Core s core pa)).l1.find? fun x => x.line == n with
        | none => rfl
        | some y =>
          have key : y.line = n := by simpa using List.find?_some found
          simp [key, same]
    · have lines : (fun x : L1Line => x.line) ∘ (fun x => if x.line = pa / 128 then l else x) = fun x => x.line := by
        funext y
        simp only [Function.comp_apply]
        split
        · rw [shows.line, ‹y.line = pa / 128›]
        · rfl
      rw [List.map_map, lines]
      exact h.single _
  next fresh =>
    have room := h.makeRoom (l1Core s core pa) (pa / 128)
    have at_ : l1Core s core pa = l1Core (Machine.makeRoom s (l1Core s core pa) (pa / 128)) core pa :=
      ((makeRoom_moved s _ _).l1Core core pa).symm
    have sub := makeRoom_l1_sub h.wf (l1Core s core pa) (pa / 128)
    generalize Machine.makeRoom s (l1Core s core pa) (pa / 128) = u at room at_ sub ⊢
    have absent : ∀ x ∈ (u.core (l1Core u core pa)).l1, x.line ≠ pa / 128 := fun x mem e =>
      fresh (List.any_eq_true.2 ⟨x, sub x (at_ ▸ mem), by simpa using e⟩)
    have none_ : (u.core (l1Core u core pa)).l1.find? (fun x => x.line == pa / 128) = none :=
      List.find?_eq_none.2 fun x mem => by simpa using absent x mem
    rw [at_]
    refine room.take ⟨shows.line, shows.byte, fun a same _ => ?_⟩ _ (fun n => ?_) ?_
    · have line := room.line a
      rwa [lineByte, findLine, l1Core_line same, same, none_] at line
    · rw [List.find?_append]
      by_cases same : n = pa / 128
      · subst same
        simp [none_, shows.line]
      · have other : ¬ l.line = n := fun e => same (e ▸ shows.line)
        simp [same, other]
    · rw [List.map_append, List.nodup_append]
      refine ⟨room.single _, by simp, fun x mem y hy e => ?_⟩
      obtain ⟨z, zmem, rfl⟩ := List.mem_map.1 mem
      rw [List.map_singleton, List.mem_singleton] at hy
      exact absent z zmem (e.trans (hy.trans shows.line))

/-! ### A line that a core fetches -/

theorem showUnder_dirty (l : L1Line) (w : WriteBack) : (showUnder l w).dirty = l.dirty := by
  unfold showUnder
  dsimp only
  split <;> rfl

/-- What a core fetches of a line keeps its dirty bytes. -/
theorem filledLine_dirty (s : State) (core pa q : Nat) (uo so : Bool) (cls : Rcl) :
    (filledLine s core pa q uo so cls).dirty = ((findLine s core pa).getD (blankLine (pa / 128) q uo so cls)).dirty := by
  unfold filledLine
  dsimp only
  rw [ownLine_eq]
  exact foldl_same L1Line.dirty showUnder_dirty _ _

theorem Sees.filledLine (h : Sees V core s) (pa q : Nat) (uo so : Bool) (cls : Rcl) :
    Shows V core s pa (filledLine s core pa q uo so cls) := by
  refine ⟨(filledLine_sees h.clean (core := core) (a := pa) rfl q uo so cls).1, fun a at_ => ?_, fun a at_ clean => ?_⟩
  · obtain ⟨-, valid, byte⟩ := filledLine_sees h.clean (core := core) at_ q uo so cls
    exact ⟨valid, byte.trans (h.line a)⟩
  · have home := h.home a
    rw [filledLine_dirty, ← findLine_line at_] at clean
    rw [homeLine] at home
    cases held : findLine s core a with
    | none => rwa [held] at home
    | some l =>
      rw [held] at home clean
      simp only [Option.getD_some] at clean
      dsimp only at home
      rwa [clean, if_neg (by simp)] at home

theorem SameBytes.of_alike (wf : Tab.wf CoreSt.reset s.cores = true) (h : L2Alike s t) : SameBytes s t := by
  obtain ⟨a, b, c, rfl⟩ := h
  exact ⟨wf, fun _ => rfl, rfl, rfl, rfl, rfl, rfl, rfl⟩

theorem SameBytes.modCore (wf : Tab.wf CoreSt.reset s.cores = true) (c : Nat) {f : CoreSt → CoreSt} (l1 : ∀ k, (f k).l1 = k.l1) :
    SameBytes s (s.modCore c f) where
  wf := State.modCore_wf wf c f
  l1 := L1Same.modCore s c l1 wf
  writeBacks := rfl
  snoops := rfl
  mem := rfl
  poison := rfl
  fenced := rfl
  gangs := rfl

/-- A fetch leaves what the core sees. -/
theorem Sees.fillLine (h : Sees V core s) (pa q : Nat) (uo so : Bool) (cls : Rcl) : Sees V core (fillLine s core pa q uo so cls) := by
  have eq := fillLine_eq h.quiet pa q uo so cls
  dsimp only at eq
  have reached := h.congr (SameBytes.of_alike h.wf (readReach_alike s pa (coreDie core) q so cls))
  have counted := reached.congr (SameBytes.modCore reached.wf core (f := fun k => { k with l1miss := k.l1miss + 1 }) fun _ => rfl)
  rw [eq]
  exact counted.putLine (counted.filledLine pa q uo so cls)

/-- The number that a load of `n` bytes finds in the line of its address: bytes beyond the line read as 0. -/
def lineRead (V : Nat → Byte) (pa n : Nat) : Nat := bytesSum (fun k => if pa % 128 + k < 128 then V (pa + k) else 0) n

/-- A line that shows what the core sees gives that number. -/
theorem field_line {l : L1Line} {pa n : Nat} (byte : ∀ k, k < n → pa % 128 + k < 128 → l.byte (pa % 128 + k) = V (pa + k)) :
    field l.data.toNat (8 * (pa % 128)) (8 * n) = lineRead V pa n := by
  rw [field_eq_bytesSum]
  refine bytesSum_congr fun k hk => ?_
  by_cases fits : pa % 128 + k < 128
  · rw [if_pos fits]
    exact byte k hk fits
  · rw [if_neg fits]
    apply BitVec.eq_of_getLsbD_eq
    intro i hi
    rw [BitVec.getLsbD_extractLsb', BitVec.getLsbD_of_ge l.data _ (by omega)]
    simp

/-- A load through the L1 finds what the core sees, and leaves it. -/
theorem Sees.l1Load (h : Sees V core s) (pa n q : Nat) (uo so : Bool) (cls : Rcl) :
    Sees V core (l1Load s core pa n q uo so cls).1 ∧ CachesMoved s (l1Load s core pa n q uo so cls).1 ∧
    (l1Load s core pa n q uo so cls).2 = lineRead V pa n := by
  have place (k : Nat) (fits : pa % 128 + k < 128) : (pa + k) / 128 = pa / 128 ∧ (pa + k) % 128 = pa % 128 + k := by omega
  unfold Machine.l1Load
  by_cases hit : l1Hit s core pa n = true
  · rw [if_pos hit]
    unfold l1Hit at hit
    cases found : findLine s core pa with
    | none => rw [found] at hit; exact absurd hit (by simp)
    | some l =>
      rw [found] at hit
      dsimp only at hit ⊢
      rw [found]
      refine ⟨h, .refl s, field_line fun k hk fits => ?_⟩
      obtain ⟨line, off⟩ := place k fits
      have mask := congrArg (fun m : BitVec 128 => m.getLsbD (pa % 128 + k)) (beq_iff_eq.mp hit)
      rw [BitVec.getLsbD_and, lineMask_bit hk fits] at mask
      have sees := h.line (pa + k)
      rw [lineByte, findLine_line line, found, off] at sees
      dsimp only at sees
      rwa [if_pos (by simpa using mask)] at sees
  · rw [if_neg hit]
    obtain ⟨moved, -, l, held⟩ := fillLine_sees h.wf h.quiet h.clean pa q uo so cls
    have after := h.fillLine pa q uo so cls
    dsimp only
    rw [(held pa rfl).1]
    refine ⟨after, moved, field_line fun k hk fits => ?_⟩
    obtain ⟨line, off⟩ := place k fits
    obtain ⟨-, -, byte⟩ := held (pa + k) line
    rw [← off, byte, h.line]

end

end Sys2Proof.Machine


/-! ## Machine family: translations that are made again (R208 to R214) -/

namespace Sys2Proof.Machine

/-! ### States that a read does not tell apart -/

/-- Two states that differ in caches, what the caches have in transit, counts, accumulators and the VLC at the front alone. -/
structure Near (s t : State) : Prop where
  rest : t = { s with
    vlc := t.vlc, cores := t.cores, l2 := t.l2, modes := t.modes, perf := t.perf, writeBacks := t.writeBacks, snoops := t.snoops
    arrivals := t.arrivals }
  core : ∀ c, t.core c = { s.core c with
    l1 := (t.core c).l1, l1miss := (t.core c).l1miss, sent := (t.core c).sent, round := (t.core c).round, acc := (t.core c).acc
    accPoison := (t.core c).accPoison }

/-- What reads leave of a state: everything but caches, translations, what is in transit and counts. -/
structure Fetched (s t : State) : Prop where
  rest : t = { s with
    cores := t.cores, l2 := t.l2, modes := t.modes, perf := t.perf, writeBacks := t.writeBacks, snoops := t.snoops
    arrivals := t.arrivals, tlb := t.tlb, walkCache := t.walkCache }
  core : ∀ c, t.core c = { s.core c with
    l1 := (t.core c).l1, l1miss := (t.core c).l1miss, sent := (t.core c).sent, round := (t.core c).round, tlb := (t.core c).tlb }

namespace Near

@[refl] theorem refl (s : State) : Near s s := ⟨rfl, fun _ => rfl⟩

theorem symm {s t : State} (h : Near s t) : Near t s where
  rest := by rw [h.rest]
  core c := by rw [h.core c]

theorem trans {s t u : State} (a : Near s t) (b : Near t u) : Near s u where
  rest := b.rest.trans (congrArg (fun x : State => { x with
    vlc := u.vlc, cores := u.cores, l2 := u.l2, modes := u.modes, perf := u.perf, writeBacks := u.writeBacks, snoops := u.snoops
    arrivals := u.arrivals }) a.rest)
  core c := (b.core c).trans (congrArg (fun x : CoreSt => { x with
    l1 := (u.core c).l1, l1miss := (u.core c).l1miss, sent := (u.core c).sent, round := (u.core c).round, acc := (u.core c).acc
    accPoison := (u.core c).accPoison }) (a.core c))

theorem of_moved {s t : State} (wf : Tab.wf CoreSt.reset s.cores = true) (h : CachesMoved s t) : Near s t :=
  ⟨h.rest.trans (by rw [h.vlc]), fun c => (h.core wf c).trans (by rw [h.core wf c])⟩

theorem of_onlyCaches {s t : State} (h : OnlyCaches s t) : Near s t :=
  ⟨h.1.trans (by rw [h.1]), fun c => (h.2 c).trans (by rw [h.2 c])⟩

section
variable {s t : State} (h : Near s t)
include h

theorem mem : t.mem = s.mem := (congrArg State.mem h.rest : _)
theorem poison : t.poison = s.poison := (congrArg State.poison h.rest : _)
theorem gangs : t.gangs = s.gangs := (congrArg State.gangs h.rest : _)
theorem fenced : t.fenced = s.fenced := (congrArg State.fenced h.rest : _)
theorem tlb : t.tlb = s.tlb := (congrArg State.tlb h.rest : _)
theorem walkCache : t.walkCache = s.walkCache := (congrArg State.walkCache h.rest : _)
theorem queues : t.queues = s.queues := (congrArg State.queues h.rest : _)
theorem tick : t.tick = s.tick := (congrArg State.tick h.rest : _)
theorem demand : t.demand = s.demand := (congrArg State.demand h.rest : _)
theorem coreTlb (c : Nat) : (t.core c).tlb = (s.core c).tlb := (congrArg CoreSt.tlb (h.core c) : _)
theorem lsPoison (c : Nat) : (t.core c).lsPoison = (s.core c).lsPoison := (congrArg CoreSt.lsPoison (h.core c) : _)
theorem queue (q : Nat) : t.queue q = s.queue q := by rw [State.queue, h.queues]; rfl

end
end Near

namespace Fetched

@[refl] theorem refl (s : State) : Fetched s s := ⟨rfl, fun _ => rfl⟩

theorem trans {s t u : State} (a : Fetched s t) (b : Fetched t u) : Fetched s u where
  rest := b.rest.trans (congrArg (fun x : State => { x with
    cores := u.cores, l2 := u.l2, modes := u.modes, perf := u.perf, writeBacks := u.writeBacks, snoops := u.snoops
    arrivals := u.arrivals, tlb := u.tlb, walkCache := u.walkCache }) a.rest)
  core c := (b.core c).trans (congrArg (fun x : CoreSt => { x with
    l1 := (u.core c).l1, l1miss := (u.core c).l1miss, sent := (u.core c).sent, round := (u.core c).round, tlb := (u.core c).tlb }) (a.core c))

theorem of_moved {s t : State} (wf : Tab.wf CoreSt.reset s.cores = true) (h : CachesMoved s t) : Fetched s t :=
  ⟨by rw [h.rest], fun c => (h.core wf c).trans (by rw [h.core wf c])⟩

end Fetched

/-! ### Walks (R213) -/

/-- What a walk reads is the same. -/
structure SameTables (s t : State) : Prop where
  walkCache : t.walkCache = s.walkCache
  fenced : t.fenced = s.fenced
  poison : t.poison = s.poison
  mem : t.mem = s.mem

theorem Near.tables {s t : State} (h : Near s t) : SameTables s t := ⟨h.walkCache, h.fenced, h.poison, h.mem⟩

section
variable {s t : State} (h : SameTables s t)
include h

theorem SameTables.walkCached (e : WalkEntry) : walkCached t e = walkCached s e := by
  rw [Machine.walkCached, Machine.walkCached, h.walkCache]

theorem SameTables.readPte (die : Nat) (va : Word) (pa : Nat) (so : Bool) : readPte t die va pa so = readPte s die va pa so := by
  unfold Machine.readPte seamFenced State.isFenced
  rw [h.fenced, h.poison, h.mem]

theorem SameTables.walk2 (w : Walker) (va : Word) (acc : Acc) (ipa n table : Nat) :
    walk2 t w va acc ipa n table = walk2 s w va acc ipa n table := by
  induction n generalizing table with
  | zero => rfl
  | succ n ih => simp only [Machine.walk2, h.walkCached, h.readPte, ih]

theorem SameTables.walk1 (w : Walker) (va : Word) (acc : Acc) (s1 n table : Nat) :
    walk1 t w va acc s1 n table = walk1 s w va acc s1 n table := by
  induction n generalizing table with
  | zero => rfl
  | succ n ih => simp only [Machine.walk1, tableAddr, h.walkCached, h.readPte, h.walk2, ih]

theorem SameTables.walkBoth (w : Walker) (va : Word) (acc : Acc) (s1 : Nat) : walkBoth t w va acc s1 = walkBoth s w va acc s1 := by
  simp only [Machine.walkBoth, h.walk1, h.walk2]

end

/-! ### Pages for demand (R212) -/

/-- The pages that a queue has left for its demand pages. -/
def pagesLeft (s : State) (p : Party) : Nat := (Tab.get [] s.demand p.queue).length

/-- An operation takes no page back. -/
def Takes (p : Party) (s t : State) : Prop := Tab.wf [] s.demand = true → Tab.wf [] t.demand = true ∧ pagesLeft t p ≤ pagesLeft s p

theorem Takes.of_eq {p : Party} {s t : State} (h : t.demand = s.demand) : Takes p s t := fun wf =>
  ⟨h ▸ wf, Nat.le_of_eq (by rw [pagesLeft, h, pagesLeft])⟩

theorem Takes.trans {p : Party} {s t u : State} (a : Takes p s t) (b : Takes p t u) : Takes p s u := fun wf =>
  ⟨(b (a wf).1).1, Nat.le_trans (b (a wf).1).2 (a wf).2⟩

theorem L2Alike.demand {s t : State} (h : L2Alike s t) : t.demand = s.demand := by obtain ⟨a, b, c, rfl⟩ := h; rfl

theorem copyFirst_demand (s : State) (pa : Nat) : (copyFirst s pa).demand = s.demand := by
  unfold copyFirst
  split
  · rfl
  · dsimp only
    split <;> rfl

theorem markWatched_demand (s : State) (pa n : Nat) : (markWatched s pa n).demand = s.demand :=
  foldl_same State.demand (f := fun s (w : Watch) => markStale s w.core w.slot w.plan) (fun _ _ => rfl) _ _

theorem homeWrite_demand (s : State) (pa : Nat) (bs : List Byte) : (homeWrite s pa bs).demand = s.demand := by
  have copied : (copyPages s pa bs.length).demand = s.demand := foldl_same State.demand (fun s _ => copyFirst_demand s _) _ _
  have merged (u : State) : (if placeOf pa = .device then (rangeMasks pa bs.length).foldl (fun s (x : Nat × BitVec 128) => mergeL2 s x.1 x.2) u
      else u).demand = u.demand := by
    split
    · exact foldl_same State.demand (fun s _ => (mergeL2_alike s _ _).demand) _ _
    · rfl
  unfold homeWrite
  dsimp only
  show (markWatched _ _ _).demand = _
  rw [markWatched_demand]
  exact (merged _).trans copied

/-- Serving a demand page takes a page from the queue. -/
theorem serveDemand_takes {s t : State} {p : Party} {pte : Nat} (wf : Tab.wf [] s.demand = true) (h : serveDemand s p.queue pte = some t) :
    Tab.wf [] t.demand = true ∧ pagesLeft t p < pagesLeft s p := by
  unfold serveDemand at h
  split at h
  · exact absurd h (by simp)
  next pg rest left =>
    split at h
    · exact absurd h (by simp)
    · simp only [Option.some.injEq] at h
      have demand : t.demand = Tab.set [] s.demand p.queue rest.reverse := by
        rw [← h, homeWrite_demand, markWatched_demand]
        dsimp only
        rw [copyFirst_demand]
      have count := congrArg List.length left
      rw [List.length_reverse, List.length_cons] at count
      refine ⟨demand ▸ Tab.wf_set _ wf _ _, ?_⟩
      rw [pagesLeft, demand, Tab.get_set _ wf, if_pos rfl, List.length_reverse, pagesLeft]
      omega

theorem keepWalk_demand (s : State) (p : Party) (e : TlbEntry) (es : List WalkEntry) : (keepWalk s p e es).demand = s.demand := by
  unfold keepWalk
  dsimp only
  split <;> rfl

theorem countWalk_alike (s : State) (p : Party) (as : List (Nat × Bool)) : L2Alike s (countWalk s p as) := by
  unfold countWalk
  induction as generalizing s with
  | nil => rfl
  | cons a as ih => exact (reachHome_alike s _ _ _ _ _ _ _).trans (ih _)

theorem walkLeaves_takes (p : Party) (va : Word) (acc : Acc) (n : Nat) (s : State) : Takes p s (walkLeaves s p va acc n).1 := by
  induction n generalizing s with
  | zero => exact .of_eq rfl
  | succ n ih =>
    unfold walkLeaves
    dsimp only
    have counted (as : List (Nat × Bool)) : (countWalk s p as).demand = s.demand := (countWalk_alike s p as).demand
    split
    · exact .of_eq ((keepWalk_demand _ _ _ _).trans (counted _))
    · exact .of_eq (counted _)
    · split
      next served =>
        refine Takes.trans (fun wf => ?_) (ih _)
        obtain ⟨wf', less⟩ := serveDemand_takes (counted _ ▸ wf) served
        exact ⟨wf', Nat.le_trans (Nat.le_of_lt less) (Nat.le_of_eq (by rw [pagesLeft, counted, pagesLeft]))⟩
      · exact .of_eq (counted _)

/-- A walk that succeeds and serves no page has read both leaves at once. -/
theorem walkLeaves_ok {p : Party} {va : Word} {acc : Acc} {n : Nat} {s u : State} {x : Leaf × Leaf × Nat}
    (h : walkLeaves s p va acc (n + 1) = (u, .ok x)) (wf : Tab.wf [] s.demand = true) (same : pagesLeft u p = pagesLeft s p) :
    ∃ as l1 l2 es, walkBoth s ⟨p.die, (s.queue p.queue).tenant, (s.queue p.queue).s2root.toNat⟩ va acc (s.queue p.queue).s1root.toNat =
        (as, .ok (l1, l2, es)) ∧ x = (l1, l2, leafAddr l2 (leafAddr l1 va.toNat)) ∧
      u = keepWalk (countWalk s p as) p (walkEntry (countWalk s p as) p.die p.queue va.toNat l1 l2 (leafAddr l2 (leafAddr l1 va.toNat))) es := by
  have counted (as : List (Nat × Bool)) : (countWalk s p as).demand = s.demand := (countWalk_alike s p as).demand
  unfold walkLeaves at h
  dsimp only at h
  rcases walked : walkBoth s ⟨p.die, (s.queue p.queue).tenant, (s.queue p.queue).s2root.toNat⟩ va acc (s.queue p.queue).s1root.toNat with
    ⟨as, ⟨l1, l2, es⟩ | tr | ⟨pte, level⟩⟩
  · rw [walked] at h
    simp only [Prod.mk.injEq, Except.ok.injEq] at h
    exact ⟨as, l1, l2, es, rfl, h.2.symm, h.1.symm⟩
  · rw [walked] at h
    simp at h
  · rw [walked] at h
    dsimp only at h
    split at h
    next served =>
      obtain ⟨wf', less⟩ := serveDemand_takes (counted _ ▸ wf) served
      have rest := (walkLeaves_takes p va acc n _ wf').2
      rw [h] at rest
      have left : pagesLeft (countWalk s p as) p = pagesLeft s p := by rw [pagesLeft, counted, pagesLeft]
      dsimp only at rest
      omega
    · simp at h

/-! ### The same translation again -/

theorem Near.of_alike {s t : State} (h : L2Alike s t) : Near s t := by
  obtain ⟨a, b, c, rfl⟩ := h
  exact ⟨rfl, fun _ => rfl⟩

theorem Fetched.of_alike {s t : State} (h : L2Alike s t) : Fetched s t := by
  obtain ⟨a, b, c, rfl⟩ := h
  exact ⟨rfl, fun _ => rfl⟩

/-- The translations of a core after a walk. -/
theorem keepWalk_core {s : State} (wf : Tab.wf CoreSt.reset s.cores = true) (p : Party) (e : TlbEntry) (es : List WalkEntry) (c : Nat) :
    (keepWalk s p e es).core c = if p.core < 576 ∧ c = p.core then
      { s.core c with tlb := cacheIn 64 (Config.tlbVictim s.tick) (s.core c).tlb e } else s.core c := by
  unfold keepWalk
  dsimp only
  by_cases own : p.core < 576
  · rw [if_pos own, State.core_modCore (by exact wf)]
    by_cases at_ : c = p.core
    · subst at_
      rw [if_pos rfl, if_pos ⟨own, rfl⟩]
      rfl
    · rw [if_neg at_, if_neg fun h => at_ h.2]
      rfl
  · rw [if_neg own, if_neg fun h => own h.1]
    rfl

theorem keepWalk_rest (s : State) (p : Party) (e : TlbEntry) (es : List WalkEntry) : keepWalk s p e es = { s with
    cores := (keepWalk s p e es).cores, tlb := (keepWalk s p e es).tlb, walkCache := (keepWalk s p e es).walkCache } := by
  unfold keepWalk
  dsimp only
  split <;> rfl

theorem keepWalk_tlb (s : State) (p : Party) (e : TlbEntry) (es : List WalkEntry) : (keepWalk s p e es).tlb =
    (s.tlb.filter fun x => !(x.die == e.die && x.vpage % 1024 == e.vpage % 1024)) ++
      cacheIn 16 (Config.lastTlbVictim s.tick) (s.tlb.filter fun x => x.die == e.die && x.vpage % 1024 == e.vpage % 1024) e := by
  unfold keepWalk
  dsimp only
  split <;> rfl

theorem keepWalk_walkCache (s : State) (p : Party) (e : TlbEntry) (es : List WalkEntry) : (keepWalk s p e es).walkCache =
    (s.walkCache.filter fun x => x.die != p.die) ++
      es.foldl (cacheIn 1024 (Config.walkVictim s.tick)) (s.walkCache.filter fun x => x.die == p.die) := by
  unfold keepWalk
  dsimp only
  split <;> rfl

theorem keepWalk_sameBytes {s : State} (wf : Tab.wf CoreSt.reset s.cores = true) (p : Party) (e : TlbEntry) (es : List WalkEntry) :
    SameBytes s (keepWalk s p e es) where
  wf := (keepWalk_kept s p e es).coresWf wf
  l1 c := by
    rw [keepWalk_core wf]
    split <;> rfl
  writeBacks := by rw [keepWalk_rest]
  snoops := by rw [keepWalk_rest]
  mem := by rw [keepWalk_rest]
  poison := by rw [keepWalk_rest]
  fenced := by rw [keepWalk_rest]
  gangs := by rw [keepWalk_rest]

theorem keepWalk_fetched {s : State} (wf : Tab.wf CoreSt.reset s.cores = true) (p : Party) (e : TlbEntry) (es : List WalkEntry) :
    Fetched s (keepWalk s p e es) where
  rest := by rw [keepWalk_rest]
  core c := by
    rw [keepWalk_core wf]
    split <;> rfl

theorem Near.keepWalk {s t : State} (h : Near s t) (wfs : Tab.wf CoreSt.reset s.cores = true) (wft : Tab.wf CoreSt.reset t.cores = true)
    (p : Party) (e : TlbEntry) (es : List WalkEntry) : Near (keepWalk s p e es) (keepWalk t p e es) where
  rest := by
    have tlb : (Machine.keepWalk t p e es).tlb = (Machine.keepWalk s p e es).tlb := by rw [keepWalk_tlb, keepWalk_tlb, h.tlb, h.tick]
    have walks : (Machine.keepWalk t p e es).walkCache = (Machine.keepWalk s p e es).walkCache := by
      rw [keepWalk_walkCache, keepWalk_walkCache, h.walkCache, h.tick]
    have left := keepWalk_rest s p e es
    have right := keepWalk_rest t p e es
    rw [tlb, walks] at right
    generalize Machine.keepWalk s p e es = u at left right ⊢
    generalize Machine.keepWalk t p e es = v at right ⊢
    rw [right, h.rest, left]
  core c := by
    rw [keepWalk_core wfs, keepWalk_core wft, h.tick, h.core c]
    split <;> rfl


/-- Two states from which a core reads the same: they are near, and the core sees the same bytes in both. -/
structure Pair (p : Party) (V : Nat → Byte) (s t : State) : Prop where
  near : Near s t
  left : Sees V p.core s
  right : Sees V p.core t

theorem Near.tlbFind {s t : State} (h : Near s t) (p : Party) (va : Nat) : tlbFind t p va = tlbFind s p va := by
  unfold Machine.tlbFind
  dsimp only
  rw [h.coreTlb, h.tlb, h.queue]

theorem modPerf_alike (s : State) (d q : Nat) (f : QueuePerf → QueuePerf) : L2Alike s (s.modPerf d q f) := ⟨_, _, _, rfl⟩

section
variable {p : Party} {V : Nat → Byte} {s t s' : State} (pair : Pair p V s t) (wf : Tab.wf [] s.demand = true)
  (same : pagesLeft s' p = pagesLeft s p)
include pair wf same

/-- A walk that serves no page goes the same way again. -/
theorem Pair.walkLeaves {va : Word} {acc : Acc} {n : Nat} {x : Leaf × Leaf × Nat} (run : walkLeaves s p va acc (n + 1) = (s', .ok x)) :
    ∃ t', walkLeaves t p va acc (n + 1) = (t', .ok x) ∧ Pair p V s' t' ∧ Fetched t t' := by
  obtain ⟨as, l1, l2, es, walked, rfl, rfl⟩ := walkLeaves_ok run wf same
  have counted := countWalk_alike s p as
  have counted' := countWalk_alike t p as
  have near : Near (countWalk s p as) (countWalk t p as) := ((Near.of_alike counted).symm.trans pair.near).trans (.of_alike counted')
  have wfs : Tab.wf CoreSt.reset (countWalk s p as).cores = true := counted.cores ▸ pair.left.wf
  have wft : Tab.wf CoreSt.reset (countWalk t p as).cores = true := counted'.cores ▸ pair.right.wf
  have entry : walkEntry (countWalk t p as) p.die p.queue va.toNat l1 l2 (leafAddr l2 (leafAddr l1 va.toNat)) =
      walkEntry (countWalk s p as) p.die p.queue va.toNat l1 l2 (leafAddr l2 (leafAddr l1 va.toNat)) := by
    unfold walkEntry
    rw [near.queue]
  rw [← pair.near.tables.walkBoth, ← pair.near.queue] at walked
  refine ⟨keepWalk (countWalk t p as) p (walkEntry (countWalk t p as) p.die p.queue va.toNat l1 l2 (leafAddr l2 (leafAddr l1 va.toNat))) es,
    ?_, ⟨?_, ?_, ?_⟩, ?_⟩
  · simp only [Machine.walkLeaves, walked]
  · rw [entry]
    exact near.keepWalk wfs wft _ _ _
  · exact (pair.left.congr (.of_alike pair.left.wf counted)).congr (keepWalk_sameBytes wfs _ _ _)
  · exact (pair.right.congr (.of_alike pair.right.wf counted')).congr (keepWalk_sameBytes wft _ _ _)
  · exact (Fetched.of_alike counted').trans (keepWalk_fetched wft _ _ _)

theorem Pair.leavesOf {va : Word} {acc : Acc} {x : Leaf × Leaf × Nat} (run : leavesOf s p va acc = (s', .ok x)) :
    ∃ t', leavesOf t p va acc = (t', .ok x) ∧ Pair p V s' t' ∧ Fetched t t' := by
  unfold Machine.leavesOf at run ⊢
  rw [pair.near.tlbFind]
  cases found : tlbFind s p va.toNat with
  | some e =>
    rw [found] at run
    simp only [Prod.mk.injEq, Except.ok.injEq] at run
    obtain ⟨rfl, rfl⟩ := run
    exact ⟨t, rfl, pair, .refl t⟩
  | none =>
    rw [found] at run
    have walk (u : State) := modPerf_alike u p.die p.queue fun x => { x with walks := x.walks + 1 }
    obtain ⟨t', again, next, fetched⟩ := Pair.walkLeaves (s := s.modPerf p.die p.queue fun x => { x with walks := x.walks + 1 })
      (t := t.modPerf p.die p.queue fun x => { x with walks := x.walks + 1 })
      ⟨((Near.of_alike (walk s)).symm.trans pair.near).trans (.of_alike (walk t)), pair.left.congr (.of_alike pair.left.wf (walk s)),
        pair.right.congr (.of_alike pair.right.wf (walk t))⟩ wf same run
    exact ⟨t', again, next, (Fetched.of_alike (walk t)).trans fetched⟩

/-- So does a translation. -/
theorem Pair.translate {va : Word} {n : Nat} {acc : Acc} {d : Dest} (run : translate s p va n acc = (s', .ok d)) :
    ∃ t', translate t p va n acc = (t', .ok d) ∧ Pair p V s' t' ∧ Fetched t t' := by
  unfold Machine.translate at run ⊢
  dsimp only at run ⊢
  by_cases a : va.toNat ≥ 2 ^ 56
  · rw [if_pos a] at run; simp at run
  by_cases b : va.toNat ≥ lsWindow + lsBytes
  · rw [if_neg a, if_pos b] at run; simp at run
  rw [if_neg a, if_neg b] at run ⊢
  by_cases c : va.toNat ≥ lsWindow
  · rw [if_pos c] at run ⊢
    by_cases ex : acc = .execute
    · rw [if_pos ex] at run; simp at run
    by_cases len : va.toNat - lsWindow + n > p.lsLen
    · rw [if_neg ex, if_pos len] at run; simp at run
    rw [if_neg ex, if_neg len] at run ⊢
    split at run
    · simp at run
    next body =>
      simp only [Prod.mk.injEq, Except.ok.injEq] at run
      obtain ⟨rfl, rfl⟩ := run
      exact ⟨t, by rw [if_neg body], pair, .refl t⟩
  · rw [if_neg c] at run ⊢
    rcases leaves : Machine.leavesOf s p va acc with ⟨u, e | ⟨l1, l2, pa⟩⟩
    · rw [leaves] at run; simp at run
    · rw [leaves] at run
      dsimp only at run
      have ends : s' = u ∧ checkLeaves va acc l1 l2 = none ∧ d = .phys pa (combinedKind l1 l2) := by
        split at run
        · simp at run
        next passed =>
          simp only [Prod.mk.injEq, Except.ok.injEq] at run
          exact ⟨run.1.symm, passed, run.2.symm⟩
      obtain ⟨rfl, passed, rfl⟩ := ends
      obtain ⟨t', again, next, fetched⟩ := pair.leavesOf wf same leaves
      exact ⟨t', by rw [again]; dsimp only; rw [passed], next, fetched⟩

end

/-! ### The same read again -/

/-- An access whose checks pass where its translation ends is accepted. -/
theorem accessIn_of_checks {m : Mode} {s t : State} {p : Party} {rule : AccRule} {va : Word} {n : Nat} {acc : Acc} {d : Dest}
    (al : va.toNat % n = 0) (tr : translate s p va n acc = (t, .ok d)) (pl : placeRule rule va n acc d = none)
    (bus : ∀ pa kind, d = .phys pa kind → busRule t p.die va pa = none) (po : readsMem acc = true → poisonRule t p m va n d = none) :
    accessIn m s p rule va n acc = (t, .ok d) := by
  have po' : (if readsMem acc then poisonRule t p m va n d else none) = none := by
    split
    · exact po ‹_›
    · rfl
  unfold accessIn
  rw [if_neg (by simpa using al), tr]
  dsimp only
  rw [pl]
  cases d with
  | ls c off =>
    dsimp only
    rw [po']
  | phys pa kind =>
    dsimp only
    rw [bus pa kind rfl, po']

/-- An access is accepted again. -/
theorem Pair.access {p : Party} {V : Nat → Byte} {s t s' : State} (pair : Pair p V s t) (wf : Tab.wf [] s.demand = true)
    (same : pagesLeft s' p = pagesLeft s p) {rule : AccRule} {va : Word} {n : Nat} {acc : Acc} {d : Dest}
    (run : access s p rule va n acc = (s', .ok d)) : ∃ t', access t p rule va n acc = (t', .ok d) ∧ Pair p V s' t' ∧ Fetched t t' := by
  obtain ⟨al, tr, pl, bus, po⟩ := accessIn_ok run
  obtain ⟨t', again, next, fetched⟩ := pair.translate wf same tr
  refine ⟨t', accessIn_of_checks al again pl (fun pa kind e => ?_) fun reads => ?_, next, fetched⟩
  · rw [← bus pa kind e]
    unfold busRule seamFenced State.isFenced
    rw [next.near.fenced]
  · cases d with
    | ls c off => rw [← po reads, poisonRule, poisonRule, next.near.lsPoison]
    | phys pa kind =>
      have none_ : poisonedAt t' pa n = false := by simp [poisonedAt, next.right.clean]
      simp [poisonRule, none_]

/-- A load finds the same again. -/
theorem Pair.loadAt {p : Party} {V : Nat → Byte} {s t : State} (pair : Pair p V s t) (d : Dest) (n : Nat) (cls : Rcl) :
    Pair p V (loadAt s p d n .plain cls).1 (loadAt t p d n .plain cls).1 ∧ Fetched t (loadAt t p d n .plain cls).1 ∧
    (loadAt t p d n .plain cls).2 = (loadAt s p d n .plain cls).2 := by
  cases d with
  | ls c off =>
    refine ⟨pair, .refl t, ?_⟩
    show memRead t.mem _ n = memRead s.mem _ n
    rw [pair.near.mem]
  | phys pa kind =>
    unfold Machine.loadAt
    dsimp only
    by_cases home : placeOf pa ≠ .device ∨ kind = 3
    · rw [if_pos home, if_pos home]
      have left := reachHome_alike s pa p.die p.queue false true true cls
      have right := reachHome_alike t pa p.die p.queue false true true cls
      refine ⟨⟨((Near.of_alike left).symm.trans pair.near).trans (.of_alike right), pair.left.congr (.of_alike pair.left.wf left),
        pair.right.congr (.of_alike pair.right.wf right)⟩, .of_alike right, ?_⟩
      dsimp only
      rw [left.mem, right.mem, pair.near.mem]
    · rw [if_neg home, if_neg home]
      obtain ⟨seesL, movedL, valueL⟩ := pair.left.l1Load pa n p.queue (kind == 2) (kind == 0) cls
      obtain ⟨seesR, movedR, valueR⟩ := pair.right.l1Load pa n p.queue (kind == 2) (kind == 0) cls
      exact ⟨⟨((Near.of_moved pair.left.wf movedL).symm.trans pair.near).trans (.of_moved pair.right.wf movedR), seesL, seesR⟩,
        .of_moved pair.right.wf movedR, valueR.trans valueL.symm⟩


/-! ### Pages through a read -/

theorem CachesMoved.demand {s t : State} (h : CachesMoved s t) : t.demand = s.demand := (congrArg State.demand h.rest : _)

theorem snoopWhere_demand (s : State) (f : Snoop → Bool) : (snoopWhere s f).demand = s.demand := by
  unfold snoopWhere
  split
  · exact foldl_same State.demand (f := fun s (x : Snoop) => s.modCore x.core (snoopCore x.pa x.bytes)) (fun _ _ => rfl) _ _
  · rfl

theorem fillLine_demand (s : State) (core pa q : Nat) (uo so : Bool) (cls : Rcl) : (fillLine s core pa q uo so cls).demand = s.demand := by
  unfold fillLine
  dsimp only
  rw [(putLine_moved _ _ _ _).demand]
  show (readReach _ _ _ _ _ _).demand = _
  rw [(readReach_alike _ _ _ _ _ _).demand]
  split
  · exact snoopWhere_demand _ _
  · exact snoopWhere_demand _ _

theorem loadAt_demand (s : State) (p : Party) (d : Dest) (n : Nat) (cls : Rcl) : (loadAt s p d n .plain cls).1.demand = s.demand := by
  cases d with
  | ls c off => rfl
  | phys pa kind =>
    unfold loadAt
    dsimp only
    split
    · exact (reachHome_alike _ _ _ _ _ _ _ _).demand
    · unfold l1Load
      dsimp only
      split
      · split
        · rfl
        · exact fillLine_demand _ _ _ _ _ _ _
      · split
        · rfl
        · exact fillLine_demand _ _ _ _ _ _ _

/-- An accepted translation changes nothing in the LS window, else it is that of its leaves. -/
theorem translate_ok {s s' : State} {p : Party} {va : Word} {n : Nat} {acc : Acc} {d : Dest} (run : translate s p va n acc = (s', .ok d)) :
    s' = s ∨ ∃ x, leavesOf s p va acc = (s', .ok x) := by
  unfold translate at run
  dsimp only at run
  by_cases window : va.toNat ≥ lsWindow
  · refine .inl ?_
    repeat' split at run
    all_goals simp at run
    exact run.1.symm
  · repeat' split at run
    all_goals simp at run
    next leaves _ _ => exact .inr ⟨_, by rw [← run.1]; exact leaves⟩

theorem translate_takes {s s' : State} {p : Party} {va : Word} {n : Nat} {acc : Acc} {d : Dest} (run : translate s p va n acc = (s', .ok d)) :
    Takes p s s' := by
  obtain rfl | ⟨x, leaves⟩ := translate_ok run
  · exact .of_eq rfl
  · unfold leavesOf at leaves
    split at leaves
    · simp only [Prod.mk.injEq] at leaves
      exact .of_eq (by rw [leaves.1])
    · have walk := walkLeaves_takes p va acc 12 (s.modPerf p.die p.queue fun x => { x with walks := x.walks + 1 })
      rw [leaves] at walk
      exact Takes.trans (t := s.modPerf p.die p.queue fun x => { x with walks := x.walks + 1 }) (.of_eq rfl) walk

theorem access_takes {s s' : State} {p : Party} {rule : AccRule} {va : Word} {n : Nat} {acc : Acc} {d : Dest}
    (run : access s p rule va n acc = (s', .ok d)) : Takes p s s' := translate_takes (accessIn_ok run).2.1

/-! ### Operands -/

theorem pinLine_alike (s : State) (p : Party) (pa : Nat) (x : Pin) : L2Alike s (pinLine s p pa x) := ⟨_, _, _, rfl⟩

theorem unpin_alike (s : State) (f : Pin → Bool) : L2Alike s (unpin s f) := by
  unfold unpin
  dsimp only
  split
  · exact ⟨_, _, _, rfl⟩
  · rfl

/-- A read of an operand that succeeds has checked its access and loaded, and has pinned at the most. -/
theorem readOperand_ok {s s' : State} {p : Party} {cls : Rcl} {pin : Option Bool} {va : Word} {n x : Nat}
    (run : readOperand s p cls pin va n = (s', .ok x)) : ∃ u d, access s p .tensorRead va n .read = (u, .ok d) ∧
      (loadAt u p d n .plain cls).2 = x ∧ L2Alike (loadAt u p d n .plain cls).1 s' := by
  unfold readOperand at run
  rcases checked : access s p .tensorRead va n .read with ⟨u, e | d⟩
  · rw [checked] at run
    simp at run
  · rw [checked] at run
    dsimp only at run
    refine ⟨u, d, rfl, ?_⟩
    split at run
    · split at run
      · simp only [Prod.mk.injEq, Except.ok.injEq] at run
        exact ⟨run.2, run.1 ▸ pinLine_alike _ _ _ _⟩
      · simp only [Prod.mk.injEq, Except.ok.injEq] at run
        exact ⟨run.2, run.1 ▸ .refl _⟩
    · simp only [Prod.mk.injEq, Except.ok.injEq] at run
      exact ⟨run.2, run.1 ▸ .refl _⟩

/-- A read whose access is accepted gives what it loads. -/
theorem readOperand_of_access {s u : State} {p : Party} {cls : Rcl} {va : Word} {n : Nat} {d : Dest}
    (checked : access s p .tensorRead va n .read = (u, .ok d)) (pin : Option Bool) : ∃ s', readOperand s p cls pin va n =
      (s', .ok (loadAt u p d n .plain cls).2) ∧ L2Alike (loadAt u p d n .plain cls).1 s' := by
  unfold readOperand
  rw [checked]
  dsimp only
  split
  · split
    · exact ⟨_, rfl, pinLine_alike _ _ _ _⟩
    · exact ⟨_, rfl, .refl _⟩
  · exact ⟨_, rfl, .refl _⟩

theorem readOperand_takes {s s' : State} {p : Party} {cls : Rcl} {pin : Option Bool} {va : Word} {n x : Nat}
    (run : readOperand s p cls pin va n = (s', .ok x)) : Takes p s s' := by
  obtain ⟨u, d, checked, -, alike⟩ := readOperand_ok run
  exact (access_takes checked).trans (.of_eq (alike.demand.trans (loadAt_demand u p d n cls)))

/-- Pages that come back to the same number were never taken on the way. -/
theorem Takes.same {p : Party} {s t u : State} (a : Takes p s t) (b : Takes p t u) (wf : Tab.wf [] s.demand = true)
    (same : pagesLeft u p = pagesLeft s p) : Tab.wf [] t.demand = true ∧ pagesLeft t p = pagesLeft s p ∧ pagesLeft u p = pagesLeft t p := by
  obtain ⟨wft, le⟩ := a wf
  obtain ⟨-, le'⟩ := b wft
  exact ⟨wft, by omega, by omega⟩

section
variable {p : Party} {V : Nat → Byte} {s t s' : State} (pair : Pair p V s t) (wf : Tab.wf [] s.demand = true)
  (same : pagesLeft s' p = pagesLeft s p) (pin pin' : Option Bool)
include pair wf same

/-- An operand reads the same again, whatever is pinned. -/
theorem Pair.readOperand {cls : Rcl} {va : Word} {n x : Nat} (run : readOperand s p cls pin va n = (s', .ok x)) :
    ∃ t', readOperand t p cls pin' va n = (t', .ok x) ∧ Pair p V s' t' ∧ Fetched t t' := by
  obtain ⟨u, d, checked, rfl, alike⟩ := readOperand_ok run
  have loaded : Takes p u s' := .of_eq (alike.demand.trans (loadAt_demand u p d n cls))
  obtain ⟨-, kept, -⟩ := (access_takes checked).same loaded wf same
  obtain ⟨t1, again, next, fetched⟩ := pair.access wf kept checked
  obtain ⟨pair', fetched', value⟩ := next.loadAt d n cls
  obtain ⟨t', read, alike'⟩ := readOperand_of_access (cls := cls) again pin'
  rw [value] at read
  exact ⟨t', read, ⟨((Near.of_alike alike).symm.trans pair'.near).trans (.of_alike alike'),
    pair'.left.congr (.of_alike pair'.left.wf alike), pair'.right.congr (.of_alike pair'.right.wf alike')⟩,
    (fetched.trans fetched').trans (.of_alike alike')⟩

end


/-! ### Elements and scales of tensors -/

theorem readBytes_takes {s s' : State} {p : Party} {cls : Rcl} {pin : Option Bool} {va : Word} {n x : Nat}
    (run : readBytes s p cls pin va n = (s', .ok x)) : Takes p s s' := by
  induction n generalizing s va x with
  | zero =>
    simp only [readBytes, Prod.mk.injEq] at run
    exact .of_eq (by rw [run.1])
  | succ n ih =>
    unfold readBytes at run
    split at run
    · simp at run
    next first =>
      split at run
      · simp at run
      next rest =>
        simp only [Prod.mk.injEq] at run
        obtain ⟨rfl, -⟩ := run
        exact (readOperand_takes first).trans (ih rest)

section
variable {p : Party} {V : Nat → Byte}

theorem Pair.readBytes {s t s' : State} (pair : Pair p V s t) (wf : Tab.wf [] s.demand = true) (same : pagesLeft s' p = pagesLeft s p)
    (pin pin' : Option Bool) {cls : Rcl} {va : Word} {n x : Nat} (run : readBytes s p cls pin va n = (s', .ok x)) :
    ∃ t', readBytes t p cls pin' va n = (t', .ok x) ∧ Pair p V s' t' ∧ Fetched t t' := by
  induction n generalizing s t va x with
  | zero =>
    simp only [Machine.readBytes, Prod.mk.injEq, Except.ok.injEq] at run
    obtain ⟨rfl, rfl⟩ := run
    exact ⟨t, rfl, pair, .refl t⟩
  | succ n ih =>
    unfold Machine.readBytes at run
    split at run
    · simp at run
    next first =>
      split at run
      · simp at run
      next rest =>
        simp only [Prod.mk.injEq, Except.ok.injEq] at run
        obtain ⟨rfl, rfl⟩ := run
        obtain ⟨wf1, same1, same2⟩ := (readOperand_takes first).same (readBytes_takes rest) wf same
        obtain ⟨t1, again, next, fetched⟩ := pair.readOperand wf same1 pin pin' first
        obtain ⟨t2, again', next', fetched'⟩ := ih next wf1 same2 rest
        exact ⟨t2, by simp only [Machine.readBytes, again, again'], next', fetched.trans fetched'⟩

variable {s t s' : State} (pair : Pair p V s t) (wf : Tab.wf [] s.demand = true) (same : pagesLeft s' p = pagesLeft s p)
include pair wf same

/-- An element of a tensor reads the same again. -/
theorem Pair.readTensor (pin pin' : Option Bool) {d : Desc} {idx : List Nat} {x : Nat} (run : readTensor p pin d idx s = (s', .ok x)) :
    ∃ t', readTensor p pin' d idx t = (t', .ok x) ∧ Pair p V s' t' ∧ Fetched t t' := by
  unfold Machine.readTensor at run ⊢
  dsimp only at run ⊢
  split at run
  next whole =>
    rw [if_pos whole]
    exact pair.readOperand wf same pin pin' run
  next part =>
    rw [if_neg part]
    split at run
    · simp at run
    next bytes =>
      simp only [Prod.mk.injEq, Except.ok.injEq] at run
      obtain ⟨rfl, rfl⟩ := run
      obtain ⟨t', again, next, fetched⟩ := pair.readBytes wf same pin pin' bytes
      exact ⟨t', by rw [again], next, fetched⟩

/-- So does its scale. -/
theorem Pair.readScale {d : Desc} {idx : List Nat} {x : Option Nat} (run : readScale p d idx s = (s', .ok x)) :
    ∃ t', readScale p d idx t = (t', .ok x) ∧ Pair p V s' t' ∧ Fetched t t' := by
  unfold Machine.readScale at run ⊢
  split at run
  next plain =>
    simp only [Prod.mk.injEq, Except.ok.injEq] at run
    obtain ⟨rfl, rfl⟩ := run
    exact ⟨t, by rw [if_pos plain], pair, .refl t⟩
  next scaled =>
    rw [if_neg scaled]
    split at run
    · simp at run
    next word =>
      simp only [Prod.mk.injEq, Except.ok.injEq] at run
      obtain ⟨rfl, rfl⟩ := run
      obtain ⟨t', again, next, fetched⟩ := pair.readOperand wf same none none word
      exact ⟨t', by rw [again], next, fetched⟩

end

/-! ### Reads that may be made at any time -/

theorem Fetched.vlc {s t : State} (h : Fetched s t) : t.vlc = s.vlc := (congrArg State.vlc h.rest : _)
theorem Fetched.acc {s t : State} (h : Fetched s t) (c : Nat) : (t.core c).acc = (s.core c).acc := (congrArg CoreSt.acc (h.core c) : _)
theorem Fetched.accPoison {s t : State} (h : Fetched s t) (c : Nat) : (t.core c).accPoison = (s.core c).accPoison :=
  (congrArg CoreSt.accPoison (h.core c) : _)

/-- From every state of a kind an operation gives `x`, and leaves a state of that kind. -/
def Yields (P : State → Prop) {α : Type} (f : State → State × Except Trap α) (x : α) : Prop := ∀ u, P u → ∃ u', f u = (u', .ok x) ∧ P u'

/-- A state in which an instruction issued at `s` reads: the core sees what it saw there; the VLC at the front is `w`, and the array `acc`. -/
structure Reading (s : State) (V : Nat → Byte) (w : Vlc) (acc : Tab (BitVec 2048)) (u : State) : Prop where
  pair : Pair s.me V s u
  vlc : u.vlc = w
  array : (u.core s.vlc.core).acc = acc
  clean : (u.core s.vlc.core).accPoison = []

section
variable {s : State} {V : Nat → Byte} {w : Vlc} {acc : Tab (BitVec 2048)}

/-- What reads the same again from the state of the issue yields its value. -/
theorem yields_of_again {α : Type} {x : α} {f g : State → State × Except Trap α}
    (again : ∀ {u v : State}, Pair s.me V s u → pagesLeft v s.me = pagesLeft s s.me → f s = (v, .ok x) →
      ∃ u', g u = (u', .ok x) ∧ Pair s.me V v u' ∧ Fetched u u')
    (reads : ∃ v, f s = (v, .ok x) ∧ OnlyCaches s v) : Yields (Reading s V w acc) g x := by
  intro u h
  obtain ⟨v, run, only⟩ := reads
  have near := Near.of_onlyCaches only
  obtain ⟨u', read, next, fetched⟩ := again h.pair (by rw [pagesLeft, near.demand, pagesLeft]) run
  refine ⟨u', read, ⟨near.trans next.near, h.pair.left, next.right⟩, ?_, ?_, ?_⟩
  · exact fetched.vlc.trans h.vlc
  · exact (fetched.acc _).trans h.array
  · exact (fetched.accPoison _).trans h.clean

variable (wf : Tab.wf [] s.demand = true)
include wf

theorem ReadsAs.yields {d : Desc} {idx : List Nat} {x : Nat} (h : ReadsAs s d idx x) (pin : Option Bool) :
    Yields (Reading s V w acc) (readTensor s.me pin d idx) x :=
  yields_of_again (fun pair same run => pair.readTensor wf same none pin run) h

theorem ScalesAs.yields {d : Desc} {idx : List Nat} {x : Option Nat} (h : ScalesAs s d idx x) :
    Yields (Reading s V w acc) (readScale s.me d idx) x :=
  yields_of_again (fun pair same run => pair.readScale wf same run) h

/-- So does a byte that is read as an operand. -/
theorem readOperand_yields {cls : Rcl} {va : Word} {n x : Nat} (h : ∃ v, readOperand s s.me cls none va n = (v, .ok x) ∧ OnlyCaches s v) :
    Yields (Reading s V w acc) (fun u => readOperand u s.me cls none va n) x :=
  yields_of_again (f := fun u => readOperand u s.me cls none va n) (fun pair same run => pair.readOperand wf same none none run) h

end

end Sys2Proof.Machine


/-! ## Machine family: rows of a product (R163, R169 to R174) -/

namespace Sys2Proof.Machine

/-! ### Lines of operands -/

section
variable {P : State → Prop} {use : Nat → Bool} {elem : Nat → State → State × Except Trap Nat} {code : Nat → Option Nat}

theorem readCodes_yields (ks : List Nat) (used : ∀ k ∈ ks, use k = (code k).isSome)
    (reads : ∀ k ∈ ks, ∀ x, code k = some x → Yields P (elem k) x) : Yields P (readCodes use elem ks) (ks.map code) := by
  induction ks with
  | nil => exact fun u h => ⟨u, rfl, h⟩
  | cons k ks ih =>
    intro u h
    have rest := ih (fun q hq => used q (List.mem_cons_of_mem _ hq)) fun q hq => reads q (List.mem_cons_of_mem _ hq)
    have here := used k List.mem_cons_self
    cases at_ : code k with
    | none =>
      rw [at_] at here
      obtain ⟨v, run, hv⟩ := rest u h
      exact ⟨v, by simp [readCodes, readIf, here, run, at_], hv⟩
    | some x =>
      rw [at_] at here
      obtain ⟨v, read, hv⟩ := reads k List.mem_cons_self x at_ u h
      obtain ⟨z, run, hz⟩ := rest v hv
      exact ⟨z, by simp [readCodes, readIf, here, read, run, at_], hz⟩

/-- A line reads as the blocks of its codes and of the scales of the first depths that take part. -/
theorem readLine_yields {scale : Nat → State → State × Except Trap (Option Nat)} {sc : Nat → Option Nat} (bs : List (List Nat))
    (used : ∀ b ∈ bs, ∀ k ∈ b, use k = (code k).isSome) (reads : ∀ b ∈ bs, ∀ k ∈ b, ∀ x, code k = some x → Yields P (elem k) x)
    (scales : ∀ b ∈ bs, ∀ k, b.find? use = some k → Yields P (scale k) (sc k)) :
    Yields P (readLine use elem scale bs) (blocksOf bs code sc) := by
  induction bs with
  | nil => exact fun u h => ⟨u, rfl, h⟩
  | cons b bs ih =>
    intro u h
    have first : b.find? use = b.find? fun k => (code k).isSome := by
      have same := used b List.mem_cons_self
      clear used reads scales ih
      induction b with
      | nil => rfl
      | cons k b ih =>
        rw [List.find?_cons, List.find?_cons, same k List.mem_cons_self, ih fun q hq => same q (List.mem_cons_of_mem _ hq)]
    obtain ⟨v, codes, hv⟩ := readCodes_yields b (used b List.mem_cons_self) (reads b List.mem_cons_self) u h
    have word : Yields P (scaleIf scale (b.find? use)) ((b.find? use).bind sc) := by
      cases at_ : b.find? use with
      | none => exact fun u h => ⟨u, rfl, h⟩
      | some k => exact scales b List.mem_cons_self k at_
    obtain ⟨z, scaled, hz⟩ := word v hv
    obtain ⟨y, rest, hy⟩ := ih (fun c hc => used c (List.mem_cons_of_mem _ hc)) (fun c hc => reads c (List.mem_cons_of_mem _ hc))
      (fun c hc => scales c (List.mem_cons_of_mem _ hc)) z hz
    rw [first] at scaled
    exact ⟨y, by simp [readLine, codes, first, scaled, rest, blocksOf], hy⟩

/-- Where every depth takes part, the scale is that of the first. -/
theorem find?_true {b : List Nat} {k : Nat} (h : (b.find? fun _ => true) = some k) : b.head? = some k := by
  cases b with
  | nil => simp at h
  | cons x b => simpa using h

end

/-! ### The operands of a row -/

/-- The line of A of a row as it is read. -/
def rawA (s : State) (a : Fld) (j : Job) (x : ProductData) (i : Nat) : List Blk :=
  match j.a with
  | .tensor _ => blocksOf j.blocks (fun k => some (x.codeA i k)) (fun k => if j.scaled then x.scaleA i k else none)
  | .group => blocksOf j.blocks (fun k => if i * s.vlc.tsk + k < s.vlc.vl then
      some (s.vlc.vf.elem ((s.vlc.rx a).toNat % 256) s.vlc.vt.sew.bits (i * s.vlc.tsk + k)) else none) (fun _ => none)

/-- The read of the line of A of a row. -/
def readRawA (j : Job) (p : Party) (e : VEntry) (i : Nat) : State → State × Except Trap (List Blk) :=
  match j.a with
  | .tensor t => readLine (fun _ => true) (fun k => readTensor p (some false) t.d [t.o0 + i, t.o1 + k, 0, 0])
      (if j.scaled then fun k => readScale p t.d [t.o0 + i, t.o1 + k, 0, 0] else noScale) j.blocks
  | .group => readLine (fun k => decide (i * e.tsk + k < e.vl))
      (fun k s => (s, s.vlc.readElem (field e.xa.toNat 0 8) e.vt.sew.bits (i * e.tsk + k))) noScale j.blocks

theorem jobRowA_ok {j : Job} {p : Party} {e : VEntry} {i : Nat} {u v : State} {bs : List Blk} (read : readRawA j p e i u = (v, .ok bs)) :
    jobRowA j p e i u = (v, .ok (if j.path = .wideA then narrowLine j.ca j.clsA j.flyRot bs else (bs, 0))) := by
  unfold readRawA at read
  unfold jobRowA
  cases src : j.a with
  | tensor t =>
    rw [src] at read
    dsimp only at read ⊢
    rw [read]
  | group =>
    rw [src] at read
    dsimp only at read ⊢
    rw [read]

/-- The line of B of a column as it is read. -/
def rawB (j : Job) (x : ProductData) (e c : Nat) : List Blk :=
  blocksOf j.blocks (fun k => some (x.codeB e k c)) (fun k => if j.scaled then x.scaleB e k c else none)

theorem lineA_eq (s : State) (a : Fld) (j : Job) (x : ProductData) (i : Nat) : lineA s a j x i =
    (if j.path = .wideA then narrowLine j.ca j.clsA j.flyRot (rawA s a j x i) else (rawA s a j x i, 0)).1 := by
  unfold lineA Job.clsA Job.flyRot
  dsimp only
  split <;> rfl

theorem lineB_eq (j : Job) (x : ProductData) (e c : Nat) : lineB j x e c =
    (if j.path = .wideB then narrowLine j.b.d.cls j.clsB j.flyRot (rawB j x e c) else (rawB j x e c, 0)).1 := by
  unfold lineB Job.clsB Job.flyRot
  dsimp only
  split <;> rfl

section
variable {s : State} {pg : BitVec 2} {a : Fld} {j : Job} {x : ProductData} {e : VEntry} {V : Nat → Byte} {w : Vlc}
  {acc : Tab (BitVec 2048)} (operands : OperandsAre s pg j x) (wf : Tab.wf [] s.demand = true)
include operands wf

/-- A scale that takes part, or none. -/
theorem scale_yields {d : Desc} {idx : List Nat} {y : Option Nat} (h : j.scaled = true → ScalesAs s d idx y) (k : Nat) :
    Yields (Reading s V w acc) ((if j.scaled then fun _ => readScale s.me d idx else noScale) k) (if j.scaled then y else none) := by
  by_cases scaled : j.scaled = true
  · rw [if_pos scaled, if_pos scaled]
    exact (h scaled).yields wf
  · rw [if_neg scaled, if_neg scaled]
    exact fun u h => ⟨u, rfl, h⟩

/-- The row of A. -/
theorem jobRowA_yields (cap : Captured e s.vlc) (xa : e.xa = s.vlc.rx a) (file : w.vf = s.vlc.vf.fresh) (poison : w.poison = []) {i : Nat}
    (row : productRow s pg j x i = true) : ∃ fl, Yields (Reading s V w acc) (jobRowA j s.me e i) (lineA s a j x i, fl) := by
  have raw : Yields (Reading s V w acc) (readRawA j s.me e i) (rawA s a j x i) := by
    unfold readRawA rawA
    cases src : j.a with
    | tensor t =>
      have parts := (operands.1 t src).2 i row
      refine readLine_yields j.blocks (fun _ _ _ _ => rfl) (fun b hb k hk y hy => ?_) fun b hb k hk => ?_
      · obtain rfl := Option.some.inj hy
        exact ((parts b hb).1 k hk).yields wf _
      · have word := scale_yields (V := V) (w := w) (acc := acc) operands wf ((parts b hb).2 k (find?_true hk)) k
        by_cases scaled : j.scaled = true
        · simpa only [scaled, if_true] using word
        · simpa only [scaled, if_false, Bool.false_eq_true] using word
    | group =>
      have index : field (s.vlc.rx a).toNat 0 8 = (s.vlc.rx a).toNat % 256 := by simp [field]
      rw [cap.tsk, cap.vl, cap.vt, xa, index]
      refine readLine_yields j.blocks (fun b _ k _ => ?_) (fun b _ k _ y hy u h => ?_) fun b _ k _ u h => ⟨u, rfl, h⟩
      · split
        · simp [*]
        · simp [*]
      · refine ⟨u, ?_, h⟩
        split at hy
        · obtain rfl := Option.some.inj hy
          rw [h.vlc, Vlc.readElem, poisonIn, poison, file]
          rfl
        · nomatch hy
  refine ⟨(if j.path = .wideA then narrowLine j.ca j.clsA j.flyRot (rawA s a j x i) else (rawA s a j x i, 0)).2, fun u h => ?_⟩
  obtain ⟨v, run, hv⟩ := raw u h
  refine ⟨v, ?_, hv⟩
  rw [lineA_eq]
  exact jobRowA_ok run

/-- The columns of B of an expert. -/
theorem jobColsB_yields {i : Nat} (row : productRow s pg j x i = true) (cs : List Nat) (sub : ∀ c ∈ cs, c ∈ j.cols) :
    ∃ fl, Yields (Reading s V w acc) (jobColsB j s.me (expertOf j x i) cs) (cs.map fun c => (c, lineB j x (expertOf j x i) c), fl) := by
  induction cs with
  | nil => exact ⟨0, fun u h => ⟨u, rfl, h⟩⟩
  | cons c cs ih =>
    obtain ⟨fl, rest⟩ := ih fun q hq => sub q (List.mem_cons_of_mem _ hq)
    have parts := operands.2 i row c (sub c List.mem_cons_self)
    have raw : Yields (Reading s V w acc) (readLine (fun _ => true)
        (fun k => readTensor s.me (some true) j.b.d [j.b.o0 + k, j.b.o1 + c, expertOf j x i, 0])
        (if j.scaled then fun k => readScale s.me j.b.d [j.b.o0 + k, j.b.o1 + c, expertOf j x i, 0] else noScale) j.blocks)
        (rawB j x (expertOf j x i) c) := by
      refine readLine_yields j.blocks (fun _ _ _ _ => rfl) (fun b hb k hk y hy => ?_) fun b hb k hk => ?_
      · obtain rfl := Option.some.inj hy
        exact ((parts b hb).1 k hk).yields wf _
      · have word := scale_yields (V := V) (w := w) (acc := acc) operands wf ((parts b hb).2 k (find?_true hk)) k
        by_cases scaled : j.scaled = true
        · simpa only [scaled, if_true] using word
        · simpa only [scaled, if_false, Bool.false_eq_true] using word
    refine ⟨(if j.path = .wideB then narrowLine j.b.d.cls j.clsB j.flyRot (rawB j x (expertOf j x i) c)
      else (rawB j x (expertOf j x i) c, 0)).2 ||| fl, fun u h => ?_⟩
    obtain ⟨v, run, hv⟩ := raw u h
    obtain ⟨z, run', hz⟩ := rest v hv
    refine ⟨z, ?_, hz⟩
    rw [List.map_cons, lineB_eq]
    simp only [jobColsB, run, run']

end


/-! ### What the checks of a product establish -/

/-- The job of operands whose checks pass keeps them; its columns are columns of the tile (R169). -/
theorem jobOf_ok {s : State} {pg : BitVec 2} {e : VEntry} {src : ASrc} {b : TileSpec} {grouped : Bool} {j : Job}
    (h : jobOf s pg e src b grouped = .ok j) : j.a = src ∧ j.grouped = grouped ∧ ∀ c ∈ j.cols, c < e.tsn := by
  have ends : ∃ path ca wa rot fly blocks, j = ⟨path, src, b, ca, wa, rot, fly, grouped, blocks,
      (activeCols s.vlc.vf pg e.tsn).filter fun c => decide (b.o1 + c < b.d.ext.getD 1 0)⟩ := by
    unfold jobOf at h
    dsimp only at h
    repeat' split at h
    all_goals simp only [reduceCtorEq, Except.ok.injEq] at h
    all_goals exact ⟨_, _, _, _, _, _, h.symm⟩
  obtain ⟨path, ca, wa, rot, fly, blocks, rfl⟩ := ends
  exact ⟨rfl, rfl, fun c hc => List.mem_range.1 (List.mem_of_mem_filter (List.mem_of_mem_filter hc))⟩

/-- Checks read of a state the file of the VLC at the front, its VSTART and its gang. -/
theorem jobOf_congr {s u : State} (file : u.vlc.vf = s.vlc.vf.fresh) (start : u.vlc.vstart = s.vlc.vstart) (gang : u.gang = s.gang)
    (pg : BitVec 2) (e : VEntry) (src : ASrc) (b : TileSpec) (grouped : Bool) : jobOf u pg e src b grouped = jobOf s pg e src b grouped := by
  unfold jobOf
  rw [file, start, gang]
  rfl

/-! ### The rows of a product -/

/-- A row takes part where it is active, and under `mma.g` where B holds its expert (R163, R167, R173). -/
theorem productRow_eq {s : State} {pg : BitVec 2} {j : Job} {x : ProductData} {i : Nat} (ge : s.vlc.vstart.toNat ≤ i) (lt : i < s.vlc.tsm) :
    productRow s pg j x i = (rowOn s.vlc.vf pg j.a i && (!j.grouped || decide (x.tag i < j.b.d.ext.getD 2 0))) := by
  unfold productRow rowOn
  cases j.a with
  | tensor t => simp only [maskBit_eq, ge, lt, decide_true, Bool.true_and]
  | group => simp only [maskBit_eq, ge, lt, decide_true, Bool.true_and]

/-- The value of an element after its row (R79 to R82, R170). -/
def productValue (j : Job) (frm old : Nat) (p q : List Blk) : Nat :=
  if j.path = .ints then (accInts j.ca j.wa j.b.d.cls j.b.d.ew.bits old p q).1
  else (accLine (j.path != .half) j.clsA j.clsB frm ((j.rot.map Prod.fst).getD 0) old p q).1

/-- The elements of a row over an array without poison. -/
theorem jobElems_clean (j : Job) {e : VEntry} (on : e.mvl ≠ 0) (i : Nat) {k : CoreSt} (clean : k.accPoison = []) (p : List Blk)
    (q : Nat → List Blk) (cs : List Nat) : ∃ fl, jobElems j e i k p (cs.map fun c => (c, q c)) =
      .ok (cs.map fun c => (arrayCell e.mvl e.d i c, productValue j e.frm (accBits k (arrayCell e.mvl e.d i c)) p (q c)), fl) := by
  induction cs with
  | nil => exact ⟨0, rfl⟩
  | cons c cs ih =>
    obtain ⟨fl, rest⟩ := ih
    simp only [List.map_cons, jobElems, viewCell_eq on, accGet_clean clean, rest, productValue]
    cases path : j.path <;> exact ⟨_, rfl⟩

/-- The elements of a product in the rows below `k`. -/
def productRows (s : State) (pg : BitVec 2) (d a : Fld) (j : Job) (x : ProductData) (k : Nat) : CellRule := fun i c =>
  if i < k then productCells s pg d a j x i c else none

theorem productRows_succ {s : State} {pg : BitVec 2} {d a : Fld} {j : Job} {x : ProductData} (k i c : Nat) :
    productRows s pg d a j x (k + 1) i c =
      if i = k ∧ productRow s pg j x k = true ∧ c ∈ j.cols then some (productValue j s.vlc.frm.toNat
        (accBits (s.core s.vlc.core) (arrayCell s.vlc.mvl d.toNat k c)) (lineA s a j x k) (lineB j x (expertOf j x k) c))
      else productRows s pg d a j x k i c := by
  unfold productRows
  by_cases at_ : i = k
  · subst at_
    rw [if_pos (Nat.lt_succ_self i), if_neg (Nat.lt_irrefl i)]
    unfold productCells productValue
    by_cases part : productRow s pg j x i = true ∧ c ∈ j.cols
    · rw [if_pos part, if_pos ⟨rfl, part⟩]
    · rw [if_neg part, if_neg fun h => part h.2]
  · have : i < k + 1 ↔ i < k := by omega
    simp only [at_, this, false_and, if_false]

/-- The array of a core whose caches have changed since its writes. -/
theorem Committed.carry {k k' k'' : CoreSt} {m t : Nat} {r : CellRule} (h : Committed k m t r k') (acc : k''.acc = k'.acc)
    (clean : k''.accPoison = []) : Committed { k'' with acc := k.acc } m t r k'' := by
  have same (y : Nat × Nat) : accBits k'' y = accBits k' y := by rw [accBits, acc, accBits]
  refine ⟨rfl, clean, acc ▸ h.wf, fun i c y hi hc e => (same _).trans (h.written i c y hi hc e), fun y z hy hz no => ?_⟩
  exact (same _).trans (h.kept y z hy hz no)

/-- A state between the rows of a product issued at `s`: the core sees what it saw there, the VLC at the front has changed its flags alone,
and the elements of tile `t` that `r` names are written. -/
structure ProductAt (s : State) (e : VEntry) (V : Nat → Byte) (t : Nat) (r : CellRule) (u : State) : Prop where
  pair : Pair s.me V s u
  vlc : u.vlc = { (headState s e).vlc with fflags := u.vlc.fflags }
  cells : ∃ k, k.acc = (s.core s.vlc.core).acc ∧ Committed k s.vlc.mvl t r (u.core s.vlc.core)

/-- The tile of B that stands from an earlier row is that of its expert. -/
def Stands (j : Job) (x : ProductData) (st : Stationary) : Prop :=
  ∀ y cols fb, st = some (y, cols, fb) → cols = j.cols.map fun c => (c, lineB j x y c)

section
variable {s : State} {e : VEntry} {V : Nat → Byte} {t : Nat} {r : CellRule} {u : State}

theorem ProductAt.congr (h : ProductAt s e V t r u) {q : CellRule} (same : ∀ i c, i < s.vlc.mvl → c < s.vlc.mvl → q i c = r i c) :
    ProductAt s e V t q u := by
  obtain ⟨pair, vlc, k, acc, cells⟩ := h
  exact ⟨pair, vlc, k, acc, cells.congr same⟩

/-- It is a state in which the instruction reads. -/
theorem ProductAt.reading (h : ProductAt s e V t r u) : Reading s V u.vlc (u.core s.vlc.core).acc u := by
  obtain ⟨pair, vlc, k, acc, cells⟩ := h
  exact ⟨pair, rfl, rfl, cells.clean⟩

/-- Reads leave it such a state. -/
theorem ProductAt.reads (h : ProductAt s e V t r u) {v : State} (read : Reading s V u.vlc (u.core s.vlc.core).acc v) :
    ProductAt s e V t r v := by
  obtain ⟨pair, vlc, k, acc, cells⟩ := h
  exact ⟨read.pair, by rw [read.vlc]; exact vlc, { v.core s.vlc.core with acc := k.acc }, acc, cells.carry read.array read.clean⟩

/-- So do changes of the L2. -/
theorem ProductAt.alike (h : ProductAt s e V t r u) {v : State} (same : L2Alike u v) : ProductAt s e V t r v := by
  refine h.reads ⟨⟨h.pair.near.trans (.of_alike same), h.pair.left, h.pair.right.congr (.of_alike h.pair.right.wf same)⟩, same.vlc, ?_, ?_⟩
  · rw [State.core, same.cores]
    rfl
  · rw [State.core, same.cores]
    exact h.reading.clean

/-- A row is committed. -/
theorem ProductAt.commit (mode : s.vlc.mvl = 16 ∨ s.vlc.mvl = 32 ∨ s.vlc.mvl = 64) (h : ProductAt s e V t r u) (g : Nat × Nat → Nat)
    (ps : List (Nat × Nat)) (inside : ∀ p ∈ ps, p.1 < s.vlc.mvl ∧ p.2 < s.vlc.mvl) (fl : Fl) :
    ProductAt s e V t (fun i c => if (i, c) ∈ ps then some (g (i, c)) else r i c)
      (commitRow u (ps.map fun p => (arrayCell s.vlc.mvl t p.1 p.2, g p)) fl) := by
  have core : u.vlc.core = s.vlc.core := by rw [h.vlc, headState_core]
  have wf := h.pair.right.wf
  obtain ⟨pair, vlc, k, acc, cells⟩ := h
  have done := cells.puts mode g ps inside
  have written (c : Nat) : (commitRow u (ps.map fun p => (arrayCell s.vlc.mvl t p.1 p.2, g p)) fl).core c = { u.core c with
      acc := ((commitRow u (ps.map fun p => (arrayCell s.vlc.mvl t p.1 p.2, g p)) fl).core c).acc
      accPoison := ((commitRow u (ps.map fun p => (arrayCell s.vlc.mvl t p.1 p.2, g p)) fl).core c).accPoison } := by
    rw [commitRow_core _ _ wf, core]
    split
    next at_ =>
      have left := cells.rest
      have right := done.rest
      generalize (ps.map fun p => (arrayCell s.vlc.mvl t p.1 p.2, g p)).foldl (fun k x => accPut k x.1 x.2) (u.core s.vlc.core) = z at right ⊢
      rw [at_, right, left]
    · rfl
  refine ⟨⟨pair.near.trans ⟨by rw [commitRow_rest], fun c => ?_⟩, pair.left, pair.right.congr ⟨commitRow_wf _ _ wf, fun c => ?_, rfl, rfl, rfl, rfl,
    rfl, rfl⟩⟩, ?_, k, acc, ?_⟩
  · rw [written c]
  · rw [written c]
  · rw [commitRow_vlc, vlc]
    rfl
  · rw [commitRow_core _ _ wf, core, if_pos rfl]
    exact done

end


section
variable {s : State} {pg : BitVec 2} {d a : Fld} {j : Job} {x : ProductData} {e : VEntry} {V : Nat → Byte}
  (operands : OperandsAre s pg j x) (wf : Tab.wf [] s.demand = true)
include operands wf

/-- The expert of a row that is active (R173). -/
theorem rowExpert_yields {w : Vlc} {acc : Tab (BitVec 2048)} (tensor : j.grouped = true → ∃ t, j.a = .tensor t) {i : Nat}
    (on : rowOn s.vlc.vf pg j.a i = true) (ge : s.vlc.vstart.toNat ≤ i) (lt : i < s.vlc.tsm) :
    Yields (Reading s V w acc) (rowExpert j s.me i) (expertOf j x i) := by
  unfold rowExpert expertOf
  cases grouped : j.grouped with
  | false => exact fun u h => ⟨u, rfl, h⟩
  | true =>
    obtain ⟨t, src⟩ := tensor grouped
    rw [src] at on ⊢
    unfold rowOn at on
    rw [maskBit_eq, Bool.and_eq_true] at on
    exact readOperand_yields wf ((operands.1 t src).1 grouped i ge lt on.1 (of_decide_eq_true on.2))

/-- The tile of B of an expert: what stands from an earlier row, or what is read. -/
theorem stationTile_yields {w : Vlc} {acc : Tab (BitVec 2048)} {st : Stationary} (stands : Stands j x st) {i : Nat}
    (row : productRow s pg j x i = true) : ∃ fb, Yields (Reading s V w acc) (stationTile j s.me (expertOf j x i) st)
      (j.cols.map fun c => (c, lineB j x (expertOf j x i) c), fb) := by
  obtain ⟨fl, read⟩ := jobColsB_yields (V := V) (w := w) (acc := acc) operands wf row j.cols fun _ h => h
  cases st with
  | none => exact ⟨fl, read⟩
  | some z =>
    obtain ⟨y, cols, fb⟩ := z
    by_cases same : y = expertOf j x i
    · refine ⟨fb, fun u h => ⟨u, ?_, h⟩⟩
      simp only [stationTile, stands y cols fb rfl, same, if_true]
    · refine ⟨fl, fun u h => ?_⟩
      simp only [stationTile, if_neg same]
      exact read u h

/-- A row of a product is added to the array. -/
theorem jobRow_run (cap : Captured e s.vlc) (xa : e.xa = s.vlc.rx a) (ed : e.d = d.toNat) (poison : s.vlc.poison = [])
    (mode : s.vlc.mvl = 16 ∨ s.vlc.mvl = 32 ∨ s.vlc.mvl = 64) (tile : d.toNat < 64 / s.vlc.mvl * (64 / s.vlc.mvl))
    (rows : s.vlc.tsm ≤ s.vlc.mvl) (cols : ∀ c ∈ j.cols, c < s.vlc.mvl) (tensor : j.grouped = true → ∃ t, j.a = .tensor t) {k : Nat}
    (ge : s.vlc.vstart.toNat ≤ k) (lt : k < s.vlc.tsm) {st : Stationary} (stands : Stands j x st) {u : State}
    (h : ProductAt s e V d.toNat (productRows s pg d a j x k) u) :
    ∃ u' st', jobRow j s.me pg e k st u = (u', .ok st') ∧ ProductAt s e V d.toNat (productRows s pg d a j x (k + 1)) u' ∧ Stands j x st' := by
  have file : u.vlc.vf = s.vlc.vf.fresh := by rw [h.vlc, headState_vf]
  have on : e.mvl ≠ 0 := by rw [cap.mvl]; omega
  have part := productRow_eq (pg := pg) (j := j) (x := x) ge lt
  have skip (off : productRow s pg j x k = false) : ProductAt s e V d.toNat (productRows s pg d a j x (k + 1)) u :=
    h.congr fun i c _ _ => by rw [productRows_succ, if_neg fun m => by simp [off] at m]
  have rowU : rowOn u.vlc.vf pg j.a k = rowOn s.vlc.vf pg j.a k := by rw [file]; rfl
  unfold jobRow
  rw [rowU]
  by_cases active : rowOn s.vlc.vf pg j.a k = true
  · obtain ⟨u1, expert, r1⟩ := rowExpert_yields (V := V) operands wf tensor active ge lt u h.reading
    rw [active, Bool.true_and] at part
    rw [active, expert]
    dsimp only [Bool.not_true]
    have at1 := h.reads r1
    have refused : (j.grouped && decide (j.b.d.ext.getD 2 0 ≤ expertOf j x k)) = !productRow s pg j x k := by
      rw [part]
      unfold expertOf
      cases j.grouped with
      | false => rfl
      | true => simp [← decide_not]
    rw [refused]
    cases row : productRow s pg j x k with
    | false => exact ⟨u1, st, rfl, at1.congr fun i c _ _ => by rw [productRows_succ, if_neg fun m => by simp [row] at m], stands⟩
    | true =>
      obtain ⟨fa, lineOfA⟩ := jobRowA_yields (V := V) (w := u.vlc) (acc := (u.core s.vlc.core).acc) operands wf cap xa file
        (by rw [h.vlc, headState_poison, poison]) row
      obtain ⟨u2, readA, r2⟩ := lineOfA u1 r1
      obtain ⟨fb, tileB⟩ := stationTile_yields (V := V) (w := u.vlc) (acc := (u.core s.vlc.core).acc) operands wf stands row
      obtain ⟨u3, readB, r3⟩ := tileB u2 r2
      have at3 := h.reads r3
      have core : u3.vlc.core = s.vlc.core := by rw [at3.vlc, headState_core]
      obtain ⟨fl, elems⟩ := jobElems_clean j on k (k := u3.core u3.vlc.core) (by rw [core]; exact r3.clean) (lineA s a j x k)
        (lineB j x (expertOf j x k)) j.cols
      refine ⟨commitRow u3 (j.cols.map fun c => (arrayCell e.mvl e.d k c, productValue j e.frm
        (accBits (u3.core u3.vlc.core) (arrayCell e.mvl e.d k c)) (lineA s a j x k) (lineB j x (expertOf j x k) c))) (fl ||| fa ||| fb),
        some (expertOf j x k, j.cols.map fun c => (c, lineB j x (expertOf j x k) c), fb), ?_, ?_, ?_⟩
      · simp only [readA, readB, elems, Bool.not_true, Bool.false_eq_true, if_false]
      · have inside (p : Nat × Nat) (hp : p ∈ j.cols.map fun c => (k, c)) : p.1 < s.vlc.mvl ∧ p.2 < s.vlc.mvl := by
          obtain ⟨c, hc, rfl⟩ := List.mem_map.1 hp
          exact ⟨by omega, cols c hc⟩
        have done := at3.commit mode (fun p => productValue j e.frm (accBits (u3.core u3.vlc.core) (arrayCell e.mvl e.d p.1 p.2))
          (lineA s a j x p.1) (lineB j x (expertOf j x p.1) p.2)) (j.cols.map fun c => (k, c)) inside (fl ||| fa ||| fb)
        rw [List.map_map] at done
        rw [cap.mvl, ed] at done ⊢
        refine done.congr fun i c hi hc => ?_
        rw [productRows_succ]
        have member : (i, c) ∈ j.cols.map (fun c => (k, c)) ↔ i = k ∧ c ∈ j.cols := by
          simp only [List.mem_map, Prod.mk.injEq]
          constructor
          · rintro ⟨q, hq, rfl, rfl⟩
            exact ⟨rfl, hq⟩
          · rintro ⟨rfl, hc⟩
            exact ⟨c, hc, rfl, rfl⟩
        by_cases at_ : i = k ∧ c ∈ j.cols
        · obtain ⟨-, -, k0, acc, cells⟩ := at3
          have old := cells.unwritten mode tile hi hc (if_neg (by omega))
          have base : accBits k0 (arrayCell s.vlc.mvl d.toNat i c) = accBits (s.core s.vlc.core) (arrayCell s.vlc.mvl d.toNat i c) := by
            rw [accBits, acc, accBits]
          rw [if_pos (member.2 at_), if_pos ⟨at_.1, row, at_.2⟩, core, old, base, cap.frm, at_.1]
        · rw [if_neg fun m => at_ (member.1 m), if_neg fun m => at_ ⟨m.1, m.2.2⟩]
      · intro y cs f eq
        simp only [Option.some.injEq, Prod.mk.injEq] at eq
        obtain ⟨rfl, rfl, -⟩ := eq
        rfl
  · have off : rowOn s.vlc.vf pg j.a k = false := by simpa using active
    exact ⟨u, st, by simp [off], skip (by rw [part, off, Bool.false_and]), stands⟩

end


/-! ### The whole product -/

/-- The fields of a product and of its tile that its rows need. -/
structure ProductReady (s : State) (pg : BitVec 2) (d a : Fld) (j : Job) (x : ProductData) (e : VEntry) : Prop where
  operands : OperandsAre s pg j x
  demand : Tab.wf [] s.demand = true
  cap : Captured e s.vlc
  xa : e.xa = s.vlc.rx a
  dest : e.d = d.toNat
  poison : s.vlc.poison = []
  mode : s.vlc.mvl = 16 ∨ s.vlc.mvl = 32 ∨ s.vlc.mvl = 64
  tile : d.toNat < 64 / s.vlc.mvl * (64 / s.vlc.mvl)
  rows : s.vlc.tsm ≤ s.vlc.mvl
  cols : ∀ c ∈ j.cols, c < s.vlc.mvl
  tensor : j.grouped = true → ∃ t, j.a = .tensor t

section
variable {s : State} {pg : BitVec 2} {d a : Fld} {j : Job} {x : ProductData} {e : VEntry} {V : Nat → Byte} (ready : ProductReady s pg d a j x e)
include ready

/-- The rows are added one after the other. -/
theorem jobRows_run (n k : Nat) (ge : s.vlc.vstart.toNat ≤ k) (le : k + n ≤ s.vlc.tsm) (st : Stationary) (stands : Stands j x st) (u : State)
    (h : ProductAt s e V d.toNat (productRows s pg d a j x k) u) :
    ∃ u', jobRows j s.me pg e n k st u = (u', .done) ∧ ProductAt s e V d.toNat (productRows s pg d a j x (k + n)) u' := by
  induction n generalizing k st u with
  | zero => exact ⟨u, rfl, h⟩
  | succ n ih =>
    obtain ⟨v, st', row, next, stands'⟩ := jobRow_run ready.operands ready.demand ready.cap ready.xa ready.dest ready.poison ready.mode ready.tile
      ready.rows ready.cols ready.tensor ge (by omega) stands h
    have unpinned := next.alike (v := unpinRow j s.me pg e.tsm k v) (unpin_alike v _)
    have whole (z : State) (r : CellRule) (hz : ProductAt s e V d.toNat r z) : z.vlc.spent = false ∧ z.modVlc Vlc.spend = z := by
      have run : z.vlc.run = some ⟨none, none⟩ := by rw [hz.vlc, headState_run]
      refine ⟨by simp [Vlc.spent, run], ?_⟩
      have : z.vlc.spend = z.vlc := by
        rw [show z.vlc = { z.vlc with run := z.vlc.run } from rfl, run]
        rfl
      rw [State.modVlc, this]
    obtain ⟨w, rest, done⟩ := ih (k + 1) (by omega) (by omega) st' stands' _ unpinned
    refine ⟨w, ?_, (show k + (n + 1) = k + 1 + n by omega) ▸ done⟩
    simp only [jobRows, (whole u _ h).1, row, (whole _ _ unpinned).2, rest, Bool.false_eq_true, if_false]

/-- A product runs to its end. -/
theorem runJob_run (start : s.vlc.vstart.toNat ≤ s.vlc.tsm) (fresh : ProductAt s e V d.toNat (fun _ _ => none) (headState s e)) :
    ∃ u, runJob pg e (.ok j) (headState s e) = (u.clearVstart, .done) ∧ ProductAt s e V d.toNat (productCells s pg d a j x) u := by
  have first : ProductAt s e V d.toNat (productRows s pg d a j x s.vlc.vstart.toNat) (headState s e) := by
    refine fresh.congr fun i c _ _ => ?_
    unfold productRows productCells productRow
    by_cases low : i < s.vlc.vstart.toNat
    · simp [low, Nat.not_le.2 low]
    · rw [if_neg low]
  obtain ⟨u, run, done⟩ := jobRows_run ready (s.vlc.tsm - s.vlc.vstart.toNat) s.vlc.vstart.toNat (Nat.le_refl _) (by omega) none
    (fun _ _ _ eq => nomatch eq) _ first
  rw [Nat.add_sub_cancel' start] at done
  have all : ProductAt s e V d.toNat (productCells s pg d a j x) u := done.congr fun i c _ _ => by
    unfold productRows
    by_cases low : i < s.vlc.tsm
    · rw [if_pos low]
    · rw [if_neg low]
      unfold productCells productRow
      simp [low]
  have unpinned (z : State) : (unpin z.clearVstart fun _ => true) = (unpin z fun _ => true).clearVstart := by
    unfold unpin
    dsimp only
    rw [apply_ite State.clearVstart]
    rfl
  refine ⟨unpin u fun _ => true, ?_, all.alike (unpin_alike u _)⟩
  unfold runJob
  dsimp only
  rw [headState_vstart, headState_me, ready.cap.tsm, run]
  show (unpin u.clearVstart fun _ => true, VEnd.done) = _
  rw [unpinned]

end

/-- The next word of a VLC whose flags differ. -/
theorem Vlc.next_fflags (v : Vlc) (fl : BitVec 7) : ({ v with fflags := fl } : Vlc).next = { v.next with fflags := fl } := by
  unfold Vlc.next Vlc.goto
  dsimp only
  split
  case h_1 l _ _ =>
    split
    · unfold stripEnd handOut
      dsimp only
      split <;> rfl
    · split <;> rfl
  case h_2 => rfl

/-- At the start of a product nothing of the array is written. -/
theorem productAt_head {s : State} {d : Fld} (tables : TablesOk s) (caches : CachesOk s) (coherent : Coherent s s.vlc.core) (tile : TileReady s d)
    (e : VEntry) (t : Nat) : ProductAt s e (lineByte s s.vlc.core) t (fun _ _ => none) (headState s e) := by
  obtain ⟨-, cores, -⟩ := tables
  obtain ⟨-, -, clean, wf⟩ := tile
  have sees := Sees.of_coherent cores caches coherent
  exact ⟨⟨⟨rfl, fun _ => rfl⟩, sees, sees.congr ⟨cores, fun _ => rfl, rfl, rfl, rfl, rfl, rfl, rfl⟩⟩, rfl, s.core s.vlc.core, rfl, .refl clean wf _ _⟩

section
variable {s u : State} {e : VEntry} {V : Nat → Byte} {t : Nat} {r : CellRule}

/-- What a product leaves at its end. -/
theorem ProductAt.done (ready : VecReady s.vlc) (h : ProductAt s e V t r u) (i : Instr) :
    MemDone { s.vlc with fflags := (headDone u.clearVstart i).vlc.fflags } (headDone u.clearVstart i).vlc s.vlc.vf.fresh ∧
    (headDone u.clearVstart i).mem = s.mem ∧ ArrayHolds s (headDone u.clearVstart i) t r := by
  have vlc : (headDone u.clearVstart i).vlc = { s.vlc.next with vf := s.vlc.vf.fresh, fflags := u.vlc.fflags, vstart := 0 } := by
    refine headDone_vlc (e := e) ready ?_ i
    show { u.vlc with vstart := 0 } = _
    rw [h.vlc, ← headState_vf s e]
  have flags : (headDone u.clearVstart i).vlc.fflags = u.vlc.fflags := by rw [vlc]
  refine ⟨?_, ?_, ?_⟩
  · rw [flags, vlc]
    constructor
    · rw [SameRegisters, Vlc.next_fflags s.vlc u.vlc.fflags]
    · rw [Vlc.next_fflags s.vlc u.vlc.fflags]
  · rw [headDone_rest]
    exact h.pair.near.mem
  · obtain ⟨pair, -, k, acc, cells⟩ := h
    have same (y : Nat × Nat) : accBits (headDone u.clearVstart i |>.core s.vlc.core) y = accBits (u.core s.vlc.core) y :=
      headDone_accBits (t := u.clearVstart) pair.right.wf i _ y
    have base (y : Nat × Nat) : accBits k y = accBits (s.core s.vlc.core) y := by rw [accBits, acc, accBits]
    refine ⟨fun i c y hi hc eq => (same _).trans (cells.written i c y hi hc eq), fun y z hy hz no => ?_⟩
    exact (same _).trans ((cells.kept y z hy hz no).trans (base _))

end


/-! ### Products that are issued -/

/-- A product that is issued with its checks passed adds its rows to the array, and leaves memory and every register but FFLAGS. -/
theorem issue_product {i : Instr} {s : State} {pg : BitVec 2} {d a : Fld} {j : Job} {x : ProductData} {sp : VSpec} {body : VBody} {A B : Nat}
    {xb : Word} {src : ASrc} {b : TileSpec} {g : Bool} (operands : OperandsAre s pg j x) (caches : CachesOk s)
    (coherent : Coherent s s.vlc.core) (ready : VecReady s.vlc) (poison : s.vlc.poison = []) (tables : TablesOk s) (tile : TileReady s d)
    (rows : s.vlc.tsm ≤ s.vlc.mvl) (cols : s.vlc.tsn ≤ s.vlc.mvl) (start : s.vlc.vstart = 0 ∨ s.vlc.vstart.toNat < s.vlc.tsm)
    (ok : specTrap (wordOf i) sp s.vlc = none) (count : ∀ v (e : VEntry), e.i = i → entryCount v e = e.tsm)
    (job : jobOf s pg (capture s.vlc i d.toNat A B 0 (s.vlc.rx a) xb) src b g = .ok j) (tensor : g = true → ∃ t, src = .tensor t)
    (run : body (capture s.vlc i d.toNat A B 0 (s.vlc.rx a) xb) (headState s (capture s.vlc i d.toNat A B 0 (s.vlc.rx a) xb)) =
      runJob pg (capture s.vlc i d.toNat A B 0 (s.vlc.rx a) xb) (.ok j) (headState s (capture s.vlc i d.toNat A B 0 (s.vlc.rx a) xb))) :
    ∃ t f, issue sp body (capture s.vlc i d.toNat A B 0 (s.vlc.rx a) xb) s = .next t ∧
      MemDone { s.vlc with fflags := t.vlc.fflags } t.vlc f ∧ SameFile f s.vlc.vf ∧ t.mem = s.mem ∧
      ArrayHolds s t d.toNat (productCells s pg d a j x) := by
  have fresh := productAt_head tables caches coherent tile (capture s.vlc i d.toNat A B 0 (s.vlc.rx a) xb) d.toNat
  have demand : Tab.wf [] s.demand = true := tables.2.2.2.2.2.2.2.1
  obtain ⟨mode, inside, -, -⟩ := tile
  obtain ⟨source, grouped, narrow⟩ := jobOf_ok job
  have all : ProductReady s pg d a j x (capture s.vlc i d.toNat A B 0 (s.vlc.rx a) xb) :=
    { operands, demand, cap := capture_captured .., xa := rfl, dest := rfl, poison, mode, tile := inside, rows
      cols := fun c hc => Nat.lt_of_lt_of_le (narrow c hc) cols
      tensor := fun h => source ▸ tensor (grouped ▸ h) }
  have low : s.vlc.vstart.toNat ≤ s.vlc.tsm := by
    rcases start with h | h
    · simp [h]
    · omega
  obtain ⟨u, whole, done⟩ := runJob_run all low fresh
  obtain ⟨regs, mem, array⟩ := done.done ready i
  refine ⟨_, _, issue_head ready ok (start.imp_right fun h => .inl ?_) (run.trans whole), regs, ⟨rfl, rfl, rfl, rfl⟩, mem, array⟩
  rw [count _ _ rfl]
  exact h

/-- The operands of a product of two tensors, where its checks pass (R167, R169). -/
theorem tensors_ok {s : State} {pg : BitVec 2} {e : VEntry} {A B : Word} {g : Bool} {j : Job}
    (h : (match specOf s.gang A, specOf s.gang B with
      | .ok x, .ok y => jobOf s pg e (.tensor x) y g
      | _, _ => .error (trapInfo 0 0)) = .ok j) :
    ∃ x y, specOf s.gang A = .ok x ∧ specOf s.gang B = .ok y ∧ jobOf s pg e (.tensor x) y g = .ok j := by
  cases specA : specOf s.gang A with
  | error t => rw [specA] at h; nomatch h
  | ok x =>
    cases specB : specOf s.gang B with
    | error t => rw [specA, specB] at h; nomatch h
    | ok y => exact ⟨x, y, rfl, rfl, by rw [specA, specB] at h; exact h⟩

section
variable {s : State} {pg : BitVec 2} {e : VEntry} {j : Job}

/-- The body of `mma` and `mma.g` with its checks passed. -/
theorem mmaBody_eq {x y : TileSpec} {g : Bool} (cap : Captured e s.vlc) (some_ : s.vlc.tsm ≠ 0) (A : specOf s.gang e.xa = .ok x)
    (B : specOf s.gang e.xb = .ok y) (job : jobOf s pg e (.tensor x) y g = .ok j) :
    mmaBody g pg e (headState s e) = runJob pg e (.ok j) (headState s e) := by
  unfold mmaBody
  rw [if_neg (by rwa [cap.tsm]), headState_gang, A]
  dsimp only
  rw [B]
  dsimp only
  rw [jobOf_congr (headState_vf s e) (headState_vstart s e) (headState_gang s e), job]

/-- The body of `mmav` with its checks passed. -/
theorem mmavBody_eq {y : TileSpec} (cap : Captured e s.vlc) (some_ : s.vlc.tsm ≠ 0) (small : e.xa.toNat < 256)
    (fits : s.vlc.tsm * s.vlc.tsk ≤ vlmaxOf s.vlc.vt) (B : specOf s.gang e.xb = .ok y) (job : jobOf s pg e .group y false = .ok j) :
    mmavBody pg e (headState s e) = runJob pg e (.ok j) (headState s e) := by
  have high : field e.xa.toNat 8 56 = 0 := by
    unfold field
    rw [Nat.div_eq_of_lt (show e.xa.toNat < 2 ^ 8 from small), Nat.zero_mod]
  unfold mmavBody
  rw [if_neg (by rwa [cap.tsm]), if_neg (by rw [cap.tsm, cap.tsk, cap.vt]; omega), headState_gang, B]
  dsimp only
  rw [jobOf_congr (headState_vf s e) (headState_vstart s e) (headState_gang s e), job]

end

/-- The operands of `mmav`, where its checks pass (R174). -/
theorem group_ok {s : State} {pg : BitVec 2} {e : VEntry} {A B : Word} {j : Job}
    (h : (if 256 ≤ A.toNat ∨ vlmaxOf s.vlc.vt < s.vlc.tsm * s.vlc.tsk ∨ A.toNat % 2 ^ s.vlc.vt.grp.val ≠ 0 then .error (trapInfo 0 0)
      else match specOf s.gang B with
        | .ok y => jobOf s pg e .group y false
        | _ => .error (trapInfo 0 0)) = .ok j) :
    A.toNat < 256 ∧ s.vlc.tsm * s.vlc.tsk ≤ vlmaxOf s.vlc.vt ∧ A.toNat % 2 ^ s.vlc.vt.grp.val = 0 ∧
      ∃ y, specOf s.gang B = .ok y ∧ jobOf s pg e .group y false = .ok j := by
  by_cases bad : 256 ≤ A.toNat ∨ vlmaxOf s.vlc.vt < s.vlc.tsm * s.vlc.tsk ∨ A.toNat % 2 ^ s.vlc.vt.grp.val ≠ 0
  · rw [if_pos bad] at h
    nomatch h
  · rw [if_neg bad] at h
    simp only [not_or, Nat.not_le, Nat.not_lt, not_not] at bad
    refine ⟨bad.1, bad.2.1, bad.2.2, ?_⟩
    cases specB : specOf s.gang B with
    | error t => rw [specB] at h; nomatch h
    | ok y => exact ⟨y, rfl, by rw [specB] at h; exact h⟩

/-- Settles O44: `jobRows_run` carries `ProductAt` over the rows, and `Pair.readOperand` shows that a read which OperandsAre describes at the
issue gives its value again in every state between them. -/
theorem tensorProducts : Obligations.TensorProducts := by
  unfold Obligations.TensorProducts
  intro i s pg d a j x form operands caches coherent ready poison tables tile some_ rows cols start
  have bad := tileBad_ready tile 1
  have tensors (g : Bool) (i : Instr) (b : Fld) (body : bodyOf i = mmaBody g pg) (count : ∀ v (e : VEntry), e.i = i → entryCount v e = e.tsm)
      (h : (match specOf s.gang (s.vlc.rx a), specOf s.gang (s.vlc.rx b) with
        | .ok x, .ok y => jobOf s pg (capture s.vlc i d.toNat (xNum s.vlc.wins a) (xNum s.vlc.wins b) 0 (s.vlc.rx a) (s.vlc.rx b)) (.tensor x) y g
        | _, _ => .error (trapInfo 0 0)) = .ok j) :
      ∃ t f, issueTile i d a b s = .next t ∧ MemDone { s.vlc with fflags := t.vlc.fflags } t.vlc f ∧ SameFile f s.vlc.vf ∧ t.mem = s.mem ∧
        ArrayHolds s t d.toNat (productCells s pg d a j x) := by
    obtain ⟨ta, tb, specA, specB, job⟩ := tensors_ok h
    refine issue_product (sp := ⟨tileBad s.vlc.mvl d 1, false, [], false, false, true⟩) operands caches coherent ready poison tables tile rows cols
      start (specTrap_none ready _ bad rfl (by simp) rfl rfl) count job (fun _ => ⟨ta, rfl⟩) ?_
    rw [body]
    exact mmaBody_eq (capture_captured ..) some_ specA specB job
  unfold productJob at form
  dsimp only at form
  split at form
  next _ _ b =>
    simp only [Option.some.injEq, Prod.mk.injEq] at form
    obtain ⟨rfl, rfl, rfl, h⟩ := form
    exact tensors false _ b rfl (fun v e he => by rw [entryCount, he]) h
  next _ _ b =>
    simp only [Option.some.injEq, Prod.mk.injEq] at form
    obtain ⟨rfl, rfl, rfl, h⟩ := form
    exact tensors true _ b rfl (fun v e he => by rw [entryCount, he]) h
  next _ d' a' b =>
    simp only [Option.some.injEq, Prod.mk.injEq] at form
    obtain ⟨rfl, rfl, rfl, h⟩ := form
    obtain ⟨small, fits, aligned, y, spec, job⟩ := group_ok h
    have group : field (s.vlc.rx a').toNat 0 8 % grpNames s.vlc.vt = 0 := by
      rw [field, Nat.pow_zero, Nat.div_one, Nat.mod_eq_of_lt (show _ < 2 ^ 8 from small)]
      exact aligned
    refine issue_product (sp := ⟨tileBad s.vlc.mvl d' 1, false, [(field (s.vlc.rx a').toNat 0 8, grpNames s.vlc.vt)], false, false, true⟩)
      operands caches coherent ready poison tables tile rows cols start
      (specTrap_none ready _ bad rfl (by simpa using group) rfl rfl) (fun v e he => by rw [entryCount, he]) job (fun h => nomatch h) ?_
    exact mmavBody_eq (capture_captured ..) some_ small fits spec job
  · nomatch form

end Sys2Proof.Machine

/-! ## Machine family: the scalar unit's results -/

namespace Sys2Proof.Machine

/-! ### Numbers as the rules read them (R94) -/

/-- The signed value of the 64 bits of a word is its two's-complement value. -/
theorem intVal_word (a : Word) : intVal true 64 a.toNat = a.toInt := by
  have := a.isLt
  simp only [intVal, if_true, sgn, BitVec.toInt_eq_toNat_cond]
  omega

/-- Cutting an integer to 64 bits and reading it as a word wraps it. -/
theorem ofNat_wrapI (z : Int) : BitVec.ofNat 64 (wrapI 64 z) = BitVec.ofInt 64 z := by
  apply BitVec.eq_of_toNat_eq
  rw [wrapI, BitVec.toNat_ofNat, BitVec.toNat_ofInt]
  omega

/-- A shift amount is the low 6 bits of its operand. -/
theorem shiftAmount (w : Word) : w.toNat % 64 = (w.extractLsb' 0 6).toNat := by simp

theorem flag64_lt (a b : Word) : flag64 (decide (a.toInt < b.toInt)) = if a.slt b then 1 else 0 := rfl

theorem flag64_below (a b : Word) : flag64 (decide (a.toNat < b.toNat)) = if a.ult b then 1 else 0 := rfl

/-- Bits 127:64 of a 128-bit word, over its integer. -/
theorem highHalf_ofInt (z : Int) : (BitVec.ofInt 128 z).extractLsb' 64 64 = BitVec.ofInt 64 (z / 2 ^ 64) := by
  apply BitVec.eq_of_toNat_eq
  rw [BitVec.extractLsb'_toNat, BitVec.toNat_ofInt, BitVec.toNat_ofInt, Nat.shiftRight_eq_div_pow]
  omega

theorem mulhS_eq (a b : Word) : mulhS a b = (a.signExtend 128 * b.signExtend 128).extractLsb' 64 64 := by
  have product : a.signExtend 128 * b.signExtend 128 = BitVec.ofInt 128 (a.toInt * b.toInt) := by
    rw [BitVec.ofInt_mul]
    rfl
  rw [product, highHalf_ofInt, mulhS]

theorem mulhU_eq (a b : Word) : mulhU a b = (a.zeroExtend 128 * b.zeroExtend 128).extractLsb' 64 64 := by
  apply BitVec.eq_of_toNat_eq
  have small : a.toNat * b.toNat < 2 ^ 128 :=
    calc a.toNat * b.toNat < 2 ^ 64 * 2 ^ 64 := Nat.mul_lt_mul'' a.isLt b.isLt
      _ = 2 ^ 128 := by norm_num
  have wide (w : Word) : (w.zeroExtend 128).toNat = w.toNat := BitVec.toNat_setWidth_of_le (by decide)
  rw [BitVec.extractLsb'_toNat, BitVec.toNat_mul, wide, wide, Nat.mod_eq_of_lt small, Nat.shiftRight_eq_div_pow, mulhU, BitVec.toNat_ofNat]

/-- A zero divisor, as R94 asks for it and as the element operations do. -/
theorem divisor_zero_iff (b : Word) : b.toNat % 2 ^ 64 = 0 ↔ b = 0 := by
  rw [Nat.mod_eq_of_lt b.isLt, ← BitVec.toNat_inj]
  rfl

theorem div64_signed (a b : Word) : div64 true a b = if b = 0 then BitVec.allOnes 64 else a.sdiv b := by
  unfold div64 divI
  simp only [divisor_zero_iff]
  split
  · rfl
  · rw [ofNat_wrapI, intVal_word, intVal_word]
    apply BitVec.eq_of_toInt_eq
    rw [BitVec.toInt_ofInt, BitVec.toInt_sdiv]

theorem rem64_signed (a b : Word) : rem64 true a b = if b = 0 then a else a.srem b := by
  unfold rem64 remI
  simp only [divisor_zero_iff]
  split
  · rw [Nat.mod_eq_of_lt a.isLt, BitVec.ofNat_toNat, BitVec.setWidth_eq]
  · rw [ofNat_wrapI, intVal_word, intVal_word, ← BitVec.toInt_srem, BitVec.ofInt_toInt]

/-- An unsigned element of 64 bits is the natural number of its word. -/
theorem intVal_unsigned (a : Word) : intVal false 64 a.toNat = (a.toNat : Int) := by
  rw [intVal, if_neg Bool.false_ne_true, Nat.mod_eq_of_lt a.isLt]

theorem div64_unsigned (a b : Word) : div64 false a b = if b = 0 then BitVec.allOnes 64 else a / b := by
  unfold div64 divI
  simp only [divisor_zero_iff]
  split
  · rfl
  · rw [ofNat_wrapI, intVal_unsigned, intVal_unsigned, ← Int.ofNat_tdiv, BitVec.ofInt_natCast]
    apply BitVec.eq_of_toNat_eq
    rw [BitVec.toNat_udiv, BitVec.toNat_ofNat, Nat.mod_eq_of_lt (Nat.lt_of_le_of_lt (Nat.div_le_self ..) a.isLt)]

theorem rem64_unsigned (a b : Word) : rem64 false a b = if b = 0 then a else a % b := by
  unfold rem64 remI
  simp only [divisor_zero_iff]
  split
  · rw [Nat.mod_eq_of_lt a.isLt, BitVec.ofNat_toNat, BitVec.setWidth_eq]
  · rw [ofNat_wrapI, intVal_unsigned, intVal_unsigned, ← Int.ofNat_tmod, BitVec.ofInt_natCast]
    apply BitVec.eq_of_toNat_eq
    rw [BitVec.toNat_umod, BitVec.toNat_ofNat, Nat.mod_eq_of_lt (Nat.lt_of_le_of_lt (Nat.mod_le ..) a.isLt)]

/-! ### Minimum and maximum (R94) -/

/-- Which of two values a comparison picks does not depend on how it treats equality, where equal keys give one value. -/
theorem ite_le_eq_ite_lt {α β : Type} [LinearOrder α] {m n : α} {x y : β} (same : m = n → x = y) :
    (if m ≤ n then x else y) = if m < n then x else y := by
  obtain lt | eq | gt := lt_trichotomy m n
  · rw [if_pos lt.le, if_pos lt]
  · rw [same eq, ite_self, ite_self]
  · rw [if_neg gt.not_ge, if_neg gt.not_gt]

theorem minS_eq (a b : Word) : minS a b = if a.slt b then a else b := by
  simp only [minS, BitVec.slt_iff_toInt_lt]
  exact ite_le_eq_ite_lt BitVec.eq_of_toInt_eq

theorem maxS_eq (a b : Word) : maxS a b = if a.slt b then b else a := by
  simp only [maxS, BitVec.slt_iff_toInt_lt]
  exact ite_le_eq_ite_lt fun h => (BitVec.eq_of_toInt_eq h).symm

theorem minU_eq (a b : Word) : minU a b = if a.ult b then a else b := by
  simp only [minU, BitVec.ult_iff_toNat_lt]
  exact ite_le_eq_ite_lt BitVec.eq_of_toNat_eq

theorem maxU_eq (a b : Word) : maxU a b = if a.ult b then b else a := by
  simp only [maxU, BitVec.ult_iff_toNat_lt]
  exact ite_le_eq_ite_lt fun h => (BitVec.eq_of_toNat_eq h).symm

/-! ### Counting bits -/

/-- The first index below `n + 1` is 0, or one more than the first of the rest. -/
theorem firstBelow_succ (p : Nat → Bool) (n : Nat) : ((List.range (n + 1)).find? p).getD (n + 1) =
    if p 0 then 0 else ((List.range n).find? fun k => p (k + 1)).getD n + 1 := by
  rw [List.range_succ_eq_map, List.find?_cons]
  cases p 0 with
  | true => rfl
  | false =>
    rw [List.find?_map]
    show (Option.map _ ((List.range n).find? fun k => p (k + 1))).getD _ = _
    cases (List.range n).find? fun k => p (k + 1) <;> rfl

theorem clzFrom_eq (w : Word) (n : Nat) : clzFrom w n = ((List.range n).find? fun k => w.getLsbD (n - 1 - k)).getD n := by
  induction n with
  | zero => rfl
  | succ n ih =>
    rw [firstBelow_succ, clzFrom, ih]
    simp only [Nat.add_sub_cancel, Nat.sub_zero, Nat.sub_sub, Nat.add_comm 1]

theorem ctzFrom_eq (w : Word) (n : Nat) (i : Nat) : ctzFrom w n i = ((List.range n).find? fun k => w.getLsbD (i + k)).getD n := by
  induction n generalizing i with
  | zero => rfl
  | succ n ih =>
    rw [firstBelow_succ, ctzFrom, ih]
    simp only [Nat.add_zero, Nat.add_assoc, Nat.add_comm 1]

theorem popFrom_eq (w : Word) (n : Nat) : popFrom w n = ((List.range n).filter fun k => w.getLsbD k).length := by
  induction n with
  | zero => rfl
  | succ n ih =>
    rw [popFrom, ih, List.range_succ, List.filter_append, List.length_append]
    cases bit : w.getLsbD n <;> simp [bit]

/-! ### Upper immediates (R96) -/

theorem upper_eq (imm : BitVec 19) : upper imm = (imm ++ (0 : BitVec 12)).signExtend 64 := by
  apply BitVec.eq_of_getLsbD_eq
  intro i hi
  simp only [upper, BitVec.getLsbD_shiftLeft, BitVec.getLsbD_signExtend, BitVec.getLsbD_append, BitVec.msb_append]
  by_cases low : i < 12
  · simp [low, hi]
    omega
  · have shift : i - 12 < 19 ↔ i < 31 := by omega
    simp [low, hi, shift]
    omega

/-! ### Literals (R97) -/

theorem floorLog2_whole {num : Nat} (pos : num ≠ 0) (neg : Bool) (e : Int) : floorLog2 ⟨neg, num, 1, e⟩ = Nat.log2 num + e := by
  have le : 2 ^ Nat.log2 num ≤ num := Nat.log2_self_le pos
  have one : Nat.log2 1 = 0 := rfl
  simp [floorLog2, one, le]

theorem roundQ_whole (rm : Nat) (neg : Bool) (n : Nat) : roundQ rm neg n 1 = (n, false) := by
  simp [roundQ, Nat.mod_one]

/-- In quanta no larger than its own a whole number stays whole. -/
theorem scaled_whole {q e : Int} (h : q ≤ e) (neg : Bool) (num : Nat) : scaled ⟨neg, num, 1, e⟩ q = (num * 2 ^ (e - q).toNat, 1) :=
  if_pos h

/-- A value that is whole in quanta of its FP32 result is not changed by rounding (R73). -/
theorem roundFp_exact {num : Nat} {e q : Int} (pos : num ≠ 0) (bits : Nat.log2 num ≤ 23) (quantum : q = max (Nat.log2 num + e - 23) (-149))
    (whole : q ≤ e) (small : (q + 149).toNat * 2 ^ 23 + num * 2 ^ (e - q).toNat ≤ 0x7F7FFFFF) (rm : Nat) (neg : Bool) :
    (roundFp .fp32 rm false ⟨neg, num, 1, e⟩).1 = signed .fp32 neg ((q + 149).toNat * 2 ^ 23 + num * 2 ^ (e - q).toNat) := by
  have qu : floorLog2 ⟨neg, num, 1, e⟩ - (((Cls.fp32.fmt.fb + 1 : Nat) : Int) - 1) = Nat.log2 num + e - 23 := by
    rw [floorLog2_whole pos]
    rfl
  have qmin : (1 - (Cls.fp32.fmt.bias : Int)) - Cls.fp32.fmt.fb = -149 := rfl
  have lift : Cls.fp32.fmt.fb + 1 - (Cls.fp32.fmt.fb + 1) = 0 := rfl
  have code : (if q ≤ -149 then num * 2 ^ (e - q).toNat * 2 ^ (q - -149).toNat
      else (q - -149).toNat * 2 ^ 23 + num * 2 ^ (e - q).toNat) = (q + 149).toNat * 2 ^ 23 + num * 2 ^ (e - q).toNat := by
    by_cases h : q ≤ -149
    · have : q = -149 := by omega
      subst this
      simp
    · rw [if_neg h, Int.sub_neg]
  have whole' : (Nat.log2 num : Int) + e - 23 ≤ e := by omega
  unfold roundFp roundFpP
  rw [if_neg pos]
  dsimp only
  rw [qu, qmin, lift, ← quantum, scaled_whole whole', scaled_whole whole, roundQ_whole, roundQ_whole]
  dsimp only
  rw [show Cls.fp32.fmt.fb = 23 from rfl, show Cls.fp32.maxCode = 0x7F7FFFFF from rfl]
  simp only [Nat.cast_zero, Int.sub_zero, Nat.pow_zero, Nat.mul_one, code]
  rw [if_neg (Nat.not_lt.mpr small)]

theorem roundFp_zero (rm : Nat) (neg : Bool) (e : Int) : (roundFp .fp32 rm false ⟨neg, 0, 1, e⟩).1 = signed .fp32 neg 0 := rfl

/-- A value of at most 24 bits in FP32's normal range keeps its bits; the leading one is not stored (R68, R73). -/
theorem roundFp_normal {num : Nat} {e : Int} (pos : num ≠ 0) (bits : Nat.log2 num ≤ 23) (low : -126 ≤ Nat.log2 num + e)
    (high : Nat.log2 num + e ≤ 127) (rm : Nat) (neg : Bool) : (roundFp .fp32 rm false ⟨neg, num, 1, e⟩).1 =
      signed .fp32 neg ((Nat.log2 num + e + 127).toNat * 2 ^ 23 + (num - 2 ^ Nat.log2 num) * 2 ^ (23 - Nat.log2 num)) := by
  have top : 2 ^ Nat.log2 num * 2 ^ (23 - Nat.log2 num) = 2 ^ 23 := by rw [← Nat.pow_add, Nat.add_sub_cancel' bits]
  have leading : 2 ^ Nat.log2 num ≤ num := Nat.log2_self_le pos
  have split : num * 2 ^ (23 - Nat.log2 num) = 2 ^ 23 + (num - 2 ^ Nat.log2 num) * 2 ^ (23 - Nat.log2 num) := by
    rw [← top, ← Nat.add_mul, Nat.add_sub_cancel' leading]
  have below : (num - 2 ^ Nat.log2 num) * 2 ^ (23 - Nat.log2 num) < 2 ^ 23 := by
    rw [← top]
    have : num < 2 ^ (Nat.log2 num + 1) := Nat.lt_log2_self
    exact Nat.mul_lt_mul_of_pos_right (by rw [Nat.pow_succ] at this; omega) (Nat.two_pow_pos _)
  have shift : (e - (Nat.log2 num + e - 23)).toNat = 23 - Nat.log2 num := by omega
  have same : ((Nat.log2 num : Int) + e - 23 + 149).toNat * 2 ^ 23 + num * 2 ^ (23 - Nat.log2 num) =
      (Nat.log2 num + e + 127).toNat * 2 ^ 23 + (num - 2 ^ Nat.log2 num) * 2 ^ (23 - Nat.log2 num) := by
    rw [split]
    omega
  rw [roundFp_exact pos bits (q := Nat.log2 num + e - 23) (by omega) (by omega), shift, same]
  rw [shift, same]
  omega

/-- Below the normal range a value keeps its bits where they are whole in the smallest quantum (R68, R73). -/
theorem roundFp_subnormal {num : Nat} {e : Int} (pos : num ≠ 0) (low : Nat.log2 num + e < -126) (fits : -149 ≤ e) (rm : Nat) (neg : Bool) :
    (roundFp .fp32 rm false ⟨neg, num, 1, e⟩).1 = signed .fp32 neg (num * 2 ^ (e + 149).toNat) := by
  rw [roundFp_exact pos (by omega) (q := -149) (by omega) fits, Int.sub_neg]
  · simp
  · have : num < 2 ^ (Nat.log2 num + 1) := Nat.lt_log2_self
    have : num * 2 ^ (e + 149).toNat < 2 ^ 23 :=
      calc num * 2 ^ (e + 149).toNat < 2 ^ (Nat.log2 num + 1) * 2 ^ (e + 149).toNat := Nat.mul_lt_mul_of_pos_right this (Nat.two_pow_pos _)
        _ = 2 ^ (Nat.log2 num + 1 + (e + 149).toNat) := (Nat.pow_add ..).symm
        _ ≤ 2 ^ 23 := Nat.pow_le_pow_right (by decide) (by omega)
    rw [Int.sub_neg]
    omega

theorem log2_of_mem {n k : Nat} (low : 2 ^ k ≤ n) (high : n < 2 ^ (k + 1)) : Nat.log2 n = k :=
  (Nat.log2_eq_iff (Nat.ne_of_gt (Nat.lt_of_lt_of_le (Nat.two_pow_pos k) low))).mpr ⟨low, high⟩

/-- The sign of a 16-bit code on its FP32 value. -/
theorem signed_literal {imm : Nat} (word : imm < 65536) (mag : Nat) : signed .fp32 (bitOf imm 15) mag = imm / 32768 * 2 ^ 31 + mag := by
  have top : (bitOf imm 15 = true) ↔ imm / 32768 = 1 := by
    rw [bitOf, beq_iff_eq]
    omega
  rw [signed, show Cls.fp32.fmt.eb + Cls.fp32.fmt.fb = 31 from rfl]
  simp only [top]
  split <;> omega

section
variable (imm : Nat)

/-- The values of the FP16 codes, class by class (R68). -/
theorem fpVal_fp16 : fpVal .fp16 imm =
    if imm / 1024 % 32 = 31 then
      if imm % 1024 = 0 then .inf (bitOf imm 15) else .nan (decide (imm % 1024 < 512))
    else if imm / 1024 % 32 = 0 then .fin ⟨bitOf imm 15, imm % 1024, 1, -24⟩
    else .fin ⟨bitOf imm 15, 1024 + imm % 1024, 1, (imm / 1024 % 32 : Nat) - 25⟩ := by
  have e (x : Int) : x - 15 - 10 = x - 25 := by omega
  simp [fpVal, Cls.fmt, field, e]

theorem fpVal_bf16 : fpVal .bf16 imm =
    if imm / 128 % 256 = 255 then
      if imm % 128 = 0 then .inf (bitOf imm 15) else .nan (decide (imm % 128 < 64))
    else if imm / 128 % 256 = 0 then .fin ⟨bitOf imm 15, imm % 128, 1, -133⟩
    else .fin ⟨bitOf imm 15, 128 + imm % 128, 1, (imm / 128 % 256 : Nat) - 134⟩ := by
  have e (x : Int) : x - 127 - 7 = x - 134 := by omega
  simp [fpVal, Cls.fmt, field, e]

end

/-- A NaN becomes quiet and keeps its payload (R75). -/
theorem cvtFpFp_nan {s : Cls} (half : s = .fp16 ∨ s = .bf16) {imm : Nat} {sn : Bool} (nan : fpVal s imm = .nan sn) (frm : Nat) (sat : Bool) :
    (cvtFpFp s .fp32 frm sat imm).1 = signed .fp32 (bitOf imm 15) (0x7F800000 +
      let fr := imm % 2 ^ s.fmt.fb * 2 ^ (23 - s.fmt.fb)
      if fr / 2 ^ 22 % 2 = 1 then fr else fr + 2 ^ 22) := by
  simp [cvtFpFp, nan, half, field, bitOf]

theorem cvtFpFp_fin {s : Cls} {imm : Nat} {x : Exact} (fin : fpVal s imm = .fin x) (frm : Nat) :
    (cvtFpFp s .fp32 frm false imm).1 = (roundFp .fp32 frm false x).1 := by
  simp [cvtFpFp, fin, rmFor, Cls.isNarrow]

theorem cvtFpFp_inf {s : Cls} {imm : Nat} {neg : Bool} (inf : fpVal s imm = .inf neg) (frm : Nat) (sat : Bool) :
    (cvtFpFp s .fp32 frm sat imm).1 = signed .fp32 neg 0x7F800000 := by
  simp [cvtFpFp, inf, infOf, Cls.fmt, Cls.infCode]

theorem literal_fp16 {imm : Nat} (word : imm < 65536) : (cvtFpFp .fp16 .fp32 0 false imm).1 = literalFp32 .fp16 imm := by
  have val := fpVal_fp16 imm
  have fr : imm % 1024 < 1024 := Nat.mod_lt _ (by decide)
  dsimp only [literalFp32]
  by_cases top : imm / 1024 % 32 = 31
  · rw [if_pos top] at val ⊢
    by_cases zero : imm % 1024 = 0
    · rw [if_pos zero] at val
      rw [cvtFpFp_inf val, signed_literal word, if_neg (fun h => h.1 zero)]
      omega
    · rw [if_neg zero] at val
      rw [cvtFpFp_nan (.inl rfl) val, signed_literal word]
      dsimp only [Cls.fmt]
      split <;> split <;> omega
  · rw [if_neg top] at val ⊢
    by_cases low : imm / 1024 % 32 = 0
    · rw [if_pos low] at val ⊢
      rw [cvtFpFp_fin val]
      by_cases zero : imm % 1024 = 0
      · rw [if_pos zero, zero, roundFp_zero, signed_literal word, Nat.add_zero]
      · have bits : Nat.log2 (imm % 1024) < 10 := (Nat.log2_lt zero).mpr fr
        rw [if_neg zero, roundFp_normal zero (by omega) (by omega) (by omega), signed_literal word, ← Nat.add_assoc]
        congr 3
        omega
    · rw [if_neg low] at val ⊢
      have bits : Nat.log2 (1024 + imm % 1024) = 10 := log2_of_mem (by omega) (by omega)
      rw [cvtFpFp_fin val, roundFp_normal (by omega) (by omega) (by omega) (by omega), signed_literal word, bits]
      omega

theorem literal_bf16 {imm : Nat} (word : imm < 65536) : (cvtFpFp .bf16 .fp32 0 false imm).1 = literalFp32 .bf16 imm := by
  have val := fpVal_bf16 imm
  have fr : imm % 128 < 128 := Nat.mod_lt _ (by decide)
  dsimp only [literalFp32]
  by_cases top : imm / 128 % 256 = 255
  · rw [if_pos top] at val
    by_cases zero : imm % 128 = 0
    · rw [if_pos zero] at val
      rw [cvtFpFp_inf val, signed_literal word, if_neg (fun h => h.2.1 zero)]
      omega
    · rw [if_neg zero] at val
      rw [cvtFpFp_nan (.inr rfl) val, signed_literal word]
      dsimp only [Cls.fmt]
      split <;> split <;> omega
  · rw [if_neg top] at val
    rw [if_neg (fun h => top h.1), Nat.add_zero]
    by_cases low : imm / 128 % 256 = 0
    · rw [if_pos low] at val
      rw [cvtFpFp_fin val]
      by_cases zero : imm % 128 = 0
      · rw [zero, roundFp_zero, signed_literal word]
        omega
      · have bits : Nat.log2 (imm % 128) < 7 := (Nat.log2_lt zero).mpr fr
        rw [roundFp_subnormal zero (by omega) (by decide), signed_literal word, show ((-133 : Int) + 149).toNat = 16 from rfl]
        omega
    · rw [if_neg low] at val
      have bits : Nat.log2 (128 + imm % 128) = 7 := log2_of_mem (by omega) (by omega)
      rw [cvtFpFp_fin val, roundFp_normal (by omega) (by omega) (by omega) (by omega), signed_literal word, bits]
      omega

theorem flimmValue_half {k : FlimmKind} (half : k ≠ .i16) (imm : BitVec 16) :
    flimmValue k imm = BitVec.ofNat 64 (literalFp32 k imm.toNat) := by
  cases k with
  | fp16 => exact congrArg (BitVec.ofNat 64) (literal_fp16 imm.isLt)
  | bf16 => exact congrArg (BitVec.ofNat 64) (literal_bf16 imm.isLt)
  | i16 => exact absurd rfl half

/-! ### The forms (R94 to R97) -/

theorem retire_congr {w w' : Word} (same : w = w') (s : State) (d : Fld) :
    (Host.Outcome.next (s.retire d w) : Out) = .next (s.retire d w') := by
  rw [same]

/-- Every form of R94 to R97 retires with the value of its rule. -/
theorem exec_scalarValue {i : Instr} {s : State} {d : Fld} {w : Word} (h : scalarValue i s.vlc = some (d, w)) :
    exec i s = .next (s.retire d w) := by
  unfold scalarValue at h
  dsimp only at h
  split at h <;> cases h
  -- add, sub, and, or, xor
  case h_1 | h_2 | h_3 | h_4 | h_5 => rfl
  -- shl, shr, sar
  case h_6 => exact retire_congr (congrArg (_ <<< ·) (shiftAmount _)) s d
  case h_7 => exact retire_congr (congrArg (_ >>> ·) (shiftAmount _)) s d
  case h_8 => exact retire_congr (congrArg (BitVec.sshiftRight _) (shiftAmount _)) s d
  -- cmplt, cmpltn
  case h_9 => exact retire_congr (flag64_lt ..) s d
  case h_10 => exact retire_congr (flag64_below ..) s d
  -- mul, mulh, mulhn
  case h_11 => rfl
  case h_12 => exact retire_congr (mulhS_eq ..) s d
  case h_13 => exact retire_congr (mulhU_eq ..) s d
  -- div, divn, rem, remn
  case h_14 => exact retire_congr (div64_signed ..) s d
  case h_15 => exact retire_congr (div64_unsigned ..) s d
  case h_16 => exact retire_congr (rem64_signed ..) s d
  case h_17 => exact retire_congr (rem64_unsigned ..) s d
  -- min, max, minn, maxn
  case h_18 => exact retire_congr (minS_eq ..) s d
  case h_19 => exact retire_congr (maxS_eq ..) s d
  case h_20 => exact retire_congr (minU_eq ..) s d
  case h_21 => exact retire_congr (maxU_eq ..) s d
  -- clz, ctz, popc
  case h_22 => exact retire_congr (congrArg _ (clzFrom_eq ..)) s d
  case h_23 => exact retire_congr (congrArg _ (by simp only [ctzFrom_eq, Nat.zero_add])) s d
  case h_24 => exact retire_congr (congrArg _ (popFrom_eq ..)) s d
  -- addi, andi, ori, xori
  case h_25 | h_26 | h_27 | h_28 => rfl
  -- cmplti
  case h_29 => exact retire_congr (flag64_lt ..) s d
  -- shli, shri, sari
  case h_30 | h_31 | h_32 => rfl
  -- lui, auipc
  case h_33 => exact retire_congr (upper_eq ..) s d
  case h_34 => exact retire_congr (congrArg _ (upper_eq ..)) s d
  -- flimm
  case h_35 => rfl
  case h_36 half => exact retire_congr (flimmValue_half half _) s d

/-- Settles O11, form by form: `exec_scalarValue`. -/
theorem scalarResult : Obligations.ScalarResult := by
  unfold Obligations.ScalarResult
  intro i s d w h
  exact exec_scalarValue h

end Sys2Proof.Machine

/-! ## Machine family: bit fields of a number -/

namespace Sys2Proof.Machine

/-- A bit field of a word that is given as a number. -/
theorem extractLsb'_ofNat_of_div {w n lo len x : Nat} (fits : lo + len ≤ w) (value : n / 2 ^ lo % 2 ^ len = x % 2 ^ len) :
    (BitVec.ofNat w n).extractLsb' lo len = BitVec.ofNat len x := by
  apply BitVec.eq_of_getLsbD_eq
  intro i hi
  have bit := congrArg (Nat.testBit · i) value
  simp only [Nat.testBit_mod_two_pow, Nat.testBit_div_two_pow, hi, decide_true, Bool.true_and] at bit
  simp only [BitVec.getLsbD_extractLsb', BitVec.getLsbD_ofNat, hi, decide_true, Bool.true_and, show lo + i < w by omega, ← bit]
  rw [Nat.add_comm]

/-- A bit field of one bit is a flag. -/
theorem getLsbD_of_extractLsb' {w i : Nat} {x : BitVec w} {b : Bool} (h : x.extractLsb' i 1 = BitVec.ofNat 1 b.toNat) : x.getLsbD i = b := by
  have bit := congrArg (BitVec.getLsbD · 0) h
  cases b <;> simpa using bit

section
variable {w a b k lo len : Nat} (low : a < 2 ^ k)
include low

/-- A bit field of the low part of a number. -/
theorem extractLsb'_ofNat_low (inside : lo + len ≤ k) :
    (BitVec.ofNat w (a + b * 2 ^ k)).extractLsb' lo len = (BitVec.ofNat w a).extractLsb' lo len := by
  apply BitVec.eq_of_getLsbD_eq
  intro i hi
  rw [Nat.add_comm a, Nat.mul_comm b]
  simp only [BitVec.getLsbD_extractLsb', BitVec.getLsbD_ofNat, Nat.testBit_two_pow_mul_add b low, show lo + i < k by omega, if_true]

/-- A bit field of the part of a number above its low bits. -/
theorem extractLsb'_ofNat_high (fits : k + lo + len ≤ w) :
    (BitVec.ofNat w (a + b * 2 ^ k)).extractLsb' (k + lo) len = (BitVec.ofNat w b).extractLsb' lo len := by
  apply BitVec.eq_of_getLsbD_eq
  intro i hi
  have above : ¬ k + (lo + i) < k := by omega
  have inside : k + (lo + i) < w ∧ lo + i < w := by omega
  rw [Nat.add_comm a, Nat.mul_comm b]
  simp only [BitVec.getLsbD_extractLsb', BitVec.getLsbD_ofNat, Nat.testBit_two_pow_mul_add b low, Nat.add_assoc, above, inside, if_false,
    Nat.add_sub_cancel_left]

/-- A bit field above the bits of a number. -/
theorem extractLsb'_ofNat_of_lt (above : k ≤ lo) : (BitVec.ofNat w a).extractLsb' lo len = 0#len := by
  apply BitVec.eq_of_getLsbD_eq
  intro i hi
  have out : a.testBit (lo + i) = false := Nat.testBit_lt_two_pow (Nat.lt_of_lt_of_le low (Nat.pow_le_pow_right (by decide) (by omega)))
  rw [BitVec.getLsbD_extractLsb', BitVec.getLsbD_ofNat, out, Bool.and_false, Bool.and_false, BitVec.getLsbD_zero]

end

end Sys2Proof.Machine

/-! ## Machine family: branches and jumps -/

namespace Sys2Proof.Machine

/-- A stop of the scalar unit with no entry to wait for takes its fault at the pc. -/
theorem scalarStop_faults {s : State} (ready : s.vlc.vq = [] ∨ s.vlc.inHandler = true) (t : Trap) :
    scalarStop s t = .next (takeFault s ⟨t.code, false, t.va.setWidth 56, s.vlc.pc, t.info⟩) := by
  obtain ⟨queued, out, -⟩ | ⟨-, stop⟩ := scalarStop_cases s t
  · rcases ready with empty | inside
    · exact absurd empty queued
    · exact absurd inside (by simp [out])
  · rw [stop, scalarFault, BitVec.ofNat_toNat]

/-- Where a branch that is taken or not goes on (R98). -/
def branchTo (s : State) (imm : BitVec 12) (taken : Bool) : Out :=
  .next { s with vlc := s.vlc.goto (if taken then s.vlc.pc + imm.signExtend 64 * 4 else s.vlc.pc + 4) }

theorem branch_eq (c : Word → Word → Bool) (a b : Fld) (imm : BitVec 12) (s : State) :
    branch c a b imm s = branchTo s imm (c (s.vlc.rx a) (s.vlc.rx b)) := by
  unfold branch branchTo
  split <;> rfl

/-- Not less is greater or equal. -/
theorem decide_le_eq_not_slt (a b : Word) : decide (b.toInt ≤ a.toInt) = !a.slt b := by
  rw [BitVec.slt_eq_decide, ← decide_not]
  simp only [Int.not_lt]

theorem decide_le_eq_not_ult (a b : Word) : decide (b.toNat ≤ a.toNat) = !a.ult b := by
  rw [BitVec.ult_eq_decide, ← decide_not]
  simp only [Nat.not_lt]

/-- Every branch of R98 goes by its condition. -/
theorem exec_branchOf {i : Instr} {s : State} {taken : Bool} {imm : BitVec 12} (h : branchOf i s.vlc = some (taken, imm)) :
    exec i s = branchTo s imm taken := by
  unfold branchOf at h
  dsimp only at h
  split at h <;> cases h
  -- beq, bne
  case h_1 => exact (branch_eq ..).trans (congrArg _ (beq_eq_decide ..))
  case h_2 => exact (branch_eq ..).trans (congrArg _ (by rw [bne, beq_eq_decide, decide_not]))
  -- blt, bge
  case h_3 => exact branch_eq BitVec.slt ..
  case h_4 => exact (branch_eq (fun x y => decide (y.toInt ≤ x.toInt)) ..).trans (congrArg _ (decide_le_eq_not_slt ..))
  -- bltn, bgen
  case h_5 => exact branch_eq BitVec.ult ..
  case h_6 => exact (branch_eq (fun x y => decide (y.toNat ≤ x.toNat)) ..).trans (congrArg _ (decide_le_eq_not_ult ..))

theorem low2_eq_zero_iff (w : Word) : w.extractLsb' 0 2 = 0 ↔ w.toNat % 4 = 0 := by
  rw [← BitVec.toNat_inj, BitVec.extractLsb'_toNat]
  rfl

theorem exec_jalr_aligned {d a : Fld} {imm : BitVec 12} {s : State} (al : (s.vlc.rx a + imm.signExtend 64 * 4).extractLsb' 0 2 = 0) :
    exec (.jalr d a imm) s = .next { s with vlc := (s.vlc.wx d (s.vlc.pc + 4)).goto (s.vlc.rx a + imm.signExtend 64 * 4) } :=
  if_neg (not_not.mpr ((low2_eq_zero_iff _).mp al))

theorem exec_jalr_misaligned {d a : Fld} {imm : BitVec 12} {s : State} (mis : (s.vlc.rx a + imm.signExtend 64 * 4).extractLsb' 0 2 ≠ 0) :
    exec (.jalr d a imm) s = scalarStop s (trapAt fcALIGN (s.vlc.rx a + imm.signExtend 64 * 4) 0) :=
  if_pos (mt (low2_eq_zero_iff _).mpr mis)

/-- Settles O13: the branches by `exec_branchOf`, `jalr` by the two low bits of its target. -/
theorem branchesAndJumps : Obligations.BranchesAndJumps := by
  unfold Obligations.BranchesAndJumps
  refine ⟨fun i s taken imm => exec_branchOf, fun imm s => rfl, fun d a imm s => exec_jalr_aligned, fun d a imm s mis ready => ?_⟩
  rw [exec_jalr_misaligned mis, scalarStop_faults ready]
  rfl

end Sys2Proof.Machine

/-! ## Machine family: what each control register reads -/

namespace Sys2Proof.Machine

/-- A half of a seed register (R106). -/
theorem seedHalf (w : BitVec 128) (k : Nat) : BitVec.ofNat 64 (field w.toNat k 64) = w.extractLsb' k 64 := by
  apply BitVec.eq_of_toNat_eq
  rw [field, BitVec.toNat_ofNat, BitVec.extractLsb'_toNat, Nat.mod_mod, Nat.shiftRight_eq_div_pow]

theorem ctlGet_seed (s : State) (n : Fin 8) {h k : Nat} (number : k = 0x20 + 2 * n.val + h) (half : h < 2) :
    ctlGet s k = s.gang.ss[n].extractLsb' (64 * h) 64 := by
  have inside : 0x20 ≤ k ∧ k ≤ 0x2F := by omega
  have index : (k - 0x20) / 2 = n.val := by omega
  have low : k % 2 = h := by omega
  simp only [ctlGet, if_pos inside, index, low, seedHalf]
  simp

theorem ctlGet_seedVersion (s : State) (n : Fin 8) : ctlGet s (0x30 + n.val) = s.gang.ssv[n].setWidth 64 := by
  have behind : ¬ (0x20 ≤ 0x30 + n.val ∧ 0x30 + n.val ≤ 0x2F) := by omega
  have inside : 0x30 ≤ 0x30 + n.val ∧ 0x30 + n.val ≤ 0x37 := by omega
  simp only [ctlGet, if_neg behind, if_pos inside, Nat.add_sub_cancel_left, BitVec.ofNat_toNat]
  simp

theorem ctlGet_counter (s : State) {n : Nat} (low : 0x100 ≤ n) (high : n < 0x200) : ctlGet s n = BitVec.ofNat 64 (perfRead s n) := by
  have seed : ¬ (0x20 ≤ n ∧ n ≤ 0x2F) := by omega
  have version : ¬ (0x30 ≤ n ∧ n ≤ 0x37) := by omega
  simp only [ctlGet, if_neg seed, if_neg version, if_pos (And.intro low high)]

theorem perfRead_unassigned (s : State) {n : Nat} (h : 0x10C ≤ n) : perfRead s n = 0 := by
  unfold perfRead
  dsimp only
  split <;> omega

/-- The value of HANDLER: PC above a zero bit and EN (R109). -/
theorem handlerWord (p : BitVec 54) (en : Bool) :
    BitVec.ofNat 64 (4 * p.toNat + if en then 1 else 0) = (p ++ 0#1 ++ BitVec.ofBool en).setWidth 64 := by
  apply BitVec.eq_of_toNat_eq
  have := p.isLt
  have flag : (BitVec.ofBool en).toNat = if en then 1 else 0 := by cases en <;> rfl
  have bit : (if en then 1 else 0 : Nat) < 2 := by cases en <;> decide
  rw [BitVec.toNat_setWidth, BitVec.toNat_append, BitVec.toNat_append, flag, ← Nat.shiftLeft_add_eq_or_of_lt bit,
    ← Nat.shiftLeft_add_eq_or_of_lt (by decide), BitVec.toNat_ofNat]
  simp only [Nat.shiftLeft_eq, BitVec.toNat_ofNat]
  omega

/-! ### VTYPE (R102) -/

theorem clsNum_lt (c : Cls) : clsNum c < 16 := by cases c <;> decide

theorem ewNum_lt (e : Ew) : ewNum e < 8 := by cases e <;> decide

/-- The code of a tail policy. -/
def tailCode : Tail → Nat
  | .undisturbed => 0
  | .agnostic => 1
  | .dead => 2

theorem tailCode_lt (p : Tail) : tailCode p < 4 := by cases p <;> decide

theorem Vtype.word_eq (t : Vtype) : t.word = BitVec.ofNat 64 (clsNum t.cls + t.mz.toNat * 16 + tailCode t.tp * 32 + t.grp.val * 128 +
    ewNum t.sew * 512 + ewNum t.mew * 4096) := by
  obtain ⟨_, _, _, tp, mz, _⟩ := t
  cases tp <;> cases mz <;> rfl

/-- The fields of VTYPE, as R102 places them. -/
theorem Vtype.word_fields (t : Vtype) :
    t.word.extractLsb' 0 4 = BitVec.ofNat 4 (clsNum t.cls) ∧ t.word.extractLsb' 4 1 = BitVec.ofNat 1 t.mz.toNat ∧
    t.word.extractLsb' 5 2 = BitVec.ofNat 2 (tailCode t.tp) ∧ t.word.extractLsb' 7 2 = BitVec.ofNat 2 t.grp.val ∧
    t.word.extractLsb' 9 3 = BitVec.ofNat 3 (ewNum t.sew) ∧ t.word.extractLsb' 12 3 = BitVec.ofNat 3 (ewNum t.mew) ∧
    t.word.extractLsb' 15 49 = BitVec.ofNat 49 0 := by
  have cls := clsNum_lt t.cls
  have mz := Bool.toNat_lt t.mz
  have tp := tailCode_lt t.tp
  have grp := t.grp.isLt
  have sew := ewNum_lt t.sew
  have mew := ewNum_lt t.mew
  rw [Vtype.word_eq]
  refine ⟨?_, ?_, ?_, ?_, ?_, ?_, ?_⟩ <;> exact extractLsb'_ofNat_of_div (by decide) (by omega)

/-- Settles O25, register by register; VTYPE by its fields. -/
theorem ctlReadMap : Obligations.CtlReadMap := by
  unfold Obligations.CtlReadMap
  intro s
  obtain ⟨cls, mz, tp, grp, sew, mew, rest⟩ := s.vlc.vt.word_fields
  refine ⟨rfl, BitVec.ofNat_toNat .., rfl, rfl, BitVec.ofNat_toNat .., cls, grp, sew, mew, getLsbD_of_extractLsb' mz, rest, ?_, rfl, rfl, rfl,
    rfl, rfl, rfl, BitVec.ofNat_toNat .., BitVec.ofNat_toNat .., BitVec.ofNat_toNat .., fun n => ⟨ctlGet_seed s n (h := 0) (by omega) (by decide),
      ctlGet_seed s n (h := 1) (by omega) (by decide), ctlGet_seedVersion s n⟩, BitVec.ofNat_toNat .., BitVec.ofNat_toNat ..,
    BitVec.ofNat_toNat .., BitVec.ofNat_toNat .., rfl, rfl, BitVec.ofNat_toNat .., handlerWord .., rfl, BitVec.ofNat_toNat ..,
    BitVec.ofNat_toNat .., rfl, rfl, rfl, rfl, rfl, rfl, rfl, rfl, rfl, rfl, rfl, rfl, ?_⟩
  · refine tp.trans ?_
    cases s.vlc.vt.tp <;> rfl
  · intro n low high
    rw [ctlGet_counter s (by omega) high, perfRead_unassigned s low]
    rfl

end Sys2Proof.Machine

/-! ## Machine family: the return from a handler -/

namespace Sys2Proof.Machine

/-- The handler's address is what a write of HANDLER holds above bit 1 (R109). -/
theorem handlerPc_of_word (w : Word) : BitVec.ofNat 54 (w.toNat / 4) = w.extractLsb' 2 54 := by
  apply BitVec.eq_of_toNat_eq
  rw [BitVec.toNat_ofNat, BitVec.extractLsb'_toNat, Nat.shiftRight_eq_div_pow]

theorem bitOf_toNat {n : Nat} (w : BitVec n) (i : Nat) : bitOf w.toNat i = w.getLsbD i := by
  rw [BitVec.getLsbD, Nat.testBit_eq_decide_div_mod_eq, bitOf, beq_eq_decide]

/-- What a write of HANDLER leaves (R109, R111). -/
theorem ctlPut_handler (s : State) (w : Word) : ctlPut s 0x58 w =
    s.modVlc fun v => { v with handlerPc := w.extractLsb' 2 54, handlerEn := w.getLsbD 0 } := by
  rw [← handlerPc_of_word, ← bitOf_toNat]
  rfl

/-- A write of a register leaves HANDLER as it is, and one of HANDLER the registers. -/
theorem Vlc.wx_handler (v : Vlc) (d : Fld) (w : Word) (pc : BitVec 54) (en : Bool) :
    ({ v with handlerPc := pc, handlerEn := en } : Vlc).wx d w = { v.wx d w with handlerPc := pc, handlerEn := en } := by
  unfold Vlc.wx Vlc.setX
  dsimp only
  split <;> rfl

/-- A return goes on at the target of R366. -/
theorem leaveHandler_eq (v : Vlc) : leaveHandler v = ({ v with inHandler := false } : Vlc).goto (returnTarget v) := by
  unfold leaveHandler returnTarget
  simp only [afterCode_iff, alignPc]

theorem returnTarget_congr {v w : Vlc} (dvec : v.dvec = w.dvec) (dcode : v.dcode = w.dcode) (rpc : v.rpc = w.rpc)
    (regs : v.faultRegs = w.faultRegs) : returnTarget v = returnTarget w := by
  rw [returnTarget, returnTarget, dvec, dcode, rpc, regs]

/-- The VLC behind a write of HANDLER, before it goes on (R111). -/
def handlerWritten (op : CtlOp) (d a : Fld) (s : State) : Vlc :=
  let w := ctlNew (CtlOp.form' op) (ctlGet s 0x058) (s.vlc.rx a)
  { s.vlc.wx d (ctlGet s 0x058) with handlerPc := w.extractLsb' 2 54, handlerEn := w.getLsbD 0 }

theorem handlerWritten_target (op : CtlOp) (d a : Fld) (s : State) : returnTarget (handlerWritten op d a s) = returnTarget s.vlc :=
  returnTarget_congr (Vlc.setX_dvec ..) (Vlc.setX_dcode ..) (Vlc.setX_rpc ..) (Vlc.setX_faultRegs ..)

/-- A write of HANDLER goes on behind itself, or returns where it leaves EN = 1 in handler state (R366). -/
theorem exec_handlerReturn (op : CtlOp) (d a : Fld) (s : State) : exec (.handlerReturn op d a) s =
    (if s.vlc.inHandler = true ∧ (handlerWritten op d a s).handlerEn = true then
      .next { s with vlc := leaveHandler (handlerWritten op d a s) }
    else .next { s with vlc := (handlerWritten op d a s).next }) := by
  have written : (ctlPut s 0x58 (ctlNew (CtlOp.form' op) (ctlGet s 0x58) (s.vlc.rx a))).modVlc (fun w => w.wx d (ctlGet s 0x58)) =
      { s with vlc := handlerWritten op d a s } := by
    rw [ctlPut_handler, handlerWritten, ← Vlc.wx_handler]
    rfl
  show execHandlerReturn op d a s = _
  unfold execHandlerReturn
  dsimp only
  rw [written]
  rfl

/-- A write that leaves EN = 1 in handler state is the return (R366). -/
theorem handlerReturn_returns (op : CtlOp) (d a : Fld) (s : State) (inside : s.vlc.inHandler = true)
    (en : (handlerWritten op d a s).handlerEn = true) : exec (.handlerReturn op d a) s =
      .next { s with vlc := ({ handlerWritten op d a s with inHandler := false } : Vlc).goto (returnTarget s.vlc) } := by
  rw [exec_handlerReturn, if_pos ⟨inside, en⟩, leaveHandler_eq, handlerWritten_target]

/-- Any other write of HANDLER only arms or disarms it (R111). -/
theorem handlerReturn_goes_on (op : CtlOp) (d a : Fld) (s : State)
    (stays : s.vlc.inHandler = false ∨ (handlerWritten op d a s).handlerEn = false) :
    exec (.handlerReturn op d a) s = .next { s with vlc := (handlerWritten op d a s).next } := by
  rw [exec_handlerReturn, if_neg]
  rintro ⟨inside, en⟩
  simp [inside, en] at stays

theorem exec_eret_returns {s : State} (firmware : s.gang.firmware = true) (inside : s.vlc.inHandler = true) :
    exec .eret s = .next { s with vlc := leaveHandler { s.vlc with handlerEn := true } } :=
  if_pos ⟨firmware, inside⟩

theorem exec_eret_refused {s : State} (other : s.gang.firmware = false ∨ s.vlc.inHandler = false) :
    exec .eret s = scalarStop s (decodeTrap fcPRIV (encode .eret) 0) := by
  refine if_neg ?_
  rintro ⟨firmware, inside⟩
  simp [firmware, inside] at other

/-- The FAULTE of a fault that decoding raises, with no field named, is the word (R365). -/
theorem decodeTrap_info (code : BitVec 8) (w : BitVec 32) : (decodeTrap code w 0).info = w.setWidth 64 := by
  rw [decodeTrap, trapInfo, Nat.zero_mul, Nat.add_zero, BitVec.ofNat_toNat]

/-- Settles O32: a write of HANDLER by what `handlerWritten` leaves in EN, `eret` by the gang and the handler state. -/
theorem handlerReturns : Obligations.HandlerReturns := by
  unfold Obligations.HandlerReturns
  refine ⟨fun op d a s => ?_, fun s firmware inside => ?_, fun s other ready => ?_⟩
  · cases op with
    | wr => exact ⟨handlerReturn_returns .wr d a s, handlerReturn_goes_on .wr d a s⟩
    | set => exact ⟨handlerReturn_returns .set d a s, handlerReturn_goes_on .set d a s⟩
    | clr => exact ⟨handlerReturn_returns .clr d a s, handlerReturn_goes_on .clr d a s⟩
  · rw [exec_eret_returns firmware inside, leaveHandler_eq]
    rfl
  · rw [exec_eret_refused other, scalarStop_faults ready, decodeTrap_info]
    rfl

end Sys2Proof.Machine

/-! ## Machine family: a fault to the host -/

namespace Sys2Proof.Machine

/-! ### The fields of a fault record (R369) -/

theorem coreIdent_lt {c : Nat} (h : c < 576) : coreIdent c < 1024 := by
  unfold coreIdent coreDie coreCluster
  omega

/-- The context half of a fault record: the words up to GANGID. -/
def recordLow (f : FaultInfo) (gangid : Word) (tenant producer : BitVec 12) (core slot node : Nat) (hs : Bool) : Nat :=
  (f.code.toNat + if f.vec then 256 else 0) * 2 ^ 32 + hs.toNat * 2 ^ 59 + node % 65536 * 2 ^ 64 + producer.toNat * 2 ^ 80 +
    slot % 4 * 2 ^ 92 + coreIdent core * 2 ^ 94 + tenant.toNat * 2 ^ 104 + gangid.toNat * 2 ^ 128

/-- The words of a fault record from VSTART on, with no body. -/
def recordHigh (f : FaultInfo) (vstart : Nat) : Nat :=
  vstart % 8192 + field f.pc.toNat 0 56 * 2 ^ 64 + f.va.toNat * 2 ^ 128 + f.info.toNat * 2 ^ 192

section
variable (f : FaultInfo) (gangid : Word) (tenant producer : BitVec 12) {core : Nat} (slot node : Nat) (hs : Bool)

theorem recordHigh_mul (vstart : Nat) : recordHigh f vstart * 2 ^ 192 =
    vstart % 8192 * 2 ^ 192 + field f.pc.toNat 0 56 * 2 ^ 256 + f.va.toNat * 2 ^ 320 + f.info.toNat * 2 ^ 384 := by
  simp only [recordHigh, Nat.add_mul, Nat.mul_assoc, ← pow_add]

theorem faultRecord_eq (vstart core : Nat) : faultRecord f vstart gangid tenant core slot producer node 0 hs 0 =
    BitVec.ofNat 1024 (recordLow f gangid tenant producer core slot node hs + recordHigh f vstart * 2 ^ 192) := by
  have flag : (if hs then 2 ^ 59 else 0 : Nat) = hs.toNat * 2 ^ 59 := by cases hs <;> rfl
  have body : (0 : BitVec 512).toNat = 0 := by simp only [BitVec.ofNat_eq_ofNat, BitVec.toNat_zero]
  unfold faultRecord
  rw [flag, body, recordHigh_mul, recordLow, Nat.zero_mul (2 ^ 60), Nat.zero_mul, Nat.add_zero, Nat.add_zero]
  simp only [Nat.add_assoc]

theorem recordHigh_lt (vstart : Nat) : recordHigh f vstart < 2 ^ 256 := by
  have pc : field f.pc.toNat 0 56 < 2 ^ 56 := field_lt ..
  have va := f.va.isLt
  have info := f.info.isLt
  unfold recordHigh
  omega

theorem recordLow_fields (core_ : core < 576) : let n := recordLow f gangid tenant producer core slot node hs
    n < 2 ^ 192 ∧ n / 2 ^ 0 % 2 ^ 32 = 0 ∧ n / 2 ^ 32 % 2 ^ 9 = (f.code.toNat + if f.vec then 256 else 0) ∧ n / 2 ^ 59 % 2 ^ 1 = hs.toNat ∧
    n / 2 ^ 60 % 2 ^ 3 = 0 ∧ n / 2 ^ 92 % 2 ^ 2 = slot % 4 ∧ n / 2 ^ 94 % 2 ^ 10 = coreIdent core ∧ n / 2 ^ 104 % 2 ^ 12 = tenant.toNat ∧
    n / 2 ^ 128 % 2 ^ 64 = gangid.toNat := by
  have code := f.code.isLt
  have vec : (if f.vec then 256 else 0 : Nat) ≤ 256 := by split <;> decide
  have flag := Bool.toNat_lt hs
  have prod := producer.isLt
  have ident := coreIdent_lt core_
  have ten := tenant.isLt
  have gid := gangid.isLt
  unfold recordLow
  generalize (if f.vec then 256 else 0 : Nat) = vec at vec
  dsimp only
  refine ⟨?_, ?_, ?_, ?_, ?_, ?_, ?_, ?_, ?_⟩ <;> omega

theorem recordHigh_fields (vstart : Nat) : let n := recordHigh f vstart
    n / 2 ^ 0 % 2 ^ 13 = vstart % 2 ^ 13 ∧ n / 2 ^ 64 % 2 ^ 56 = f.pc.toNat % 2 ^ 56 ∧ n / 2 ^ 128 % 2 ^ 56 = f.va.toNat ∧
    n / 2 ^ 192 % 2 ^ 64 = f.info.toNat := by
  have pc : field f.pc.toNat 0 56 = f.pc.toNat % 2 ^ 56 := by rw [field, Nat.pow_zero, Nat.div_one]
  have va := f.va.isLt
  have info := f.info.isLt
  unfold recordHigh
  rw [pc]
  dsimp only
  refine ⟨?_, ?_, ?_, ?_⟩ <;> omega

/-- The fields of a fault record of a VLC, as R369 places them. -/
theorem faultRecord_fields (vstart : Nat) (core_ : core < 576) :
    let r := faultRecord f vstart gangid tenant core slot producer node 0 hs 0
    r.extractLsb' 0 32 = 0 ∧ r.extractLsb' 32 9 = BitVec.ofBool f.vec ++ f.code ∧ r.extractLsb' 59 1 = BitVec.ofNat 1 hs.toNat ∧
    r.extractLsb' 60 3 = 0 ∧ r.extractLsb' 92 2 = BitVec.ofNat 2 slot ∧ r.extractLsb' 94 10 = BitVec.ofNat 10 (coreIdent core) ∧
    r.extractLsb' 104 12 = tenant ∧ r.extractLsb' 128 64 = gangid ∧ r.extractLsb' 192 13 = BitVec.ofNat 13 vstart ∧
    r.extractLsb' 256 56 = f.pc.setWidth 56 ∧ r.extractLsb' 320 56 = f.va ∧ r.extractLsb' 384 64 = f.info ∧ r.extractLsb' 512 512 = 0 := by
  obtain ⟨low, seq, code, flag, src, vlc, ident, ten, gid⟩ := recordLow_fields f gangid tenant producer slot node hs core_
  obtain ⟨vst, pc, va, info⟩ := recordHigh_fields f vstart
  have code_eq : BitVec.ofNat 9 (f.code.toNat + if f.vec then 256 else 0) = BitVec.ofBool f.vec ++ f.code :=
    congrArg FaultRegs.c (faultRegsOf_eq f)
  have own {n : Nat} (x : BitVec n) : BitVec.ofNat n x.toNat = x := by rw [BitVec.ofNat_toNat, BitVec.setWidth_eq]
  intro r
  have number : r = BitVec.ofNat 1024 (recordLow f gangid tenant producer core slot node hs + recordHigh f vstart * 2 ^ 192) :=
    faultRecord_eq f gangid tenant producer slot node hs vstart core
  have lowField {lo len x : Nat} (inside : lo + len ≤ 192) (value : recordLow f gangid tenant producer core slot node hs / 2 ^ lo % 2 ^ len = x) :
      r.extractLsb' lo len = BitVec.ofNat len x := by
    rw [number, extractLsb'_ofNat_low low inside]
    exact extractLsb'_ofNat_of_div (by omega) (by rw [← value, Nat.mod_mod])
  have highField {lo len x : Nat} (inside : lo + len ≤ 832) (value : recordHigh f vstart / 2 ^ lo % 2 ^ len = x) :
      r.extractLsb' (192 + lo) len = BitVec.ofNat len x := by
    rw [number, extractLsb'_ofNat_high low (by omega)]
    exact extractLsb'_ofNat_of_div (by omega) (by rw [← value, Nat.mod_mod])
  refine ⟨?_, ?_, ?_, ?_, ?_, ?_, ?_, ?_, ?_, ?_, ?_, ?_, ?_⟩
  · exact lowField (by decide) seq
  · exact (lowField (by decide) code).trans code_eq
  · exact lowField (by decide) flag
  · exact lowField (by decide) src
  · exact (lowField (by decide) vlc).trans (BitVec.eq_of_toNat_eq (by simp))
  · exact lowField (by decide) ident
  · exact (lowField (by decide) ten).trans (own _)
  · exact (lowField (by decide) gid).trans (own _)
  · exact (highField (by decide) vst).trans (BitVec.eq_of_toNat_eq (by simp))
  · exact (highField (by decide) pc).trans (BitVec.eq_of_toNat_eq (by simp))
  · exact (highField (by decide) va).trans (own _)
  · exact (highField (by decide) info).trans (own _)
  · rw [number, show 512 = 192 + 320 from rfl, extractLsb'_ofNat_high low (by decide),
      extractLsb'_ofNat_of_lt (recordHigh_lt f vstart) (by decide)]
    rfl

end

/-! ### SEQ and VALID (R368) -/

/-- A record with its SEQ and VALID (R368). -/
def posted (r : BitVec 1024) (n : Nat) : BitVec 1024 := r ||| BitVec.ofNat 1024 (n % 2 ^ 32 + 2 ^ 63)

section
variable {r : BitVec 1024}

/-- SEQ and VALID leave the other fields of a record as they are. -/
theorem posted_extractLsb' {lo len : Nat} (seq : 32 ≤ lo) (valid : lo + len ≤ 63 ∨ 64 ≤ lo) (n : Nat) :
    (posted r n).extractLsb' lo len = r.extractLsb' lo len := by
  have small : n % 2 ^ 32 < 2 ^ 32 := Nat.mod_lt _ (by decide)
  have outside : (BitVec.ofNat 1024 (n % 2 ^ 32 + 2 ^ 63)).extractLsb' lo len = 0#len := by
    rcases valid with below | above
    · rw [← Nat.one_mul (2 ^ 63), extractLsb'_ofNat_low (by omega) below, extractLsb'_ofNat_of_lt small seq]
    · exact extractLsb'_ofNat_of_lt (k := 64) (by omega) above
  rw [posted, BitVec.extractLsb'_or, outside, BitVec.or_zero]

theorem posted_below {lo len : Nat} {w : BitVec len} (value : r.extractLsb' lo len = w) (n : Nat) (place : 32 ≤ lo ∧ lo + len ≤ 63) :
    (posted r n).extractLsb' lo len = w :=
  (posted_extractLsb' place.1 (.inl place.2) n).trans value

theorem posted_above {lo len : Nat} {w : BitVec len} (value : r.extractLsb' lo len = w) (n : Nat) (place : 64 ≤ lo) :
    (posted r n).extractLsb' lo len = w :=
  (posted_extractLsb' (by omega) (.inr place) n).trans value

theorem posted_seq (empty : r.extractLsb' 0 32 = 0) (n : Nat) : (posted r n).extractLsb' 0 32 = BitVec.ofNat 32 n := by
  have seq : (BitVec.ofNat 1024 (n % 2 ^ 32 + 2 ^ 63)).extractLsb' 0 32 = BitVec.ofNat 32 n := extractLsb'_ofNat_of_div (by decide) (by omega)
  rw [posted, BitVec.extractLsb'_or, empty, seq]
  exact BitVec.zero_or

theorem posted_valid (n : Nat) : (posted r n).getLsbD 63 = true := by
  have valid : (BitVec.ofNat 1024 (n % 2 ^ 32 + 2 ^ 63)).getLsbD 63 = true :=
    getLsbD_of_extractLsb' (extractLsb'_ofNat_of_div (by decide) (by simp only [Bool.toNat_true]; omega))
  rw [posted, BitVec.getLsbD_or, valid, Bool.or_true]

end

/-! ### The suspension (R363, R378) -/

/-- The VLC that a fault to the host suspends. -/
def suspended (v : Vlc) (f : FaultInfo) : Vlc :=
  { (if afterCode f.code && !f.vec then v.next else v) with faultRegs := faultRegsOf f, status := .suspended }

/-- Where a VLC goes on does not depend on its fault registers or its status. -/
theorem Vlc.next_withFault (v : Vlc) (r : FaultRegs) (st : VStatus) :
    ({ v with faultRegs := r, status := st } : Vlc).next = { v.next with faultRegs := r, status := st } := by
  rcases loop : v.loop with _ | l <;> rcases handler : v.inHandler with _ | _
  case some.false =>
    simp only [Vlc.next, Vlc.goto, loop, handler]
    split
    · simp only [stripEnd, handOut]
      split <;> simp_all
    · split <;> rfl
  all_goals simp [Vlc.next, Vlc.goto, loop, handler]

/-- The gang that it halts, and the record that the gang then waits for. -/
def haltedByFault (n : Nat) (g : Gang) : Gang :=
  { g with
    awaits := g.awaits ++ [n]
    st := match g.st with
      | .resident => .halting .fault
      | st => st }

/-- The record of a fault to the host. -/
def hostRecord (s : State) (f : FaultInfo) : PendRec :=
  let v := s.vlc
  let g := s.gang
  let n := (s.queue g.queue).seq
  ⟨g.queue, n, posted (faultRecord f v.vstart.toNat g.gangid g.tenant v.core v.slot (BitVec.ofNat 12 v.core)
    (((s.findNode g.node).map (·.idx)).getD 0xFFFF) 0 v.inHandler 0) n, some v.gang, none⟩

section
variable (s : State) (f : FaultInfo)

theorem suspended_gang (v : Vlc) : (suspended v f).gang = v.gang := by
  show (if afterCode f.code && !f.vec then v.next else v).gang = _
  split
  · exact v.next_gang
  · rfl

/-- A fault to the host suspends the VLC, queues its record and halts its gang. -/
theorem suspendToHost_eq : suspendToHost s f =
    ({ s.modQueue s.gang.queue fun p => { p with seq := p.seq + 1 } with
        vlc := suspended s.vlc f, pendRecs := s.pendRecs ++ [hostRecord s f] } : State).modGang s.vlc.gang
      (haltedByFault (s.queue s.gang.queue).seq) := by
  have vlc : (if (afterCode f.code && !f.vec) = true then ({ s.vlc with faultRegs := faultRegsOf f, status := .suspended } : Vlc).next
      else { s.vlc with faultRegs := faultRegsOf f, status := .suspended }) = suspended s.vlc f := by
    rw [Vlc.next_withFault, suspended]
    split <;> rfl
  unfold suspendToHost
  dsimp only
  rw [vlc, suspended_gang]
  rfl

theorem suspendToHost_findGang {g : Gang} (found : s.findGang s.vlc.gang = some g) :
    (suspendToHost s f).findGang s.vlc.gang = some (haltedByFault (s.queue s.gang.queue).seq g) := by
  rw [suspendToHost_eq]
  exact State.findGang_modGang_self found fun _ => rfl

theorem suspended_regs (v : Vlc) : (suspended v f).x = v.x ∧ (suspended v f).vf = v.vf := by
  show (if afterCode f.code && !f.vec then v.next else v).x = _ ∧ (if afterCode f.code && !f.vec then v.next else v).vf = _
  split
  · exact ⟨(congrArg Vlc.x v.next_eq :), (congrArg Vlc.vf v.next_eq :)⟩
  · exact ⟨rfl, rfl⟩

/-- After TRAP and BREAK the VLC goes on behind the instruction (R117). -/
theorem suspended_pc (v : Vlc) : (suspended v f).pc = if (f.code = 0x60 ∨ f.code = 0x61) ∧ f.vec = false then v.next.pc else v.pc := by
  have behind : (afterCode f.code && !f.vec) = true ↔ (f.code = 0x60 ∨ f.code = 0x61) ∧ f.vec = false := by
    rw [Bool.and_eq_true, afterCode_iff, Bool.not_eq_true']
  show (if afterCode f.code && !f.vec then v.next else v).pc = _
  simp only [behind]
  split <;> rfl

end

/-- Without a handler every fault goes to the host, and a translation fault of stage 2 always (R363). -/
theorem goesToHost_eq_true {v : Vlc} {f : FaultInfo}
    (h : v.handlerEn = false ∨ (f.code = 0x10 ∨ f.code = 0x11) ∧ f.info.extractLsb' 2 2 = 2) : goesToHost v f = true := by
  have stage : f.info.extractLsb' 2 2 = 2 → field f.info.toNat 2 2 = 2 := fun e => by
    have := congrArg BitVec.toNat e
    rwa [BitVec.extractLsb'_toNat, Nat.shiftRight_eq_div_pow] at this
  rcases h with off | ⟨xlate | prot, two⟩
  · simp [goesToHost, off]
  · simp [goesToHost, xlate, fcXLATE, stage two]
  · simp [goesToHost, prot, fcPROT, stage two]

theorem deliverFault_toHost {s : State} {f : FaultInfo} (other : f.code ≠ 0x14)
    (h : s.vlc.handlerEn = false ∨ (f.code = 0x10 ∨ f.code = 0x11) ∧ f.info.extractLsb' 2 2 = 2) : deliverFault s f = suspendToHost s f := by
  have kept : countPoisonFault s f.code (coreDie s.vlc.core) = s := (countPoisonFault_eq s f.code _).2 other
  simp only [deliverFault, kept, goesToHost_eq_true h, if_true]

theorem takeFault_of_notHalting {s : State} (h : NotHalting s) (f : FaultInfo) : takeFault s f = deliverFault s f := by
  rw [takeFault, haltFirst_of_not_halting s h, if_neg Bool.false_ne_true]

/-- Settles O30: `suspendToHost_eq` gives the state, `faultRecord_fields` the record. -/
theorem faultGoesToHost : Obligations.FaultGoesToHost := by
  unfold Obligations.FaultGoesToHost
  intro s f g found core slot other host
  have gang : s.gang = g := State.gangOf_eq found
  have delivered := deliverFault_toHost other host
  obtain ⟨x, vf⟩ := suspended_regs f s.vlc
  obtain ⟨seq, code, flag, src, vlc, ident, ten, gid, vst, pc, va, info, body⟩ := faultRecord_fields f g.gangid g.tenant
    (BitVec.ofNat 12 s.vlc.core) s.vlc.slot (((s.findNode g.node).map (·.idx)).getD 0xFFFF) s.vlc.inHandler s.vlc.vstart.toNat core
  have t := suspendToHost_eq s f
  have foundH := suspendToHost_findGang s f found
  rw [gang] at t foundH
  refine ⟨suspendToHost s f, haltedByFault (s.queue g.queue).seq g, hostRecord s f, delivered,
    fun free => (takeFault_of_notHalting free f).trans delivered, ?_, ?_, ?_, ?_, ?_, foundH, ?_, rfl, ?_, ?_⟩
  · rw [t]; rfl
  · rw [t]; exact faultRegsOf_eq f
  · rw [t]; exact x
  · rw [t]; exact vf
  · rw [t]; exact suspended_pc f s.vlc
  · intro resident
    simp only [haltedByFault, resident]
  · rw [t]; rfl
  · unfold hostRecord
    rw [gang]
    exact ⟨rfl, rfl, posted_seq seq _, posted_below code _ (by decide), getLsbD_of_extractLsb' (posted_below flag _ (by decide)),
      posted_below src _ (by decide), posted_valid _, posted_above vlc _ (by decide), posted_above ident _ (by decide),
      posted_above ten _ (by decide), posted_above gid _ (by decide),
      posted_above (vst.trans (by rw [BitVec.ofNat_toNat, BitVec.setWidth_eq])) _ (by decide), posted_above pc _ (by decide),
      posted_above va _ (by decide), posted_above info _ (by decide), posted_above body _ (by decide)⟩

end Sys2Proof.Machine

/-! ## Machine family: vector results under a VTYPE that `vcfg` refuses -/

namespace Sys2Proof.Machine

/-- The one tail element that `GroupHolds` asks of a group of 4-bit elements of class E3M2 does not fit its width: `tightState` has VL = 1
and tails of ones. -/
theorem not_groupHolds_tightState {r : ElemRule} {f : VFile} (count : r.count = 1) (limit : 1 < r.limit) (cls : r.cls = .e3m2) (w : r.w = 4) :
    ¬ GroupHolds tightState.vlc r f := by
  rintro ⟨-, tail, -, -, -⟩
  have ones : f.elem r.base 4 1 = 63 := by
    have := tail 1 (by omega) limit
    rw [cls, w] at this
    exact this
  have small : f.elem r.base 4 1 < 16 := f.elem_lt r.base 4 1
  omega

/-- Refutes O14: nothing in it keeps VTYPE to the pairs of class and SEW that R122 accepts.  Under class E3M2 at SEW 4 (`tightState`)
`vand v4, v2, v3` leaves one element and a tail, whose elements of 4 bits would have to hold 63. -/
theorem not_vectorArithmetic : ¬ Obligations.VectorArithmetic := by
  unfold Obligations.VectorArithmetic
  intro h
  obtain ⟨t, f, -, -, holds⟩ := h (.vand 0 false 4 2 3) tightState _ (.inl rfl)
    ⟨by decide, by decide, by decide, fun _ => ⟨by decide, rfl⟩, nofun⟩ tightState_running
  exact not_groupHolds_tightState rfl (by decide) rfl rfl holds

/-- Refutes O15: nothing in it keeps VTYPE to the pairs of class and SEW that R122 accepts.  Under class E3M2 at SEW 4 (`tightState`)
`vmv v4, v2` leaves one element and a tail, whose elements of 4 bits would have to hold 63. -/
theorem not_vectorMovement : ¬ Obligations.VectorMovement := by
  unfold Obligations.VectorMovement
  intro h
  obtain ⟨t, f, -, -, holds⟩ := h (.vmvV 0 4 2) tightState _ rfl ⟨by decide, by decide, by decide⟩ tightState_running
  exact not_groupHolds_tightState rfl (by decide) rfl rfl holds

/-- Refutes O16 in its clause on `pexp`: nothing in it keeps VTYPE to the pairs of class and SEW that R122 accepts.  Under class E3M2 at SEW 4
(`tightState`) `pexp v4, v2, p0` leaves one element and a tail, whose elements of 4 bits would have to hold 63. -/
theorem not_vectorBlocks : ¬ Obligations.VectorBlocks := by
  unfold Obligations.VectorBlocks
  rintro ⟨-, -, expand⟩
  obtain ⟨t, f, -, -, holds⟩ := expand 4 2 0 tightState ⟨by decide, by decide, by decide, .inr (by decide)⟩ tightState_running rfl
  exact not_groupHolds_tightState rfl (by decide) rfl rfl holds

end Sys2Proof.Machine

/-! ## Machine family: VTYPE, VL and strip loops -/

namespace Sys2Proof.Machine

/-! ### VTYPE (R102, R122) -/

theorem clsOfCode_clsNum (c : Cls) : clsOfCode (clsNum c) = c := by cases c <;> rfl

theorem clsNum_clsOfCode {n : Nat} (h : n < 10) : clsNum (clsOfCode n) = n := by interval_cases n <;> rfl

theorem ewOfCode_ewNum (e : Ew) : ewOfCode (ewNum e) = e := by cases e <;> rfl

theorem ewNum_ewOfCode {n : Nat} (h : n < 6) : ewNum (ewOfCode n) = n := by interval_cases n <;> rfl

/-- The tail policy of a code (R102). -/
def tailOf : Nat → Tail
  | 0 => .undisturbed
  | 1 => .agnostic
  | _ => .dead

theorem tailOf_tailCode (p : Tail) : tailOf (tailCode p) = p := by cases p <;> rfl

theorem tailCode_tailOf {n : Nat} (h : n < 3) : tailCode (tailOf n) = n := by interval_cases n <;> rfl

theorem toNat_bitOf (n i : Nat) : (bitOf n i).toNat = n / 2 ^ i % 2 := by
  unfold bitOf
  rcases Nat.mod_two_eq_zero_or_one (n / 2 ^ i) with e | e <;> rw [e] <;> rfl

/-- What the checks of R122 look at, and the VTYPE of a value that passes them. -/
theorem vtypeOf_eq (n : Nat) : vtypeOf n =
    if 2 ^ 15 ≤ n ∨ 6 ≤ field n 9 3 ∨ 6 ≤ field n 12 3 ∨ field n 5 2 = 3 ∨ 10 ≤ field n 0 4 then none
    else if (clsOfCode (field n 0 4)).isFp = true ∧ (ewOfCode (field n 9 3)).bits ≠ (clsOfCode (field n 0 4)).container then none
    else some ⟨ewOfCode (field n 12 3), ewOfCode (field n 9 3), ⟨field n 7 2, Nat.mod_lt _ (by decide)⟩, tailOf (field n 5 2), bitOf n 4,
      clsOfCode (field n 0 4)⟩ := rfl

/-- The number that VTYPE reads as. -/
theorem Vtype.word_toNat (t : Vtype) : t.word.toNat = clsNum t.cls + t.mz.toNat * 16 + tailCode t.tp * 32 + t.grp.val * 128 +
    ewNum t.sew * 512 + ewNum t.mew * 4096 := by
  have cls := clsNum_lt t.cls
  have mz := Bool.toNat_lt t.mz
  have tp := tailCode_lt t.tp
  have grp := t.grp.isLt
  have sew := ewNum_lt t.sew
  have mew := ewNum_lt t.mew
  rw [Vtype.word_eq, BitVec.toNat_ofNat]
  omega

/-- A value that passes the checks is the one that its VTYPE reads as. -/
theorem word_of_vtypeOf {w : Word} {t : Vtype} (h : vtypeOf w.toNat = some t) :
    t.word = w ∧ (t.cls.isFp = true → t.sew.bits = t.cls.container) := by
  rw [vtypeOf_eq] at h
  split at h
  case isTrue => cases h
  case isFalse codes =>
    split at h
    case isTrue => cases h
    case isFalse fits =>
      have tp : field w.toNat 5 2 < 4 := Nat.mod_lt _ (by decide)
      obtain rfl := Option.some.inj h
      refine ⟨BitVec.eq_of_toNat_eq ?_, fun fp => not_not.mp fun ne => fits ⟨fp, ne⟩⟩
      rw [Vtype.word_toNat]
      dsimp only
      rw [tailCode_tailOf (by omega), toNat_bitOf, clsNum_clsOfCode (by omega), ewNum_ewOfCode (by omega), ewNum_ewOfCode (by omega)]
      simp only [field] at *
      omega

/-- VTYPE passes the checks where its class is an integer's or has the width of SEW. -/
theorem vtypeOf_word {t : Vtype} (fits : t.cls.isFp = true → t.sew.bits = t.cls.container) : vtypeOf t.word.toNat = some t := by
  have cls : clsNum t.cls < 10 := by cases t.cls <;> decide
  have mz := Bool.toNat_lt t.mz
  have tp : tailCode t.tp < 3 := by cases t.tp <;> decide
  have grp := t.grp.isLt
  have sew : ewNum t.sew < 6 := by cases t.sew <;> decide
  have mew : ewNum t.mew < 6 := by cases t.mew <;> decide
  have word := t.word_toNat
  generalize t.word.toNat = n at word
  obtain ⟨f0, f5, f7, f9, f12, low⟩ : field n 0 4 = clsNum t.cls ∧ field n 5 2 = tailCode t.tp ∧ field n 7 2 = t.grp.val ∧
      field n 9 3 = ewNum t.sew ∧ field n 12 3 = ewNum t.mew ∧ n < 2 ^ 15 := by
    simp only [field]
    omega
  have bit : bitOf n 4 = t.mz := by
    have flag : n / 2 ^ 4 % 2 = t.mz.toNat := by omega
    rw [bitOf, flag]
    cases t.mz <;> rfl
  rw [vtypeOf_eq, if_neg (by omega)]
  simp only [f0, f5, f7, f9, f12, bit, clsOfCode_clsNum, ewOfCode_ewNum, tailOf_tailCode]
  rw [if_neg fun h => h.2 (fits h.1)]

/-! ### `vcfgi` and `vcfg` (R121) -/

/-- A value that passes the checks sets VTYPE, VL and x[D]. -/
theorem setVtype_set {n : Word} {t : Vtype} (h : vtypeOf n.toNat = some t) (w : BitVec 32) (avl : Word) (d : Fld) (s : State) :
    let vl := Nat.min avl.toNat (vlmaxOf t)
    setVtype w n.toNat avl d s = .next { s with vlc := ({ s.vlc.wx d (BitVec.ofNat 64 vl) with vt := t, vl := vl } : Vlc).next } := by
  unfold setVtype
  rw [h]
  dsimp only [State.retire, State.modVlc, Vlc.wx, Vlc.setX]
  split <;> rfl

/-- Any other raises VTYPE. -/
theorem setVtype_refused {n : Nat} {s : State} (h : vtypeOf n = none) (ready : s.vlc.vq = [] ∨ s.vlc.inHandler = true) (w : BitVec 32)
    (avl : Word) (d : Fld) : setVtype w n avl d s = .next (takeFault s ⟨0x06, false, 0, s.vlc.pc, w.setWidth 64⟩) := by
  unfold setVtype
  rw [h]
  dsimp only
  rw [scalarStop_faults ready, decodeTrap, Nat.zero_mul, Nat.add_zero, trapInfo, BitVec.ofNat_toNat]
  rfl

theorem compactVtype_eq (imm : BitVec 12) : compactVtype imm = ((imm.extractLsb' 9 3 ++ imm).setWidth 64 : Word).toNat := by
  have := imm.isLt
  rw [BitVec.toNat_setWidth, BitVec.toNat_append, ← Nat.shiftLeft_add_eq_or_of_lt imm.isLt, BitVec.extractLsb'_toNat, Nat.shiftLeft_eq,
    Nat.shiftRight_eq_div_pow, compactVtype, field]
  omega

/-- Both forms set VTYPE from a value: the compact one of `vcfgi`, or x[B]. -/
theorem exec_config {i : Instr} {s : State} {d a : Fld} {n : Word}
    (form : (∃ imm : BitVec 12, i = .vcfgi d a imm ∧ n = (imm.extractLsb' 9 3 ++ imm).setWidth 64) ∨ (∃ b, i = .vcfg d a b ∧ n = s.vlc.rx b)) :
    exec i s = setVtype (encode i) n.toNat (s.vlc.rx a) d s := by
  obtain ⟨imm, rfl, rfl⟩ | ⟨b, rfl, rfl⟩ := form
  · rw [← compactVtype_eq]
    rfl
  · rfl

/-! ### Strip loops (R146, R147) -/

theorem handOut_end {v : Vlc} (h : v.vrem = 0) (l : Loop) : handOut v l = { v with pc := l.after, loop := none } := by
  unfold handOut
  rw [h]
  rfl

theorem handOut_strip {v : Vlc} (h : v.vrem ≠ 0) (l : Loop) :
    let n := stripShare l.balanced (vlmaxOf v.vt) v.vrem.toNat
    handOut v l = { v with vl := n, pc := l.start, loop := some { l with handed := n } } :=
  if_neg fun z => h (BitVec.eq_of_toNat_eq z)

/-- A strip loop that is refused. -/
theorem startLoop_refused {s : State} {imm : BitVec 16} (out : s.vlc.inHandler = false) (inside : s.vlc.loop ≠ none) (ready : s.vlc.vq = [])
    (w : BitVec 32) (p balanced : Bool) (a : Fld) :
    startLoop w p balanced imm a s = .next (takeFault s ⟨0x01, false, 0, s.vlc.pc, w.setWidth 64⟩) := by
  unfold startLoop
  dsimp only
  rw [out, if_neg Bool.false_ne_true, if_pos (.inl (Option.isSome_iff_ne_none.mpr inside)), scalarStop_faults (.inl ready), decodeTrap,
    Nat.zero_mul, Nat.add_zero, trapInfo, BitVec.ofNat_toNat]
  rfl

/-- A strip loop that starts hands out its first strip. -/
theorem startLoop_starts {s : State} {imm : BitVec 16} (out : s.vlc.inHandler = false) (outside : s.vlc.loop = none) (body : imm ≠ 0)
    (w : BitVec 32) (p balanced : Bool) (a : Fld) :
    startLoop w p balanced imm a s = .next (s.modVlc fun v => handOut { v with vrem := v.rx a, vidx := 0, loopSerial := v.loopSerial + 1 }
      ⟨v.pc + 4, imm.toNat, p, balanced, 0, 0, v.loopSerial⟩) := by
  unfold startLoop
  dsimp only
  rw [out, if_neg Bool.false_ne_true, if_neg (by rintro (some | none); exacts [absurd some (by simp [outside]), body none])]

theorem exec_vloop (p balanced : Bool) (imm : BitVec 16) (a : Fld) (s : State) :
    let i := if balanced then Instr.vloopw p imm a else .vloop p imm a
    exec i s = startLoop (encode i) p balanced imm a s := by
  cases balanced <;> rfl

/-- The word after the body of a loop, as the loop instruction names it. -/
theorem after_eq (start : Word) (imm : BitVec 16) (p balanced : Bool) (strip handed serial : Nat) :
    (Loop.mk start imm.toNat p balanced strip handed serial).after = start + imm.setWidth 64 * 4 := by
  have bytes : BitVec.ofNat 64 (4 * imm.toNat) = imm.setWidth 64 * 4 := by
    apply BitVec.eq_of_toNat_eq
    have := imm.isLt
    rw [BitVec.toNat_ofNat, BitVec.toNat_mul, BitVec.toNat_setWidth, Nat.mul_comm]
    simp
  rw [Loop.after, bytes]

/-- Going on outside a loop, and in handler state. -/
theorem Vlc.goto_plain {v : Vlc} (h : v.loop = none ∨ v.inHandler = true) (t : Word) : v.goto t = { v with pc := t } := by
  unfold Vlc.goto
  split
  case h_1 l loop out => simp [loop, out] at h
  case h_2 => rfl

/-- Going on in a loop. -/
theorem Vlc.goto_loop {v : Vlc} {l : Loop} (inside : v.loop = some l) (out : v.inHandler = false) (t : Word) :
    v.goto t = if t = l.after then stripEnd v l else if (t - l.start).toNat < 4 * l.len then { v with pc := t }
      else { v with pc := t, loop := none } := by
  simp only [Vlc.goto, inside, out, Loop.after]

/-- Settles O33: the checks of VTYPE by `vtypeOf_word` and `word_of_vtypeOf`, the strips by what `handOut` does. -/
theorem configurationAndStrips : Obligations.ConfigurationAndStrips := by
  unfold Obligations.ConfigurationAndStrips
  refine ⟨fun i s d a n form => ?_, fun i s p balanced imm a form body out => ?_, fun v t => ⟨fun h => Vlc.goto_plain h t,
    fun l inside out _ _ => ?_⟩⟩
  · rw [exec_config form]
    refine ⟨fun t word fits => ?_, fun none ready => setVtype_refused ?_ ready _ _ d⟩
    · subst word
      exact setVtype_set (vtypeOf_word fits) _ _ d s
    · refine Option.eq_none_iff_forall_ne_some.mpr fun t some => ?_
      obtain ⟨word, fits⟩ := word_of_vtypeOf some
      obtain ⟨fp, ne⟩ := none t word
      exact ne (fits fp)
  · rw [form, exec_vloop p balanced imm a s]
    refine ⟨fun outside => ?_, fun inside ready => startLoop_refused out inside ready ..⟩
    rw [startLoop_starts out outside body]
    refine ⟨fun zero => ?_, fun more => ?_⟩
    · rw [State.modVlc, handOut_end zero, after_eq, ← outside]
    · rw [State.modVlc, handOut_strip (by exact more)]
  · rw [Vlc.goto_loop inside out]
    refine ⟨fun elsewhere body => ?_, fun elsewhere outside => ?_, fun stop => ?_⟩
    · rw [if_neg elsewhere, if_pos body]
    · rw [if_neg elsewhere, if_neg outside]
    · rw [if_pos stop]
      exact ⟨fun zero => handOut_end zero _, fun more => handOut_strip more _⟩

end Sys2Proof.Machine

/-! ## Machine family: compares, predicate operations and predicate scans -/

namespace Sys2Proof.Machine

/-! ### The end of an instruction that changes registers alone -/

/-- A read after a write of a value that the table lists, whatever the order of its keys. -/
theorem Tab.get_set_of_ne {α : Type} [DecidableEq α] {d x : α} (listed : x ≠ d) (t : Tab α) (a b : Nat) :
    Tab.get d (Tab.set d t a x) b = if b = a then x else Tab.get d t b := by
  induction t with
  | nil =>
    by_cases eq : b = a <;> simp [Tab.set, Tab.get, listed, eq]
  | cons y t ih =>
    obtain ⟨k, v⟩ := y
    rcases Nat.lt_trichotomy a k with lt | eq | gt
    · rw [Tab.set, if_pos lt, if_neg listed, Tab.get]
      by_cases eq : b = a
      · rw [if_pos eq, if_pos eq]
      · rw [if_neg eq, if_neg eq]
        by_cases below : b < a
        · rw [if_pos below, Tab.get, if_neg (by omega), if_pos (by omega)]
        · rw [if_neg below]
    · subst eq
      rw [Tab.set, if_neg (Nat.lt_irrefl a), if_pos rfl, if_neg listed, Tab.get, Tab.get]
      by_cases eq : b = a
      · rw [if_pos eq, if_pos eq]
      · rw [if_neg eq, if_neg eq, if_neg eq]
    · rw [Tab.set, if_neg (by omega), if_neg (by omega), Tab.get, Tab.get, ih]
      by_cases eq : b = a
      · rw [if_neg (by omega), if_neg (by omega), if_pos eq, if_pos eq]
      · rw [if_neg eq, if_neg eq]

theorem State.core_modCore_of_ne {s : State} {c : Nat} {f : CoreSt → CoreSt} (listed : f (s.core c) ≠ CoreSt.reset) (b : Nat) :
    (s.modCore c f).core b = if b = c then f (s.core c) else s.core b := Tab.get_set_of_ne listed ..

/-- An instruction that VCOMP counts: the core's count rises, and no other core changes. -/
theorem headDone_counts {i : Instr} (counts : countsVcomp i = true) (t : State) (c : Nat) : (headDone t i).core c =
    if c = t.vlc.core then { t.core c with vcomp := (t.core c).vcomp + 1 } else t.core c := by
  unfold headDone
  dsimp only
  rw [if_pos counts, State.core_modCore_of_ne (s := t.modVlc fun v => { v with vq := v.vq.eraseIdx 0, run := none })
    fun h => Nat.succ_ne_zero _ (congrArg CoreSt.vcomp h)]
  show (if c = t.vlc.core then _ else t.core c) = _
  by_cases same : c = t.vlc.core
  · rw [if_pos same, if_pos same, same]
    rfl
  · rw [if_neg same, if_neg same]

/-- A state whose VLC has the file and the flags given, VSTART at 0. -/
def State.withFile (s : State) (f : VFile) (fl : BitVec 7) : State := s.modVlc fun v => { v with vf := f, fflags := fl, vstart := 0 }

/-- An instruction that passes its checks on a ready VLC ends as `VecDone` says over a state s', where its body leaves what it would find
over s' but for the register file and the flags. -/
theorem issue_vecDone {sp : VSpec} {body : VBody} {i : Instr} {d a b : Nat} {xd xa xb : Word} {s s' : State} {f : VFile} {fl : BitVec 7}
    (ready : VecReady s.vlc) (ok : specTrap (wordOf i) sp s.vlc = none) (counts : countsVcomp i = true)
    (starts : s.vlc.vstart = 0 ∨ s.vlc.vstart.toNat < entryCount (headState s (capture s.vlc i d a b xd xa xb)).vlc
      (capture s.vlc i d a b xd xa xb) ∨ obeysVstart i = false) (ready' : VecReady s'.vlc)
    (run : body (capture s.vlc i d a b xd xa xb) (headState s (capture s.vlc i d a b xd xa xb)) =
      ((headState s' (capture s.vlc i d a b xd xa xb)).withFile f fl, .done)) :
    ∃ t, issue sp body (capture s.vlc i d a b xd xa xb) s = .next t ∧ VecDone s' t f fl := by
  refine ⟨_, issue_head ready ok starts run, ?_, fun c => ?_⟩
  · rw [headDone_rest, headDone_vlc ready' rfl]
    rfl
  · rw [headDone_counts counts]
    show (if c = (headState s' (capture s.vlc i d a b xd xa xb)).vlc.core then _ else _) = _
    rw [headState_core]
    rfl

/-! ### Bits of a predicate (R127) -/

theorem getLsbD_bit4096 {i j : Nat} (hj : j < 4096) : (BitVec.ofNat 4096 (2 ^ i)).getLsbD j = decide (i = j) := by
  rw [BitVec.getLsbD_ofNat, Nat.testBit_two_pow, decide_eq_true hj, Bool.true_and]

/-- A predicate but p0 has no bit beyond its 4,096. -/
theorem VFile.pbit_outside {n i : Nat} (f : VFile) (named : n ≠ 0) (hi : 4096 ≤ i) : f.pbit n i = false := by
  rw [VFile.pbit, if_neg named]
  exact BitVec.getLsbD_of_ge _ _ hi

theorem VFile.getLsbD_pred (f : VFile) (n : Nat) {i : Nat} (hi : i < 4096) : (f.pred n).getLsbD i = f.pbit n i := by
  unfold VFile.pred VFile.pbit
  split
  · rw [BitVec.getLsbD_allOnes, decide_eq_true hi]
  · rfl

/-- A register file whose predicate D holds the bits given, over another one: nothing else differs but the notes of what is written. -/
structure Bits (f : VFile) (d : Nat) (g : VFile) (val : Nat → Bool) : Prop where
  v : g.v = f.v
  dead : g.dead = f.dead
  tag : g.tag = f.tag
  other : ∀ n i, n < 16 → n ≠ d ∨ n = 0 → g.pbit n i = f.pbit n i
  bit : d ≠ 0 → ∀ i, i < 4096 → g.pbit d i = val i

theorem Bits.refl (f : VFile) (d : Nat) : Bits f d f fun i => f.pbit d i :=
  ⟨rfl, rfl, rfl, fun _ _ _ _ => rfl, fun _ _ _ => rfl⟩

section
variable {f g : VFile} {d : Nat} {val : Nat → Bool}

theorem Bits.congr (h : Bits f d g val) {val' : Nat → Bool} (same : ∀ i, i < 4096 → val' i = val i) : Bits f d g val' :=
  { h with bit := fun named i hi => (h.bit named i hi).trans (same i hi).symm }

theorem Bits.elem (h : Bits f d g val) (base w i : Nat) : g.elem base w i = f.elem base w i := by
  unfold VFile.elem VFile.row
  rw [h.v, h.dead]

/-- A predicate that is written as a whole. -/
theorem Bits.setPred (h : Bits f d g val) (hd : d < 16) (x : BitVec 4096) : Bits f d (g.setPred d x) x.getLsbD := by
  by_cases zero : d = 0
  · rw [VFile.setPred, if_pos zero]
    exact { h with bit := fun named => absurd zero named }
  · rw [VFile.setPred, if_neg zero]
    refine ⟨h.v, h.dead, h.tag, fun n i hn off => (h.other n i hn off ▸ ?_), fun _ i _ => ?_⟩
    · unfold VFile.pbit
      split
      · rfl
      · have ne : d ≠ n := by omega
        rw [Vector.getElem?_setIfInBounds_ne ne]
    · rw [VFile.pbit, if_neg zero, Vector.getElem?_setIfInBounds_self_of_lt hd]
      rfl

/-- A bit that is written: the predicate with that bit. -/
theorem Bits.setPbit (h : Bits f d g val) (hd : d < 16) (i : Nat) (b : Bool) :
    Bits f d (g.setPbit d i b) fun j => if j = i then b else val j := by
  have whole : g.setPbit d i b = g.setPred d (if b then (g.p[d]?.getD 0) ||| BitVec.ofNat 4096 (2 ^ i)
      else (g.p[d]?.getD 0) &&& ~~~ BitVec.ofNat 4096 (2 ^ i)) := rfl
  have set := h.setPred hd (if b then (g.p[d]?.getD 0) ||| BitVec.ofNat 4096 (2 ^ i) else (g.p[d]?.getD 0) &&& ~~~ BitVec.ofNat 4096 (2 ^ i))
  rw [whole]
  refine { set with bit := fun named j hj => (set.bit named j hj).trans ?_ }
  have old : (g.p[d]?.getD 0).getLsbD j = val j := by
    have := h.bit named j hj
    rwa [VFile.pbit, if_neg named] at this
  have at_ : decide (i = j) = decide (j = i) := by simp only [eq_comm]
  cases b
  · rw [if_neg Bool.false_ne_true, BitVec.getLsbD_and, BitVec.getLsbD_not, getLsbD_bit4096 hj, old, decide_eq_true hj, at_]
    by_cases same : j = i <;> simp [same]
  · rw [if_pos rfl, BitVec.getLsbD_or, getLsbD_bit4096 hj, old, at_]
    by_cases same : j = i <;> simp [same]

/-- Bits that are written from one up. -/
theorem Bits.setPbits (h : Bits f d g val) (hd : d < 16) (c m : Nat) (b : Bool) :
    Bits f d ((List.range m).foldl (fun g k => g.setPbit d (c + k) b) g) fun j => if c ≤ j ∧ j < c + m then b else val j := by
  induction m with
  | zero => exact h.congr fun j _ => if_neg (by omega)
  | succ m ih =>
    rw [List.range_succ, List.foldl_append]
    refine (ih.setPbit hd (c + m) b).congr fun j _ => ?_
    by_cases last : j = c + m
    · rw [if_pos last, if_pos (by omega)]
    · rw [if_neg last]
      exact if_congr (by omega) rfl rfl

/-- What a tail bit holds (R124). -/
def tailBit (t : Vtype) (old : Bool) : Bool :=
  match t.tp with
  | .undisturbed => old
  | .agnostic => true
  | .dead => false

/-- A predicate after its tail. -/
theorem Bits.ptail (h : Bits f d g val) (hd : d < 16) (t : Vtype) (c : Nat) :
    Bits f d (g.ptail t d c) fun j => if c ≤ j ∧ j < vlmaxOf t then tailBit t (val j) else val j := by
  have reach (j : Nat) : (c ≤ j ∧ j < c + (vlmaxOf t - c)) ↔ c ≤ j ∧ j < vlmaxOf t := by omega
  unfold VFile.ptail tailBit
  cases t.tp with
  | undisturbed => exact h.congr fun j _ => ite_self _
  | agnostic => exact (h.setPbits hd c _ true).congr fun j _ => if_congr (reach j).symm rfl rfl
  | dead => exact (h.setPbits hd c _ false).congr fun j _ => if_congr (reach j).symm rfl rfl

/-- The tail of a predicate result; nothing with VL = 0 (R124). -/
def closeBits (v : Vlc) (d : Nat) (g : VFile) : VFile := if v.vl = 0 then g else g.ptail v.vt d v.vl

/-- A result with its tail is what `PredicateHolds` asks for. -/
theorem Bits.predicateHolds {v : Vlc} (fits : v.vl ≤ vlmaxOf v.vt) (hd : d < 16) (h : Bits v.vf.fresh d g val) {bit : Nat → Bool}
    (below : ∀ i, i < v.vl → val i = bit i) (above : ∀ i, v.vl ≤ i → val i = v.vf.pbit d i) : PredicateHolds v d bit (closeBits v d g) := by
  have max : vlmaxOf v.vt ≤ 4096 := Nat.min_le_left ..
  have closed : Bits v.vf.fresh d (closeBits v d g)
      fun j => if v.vl ≠ 0 ∧ v.vl ≤ j ∧ j < vlmaxOf v.vt then tailBit v.vt (val j) else val j := by
    unfold closeBits
    split
    case isTrue none => exact h.congr fun j _ => if_neg fun c => c.1 none
    case isFalse some => exact (h.ptail hd v.vt v.vl).congr fun j _ => if_congr (and_iff_right some) rfl rfl
  refine ⟨closed.v, closed.dead, closed.tag, fun n i hn out => ?_, fun named some i hi => ?_⟩
  · by_cases off : n ≠ d ∨ n = 0
    · exact closed.other n i hn off
    · obtain ⟨same, named⟩ := not_or.mp off
      obtain rfl := not_not.mp same
      by_cases big : 4096 ≤ i
      · rw [VFile.pbit_outside _ named big, VFile.pbit_outside _ named big]
      · rw [closed.bit named i (by omega), if_neg (by omega), above i (by omega)]
  · rw [closed.bit named i (by omega)]
    by_cases low : i < v.vl
    · rw [if_neg (by omega), if_pos low, below i low]
    · rw [if_pos ⟨some, by omega, hi⟩, if_neg low, above i (by omega)]
      rfl

end

/-! ### Compares (R132) -/

/-- The step of one element of a compare, with the converted scalar and its flags. -/
def compareStep (op : VCmp) (pg : BitVec 2) (k : Bool) (x : Nat × Fl) (e : VEntry) (i : Nat) (s : State) : State × VEnd :=
  if s.vlc.active pg i then
    match readAll s.vlc ((sources e k).map fun b => (b, e.vt.sew.bits, i)) with
    | .error t => (s, .fault t)
    | .ok xs =>
      let r := cmpElem op e.vt.cls e.vt.sew.bits (xs.getD 0 0) (if k then x.1 else xs.getD 1 0)
      ({ s with vlc := ({ s.vlc with vf := s.vlc.vf.setPbit e.d i r.1 } : Vlc).orFlags (r.2 ||| x.2) }, .done)
  else if e.vt.mz then ({ s with vlc := { s.vlc with vf := s.vlc.vf.setPbit e.d i false } }, .done)
  else (s, .done)

theorem cmpBody_eq (op : VCmp) (pg : BitVec 2) (k : Bool) (e : VEntry) (s : State) : cmpBody op pg k e s =
    withTags s (sources e k) (thenDone (elements e (compareStep op pg k (scalarOf k e.vt.cls e.vt.sew.bits e.xb) e) s)
      fun s => if e.vl = 0 then s else s.modVlc fun v => { v with vf := v.vf.ptail e.vt e.d e.vl }) := rfl

/-- A state in which an instruction that changes a predicate and the flags alone has come to a point. -/
structure BitsAt (w : State) (d : Nat) (val : Nat → Bool) (fl : BitVec 7) (u : State) : Prop where
  rest : u = { w with vlc := { w.vlc with vf := u.vlc.vf, fflags := fl } }
  bits : Bits w.vlc.vf d u.vlc.vf val

section
variable {w u : State} {d : Nat} {val : Nat → Bool} {fl : BitVec 7}

theorem BitsAt.refl (w : State) (d : Nat) : BitsAt w d (fun i => w.vlc.vf.pbit d i) w.vlc.fflags w := ⟨rfl, Bits.refl ..⟩

theorem BitsAt.vlc (h : BitsAt w d val fl u) : u.vlc = { w.vlc with vf := u.vlc.vf, fflags := fl } := congrArg State.vlc h.rest

theorem BitsAt.congr (h : BitsAt w d val fl u) {val' : Nat → Bool} (same : ∀ i, i < 4096 → val' i = val i) {fl' : BitVec 7} (flags : fl' = fl) :
    BitsAt w d val' fl' u := flags ▸ ⟨h.rest, h.bits.congr same⟩

/-- One bit is written. -/
theorem BitsAt.set (h : BitsAt w d val fl u) (hd : d < 16) (i : Nat) (b : Bool) :
    BitsAt w d (fun j => if j = i then b else val j) fl { u with vlc := { u.vlc with vf := u.vlc.vf.setPbit d i b } } := by
  refine ⟨?_, h.bits.setPbit hd i b⟩
  conv_lhs => rw [h.rest]

theorem BitsAt.orFlags (h : BitsAt w d val fl u) (more : Fl) : BitsAt w d val (fl ||| more) { u with vlc := u.vlc.orFlags more } := by
  refine ⟨?_, h.bits⟩
  conv_lhs => rw [h.rest]
  rfl

end

/-- FFLAGS once the elements below k have been compared. -/
def compareFlagsTo (v : Vlc) (r : CompareRule) (k : Nat) : BitVec 7 :=
  ((List.range k).filter fun i => decide (v.vstart.toNat ≤ i) && v.active r.pg i).foldl (fun f i => f ||| (r.res i).2 ||| r.sfl) v.fflags

theorem compareFlagsTo_start (v : Vlc) (r : CompareRule) : compareFlagsTo v r v.vstart.toNat = v.fflags := by
  have none : ((List.range v.vstart.toNat).filter fun i => decide (v.vstart.toNat ≤ i) && v.active r.pg i) = [] := by
    refine List.filter_eq_nil_iff.mpr fun i hi => ?_
    have := List.mem_range.mp hi
    simp only [decide_eq_false (by omega : ¬ v.vstart.toNat ≤ i), Bool.false_and, Bool.false_eq_true, not_false_eq_true]
  rw [compareFlagsTo, none]
  rfl

theorem compareFlagsTo_succ {v : Vlc} {k : Nat} (r : CompareRule) (at_ : v.vstart.toNat ≤ k) : compareFlagsTo v r (k + 1) =
    if v.active r.pg k then compareFlagsTo v r k ||| ((r.res k).2 ||| r.sfl) else compareFlagsTo v r k := by
  unfold compareFlagsTo
  rw [List.range_succ, List.filter_append, List.foldl_append, List.filter_singleton, decide_eq_true at_, Bool.true_and]
  cases v.active r.pg k
  · rfl
  · rw [← BitVec.or_assoc]
    rfl

section
variable {e : VEntry} {v : Vlc} {op : VCmp} {pg : BitVec 2} {k : Bool} {d a b : Fld}

/-- What an entry of a compare has captured (R52). -/
structure ComparesAs (e : VEntry) (v : Vlc) (k : Bool) (d a b : Fld) : Prop extends Captured e v where
  dest : e.d = d.toNat
  left : e.a = vNum v.winv a
  right : k = false → e.b = vNum v.winv b
  scalar : k = true → e.xb = v.rx b

/-- An active element of a compare writes its bit and sets its flags. -/
theorem compareStep_active (cap : ComparesAs e v k d a b) {u : State} (clean : u.vlc.poison = [])
    (elems : ∀ base w i, u.vlc.vf.elem base w i = v.vf.elem base w i) {i : Nat} (act : u.vlc.active pg i = true) :
    let r := compareWith op pg k d a b v
    compareStep op pg k (scalarOf k e.vt.cls e.vt.sew.bits e.xb) e i u =
      ({ u with vlc := ({ u.vlc with vf := u.vlc.vf.setPbit d.toNat i (r.res i).1 } : Vlc).orFlags ((r.res i).2 ||| r.sfl) }, .done) := by
  unfold compareStep
  rw [if_pos act, readAll_clean clean, cap.vt, cap.dest]
  cases k
  case false =>
    simp only [sources, compareWith, scalarOf, cap.left, cap.right rfl, elems, Bool.false_eq_true, if_false]
    rfl
  case true =>
    simp only [sources, compareWith, scalarOf, cap.left, cap.scalar rfl, elems, if_true]
    rfl

/-- The predicate once the elements below n have been compared. -/
def comparedTo (v : Vlc) (r : CompareRule) (n i : Nat) : Bool := if i < n then compareBit v r i else v.vf.pbit r.d i

theorem comparedTo_self (v : Vlc) (r : CompareRule) (n : Nat) : comparedTo v r n n = v.vf.pbit r.d n := if_neg (Nat.lt_irrefl n)

theorem comparedTo_succ (v : Vlc) (r : CompareRule) (n i : Nat) :
    comparedTo v r (n + 1) i = if i = n then compareBit v r n else comparedTo v r n i := by
  unfold comparedTo
  by_cases same : i = n
  · rw [if_pos same, if_pos (by omega), same]
  · rw [if_neg same]
    exact if_congr (by omega) rfl rfl

/-- The guard of an element that has not been compared is as at the start, even where D is the guard. -/
theorem BitsAt.guard {w u : State} {r : CompareRule} {n : Nat} {fl : BitVec 7} (file : w.vlc.vf = v.vf.fresh) (inside : n < 4096)
    (h : BitsAt w r.d (comparedTo v r n) fl u) : u.vlc.active pg n = v.active pg n := by
  show u.vlc.vf.pbit pg.toNat n = v.vf.pbit pg.toNat n
  by_cases own : pg.toNat ≠ r.d ∨ pg.toNat = 0
  · exact (h.bits.other _ n (by omega) own).trans (by rw [file]; rfl)
  · obtain ⟨same, named⟩ := not_or.mp own
    rw [not_not.mp same] at named ⊢
    exact (h.bits.bit named n inside).trans (comparedTo_self ..)

/-- Comparing one element takes the predicate and the flags one element on. -/
theorem compareStep_run (cap : ComparesAs e v k d a b) (hd : d.toNat < 16) {w : State} (file : w.vlc.vf = v.vf.fresh) (clean : w.vlc.poison = [])
    {n : Nat} (start : v.vstart.toNat ≤ n) (inside : n < 4096) {u : State} :
    let r := compareWith op pg k d a b v
    BitsAt w r.d (comparedTo v r n) (compareFlagsTo v r n) u →
    ∃ u', compareStep op pg k (scalarOf k e.vt.cls e.vt.sew.bits e.xb) e n u = (u', .done) ∧
      BitsAt w r.d (comparedTo v r (n + 1)) (compareFlagsTo v r (n + 1)) u' := by
  intro r h
  have guard : u.vlc.active pg n = v.active pg n := h.guard file inside
  have flags : compareFlagsTo v r (n + 1) = if v.active pg n then compareFlagsTo v r n ||| ((r.res n).2 ||| r.sfl) else compareFlagsTo v r n :=
    compareFlagsTo_succ r start
  have bit : compareBit v r n = if v.active pg n then (r.res n).1 else if v.vt.mz then false else v.vf.pbit r.d n := if_neg (by omega)
  cases act : v.active pg n with
  | true =>
    rw [act, if_pos rfl] at bit flags
    refine ⟨_, compareStep_active cap ((congrArg Vlc.poison h.vlc).trans clean)
      (fun base w i => (h.bits.elem base w i).trans (by rw [file]; rfl)) (guard.trans act), ?_⟩
    exact ((h.set hd n (r.res n).1).orFlags ((r.res n).2 ||| r.sfl)).congr (fun i _ => bit ▸ comparedTo_succ ..) flags
  | false =>
    rw [act, if_neg Bool.false_ne_true] at bit flags
    unfold compareStep
    rw [guard, act, if_neg Bool.false_ne_true, cap.vt, cap.dest]
    cases mz : v.vt.mz with
    | true =>
      rw [mz, if_pos rfl] at bit
      exact ⟨_, if_pos rfl, (h.set hd n false).congr (fun i _ => bit ▸ comparedTo_succ ..) flags⟩
    | false =>
      rw [mz, if_neg Bool.false_ne_true] at bit
      refine ⟨u, if_neg Bool.false_ne_true, h.congr (fun i _ => ?_) flags⟩
      rw [comparedTo_succ]
      split
      case isTrue same => rw [same, bit, comparedTo_self]
      case isFalse => rfl

theorem withTags_sources (cap : ComparesAs e v k d a b) {u : State} (file : u.vlc.vf = v.vf.fresh)
    (tags : k = false → v.vf.tagOf (vNum v.winv a) = v.vf.tagOf (vNum v.winv b)) (r : State × VEnd) : withTags u (sources e k) r = r := by
  refine if_neg ?_
  rw [file, sources]
  cases k with
  | true => simp [tagsDiffer]
  | false =>
    rw [if_neg Bool.false_ne_true, cap.left, cap.right rfl]
    have same : v.vf.fresh.tagOf (vNum v.winv b) = v.vf.fresh.tagOf (vNum v.winv a) := (tags rfl).symm
    simp [tagsDiffer, same]

/-- A compare writes a bit an element, and the tail. -/
theorem cmpBody_run (cap : ComparesAs e v k d a b) {w : State} (file : w.vlc.vf = v.vf.fresh) (clean : w.vlc.poison = [])
    (turn : w.vlc.run = some ⟨none, none⟩) (vstart : w.vlc.vstart = v.vstart) (fflags : w.vlc.fflags = v.fflags)
    (fits : v.vl ≤ vlmaxOf v.vt) (start : v.vstart.toNat ≤ v.vl) :
    let r := compareWith op pg k d a b v
    r.ok → ∃ f, cmpBody op pg k e w = (w.withFile f (compareFlags v r), .done) ∧ PredicateHolds v r.d (compareBit v r) f := by
  intro r ok
  obtain ⟨hd, -, -, same⟩ : d.toNat < 16 ∧ _ ∧ _ ∧ (k = false → _ ∧ v.vf.tagOf (vNum v.winv a) = v.vf.tagOf (vNum v.winv b)) := ok
  have max : vlmaxOf v.vt ≤ 4096 := Nat.min_le_left ..
  have first : BitsAt w r.d (comparedTo v r v.vstart.toNat) (compareFlagsTo v r v.vstart.toNat) w := by
    refine (BitsAt.refl w r.d).congr (fun i _ => ?_) ((compareFlagsTo_start v r).trans fflags.symm)
    rw [file, comparedTo, compareBit]
    split <;> rfl
  obtain ⟨u, run, last⟩ := iterate_done (fun n u (h : BitsAt w r.d (comparedTo v r n) (compareFlagsTo v r n) u) =>
      (congrArg Vlc.run h.vlc).trans turn) (v.vl - v.vstart.toNat) v.vstart.toNat
    (fun n u lo hi h => compareStep_run cap hd file clean lo (by omega) h) w first
  rw [Nat.add_sub_cancel' start] at last
  refine ⟨closeBits v r.d u.vlc.vf, ?_, (file ▸ last.bits).predicateHolds fits hd (fun i low => if_pos low) fun i high => if_neg (by omega)⟩
  rw [cmpBody_eq, withTags_sources cap file (fun v => (same v).2), elements, vstart, cap.vl, run, cap.vt, cap.dest]
  unfold thenDone closeBits
  dsimp only
  by_cases none : v.vl = 0
  · rw [if_pos none, if_pos none, State.clearVstart, last.rest]
    rfl
  · rw [if_neg none, if_neg none, State.clearVstart, last.rest]
    rfl

end

theorem clsIn_of_range {c : Cls} {lo hi : Nat} (h : clsRange c lo hi) : clsIn c lo hi = true := by
  rw [clsIn, decide_eq_true h.1, decide_eq_true h.2]
  rfl

/-- Every form of R132 is a compare that the scalar unit checks and enqueues as such. -/
theorem exec_compareRule {i : Instr} {s : State} {r : CompareRule} (form : compareRule i s.vlc = some r) :
    ∃ op pg k d a b, r = compareWith op pg k d a b s.vlc ∧ countsVcomp i = true ∧
      (∀ e v, e.i = i → entryCount v e = e.vl) ∧
      exec i s = issue (cmpSpec s.vlc k d a b) (cmpBody op pg k) (capture s.vlc i d.toNat (vNum s.vlc.winv a)
        (if k then xNum s.vlc.wins b else vNum s.vlc.winv b) 0 0 (if k then s.vlc.rx b else 0)) s := by
  unfold compareRule at form
  split at form <;> cases form
  all_goals exact ⟨_, _, _, _, _, _, rfl, rfl, fun e v h => by rw [entryCount, h], rfl⟩

theorem exec_compare_holds {i : Instr} {s : State} {r : CompareRule} (form : compareRule i s.vlc = some r) (ok : r.ok) (running : VecRunning s.vlc) :
    ∃ t f, exec i s = .next t ∧ VecDone s t f (compareFlags s.vlc r) ∧ PredicateHolds s.vlc r.d (compareBit s.vlc r) f := by
  obtain ⟨op, pg, k, d, a, b, rfl, counts, count, run⟩ := exec_compareRule form
  obtain ⟨ready, fits, clean, start⟩ := running
  generalize he : capture s.vlc i d.toNat (vNum s.vlc.winv a) (if k then xNum s.vlc.wins b else vNum s.vlc.winv b) 0 0
    (if k then s.vlc.rx b else 0) = e at run
  have cap : ComparesAs e s.vlc k d a b := by
    subst he
    exact ⟨capture_captured .., rfl, rfl, fun h => by subst h; rfl, fun h => by subst h; rfl⟩
  have reach : s.vlc.vstart.toNat ≤ s.vlc.vl := start.elim (fun zero => zero ▸ Nat.zero_le _) Nat.le_of_lt
  obtain ⟨f, body, holds⟩ := cmpBody_run cap (w := headState s e) (op := op) (pg := pg) (headState_vf s e) ((headState_poison s e).trans clean)
    (headState_run s e) (headState_vstart s e) (headState_fflags s e) fits reach ok
  obtain ⟨hd, cls, left, right⟩ := ok
  have checks : specTrap (wordOf i) (cmpSpec s.vlc k d a b) s.vlc = none := by
    refine specTrap_none ready _ (if_neg (by omega)) ?_ ?_ rfl rfl
    · exact (Bool.not_eq_false' ..).mpr (clsIn_of_range cls)
    · cases k with
      | true => simpa [cmpSpec, grpNames] using left
      | false => simpa [cmpSpec, grpNames] using ⟨left, (right rfl).1⟩
  subst he
  obtain ⟨t, next, done⟩ := issue_vecDone ready checks counts (by rw [count _ _ rfl]; exact start.imp_right .inl) ready body
  exact ⟨t, f, run.trans next, done, holds⟩

/-! ### Predicate operations (R143, R144) -/

/-- Fields that name p0 to p15 pass the checks of predicate operands (R51). -/
theorem predSpec_fieldBad {d a b : Fld} (hd : d.toNat < 16) (ha : a.toNat < 16) (hb : b.toNat < 16) : (predSpec d a b).fieldBad = 0 := by
  have good {f : Fld} (h : f.toNat < 16) (which : Nat) : pBad f which = 0 := if_neg (by omega)
  rw [predSpec, good hd, good ha, good hb]
  rfl

theorem getLsbD_lowBits (n : Nat) {i : Nat} (hi : i < 4096) : (lowBits n).getLsbD i = decide (i < n) := by
  rw [lowBits, BitVec.getLsbD_ofNat, Nat.testBit_two_pow_sub_one, decide_eq_true hi, Bool.true_and]

/-- Bit i of a predicate result under its guard. -/
def guardedBit (v : Vlc) (pg : BitVec 2) (d : Nat) (bit : Nat → Bool) (i : Nat) : Bool :=
  if v.active pg i then bit i else if v.vt.mz then false else v.vf.pbit d i

/-- The predicate D with a result in its active bits below VL, and zeros in the others there under the zeroing policy. -/
def predResult (f : VFile) (pg : BitVec 2) (d : Nat) (mz : Bool) (vl : Nat) (r : BitVec 4096) : BitVec 4096 :=
  let act := f.pred pg.toNat &&& lowBits vl
  let kept := f.pred d &&& ~~~ act
  (if mz then kept &&& ~~~ lowBits vl else kept) ||| (r &&& act)

theorem getLsbD_predResult (f : VFile) (pg : BitVec 2) (d : Nat) (mz : Bool) (vl : Nat) (r : BitVec 4096) {i : Nat} (hi : i < 4096) :
    (predResult f pg d mz vl r).getLsbD i =
      if i < vl then (if f.pbit pg.toNat i then r.getLsbD i else if mz then false else f.pbit d i) else f.pbit d i := by
  have bit (b : Bool) (x y : BitVec 4096) : (if b then x else y).getLsbD i = if b then x.getLsbD i else y.getLsbD i := by
    cases b <;> rfl
  simp only [predResult, BitVec.getLsbD_or, BitVec.getLsbD_and, BitVec.getLsbD_not, bit, f.getLsbD_pred _ hi, getLsbD_lowBits _ hi, hi]
  by_cases low : i < vl
  · cases f.pbit pg.toNat i <;> cases mz <;> simp [low]
  · cases mz <;> simp [low]

theorem writePred_eq {e : VEntry} (some : e.vl ≠ 0) (pg : BitVec 2) (r : BitVec 4096) (s : State) : writePred e pg r s =
    (s.modVlc fun v => { v with vf := (v.vf.setPred e.d (predResult v.vf pg e.d e.vt.mz e.vl r)).ptail e.vt e.d e.vl }).clearVstart := if_neg some

/-- A predicate result is written under the guard, the mask policy and the tail policy. -/
theorem writePred_run {e : VEntry} {v : Vlc} (cap : Captured e v) (hd : e.d < 16) {w : State} (file : w.vlc.vf = v.vf.fresh)
    (fits : v.vl ≤ vlmaxOf v.vt) (pg : BitVec 2) (r : BitVec 4096) :
    ∃ f, writePred e pg r w = w.withFile f w.vlc.fflags ∧ PredicateHolds v e.d (guardedBit v pg e.d r.getLsbD) f := by
  have max : vlmaxOf v.vt ≤ 4096 := Nat.min_le_left ..
  have start : Bits v.vf.fresh e.d w.vlc.vf fun i => v.vf.pbit e.d i := by
    rw [file]
    exact Bits.refl v.vf.fresh e.d
  by_cases none : v.vl = 0
  · refine ⟨closeBits v e.d w.vlc.vf, ?_, start.predicateHolds fits hd (fun i low => by omega) fun i _ => rfl⟩
    rw [writePred, cap.vl, if_pos none, closeBits, if_pos none]
    rfl
  · have written := (start.setPred hd (predResult w.vlc.vf pg e.d v.vt.mz v.vl r)).congr (val' := fun i =>
      if i < v.vl then guardedBit v pg e.d r.getLsbD i else v.vf.pbit e.d i) fun i hi => by rw [file, getLsbD_predResult _ _ _ _ _ _ hi]; rfl
    refine ⟨_, ?_, written.predicateHolds fits hd (fun i low => if_pos low) fun i high => if_neg (by omega)⟩
    rw [writePred_eq (by rwa [cap.vl]), cap.vl, cap.vt, closeBits, if_neg none]
    rfl

theorem PredicateHolds.congr {v : Vlc} {d : Nat} {bit bit' : Nat → Bool} {f : VFile} (h : PredicateHolds v d bit f)
    (same : ∀ i, i < v.vl → bit i = bit' i) : PredicateHolds v d bit' f := by
  obtain ⟨kept, dead, tag, other, bits⟩ := h
  refine ⟨kept, dead, tag, other, fun named some i hi => (bits named some i hi).trans ?_⟩
  split
  case isTrue low => exact same i low
  case isFalse => rfl

/-- A predicate operation that passes its checks and writes a predicate result. -/
theorem issuePred_holds {i : Instr} {pg : BitVec 2} {d a b : Fld} {s : State} (r : BitVec 4096) (running : VecRunning s.vlc) (start : s.vlc.vstart = 0)
    (ok : d.toNat < 16 ∧ a.toNat < 16 ∧ b.toNat < 16) (counts : countsVcomp i = true) {bit : Nat → Bool}
    (same : ∀ j, j < s.vlc.vl → r.getLsbD j = bit j)
    (body : ∀ e : VEntry, e.vl = s.vlc.vl → e.a = a.toNat → e.b = b.toNat → ∀ w : State, w.vlc.vf = s.vlc.vf.fresh →
      bodyOf i e w = (writePred e pg r w, .done)) :
    ∃ t f, issuePred (predSpec d a b) i d a b s = .next t ∧ VecDone s t f s.vlc.fflags ∧
      PredicateHolds s.vlc d.toNat (guardedBit s.vlc pg d.toNat bit) f := by
  obtain ⟨ready, fits, -, -⟩ := running
  obtain ⟨hd, ha, hb⟩ := ok
  have run := body (capture s.vlc i d.toNat a.toNat b.toNat 0 0 0) rfl rfl rfl _ (headState_vf s (capture s.vlc i d.toNat a.toNat b.toNat 0 0 0))
  obtain ⟨f, write, holds⟩ := writePred_run (capture_captured s.vlc i d.toNat a.toNat b.toNat 0 0 0) hd
    (headState_vf s (capture s.vlc i d.toNat a.toNat b.toNat 0 0 0)) fits pg r
  rw [write, headState_fflags] at run
  have checks : specTrap (wordOf i) (predSpec d a b) s.vlc = none :=
    specTrap_none ready _ (predSpec_fieldBad hd ha hb) rfl (fun _ h => nomatch h) rfl rfl
  obtain ⟨t, next, done⟩ := issue_vecDone ready checks counts (.inl start) ready run
  refine ⟨t, f, next, done, holds.congr fun j low => ?_⟩
  rw [guardedBit, same j low]
  rfl

/-- The operations of R143 work on each bit. -/
theorem exec_bitwise_holds {i : Instr} {pg : BitVec 2} {d a b : Fld} {s : State} (running : VecRunning s.vlc) (start : s.vlc.vstart = 0)
    (ok : d.toNat < 16 ∧ a.toNat < 16 ∧ b.toNat < 16) (counts : countsVcomp i = true) {op : BitVec 4096 → BitVec 4096 → BitVec 4096}
    (body : bodyOf i = predBody op pg) (on : Bool → Bool → Bool)
    (bitwise : ∀ x y j, j < 4096 → (op x y).getLsbD j = on (x.getLsbD j) (y.getLsbD j)) :
    ∃ t f, issuePred (predSpec d a b) i d a b s = .next t ∧ VecDone s t f s.vlc.fflags ∧ PredicateHolds s.vlc d.toNat
      (guardedBit s.vlc pg d.toNat fun j => on (s.vlc.vf.pbit a.toNat j) (s.vlc.vf.pbit b.toNat j)) f := by
  have max : s.vlc.vl ≤ 4096 := running.2.1.trans (Nat.min_le_left ..)
  refine issuePred_holds (op (s.vlc.vf.pred a.toNat) (s.vlc.vf.pred b.toNat)) running start ok counts (fun j hj => ?_) fun e _ ha hb w file => ?_
  · rw [bitwise _ _ _ (by omega), VFile.getLsbD_pred _ _ (by omega), VFile.getLsbD_pred _ _ (by omega)]
  · rw [body, predBody, file, ha, hb]
    rfl

/-- The active set bits of a predicate, in order (R144). -/
def activeHits (v : Vlc) (pg : BitVec 2) (a : Fld) : List Nat := (List.range v.vl).filter fun i => v.active pg i && v.vf.pbit a.toNat i

theorem predHits_eq {e : VEntry} {v : Vlc} {a : Fld} (vl : e.vl = v.vl) (ha : e.a = a.toNat) (fits : v.vl ≤ vlmaxOf v.vt) {u : Vlc}
    (file : u.vf = v.vf.fresh) (pg : BitVec 2) : predHits e pg u = activeHits v pg a := by
  have max : vlmaxOf v.vt ≤ 4096 := Nat.min_le_left ..
  unfold predHits activeHits
  dsimp only
  rw [vl, ha, file]
  refine List.filter_congr fun i hi => ?_
  have inside : i < 4096 := by have := List.mem_range.mp hi; omega
  rw [BitVec.getLsbD_and, VFile.getLsbD_pred _ _ inside, VFile.getLsbD_pred _ _ inside]
  rfl

/-- `psbf` and `psif` set the bits before the first hit, or up to it. -/
theorem exec_scan_holds {i : Instr} {pg : BitVec 2} {d a : Fld} {s : State} (running : VecRunning s.vlc) (start : s.vlc.vstart = 0)
    (ok : d.toNat < 16 ∧ a.toNat < 16 ∧ (0 : Fld).toNat < 16) (counts : countsVcomp i = true) {incl : Bool} (body : bodyOf i = scanBody incl pg) :
    let first := (activeHits s.vlc pg a).headD s.vlc.vl
    ∃ t f, issuePred (predSpec d a 0) i d a 0 s = .next t ∧ VecDone s t f s.vlc.fflags ∧ PredicateHolds s.vlc d.toNat
      (guardedBit s.vlc pg d.toNat fun j => decide (j < if incl then first + 1 else first)) f := by
  intro first
  have max : s.vlc.vl ≤ 4096 := running.2.1.trans (Nat.min_le_left ..)
  refine issuePred_holds (lowBits (if incl then first + 1 else first)) running start ok counts
    (fun j hj => getLsbD_lowBits _ (by omega)) fun e vl ha _ w file => ?_
  rw [body, scanBody, predHits_eq vl ha running.2.1 file, vl]

theorem activeHits_headD (v : Vlc) (pg : BitVec 2) (a : Fld) : (activeHits v pg a).headD v.vl =
    ((List.range v.vl).find? fun i => v.active pg i && v.vf.pbit a.toNat i).getD v.vl := by
  rw [activeHits, List.headD_eq_head?_getD, List.head?_filter]

theorem exec_predicate_holds {i : Instr} {s : State} {pg : BitVec 2} {d : Nat} {ok : Prop} {bit : Nat → Bool}
    (form : predicateRule i s.vlc = some (pg, d, ok, bit)) (hok : ok) (running : VecRunning s.vlc) (start : s.vlc.vstart = 0) :
    ∃ t f, exec i s = .next t ∧ VecDone s t f s.vlc.fflags ∧ PredicateHolds s.vlc d (guardedBit s.vlc pg d bit) f := by
  unfold predicateRule at form
  dsimp only at form
  split at form <;> cases form
  -- pand, por, pxor, pandn
  case h_1 => exact exec_bitwise_holds running start hok rfl rfl and fun x y j _ => BitVec.getLsbD_and
  case h_2 => exact exec_bitwise_holds running start hok rfl rfl or fun x y j _ => BitVec.getLsbD_or
  case h_3 => exact exec_bitwise_holds running start hok rfl rfl bne fun x y j _ => BitVec.getLsbD_xor
  case h_4 =>
    refine exec_bitwise_holds running start hok rfl rfl (fun x y => x && !y) fun x y j hj => ?_
    rw [andNot, BitVec.getLsbD_and, BitVec.getLsbD_not, decide_eq_true hj, Bool.true_and]
  -- psbf, psif
  case h_5 =>
    rename_i d a
    obtain ⟨t, f, next, done, holds⟩ := exec_scan_holds (i := .psbf pg d a) running start hok rfl rfl
    refine ⟨t, f, next, done, holds.congr fun j _ => ?_⟩
    rw [activeHits_headD]
    rfl
  case h_6 =>
    rename_i d a
    obtain ⟨t, f, next, done, holds⟩ := exec_scan_holds (i := .psif pg d a) running start hok rfl rfl
    refine ⟨t, f, next, done, holds.congr fun j _ => ?_⟩
    rw [activeHits_headD]
    simp only [guardedBit, if_true, Nat.lt_succ_iff]

/-! ### Predicate scans (R144) -/

/-- Where a VLC goes on does not depend on its scalar registers. -/
theorem Vlc.next_withX (v : Vlc) (x : Vector Word 256) : ({ v with x := x } : Vlc).next = { v.next with x := x } := by
  rcases loop : v.loop with _ | l <;> rcases handler : v.inHandler with _ | _
  case some.false =>
    simp only [Vlc.next, Vlc.goto, loop, handler]
    split
    · simp only [stripEnd, handOut]
      split <;> simp_all
    · split <;> rfl
  all_goals simp [Vlc.next, Vlc.goto, loop, handler]

theorem Vlc.wx_eq_withX (v : Vlc) (d : Fld) (w : Word) :
    ∃ x, v.wx d w = { v with x := x } ∧ ∀ u : Vlc, u.x = v.x → u.setX (xNum v.wins d) w = { u with x := x } := by
  unfold Vlc.wx Vlc.setX
  by_cases zero : xNum v.wins d = 0
  · exact ⟨v.x, if_pos zero, fun u same => by rw [if_pos zero, ← same]⟩
  · exact ⟨_, if_neg zero, fun u same => by rw [if_neg zero, same]⟩

/-- The body of an instruction that writes a scalar register finds what the next would find behind it. -/
theorem headState_wx (s : State) (d : Fld) (w : Word) (e : VEntry) :
    (headState s e).modVlc (fun v => v.setX (xNum s.vlc.wins d) w) = headState { s with vlc := s.vlc.wx d w } e := by
  obtain ⟨x, wx, set⟩ := s.vlc.wx_eq_withX d w
  have x' : (headState s e).vlc.x = s.vlc.x := by rw [headState_vlc]
  rw [wx, State.modVlc, set _ x']
  exact (congrArg (fun v : Vlc => { s with vlc := { v with vq := [e], vf := s.vlc.vf.fresh, run := some ⟨none, none⟩ } })
    (s.vlc.next_withX x)).symm

theorem VecReady.wx {v : Vlc} (h : VecReady v) (d : Fld) (w : Word) : VecReady (v.wx d w) := by
  obtain ⟨x, wx, -⟩ := v.wx_eq_withX d w
  rw [wx]
  exact h

/-- A body that leaves the registers as it finds them. -/
theorem headState_clearVstart (s : State) (e : VEntry) :
    (headState s e).clearVstart = (headState s e).withFile s.vlc.vf.fresh s.vlc.fflags := by
  rw [State.withFile, ← headState_vf s e, ← headState_fflags s e]
  rfl

/-- A scan that passes its checks and writes a scalar register. -/
theorem issueScan_holds {i : Instr} {d a : Fld} {w : Word} {s : State} (ready : VecReady s.vlc) (start : s.vlc.vstart = 0) (ha : a.toNat < 16)
    (counts : countsVcomp i = true) (body : ∀ e : VEntry, e.vl = s.vlc.vl → e.d = xNum s.vlc.wins d → e.a = a.toNat → ∀ u : State,
      u.vlc.vf = s.vlc.vf.fresh → bodyOf i e u = ((u.modVlc fun v => v.setX (xNum s.vlc.wins d) w).clearVstart, .done)) :
    ∃ t f, issueScan (predSpec 0 a 0) i d a s = .next t ∧ VecDone { s with vlc := s.vlc.wx d w } t f s.vlc.fflags ∧
      f.v = s.vlc.vf.v ∧ f.dead = s.vlc.vf.dead ∧ f.tag = s.vlc.vf.tag ∧ f.p = s.vlc.vf.p := by
  have run := body (capture s.vlc i (xNum s.vlc.wins d) a.toNat 0 0 0 0) rfl rfl rfl _
    (headState_vf s (capture s.vlc i (xNum s.vlc.wins d) a.toNat 0 0 0 0))
  have checks : specTrap (wordOf i) (predSpec 0 a 0) s.vlc = none :=
    specTrap_none ready _ (predSpec_fieldBad (by decide) ha (by decide)) rfl (fun _ h => nomatch h) rfl rfl
  have flags : (s.vlc.wx d w).fflags = s.vlc.fflags := Vlc.setX_fflags ..
  have file : (s.vlc.wx d w).vf = s.vlc.vf := Vlc.setX_vf ..
  rw [headState_wx] at run
  obtain ⟨t, next, done⟩ := issue_vecDone (s' := { s with vlc := s.vlc.wx d w }) (f := s.vlc.vf.fresh) (fl := s.vlc.fflags) ready checks counts
    (.inl start) (ready.wx d w) (run.trans (by rw [headState_clearVstart, file, flags]))
  exact ⟨t, _, next, done, rfl, rfl, rfl, rfl⟩

theorem exec_scanRule_holds {i : Instr} {s : State} {d : Fld} {ok : Prop} {w : Word} (form : scanRule i s.vlc = some (d, ok, w)) (hok : ok)
    (running : VecRunning s.vlc) (start : s.vlc.vstart = 0) :
    ∃ t f, exec i s = .next t ∧ VecDone { s with vlc := s.vlc.wx d w } t f s.vlc.fflags ∧
      f.v = s.vlc.vf.v ∧ f.dead = s.vlc.vf.dead ∧ f.tag = s.vlc.vf.tag ∧ f.p = s.vlc.vf.p := by
  obtain ⟨ready, fits, -⟩ := running
  unfold scanRule at form
  dsimp only at form
  split at form <;> cases form
  -- pcnt
  case h_1 =>
    rename_i pg a
    refine issueScan_holds (i := .pcnt pg d a) ready start hok rfl fun e vl hd ha u file => ?_
    show ((u.modVlc fun v => v.setX e.d (BitVec.ofNat 64 (predHits e pg v).length)).clearVstart, VEnd.done) = _
    rw [State.modVlc, predHits_eq vl ha fits file, hd]
    rfl
  -- pfirst
  case h_2 =>
    rename_i pg a
    refine issueScan_holds (i := .pfirst pg d a) ready start hok rfl fun e vl hd ha u file => ?_
    have hits := predHits_eq vl ha fits file pg
    show ((u.modVlc fun v => v.setX e.d (match predHits e pg v with
      | [] => BitVec.allOnes 64
      | i :: _ => BitVec.ofNat 64 i)).clearVstart, VEnd.done) = _
    rw [State.modVlc, hits, hd]
    rw [State.modVlc, ← activeHits]
    cases activeHits s.vlc pg a <;> rfl

/-- Settles O17: a compare leaves the bits and the flags of `compareStep_run`, a predicate operation those of `writePred_run`. -/
theorem predicateResults : Obligations.PredicateResults := by
  unfold Obligations.PredicateResults
  exact ⟨fun i s r form ok running => exec_compare_holds form ok running,
    fun i s pg d ok bit form hok running start => exec_predicate_holds form hok running start,
    fun i s d ok w form hok running start => exec_scanRule_holds form hok running start⟩

end Sys2Proof.Machine

/-! ## Machine family: what a fence does to running work -/

namespace Sys2Proof.Machine

/-! ### Dies that change -/

/-- A change of a die that there is, seen at any die. -/
theorem State.die_modDie (s : State) {d : Nat} (hd : d < 4) (e : Nat) (f : Die → Die) :
    (s.modDie d f).die e = if e = d then f (s.die e) else s.die e := by
  by_cases h : e = d
  · subst h
    simp [State.die, hd]
  · simp [State.die, h, Vector.getElem?_setIfInBounds_ne (Ne.symm h)]

/-! ### Work that fences nothing (R375, R386) -/

/-- A change that fences no function and counts none. -/
structure FencesKept (s t : State) : Prop where
  fenced : t.fenced = s.fenced
  counts : ∀ d, (t.die d).fencedCount = (s.die d).fencedCount

namespace FencesKept

@[refl] theorem refl (s : State) : FencesKept s s := ⟨rfl, fun _ => rfl⟩

theorem trans {s t u : State} (a : FencesKept s t) (b : FencesKept t u) : FencesKept s u :=
  ⟨b.fenced.trans a.fenced, fun d => (b.counts d).trans (a.counts d)⟩

theorem foldl {α : Type} {f : State → α → State} (h : ∀ s x, FencesKept s (f s x)) (l : List α) (s : State) :
    FencesKept s (l.foldl f s) := by
  induction l generalizing s with
  | nil => exact refl s
  | cons x l ih => exact (h s x).trans (ih _)

/-- A change that touches no die and no list of fences. -/
theorem of_dies {s t : State} (dies : t.dies = s.dies := by rfl) (fenced : t.fenced = s.fenced := by rfl) : FencesKept s t :=
  ⟨fenced, fun d => by rw [State.die, State.die, dies]⟩

/-- A change of a die but for its count. -/
theorem modDie {s : State} {d : Nat} {f : Die → Die} (h : ∀ x, (f x).fencedCount = x.fencedCount := by exact fun _ => rfl) :
    FencesKept s (s.modDie d f) where
  fenced := rfl
  counts := fun e => by
    by_cases hd : d < 4
    · rw [State.die_modDie s hd]
      split
      · exact h _
      · rfl
    · have out : s.dies.setIfInBounds d (f (s.die d)) = s.dies := Vector.setIfInBounds_eq_of_size_le (Nat.le_of_not_lt hd)
      rw [State.die, State.modDie_dies, out, State.die]

theorem ite {s t u : State} {c : Prop} [Decidable c] (a : FencesKept s t) (b : FencesKept s u) : FencesKept s (if c then t else u) := by
  split
  · exact a
  · exact b

end FencesKept

theorem touchL2_fences (s : State) (die pa q : Nat) (cls : Rcl) (alloc : Bool) : FencesKept s (touchL2 s die pa q cls alloc) := by
  unfold touchL2
  dsimp only
  repeat' split
  all_goals exact .of_dies

theorem changeMode_fences (s : State) (page : Nat) (m : PageMode) : FencesKept s (changeMode s page m) := .ite .of_dies (.ite .of_dies .of_dies)

theorem reachHome_fences (s : State) (pa die q : Nat) (write so alloc : Bool) (cls : Rcl) :
    FencesKept s (reachHome s pa die q write so alloc cls) := by
  have noted : FencesKept s (noteSo s pa so) := .ite (changeMode_fences _ _ _) (.refl _)
  have counted (u : State) : FencesKept u (countRemote u pa die q write) := .ite (.refl _) .of_dies
  exact .ite ((noted.trans (touchL2_fences _ _ _ _ _ _)).trans (counted _)) (.refl _)

theorem copyFirst_fences (s : State) (pa : Nat) : FencesKept s (copyFirst s pa) := by
  unfold copyFirst
  split
  · rfl
  · exact .ite (.refl _) .of_dies

theorem poisonSectors_fences (s : State) (secs : List Nat) : FencesKept s (poisonSectors s secs) :=
  .foldl (fun s sec => .ite (.refl _) (.trans (t := { s with poison := s.poison ++ [sec] }) .of_dies .modDie)) _ _

theorem markWatched_fences (s : State) (pa n : Nat) : FencesKept s (markWatched s pa n) := .foldl (fun _ _ => .of_dies) _ _

theorem wakeCounters_fences (s : State) (pa n : Nat) : FencesKept s (wakeCounters s pa n) := .of_dies

theorem arrive_fences (s : State) (w : WriteBack) : FencesKept s (arrive s w) := by
  have merged (u : State) (line : Nat) (mask : BitVec 128) : FencesKept u (mergeL2 u line mask) := .ite .of_dies (.refl _)
  have counted (u : State) (n : Nat) : FencesKept u (if w.held.uo then u else countArrived u w.core w.round n) := .ite (.refl _) .of_dies
  exact (((((((copyFirst_fences s _).trans (reachHome_fences _ _ _ _ _ _ _ _)).trans (merged _ _ _)).trans .of_dies).trans
    (poisonSectors_fences _ _)).trans (counted _ _)).trans (markWatched_fences _ _ _)).trans (wakeCounters_fences _ _ _)

theorem depart_fences (s : State) (core : Nat) (l : L1Line) : FencesKept s (depart s core l) := by
  have sent : FencesKept s (countSent s core (l.line * 128)) := by
    unfold countSent
    dsimp only
    split
    · exact .of_dies
    · exact .of_dies
  have counted : FencesKept s (if l.uo then s else countSent s core (l.line * 128)) := .ite (.refl _) sent
  exact .ite (.refl _) (counted.trans .of_dies)

theorem deliverWhere_fences (s : State) (f : WriteBack → Bool) : FencesKept s (deliverWhere s f) :=
  .ite (.trans (t := { s with writeBacks := s.writeBacks.filter fun w => !f w }) .of_dies (.foldl arrive_fences _ _)) (.refl _)

theorem writeBack_fences (s : State) (core : Nat) (l : L1Line) : FencesKept s (writeBack s core l) :=
  (depart_fences s core l).trans (deliverWhere_fences _ _)

theorem snoopWhere_fences (s : State) (f : Snoop → Bool) : FencesKept s (snoopWhere s f) :=
  .ite (.trans (t := { s with snoops := (snoopSplit s f s.snoops).2 }) .of_dies (.foldl (fun _ _ => .of_dies) _ _)) (.refl _)

theorem writeBackRc_fences (s : State) (core : Nat) : FencesKept s (writeBackRc s core) :=
  .foldl (fun s _ => (deliverWhere_fences s _).trans
    (.foldl (fun _ _ => .ite (.refl _) ((writeBack_fences _ _ _).trans .of_dies)) _ _)) _ _

theorem beginRelease_fences (s : State) (core g : Nat) : FencesKept s (beginRelease s core g) :=
  ((writeBackRc_fences s core).trans (snoopWhere_fences _ _)).trans .of_dies

theorem evictUo_fences (s : State) (core : Nat) : FencesKept s (evictUo s core) :=
  (deliverWhere_fences s _).trans (.foldl (fun _ _ => .ite ((writeBack_fences _ _ _).trans .of_dies) (.refl _)) _ _)

theorem beginGangRelease_fences (s : State) (g : Gang) : FencesKept s (beginGangRelease s g) :=
  (FencesKept.foldl evictUo_fences _ _).trans (.foldl (fun s c => beginRelease_fences s c g.id) _ _)

/-! ### Stopping a gang (R359, R375) -/

theorem retireAll_fences (s : State) (g : Nat) : FencesKept s (retireAll s g) := by
  have dropped (u : State) (v : Vlc) : FencesKept u (dropHolds (dropAccumulator u v.core v.slot) v.vq) :=
    .of_dies (congrArg State.dies (dropHolds_kept _ _) : _) (congrArg State.fenced (dropHolds_kept _ _) : _)
  exact (FencesKept.foldl dropped (s.gangVlcs g) s).trans .of_dies

theorem dropPool_fences (s : State) (g : Gang) : FencesKept s (dropPool s g) := by
  unfold dropPool
  split
  · exact FencesKept.trans (t := releasePool s g.die _) .modDie .of_dies
  · rfl

theorem stopGang_fences (s : State) (g : Gang) : FencesKept s (stopGang s g) := by
  have left : FencesKept s (leaveGranules s g) := .foldl (fun _ _ => .of_dies) _ _
  exact (((left.trans (retireAll_fences _ _)).trans (dropPool_fences _ _)).trans .of_dies).trans (beginGangRelease_fences _ _)

/-- A placed gang is stopped, unless its release has begun already. -/
theorem stopForFence_cases (s : State) {g : Gang} (on : placed g = true) :
    ∃ u, FencesKept s u ∧ u.gangs = s.gangs ∧ ((∃ f, g.st = .releasing f) ∧ stopForFence s g = u ∨ stopForFence s g = stopGang u g) := by
  unfold stopForFence fenceGang
  split
  next h => simp [placed, h] at on
  next d k h =>
    exact ⟨releasePool (postGang (dropRecords s g.id) g fcBUS 4) d k,
      .trans (t := postGang (dropRecords s g.id) g fcBUS 4) .of_dies .modDie, rfl, .inr rfl⟩
  next f h => exact ⟨postGang (dropRecords s g.id) g fcBUS 4, .of_dies, rfl, .inl ⟨⟨f, h⟩, rfl⟩⟩
  next => exact ⟨postGang (dropRecords s g.id) g fcBUS 4, .of_dies, rfl, .inr rfl⟩

theorem stopForFence_fences (s : State) {g : Gang} (on : placed g = true) : FencesKept s (stopForFence s g) := by
  obtain ⟨u, kept, -, ⟨-, h⟩ | h⟩ := stopForFence_cases s on <;> rw [h]
  · exact kept
  · exact kept.trans (stopGang_fences u g)

/-- Operations on the entries of a list that keep the fences, one after the other. -/
theorem FencesKept.foldl_mem {α : Type} {f : State → α → State} {l : List α} (h : ∀ x ∈ l, ∀ s, FencesKept s (f s x)) (s : State) :
    FencesKept s (l.foldl f s) := by
  induction l generalizing s with
  | nil => exact .refl s
  | cons x l ih =>
    rw [List.forall_mem_cons] at h
    exact (h.1 s).trans (ih h.2 _)

theorem stopGangs_fences (s : State) (f : Gang → Bool) : FencesKept s (stopGangs s f) := by
  refine .foldl_mem (fun g hg u => stopForFence_fences u ?_) s
  have chosen := (List.mem_filter.mp hg).2
  exact (Bool.and_eq_true_iff.mp chosen).1

/-! ### A unit that is fenced (R375) -/

theorem postStep_fences (s : State) (st : HStep) (t : Trap) : FencesKept s (postStep s st t) := by
  have counted : FencesKept s (countPoisonFault s t.code st.die) := .ite .modDie (.refl _)
  exact counted.trans .of_dies

theorem dropLate_fences (s : State) (st : HStep) : FencesKept s (dropLate s st) := by
  unfold dropLate
  dsimp only
  refine .ite (.refl _) (.ite .of_dies ?_)
  exact .trans (t := { s with gateQ := _ }) .of_dies (postStep_fences _ _ _)

theorem sendClose_fences (s : State) (st : HStep) (rnd home : Nat) : FencesKept s (sendClose s st rnd home) := by
  unfold sendClose closeEnter
  split
  · exact .of_dies
  · exact .ite .of_dies .of_dies

theorem failStep_fences (s : State) (st : HStep) (t : Trap) : FencesKept s (failStep s st t) :=
  (((postStep_fences s st t).trans (dropLate_fences _ _)).trans (.foldl (fun s d => sendClose_fences s st 2 d) _ _)).trans .of_dies

theorem failSteps_fences (s : State) (f : HStep → Bool) : FencesKept s (failSteps s f) := .foldl (fun _ _ => failStep_fences _ _ _) _ _

theorem closeSlice_fences (s : State) (d idx : Nat) : FencesKept s (closeSlice s d idx) :=
  .trans (t := { s with l2 := s.l2.filter fun l => !(l.die == d && homeSlice (l.line * 128) == idx) }) .of_dies (poisonSectors_fences _ _)

theorem fenceWork_fences (s : State) (d kind idx : Nat) : FencesKept s (fenceWork s d kind idx) := by
  unfold fenceWork
  split
  · exact .trans (t := s.modCore (d * 144 + idx) fun k => { k with plain := true }) .of_dies (stopGangs_fences _ _)
  · exact stopGangs_fences s _
  · exact closeSlice_fences s d idx
  · exact failSteps_fences s _
  · exact failSteps_fences s _
  · exact stopGangs_fences s _
  · rfl

theorem fenceUnit_fenced {s : State} {d kind idx : Nat} (h : s.isFenced d kind idx = true) : fenceUnit s d kind idx = s := if_pos h

/-- An event changes its die's ring and its counts, and no other die (R382, R395). -/
theorem State.postEvent_die (s : State) {d : Nat} (hd : d < 4) (kind fkind idx e : Nat) :
    (s.postEvent d kind fkind idx).die e = if e = d then { s.die e with
      ring := ((s.postEvent d kind fkind idx).die e).ring
      evOver := ((s.postEvent d kind fkind idx).die e).evOver
      evHead := (s.die e).evHead + 1 } else s.die e := by
  have eq := State.die_modDie s hd e fun x => { x with
    ring := (x.ring ++ [BitVec.ofNat 256 (kind + fkind * 2 ^ 8 + idx * 2 ^ 16 + (s.die d).cycles % 2 ^ 64 * 2 ^ 64)]).drop (x.ring.length + 1 - 64)
    evOver := x.evOver || x.evHead - x.evTail ≥ 64
    evHead := x.evHead + 1 }
  have same : (s.postEvent d kind fkind idx).die e = _ := eq
  rw [same]
  split
  · rfl
  · rfl

/-- A fence is listed and counted, and the host is told. -/
theorem fenceUnit_fences {s : State} {d : Nat} (hd : d < 4) {kind idx : Nat} (h : s.isFenced d kind idx = false) :
    (fenceUnit s d kind idx).fenced = (d, kind, idx) :: s.fenced ∧
    ((fenceUnit s d kind idx).die d).fencedCount = (s.die d).fencedCount + 1 ∧ (d, 2047) ∈ (fenceUnit s d kind idx).msix := by
  have kept := fenceWork_fences s d kind idx
  have eq : fenceUnit s d kind idx = (({ fenceWork s d kind idx with fenced := (d, kind, idx) :: (fenceWork s d kind idx).fenced } : State).modDie d
      fun x => { x with fencedCount := x.fencedCount + 1 }).postEvent d 1 kind idx := if_neg (by simp [h])
  generalize fenceWork s d kind idx = u at eq kept
  rw [eq]
  refine ⟨congrArg _ kept.fenced, ?_, List.mem_append_right _ (List.mem_singleton_self _)⟩
  rw [State.postEvent_die _ hd, if_pos rfl, State.die_modDie _ hd, if_pos rfl]
  exact congrArg (· + 1) (kept.counts d)

theorem unitRange_eq (k : Nat) : unitRange k = unitCount k := by
  obtain h | h := Nat.lt_or_ge k 9
  · interval_cases k <;> rfl
  · obtain ⟨j, rfl⟩ := Nat.exists_eq_add_of_le' h
    rfl

/-! ### The gangs that a fence stops -/

/-- A gang that has been stopped. -/
def Stopped (g : Gang) : Prop := g.st = .releasing true ∧ g.exited = BitVec.allOnes 32

/-- A gang as a fence leaves it. -/
def stopped (g : Gang) : Gang := { g with exited := BitVec.allOnes 32, wantSave := false, st := .releasing true }

theorem dropPool_gangs (s : State) (g : Gang) : ∃ f : Gang → Gang, (∀ x, (f x).id = x.id) ∧ (dropPool s g).gangs = (s.modGang g.id f).gangs := by
  unfold dropPool
  split
  · exact ⟨fun x => { x with pool := none }, fun _ => rfl, rfl⟩
  · exact ⟨id, fun _ => rfl, by simp⟩

/-- Where a gang that was found stands after a change of the gangs of one identifier. -/
theorem findGang_of_modGang {s t : State} {g : Nat} {f : Gang → Gang} (keep : ∀ x, (f x).id = x.id) (same : t.gangs = (s.modGang g f).gangs)
    {k : Nat} {x : Gang} (h : s.findGang k = some x) : t.findGang k = some (if k = g then f x else x) := by
  have at_ : t.findGang k = (s.modGang g f).findGang k := by rw [State.findGang, same, ← State.findGang]
  rw [at_, State.findGang_modGang s g k keep, h, Option.map_some, State.findGang_id h]

/-- Stopping a gang stops it, and leaves every other where it is. -/
theorem stopGang_findGang (s : State) (g : Gang) {k : Nat} {x : Gang} (h : s.findGang k = some x) :
    ∃ y, (stopGang s g).findGang k = some y ∧ (k = g.id → Stopped y) ∧ (k ≠ g.id → y = x) := by
  obtain ⟨f, keep, dropped⟩ := dropPool_gangs (retireAll (leaveGranules s g) g.id) g
  have h' : (retireAll (leaveGranules s g) g.id).findGang k = some x := by
    rw [State.findGang, retireAll_gangs, (leaveGranules_kept s g).1]
    exact h
  have h'' := findGang_of_modGang keep dropped h'
  have found := findGang_of_modGang (g := g.id) (f := stopped) (t := stopGang s g) (fun _ => rfl) (beginGangRelease_kept _ g).gangs h''
  refine ⟨_, found, fun e => ?_, fun e => ?_⟩
  · rw [if_pos e]
    exact ⟨rfl, rfl⟩
  · rw [if_neg e, if_neg e]

/-- A fence stops a placed gang that is not released yet, keeps one stopped that was, and leaves every other where it is. -/
theorem stopForFence_findGang (s : State) {g : Gang} (on : placed g = true) {k : Nat} {x : Gang} (h : s.findGang k = some x) :
    ∃ y, (stopForFence s g).findGang k = some y ∧ (k = g.id → (∀ f, g.st ≠ .releasing f) → Stopped y) ∧ (Stopped x → Stopped y) ∧
      (k ≠ g.id → y = x) := by
  obtain ⟨u, -, gangs, ⟨⟨f, released⟩, eq⟩ | eq⟩ := stopForFence_cases s on
  all_goals
    rw [eq]
    have hu : u.findGang k = some x := by rw [State.findGang, gangs]; exact h
  · exact ⟨x, hu, fun _ live => absurd released (live f), id, fun _ => rfl⟩
  · obtain ⟨y, hy, self, other⟩ := stopGang_findGang u g hu
    refine ⟨y, hy, fun e _ => self e, fun done => ?_, other⟩
    by_cases e : k = g.id
    · exact self e
    · exact (other e).symm ▸ done

/-- Fences of the gangs of a list, seen at one gang. -/
theorem foldl_stopForFence_findGang {l : List Gang} (on : ∀ g ∈ l, placed g = true) {k : Nat} (s : State) {x : Gang} (h : s.findGang k = some x) :
    ∃ y, (l.foldl stopForFence s).findGang k = some y ∧ (Stopped x ∨ (∃ g ∈ l, k = g.id ∧ ∀ f, g.st ≠ .releasing f) → Stopped y) ∧
      ((∀ g ∈ l, k ≠ g.id) → y = x) := by
  induction l generalizing s x with
  | nil => exact ⟨x, h, by simp, fun _ => rfl⟩
  | cons g l ih =>
    rw [List.forall_mem_cons] at on
    obtain ⟨y, hy, stops, stays, other⟩ := stopForFence_findGang s on.1 h
    obtain ⟨z, hz, zstops, zother⟩ := ih on.2 (stopForFence s g) hy
    refine ⟨z, hz, fun c => zstops ?_, fun c => ?_⟩
    · obtain done | ⟨g', m, e, live⟩ := c
      · exact .inl (stays done)
      · obtain rfl | m := List.mem_cons.mp m
        · exact .inl (stops e live)
        · exact .inr ⟨g', m, e, live⟩
    · rw [List.forall_mem_cons] at c
      rw [zother c.2, other c.1]

end Sys2Proof.Machine

/-! ## Machine family: the board, uncorrectable errors and the debug page -/

namespace Sys2Proof.Machine

/-! ### Tables from which entries are taken -/

/-- A table that keeps the entries of some keys, at any key. -/
theorem Tab.get_filter {α : Type} [DecidableEq α] {d : α} {t : Tab α} {lo : Nat} (w : Tab.wfFrom d lo t = true) (p : Nat → Bool) (a : Nat) :
    Tab.get d (t.filter fun x => p x.1) a = if p a = true then Tab.get d t a else d := by
  induction t generalizing lo with
  | nil => simp [Tab.get]
  | cons x t ih =>
    obtain ⟨k, v⟩ := x
    simp only [Tab.wfFrom, Bool.and_eq_true] at w
    have later := ih w.2
    have low : ∀ b, b ≤ k → Tab.get d (t.filter fun x => p x.1) b = d := fun b h =>
      Tab.get_of_lt d (Tab.wfFrom_filter d w.2 _) (Nat.lt_succ_of_le h)
    rw [List.filter_cons]
    rcases Nat.lt_trichotomy a k with h | rfl | h
    · have off : Tab.get d ((k, v) :: t) a = d := by simp [Tab.get, h, Nat.ne_of_lt h]
      rw [off, ite_self]
      split
      · simp [Tab.get, h, Nat.ne_of_lt h]
      · exact low a h.le
    · split
      · simp [Tab.get, *]
      · simp [low a le_rfl, *]
    · have on : Tab.get d ((k, v) :: t) a = Tab.get d t a := by simp [Tab.get, Nat.ne_of_gt h, Nat.not_lt_of_gt h]
      rw [on, ← later]
      split
      · simp [Tab.get, Nat.ne_of_gt h, Nat.not_lt_of_gt h]
      · rfl

/-! ### Requests for pre-emption that are settled (R316) -/

/-- The queue pages are as they were, but that requests for pre-emption may be settled. -/
structure PreemptSettled (s t : State) : Prop where
  rest : t = { s with queues := t.queues }
  wf : Tab.wf QueuePage.reset s.queues = true → Tab.wf QueuePage.reset t.queues = true
  queue : Tab.wf QueuePage.reset s.queues = true → ∀ q, t.queue q = { s.queue q with preempt := (t.queue q).preempt }
  settled : Tab.wf QueuePage.reset s.queues = true → ∀ q, (s.queue q).preempt = false → (t.queue q).preempt = false

namespace PreemptSettled

@[refl] theorem refl (s : State) : PreemptSettled s s := ⟨rfl, id, fun _ _ => rfl, fun _ _ => id⟩

theorem trans {s t u : State} (a : PreemptSettled s t) (b : PreemptSettled t u) : PreemptSettled s u where
  rest := b.rest.trans (congrArg (fun x : State => { x with queues := u.queues }) a.rest)
  wf := fun w => b.wf (a.wf w)
  queue := fun w q => (b.queue (a.wf w) q).trans (congrArg (fun p : QueuePage => { p with preempt := (u.queue q).preempt }) (a.queue w q))
  settled := fun w q h => b.settled (a.wf w) q (a.settled w q h)

theorem foldl {α : Type} {f : State → α → State} (h : ∀ s x, PreemptSettled s (f s x)) (l : List α) (s : State) :
    PreemptSettled s (l.foldl f s) := by
  induction l generalizing s with
  | nil => exact refl s
  | cons x l ih => exact (h s x).trans (ih _)

end PreemptSettled

theorem State.queue_modQueue {s : State} (w : Tab.wf QueuePage.reset s.queues = true) (q k : Nat) (f : QueuePage → QueuePage) :
    (s.modQueue q f).queue k = if k = q then f (s.queue k) else s.queue k := by
  have get := Tab.get_set QueuePage.reset w q k (f (s.queue q))
  have eq : (s.modQueue q f).queue k = _ := get
  rw [eq]
  split
  next h => rw [h]
  next => rfl

theorem settlePreempt_settled (s : State) (q : Nat) : PreemptSettled s (settlePreempt s q) := by
  unfold settlePreempt
  split
  · rfl
  · refine ⟨rfl, fun w => Tab.wf_set QueuePage.reset w _ _, fun w k => ?_, fun w k h => ?_⟩
    all_goals rw [State.queue_modQueue w]
    · split
      · rfl
      · rfl
    · split
      · rfl
      · exact h

/-! ### A die in reset (R387) -/

/-- What a die holds in reset: its rails and its fused minimum version. -/
theorem resetDie_die (s : State) {d : Nat} (hd : d < 4) (e : Nat) : (resetDie s d).die e =
    if e = d then { Die.reset with rails := (s.die d).rails, minSv := (s.die d).minSv } else s.die e := by
  have dies : (resetDie s d).dies = s.dies.setIfInBounds d { Die.reset with rails := (s.die d).rails, minSv := (s.die d).minSv } :=
    congrArg State.dies (PreemptSettled.foldl (fun t (g : Nat) => settlePreempt_settled t ((clearQueues (clearHansom s d) d).gangOf g).queue) _ _).rest
  have eq := State.die_modDie s hd e fun _ => { Die.reset with rails := (s.die d).rails, minSv := (s.die d).minSv }
  rw [State.die, dies]
  exact eq

theorem mem_untrained (d e k u : Nat) : (e, k, u) ∈ untrained d ↔ e = d ∧ k = 5 ∧ u < 4 := by
  unfold untrained
  constructor
  · intro h
    obtain ⟨p, hp, eq⟩ := List.mem_map.mp h
    obtain ⟨rfl, rfl, rfl⟩ := by simpa using eq
    exact ⟨rfl, rfl, List.mem_range.mp hp⟩
  · rintro ⟨rfl, rfl, hu⟩
    exact List.mem_map.mpr ⟨u, List.mem_range.mpr hu, rfl⟩

theorem isFenced_reset {s t : State} {d : Nat} (h : t.fenced = (s.fenced.filter fun f => f.1 != d) ++ untrained d) (e k u : Nat) :
    t.isFenced e k u = if e = d then k == 5 && decide (u < 4) else s.isFenced e k u := by
  rw [State.isFenced, h, Bool.eq_iff_iff, List.contains_iff_mem, List.mem_append, List.mem_filter, mem_untrained]
  by_cases own : e = d
  · simp [own]
  · simp [own, State.isFenced]

theorem coreDie_iff {c d : Nat} : coreDie c = d ↔ d * 144 ≤ c ∧ c < d * 144 + 144 := by
  unfold coreDie
  omega

/-- The queue pages hold their reset values once every die is in reset; else requests for pre-emption may be settled (R316). -/
theorem resetDie_queue {s : State} (w : Tab.wf QueuePage.reset s.queues = true) (d q : Nat) : (resetDie s d).queue q =
    if ((List.range 4).all fun e => e == d || !(s.die e).resetReleased) = true then QueuePage.reset
    else { s.queue q with preempt := ((resetDie s d).queue q).preempt } := by
  obtain ⟨u, queues, -, -, queue, settled⟩ : ∃ u : State,
      (u.queues = if ((List.range 4).all fun e => e == d || !(s.die e).resetReleased) = true then [] else s.queues) ∧ PreemptSettled u (resetDie s d) :=
    ⟨_, rfl, .foldl (fun t (g : Nat) => settlePreempt_settled t ((clearQueues (clearHansom s d) d).gangOf g).queue) _ _⟩
  split at queues
  · have blank : u.queue q = QueuePage.reset := by rw [State.queue, queues, Tab.get]
    have uw : Tab.wf QueuePage.reset u.queues = true := by rw [queues]; rfl
    have page := queue uw q
    rw [settled uw q (by rw [blank]; rfl), blank] at page
    rw [if_pos ‹_›, page]
    rfl
  · have same : u.queue q = s.queue q := by rw [State.queue, queues, State.queue]
    rw [if_neg ‹_›, ← same]
    exact queue (queues ▸ w) q

/-- A die in reset but for its rails and its phase. -/
theorem resetDie_cleared {s : State} {d : Nat} (hd : d < 4) (ok : TablesOk s) (rails : List Rail → List Rail) (phase : Die → Nat) :
    DieCleared s ((resetDie s d).modDie d fun x => { x with rails := rails x.rails, phase := phase x }) d := by
  have own := State.die_modDie (resetDie s d) hd d fun x => { x with rails := rails x.rails, phase := phase x }
  have others : ∀ e, e ≠ d → ((resetDie s d).modDie d fun x => { x with rails := rails x.rails, phase := phase x }).die e = s.die e := fun e ne => by
    rw [State.die_modDie _ hd, if_neg ne, resetDie_die s hd, if_neg ne]
  rw [if_pos rfl, resetDie_die s hd, if_pos rfl] at own
  have settled : PreemptSettled _ (resetDie s d) :=
    .foldl (fun t (g : Nat) => settlePreempt_settled t ((clearQueues (clearHansom s d) d).gangOf g).queue) _ _
  obtain ⟨memOk, coresOk, -, -, -, queuesOk, -⟩ := ok
  have rest := settled.rest
  have cores : (resetDie s d).cores = s.cores.filter fun k => !(coreDie k.1 == d) := congrArg State.cores rest
  have mem : (resetDie s d).mem = s.mem.filter fun m => !(decide (lsAddr (d * 144) 0 ≤ m.1) && decide (m.1 < lsAddr (d * 144 + 144) 0)) :=
    congrArg State.mem rest
  have landau : (resetDie s d).landau = s.landau.setIfInBounds d Landau.reset := congrArg State.landau rest
  have fenced : (resetDie s d).fenced = (s.fenced.filter fun f => f.1 != d) ++ untrained d := congrArg State.fenced rest
  have byte : ∀ a, memByte (resetDie s d).mem a = if lsAddr (d * 144) 0 ≤ a ∧ a < lsAddr (d * 144 + 144) 0 then 0 else memByte s.mem a := fun a => by
    have get := Tab.get_filter memOk (fun a => !(decide (lsAddr (d * 144) 0 ≤ a) && decide (a < lsAddr (d * 144 + 144) 0))) a
    rw [mem, memByte, get]
    simp only [Bool.not_eq_true', Bool.and_eq_false_iff, decide_eq_false_iff_not, ← not_and_or, ite_not]
    rfl
  have vlc : (resetDie s d).vlc =
      if (coreDie s.vlc.core == d) = true then { Vlc.reset with core := s.vlc.core, slot := s.vlc.slot } else s.vlc := congrArg State.vlc rest
  refine ⟨fun c => ?_, vlc.trans (by simp only [beq_iff_eq]), congrArg State.others rest, congrArg State.gangs rest,
    congrArg State.nodes rest, congrArg State.graphs rest, congrArg State.engines rest, congrArg State.steps rest, congrArg State.tlb rest,
    fun k u => (isFenced_reset fenced d k u).trans (if_pos rfl), fun e k u ne => (isFenced_reset fenced e k u).trans (if_neg ne),
    fun e he ne => ⟨others e ne, ?_⟩, ?_, ?_, ?_, ?_, ?_, ?_, ?_, ?_, fun q => ?_, fun c k hc hk => ?_, fun a ha => ?_⟩
  case refine_1 =>
    have get := Tab.get_filter coresOk (fun c => !(coreDie c == d)) c
    rw [State.core, State.modDie_cores, cores, get]
    simp only [Bool.not_eq_true', beq_eq_false_iff_ne, ite_not, State.core]
  case refine_2 => simp [State.landauOf, landau, Vector.getElem?_setIfInBounds_ne (Ne.symm ne)]
  case refine_3 => simp [State.landauOf, landau, hd]
  iterate 7 exact congrArg _ own
  · exact resetDie_queue queuesOk d q
  · rw [State.modDie_mem, byte]
    congr 1
    rw [coreDie_iff]
    simp only [lsAddr, lsBytes]
    apply propext
    omega
  · rw [State.modDie_mem, byte, if_neg]
    simp only [lsAddr, lsBytes, deviceEnd] at ha ⊢
    omega

/-! ### A VLC that changes in its slot -/

/-- The VLC in a slot after a change that leaves it there. -/
theorem State.findVlc_modVlcAt {s : State} {core slot : Nat} {v : Vlc} {f : Vlc → Vlc} (found : s.findVlc core slot = some v)
    (stays : ∀ x, (f x).core = x.core ∧ (f x).slot = x.slot ∧ ((f x).status = .absent ↔ x.status = .absent)) :
    (s.modVlcAt core slot f).findVlc core slot = some (f v) := by
  have place := List.find?_some found
  simp only [Bool.and_eq_true, beq_iff_eq, bne_iff_ne] at place
  have same : ((fun v : Vlc => v.core == core && v.slot == slot && v.status != .absent) ∘
      fun v => if v.core = core ∧ v.slot = slot ∧ v.status ≠ .absent then f v else v) =
      fun v => v.core == core && v.slot == slot && v.status != .absent := by
    funext x
    obtain ⟨hc, hs, ha⟩ := stays x
    have here : ((f x).status != .absent) = (x.status != .absent) := by
      rw [Bool.eq_iff_iff, bne_iff_ne, bne_iff_ne, ne_eq, ha]
    simp only [Function.comp_apply]
    split
    · rw [hc, hs, here]
    · rfl
  rw [State.findVlc, State.modVlcAt, State.mapVlcs_vlcs, List.find?_map, same]
  rw [State.findVlc] at found
  rw [found, Option.map_some, if_pos ⟨place.1.1, place.1.2, place.2⟩]

/-! ### Poisoned words (R153, R199, R395) -/

theorem mem_poisoned {α : Type} [BEq α] [LawfulBEq α] (x y : α) (xs : List α) :
    y ∈ (if xs.contains x then xs else x :: xs) ↔ y = x ∨ y ∈ xs := by
  split
  next h =>
    have listed : x ∈ xs := List.contains_iff_mem.mp h
    exact ⟨.inr, fun c => c.elim (fun e => e ▸ listed) id⟩
  next => exact List.mem_cons

/-- Only counts of dies and queues change, and messages are sent. -/
def CountsOnly (s t : State) : Prop := t = { s with dies := t.dies, perf := t.perf, msix := t.msix }

theorem CountsOnly.trans {s t u : State} (a : CountsOnly s t) (b : CountsOnly t u) : CountsOnly s u :=
  Eq.trans b (congrArg (fun x : State => { x with dies := u.dies, perf := u.perf, msix := u.msix }) a)

theorem countPoison_counts (s : State) (d : Nat) (q : Option Nat) (fkind idx : Nat) : CountsOnly s (countPoison s d q fkind idx) := by
  have event (u : State) (c : Prop) [Decidable c] : CountsOnly u (if c then u.postEvent d 5 fkind idx else u) := by
    split
    · rfl
    · rfl
  cases q with
  | none => exact CountsOnly.trans (t := s.modDie d fun x => { x with latent := x.latent + 1 }) rfl (event _ _)
  | some q =>
    exact CountsOnly.trans
      (t := (s.modDie d fun x => { x with latent := x.latent + 1 }).modPerf d q fun p => { p with latent := p.latent + 1 }) rfl (event _ _)

section
variable {s t : State} (h : CountsOnly s t)
include h

theorem CountsOnly.vlc : t.vlc = s.vlc := (congrArg State.vlc h : _)
theorem CountsOnly.others : t.others = s.others := (congrArg State.others h : _)
theorem CountsOnly.vlcs : t.vlcs = s.vlcs := by rw [State.vlcs, h.vlc, h.others, State.vlcs]
theorem CountsOnly.mem : t.mem = s.mem := (congrArg State.mem h : _)
theorem CountsOnly.poison : t.poison = s.poison := (congrArg State.poison h : _)
theorem CountsOnly.cores : t.cores = s.cores := (congrArg State.cores h : _)
theorem CountsOnly.core (c : Nat) : t.core c = s.core c := by rw [State.core, h.cores, State.core]

end

theorem rowExists_strip {v : Vlc} {k name : Nat} {f : Fan} {y : Strip} (fan : v.fan = some f) (row : y ∈ f.strips)
    (own : hasPrivate k name y = true) : rowExists v name (some k) = true := by
  have any : f.strips.any (hasPrivate k name) = true := List.any_eq_true.mpr ⟨y, row, own⟩
  simp [rowExists, fan, any]

/-- An uncorrectable error in a word of a row that exists. -/
theorem exec_regWord {core slot name word : Nat} {strip : Option Nat} {s : State} {v : Vlc} (hc : core < 576) (hs : slot < 4) (hn : name < 256)
    (hw : word < 64) (found : s.findVlc core slot = some v) (row : rowExists v name strip = true) :
    exec (.uncorrectableError (.regWord core slot name word strip)) s = .next (countPoison (s.modVlcAt core slot (poisonWord strip (name, word)))
      (coreDie core) (some (s.gangOf v.gang).queue) 0 (core % 144)) := by
  have eq : exec (.uncorrectableError (.regWord core slot name word strip)) s =
    execUncorrectableError (.regWord core slot name word strip) s := rfl
  rw [eq]
  simp [execUncorrectableError, found, row, Nat.not_le_of_lt hc, Nat.not_le_of_lt hs, Nat.not_le_of_lt hn, Nat.not_le_of_lt hw]

/-- The VLC of a poisoned word afterwards. -/
theorem findVlc_poisonWord {s : State} {core slot : Nat} {v : Vlc} (found : s.findVlc core slot = some v) (strip : Option Nat) (x : Nat × Nat)
    {t : State} (counted : CountsOnly (s.modVlcAt core slot (poisonWord strip x)) t) : t.findVlc core slot = some (poisonWord strip x v) := by
  rw [State.findVlc, counted.vlcs]
  exact State.findVlc_modVlcAt found fun y => by cases strip <;> exact ⟨rfl, rfl, .rfl⟩

theorem mem_parityError (line byte : Nat) (ls : List L1Line) (l : L1Line) : l ∈ parityError byte ls line ↔
    ∃ x ∈ ls, (x.line ≠ line ∧ l = x) ∨ (x.line = line ∧ x.dirty ≠ 0 ∧
      l = if x.dirty.getLsbD byte then { x with bad := x.bad ||| BitVec.twoPow 128 byte }
        else { x with valid := x.valid &&& ~~~ BitVec.twoPow 128 byte }) := by
  have bit : BitVec.ofNat 128 (2 ^ byte) = BitVec.twoPow 128 byte := by
    apply BitVec.eq_of_toNat_eq
    simp
  simp only [parityError, List.mem_map, List.mem_filter, bit]
  refine exists_congr fun x => ?_
  by_cases at_ : x.line = line
  · simp [at_, and_assoc, eq_comm (a := l)]
  · simp [at_, eq_comm (a := l)]

/-! ### The board and errors (R375, R383, R387, R395 to R397) -/

theorem exec_cdResetN_high {d : Nat} {s : State} (hd : d < 4) : exec (.cdResetN d true) s =
    if (s.die d).phase ≠ 1 then .next s
    else .next (stopBoot (s.modDie d fun x => { x with resetReleased := true }) d
      (if Config.bringUpFails (4 * s.tick + d) 3 then 2 else 3) (if Config.bringUpFails (4 * s.tick + d) 3 then 0x21 else 0) 0) := by
  have eq : exec (.cdResetN d true) s = execCdResetN d true s := rfl
  rw [eq, execCdResetN, if_neg (by omega), if_neg (by decide)]
  by_cases fails : Config.bringUpFails (4 * s.tick + d) 3 = true
  · simp only [State.modDie_tick, fails, if_true]
  · simp only [State.modDie_tick, fails, if_false, Bool.false_eq_true]

theorem stopBoot_die (s : State) {d : Nat} (hd : d < 4) (phase code detail e : Nat) : (stopBoot s d phase code detail).die e =
    if e = d then { s.die e with phase := phase, stop := BitVec.ofNat 8 code, detail := BitVec.ofNat 16 detail } else s.die e :=
  State.die_modDie s hd e _

theorem powered_iff (x : Die) : powered x = true ↔ x.rails = [.vppHbm, .vddqHbm, .vddCore, .vddIo] := by simp [powered, allRails]

theorem exec_powerRail_up {d : Nat} (hd : d < 4) (r : Rail) (s : State) : exec (.powerRail d r true) s = .next (s.modDie d fun x =>
    let rails := if r ∈ x.rails then x.rails else x.rails ++ [r]
    { x with rails := rails, phase := if rails = [.vppHbm, .vddqHbm, .vddCore, .vddIo] ∧ x.phase = 0 then 1 else x.phase }) := by
  have eq : exec (.powerRail d r true) s = execPowerRail d r true s := rfl
  rw [eq, execPowerRail, if_neg (by omega), if_pos rfl]
  congr 2
  funext x
  simp only [powered_iff, List.contains_iff_mem]
  generalize (if r ∈ x.rails then x.rails else x.rails ++ [r]) = rails
  split
  · rfl
  · rfl

theorem exec_powerRail_down {d : Nat} (hd : d < 4) (r : Rail) (s : State) : exec (.powerRail d r false) s =
    .next ((resetDie s d).modDie d fun x => { x with rails := x.rails.filter (· != r), phase := 0 }) := by
  have eq : exec (.powerRail d r false) s = execPowerRail d r false s := rfl
  rw [eq, execPowerRail, if_neg (by omega), if_neg (by decide)]

theorem exec_cdResetN_low {d : Nat} (hd : d < 4) (s : State) : exec (.cdResetN d false) s =
    .next ((resetDie s d).modDie d fun x => { x with rails := x.rails, phase := if powered x then 1 else 0 }) := by
  have eq : exec (.cdResetN d false) s = execCdResetN d false s := rfl
  rw [eq, execCdResetN, if_neg (by omega), if_pos (by decide)]

/-- What a die in reset keeps of its rails. -/
theorem resetDie_modDie_die (s : State) {d : Nat} (hd : d < 4) (f : Die → Die) : ((resetDie s d).modDie d f).die d =
    f { Die.reset with rails := (s.die d).rails, minSv := (s.die d).minSv } := by
  rw [State.die_modDie _ hd, if_pos rfl, resetDie_die s hd, if_pos rfl]

theorem State.postEvent_eq (s : State) (d kind fkind idx : Nat) : s.postEvent d kind fkind idx =
    { s with dies := (s.postEvent d kind fkind idx).dies, msix := s.msix ++ [(d, 2047)] } := rfl

@[simp] theorem State.postEvent_gangs (s : State) (d kind fkind idx : Nat) : (s.postEvent d kind fkind idx).gangs = s.gangs := rfl

/-- The state in which a die withholds issue slots or gives them again. -/
def throttled (s : State) (d : Nat) (on : Bool) : State := (readSensors s d).modDie d fun x => { x with throttle := on }

theorem throttled_die (s : State) {d : Nat} (hd : d < 4) (on : Bool) (e : Nat) : (throttled s d on).die e = if e = d then
    { s.die e with temp := Config.sensor (2 * s.tick), pwr := Config.sensor (2 * s.tick + 1), throttle := on } else s.die e := by
  rw [throttled, State.die_modDie _ hd, readSensors, State.die_modDie _ hd]
  split
  · rfl
  · rfl

theorem exec_thermalThrottle {d : Nat} (hd : d < 4) (on : Bool) (s : State) : exec (.thermalThrottle d on) s =
    .next (if on = true ∧ (s.die d).throttle = false then (throttled s d on).postEvent d 2 8 0 else throttled s d on) := by
  have eq : exec (.thermalThrottle d on) s = execThermalThrottle d on s := rfl
  have before : ((readSensors s d).die d).throttle = (s.die d).throttle := by rw [readSensors, State.die_modDie _ hd, if_pos rfl]
  rw [eq, execThermalThrottle, if_neg (by omega)]
  dsimp only
  rw [before]
  simp only [Bool.not_eq_true']
  split
  · rfl
  · rfl

theorem exec_thermalThrottle_holds {d : Nat} (hd : d < 4) (on : Bool) (s : State) : ∃ t : State, exec (.thermalThrottle d on) s = .next t ∧
    t = { s with dies := t.dies, msix := t.msix } ∧ (t.die d).throttle = on ∧ (∀ e, e ≠ d → t.die e = s.die e) ∧
    (t.die d).trip = (s.die d).trip ∧ (t.die d).phase = (s.die d).phase ∧
    (if on = true ∧ (s.die d).throttle = false then t.msix = s.msix ++ [(d, 2047)] ∧ (t.die d).evHead = (s.die d).evHead + 1
     else t.msix = s.msix ∧ (t.die d).evHead = (s.die d).evHead) := by
  have own := throttled_die s hd on d
  rw [if_pos rfl] at own
  have other (e : Nat) (ne : e ≠ d) : (throttled s d on).die e = s.die e := (throttled_die s hd on e).trans (if_neg ne)
  have rest : throttled s d on = { s with dies := (throttled s d on).dies } := rfl
  have msix : (throttled s d on).msix = s.msix := rfl
  refine ⟨_, exec_thermalThrottle hd on s, ?_⟩
  generalize throttled s d on = u at *
  split
  next raised =>
    have posted (e : Nat) := State.postEvent_die u hd 2 8 0 e
    refine ⟨?_, ?_, fun e ne => ?_, ?_, ?_, ?_, ?_⟩
    · rw [State.postEvent_eq, rest]
    · rw [posted, if_pos rfl, own]
    · rw [posted, if_neg ne, other e ne]
    · rw [posted, if_pos rfl, own]
    · rw [posted, if_pos rfl, own]
    · rw [State.postEvent_eq, msix]
    · rw [posted, if_pos rfl, own]
  next =>
    refine ⟨?_, ?_, other, ?_, ?_, msix, ?_⟩
    · rw [rest]
    all_goals rw [own]

/-- Stopping the placed gangs that a predicate names, seen at one gang. -/
theorem stopGangs_findGang (s : State) (f : Gang → Bool) {k : Nat} {x : Gang} (h : s.findGang k = some x) :
    ∃ y, (stopGangs s f).findGang k = some y ∧
      ((∃ g ∈ s.gangs, placed g = true ∧ f g = true ∧ k = g.id ∧ ∀ r, g.st ≠ .releasing r) → Stopped y) ∧
      ((∀ g ∈ s.gangs, f g = true → k ≠ g.id) → y = x) := by
  have chosen : ∀ g ∈ s.gangs.filter (fun g => placed g && f g), g ∈ s.gangs ∧ placed g = true ∧ f g = true := fun g hg => by
    simpa using List.mem_filter.mp hg
  obtain ⟨y, found, stops, other⟩ := foldl_stopForFence_findGang (fun g hg => (chosen g hg).2.1) s h
  refine ⟨y, found, fun ⟨g, hg, on, named, same, live⟩ => ?_, fun c => other fun g hg => c g (chosen g hg).1 (chosen g hg).2.2⟩
  exact stops (.inr ⟨g, List.mem_filter.mpr ⟨hg, by simp [on, named]⟩, same, live⟩)

theorem exec_thermalTrip {d : Nat} (hd : d < 4) (s : State) : exec (.thermalTrip d) s =
    .next (((stopGangs (readSensors s d) fun g => g.die == d).modDie d fun x => { x with trip := true }).postEvent d 3 8 0) := by
  have eq : exec (.thermalTrip d) s = execThermalTrip d s := rfl
  rw [eq, execThermalTrip, if_neg (by omega)]

theorem exec_thermalTrip_holds {d : Nat} (hd : d < 4) {s : State} (ids : ∀ g ∈ s.gangs, s.findGang g.id = some g) :
    ∃ t : State, exec (.thermalTrip d) s = .next t ∧ (t.die d).trip = true ∧
      ∀ g ∈ s.gangs, ∃ h, t.findGang g.id = some h ∧
        (g.die = d → placed g = true → (∀ f, g.st ≠ .releasing f) → h.st = .releasing true ∧ h.exited = BitVec.allOnes 32) ∧
        (g.die ≠ d → h.st = g.st) := by
  refine ⟨_, exec_thermalTrip hd s, ?_, fun g hg => ?_⟩
  · rw [State.postEvent_die _ hd, if_pos rfl, State.die_modDie _ hd, if_pos rfl]
  obtain ⟨h, found, stops, other⟩ := stopGangs_findGang (readSensors s d) (fun g => g.die == d) (ids g hg)
  have tripped (u : State) : ((u.modDie d fun x => { x with trip := true }).postEvent d 3 8 0).findGang g.id = u.findGang g.id := by
    rw [State.findGang, State.postEvent_gangs, State.modDie_gangs, State.findGang]
  refine ⟨h, (tripped _).trans found, fun at_ on live => stops ⟨g, hg, on, by simpa using at_, rfl, live⟩, fun at_ => ?_⟩
  rw [other fun x hx mine same => ?_]
  have one := ids x hx
  rw [← same, ids g hg, Option.some.injEq] at one
  exact at_ (one ▸ eq_of_beq mine)

/-! ### Uncorrectable errors (R153, R199, R395) -/

theorem regWord_dead {core slot name word : Nat} {s : State} {v : Vlc} (found : s.findVlc core slot = some v)
    (hc : core < 576) (hs : slot < 4) (hn : name < 256) (hw : word < 64) (dead : v.vf.dead.getLsbD name = true) :
    exec (.uncorrectableError (.regWord core slot name word none)) s = .next s := by
  have eq : exec (.uncorrectableError (.regWord core slot name word none)) s = execUncorrectableError (.regWord core slot name word none) s := rfl
  rw [eq]
  simp [execUncorrectableError, found, rowExists, dead, Nat.not_le_of_lt hc, Nat.not_le_of_lt hs, Nat.not_le_of_lt hn, Nat.not_le_of_lt hw]

/-- A word of a VLC's row: the VLC and the strips that have not written the name. -/
theorem poisonRow_holds (v : Vlc) (x : Nat × Nat) :
    (∀ y, y ∈ (poisonRow v x).poison ↔ y = x ∨ y ∈ v.poison) ∧
    (v.fan = none → (poisonRow v x).fan = none) ∧ (∀ f, v.fan = some f → ∃ g, (poisonRow v x).fan = some g ∧ g = { f with strips := g.strips } ∧
      g.strips.length = f.strips.length ∧ ∀ (k : Nat) (y : Strip), f.strips[k]? = some y → ∃ z, g.strips[k]? = some z ∧
        z = { y with poison := z.poison } ∧ ∀ w, w ∈ z.poison ↔ w ∈ y.poison ∨ w = x ∧ y.vf.wrote.getLsbD x.1 = false) := by
  refine ⟨fun y => mem_poisoned x y v.poison, fun idle => by simp [poisonRow, idle], fun f busy => ⟨_, by rw [poisonRow, busy]; rfl, rfl, ?_, ?_⟩⟩
  · exact List.length_map _
  · intro k y at_
    refine ⟨_, by rw [List.getElem?_map, at_]; rfl, ?_, fun w => ?_⟩
    all_goals dsimp only
    · split
      · rfl
      · rfl
    · split
      next written => simp [written]
      next unwritten =>
        simp only [Bool.not_eq_true] at unwritten
        rw [unwritten]
        exact (mem_poisoned x w y.poison).trans (or_comm.trans (by simp))

/-- A word of a row that only a strip has. -/
theorem poisonPrivate_holds {v : Vlc} {f : Fan} (fan : v.fan = some f) {y : Strip} (row : y ∈ f.strips) {k : Nat} {x : Nat × Nat}
    (own : hasPrivate k x.1 y = true) : ∃ (g : Fan) (z : Strip), poisonPrivate v k x = { v with fan := some g } ∧ z ∈ g.strips ∧
      z = { y with poison := z.poison } ∧ ∀ w, w ∈ z.poison ↔ w = x ∨ w ∈ y.poison := by
  refine ⟨_, _, by rw [poisonPrivate, fan]; rfl, List.mem_map_of_mem row, ?_, fun w => ?_⟩
  all_goals rw [if_pos own]
  exact mem_poisoned x w y.poison

theorem regWord_row {core slot name word : Nat} {s : State} {v : Vlc} (found : s.findVlc core slot = some v)
    (hc : core < 576) (hs : slot < 4) (hn : name < 256) (hw : word < 64) (alive : v.vf.dead.getLsbD name = false) :
    ∃ (t : State) (w : Vlc),
      exec (.uncorrectableError (.regWord core slot name word none)) s = .next t ∧ t.findVlc core slot = some w ∧
      (∀ x, x ∈ w.poison ↔ x = (name, word) ∨ x ∈ v.poison) ∧ w = { v with poison := w.poison, fan := w.fan } ∧
      (v.fan = none → w.fan = none) ∧ (∀ f, v.fan = some f → ∃ g, w.fan = some g ∧ g = { f with strips := g.strips } ∧
        g.strips.length = f.strips.length ∧ ∀ (k : Nat) (y : Strip), f.strips[k]? = some y → ∃ z, g.strips[k]? = some z ∧
          z = { y with poison := z.poison } ∧
          ∀ x, x ∈ z.poison ↔ x ∈ y.poison ∨ x = (name, word) ∧ y.vf.wrote.getLsbD name = false) ∧
      t.mem = s.mem ∧ t.cores = s.cores := by
  obtain ⟨poison, blank, strips⟩ := poisonRow_holds v (name, word)
  have counted := countPoison_counts (s.modVlcAt core slot (poisonWord none (name, word))) (coreDie core) (some (s.gangOf v.gang).queue) 0 (core % 144)
  exact ⟨_, poisonRow v (name, word), exec_regWord hc hs hn hw found (by simp [rowExists, alive]), findVlc_poisonWord found none _ counted,
    poison, rfl, blank, strips, counted.mem, counted.cores⟩

theorem regWord_strip {core slot name word k : Nat} {s : State} {v : Vlc} {f : Fan} {y : Strip} (found : s.findVlc core slot = some v)
    (hc : core < 576) (hs : slot < 4) (hn : name < 256) (hw : word < 64) (fan : v.fan = some f) (row : y ∈ f.strips)
    (own : hasPrivate k name y = true) :
    ∃ (t : State) (w : Vlc) (g : Fan) (z : Strip),
      exec (.uncorrectableError (.regWord core slot name word (some k))) s = .next t ∧ t.findVlc core slot = some w ∧
      w = { v with fan := some g } ∧ z ∈ g.strips ∧ z = { y with poison := z.poison } ∧
      (∀ x, x ∈ z.poison ↔ x = (name, word) ∨ x ∈ y.poison) ∧ t.mem = s.mem ∧ t.cores = s.cores := by
  obtain ⟨g, z, changed, holds⟩ := poisonPrivate_holds fan row (x := (name, word)) own
  obtain ⟨mem_, kept, poison⟩ := holds
  have counted := countPoison_counts (s.modVlcAt core slot (poisonWord (some k) (name, word))) (coreDie core) (some (s.gangOf v.gang).queue) 0
    (core % 144)
  exact ⟨_, _, g, z, exec_regWord hc hs hn hw found (rowExists_strip fan row own), findVlc_poisonWord found (some k) _ counted,
    changed, mem_, kept, poison, counted.mem, counted.cores⟩

theorem lsWord_holds {s : State} (ok : Tab.wf CoreSt.reset s.cores = true) {core word : Nat} (hc : core < 576) (hw : word < 131072) :
    ∃ t : State, exec (.uncorrectableError (.lsWord core word)) s = .next t ∧
      (∀ x, x ∈ (t.core core).lsPoison ↔ x = word ∨ x ∈ (s.core core).lsPoison) ∧ t.vlc = s.vlc ∧ t.mem = s.mem := by
  have eq : exec (.uncorrectableError (.lsWord core word)) s = execUncorrectableError (.lsWord core word) s := rfl
  rw [eq, execUncorrectableError, if_neg (by omega)]
  have counted := countPoison_counts (s.modCore core fun k => { k with
      lsPoison := if k.lsPoison.contains word then k.lsPoison else word :: k.lsPoison })
      (coreDie core) (lsQueue s core (4 * word)) 0 (core % 144)
  refine ⟨_, rfl, fun x => ?_, counted.vlc, counted.mem⟩
  rw [counted.core, State.core_modCore ok, if_pos rfl]
  exact mem_poisoned word x _

theorem sector_holds {s : State} {pa : Nat} (hp : pa < deviceEnd) :
    ∃ t : State, exec (.uncorrectableError (.sector pa)) s = .next t ∧
      (∀ x, x ∈ t.poison ↔ x = pa / 32 ∨ x ∈ s.poison) ∧ t.vlc = s.vlc ∧ t.mem = s.mem ∧ t.cores = s.cores := by
  have eq : exec (.uncorrectableError (.sector pa)) s = execUncorrectableError (.sector pa) s := rfl
  rw [eq, execUncorrectableError, if_neg (Nat.not_le_of_lt hp)]
  have counted := countPoison_counts { s with poison := if s.poison.contains (pa / 32) then s.poison else pa / 32 :: s.poison } (homeDie pa) none 3
    (hbmChannel pa)
  refine ⟨_, rfl, fun x => ?_, counted.vlc, counted.mem, counted.cores⟩
  rw [counted.poison]
  exact mem_poisoned (pa / 32) x _

theorem accElem_holds {s : State} (ok : Tab.wf CoreSt.reset s.cores = true) {core row col : Nat} (hc : core < 576) (hr : row < 64) (hl : col < 64) :
    ∃ t : State, exec (.uncorrectableError (.accElem core row col)) s = .next t ∧
      (∀ x, x ∈ (t.core core).accPoison ↔ x = (row, col) ∨ x ∈ (s.core core).accPoison) ∧ (t.core core).acc = (s.core core).acc ∧
      t.vlc = s.vlc ∧ t.mem = s.mem := by
  have eq : exec (.uncorrectableError (.accElem core row col)) s = execUncorrectableError (.accElem core row col) s := rfl
  rw [eq, execUncorrectableError, if_neg (by omega)]
  have counted := countPoison_counts (s.modCore core fun k => { k with
      accPoison := if k.accPoison.contains (row, col) then k.accPoison else (row, col) :: k.accPoison })
      (coreDie core) (((s.core core).accGang.bind s.findGang).map (·.queue)) 0 (core % 144)
  refine ⟨_, rfl, fun x => ?_, ?_, counted.vlc, counted.mem⟩
  all_goals rw [counted.core, State.core_modCore ok, if_pos rfl]
  exact mem_poisoned (row, col) x _

theorem l1Byte_holds {s : State} (ok : Tab.wf CoreSt.reset s.cores = true) {core : Nat} (line : Nat) {byte : Nat} (hc : core < 576) (hb : byte < 128) :
    ∃ t : State, exec (.uncorrectableError (.l1Byte core line byte)) s = .next t ∧
      t = { s with cores := t.cores } ∧ (∀ c, c ≠ core → t.core c = s.core c) ∧
      ∀ l, l ∈ (t.core core).l1 ↔ ∃ x ∈ (s.core core).l1, (x.line ≠ line ∧ l = x) ∨ (x.line = line ∧ x.dirty ≠ 0 ∧
        l = if x.dirty.getLsbD byte then { x with bad := x.bad ||| BitVec.twoPow 128 byte }
          else { x with valid := x.valid &&& ~~~ BitVec.twoPow 128 byte }) := by
  have eq : exec (.uncorrectableError (.l1Byte core line byte)) s = execUncorrectableError (.l1Byte core line byte) s := rfl
  rw [eq, execUncorrectableError, if_neg (by omega)]
  refine ⟨_, rfl, rfl, fun c ne => ?_, fun l => ?_⟩
  · rw [State.core_modCore ok, if_neg ne]
  · rw [State.core_modCore ok, if_pos rfl]
    exact mem_parityError line byte _ l

theorem unit_holds {s : State} {d k u : Nat} (hd : d < 4) (hu : u < unitRange k) :
    ∃ t : State, exec (.uncorrectableError (.unit d k u)) s = .next t ∧
      (s.isFenced d k u = true → t = s) ∧
      (s.isFenced d k u = false → t.fenced = (d, k, u) :: s.fenced ∧ (t.die d).fencedCount = (s.die d).fencedCount + 1 ∧
        (d, 2047) ∈ t.msix) := by
  have eq : exec (.uncorrectableError (.unit d k u)) s = execUncorrectableError (.unit d k u) s := rfl
  rw [unitRange_eq] at hu
  rw [eq, execUncorrectableError, if_neg (by omega)]
  exact ⟨_, rfl, fenceUnit_fenced, fenceUnit_fences hd⟩

/-! ### The debug page (R396) -/

theorem debugVlc_stays (op : DebugOp) (v : Vlc) : (debugVlc op v).core = v.core ∧ (debugVlc op v).slot = v.slot ∧
    ((debugVlc op v).status = .absent ↔ v.status = .absent) := by
  unfold debugVlc
  split
  all_goals simp [*]

theorem debugHaltStep_holds {d core slot : Nat} (op : DebugOp) {s : State} {v : Vlc} (hd : d < 4) (hc : core < 576) (hs : slot < 4)
    (found : s.findVlc core slot = some v) :
    ∃ (t : State) (w : Vlc), exec (.debugHaltStep d core slot op) s = .next t ∧ t.findVlc core slot = some w ∧
      ((s.gangOf v.gang).queue ≠ (s.die d).qsel → w = v) ∧
      ((s.gangOf v.gang).queue = (s.die d).qsel →
        (op = .halt → v.status = .running → w = { v with status := .debug, stepping := false }) ∧
        (op = .release → v.status = .debug → w = { v with status := .running, stepping := false }) ∧
        (op = .step → v.status = .debug → w = { v with status := .running, stepping := true })) ∧
      t.mem = s.mem ∧ t.cores = s.cores := by
  have eq : exec (.debugHaltStep d core slot op) s = execDebugHaltStep d core slot op s := rfl
  rw [eq, execDebugHaltStep, if_neg (by omega)]
  refine ⟨_, _, rfl, State.findVlc_modVlcAt found fun x => ?_, fun other => if_neg other, fun mine => ?_, rfl, rfl⟩
  · split
    · exact debugVlc_stays op x
    · exact ⟨rfl, rfl, .rfl⟩
  · rw [if_pos mine]
    refine ⟨?_, ?_, ?_⟩
    all_goals
      rintro rfl status
      simp [debugVlc, status]

/-! ### The board and errors -/

/-- Settles O54: what a die in reset holds, what a trip stops and a fence counts, and where an uncorrectable error leaves its poison. -/
theorem boardAndErrors : Obligations.BoardAndErrors := by
  refine ⟨fun d r s hd => exec_powerRail_up hd r s, fun d s hd ok => ⟨fun r => ?_, ?_, fun down => ?_, fun up => ?_⟩,
    fun d on s hd => exec_thermalThrottle_holds hd on s, fun d s hd ids => exec_thermalTrip_holds hd ids, fun s ok => ?_,
    fun d core slot op s v hd hc hs found => debugHaltStep_holds op hd hc hs found⟩
  · have die := resetDie_modDie_die s hd fun x => { x with rails := x.rails.filter (· != r), phase := 0 }
    exact ⟨_, exec_powerRail_down hd r s, resetDie_cleared hd ok (·.filter (· != r)) fun _ => 0, congrArg Die.phase die, congrArg Die.rails die⟩
  · have die := resetDie_modDie_die s hd fun x => { x with rails := x.rails, phase := if powered x then 1 else 0 }
    refine ⟨_, exec_cdResetN_low hd s, resetDie_cleared hd ok id fun x => if powered x then 1 else 0, (congrArg Die.rails die :),
      (congrArg Die.phase die).trans ?_⟩
    simp only [powered_iff]
  · rw [exec_cdResetN_high hd, if_pos down]
  · refine ⟨_, (exec_cdResetN_high hd).trans (if_neg (not_not.mpr up)), rfl, ?_, fun e ne => ?_, ?_⟩
    · rw [stopBoot_die _ hd, if_pos rfl, State.die_modDie _ hd, if_pos rfl]
    · rw [stopBoot_die _ hd, if_neg ne, State.die_modDie _ hd, if_neg ne]
    · rw [stopBoot_die _ hd, if_pos rfl]
      by_cases fails : Config.bringUpFails (4 * s.tick + d) 3 = true
      · exact .inr ⟨if_pos fails, by simp [fails]⟩
      · exact .inl ⟨if_neg fails, by simp [fails]⟩
  · obtain ⟨-, cores, -⟩ := ok
    refine ⟨fun core slot name word v hc hs hn hw found => ⟨regWord_dead found hc hs hn hw, regWord_row found hc hs hn hw, ?_⟩,
      fun core word hc hw => lsWord_holds cores hc hw, fun pa hp => sector_holds hp, fun core row col hc hr hl => accElem_holds cores hc hr hl,
      fun core line byte hc hb => l1Byte_holds cores line hc hb, fun d k u hd hu => unit_holds hd hu⟩
    intro k f y fan row strip _ written alive
    exact regWord_strip found hc hs hn hw fan row (by simp [hasPrivate, strip, written, alive])

end Sys2Proof.Machine
